-- ==== Sys2Proof/Word.lean ====
section
/-! DEFINITION. The words the machine counts in: bytes, 32-bit words, 64-bit words, binding tags. -/

namespace Sys2Proof

/-- A byte of memory. -/
abbrev Byte := BitVec 8

/-- A 32-bit word: an instruction, a register, a configuration register. -/
abbrev Word := BitVec 32

/-- A 64-bit word: an address register, a counter, a stamp. -/
abbrev DWord := BitVec 64

/-- A binding tag (R23): partition [23:20], tenant [19:8], generation [7:0]. -/
abbrev Tag := BitVec 24

end Sys2Proof
end

