-- ==== Sys2Proof/Syntax.lean ====
section
/-! DEFINITION. The operations of the Hazor HZ9: one constructor for each row of spec/opcode_table.json.
The first 226 are the encoded instructions; the fields are the bit fields of the word, in the order they
stand in it. The others are the device's own steps and the requests that reach it from outside: they have
no encoding, and their arguments say which queue, gang, copy, die or request the step is about. -/

namespace Sys2Proof

/-- A resource as records and requests name it (R27): kind 1-9 and id; `z` is the size code of R197 when
a request on kind 6 names a whole extent. -/
structure Res where
  kind : Nat
  id : Nat
  z : Option Nat
deriving DecidableEq, Repr

/-- One binding of a CREATE or BIND request (R322): the resource, and for kind 6 its world and ceiling. -/
structure BindReq where
  res : Res
  world : Nat
  rwx : BitVec 3
deriving DecidableEq, Repr

/-- Whose `BIND` it is, and for whom (R322): the partition of the supervisor that asks, and the tenant. -/
structure BindFor where
  part : Nat
  tenant : BitVec 24
deriving DecidableEq, Repr

/-- A DESTROY request (R322): from the hypervisor or from a partition's supervisor, and the tenant. -/
structure DestroyReq where
  hyper : Bool
  part : Nat
  tenant : BitVec 24
deriving DecidableEq, Repr

/-- A CREATE request (R319, R322): the supervisor's partition, the 64-byte tenant descriptor and the
resources bound in the same request. -/
structure CreateReq where
  part : Nat
  desc : List Byte
  binds : List BindReq
deriving DecidableEq, Repr

/-- A RECALL request (R322, R323). `interval` is in nanoseconds, 0 for the default; `ids` empty is count
mode; `hyper` says the hypervisor asks, else the supervisor of partition `part`. -/
structure RecallReq where
  part : Nat
  tenant : Tag
  kind : Nat
  count : Nat
  ids : List Nat
  interval : Nat
  hyper : Bool
deriving DecidableEq, Repr

/-- An EXPORT or UNEXPORT request (R335): the frame or extent, the remote device and tenant, the rights,
and the supervisor's partition. -/
structure ExportReq where
  part : Nat
  frame : Nat
  z : Option Nat
  dev : Nat
  tenant : Tag
  rwx : BitVec 3
deriving DecidableEq, Repr

/-- What a request from another device does at its target. -/
inductive RemoteOp where
  | read
  | write (data : List Byte)
  | atomic (op : Nat) (x y : Nat) (back : Bool)
deriving DecidableEq, Repr

/-- A request that reaches this device's island from another device (R335, R390); `poison` is that of an error on its way (R370). -/
structure RemoteReq where
  dev : Nat
  tag : Tag
  world : Nat
  off : Nat
  size : Nat
  op : RemoteOp
  poison : Option (BitVec 12)
deriving DecidableEq, Repr

/-- A context (R365): a gang's image, `n` frames from `first` on, or the state of a whole world. -/
inductive Ctx where
  | gang (g : Nat)
  | frames (first n : Nat)
  | world (w : Nat)
deriving DecidableEq, Repr

/-- The header of a sealed image (R365): world, context id and epoch. -/
structure SealedImage where
  world : Nat
  ctx : Ctx
  epoch : Nat
deriving DecidableEq, Repr

/-- A packet at an island (R387, R388): its number, the link it came by, its target device, virtual channel, hops already taken, its
flits, the fill of each link's outgoing buffer in flits, and the poison of an error on its way (R370). -/
structure Packet where
  num : Nat
  link : Nat
  target : Nat
  vc : Nat
  hops : Nat
  tag : Tag
  flits : Nat
  fill : List Nat
  poison : Option (BitVec 12)
deriving DecidableEq, Repr

/-- A data error at a hop of R370: `hop` is the row h, `fixed` says the check corrected it, `place` and
`idx` say where the datum is (its granule of R373). -/
structure HopError where
  hop : Nat
  fixed : Bool
  place : Nat
  idx : Nat
deriving DecidableEq, Repr

/-- A queue request to CW0 (R288, R290): the queue's number, QCB address and privileged fields, who asks
(`hyper`, or the supervisor of `part`), and whether a tampered queue is cleared. -/
structure QueueReq where
  q : Nat
  qcb : Nat
  owner : Tag
  pcap : Nat
  world : Nat
  bucket : Nat
  part : Nat
  hyper : Bool
  clear : Bool
deriving DecidableEq, Repr

/-- The operations: one constructor per row of the opcode table. -/
inductive Instr where
  /-- R176: NOP. No operation. -/
  | nop
  /-- R177: EXIT. The thread becomes exited and the block ends. -/
  | exit
  /-- R176: YIELD. Parks the thread ready at PC + 4 and ends the block. -/
  | yield
  /-- R178: SLEEP. Parks the thread at PC + 4 with wait reason sleep for n cycles and ends the block. -/
  | sleep (n : BitVec 20)
  /-- R81: UBLK. At a key it marks the block uniform; anywhere else it ends the block before itself. -/
  | ublk
  /-- R342: TRAP. Raises USER_TRAP with the trap number and ends the block. -/
  | trap (n : BitVec 8)
  /-- R342: TRET_NEXT. Leaves the handler, clears the in-trap bit and parks the thread at %fpc + 4. -/
  | tretNext
  /-- R342: TRET_RETRY. Leaves the handler, restores the saved hints and parks the thread at %fpc. -/
  | tretRetry
  /-- R342: BRK. In a debug launch raises BREAKPOINT; otherwise does nothing. -/
  | brk (c : BitVec 8)
  /-- R114: IADD. Writes the 32-bit wrapping sum. -/
  | iadd (d : BitVec 7) (a : BitVec 8) (b : BitVec 8)
  /-- R114: ISUB. Writes the 32-bit wrapping difference. -/
  | isub (d : BitVec 7) (a : BitVec 8) (b : BitVec 8)
  /-- R114: IADDS_S. Writes the signed saturating sum. -/
  | iaddsS (d : BitVec 7) (a : BitVec 8) (b : BitVec 8)
  /-- R114: ISUBS_S. Writes the signed saturating difference. -/
  | isubsS (d : BitVec 7) (a : BitVec 8) (b : BitVec 8)
  /-- R114: IMIN_S. Writes the signed minimum. -/
  | iminS (d : BitVec 7) (a : BitVec 8) (b : BitVec 8)
  /-- R114: IMIN_U. Writes the unsigned minimum. -/
  | iminU (d : BitVec 7) (a : BitVec 8) (b : BitVec 8)
  /-- R114: IMAX_S. Writes the signed maximum. -/
  | imaxS (d : BitVec 7) (a : BitVec 8) (b : BitVec 8)
  /-- R114: IMAX_U. Writes the unsigned maximum. -/
  | imaxU (d : BitVec 7) (a : BitVec 8) (b : BitVec 8)
  /-- R115: IMUL. Writes the low 32 bits of the product. -/
  | imul (d : BitVec 7) (a : BitVec 8) (b : BitVec 8)
  /-- R115: IMULH_S. Writes the high 32 bits of the signed product. -/
  | imulhS (d : BitVec 7) (a : BitVec 8) (b : BitVec 8)
  /-- R115: IMULH_U. Writes the high 32 bits of the unsigned product. -/
  | imulhU (d : BitVec 7) (a : BitVec 8) (b : BitVec 8)
  /-- R115: IMAC. Adds the product to vd. -/
  | imac (d : BitVec 7) (a : BitVec 8) (b : BitVec 8)
  /-- R115: IDOT4_S. Adds the signed byte dot product to vd. -/
  | idot4S (d : BitVec 7) (a : BitVec 8) (b : BitVec 8)
  /-- R115: IDOT4_U. Adds the unsigned byte dot product to vd. -/
  | idot4U (d : BitVec 7) (a : BitVec 8) (b : BitVec 8)
  /-- R115: IABSD. Writes the absolute difference of the signed operands. -/
  | iabsd (d : BitVec 7) (a : BitVec 8) (b : BitVec 8)
  /-- R116: AND. Writes the bitwise AND. -/
  | and (d : BitVec 7) (a : BitVec 8) (b : BitVec 8)
  /-- R116: OR. Writes the bitwise OR. -/
  | or (d : BitVec 7) (a : BitVec 8) (b : BitVec 8)
  /-- R116: XOR. Writes the bitwise XOR. -/
  | xor (d : BitVec 7) (a : BitVec 8) (b : BitVec 8)
  /-- R116: ANDN. Writes a AND NOT b. -/
  | andn (d : BitVec 7) (a : BitVec 8) (b : BitVec 8)
  /-- R116: ORN. Writes a OR NOT b. -/
  | orn (d : BitVec 7) (a : BitVec 8) (b : BitVec 8)
  /-- R116: XNOR. Writes NOT (a XOR b). -/
  | xnor (d : BitVec 7) (a : BitVec 8) (b : BitVec 8)
  /-- R118: SHL. Shifts left by the amount modulo 32. -/
  | shl (d : BitVec 7) (a : BitVec 8) (b : BitVec 8)
  /-- R118: SHR. Shifts right logically. -/
  | shr (d : BitVec 7) (a : BitVec 8) (b : BitVec 8)
  /-- R118: SAR. Shifts right arithmetically. -/
  | sar (d : BitVec 7) (a : BitVec 8) (b : BitVec 8)
  /-- R118: ROL. Rotates left. -/
  | rol (d : BitVec 7) (a : BitVec 8) (b : BitVec 8)
  /-- R118: ROR. Rotates right. -/
  | ror (d : BitVec 7) (a : BitVec 8) (b : BitVec 8)
  /-- R118: FSHR. Funnel-shifts a and vd right. -/
  | fshr (d : BitVec 7) (a : BitVec 8) (b : BitVec 8)
  /-- R120: POPC. Counts the one bits. -/
  | popc (d : BitVec 7) (a : BitVec 8)
  /-- R120: CLZ. Counts the leading zeros. -/
  | clz (d : BitVec 7) (a : BitVec 8)
  /-- R120: CTZ. Counts the trailing zeros. -/
  | ctz (d : BitVec 7) (a : BitVec 8)
  /-- R120: BREV. Reverses the bits. -/
  | brev (d : BitVec 7) (a : BitVec 8)
  /-- R121: BFX_S. Extracts a bit field with sign extension. -/
  | bfxS (d : BitVec 7) (a : BitVec 8) (b : BitVec 8)
  /-- R121: BFX_U. Extracts a bit field with zero extension. -/
  | bfxU (d : BitVec 7) (a : BitVec 8) (b : BitVec 8)
  /-- R121: BFI. Inserts a bit field into vd. -/
  | bfi (d : BitVec 7) (a : BitVec 8) (b : BitVec 8)
  /-- R122: PERMB. Permutes bytes under four selectors. -/
  | permb (d : BitVec 7) (a : BitVec 8) (b : BitVec 8)
  /-- R117: IADDI. Adds the sign-extended 11-bit immediate. -/
  | iaddi (d : BitVec 7) (a : BitVec 8) (i : BitVec 11)
  /-- R117: ANDI. ANDs the sign-extended immediate. -/
  | andi (d : BitVec 7) (a : BitVec 8) (i : BitVec 11)
  /-- R117: ORI. ORs the sign-extended immediate. -/
  | ori (d : BitVec 7) (a : BitVec 8) (i : BitVec 11)
  /-- R117: XORI. XORs the sign-extended immediate. -/
  | xori (d : BitVec 7) (a : BitVec 8) (i : BitVec 11)
  /-- R119: SHLI. Shifts left by an immediate amount. -/
  | shli (d : BitVec 7) (a : BitVec 8) (n : BitVec 5)
  /-- R119: SHRI. Shifts right logically by an immediate amount. -/
  | shri (d : BitVec 7) (a : BitVec 8) (n : BitVec 5)
  /-- R119: SARI. Shifts right arithmetically by an immediate amount. -/
  | sari (d : BitVec 7) (a : BitVec 8) (n : BitVec 5)
  /-- R119: ROLI. Rotates left by an immediate amount. -/
  | roli (d : BitVec 7) (a : BitVec 8) (n : BitVec 5)
  /-- R119: RORI. Rotates right by an immediate amount. -/
  | rori (d : BitVec 7) (a : BitVec 8) (n : BitVec 5)
  /-- R123: ICMP. Sets pd to the integer comparison. -/
  | icmp (p : BitVec 3) (c : BitVec 4) (a : BitVec 8) (b : BitVec 8)
  /-- R123: ICMP_AND. ANDs the integer comparison into pd. -/
  | icmpAnd (p : BitVec 3) (c : BitVec 4) (a : BitVec 8) (b : BitVec 8)
  /-- R123: ICMP_OR. ORs the integer comparison into pd. -/
  | icmpOr (p : BitVec 3) (c : BitVec 4) (a : BitVec 8) (b : BitVec 8)
  /-- R168: FCMP. Sets pd to the FP32 or FP64 comparison and raises NV as the table says. -/
  | fcmp (p : BitVec 3) (c : BitVec 4) (a : BitVec 8) (b : BitVec 8) (w : BitVec 1)
  /-- R168: FCMP_AND. ANDs the floating-point comparison into pd. -/
  | fcmpAnd (p : BitVec 3) (c : BitVec 4) (a : BitVec 8) (b : BitVec 8) (w : BitVec 1)
  /-- R168: FCMP_OR. ORs the floating-point comparison into pd. -/
  | fcmpOr (p : BitVec 3) (c : BitVec 4) (a : BitVec 8) (b : BitVec 8) (w : BitVec 1)
  /-- R124: PAND. Writes the AND of two predicates. -/
  | pand (d : BitVec 3) (a : BitVec 3) (b : BitVec 3)
  /-- R124: POR. Writes the OR of two predicates. -/
  | por (d : BitVec 3) (a : BitVec 3) (b : BitVec 3)
  /-- R124: PXOR. Writes the XOR of two predicates. -/
  | pxor (d : BitVec 3) (a : BitVec 3) (b : BitVec 3)
  /-- R124: PNOT. Writes the negation of a predicate. -/
  | pnot (d : BitVec 3) (a : BitVec 3)
  /-- R124: PSETNZ. Sets pd when the source is nonzero. -/
  | psetnz (d : BitVec 3) (a : BitVec 8)
  /-- R125: SEL. Selects sa or sb by a predicate. -/
  | sel (d : BitVec 7) (a : BitVec 8) (b : BitVec 8) (p : BitVec 3)
  /-- R156: FADD. Writes the rounded FP32 sum. -/
  | fadd (d : BitVec 7) (a : BitVec 8) (b : BitVec 8)
  /-- R156: FSUB. Writes the rounded FP32 difference. -/
  | fsub (d : BitVec 7) (a : BitVec 8) (b : BitVec 8)
  /-- R156: FMUL. Writes the rounded FP32 product. -/
  | fmul (d : BitVec 7) (a : BitVec 8) (b : BitVec 8)
  /-- R157: FMIN. Writes MinNum of the operands. -/
  | fmin (d : BitVec 7) (a : BitVec 8) (b : BitVec 8)
  /-- R157: FMAX. Writes MaxNum of the operands. -/
  | fmax (d : BitVec 7) (a : BitVec 8) (b : BitVec 8)
  /-- R157: FMINM. Writes the NaN-propagating minimum. -/
  | fminm (d : BitVec 7) (a : BitVec 8) (b : BitVec 8)
  /-- R157: FMAXM. Writes the NaN-propagating maximum. -/
  | fmaxm (d : BitVec 7) (a : BitVec 8) (b : BitVec 8)
  /-- R156: FCOPYS. Copies the sign of b onto a. -/
  | fcopys (d : BitVec 7) (a : BitVec 8) (b : BitVec 8)
  /-- R158: FMAC. Writes the fused a×b + vd. -/
  | fmac (d : BitVec 7) (a : BitVec 8) (b : BitVec 8)
  /-- R158: FMSC. Writes the fused a×b − vd. -/
  | fmsc (d : BitVec 7) (a : BitVec 8) (b : BitVec 8)
  /-- R158: FNMAC. Writes the fused −(a×b) + vd. -/
  | fnmac (d : BitVec 7) (a : BitVec 8) (b : BitVec 8)
  /-- R158: FNMSC. Writes the fused −(a×b) − vd. -/
  | fnmsc (d : BitVec 7) (a : BitVec 8) (b : BitVec 8)
  /-- R159: FRCP. Writes the correctly rounded reciprocal. -/
  | frcp (d : BitVec 7) (a : BitVec 8)
  /-- R159: FSQRT. Writes the correctly rounded square root. -/
  | fsqrt (d : BitVec 7) (a : BitVec 8)
  /-- R159: FRSQ. Writes the correctly rounded reciprocal square root. -/
  | frsq (d : BitVec 7) (a : BitVec 8)
  /-- R159: FEXP2. Writes the correctly rounded 2^a. -/
  | fexp2 (d : BitVec 7) (a : BitVec 8)
  /-- R159: FLOG2. Writes the correctly rounded log2 a. -/
  | flog2 (d : BitVec 7) (a : BitVec 8)
  /-- R159: FSINPI. Writes the correctly rounded sin(πa). -/
  | fsinpi (d : BitVec 7) (a : BitVec 8)
  /-- R159: FCOSPI. Writes the correctly rounded cos(πa). -/
  | fcospi (d : BitVec 7) (a : BitVec 8)
  /-- R159: FRINT. Rounds a to an integral value in the dynamic mode. -/
  | frint (d : BitVec 7) (a : BitVec 8)
  /-- R162: FDIV. Writes the correctly rounded quotient. -/
  | fdiv (d : BitVec 7) (a : BitVec 8) (b : BitVec 8)
  /-- R163: FCLASS. Writes the one-hot class mask. -/
  | fclass (d : BitVec 7) (a : BitVec 8)
  /-- R163: FNEG. Inverts the sign bit. -/
  | fneg (d : BitVec 7) (a : BitVec 8)
  /-- R163: FABS. Clears the sign bit. -/
  | fabs (d : BitVec 7) (a : BitVec 8)
  /-- R162: FSCALE. Writes the rounded a × 2^b. -/
  | fscale (d : BitVec 7) (a : BitVec 8) (b : BitVec 8)
  /-- R164: FGETEXP. Writes the exponent as S32. -/
  | fgetexp (d : BitVec 7) (a : BitVec 8)
  /-- R164: FGETMAN. Writes the normalised significand. -/
  | fgetman (d : BitVec 7) (a : BitVec 8)
  /-- R165: HADD2. Adds packed FP16 or BF16 halves. -/
  | hadd2 (d : BitVec 7) (a : BitVec 8) (b : BitVec 8) (t : BitVec 1)
  /-- R165: HMUL2. Multiplies packed halves. -/
  | hmul2 (d : BitVec 7) (a : BitVec 8) (b : BitVec 8) (t : BitVec 1)
  /-- R165: HMAC2. Fused multiply-adds packed halves into vd. -/
  | hmac2 (d : BitVec 7) (a : BitVec 8) (b : BitVec 8) (t : BitVec 1)
  /-- R165: HMAX2. Writes MaxNum of packed halves. -/
  | hmax2 (d : BitVec 7) (a : BitVec 8) (b : BitVec 8) (t : BitVec 1)
  /-- R166: HMIN2_F16. Writes MinNum of packed FP16 halves. -/
  | hmin2F16 (d : BitVec 7) (a : BitVec 8) (b : BitVec 8)
  /-- R166: HMIN2_BF16. Writes MinNum of packed BF16 halves. -/
  | hmin2Bf16 (d : BitVec 7) (a : BitVec 8) (b : BitVec 8)
  /-- R166: HSUB2_F16. Subtracts packed FP16 halves. -/
  | hsub2F16 (d : BitVec 7) (a : BitVec 8) (b : BitVec 8)
  /-- R166: HSUB2_BF16. Subtracts packed BF16 halves. -/
  | hsub2Bf16 (d : BitVec 7) (a : BitVec 8) (b : BitVec 8)
  /-- R166: HDOT2_F16. Adds the FP16 pair dot product to an FP32 vd with one rounding. -/
  | hdot2F16 (d : BitVec 7) (a : BitVec 8) (b : BitVec 8)
  /-- R166: HDOT2_BF16. Adds the BF16 pair dot product to an FP32 vd with one rounding. -/
  | hdot2Bf16 (d : BitVec 7) (a : BitVec 8) (b : BitVec 8)
  /-- R169: CVT. Converts between formats per the conversion code, with its own rounding and saturate fields. -/
  | cvt (d : BitVec 7) (a : BitVec 8) (c : BitVec 8) (s : BitVec 1) (r : BitVec 2)
  /-- R172: PACKN. Saturates a to S4 and writes it into nibble i of vd. -/
  | packn (d : BitVec 7) (a : BitVec 8) (b : BitVec 8)
  /-- R172: UNPKN_S. Sign-extends nibble i. -/
  | unpknS (d : BitVec 7) (a : BitVec 8) (b : BitVec 8)
  /-- R172: UNPKN_U. Zero-extends nibble i. -/
  | unpknU (d : BitVec 7) (a : BitVec 8) (b : BitVec 8)
  /-- R172: PACKH. Packs the low halves of a and b. -/
  | packh (d : BitVec 7) (a : BitVec 8) (b : BitVec 8)
  /-- R167: DADD. Writes the rounded FP64 sum. -/
  | dadd (d : BitVec 6) (a : BitVec 8) (b : BitVec 8)
  /-- R167: DSUB. Writes the rounded FP64 difference. -/
  | dsub (d : BitVec 6) (a : BitVec 8) (b : BitVec 8)
  /-- R167: DMUL. Writes the rounded FP64 product. -/
  | dmul (d : BitVec 6) (a : BitVec 8) (b : BitVec 8)
  /-- R167: DFMAC. Writes the fused FP64 a×b + vd. -/
  | dfmac (d : BitVec 6) (a : BitVec 8) (b : BitVec 8)
  /-- R167: DMIN. Writes the FP64 MinNum. -/
  | dmin (d : BitVec 6) (a : BitVec 8) (b : BitVec 8)
  /-- R167: DMAX. Writes the FP64 MaxNum. -/
  | dmax (d : BitVec 6) (a : BitVec 8) (b : BitVec 8)
  /-- R167: DDIV. Writes the FP64 quotient. -/
  | ddiv (d : BitVec 6) (a : BitVec 8) (b : BitVec 8)
  /-- R167: DSQRT. Writes the FP64 square root. -/
  | dsqrt (d : BitVec 6) (a : BitVec 8)
  /-- R216: LD. Checks alignment and translation, marks vt pending and issues a load of the given size. -/
  | ld (t : BitVec 7) (x : BitVec 8) (a : BitVec 4) (s : BitVec 3) (k : BitVec 4)
  /-- R217: ST. Checks alignment and translation and issues a coloured store. -/
  | st (t : BitVec 7) (x : BitVec 8) (a : BitVec 4) (s : BitVec 3) (k : BitVec 4)
  /-- R218: ATOM. Issues an indivisible read-modify-write that returns the old value. -/
  | atom (t : BitVec 7) (x : BitVec 8) (a : BitVec 4) (s : BitVec 1) (k : BitVec 4)
  /-- R218: RED. Issues an indivisible read-modify-write that returns nothing. -/
  | red (t : BitVec 7) (x : BitVec 8) (a : BitVec 4) (s : BitVec 1) (k : BitVec 4)
  /-- R219: PFETCH. Brings the line into this core's L1. -/
  | pfetch (x : BitVec 8) (a : BitVec 4) (k : BitVec 4)
  /-- R219: CINVAL. Discards the line from this core's L1. -/
  | cinval (x : BitVec 8) (a : BitVec 4) (k : BitVec 4)
  /-- R219: PFETCH_L2. Brings the line into its home L2 slice. -/
  | pfetchL2 (x : BitVec 8) (a : BitVec 4) (k : BitVec 4)
  /-- R233: FENCE_REL. Waits for stores and copies of the masked colours. -/
  | fenceRel (m : BitVec 8)
  /-- R233: FENCE_ACQ. Waits for loads, then discards non-owned L1 words. -/
  | fenceAcq
  /-- R233: FENCE_FULL. Performs a masked release, then an acquire. -/
  | fenceFull (m : BitVec 8)
  /-- R234: MWAIT. Reads the location atomically; if the condition fails, arms a monitor and parks the thread with reason 4. -/
  | mwait (t : BitVec 6) (x : BitVec 8) (a : BitVec 4) (c : BitVec 3) (k : BitVec 4)
  /-- R179: BRA. Parks each thread at its own branch target or at PC + 4. -/
  | bra (p : BitVec 3) (n : BitVec 1) (d : BitVec 22)
  /-- R182: BRU. Uniform branch on a common register; every thread still in the run parks at one key. -/
  | bru (c : BitVec 6) (t : BitVec 3) (d : BitVec 17)
  /-- R180: BRX. Parks the thread at its computed word-offset target. -/
  | brx (a : BitVec 8)
  /-- R180: RET. Returns to a computed word offset, logged as a return. -/
  | ret (a : BitVec 8)
  /-- R181: CALL. Writes the return word offset to vl and parks the thread at the target. -/
  | call (l : BitVec 7) (d : BitVec 19)
  /-- R183: WAIT. Parks the thread at PC + 4 until every outstanding counter is at or below its threshold. -/
  | wait (l : BitVec 5) (s : BitVec 5) (c : BitVec 5) (m : BitVec 5) (x : BitVec 5)
  /-- R187: BAR_SYNC. Releases, arrives in the current phase and waits for it to complete. -/
  | barSync (s : BitVec 3) (i : BitVec 6)
  /-- R187: BAR_ARRIVE. Releases and arrives without waiting. -/
  | barArrive (s : BitVec 3) (i : BitVec 6)
  /-- R187: BAR_WAIT. Waits for the phase of the thread's last arrival. -/
  | barWait (s : BitVec 3) (i : BitVec 6)
  /-- R189: CADD. Scalar add into a common register. -/
  | cadd (d : BitVec 6) (a : BitVec 8) (b : BitVec 8)
  /-- R189: CSUB. Scalar subtract. -/
  | csub (d : BitVec 6) (a : BitVec 8) (b : BitVec 8)
  /-- R189: CMUL. Scalar multiply, low 32 bits. -/
  | cmul (d : BitVec 6) (a : BitVec 8) (b : BitVec 8)
  /-- R189: CAND. Scalar AND. -/
  | cand (d : BitVec 6) (a : BitVec 8) (b : BitVec 8)
  /-- R189: COR. Scalar OR. -/
  | cor (d : BitVec 6) (a : BitVec 8) (b : BitVec 8)
  /-- R189: CXOR. Scalar XOR. -/
  | cxor (d : BitVec 6) (a : BitVec 8) (b : BitVec 8)
  /-- R189: CSHL. Scalar shift left. -/
  | cshl (d : BitVec 6) (a : BitVec 8) (b : BitVec 8)
  /-- R189: CSHR. Scalar logical shift right. -/
  | cshr (d : BitVec 6) (a : BitVec 8) (b : BitVec 8)
  /-- R189: CSAR. Scalar arithmetic shift right. -/
  | csar (d : BitVec 6) (a : BitVec 8) (b : BitVec 8)
  /-- R189: CMIN_S. Scalar signed minimum. -/
  | cminS (d : BitVec 6) (a : BitVec 8) (b : BitVec 8)
  /-- R189: CMAX_S. Scalar signed maximum. -/
  | cmaxS (d : BitVec 6) (a : BitVec 8) (b : BitVec 8)
  /-- R189: CMIN_U. Scalar unsigned minimum. -/
  | cminU (d : BitVec 6) (a : BitVec 8) (b : BitVec 8)
  /-- R189: CMAX_U. Scalar unsigned maximum. -/
  | cmaxU (d : BitVec 6) (a : BitVec 8) (b : BitVec 8)
  /-- R189: CSLT_S. Writes 1 when a is signed-less than b. -/
  | csltS (d : BitVec 6) (a : BitVec 8) (b : BitVec 8)
  /-- R189: CSLT_U. Writes 1 when a is unsigned-less than b. -/
  | csltU (d : BitVec 6) (a : BitVec 8) (b : BitVec 8)
  /-- R189: CSEQ. Writes 1 when the operands are equal. -/
  | cseq (d : BitVec 6) (a : BitVec 8) (b : BitVec 8)
  /-- R190: CADDI. Adds a signed 12-bit immediate into a common register. -/
  | caddi (d : BitVec 6) (a : BitVec 8) (i : BitVec 12)
  /-- R191: AADD. Adds a signed 8-bit value to an address register. -/
  | aadd (d : BitVec 4) (a : BitVec 4) (s : BitVec 8)
  /-- R191: AADDS. Adds a shifted signed value to an address register. -/
  | aadds (d : BitVec 4) (a : BitVec 4) (s : BitVec 8) (k : BitVec 6)
  /-- R191: AFROMC. Loads an address register from a common register pair. -/
  | afromc (d : BitVec 4) (n : BitVec 6)
  /-- R191: ATOC. Copies an address register into a common register pair. -/
  | atoc (a : BitVec 4) (n : BitVec 6)
  /-- R192: CLD. Uniform load into common registers; the vamp waits for the data. -/
  | cld (d : BitVec 6) (a : BitVec 4) (s : BitVec 2) (i : BitVec 14)
  /-- R192: CST. Uniform store of common registers with colour 0. -/
  | cst (d : BitVec 6) (a : BitVec 4) (s : BitVec 2) (i : BitVec 14)
  /-- R195: WRED. Reduces a thread value over the participants in a fixed pairwise tree into a common register. -/
  | wred (d : BitVec 6) (a : BitVec 8) (r : BitVec 4) (p : BitVec 3) (n : BitVec 1)
  /-- R128: SRD. Reads a special register into a thread register; %clk also latches %clkh. -/
  | srd (r : BitVec 7) (i : BitVec 10)
  /-- R128: SWR. Writes a writable special register. -/
  | swr (r : BitVec 7) (i : BitVec 10)
  /-- R130: REGQ_SET. Changes the workgroup's register quota within its budget and space, moving frames and scratch. -/
  | regqSet (d : BitVec 6) (a : BitVec 8)
  /-- R131: REGQ_XFER. Moves register budget to another rank of the gang in one step. -/
  | regqXfer (d : BitVec 6) (a : BitVec 8) (b : BitVec 8)
  /-- R131: REGQ_GET. Returns the quota and budget. -/
  | regqGet (d : BitVec 6)
  /-- R255: COPY_T. Reads a layout-record pair, checks it and hands a tensor box copy to the copy engine. -/
  | copyT (a : BitVec 4) (s : BitVec 8) (f : BitVec 4) (c : BitVec 3) (m : BitVec 2)
  /-- R256: COPY_G. Copies the rows selected by a mask, packed at the destination. -/
  | copyG (a : BitVec 4) (s : BitVec 8) (f : BitVec 4) (c : BitVec 3) (m : BitVec 2)
  /-- R256: COPY_S. Scatters packed source rows to the rows selected by a mask. -/
  | copyS (a : BitVec 4) (s : BitVec 8) (f : BitVec 4) (c : BitVec 3) (m : BitVec 2)
  /-- R257: COPY_MC. Copies a box to the same cluster-window offsets in each masked quad. -/
  | copyMc (a : BitVec 4) (s : BitVec 8) (f : BitVec 4) (c : BitVec 3) (m : BitVec 2)
  /-- R256: COPY_WB. Copies as COPY.T and writes the destination lines back to HBM. -/
  | copyWb (a : BitVec 4) (s : BitVec 8) (f : BitVec 4) (c : BitVec 3) (m : BitVec 2)
  /-- R256: COPY_FILL. Writes a fill pattern into every in-bounds element of the destination box. -/
  | copyFill (a : BitVec 4) (s : BitVec 8) (f : BitVec 4) (c : BitVec 3)
  /-- R260: CRESUME. Resumes a suspended copy by retrying its missed translation. -/
  | cresume (s : BitVec 8)
  /-- R260: CCANCEL. Cancels a suspended copy, which completes CANCELLED. -/
  | ccancel (s : BitVec 8)
  /-- R261: TBAR_INIT. Initialises a transaction-barrier record. -/
  | tbarInit (t : BitVec 7) (x : BitVec 8) (a : BitVec 4) (k : BitVec 4)
  /-- R261: TBAR_ARRIVE. Releases, decrements pending, tests the record and returns the phase. -/
  | tbarArrive (t : BitVec 7) (x : BitVec 8) (a : BitVec 4) (k : BitVec 4)
  /-- R261: TBAR_EXPECT. Releases, adds expected bytes, decrements pending and tests the record. -/
  | tbarExpect (t : BitVec 7) (x : BitVec 8) (a : BitVec 4) (k : BitVec 4)
  /-- R261: TBAR_WAIT. Parks the thread until the phase differs from vt bit 0, then acquires. -/
  | tbarWait (t : BitVec 7) (x : BitVec 8) (a : BitVec 4) (k : BitVec 4)
  /-- R261: TBAR_TEST. Returns whether the phase has flipped, acquiring if it has. -/
  | tbarTest (t : BitVec 7) (x : BitVec 8) (a : BitVec 4) (k : BitVec 4)
  /-- R279: MDESC. Writes eight common registers into a descriptor slot in one step. -/
  | mdesc (c : BitVec 6) (s : BitVec 4)
  /-- R280: MMA. Enqueues a matrix pass from a descriptor slot. -/
  | mma (s : BitVec 4)
  /-- R282: ACCRD. Enqueues a scaled, converted read-out of an accumulator region to cluster SRAM. -/
  | accrd (c : BitVec 6)
  /-- R283: ACCWR. Enqueues a write of an accumulator region from cluster SRAM. -/
  | accwr (c : BitVec 6)
  /-- R284: ACCSCL. Enqueues a row scaling of an accumulator region. -/
  | accscl (c : BitVec 6)
  /-- R285: ACCZ. Enqueues a zeroing of an accumulator region. -/
  | accz (c : BitVec 6)
  /-- R286: WBINV. Enqueues a clearing or refill of the named weight-buffer segments. -/
  | wbinv (a : BitVec 4) (m : BitVec 8)
  /-- R287: MSTAT. Reads a descriptor slot or reservation state at once. -/
  | mstat (c : BitVec 6) (s : BitVec 8)
  /-- R394: COLL_AR. Contributes to an all-reduce. -/
  | collAr (a : BitVec 4) (s : BitVec 8) (c : BitVec 3)
  /-- R394: COLL_RS. Contributes to a reduce-scatter. -/
  | collRs (a : BitVec 4) (s : BitVec 8) (c : BitVec 3)
  /-- R394: COLL_AG. Contributes to an all-gather. -/
  | collAg (a : BitVec 4) (s : BitVec 8) (c : BitVec 3)
  /-- R394: COLL_BC. Contributes to a broadcast. -/
  | collBc (a : BitVec 4) (s : BitVec 8) (c : BitVec 3)
  /-- R209: TBLD. Checks ownership and loads a translation entry into a held way. -/
  | tbld (d : BitVec 6) (a : BitVec 8) (b : BitVec 8)
  /-- R210: TBINV. Removes an entry or a whole way once the accesses through it have completed. -/
  | tbinv (d : BitVec 6) (a : BitVec 8) (b : BitVec 8)
  /-- R211: TBQ. Reads a translation entry image. -/
  | tbq (d : BitVec 6) (a : BitVec 8) (b : BitVec 8)
  /-- R212: TAGQ. Returns a resource's binding tag where it may be shown. -/
  | tagq (d : BitVec 6) (a : BitVec 8) (b : BitVec 8)
  /-- R213: FRESUME. Releases, retries, skips or kills the runtime-held threads of a workgroup. -/
  | fresume (d : BitVec 6) (a : BitVec 8) (b : BitVec 8)
  /-- R329: RACK. Reports on an open recall, closing it when settled or on request. -/
  | rack (d : BitVec 6) (a : BitVec 8) (b : BitVec 8)
  /-- R327: RELINQ. Gives up one unit, freeing it and crediting a recall. -/
  | relinq (d : BitVec 6) (a : BitVec 8) (b : BitVec 8)
  /-- R334: LOSSRD. Reads loss records or frees the repossession area. -/
  | lossrd (d : BitVec 6) (a : BitVec 8) (b : BitVec 8)
  /-- R355: CNTRD_LO. Reads the low word of a counter and latches its high word. -/
  | cntrdLo (d : BitVec 7) (i : BitVec 8)
  /-- R355: CNTRD_HI. Reads the latched or live high word. -/
  | cntrdHi (d : BitVec 7) (i : BitVec 8)
  /-- R355: CNTRD. Reads a 64-bit counter into a register pair. -/
  | cntrd (d : BitVec 6) (i : BitVec 8)
  /-- R355: CNTSEL. Selects a counter's event and sample period. -/
  | cntsel (i : BitVec 8) (a : BitVec 8)
  /-- R355: CNTZ. Zeroes a counter. -/
  | cntz (i : BitVec 8)
  /-- R355: NUMRD. Reads a numeric event counter of a tensor id. -/
  | numrd (d : BitVec 6) (i : BitVec 8) (a : BitVec 8)
  /-- R349: DBPSET. Arms the lowest free PC comparator for a launch. -/
  | dbpset (d : BitVec 6) (a : BitVec 8) (b : BitVec 8)
  /-- R349: DBPCLR. Frees a PC comparator. -/
  | dbpclr (d : BitVec 6) (a : BitVec 8)
  /-- R346: DHALT. Moves a target workgroup to SETTLING. -/
  | dhalt (d : BitVec 6) (a : BitVec 8)
  /-- R349: DSTEP. Executes one instruction of one thread of a settled workgroup. -/
  | dstep (d : BitVec 6) (a : BitVec 8) (b : BitVec 8)
  /-- R349: DRESUME. Releases the debug-held threads and optionally resumes the workgroup. -/
  | dresume (d : BitVec 6) (a : BitVec 8) (b : BitVec 8)
  /-- R349: DWSET. Arms or clears a cluster-window watchpoint. -/
  | dwset (d : BitVec 6) (a : BitVec 8) (b : BitVec 8)
  /-- R349: DSTAT. Returns a workgroup's debug state. -/
  | dstat (d : BitVec 6) (a : BitVec 8)
  /-- R349: TRACE. Turns control-transfer logging of a target on or off. -/
  | trace (d : BitVec 6) (a : BitVec 8) (b : BitVec 8)
  /-- R349: DPCRD. Reads eyelet images, thread state or held masks of a settled workgroup. -/
  | dpcrd (d : BitVec 6) (a : BitVec 8) (b : BitVec 8)
  /-- R301: LNCH_POOL. Appends a continuation record to a pool descriptor indivisibly. -/
  | lnchPool (a : BitVec 4) (s : BitVec 8)
  /-- R301: LNCH_GO. Writes a command into a queue's ring and advances wr as a release. -/
  | lnchGo (a : BitVec 4) (s : BitVec 8)
  /-- R372: CFGR. Reads a configuration register where visible. -/
  | cfgr (d : BitVec 6) (a : BitVec 8)
  /-- R372: CFGW. Writes a configuration register subject to lock class and limits. -/
  | cfgw (d : BitVec 6) (a : BitVec 8) (b : BitVec 8)
  /-- R73: HINT_IMMS. Sets the pending literal to a sign-extended 22-bit value. -/
  | hintImms (i : BitVec 22)
  /-- R73: HINT_IMMH. Sets the high half of the pending literal. -/
  | hintImmh (i : BitVec 16)
  /-- R73: HINT_IMML. Sets the low half of the pending literal. -/
  | hintImml (i : BitVec 16)
  /-- R74: HINT_PRED. Sets the guard of the next instruction. -/
  | hintPred (n : BitVec 1) (p : BitVec 3)
  /-- R76: HINT_MEM. Sets colour, acquire, release and cache policy of the next memory instruction. -/
  | hintMem (n : BitVec 1) (k : BitVec 2) (r : BitVec 1) (q : BitVec 1) (c : BitVec 3)
  /-- R76: HINT_RND. Sets rounding, flush-to-zero and saturate for the next instruction. -/
  | hintRnd (s : BitVec 1) (f : BitVec 1) (r : BitVec 2)
  /-- R76: HINT_DISP. Adds a byte displacement to the next memory address. -/
  | hintDisp (d : BitVec 22)
  /-- R76: HINT_DEAD. Marks registers dead after the next instruction. -/
  | hintDead (b : BitVec 6) (m : BitVec 16)
  /-- R76: HINT_SCHED_FILL. Sets the fill threshold of an eyelet entry the next instruction allocates. -/
  | hintSchedFill (n : BitVec 12)
  /-- R76: HINT_SCHED_AGE. Sets the age limit of an eyelet entry the next instruction allocates. -/
  | hintSchedAge (n : BitVec 16)
  /-- R42: RUN_SELECT. A free run port picks a tenant and a candidate, removes its ready threads and starts a block run. -/
  | runSelect (core port : Nat)
  /-- R178: SLEEP_EXPIRY. A sleeping thread becomes ready when its cycle count has elapsed. -/
  | sleepExpiry (wg tid : Nat)
  /-- R216: LOAD_COMPLETE. Load data is written, the pending mark cleared and the load counter lowered. -/
  | loadComplete (id : Nat)
  /-- R222: STORE_COMPLETE. A write is performed at its home with the ownership change and the store counter is lowered. -/
  | storeComplete (id : Nat)
  /-- R218: ATOMIC_PERFORM. An atomic is performed indivisibly at its home and its old value returned. -/
  | atomicPerform (id : Nat)
  /-- R235: MONITOR_WAKE. A write meets an armed MWAIT condition and the thread becomes ready with acquire. -/
  | monitorWake (wg tid : Nat)
  /-- R235: MONITOR_POLL. A home without monitor room re-reads the location at least every 250 ns. -/
  | monitorPoll (wg tid : Nat)
  /-- R187: BARRIER_ARRIVAL. An arrival is counted once its release has completed. -/
  | barrierArrival (wg tid : Nat)
  /-- R379: TWIN_SIGNATURE_EXCHANGE. Twins compare store signatures and commit, roll back or terminate. -/
  | twinSignatureExchange (wg : Nat)
  /-- R378: GUARD_ROLLBACK. After in-flight operations complete, a guarded workgroup is restored from its shadow. -/
  | guardRollback (wg : Nat)
  /-- R249: COPY_COMPLETE. A copy's payload, counts, bytes, status and stamp are written in order and its counter lowered. -/
  | copyComplete (id : Nat)
  /-- R258: FOLLOW_ON_ENQUEUE. A copy's follow-on pass is enqueued from its slot once a reservation entry is free. -/
  | followOnEnqueue (id : Nat)
  /-- R259: COPY_SUSPEND. An element translation miss suspends the copy in a slot. -/
  | copySuspend (id : Nat)
  /-- R239: BANK_INBOUND_WRITE. An engine write reaching a bank is checked against its tag and dropped into MCDROP on mismatch. -/
  | bankInboundWrite (id : Nat)
  /-- R274: SEGMENT_GRANT. The matrix arbiter grants the array one segment of an eligible pass. -/
  | segmentGrant (quad : Nat)
  /-- R274: SEGMENT_END. A granted segment of 64 k-steps finishes. -/
  | segmentEnd (quad : Nat)
  /-- R276: MATRIX_OP_COMPLETE. A matrix operation writes its completion record, stamp or arrival and lowers its counter. -/
  | matrixOpComplete (id : Nat)
  /-- R58: WORKGROUP_RETIRE. A workgroup whose threads have exited and operations completed retires. -/
  | workgroupRetire (wg : Nat)
  /-- R321: FAULT_RECORD_WRITE. CW3 writes a fault record to the ring when it has room, then the stamp. -/
  | faultRecordWrite (tenant : BitVec 24)
  /-- R347: DEBUG_RECORD_WRITE. A debug record is written to the partition's mailbox when it has room. -/
  | debugRecordWrite (part : Nat)
  /-- R346: WORKGROUP_SETTLED. A halting workgroup with no run and zero counters becomes SETTLED. -/
  | workgroupSettled (wg : Nat)
  /-- R288: QUEUE_MAP. CW1 maps a queue into a free slot after CW0's ownership, guest-field and shadow checks. -/
  | queueMap (q : Nat)
  /-- R288: QUEUE_UNMAP. A queue mapped for 1 ms while another waits is unmapped at its next command boundary. -/
  | queueUnmap (q : Nat)
  /-- R291: COMMAND_TAKE. CW0 sees wr advance and takes the next command in ring order. -/
  | commandTake (q : Nat)
  /-- R295: LAUNCH. A LAUNCH command checks its launch record and starts the launch. -/
  | launch (q : Nat)
  /-- R299: LAUNCH_POOL. A LAUNCH.POOL command bins continuation records into threads and starts the launch. -/
  | launchPool (q : Nat)
  /-- R293: COPYQ. A queued copy runs as COPY.T on the named quad's copy engine. -/
  | copyq (q : Nat)
  /-- R293: SIGNALQ. Once earlier commands complete, adds 1 to a location as a release. -/
  | signalq (q : Nat)
  /-- R293: WAITQ. Blocks the queue until a location reaches a value. -/
  | waitq (q : Nat)
  /-- R293: WAITQ_COMPLETE. A write makes the WAITQ condition hold and the command completes. -/
  | waitqComplete (q : Nat)
  /-- R297: LAUNCH_COMPLETE. With all workgroups ended, exit records, account, status and stamp are written. -/
  | launchComplete (l : Nat)
  /-- R302: BUCKET_TICK. Each µs a token bucket is refilled and charged, unmapping or remapping its queues. -/
  | bucketTick (part : Nat)
  /-- R305: GANG_PLACE. A distributor places the next gang on the lowest quad that fits, in one step. -/
  | gangPlace (die : Nat)
  /-- R304: WORK_STEAL. An idle distributor asks the other die and takes up to eight never-placed gangs. -/
  | workSteal (die : Nat)
  /-- R306: PLACEMENT_RESERVATION. A gang unplaced for 2 ms reserves a quad. -/
  | placementReservation (die : Nat)
  /-- R308: CALENDAR_WRAP. A written calendar takes effect at the wrap of its period. -/
  | calendarWrap (die cls : Nat)
  /-- R310: RUN_PORT_ROUND. Every 1,024 cycles each resident tenant's deficit counter gains its quantum. -/
  | runPortRound (core : Nat)
  /-- R312: PREEMPT. A gang's selection stops and its runs are cut while its operations drain. -/
  | preempt (g : Nat)
  /-- R313: PREEMPT_SAVE. After drains, the gang's state is saved and its quad resources freed. -/
  | preemptSave (g : Nat)
  /-- R315: TIME_SLICE_BOUNDARY. At a slice boundary the outgoing partition's gangs are pre-empted and the incoming ones restored. -/
  | timeSliceBoundary (quad entry : Nat)
  /-- R316: WATCHDOG_EXPIRY. A launch's time limit expires and it is stopped and completed WATCHDOG. -/
  | watchdogExpiry (l : Nat)
  /-- R322: GRANT. Moves a unit from the pool to a partition's holding. -/
  | grant (u : Res) (part : Nat)
  /-- R322: REVOKE. Returns an unbound unit from a partition to the pool. -/
  | revoke (u : Res)
  /-- R319: CREATE. Creates a tenant from a descriptor and places its runtime wave. -/
  | create (req : CreateReq)
  /-- R322: BIND. Binds a unit of the partition holding to a tenant. -/
  | bind (b : BindReq) (q : BindFor)
  /-- R323: RECALL. Requests that a tenant give up resources by a deadline. -/
  | recallUnits (r : RecallReq)
  /-- R324: RECALL_POST. A recall is written to the tenant's recall ring and the recall stamp is incremented. -/
  | recallPost (tenant : BitVec 24)
  /-- R331: SEIZE. Immediately seizes a unit with reason HYPERVISOR. -/
  | seize (tenant : BitVec 24) (u : Res)
  /-- R322: DESTROY. Terminates a tenant and returns its resources cleared. -/
  | destroy (r : DestroyReq)
  /-- R335: EXPORT. Adds a remote-ownership entry. -/
  | exportEntry (e : ExportReq)
  /-- R336: UNEXPORT. Removes a remote-ownership entry once its requests complete. -/
  | unexportEntry (e : ExportReq)
  /-- R330: RECALL_DEADLINE. A recall's deadline passes with units owed and the Skiver seizes them. -/
  | recallDeadline (tenant : BitVec 24) (seq : Nat)
  /-- R320: RUNTIME_WAVE_PLACE. CW2 places a retired or terminated runtime wave again within 1 ms. -/
  | runtimeWavePlace (tenant : BitVec 24)
  /-- R390: REMOTE_REQUEST. A target island checks a remote request and answers OK, REFUSED or ABSENT. -/
  | remoteRequest (r : RemoteReq)
  /-- R206: REMOTE_REFUSAL. A REFUSED or ABSENT answer poisons a load or discards and reports a store. -/
  | remoteRefusal (id : Nat) (absent : Bool)
  /-- R384: LATE_ANSWER. An answer for a detaching die is dropped and counted. -/
  | lateAnswer (die : Nat)
  /-- R359: WORLD_LATCH_CHANGE. An idle quad is drained, cleared, re-keyed and relatched to a new world. -/
  | worldLatchChange (quad world : Nat)
  /-- R402: WORLD_ACTIVATE. CW4 activates a protected world after attestation and key agreement. -/
  | worldActivate (world : Nat)
  /-- R364: WORLD_REVOKE. A world's keys are destroyed after its dirty lines are written back. -/
  | worldRevoke (world : Nat)
  /-- R365: HANDOVER_PREPARE. A protected context is suspended and its image sealed with an epoch. -/
  | handoverPrepare (ctx : Ctx)
  /-- R365: HANDOVER_COMMIT. The source state is destroyed and the epoch advanced before the target is activated. -/
  | handoverCommit (ctx : Ctx)
  /-- R365: IMAGE_ACCEPT. A target accepts a sealed image only at the expected epoch. -/
  | imageAccept (img : SealedImage)
  /-- R369: QUOTE_REQUEST. CW4 returns a signed attestation quote. -/
  | quoteRequest (nonce : List (BitVec 8))
  /-- R367: LOCKCTL_WRITE. Sets or, when no guest work exists, clears the RUN lock. -/
  | lockctlWrite (x : BitVec 32)
  /-- R318: CAL_WRITE. A calendar register write is checked against quotas on its four slots together. -/
  | calWrite (die cls idx : Nat) (x : BitVec 32)
  /-- R371: MCDROP_CLEAR. Any write clears a bank's dropped-write counter. -/
  | mcdropClear (bank : Nat)
  /-- R392: FREEZE. Both compute-die clocks stop at one instant for read-out. -/
  | freeze
  /-- R350: THAW. The frozen dies resume from the same state. -/
  | thaw
  /-- R354: PC_SAMPLE. Every P × 64 cycles one thread's PC sample replaces the counter value. -/
  | pcSample (tenant : BitVec 24) (ctr : Nat)
  /-- R358: DEADLOCK_SCAN. Every 10 ms CW5 builds a wait-for graph and reports stable cycles. -/
  | deadlockScan
  /-- R404: CLOCK_CONTROL_TICK. Every 1 ms CW7 sets each die's clock to the lowest of its limits. -/
  | clockControlTick (watts t0 t1 ti th : Nat)
  /-- R404: OVERTEMP_RESET. A die at or above 110 °C for 10 ms is warm-reset. -/
  | overtempReset (die : Nat)
  /-- R401: ISLAND_SUPPLY_GOOD. Island supply comes up and bring-up runs. -/
  | islandSupplyGood (slot0 slot1 : Bool)
  /-- R381: ISLAND_SUPPLY_LOSS. Island supply is lost and the island goes OFF. -/
  | islandSupplyLoss
  /-- R385: ISLAND_RESET. An island reset with both endpoints ABSENT restarts bring-up. -/
  | islandReset (slot0 slot1 : Bool)
  /-- R382: DIE_JOIN. A trained die completes the join handshake and becomes ATTACHED. -/
  | dieJoin (die : Nat)
  /-- R382: HEARTBEAT_TIMEOUT. A die's heartbeat is missed for 10 ms and it becomes DETACHING. -/
  | heartbeatTimeout (die : Nat)
  /-- R385: DIE_WARM_RESET. A die detaches, its requests are cancelled and its launches ended before reset. -/
  | dieWarmReset (die : Nat)
  /-- R382: DETACH_COMPLETE. Cancellation is done or 100 µs pass and the endpoint becomes ABSENT, with DIE_RESET loss records. -/
  | detachComplete (die : Nat)
  /-- R387: LINK_PACKET. A packet is routed adaptively on a minimal path. -/
  | linkPacket (p : Packet)
  /-- R388: FLOW_STOP. A receiver stops a virtual channel at its high watermark. -/
  | flowStop (link vc : Nat)
  /-- R388: FLOW_GO. A receiver restarts a virtual channel at its low watermark. -/
  | flowGo (link vc : Nat)
  /-- R385: ROUTE_LOSS_TIMEOUT. 20 µs after losing its last route, an island answers ABSENT for that device. -/
  | routeLossTimeout (dev : Nat)
  /-- R391: PODID_REGISTER. CW0 registers a multi-device launch's podid with the island. -/
  | podidRegister (podid : BitVec 32) (dev poddevs : Nat)
  /-- R391: POD_JOIN_TIMEOUT. Not all devices register within 100 ms and the launch fails BAD_RECORD. -/
  | podJoinTimeout (podid : BitVec 32)
  /-- R395: COLL_CONTRIBUTION. A contribution reaches the collectives engine and counts in its phase. -/
  | collContribution (id : Nat)
  /-- R395: COLLECTIVE_COMPLETE. A contribution's results, status and stamp are written and its counter lowered. -/
  | collectiveComplete (id : Nat)
  /-- R397: SESSION_CLOSE. A host session failing 16 retransmissions closes and its in-flight reads are poisoned. -/
  | sessionClose (sess : Nat)
  /-- R24: COLD_RESET. A cold reset returns every tag to 0x0_FFF_00, every generation to 0 and unlocks RESET-class registers. -/
  | coldReset
  /-- R64: UNCLAIMED_ENCODING. A word that no entry claims, or that holds a reserved value, is issued and raises ILLEGAL. -/
  | unclaimedEncoding (word : BitVec 32)
  /-- R387: LINK_DOWN. A pod link or route is lost and traffic reroutes, or the device becomes unreachable. -/
  | linkDown (link : Nat)
  /-- R370: SOFT_ERROR. A storage or transfer hop suffers a data error that is corrected or poisoned and counted in INTEG. -/
  | softError (e : HopError)
  /-- R288: QUEUE_CREATE. A supervisor or hypervisor request to CW0 creates a queue and writes its privileged shadow. -/
  | queueCreate (req : QueueReq)
  /-- R290: QCB_SHADOW_WRITE. The hypervisor rewrites a queue's privileged shadow or clears its tampered state 3. -/
  | qcbShadowWrite (req : QueueReq)
  /-- R398: APERTURE_WINDOW_BIND. A host aperture window is bound to a tenant on its data session. -/
  | apertureWindowBind (win sess size : Nat) (tenant : BitVec 24)
  /-- R398: APERTURE_WINDOW_UNBIND. A window is unbound after every translation entry that maps it is removed under R210. -/
  | apertureWindowUnbind (win : Nat)
  /-- R397: SESSION_OPEN. A host management or data session is established with ECDH key agreement with CW4. -/
  | sessionOpen (sess part : Nat) (management : Bool)
  /-- R351: CORE_CYCLE. In each core cycle a resident workgroup that does not issue raises one stall counter, and eyelet entry ages advance. -/
  | coreCycle (die : Nat)
deriving DecidableEq, Repr

end Sys2Proof
end

