-- ==== Sys2Proof/WellFormed.lean ====
section
/-! DEFINITION. Which operations are well formed: an encoded instruction whose fields hold claimed values (R64, R66-R70,
R84 orders 2 and 3), an event whose arguments name units that exist (R15-R27). An encoded instruction that fails a check
still decodes; issued, it raises `ILLEGAL`. -/

namespace Sys2Proof

/-- A source field of a thread instruction (R66, R68): a thread or common register aligned to `cnt`, an inline constant or
the literal; 0xEF and 0xF1-0xFF are not claimed. -/
def sourceWf (f : BitVec 8) (cnt : Nat) : Bool :=
  if f.toNat < 0x80 then decide (f.toNat % cnt = 0)
  else if f.toNat < 0xC0 then decide ((f.toNat - 0x80) % cnt = 0)
  else decide (f ≠ 0xEF#8) && decide (f ≤ 0xF0#8)

/-- A source field of a uniform instruction (R69): no thread register. -/
def commonWf (f : BitVec 8) : Bool := decide (0x80#8 ≤ f) && sourceWf f 1

/-- A register number that is a multiple of `cnt` (R84). -/
def aligned {n : Nat} (r : BitVec n) (cnt : Nat) : Bool := decide (r.toNat % cnt = 0)

/-- An `sc` field of an engine or launch command: a thread or a common register (R80). -/
def engineWf (s : BitVec 8) : Bool := decide (s < 0xC0#8)

/-- Registers that a memory size of R216 covers. -/
def memRegs (z : Nat) : Nat := if z = 3 then 2 else if z = 4 then 4 else 1

/-- Conversion codes of R169; codes 0x10 to 0x17 take a zero rounding field. -/
def conversionWf (code s r : Nat) : Bool :=
  (decide (1 ≤ code) && decide (code ≤ 0x0E)) ||
  (decide (0x10 ≤ code) && decide (code ≤ 0x17) && decide (s = 0) && decide (r = 0)) ||
  (decide (0x20 ≤ code) && decide (code ≤ 0x2F))

/-- An operation code of `ATOM` and `RED` (R218): the floating-point ones have no 64-bit form. -/
def atomicWf (k : BitVec 4) (s : BitVec 1) : Bool :=
  decide (k < 13#4) && !(decide (10#4 ≤ k) && decide (s = 1#1))

/-- A counter id of `CNTRD` (R355). -/
def counterWf (i : BitVec 8) : Bool := decide (i < 8#8) || (decide (0x10#8 ≤ i) && decide (i < 0x20#8))

/-- Whether the fields of an operation hold claimed values, its registers are aligned, and the unit an event is about
exists. -/
def Instr.wf (i : Instr) : Bool :=
  match i with
  | .iadd _ a b | .isub _ a b | .iaddsS _ a b | .isubsS _ a b | .iminS _ a b | .iminU _ a b | .imaxS _ a b
  | .imaxU _ a b | .imul _ a b | .imulhS _ a b | .imulhU _ a b | .imac _ a b | .idot4S _ a b | .idot4U _ a b
  | .iabsd _ a b | .and _ a b | .or _ a b | .xor _ a b | .andn _ a b | .orn _ a b | .xnor _ a b | .shl _ a b
  | .shr _ a b | .sar _ a b | .rol _ a b | .ror _ a b | .fshr _ a b | .bfxS _ a b | .bfxU _ a b | .bfi _ a b
  | .permb _ a b | .sel _ a b _ | .fadd _ a b | .fsub _ a b | .fmul _ a b | .fmin _ a b | .fmax _ a b
  | .fminm _ a b | .fmaxm _ a b | .fcopys _ a b | .fmac _ a b | .fmsc _ a b | .fnmac _ a b | .fnmsc _ a b
  | .fdiv _ a b | .fscale _ a b | .hadd2 _ a b _ | .hmul2 _ a b _ | .hmac2 _ a b _ | .hmax2 _ a b _
  | .hmin2F16 _ a b | .hmin2Bf16 _ a b | .hsub2F16 _ a b | .hsub2Bf16 _ a b | .hdot2F16 _ a b
  | .hdot2Bf16 _ a b | .packn _ a b | .unpknS _ a b | .unpknU _ a b | .packh _ a b => sourceWf a 1 && sourceWf b 1
  | .popc _ a | .clz _ a | .ctz _ a | .brev _ a | .iaddi _ a _ | .andi _ a _ | .ori _ a _ | .xori _ a _
  | .shli _ a _ | .shri _ a _ | .sari _ a _ | .roli _ a _ | .rori _ a _ | .psetnz _ a | .frcp _ a | .fsqrt _ a
  | .frsq _ a | .fexp2 _ a | .flog2 _ a | .fsinpi _ a | .fcospi _ a | .frint _ a | .fclass _ a | .fneg _ a
  | .fabs _ a | .fgetexp _ a | .fgetman _ a | .brx a | .ret a => sourceWf a 1
  | .icmp _ c a b | .icmpAnd _ c a b | .icmpOr _ c a b => decide (c < 10#4) && sourceWf a 1 && sourceWf b 1
  | .fcmp _ c a b w | .fcmpAnd _ c a b w | .fcmpOr _ c a b w
    => decide (c < 14#4) && sourceWf a (w.toNat + 1) && sourceWf b (w.toNat + 1)
  | .cvt d a c s r
    => conversionWf c.toNat s.toNat r.toNat && aligned d (if c = 0x0B#8 ∨ c = 0x0D#8 then 2 else 1) &&
    sourceWf a (if c = 0x0C#8 ∨ c = 0x0E#8 then 2 else 1)
  | .dadd _ a b | .dsub _ a b | .dmul _ a b | .dfmac _ a b | .dmin _ a b | .dmax _ a b | .ddiv _ a b
    => sourceWf a 2 && sourceWf b 2
  | .dsqrt _ a => sourceWf a 2
  | .ld t x _ s _ => decide (s < 7#3) && aligned t (memRegs s.toNat) && sourceWf x 1
  | .st t x _ s _ => decide (s < 5#3) && aligned t (memRegs s.toNat) && sourceWf x 1
  | .atom t x _ s k => atomicWf k s && aligned t ((s.toNat + 1) * if k = 9#4 then 2 else 1) && sourceWf x 1
  | .red t x _ s k => atomicWf k s && decide (k ≠ 8#4) && decide (k ≠ 9#4) && aligned t (s.toNat + 1) && sourceWf x 1
  | .pfetch x _ _ | .cinval x _ _ | .pfetchL2 x _ _ | .tbarInit _ x _ _ | .tbarArrive _ x _ _
  | .tbarExpect _ x _ _ | .tbarWait _ x _ _ | .tbarTest _ x _ _ => sourceWf x 1
  | .mwait _ x _ c _ => decide (c < 3#3) && sourceWf x 1
  | .bru c t _ => decide (t < 7#3) && (decide (t ≠ 0#3) || decide (c = 0#6))
  | .barSync s _ | .barArrive s _ | .barWait s _ => decide (s < 5#3)
  | .cadd _ a b | .csub _ a b | .cmul _ a b | .cand _ a b | .cor _ a b | .cxor _ a b | .cshl _ a b
  | .cshr _ a b | .csar _ a b | .cminS _ a b | .cmaxS _ a b | .cminU _ a b | .cmaxU _ a b | .csltS _ a b
  | .csltU _ a b | .cseq _ a b | .regqXfer _ a b | .tbinv _ a b | .tagq _ a b | .fresume _ a b | .rack _ a b
  | .relinq _ a b | .dbpset _ a b | .dstep _ a b | .dresume _ a b | .dwset _ a b | .trace _ a b | .cfgw _ a b
    => commonWf a && commonWf b
  | .caddi _ a _ | .regqSet _ a | .dbpclr _ a | .dhalt _ a | .dstat _ a => commonWf a
  | .afromc _ n | .atoc _ n => aligned n 2
  | .cld d _ s _ => decide (s < 3#2) && aligned d (2 ^ s.toNat)
  | .cst d _ s _ => decide (s < 2#2) && aligned d (2 ^ s.toNat)
  | .wred _ a r _ _ => decide (r < 12#4) && (decide (r ≠ 11#4) || decide (a = 0#8)) && sourceWf a 1
  | .srd _ i => decide (i ≤ 0x019#10)
  | .swr _ i => decide (0x015#10 ≤ i) && decide (i ≤ 0x018#10)
  | .copyT _ s _ _ m | .copyG _ s _ _ m | .copyS _ s _ _ m | .copyMc _ s _ _ m | .copyWb _ s _ _ m
    => engineWf s && decide (m < 2#2)
  | .copyFill _ s _ _ | .collAr _ s _ | .collRs _ s _ | .collAg _ s _ | .collBc _ s _ | .lnchPool _ s
  | .lnchGo _ s => engineWf s
  | .cresume s | .ccancel s => decide (0x80#8 ≤ s) && engineWf s
  | .mdesc _ s | .mma s => decide (s < 15#4)
  | .wbinv _ m => decide (m ≠ 0#8)
  | .mstat _ s => decide (s < 15#8) || decide (s = 16#8)
  | .tbld _ a b => decide (0x80#8 ≤ a) && decide (a < 0xC0#8) && sourceWf a 4 && commonWf b
  | .tbq d a b | .lossrd d a b | .dpcrd d a b => aligned d 4 && commonWf a && commonWf b
  | .cntrdLo _ i | .cntrdHi _ i | .cntrd _ i => counterWf i
  | .cntsel i a => decide (i < 8#8) && sourceWf a 1
  | .cntz i => decide (i < 8#8)
  | .numrd _ i a => decide (i < 64#8) && sourceWf a 1
  | .cfgr d a => aligned d 2 && commonWf a
  | .hintMem _ k _ _ _ => decide (k ≠ 3#2)
  | .hintSchedFill n => decide (n ≤ 2048#12)
  | .runSelect core port => decide (core < 768) && decide (port < 2)
  | .segmentGrant quad | .segmentEnd quad => decide (quad < 192)
  | .debugRecordWrite part | .bucketTick part => decide (part < 16)
  | .gangPlace die | .workSteal die | .placementReservation die | .lateAnswer die | .overtempReset die
  | .dieJoin die | .heartbeatTimeout die | .dieWarmReset die | .detachComplete die | .coreCycle die
    => decide (die < 2)
  | .calendarWrap die cls => decide (die < 2) && decide (cls < 4)
  | .runPortRound core => decide (core < 768)
  | .timeSliceBoundary quad entry => decide (quad < 192) && decide (entry < 4)
  | .worldLatchChange quad world => decide (quad < 192) && decide (world < 16)
  | .worldActivate world | .worldRevoke world => decide (world < 16)
  | .mcdropClear bank => decide (bank < 3072)
  | .pcSample _ ctr => decide (ctr < 8)
  | .linkPacket p => decide (p.vc < 4) && decide (p.target < 1024)
  | .flowStop link vc | .flowGo link vc => decide (link < 18) && decide (vc < 4)
  | .routeLossTimeout dev => decide (dev < 1024)
  | .linkDown link => decide (link < 18)
  | .quoteRequest nonce => decide (nonce.length = 32)
  | .nop | .exit | .yield | .sleep .. | .ublk | .trap .. | .tretNext | .tretRetry | .brk .. | .pand ..
  | .por .. | .pxor .. | .pnot .. | .fenceRel .. | .fenceAcq | .fenceFull .. | .bra .. | .call .. | .wait ..
  | .aadd .. | .aadds .. | .regqGet .. | .accrd .. | .accwr .. | .accscl .. | .accz .. | .hintImms ..
  | .hintImmh .. | .hintImml .. | .hintPred .. | .hintRnd .. | .hintDisp .. | .hintDead .. | .hintSchedAge ..
  | .sleepExpiry .. | .loadComplete .. | .storeComplete .. | .atomicPerform .. | .monitorWake ..
  | .monitorPoll .. | .barrierArrival .. | .twinSignatureExchange .. | .guardRollback .. | .copyComplete ..
  | .followOnEnqueue .. | .copySuspend .. | .bankInboundWrite .. | .matrixOpComplete .. | .workgroupRetire ..
  | .faultRecordWrite .. | .workgroupSettled .. | .queueMap .. | .queueUnmap .. | .commandTake .. | .launch ..
  | .launchPool .. | .copyq .. | .signalq .. | .waitq .. | .waitqComplete .. | .launchComplete .. | .preempt ..
  | .preemptSave .. | .watchdogExpiry .. | .grant .. | .revoke .. | .create .. | .bind .. | .recallUnits ..
  | .recallPost .. | .seize .. | .destroy .. | .exportEntry .. | .unexportEntry .. | .recallDeadline ..
  | .runtimeWavePlace .. | .remoteRequest .. | .remoteRefusal .. | .handoverPrepare .. | .handoverCommit ..
  | .imageAccept .. | .lockctlWrite .. | .calWrite .. | .freeze | .thaw | .deadlockScan | .clockControlTick ..
  | .islandSupplyGood .. | .islandSupplyLoss | .islandReset .. | .podidRegister .. | .podJoinTimeout ..
  | .collContribution .. | .collectiveComplete .. | .sessionClose .. | .coldReset | .unclaimedEncoding ..
  | .softError .. | .queueCreate .. | .qcbShadowWrite .. | .apertureWindowBind .. | .apertureWindowUnbind ..
  | .sessionOpen .. => true

end Sys2Proof
end

