-- ==== Sys2Proof/Decode.lean ====
section
/-! DEFINITION. The decoder and the encoder (R62, R65, R80-R82). A word decodes when its opcode, function
code and unused fields are those of an entry; a register or size field that holds a reserved value is an
ill-formed operand of that instruction (`Instr.wf`), and issuing it raises `ILLEGAL` as well (R84). -/

namespace Sys2Proof

/-- Why no entry claims a word (R64): an unassigned major opcode, or a function code, sub-code or unused
field that no form of the opcode has. -/
inductive Reject where
  | opcode
  | form
  | short
deriving DecidableEq, Repr

/-- Bits [lo + n - 1 : lo] of a word. -/
abbrev fld (w : Word) (lo n : Nat) : BitVec n := w.extractLsb' lo n

/-- The forms of major opcode 0x00 (R80). -/
def decodeOp00 (w : Word) : Except Reject Instr :=
  if fld w 0 26 = 0#26 then .ok (.nop)
  else if fld w 0 26 = 1048576#26 then .ok (.exit)
  else if fld w 0 26 = 2097152#26 then .ok (.yield)
  else if fld w 20 6 = 3#6 then .ok (.sleep (fld w 0 20))
  else if fld w 0 26 = 4194304#26 then .ok (.ublk)
  else if fld w 8 18 = 20480#18 then .ok (.trap (fld w 0 8))
  else if fld w 0 26 = 6291456#26 then .ok (.tretNext)
  else if fld w 0 26 = 6291457#26 then .ok (.tretRetry)
  else if fld w 8 18 = 28672#18 then .ok (.brk (fld w 0 8))
  else .error .form

/-- The forms of major opcode 0x01 (R80). -/
def decodeOp01 (w : Word) : Except Reject Instr :=
  if fld w 0 3 = 0#3 then .ok (.iadd (fld w 19 7) (fld w 11 8) (fld w 3 8))
  else if fld w 0 3 = 1#3 then .ok (.isub (fld w 19 7) (fld w 11 8) (fld w 3 8))
  else if fld w 0 3 = 2#3 then .ok (.iaddsS (fld w 19 7) (fld w 11 8) (fld w 3 8))
  else if fld w 0 3 = 3#3 then .ok (.isubsS (fld w 19 7) (fld w 11 8) (fld w 3 8))
  else if fld w 0 3 = 4#3 then .ok (.iminS (fld w 19 7) (fld w 11 8) (fld w 3 8))
  else if fld w 0 3 = 5#3 then .ok (.iminU (fld w 19 7) (fld w 11 8) (fld w 3 8))
  else if fld w 0 3 = 6#3 then .ok (.imaxS (fld w 19 7) (fld w 11 8) (fld w 3 8))
  else if fld w 0 3 = 7#3 then .ok (.imaxU (fld w 19 7) (fld w 11 8) (fld w 3 8))
  else .error .form

/-- The forms of major opcode 0x02 (R80). -/
def decodeOp02 (w : Word) : Except Reject Instr :=
  if fld w 0 3 = 0#3 then .ok (.imul (fld w 19 7) (fld w 11 8) (fld w 3 8))
  else if fld w 0 3 = 1#3 then .ok (.imulhS (fld w 19 7) (fld w 11 8) (fld w 3 8))
  else if fld w 0 3 = 2#3 then .ok (.imulhU (fld w 19 7) (fld w 11 8) (fld w 3 8))
  else if fld w 0 3 = 3#3 then .ok (.imac (fld w 19 7) (fld w 11 8) (fld w 3 8))
  else if fld w 0 3 = 4#3 then .ok (.idot4S (fld w 19 7) (fld w 11 8) (fld w 3 8))
  else if fld w 0 3 = 5#3 then .ok (.idot4U (fld w 19 7) (fld w 11 8) (fld w 3 8))
  else if fld w 0 3 = 6#3 then .ok (.iabsd (fld w 19 7) (fld w 11 8) (fld w 3 8))
  else .error .form

/-- The forms of major opcode 0x03 (R80). -/
def decodeOp03 (w : Word) : Except Reject Instr :=
  if fld w 0 3 = 0#3 then .ok (.and (fld w 19 7) (fld w 11 8) (fld w 3 8))
  else if fld w 0 3 = 1#3 then .ok (.or (fld w 19 7) (fld w 11 8) (fld w 3 8))
  else if fld w 0 3 = 2#3 then .ok (.xor (fld w 19 7) (fld w 11 8) (fld w 3 8))
  else if fld w 0 3 = 3#3 then .ok (.andn (fld w 19 7) (fld w 11 8) (fld w 3 8))
  else if fld w 0 3 = 4#3 then .ok (.orn (fld w 19 7) (fld w 11 8) (fld w 3 8))
  else if fld w 0 3 = 5#3 then .ok (.xnor (fld w 19 7) (fld w 11 8) (fld w 3 8))
  else .error .form

/-- The forms of major opcode 0x04 (R80). -/
def decodeOp04 (w : Word) : Except Reject Instr :=
  if fld w 0 3 = 0#3 then .ok (.shl (fld w 19 7) (fld w 11 8) (fld w 3 8))
  else if fld w 0 3 = 1#3 then .ok (.shr (fld w 19 7) (fld w 11 8) (fld w 3 8))
  else if fld w 0 3 = 2#3 then .ok (.sar (fld w 19 7) (fld w 11 8) (fld w 3 8))
  else if fld w 0 3 = 3#3 then .ok (.rol (fld w 19 7) (fld w 11 8) (fld w 3 8))
  else if fld w 0 3 = 4#3 then .ok (.ror (fld w 19 7) (fld w 11 8) (fld w 3 8))
  else if fld w 0 3 = 5#3 then .ok (.fshr (fld w 19 7) (fld w 11 8) (fld w 3 8))
  else .error .form

/-- The forms of major opcode 0x05 (R80). -/
def decodeOp05 (w : Word) : Except Reject Instr :=
  if fld w 0 11 = 0#11 then .ok (.popc (fld w 19 7) (fld w 11 8))
  else if fld w 0 11 = 1#11 then .ok (.clz (fld w 19 7) (fld w 11 8))
  else if fld w 0 11 = 2#11 then .ok (.ctz (fld w 19 7) (fld w 11 8))
  else if fld w 0 11 = 3#11 then .ok (.brev (fld w 19 7) (fld w 11 8))
  else if fld w 0 3 = 4#3 then .ok (.bfxS (fld w 19 7) (fld w 11 8) (fld w 3 8))
  else if fld w 0 3 = 5#3 then .ok (.bfxU (fld w 19 7) (fld w 11 8) (fld w 3 8))
  else if fld w 0 3 = 6#3 then .ok (.bfi (fld w 19 7) (fld w 11 8) (fld w 3 8))
  else if fld w 0 3 = 7#3 then .ok (.permb (fld w 19 7) (fld w 11 8) (fld w 3 8))
  else .error .form

/-- The forms of major opcode 0x06 (R80). -/
def decodeOp06 (w : Word) : Except Reject Instr :=
  .ok (.iaddi (fld w 19 7) (fld w 11 8) (fld w 0 11))

/-- The forms of major opcode 0x07 (R80). -/
def decodeOp07 (w : Word) : Except Reject Instr :=
  .ok (.andi (fld w 19 7) (fld w 11 8) (fld w 0 11))

/-- The forms of major opcode 0x08 (R80). -/
def decodeOp08 (w : Word) : Except Reject Instr :=
  .ok (.ori (fld w 19 7) (fld w 11 8) (fld w 0 11))

/-- The forms of major opcode 0x09 (R80). -/
def decodeOp09 (w : Word) : Except Reject Instr :=
  .ok (.xori (fld w 19 7) (fld w 11 8) (fld w 0 11))

/-- The forms of major opcode 0x0A (R80). -/
def decodeOp0A (w : Word) : Except Reject Instr :=
  if fld w 5 6 = 0#6 then .ok (.shli (fld w 19 7) (fld w 11 8) (fld w 0 5))
  else if fld w 5 6 = 8#6 then .ok (.shri (fld w 19 7) (fld w 11 8) (fld w 0 5))
  else if fld w 5 6 = 16#6 then .ok (.sari (fld w 19 7) (fld w 11 8) (fld w 0 5))
  else if fld w 5 6 = 24#6 then .ok (.roli (fld w 19 7) (fld w 11 8) (fld w 0 5))
  else if fld w 5 6 = 32#6 then .ok (.rori (fld w 19 7) (fld w 11 8) (fld w 0 5))
  else .error .form

/-- The forms of major opcode 0x0B (R80). -/
def decodeOp0B (w : Word) : Except Reject Instr :=
  if fld w 0 3 = 0#3 then .ok (.icmp (fld w 23 3) (fld w 19 4) (fld w 11 8) (fld w 3 8))
  else if fld w 0 3 = 1#3 then .ok (.icmpAnd (fld w 23 3) (fld w 19 4) (fld w 11 8) (fld w 3 8))
  else if fld w 0 3 = 2#3 then .ok (.icmpOr (fld w 23 3) (fld w 19 4) (fld w 11 8) (fld w 3 8))
  else .error .form

/-- The forms of major opcode 0x0C (R80). -/
def decodeOp0C (w : Word) : Except Reject Instr :=
  if fld w 0 2 = 0#2 then .ok (.fcmp (fld w 23 3) (fld w 19 4) (fld w 11 8) (fld w 3 8) (fld w 2 1))
  else if fld w 0 2 = 1#2 then .ok (.fcmpAnd (fld w 23 3) (fld w 19 4) (fld w 11 8) (fld w 3 8) (fld w 2 1))
  else if fld w 0 2 = 2#2 then .ok (.fcmpOr (fld w 23 3) (fld w 19 4) (fld w 11 8) (fld w 3 8) (fld w 2 1))
  else .error .form

/-- The forms of major opcode 0x0D (R80). -/
def decodeOp0D (w : Word) : Except Reject Instr :=
  if fld w 14 9 = 0#9 ∧ fld w 6 5 = 0#5 ∧ fld w 0 3 = 0#3 then .ok (.pand (fld w 23 3) (fld w 11 3) (fld w 3 3))
  else if fld w 14 9 = 32#9 ∧ fld w 6 5 = 0#5 ∧ fld w 0 3 = 0#3 then .ok (.por (fld w 23 3) (fld w 11 3) (fld w 3 3))
  else if fld w 14 9 = 64#9 ∧ fld w 6 5 = 0#5 ∧ fld w 0 3 = 0#3 then .ok (.pxor (fld w 23 3) (fld w 11 3) (fld w 3 3))
  else if fld w 14 9 = 96#9 ∧ fld w 0 11 = 0#11 then .ok (.pnot (fld w 23 3) (fld w 11 3))
  else if fld w 19 4 = 4#4 ∧ fld w 0 11 = 0#11 then .ok (.psetnz (fld w 23 3) (fld w 11 8))
  else .error .form

/-- The forms of major opcode 0x0E (R80). -/
def decodeOp0E (w : Word) : Except Reject Instr :=
  .ok (.sel (fld w 19 7) (fld w 11 8) (fld w 3 8) (fld w 0 3))

/-- The forms of major opcode 0x10 (R80). -/
def decodeOp10 (w : Word) : Except Reject Instr :=
  if fld w 0 3 = 0#3 then .ok (.fadd (fld w 19 7) (fld w 11 8) (fld w 3 8))
  else if fld w 0 3 = 1#3 then .ok (.fsub (fld w 19 7) (fld w 11 8) (fld w 3 8))
  else if fld w 0 3 = 2#3 then .ok (.fmul (fld w 19 7) (fld w 11 8) (fld w 3 8))
  else if fld w 0 3 = 3#3 then .ok (.fmin (fld w 19 7) (fld w 11 8) (fld w 3 8))
  else if fld w 0 3 = 4#3 then .ok (.fmax (fld w 19 7) (fld w 11 8) (fld w 3 8))
  else if fld w 0 3 = 5#3 then .ok (.fminm (fld w 19 7) (fld w 11 8) (fld w 3 8))
  else if fld w 0 3 = 6#3 then .ok (.fmaxm (fld w 19 7) (fld w 11 8) (fld w 3 8))
  else if fld w 0 3 = 7#3 then .ok (.fcopys (fld w 19 7) (fld w 11 8) (fld w 3 8))
  else .error .form

/-- The forms of major opcode 0x11 (R80). -/
def decodeOp11 (w : Word) : Except Reject Instr :=
  if fld w 0 3 = 0#3 then .ok (.fmac (fld w 19 7) (fld w 11 8) (fld w 3 8))
  else if fld w 0 3 = 1#3 then .ok (.fmsc (fld w 19 7) (fld w 11 8) (fld w 3 8))
  else if fld w 0 3 = 2#3 then .ok (.fnmac (fld w 19 7) (fld w 11 8) (fld w 3 8))
  else if fld w 0 3 = 3#3 then .ok (.fnmsc (fld w 19 7) (fld w 11 8) (fld w 3 8))
  else .error .form

/-- The forms of major opcode 0x12 (R80). -/
def decodeOp12 (w : Word) : Except Reject Instr :=
  if fld w 0 11 = 0#11 then .ok (.frcp (fld w 19 7) (fld w 11 8))
  else if fld w 0 11 = 1#11 then .ok (.fsqrt (fld w 19 7) (fld w 11 8))
  else if fld w 0 11 = 2#11 then .ok (.frsq (fld w 19 7) (fld w 11 8))
  else if fld w 0 11 = 3#11 then .ok (.fexp2 (fld w 19 7) (fld w 11 8))
  else if fld w 0 11 = 4#11 then .ok (.flog2 (fld w 19 7) (fld w 11 8))
  else if fld w 0 11 = 5#11 then .ok (.fsinpi (fld w 19 7) (fld w 11 8))
  else if fld w 0 11 = 6#11 then .ok (.fcospi (fld w 19 7) (fld w 11 8))
  else if fld w 0 11 = 7#11 then .ok (.frint (fld w 19 7) (fld w 11 8))
  else .error .form

/-- The forms of major opcode 0x13 (R80). -/
def decodeOp13 (w : Word) : Except Reject Instr :=
  if fld w 0 3 = 0#3 then .ok (.fdiv (fld w 19 7) (fld w 11 8) (fld w 3 8))
  else if fld w 0 11 = 1#11 then .ok (.fclass (fld w 19 7) (fld w 11 8))
  else if fld w 0 11 = 2#11 then .ok (.fneg (fld w 19 7) (fld w 11 8))
  else if fld w 0 11 = 3#11 then .ok (.fabs (fld w 19 7) (fld w 11 8))
  else if fld w 0 3 = 4#3 then .ok (.fscale (fld w 19 7) (fld w 11 8) (fld w 3 8))
  else if fld w 0 11 = 5#11 then .ok (.fgetexp (fld w 19 7) (fld w 11 8))
  else if fld w 0 11 = 6#11 then .ok (.fgetman (fld w 19 7) (fld w 11 8))
  else .error .form

/-- The forms of major opcode 0x14 (R80). -/
def decodeOp14 (w : Word) : Except Reject Instr :=
  if fld w 0 2 = 0#2 then .ok (.hadd2 (fld w 19 7) (fld w 11 8) (fld w 3 8) (fld w 2 1))
  else if fld w 0 2 = 1#2 then .ok (.hmul2 (fld w 19 7) (fld w 11 8) (fld w 3 8) (fld w 2 1))
  else if fld w 0 2 = 2#2 then .ok (.hmac2 (fld w 19 7) (fld w 11 8) (fld w 3 8) (fld w 2 1))
  else if fld w 0 2 = 3#2 then .ok (.hmax2 (fld w 19 7) (fld w 11 8) (fld w 3 8) (fld w 2 1))
  else .error .form

/-- The forms of major opcode 0x15 (R80). -/
def decodeOp15 (w : Word) : Except Reject Instr :=
  if fld w 0 3 = 0#3 then .ok (.hmin2F16 (fld w 19 7) (fld w 11 8) (fld w 3 8))
  else if fld w 0 3 = 1#3 then .ok (.hmin2Bf16 (fld w 19 7) (fld w 11 8) (fld w 3 8))
  else if fld w 0 3 = 2#3 then .ok (.hsub2F16 (fld w 19 7) (fld w 11 8) (fld w 3 8))
  else if fld w 0 3 = 3#3 then .ok (.hsub2Bf16 (fld w 19 7) (fld w 11 8) (fld w 3 8))
  else if fld w 0 3 = 4#3 then .ok (.hdot2F16 (fld w 19 7) (fld w 11 8) (fld w 3 8))
  else if fld w 0 3 = 5#3 then .ok (.hdot2Bf16 (fld w 19 7) (fld w 11 8) (fld w 3 8))
  else .error .form

/-- The forms of major opcode 0x16 (R80). -/
def decodeOp16 (w : Word) : Except Reject Instr :=
  .ok (.cvt (fld w 19 7) (fld w 11 8) (fld w 3 8) (fld w 2 1) (fld w 0 2))

/-- The forms of major opcode 0x17 (R80). -/
def decodeOp17 (w : Word) : Except Reject Instr :=
  if fld w 0 3 = 0#3 then .ok (.packn (fld w 19 7) (fld w 11 8) (fld w 3 8))
  else if fld w 0 3 = 1#3 then .ok (.unpknS (fld w 19 7) (fld w 11 8) (fld w 3 8))
  else if fld w 0 3 = 2#3 then .ok (.unpknU (fld w 19 7) (fld w 11 8) (fld w 3 8))
  else if fld w 0 3 = 3#3 then .ok (.packh (fld w 19 7) (fld w 11 8) (fld w 3 8))
  else .error .form

/-- The forms of major opcode 0x18 (R80). -/
def decodeOp18 (w : Word) : Except Reject Instr :=
  if fld w 19 1 = 0#1 ∧ fld w 0 3 = 0#3 then .ok (.dadd (fld w 20 6) (fld w 11 8) (fld w 3 8))
  else if fld w 19 1 = 0#1 ∧ fld w 0 3 = 1#3 then .ok (.dsub (fld w 20 6) (fld w 11 8) (fld w 3 8))
  else if fld w 19 1 = 0#1 ∧ fld w 0 3 = 2#3 then .ok (.dmul (fld w 20 6) (fld w 11 8) (fld w 3 8))
  else if fld w 19 1 = 0#1 ∧ fld w 0 3 = 3#3 then .ok (.dfmac (fld w 20 6) (fld w 11 8) (fld w 3 8))
  else if fld w 19 1 = 0#1 ∧ fld w 0 3 = 4#3 then .ok (.dmin (fld w 20 6) (fld w 11 8) (fld w 3 8))
  else if fld w 19 1 = 0#1 ∧ fld w 0 3 = 5#3 then .ok (.dmax (fld w 20 6) (fld w 11 8) (fld w 3 8))
  else if fld w 19 1 = 0#1 ∧ fld w 0 3 = 6#3 then .ok (.ddiv (fld w 20 6) (fld w 11 8) (fld w 3 8))
  else if fld w 19 1 = 0#1 ∧ fld w 0 11 = 7#11 then .ok (.dsqrt (fld w 20 6) (fld w 11 8))
  else .error .form

/-- The forms of major opcode 0x19 (R80). -/
def decodeOp19 (w : Word) : Except Reject Instr :=
  .ok (.ld (fld w 19 7) (fld w 11 8) (fld w 7 4) (fld w 4 3) (fld w 0 4))

/-- The forms of major opcode 0x1A (R80). -/
def decodeOp1A (w : Word) : Except Reject Instr :=
  .ok (.st (fld w 19 7) (fld w 11 8) (fld w 7 4) (fld w 4 3) (fld w 0 4))

/-- The forms of major opcode 0x1B (R80). -/
def decodeOp1B (w : Word) : Except Reject Instr :=
  if fld w 5 2 = 1#2 then .ok (.atom (fld w 19 7) (fld w 11 8) (fld w 7 4) (fld w 4 1) (fld w 0 4))
  else .error .form

/-- The forms of major opcode 0x1C (R80). -/
def decodeOp1C (w : Word) : Except Reject Instr :=
  if fld w 5 2 = 1#2 then .ok (.red (fld w 19 7) (fld w 11 8) (fld w 7 4) (fld w 4 1) (fld w 0 4))
  else .error .form

/-- The forms of major opcode 0x1D (R80). -/
def decodeOp1D (w : Word) : Except Reject Instr :=
  if fld w 19 7 = 0#7 ∧ fld w 4 3 = 0#3 then .ok (.pfetch (fld w 11 8) (fld w 7 4) (fld w 0 4))
  else if fld w 19 7 = 0#7 ∧ fld w 4 3 = 1#3 then .ok (.cinval (fld w 11 8) (fld w 7 4) (fld w 0 4))
  else if fld w 19 7 = 0#7 ∧ fld w 4 3 = 2#3 then .ok (.pfetchL2 (fld w 11 8) (fld w 7 4) (fld w 0 4))
  else .error .form

/-- The forms of major opcode 0x1E (R80). -/
def decodeOp1E (w : Word) : Except Reject Instr :=
  if fld w 20 6 = 0#6 ∧ fld w 0 12 = 0#12 then .ok (.fenceRel (fld w 12 8))
  else if fld w 0 26 = 1024#26 then .ok (.fenceAcq)
  else if fld w 20 6 = 0#6 ∧ fld w 0 12 = 2048#12 then .ok (.fenceFull (fld w 12 8))
  else .error .form

/-- The forms of major opcode 0x1F (R80). -/
def decodeOp1F (w : Word) : Except Reject Instr :=
  if fld w 19 1 = 0#1 then .ok (.mwait (fld w 20 6) (fld w 11 8) (fld w 7 4) (fld w 4 3) (fld w 0 4))
  else .error .form

/-- The forms of major opcode 0x20 (R80). -/
def decodeOp20 (w : Word) : Except Reject Instr :=
  .ok (.bra (fld w 23 3) (fld w 22 1) (fld w 0 22))

/-- The forms of major opcode 0x21 (R80). -/
def decodeOp21 (w : Word) : Except Reject Instr :=
  .ok (.bru (fld w 20 6) (fld w 17 3) (fld w 0 17))

/-- The forms of major opcode 0x22 (R80). -/
def decodeOp22 (w : Word) : Except Reject Instr :=
  if fld w 19 7 = 0#7 ∧ fld w 0 11 = 0#11 then .ok (.brx (fld w 11 8))
  else if fld w 19 7 = 0#7 ∧ fld w 0 11 = 1#11 then .ok (.ret (fld w 11 8))
  else .error .form

/-- The forms of major opcode 0x23 (R80). -/
def decodeOp23 (w : Word) : Except Reject Instr :=
  .ok (.call (fld w 19 7) (fld w 0 19))

/-- The forms of major opcode 0x24 (R80). -/
def decodeOp24 (w : Word) : Except Reject Instr :=
  if fld w 0 1 = 0#1 then .ok (.wait (fld w 21 5) (fld w 16 5) (fld w 11 5) (fld w 6 5) (fld w 1 5))
  else .error .form

/-- The forms of major opcode 0x25 (R80). -/
def decodeOp25 (w : Word) : Except Reject Instr :=
  if fld w 20 6 = 0#6 ∧ fld w 0 11 = 0#11 then .ok (.barSync (fld w 17 3) (fld w 11 6))
  else if fld w 20 6 = 0#6 ∧ fld w 0 11 = 512#11 then .ok (.barArrive (fld w 17 3) (fld w 11 6))
  else if fld w 20 6 = 0#6 ∧ fld w 0 11 = 1024#11 then .ok (.barWait (fld w 17 3) (fld w 11 6))
  else .error .form

/-- The forms of major opcode 0x28 (R80). -/
def decodeOp28 (w : Word) : Except Reject Instr :=
  if fld w 0 4 = 0#4 then .ok (.cadd (fld w 20 6) (fld w 12 8) (fld w 4 8))
  else if fld w 0 4 = 1#4 then .ok (.csub (fld w 20 6) (fld w 12 8) (fld w 4 8))
  else if fld w 0 4 = 2#4 then .ok (.cmul (fld w 20 6) (fld w 12 8) (fld w 4 8))
  else if fld w 0 4 = 3#4 then .ok (.cand (fld w 20 6) (fld w 12 8) (fld w 4 8))
  else if fld w 0 4 = 4#4 then .ok (.cor (fld w 20 6) (fld w 12 8) (fld w 4 8))
  else if fld w 0 4 = 5#4 then .ok (.cxor (fld w 20 6) (fld w 12 8) (fld w 4 8))
  else if fld w 0 4 = 6#4 then .ok (.cshl (fld w 20 6) (fld w 12 8) (fld w 4 8))
  else if fld w 0 4 = 7#4 then .ok (.cshr (fld w 20 6) (fld w 12 8) (fld w 4 8))
  else if fld w 0 4 = 8#4 then .ok (.csar (fld w 20 6) (fld w 12 8) (fld w 4 8))
  else if fld w 0 4 = 9#4 then .ok (.cminS (fld w 20 6) (fld w 12 8) (fld w 4 8))
  else if fld w 0 4 = 10#4 then .ok (.cmaxS (fld w 20 6) (fld w 12 8) (fld w 4 8))
  else if fld w 0 4 = 11#4 then .ok (.cminU (fld w 20 6) (fld w 12 8) (fld w 4 8))
  else if fld w 0 4 = 12#4 then .ok (.cmaxU (fld w 20 6) (fld w 12 8) (fld w 4 8))
  else if fld w 0 4 = 13#4 then .ok (.csltS (fld w 20 6) (fld w 12 8) (fld w 4 8))
  else if fld w 0 4 = 14#4 then .ok (.csltU (fld w 20 6) (fld w 12 8) (fld w 4 8))
  else if fld w 0 4 = 15#4 then .ok (.cseq (fld w 20 6) (fld w 12 8) (fld w 4 8))
  else .error .form

/-- The forms of major opcode 0x29 (R80). -/
def decodeOp29 (w : Word) : Except Reject Instr :=
  .ok (.caddi (fld w 20 6) (fld w 12 8) (fld w 0 12))

/-- The forms of major opcode 0x2A (R80). -/
def decodeOp2A (w : Word) : Except Reject Instr :=
  if fld w 0 10 = 0#10 then .ok (.aadd (fld w 22 4) (fld w 18 4) (fld w 10 8))
  else if fld w 0 4 = 1#4 then .ok (.aadds (fld w 22 4) (fld w 18 4) (fld w 10 8) (fld w 4 6))
  else if fld w 16 6 = 0#6 ∧ fld w 0 10 = 2#10 then .ok (.afromc (fld w 22 4) (fld w 10 6))
  else if fld w 22 4 = 0#4 ∧ fld w 16 2 = 0#2 ∧ fld w 0 10 = 3#10 then .ok (.atoc (fld w 18 4) (fld w 10 6))
  else .error .form

/-- The forms of major opcode 0x2B (R80). -/
def decodeOp2B (w : Word) : Except Reject Instr :=
  .ok (.cld (fld w 20 6) (fld w 16 4) (fld w 14 2) (fld w 0 14))

/-- The forms of major opcode 0x2C (R80). -/
def decodeOp2C (w : Word) : Except Reject Instr :=
  .ok (.cst (fld w 20 6) (fld w 16 4) (fld w 14 2) (fld w 0 14))

/-- The forms of major opcode 0x2D (R80). -/
def decodeOp2D (w : Word) : Except Reject Instr :=
  if fld w 0 4 = 0#4 then .ok (.wred (fld w 20 6) (fld w 12 8) (fld w 8 4) (fld w 5 3) (fld w 4 1))
  else .error .form

/-- The forms of major opcode 0x2E (R80). -/
def decodeOp2E (w : Word) : Except Reject Instr :=
  if fld w 24 2 = 0#2 ∧ fld w 0 7 = 0#7 then .ok (.srd (fld w 17 7) (fld w 7 10))
  else if fld w 24 2 = 2#2 ∧ fld w 0 7 = 0#7 then .ok (.swr (fld w 17 7) (fld w 7 10))
  else .error .form

/-- The forms of major opcode 0x2F (R80). -/
def decodeOp2F (w : Word) : Except Reject Instr :=
  if fld w 0 12 = 0#12 then .ok (.regqSet (fld w 20 6) (fld w 12 8))
  else if fld w 0 4 = 1#4 then .ok (.regqXfer (fld w 20 6) (fld w 12 8) (fld w 4 8))
  else if fld w 0 20 = 2#20 then .ok (.regqGet (fld w 20 6))
  else .error .form

/-- The forms of major opcode 0x30 (R80). -/
def decodeOp30 (w : Word) : Except Reject Instr :=
  if fld w 0 5 = 0#5 then .ok (.copyT (fld w 22 4) (fld w 14 8) (fld w 10 4) (fld w 7 3) (fld w 5 2))
  else if fld w 0 5 = 1#5 then .ok (.copyG (fld w 22 4) (fld w 14 8) (fld w 10 4) (fld w 7 3) (fld w 5 2))
  else if fld w 0 5 = 2#5 then .ok (.copyS (fld w 22 4) (fld w 14 8) (fld w 10 4) (fld w 7 3) (fld w 5 2))
  else if fld w 0 5 = 3#5 then .ok (.copyMc (fld w 22 4) (fld w 14 8) (fld w 10 4) (fld w 7 3) (fld w 5 2))
  else if fld w 0 5 = 4#5 then .ok (.copyWb (fld w 22 4) (fld w 14 8) (fld w 10 4) (fld w 7 3) (fld w 5 2))
  else if fld w 0 7 = 5#7 then .ok (.copyFill (fld w 22 4) (fld w 14 8) (fld w 10 4) (fld w 7 3))
  else if fld w 22 4 = 0#4 ∧ fld w 0 14 = 6#14 then .ok (.cresume (fld w 14 8))
  else if fld w 22 4 = 0#4 ∧ fld w 0 14 = 7#14 then .ok (.ccancel (fld w 14 8))
  else .error .form

/-- The forms of major opcode 0x31 (R80). -/
def decodeOp31 (w : Word) : Except Reject Instr :=
  if fld w 4 3 = 0#3 then .ok (.tbarInit (fld w 19 7) (fld w 11 8) (fld w 7 4) (fld w 0 4))
  else if fld w 4 3 = 1#3 then .ok (.tbarArrive (fld w 19 7) (fld w 11 8) (fld w 7 4) (fld w 0 4))
  else if fld w 4 3 = 2#3 then .ok (.tbarExpect (fld w 19 7) (fld w 11 8) (fld w 7 4) (fld w 0 4))
  else if fld w 4 3 = 3#3 then .ok (.tbarWait (fld w 19 7) (fld w 11 8) (fld w 7 4) (fld w 0 4))
  else if fld w 4 3 = 4#3 then .ok (.tbarTest (fld w 19 7) (fld w 11 8) (fld w 7 4) (fld w 0 4))
  else .error .form

/-- The forms of major opcode 0x32 (R80). -/
def decodeOp32 (w : Word) : Except Reject Instr :=
  if fld w 22 4 = 0#4 ∧ fld w 0 12 = 0#12 then .ok (.mdesc (fld w 16 6) (fld w 12 4))
  else if fld w 16 10 = 64#10 ∧ fld w 0 12 = 0#12 then .ok (.mma (fld w 12 4))
  else if fld w 22 4 = 2#4 ∧ fld w 0 16 = 0#16 then .ok (.accrd (fld w 16 6))
  else if fld w 22 4 = 3#4 ∧ fld w 0 16 = 0#16 then .ok (.accwr (fld w 16 6))
  else if fld w 22 4 = 4#4 ∧ fld w 0 16 = 0#16 then .ok (.accscl (fld w 16 6))
  else if fld w 22 4 = 5#4 ∧ fld w 0 16 = 0#16 then .ok (.accz (fld w 16 6))
  else if fld w 12 14 = 6144#14 then .ok (.wbinv (fld w 8 4) (fld w 0 8))
  else if fld w 22 4 = 7#4 ∧ fld w 8 8 = 0#8 then .ok (.mstat (fld w 16 6) (fld w 0 8))
  else .error .form

/-- The forms of major opcode 0x33 (R80). -/
def decodeOp33 (w : Word) : Except Reject Instr :=
  if fld w 10 4 = 0#4 ∧ fld w 0 7 = 0#7 then .ok (.collAr (fld w 22 4) (fld w 14 8) (fld w 7 3))
  else if fld w 10 4 = 0#4 ∧ fld w 0 7 = 1#7 then .ok (.collRs (fld w 22 4) (fld w 14 8) (fld w 7 3))
  else if fld w 10 4 = 0#4 ∧ fld w 0 7 = 2#7 then .ok (.collAg (fld w 22 4) (fld w 14 8) (fld w 7 3))
  else if fld w 10 4 = 0#4 ∧ fld w 0 7 = 3#7 then .ok (.collBc (fld w 22 4) (fld w 14 8) (fld w 7 3))
  else .error .form

/-- The forms of major opcode 0x34 (R80). -/
def decodeOp34 (w : Word) : Except Reject Instr :=
  if fld w 0 4 = 0#4 then .ok (.tbld (fld w 20 6) (fld w 12 8) (fld w 4 8))
  else if fld w 0 4 = 1#4 then .ok (.tbinv (fld w 20 6) (fld w 12 8) (fld w 4 8))
  else if fld w 0 4 = 2#4 then .ok (.tbq (fld w 20 6) (fld w 12 8) (fld w 4 8))
  else if fld w 0 4 = 3#4 then .ok (.tagq (fld w 20 6) (fld w 12 8) (fld w 4 8))
  else if fld w 0 4 = 4#4 then .ok (.fresume (fld w 20 6) (fld w 12 8) (fld w 4 8))
  else if fld w 0 4 = 5#4 then .ok (.rack (fld w 20 6) (fld w 12 8) (fld w 4 8))
  else if fld w 0 4 = 6#4 then .ok (.relinq (fld w 20 6) (fld w 12 8) (fld w 4 8))
  else if fld w 0 4 = 7#4 then .ok (.lossrd (fld w 20 6) (fld w 12 8) (fld w 4 8))
  else .error .form

/-- The forms of major opcode 0x35 (R80). -/
def decodeOp35 (w : Word) : Except Reject Instr :=
  if fld w 0 11 = 0#11 then .ok (.cntrdLo (fld w 19 7) (fld w 11 8))
  else if fld w 0 11 = 1#11 then .ok (.cntrdHi (fld w 19 7) (fld w 11 8))
  else if fld w 19 1 = 0#1 ∧ fld w 0 11 = 2#11 then .ok (.cntrd (fld w 20 6) (fld w 11 8))
  else if fld w 19 7 = 0#7 ∧ fld w 0 3 = 3#3 then .ok (.cntsel (fld w 11 8) (fld w 3 8))
  else if fld w 19 7 = 0#7 ∧ fld w 0 11 = 4#11 then .ok (.cntz (fld w 11 8))
  else if fld w 19 1 = 0#1 ∧ fld w 0 3 = 5#3 then .ok (.numrd (fld w 20 6) (fld w 11 8) (fld w 3 8))
  else .error .form

/-- The forms of major opcode 0x36 (R80). -/
def decodeOp36 (w : Word) : Except Reject Instr :=
  if fld w 0 4 = 0#4 then .ok (.dbpset (fld w 20 6) (fld w 12 8) (fld w 4 8))
  else if fld w 0 12 = 1#12 then .ok (.dbpclr (fld w 20 6) (fld w 12 8))
  else if fld w 0 12 = 2#12 then .ok (.dhalt (fld w 20 6) (fld w 12 8))
  else if fld w 0 4 = 3#4 then .ok (.dstep (fld w 20 6) (fld w 12 8) (fld w 4 8))
  else if fld w 0 4 = 4#4 then .ok (.dresume (fld w 20 6) (fld w 12 8) (fld w 4 8))
  else if fld w 0 4 = 5#4 then .ok (.dwset (fld w 20 6) (fld w 12 8) (fld w 4 8))
  else if fld w 0 12 = 6#12 then .ok (.dstat (fld w 20 6) (fld w 12 8))
  else if fld w 0 4 = 7#4 then .ok (.trace (fld w 20 6) (fld w 12 8) (fld w 4 8))
  else if fld w 0 4 = 8#4 then .ok (.dpcrd (fld w 20 6) (fld w 12 8) (fld w 4 8))
  else .error .form

/-- The forms of major opcode 0x37 (R80). -/
def decodeOp37 (w : Word) : Except Reject Instr :=
  if fld w 0 14 = 0#14 then .ok (.lnchPool (fld w 22 4) (fld w 14 8))
  else if fld w 0 14 = 1#14 then .ok (.lnchGo (fld w 22 4) (fld w 14 8))
  else .error .form

/-- The forms of major opcode 0x38 (R80). -/
def decodeOp38 (w : Word) : Except Reject Instr :=
  if fld w 0 12 = 0#12 then .ok (.cfgr (fld w 20 6) (fld w 12 8))
  else if fld w 0 4 = 1#4 then .ok (.cfgw (fld w 20 6) (fld w 12 8) (fld w 4 8))
  else .error .form

/-- The forms of major opcode 0x3F (R80). -/
def decodeOp3F (w : Word) : Except Reject Instr :=
  if fld w 22 4 = 0#4 then .ok (.hintImms (fld w 0 22))
  else if fld w 16 10 = 64#10 then .ok (.hintImmh (fld w 0 16))
  else if fld w 16 10 = 128#10 then .ok (.hintImml (fld w 0 16))
  else if fld w 4 22 = 786432#22 then .ok (.hintPred (fld w 3 1) (fld w 0 3))
  else if fld w 8 18 = 65536#18 then .ok (.hintMem (fld w 7 1) (fld w 5 2) (fld w 4 1) (fld w 3 1) (fld w 0 3))
  else if fld w 4 22 = 1310720#22 then .ok (.hintRnd (fld w 3 1) (fld w 2 1) (fld w 0 2))
  else if fld w 22 4 = 6#4 then .ok (.hintDisp (fld w 0 22))
  else if fld w 22 4 = 7#4 then .ok (.hintDead (fld w 16 6) (fld w 0 16))
  else if fld w 12 14 = 8192#14 then .ok (.hintSchedFill (fld w 0 12))
  else if fld w 16 10 = 528#10 then .ok (.hintSchedAge (fld w 0 16))
  else .error .form

/-- The instruction a word is, or why no entry claims it (R64, R80). -/
def decodeWord (w : Word) : Except Reject Instr :=
  match (fld w 26 6).toNat with
  | 0 => decodeOp00 w
  | 1 => decodeOp01 w
  | 2 => decodeOp02 w
  | 3 => decodeOp03 w
  | 4 => decodeOp04 w
  | 5 => decodeOp05 w
  | 6 => decodeOp06 w
  | 7 => decodeOp07 w
  | 8 => decodeOp08 w
  | 9 => decodeOp09 w
  | 10 => decodeOp0A w
  | 11 => decodeOp0B w
  | 12 => decodeOp0C w
  | 13 => decodeOp0D w
  | 14 => decodeOp0E w
  | 16 => decodeOp10 w
  | 17 => decodeOp11 w
  | 18 => decodeOp12 w
  | 19 => decodeOp13 w
  | 20 => decodeOp14 w
  | 21 => decodeOp15 w
  | 22 => decodeOp16 w
  | 23 => decodeOp17 w
  | 24 => decodeOp18 w
  | 25 => decodeOp19 w
  | 26 => decodeOp1A w
  | 27 => decodeOp1B w
  | 28 => decodeOp1C w
  | 29 => decodeOp1D w
  | 30 => decodeOp1E w
  | 31 => decodeOp1F w
  | 32 => decodeOp20 w
  | 33 => decodeOp21 w
  | 34 => decodeOp22 w
  | 35 => decodeOp23 w
  | 36 => decodeOp24 w
  | 37 => decodeOp25 w
  | 40 => decodeOp28 w
  | 41 => decodeOp29 w
  | 42 => decodeOp2A w
  | 43 => decodeOp2B w
  | 44 => decodeOp2C w
  | 45 => decodeOp2D w
  | 46 => decodeOp2E w
  | 47 => decodeOp2F w
  | 48 => decodeOp30 w
  | 49 => decodeOp31 w
  | 50 => decodeOp32 w
  | 51 => decodeOp33 w
  | 52 => decodeOp34 w
  | 53 => decodeOp35 w
  | 54 => decodeOp36 w
  | 55 => decodeOp37 w
  | 56 => decodeOp38 w
  | 63 => decodeOp3F w
  | _ => .error .opcode

/-- Four bytes as a little-endian word (R62). -/
def wordOfBytes (b0 b1 b2 b3 : Byte) : Word := b3 ++ b2 ++ b1 ++ b0

/-- The instruction at the head of a list of bytes, and the bytes after it. Every instruction is one
32-bit word (R62); fewer than four bytes hold none. -/
def decodeBytes : List Byte → Except Reject (Instr × List Byte)
  | b0 :: b1 :: b2 :: b3 :: rest =>
    match decodeWord (wordOfBytes b0 b1 b2 b3) with
    | .ok i => .ok (i, rest)
    | .error e => .error e
  | _ => .error .short

/-- The bytes of a word in memory order (R3, R62). -/
def bytesOfWord (w : Word) : List Byte := [fld w 0 8, fld w 8 8, fld w 16 8, fld w 24 8]

/-- What the decoder reads from an instruction whose bits are `w`, numbered as the opcode table numbers
them; bits above `nbits` are 0. -/
def decodeTableWord (nbits w : Nat) : Option Instr :=
  match decodeBytes (bytesOfWord (BitVec.ofNat 32 (w % 2 ^ nbits))) with
  | .ok (i, _) => some i
  | .error _ => none

/-- A word put together from its fields, most significant first (R65). -/
def mkWord {n : Nat} (x : BitVec n) : Word := x.setWidth 32

/-- The word of an instruction, written from the bit tables of the entries (R65); the device's own events
have none. -/
def encode : Instr → Option Word
  | .nop => some (mkWord (0#6 ++ 0#26))
  | .exit => some (mkWord (0#6 ++ 1048576#26))
  | .yield => some (mkWord (0#6 ++ 2097152#26))
  | .sleep n => some (mkWord (0#6 ++ 3#6 ++ n))
  | .ublk => some (mkWord (0#6 ++ 4194304#26))
  | .trap n => some (mkWord (0#6 ++ 20480#18 ++ n))
  | .tretNext => some (mkWord (0#6 ++ 6291456#26))
  | .tretRetry => some (mkWord (0#6 ++ 6291457#26))
  | .brk c => some (mkWord (0#6 ++ 28672#18 ++ c))
  | .iadd d a b => some (mkWord (1#6 ++ d ++ a ++ b ++ 0#3))
  | .isub d a b => some (mkWord (1#6 ++ d ++ a ++ b ++ 1#3))
  | .iaddsS d a b => some (mkWord (1#6 ++ d ++ a ++ b ++ 2#3))
  | .isubsS d a b => some (mkWord (1#6 ++ d ++ a ++ b ++ 3#3))
  | .iminS d a b => some (mkWord (1#6 ++ d ++ a ++ b ++ 4#3))
  | .iminU d a b => some (mkWord (1#6 ++ d ++ a ++ b ++ 5#3))
  | .imaxS d a b => some (mkWord (1#6 ++ d ++ a ++ b ++ 6#3))
  | .imaxU d a b => some (mkWord (1#6 ++ d ++ a ++ b ++ 7#3))
  | .imul d a b => some (mkWord (2#6 ++ d ++ a ++ b ++ 0#3))
  | .imulhS d a b => some (mkWord (2#6 ++ d ++ a ++ b ++ 1#3))
  | .imulhU d a b => some (mkWord (2#6 ++ d ++ a ++ b ++ 2#3))
  | .imac d a b => some (mkWord (2#6 ++ d ++ a ++ b ++ 3#3))
  | .idot4S d a b => some (mkWord (2#6 ++ d ++ a ++ b ++ 4#3))
  | .idot4U d a b => some (mkWord (2#6 ++ d ++ a ++ b ++ 5#3))
  | .iabsd d a b => some (mkWord (2#6 ++ d ++ a ++ b ++ 6#3))
  | .and d a b => some (mkWord (3#6 ++ d ++ a ++ b ++ 0#3))
  | .or d a b => some (mkWord (3#6 ++ d ++ a ++ b ++ 1#3))
  | .xor d a b => some (mkWord (3#6 ++ d ++ a ++ b ++ 2#3))
  | .andn d a b => some (mkWord (3#6 ++ d ++ a ++ b ++ 3#3))
  | .orn d a b => some (mkWord (3#6 ++ d ++ a ++ b ++ 4#3))
  | .xnor d a b => some (mkWord (3#6 ++ d ++ a ++ b ++ 5#3))
  | .shl d a b => some (mkWord (4#6 ++ d ++ a ++ b ++ 0#3))
  | .shr d a b => some (mkWord (4#6 ++ d ++ a ++ b ++ 1#3))
  | .sar d a b => some (mkWord (4#6 ++ d ++ a ++ b ++ 2#3))
  | .rol d a b => some (mkWord (4#6 ++ d ++ a ++ b ++ 3#3))
  | .ror d a b => some (mkWord (4#6 ++ d ++ a ++ b ++ 4#3))
  | .fshr d a b => some (mkWord (4#6 ++ d ++ a ++ b ++ 5#3))
  | .popc d a => some (mkWord (5#6 ++ d ++ a ++ 0#11))
  | .clz d a => some (mkWord (5#6 ++ d ++ a ++ 1#11))
  | .ctz d a => some (mkWord (5#6 ++ d ++ a ++ 2#11))
  | .brev d a => some (mkWord (5#6 ++ d ++ a ++ 3#11))
  | .bfxS d a b => some (mkWord (5#6 ++ d ++ a ++ b ++ 4#3))
  | .bfxU d a b => some (mkWord (5#6 ++ d ++ a ++ b ++ 5#3))
  | .bfi d a b => some (mkWord (5#6 ++ d ++ a ++ b ++ 6#3))
  | .permb d a b => some (mkWord (5#6 ++ d ++ a ++ b ++ 7#3))
  | .iaddi d a i => some (mkWord (6#6 ++ d ++ a ++ i))
  | .andi d a i => some (mkWord (7#6 ++ d ++ a ++ i))
  | .ori d a i => some (mkWord (8#6 ++ d ++ a ++ i))
  | .xori d a i => some (mkWord (9#6 ++ d ++ a ++ i))
  | .shli d a n => some (mkWord (10#6 ++ d ++ a ++ 0#6 ++ n))
  | .shri d a n => some (mkWord (10#6 ++ d ++ a ++ 8#6 ++ n))
  | .sari d a n => some (mkWord (10#6 ++ d ++ a ++ 16#6 ++ n))
  | .roli d a n => some (mkWord (10#6 ++ d ++ a ++ 24#6 ++ n))
  | .rori d a n => some (mkWord (10#6 ++ d ++ a ++ 32#6 ++ n))
  | .icmp p c a b => some (mkWord (11#6 ++ p ++ c ++ a ++ b ++ 0#3))
  | .icmpAnd p c a b => some (mkWord (11#6 ++ p ++ c ++ a ++ b ++ 1#3))
  | .icmpOr p c a b => some (mkWord (11#6 ++ p ++ c ++ a ++ b ++ 2#3))
  | .fcmp p c a b w => some (mkWord (12#6 ++ p ++ c ++ a ++ b ++ w ++ 0#2))
  | .fcmpAnd p c a b w => some (mkWord (12#6 ++ p ++ c ++ a ++ b ++ w ++ 1#2))
  | .fcmpOr p c a b w => some (mkWord (12#6 ++ p ++ c ++ a ++ b ++ w ++ 2#2))
  | .pand d a b => some (mkWord (13#6 ++ d ++ 0#9 ++ a ++ 0#5 ++ b ++ 0#3))
  | .por d a b => some (mkWord (13#6 ++ d ++ 32#9 ++ a ++ 0#5 ++ b ++ 0#3))
  | .pxor d a b => some (mkWord (13#6 ++ d ++ 64#9 ++ a ++ 0#5 ++ b ++ 0#3))
  | .pnot d a => some (mkWord (13#6 ++ d ++ 96#9 ++ a ++ 0#11))
  | .psetnz d a => some (mkWord (13#6 ++ d ++ 4#4 ++ a ++ 0#11))
  | .sel d a b p => some (mkWord (14#6 ++ d ++ a ++ b ++ p))
  | .fadd d a b => some (mkWord (16#6 ++ d ++ a ++ b ++ 0#3))
  | .fsub d a b => some (mkWord (16#6 ++ d ++ a ++ b ++ 1#3))
  | .fmul d a b => some (mkWord (16#6 ++ d ++ a ++ b ++ 2#3))
  | .fmin d a b => some (mkWord (16#6 ++ d ++ a ++ b ++ 3#3))
  | .fmax d a b => some (mkWord (16#6 ++ d ++ a ++ b ++ 4#3))
  | .fminm d a b => some (mkWord (16#6 ++ d ++ a ++ b ++ 5#3))
  | .fmaxm d a b => some (mkWord (16#6 ++ d ++ a ++ b ++ 6#3))
  | .fcopys d a b => some (mkWord (16#6 ++ d ++ a ++ b ++ 7#3))
  | .fmac d a b => some (mkWord (17#6 ++ d ++ a ++ b ++ 0#3))
  | .fmsc d a b => some (mkWord (17#6 ++ d ++ a ++ b ++ 1#3))
  | .fnmac d a b => some (mkWord (17#6 ++ d ++ a ++ b ++ 2#3))
  | .fnmsc d a b => some (mkWord (17#6 ++ d ++ a ++ b ++ 3#3))
  | .frcp d a => some (mkWord (18#6 ++ d ++ a ++ 0#11))
  | .fsqrt d a => some (mkWord (18#6 ++ d ++ a ++ 1#11))
  | .frsq d a => some (mkWord (18#6 ++ d ++ a ++ 2#11))
  | .fexp2 d a => some (mkWord (18#6 ++ d ++ a ++ 3#11))
  | .flog2 d a => some (mkWord (18#6 ++ d ++ a ++ 4#11))
  | .fsinpi d a => some (mkWord (18#6 ++ d ++ a ++ 5#11))
  | .fcospi d a => some (mkWord (18#6 ++ d ++ a ++ 6#11))
  | .frint d a => some (mkWord (18#6 ++ d ++ a ++ 7#11))
  | .fdiv d a b => some (mkWord (19#6 ++ d ++ a ++ b ++ 0#3))
  | .fclass d a => some (mkWord (19#6 ++ d ++ a ++ 1#11))
  | .fneg d a => some (mkWord (19#6 ++ d ++ a ++ 2#11))
  | .fabs d a => some (mkWord (19#6 ++ d ++ a ++ 3#11))
  | .fscale d a b => some (mkWord (19#6 ++ d ++ a ++ b ++ 4#3))
  | .fgetexp d a => some (mkWord (19#6 ++ d ++ a ++ 5#11))
  | .fgetman d a => some (mkWord (19#6 ++ d ++ a ++ 6#11))
  | .hadd2 d a b t => some (mkWord (20#6 ++ d ++ a ++ b ++ t ++ 0#2))
  | .hmul2 d a b t => some (mkWord (20#6 ++ d ++ a ++ b ++ t ++ 1#2))
  | .hmac2 d a b t => some (mkWord (20#6 ++ d ++ a ++ b ++ t ++ 2#2))
  | .hmax2 d a b t => some (mkWord (20#6 ++ d ++ a ++ b ++ t ++ 3#2))
  | .hmin2F16 d a b => some (mkWord (21#6 ++ d ++ a ++ b ++ 0#3))
  | .hmin2Bf16 d a b => some (mkWord (21#6 ++ d ++ a ++ b ++ 1#3))
  | .hsub2F16 d a b => some (mkWord (21#6 ++ d ++ a ++ b ++ 2#3))
  | .hsub2Bf16 d a b => some (mkWord (21#6 ++ d ++ a ++ b ++ 3#3))
  | .hdot2F16 d a b => some (mkWord (21#6 ++ d ++ a ++ b ++ 4#3))
  | .hdot2Bf16 d a b => some (mkWord (21#6 ++ d ++ a ++ b ++ 5#3))
  | .cvt d a c s r => some (mkWord (22#6 ++ d ++ a ++ c ++ s ++ r))
  | .packn d a b => some (mkWord (23#6 ++ d ++ a ++ b ++ 0#3))
  | .unpknS d a b => some (mkWord (23#6 ++ d ++ a ++ b ++ 1#3))
  | .unpknU d a b => some (mkWord (23#6 ++ d ++ a ++ b ++ 2#3))
  | .packh d a b => some (mkWord (23#6 ++ d ++ a ++ b ++ 3#3))
  | .dadd d a b => some (mkWord (24#6 ++ d ++ 0#1 ++ a ++ b ++ 0#3))
  | .dsub d a b => some (mkWord (24#6 ++ d ++ 0#1 ++ a ++ b ++ 1#3))
  | .dmul d a b => some (mkWord (24#6 ++ d ++ 0#1 ++ a ++ b ++ 2#3))
  | .dfmac d a b => some (mkWord (24#6 ++ d ++ 0#1 ++ a ++ b ++ 3#3))
  | .dmin d a b => some (mkWord (24#6 ++ d ++ 0#1 ++ a ++ b ++ 4#3))
  | .dmax d a b => some (mkWord (24#6 ++ d ++ 0#1 ++ a ++ b ++ 5#3))
  | .ddiv d a b => some (mkWord (24#6 ++ d ++ 0#1 ++ a ++ b ++ 6#3))
  | .dsqrt d a => some (mkWord (24#6 ++ d ++ 0#1 ++ a ++ 7#11))
  | .ld t x a s k => some (mkWord (25#6 ++ t ++ x ++ a ++ s ++ k))
  | .st t x a s k => some (mkWord (26#6 ++ t ++ x ++ a ++ s ++ k))
  | .atom t x a s k => some (mkWord (27#6 ++ t ++ x ++ a ++ 1#2 ++ s ++ k))
  | .red t x a s k => some (mkWord (28#6 ++ t ++ x ++ a ++ 1#2 ++ s ++ k))
  | .pfetch x a k => some (mkWord (29#6 ++ 0#7 ++ x ++ a ++ 0#3 ++ k))
  | .cinval x a k => some (mkWord (29#6 ++ 0#7 ++ x ++ a ++ 1#3 ++ k))
  | .pfetchL2 x a k => some (mkWord (29#6 ++ 0#7 ++ x ++ a ++ 2#3 ++ k))
  | .fenceRel m => some (mkWord (30#6 ++ 0#6 ++ m ++ 0#12))
  | .fenceAcq => some (mkWord (30#6 ++ 1024#26))
  | .fenceFull m => some (mkWord (30#6 ++ 0#6 ++ m ++ 2048#12))
  | .mwait t x a c k => some (mkWord (31#6 ++ t ++ 0#1 ++ x ++ a ++ c ++ k))
  | .bra p n d => some (mkWord (32#6 ++ p ++ n ++ d))
  | .bru c t d => some (mkWord (33#6 ++ c ++ t ++ d))
  | .brx a => some (mkWord (34#6 ++ 0#7 ++ a ++ 0#11))
  | .ret a => some (mkWord (34#6 ++ 0#7 ++ a ++ 1#11))
  | .call l d => some (mkWord (35#6 ++ l ++ d))
  | .wait l s c m x => some (mkWord (36#6 ++ l ++ s ++ c ++ m ++ x ++ 0#1))
  | .barSync s i => some (mkWord (37#6 ++ 0#6 ++ s ++ i ++ 0#11))
  | .barArrive s i => some (mkWord (37#6 ++ 0#6 ++ s ++ i ++ 512#11))
  | .barWait s i => some (mkWord (37#6 ++ 0#6 ++ s ++ i ++ 1024#11))
  | .cadd d a b => some (mkWord (40#6 ++ d ++ a ++ b ++ 0#4))
  | .csub d a b => some (mkWord (40#6 ++ d ++ a ++ b ++ 1#4))
  | .cmul d a b => some (mkWord (40#6 ++ d ++ a ++ b ++ 2#4))
  | .cand d a b => some (mkWord (40#6 ++ d ++ a ++ b ++ 3#4))
  | .cor d a b => some (mkWord (40#6 ++ d ++ a ++ b ++ 4#4))
  | .cxor d a b => some (mkWord (40#6 ++ d ++ a ++ b ++ 5#4))
  | .cshl d a b => some (mkWord (40#6 ++ d ++ a ++ b ++ 6#4))
  | .cshr d a b => some (mkWord (40#6 ++ d ++ a ++ b ++ 7#4))
  | .csar d a b => some (mkWord (40#6 ++ d ++ a ++ b ++ 8#4))
  | .cminS d a b => some (mkWord (40#6 ++ d ++ a ++ b ++ 9#4))
  | .cmaxS d a b => some (mkWord (40#6 ++ d ++ a ++ b ++ 10#4))
  | .cminU d a b => some (mkWord (40#6 ++ d ++ a ++ b ++ 11#4))
  | .cmaxU d a b => some (mkWord (40#6 ++ d ++ a ++ b ++ 12#4))
  | .csltS d a b => some (mkWord (40#6 ++ d ++ a ++ b ++ 13#4))
  | .csltU d a b => some (mkWord (40#6 ++ d ++ a ++ b ++ 14#4))
  | .cseq d a b => some (mkWord (40#6 ++ d ++ a ++ b ++ 15#4))
  | .caddi d a i => some (mkWord (41#6 ++ d ++ a ++ i))
  | .aadd d a s => some (mkWord (42#6 ++ d ++ a ++ s ++ 0#10))
  | .aadds d a s k => some (mkWord (42#6 ++ d ++ a ++ s ++ k ++ 1#4))
  | .afromc d n => some (mkWord (42#6 ++ d ++ 0#6 ++ n ++ 2#10))
  | .atoc a n => some (mkWord (42#6 ++ 0#4 ++ a ++ 0#2 ++ n ++ 3#10))
  | .cld d a s i => some (mkWord (43#6 ++ d ++ a ++ s ++ i))
  | .cst d a s i => some (mkWord (44#6 ++ d ++ a ++ s ++ i))
  | .wred d a r p n => some (mkWord (45#6 ++ d ++ a ++ r ++ p ++ n ++ 0#4))
  | .srd r i => some (mkWord (46#6 ++ 0#2 ++ r ++ i ++ 0#7))
  | .swr r i => some (mkWord (46#6 ++ 2#2 ++ r ++ i ++ 0#7))
  | .regqSet d a => some (mkWord (47#6 ++ d ++ a ++ 0#12))
  | .regqXfer d a b => some (mkWord (47#6 ++ d ++ a ++ b ++ 1#4))
  | .regqGet d => some (mkWord (47#6 ++ d ++ 2#20))
  | .copyT a s f c m => some (mkWord (48#6 ++ a ++ s ++ f ++ c ++ m ++ 0#5))
  | .copyG a s f c m => some (mkWord (48#6 ++ a ++ s ++ f ++ c ++ m ++ 1#5))
  | .copyS a s f c m => some (mkWord (48#6 ++ a ++ s ++ f ++ c ++ m ++ 2#5))
  | .copyMc a s f c m => some (mkWord (48#6 ++ a ++ s ++ f ++ c ++ m ++ 3#5))
  | .copyWb a s f c m => some (mkWord (48#6 ++ a ++ s ++ f ++ c ++ m ++ 4#5))
  | .copyFill a s f c => some (mkWord (48#6 ++ a ++ s ++ f ++ c ++ 5#7))
  | .cresume s => some (mkWord (48#6 ++ 0#4 ++ s ++ 6#14))
  | .ccancel s => some (mkWord (48#6 ++ 0#4 ++ s ++ 7#14))
  | .tbarInit t x a k => some (mkWord (49#6 ++ t ++ x ++ a ++ 0#3 ++ k))
  | .tbarArrive t x a k => some (mkWord (49#6 ++ t ++ x ++ a ++ 1#3 ++ k))
  | .tbarExpect t x a k => some (mkWord (49#6 ++ t ++ x ++ a ++ 2#3 ++ k))
  | .tbarWait t x a k => some (mkWord (49#6 ++ t ++ x ++ a ++ 3#3 ++ k))
  | .tbarTest t x a k => some (mkWord (49#6 ++ t ++ x ++ a ++ 4#3 ++ k))
  | .mdesc c s => some (mkWord (50#6 ++ 0#4 ++ c ++ s ++ 0#12))
  | .mma s => some (mkWord (50#6 ++ 64#10 ++ s ++ 0#12))
  | .accrd c => some (mkWord (50#6 ++ 2#4 ++ c ++ 0#16))
  | .accwr c => some (mkWord (50#6 ++ 3#4 ++ c ++ 0#16))
  | .accscl c => some (mkWord (50#6 ++ 4#4 ++ c ++ 0#16))
  | .accz c => some (mkWord (50#6 ++ 5#4 ++ c ++ 0#16))
  | .wbinv a m => some (mkWord (50#6 ++ 6144#14 ++ a ++ m))
  | .mstat c s => some (mkWord (50#6 ++ 7#4 ++ c ++ 0#8 ++ s))
  | .collAr a s c => some (mkWord (51#6 ++ a ++ s ++ 0#4 ++ c ++ 0#7))
  | .collRs a s c => some (mkWord (51#6 ++ a ++ s ++ 0#4 ++ c ++ 1#7))
  | .collAg a s c => some (mkWord (51#6 ++ a ++ s ++ 0#4 ++ c ++ 2#7))
  | .collBc a s c => some (mkWord (51#6 ++ a ++ s ++ 0#4 ++ c ++ 3#7))
  | .tbld d a b => some (mkWord (52#6 ++ d ++ a ++ b ++ 0#4))
  | .tbinv d a b => some (mkWord (52#6 ++ d ++ a ++ b ++ 1#4))
  | .tbq d a b => some (mkWord (52#6 ++ d ++ a ++ b ++ 2#4))
  | .tagq d a b => some (mkWord (52#6 ++ d ++ a ++ b ++ 3#4))
  | .fresume d a b => some (mkWord (52#6 ++ d ++ a ++ b ++ 4#4))
  | .rack d a b => some (mkWord (52#6 ++ d ++ a ++ b ++ 5#4))
  | .relinq d a b => some (mkWord (52#6 ++ d ++ a ++ b ++ 6#4))
  | .lossrd d a b => some (mkWord (52#6 ++ d ++ a ++ b ++ 7#4))
  | .cntrdLo d i => some (mkWord (53#6 ++ d ++ i ++ 0#11))
  | .cntrdHi d i => some (mkWord (53#6 ++ d ++ i ++ 1#11))
  | .cntrd d i => some (mkWord (53#6 ++ d ++ 0#1 ++ i ++ 2#11))
  | .cntsel i a => some (mkWord (53#6 ++ 0#7 ++ i ++ a ++ 3#3))
  | .cntz i => some (mkWord (53#6 ++ 0#7 ++ i ++ 4#11))
  | .numrd d i a => some (mkWord (53#6 ++ d ++ 0#1 ++ i ++ a ++ 5#3))
  | .dbpset d a b => some (mkWord (54#6 ++ d ++ a ++ b ++ 0#4))
  | .dbpclr d a => some (mkWord (54#6 ++ d ++ a ++ 1#12))
  | .dhalt d a => some (mkWord (54#6 ++ d ++ a ++ 2#12))
  | .dstep d a b => some (mkWord (54#6 ++ d ++ a ++ b ++ 3#4))
  | .dresume d a b => some (mkWord (54#6 ++ d ++ a ++ b ++ 4#4))
  | .dwset d a b => some (mkWord (54#6 ++ d ++ a ++ b ++ 5#4))
  | .dstat d a => some (mkWord (54#6 ++ d ++ a ++ 6#12))
  | .trace d a b => some (mkWord (54#6 ++ d ++ a ++ b ++ 7#4))
  | .dpcrd d a b => some (mkWord (54#6 ++ d ++ a ++ b ++ 8#4))
  | .lnchPool a s => some (mkWord (55#6 ++ a ++ s ++ 0#14))
  | .lnchGo a s => some (mkWord (55#6 ++ a ++ s ++ 1#14))
  | .cfgr d a => some (mkWord (56#6 ++ d ++ a ++ 0#12))
  | .cfgw d a b => some (mkWord (56#6 ++ d ++ a ++ b ++ 1#4))
  | .hintImms i => some (mkWord (63#6 ++ 0#4 ++ i))
  | .hintImmh i => some (mkWord (63#6 ++ 64#10 ++ i))
  | .hintImml i => some (mkWord (63#6 ++ 128#10 ++ i))
  | .hintPred n p => some (mkWord (63#6 ++ 786432#22 ++ n ++ p))
  | .hintMem n k r q c => some (mkWord (63#6 ++ 65536#18 ++ n ++ k ++ r ++ q ++ c))
  | .hintRnd s f r => some (mkWord (63#6 ++ 1310720#22 ++ s ++ f ++ r))
  | .hintDisp d => some (mkWord (63#6 ++ 6#4 ++ d))
  | .hintDead b m => some (mkWord (63#6 ++ 7#4 ++ b ++ m))
  | .hintSchedFill n => some (mkWord (63#6 ++ 8192#14 ++ n))
  | .hintSchedAge n => some (mkWord (63#6 ++ 528#10 ++ n))
  | .runSelect .. => none
  | .sleepExpiry .. => none
  | .loadComplete .. => none
  | .storeComplete .. => none
  | .atomicPerform .. => none
  | .monitorWake .. => none
  | .monitorPoll .. => none
  | .barrierArrival .. => none
  | .twinSignatureExchange .. => none
  | .guardRollback .. => none
  | .copyComplete .. => none
  | .followOnEnqueue .. => none
  | .copySuspend .. => none
  | .bankInboundWrite .. => none
  | .segmentGrant .. => none
  | .segmentEnd .. => none
  | .matrixOpComplete .. => none
  | .workgroupRetire .. => none
  | .faultRecordWrite .. => none
  | .debugRecordWrite .. => none
  | .workgroupSettled .. => none
  | .queueMap .. => none
  | .queueUnmap .. => none
  | .commandTake .. => none
  | .launch .. => none
  | .launchPool .. => none
  | .copyq .. => none
  | .signalq .. => none
  | .waitq .. => none
  | .waitqComplete .. => none
  | .launchComplete .. => none
  | .bucketTick .. => none
  | .gangPlace .. => none
  | .workSteal .. => none
  | .placementReservation .. => none
  | .calendarWrap .. => none
  | .runPortRound .. => none
  | .preempt .. => none
  | .preemptSave .. => none
  | .timeSliceBoundary .. => none
  | .watchdogExpiry .. => none
  | .grant .. => none
  | .revoke .. => none
  | .create .. => none
  | .bind .. => none
  | .recallUnits .. => none
  | .recallPost .. => none
  | .seize .. => none
  | .destroy .. => none
  | .exportEntry .. => none
  | .unexportEntry .. => none
  | .recallDeadline .. => none
  | .runtimeWavePlace .. => none
  | .remoteRequest .. => none
  | .remoteRefusal .. => none
  | .lateAnswer .. => none
  | .worldLatchChange .. => none
  | .worldActivate .. => none
  | .worldRevoke .. => none
  | .handoverPrepare .. => none
  | .handoverCommit .. => none
  | .imageAccept .. => none
  | .quoteRequest .. => none
  | .lockctlWrite .. => none
  | .calWrite .. => none
  | .mcdropClear .. => none
  | .freeze .. => none
  | .thaw .. => none
  | .pcSample .. => none
  | .deadlockScan .. => none
  | .clockControlTick .. => none
  | .overtempReset .. => none
  | .islandSupplyGood .. => none
  | .islandSupplyLoss .. => none
  | .islandReset .. => none
  | .dieJoin .. => none
  | .heartbeatTimeout .. => none
  | .dieWarmReset .. => none
  | .detachComplete .. => none
  | .linkPacket .. => none
  | .flowStop .. => none
  | .flowGo .. => none
  | .routeLossTimeout .. => none
  | .podidRegister .. => none
  | .podJoinTimeout .. => none
  | .collContribution .. => none
  | .collectiveComplete .. => none
  | .sessionClose .. => none
  | .coldReset .. => none
  | .unclaimedEncoding .. => none
  | .linkDown .. => none
  | .softError .. => none
  | .queueCreate .. => none
  | .qcbShadowWrite .. => none
  | .apertureWindowBind .. => none
  | .apertureWindowUnbind .. => none
  | .sessionOpen .. => none
  | .coreCycle .. => none

end Sys2Proof
end

