-- ==== Sys2Proof/Config.lean ====
section
/-! DEFINITION. What one implementation fixes, and the free values: constants without a body, so that no
proof can know them. Each is named in a log entry of notes/assumptions. -/

namespace Sys2Proof.Config

/-- The device's number in its pod, `%pkg` (R126): fixed by the installation (log 6). -/
opaque devNumber : BitVec 10

/-- Which of two outcomes happens where the manual says 'which one is not promised' (R8), applied to the
state's free counter (log 4). -/
opaque freeBit : Nat → Bool

/-- A byte that another device answers (R390), applied to the state's free counter: another device's memory is
not in this state (log 8). -/
opaque freeByte : Nat → Byte

/-- The route table that CW6 programs from the pod's topology: the links on a minimal path of at most 3 hops to a
device (R387), fixed by the installation (log 6). -/
opaque route : Nat → List Nat

/-- Nanoseconds of island time beyond the first between two core cycles (R402-R404): the two clocks keep no fixed
ratio (log 4). -/
opaque tick : Nat → Nat

/-- The firmware measurement, a SHA-256 (R369, R401), and the version of the image in each flash slot (log 7). -/
opaque measurement : Nat → List Byte
opaque imageVersion : Nat → Nat

/-- The high and the low watermark of a link's receive buffers, in flits (R388; log 33). -/
opaque highMark : Nat
opaque lowMark : Nat

/-- The first 8 bytes of a SHA-256 read little-endian (R379), and the 32 bytes of one (R369): no body, so
nothing is known of a hash but that equal data have equal hashes (log 7). -/
opaque sha256Low : List Byte → DWord
opaque sha256 : List Byte → List Byte

/-- The device identity's ECDSA P-256 signature over the first 128 bytes of a quote (R369; log 7). -/
opaque sign : List Byte → List Byte

end Sys2Proof.Config
end

