-- ==== Sys2Proof/Machine/Numbers.lean ====
section
/-! DEFINITION. The number formats of R132-R138, exact values, and RoundTo (R140). Every floating-point
operation forms an exact value here and rounds it once. -/

namespace Sys2Proof.Machine

/-- A floating-point format of R133: exponent and fraction widths; `nosnan` marks the formats whose NaNs are
all quiet (R134); `e4m3` the format without infinities. -/
structure Fmt where
  eb : Nat
  fb : Nat
  nosnan : Bool
  e4m3 : Bool
deriving DecidableEq, Repr

def fp64 : Fmt := ⟨11, 52, false, false⟩
def fp32 : Fmt := ⟨8, 23, false, false⟩
def fp16 : Fmt := ⟨5, 10, false, false⟩
def bf16 : Fmt := ⟨8, 7, false, false⟩
def e5m2 : Fmt := ⟨5, 2, true, false⟩
def e4m3 : Fmt := ⟨4, 3, true, true⟩
def af36 : Fmt := ⟨8, 27, true, false⟩

def Fmt.bias (f : Fmt) : Nat := 2 ^ (f.eb - 1) - 1

/-- The canonical NaN (R133, R135). -/
def Fmt.nanBits (f : Fmt) : Nat :=
  if f.e4m3 then 2 ^ (f.eb + f.fb) - 1 else (2 ^ f.eb - 1) * 2 ^ f.fb + 2 ^ (f.fb - 1)

/-- The pattern of infinity without its sign; a format without one has none. -/
def Fmt.infBits (f : Fmt) : Nat := (2 ^ f.eb - 1) * 2 ^ f.fb

/-- The pattern of the largest finite magnitude. -/
def Fmt.maxBits (f : Fmt) : Nat := if f.e4m3 then f.nanBits - 1 else f.infBits - 1

def Fmt.signBit (f : Fmt) (neg : Bool) : Nat := if neg then 2 ^ (f.eb + f.fb) else 0

/-- An exact value: a NaN (signalling or not), a signed infinity, or (-1)^neg × x × 2^e where x is `mag`,
or lies strictly between `mag` and `mag + 1` when `more` holds (an irrational or periodic result cut far
below every rounding position). -/
inductive Exact where
  | nan (signalling : Bool)
  | inf (neg : Bool)
  | fin (neg : Bool) (mag : Nat) (e : Int) (more : Bool)
deriving DecidableEq, Repr

def Exact.zero (neg : Bool) : Exact := .fin neg 0 0 false

/-- The value of a bit pattern (R133, R134). -/
def Fmt.value (f : Fmt) (b : Nat) : Exact :=
  let neg := b / 2 ^ (f.eb + f.fb) % 2 = 1
  let ex := b / 2 ^ f.fb % 2 ^ f.eb
  let fr := b % 2 ^ f.fb
  if f.e4m3 ∧ ex = 2 ^ f.eb - 1 ∧ fr = 2 ^ f.fb - 1 then .nan false
  else if ¬ f.e4m3 ∧ ex = 2 ^ f.eb - 1 then
    if fr = 0 then .inf neg else .nan (!f.nosnan && fr < 2 ^ (f.fb - 1))
  else if ex = 0 then .fin neg fr (1 - f.bias - f.fb : Int) false
  else .fin neg (2 ^ f.fb + fr) ((ex : Int) - f.bias - f.fb) false

/-- Whether a pattern is subnormal: exponent field zero, fraction not (R133). -/
def Fmt.subnormal (f : Fmt) (b : Nat) : Bool := b / 2 ^ f.fb % 2 ^ f.eb = 0 && b % 2 ^ f.fb ≠ 0

/-- The value of an operand under flush-to-zero (R141). -/
def Fmt.read (f : Fmt) (ftz : Bool) (b : Nat) : Exact :=
  if ftz && f.subnormal b then .zero (b / 2 ^ (f.eb + f.fb) % 2 = 1) else f.value b

def Exact.isNan : Exact → Bool
  | .nan _ => true
  | _ => false

/-- A signalling NaN raises NV where it is read (R134). -/
def Exact.snan : Exact → Bool
  | .nan s => s
  | _ => false

def Exact.isInf : Exact → Bool
  | .inf _ => true
  | _ => false

def Exact.isZero : Exact → Bool
  | .fin _ 0 _ false => true
  | _ => false

def Exact.neg? : Exact → Bool
  | .nan _ => false
  | .inf s => s
  | .fin s _ _ _ => s

def Exact.negate : Exact → Exact
  | .nan q => .nan q
  | .inf s => .inf !s
  | .fin s m e t => .fin (!s) m e t

def Exact.ofInt (i : Int) : Exact := .fin (i < 0) i.natAbs 0 false

/-- Rounding codes of R139. -/
inductive Rnd where
  | rne | rz | rd | ru
deriving DecidableEq, Repr

def Rnd.ofBits (b : Nat) : Rnd :=
  match b % 4 with
  | 0 => .rne
  | 1 => .rz
  | 2 => .rd
  | _ => .ru

/-- Flags in the bit order of R127. -/
structure Flags where
  nv : Bool
  dz : Bool
  of : Bool
  uf : Bool
  nx : Bool
deriving DecidableEq, Repr

def Flags.none : Flags := ⟨false, false, false, false, false⟩
def Flags.invalid : Flags := ⟨true, false, false, false, false⟩
def Flags.divZero : Flags := ⟨false, true, false, false, false⟩

def Flags.union (a b : Flags) : Flags :=
  ⟨a.nv || b.nv, a.dz || b.dz, a.of || b.of, a.uf || b.uf, a.nx || b.nx⟩

def Flags.bits (a : Flags) : BitVec 5 :=
  BitVec.ofBool a.nx ++ BitVec.ofBool a.uf ++ BitVec.ofBool a.of ++ BitVec.ofBool a.dz ++ BitVec.ofBool a.nv

/-- The numeric events of R148. -/
inductive NumEvent where
  | sat | flush | nan | ovf
deriving DecidableEq, Repr

def NumEvent.index : NumEvent → Nat
  | .sat => 0
  | .flush => 1
  | .nan => 2
  | .ovf => 3

/-- What rounding delivers: the pattern, the flags, the event (R140). -/
structure Rounded where
  bits : Nat
  flags : Flags
  event : Option NumEvent
deriving DecidableEq, Repr

/-- Number of bits of a natural number. -/
def bitLength (n : Nat) : Nat := if n = 0 then 0 else n.log2 + 1

/-- mag × 2^e (or a little above, when `more`) rounded by mode to a multiple of 2^q: the multiple, and
whether the value was not one. -/
def roundAt (mode : Rnd) (neg : Bool) (mag : Nat) (e : Int) (more : Bool) (q : Int) : Nat × Bool :=
  if q ≤ e then (mag * 2 ^ (e - q).toNat, more)
  else
    let k := (q - e).toNat
    let n := mag / 2 ^ k
    let r := mag % 2 ^ k
    let half := 2 ^ (k - 1)
    let inexact := r ≠ 0 || more
    let up := match mode with
      | .rne => decide (r > half) || (decide (r = half) && (more || n % 2 = 1))
      | .rz => false
      | .rd => neg && inexact
      | .ru => !neg && inexact
    (if up then n + 1 else n, inexact)

/-- Whether a mode delivers the largest finite value on overflow (R140). -/
def Rnd.overflowsToMax (mode : Rnd) (neg : Bool) : Bool :=
  match mode with
  | .rne => false
  | .rz => true
  | .rd => !neg
  | .ru => neg

/-- A nonzero finite value brought to a format (R140, from 'y := x rounded'). -/
def Fmt.roundFinite (f : Fmt) (mode : Rnd) (ftz sat : Bool) (neg : Bool) (mag : Nat) (e : Int)
    (more : Bool) : Rounded :=
  let p : Int := f.fb + 1
  let emin : Int := 1 - f.bias
  let top : Int := bitLength mag - 1 + e
  let y := (roundAt mode neg mag e more (top - (p - 1))).1
  let ytop : Int := if y = 2 ^ (f.fb + 1) then top + 1 else top
  let emax : Int := if f.e4m3 then f.bias + 1 else f.bias
  let overflow := decide (ytop > emax) ||
    (f.e4m3 && decide (ytop = emax) && decide (y = 2 ^ (f.fb + 1) - 1))
  let s := f.signBit neg
  if overflow then
    let fl : Flags := ⟨false, false, true, false, true⟩
    if f.e4m3 || sat then ⟨s + f.maxBits, fl, some .sat⟩
    else if mode.overflowsToMax neg then ⟨s + f.maxBits, fl, none⟩
    else ⟨s + f.infBits, fl, some .ovf⟩
  else
    let tiny := decide (ytop < emin)
    if tiny && ftz then ⟨s, ⟨false, false, false, true, true⟩, some .flush⟩
    else
      let q := max (top - (p - 1)) (emin - (p - 1))
      let r := roundAt mode neg mag e more q
      -- r.1 × 2^q, r.1 ≤ 2^p: the fields fall out of adding the significand to the exponent field
      let ef : Nat := (q - (emin - (p - 1))).toNat
      ⟨s + ef * 2 ^ f.fb + r.1, ⟨false, false, false, tiny && r.2, r.2⟩,
        if r.1 = 0 then some .flush else none⟩

/-- RoundTo for a floating-point format (R140). `ftz` is the caller's setting where it applies (R141). -/
def Fmt.roundTo (f : Fmt) (mode : Rnd) (ftz sat : Bool) : Exact → Rounded
  | .nan _ => ⟨f.nanBits, .none, none⟩
  | .inf s =>
    if f.e4m3 then ⟨f.signBit s + f.maxBits, ⟨false, false, true, false, true⟩, some .sat⟩
    else if sat then ⟨f.signBit s + f.maxBits, .none, some .sat⟩
    else ⟨f.signBit s + f.infBits, .none, none⟩
  | .fin s m e t => if m = 0 ∧ ¬ t then ⟨f.signBit s, .none, none⟩ else f.roundFinite mode ftz sat s m e t

/-- RoundTo for the integer range [lo, hi] (R140, R171). -/
def roundInt (lo hi : Int) (mode : Rnd) : Exact → Int × Flags × Option NumEvent
  | .nan _ => (0, .invalid, some .sat)
  | .inf s => (if s then lo else hi, .invalid, some .sat)
  | .fin s m e t =>
    let r := roundAt mode s m e t 0
    let v : Int := if s then -r.1 else r.1
    if v < lo then (lo, .invalid, some .sat)
    else if hi < v then (hi, .invalid, some .sat)
    else (v, ⟨false, false, false, false, r.2⟩, if v = 0 ∧ (m ≠ 0 ∨ t) then some .flush else none)

/-- The product of two values; an infinity times a zero is invalid (R155). -/
def Exact.mul : Exact → Exact → Exact × Flags
  | .nan a, b => (.nan false, if a || b.snan then .invalid else .none)
  | _, .nan b => (.nan false, if b then .invalid else .none)
  | .inf s, .inf t => (.inf (s != t), .none)
  | .inf s, .fin t m _ _ => if m = 0 then (.nan false, .invalid) else (.inf (s != t), .none)
  | .fin s m _ _, .inf t => if m = 0 then (.nan false, .invalid) else (.inf (s != t), .none)
  | .fin s m e _, .fin t n d _ => (.fin (s != t) (m * n) (e + d) false, .none)

/-- A finite term as an integer multiple of 2^q, for q at or below its exponent. -/
def Exact.scaled (q : Int) : Exact → Int
  | .fin s m e _ => let v : Int := m * 2 ^ (e - q).toNat; if s then -v else v
  | _ => 0

def Exact.expo : Exact → Int
  | .fin _ _ e _ => e
  | _ => 0

def minExpo : List Exact → Int
  | [] => 0
  | [x] => x.expo
  | x :: xs => min x.expo (minExpo xs)

/-- The exact sum of the finite terms, without its zero sign. -/
def sumFinite (ts : List Exact) : Int × Int :=
  let q := minExpo ts
  (ts.foldl (fun a t => a + t.scaled q) 0, q)

/-- The exact sum of several terms with the rules of R155: a NaN term gives NaN, infinities of both signs
are invalid, an exact zero takes its sign from the terms and the mode. Where a NaN term stands beside infinities of both signs the NaN
comes first, and nothing is invalid (log 106). -/
def sumTerms (mode : Rnd) (ts : List Exact) : Exact × Flags :=
  let nv : Flags := if ts.any Exact.snan then .invalid else .none
  if ts.any Exact.isNan then (.nan false, nv)
  else if ts.any (fun t => t.isInf && t.neg?) && ts.any (fun t => t.isInf && !t.neg?) then (.nan false, .invalid)
  else if ts.any Exact.isInf then (.inf (ts.any (fun t => t.isInf && t.neg?)), .none)
  else
    let (v, q) := sumFinite ts
    if v ≠ 0 then (.fin (v < 0) v.natAbs q false, .none)
    else if ts.all (fun t => t.isZero && !t.neg?) then (.zero false, .none)
    else if ts.all (fun t => t.isZero && t.neg?) then (.zero true, .none)
    else (.zero (mode = .rd), .none)

/-- Comparison of two values that are not NaN: -1, 0 or 1; the two zeros are equal. -/
def Exact.cmp (a b : Exact) : Int :=
  match a, b with
  | .inf s, .inf t => if s = t then 0 else if s then -1 else 1
  | .inf s, _ => if s then -1 else 1
  | _, .inf t => if t then 1 else -1
  | a, b =>
    let q := min a.expo b.expo
    let d := a.scaled q - b.scaled q
    if d < 0 then -1 else if d = 0 then 0 else 1

/-- Whether `a` stands at or below `b` in the order of R157, where -0 lies below +0. -/
def Exact.atMost (a b : Exact) : Bool :=
  let c := a.cmp b
  decide (c < 0) || (decide (c = 0) && (a.neg? || !b.neg?))

/-- The integer square root by Newton's steps from above; `fuel` steps suffice for 2^fuel bits. -/
def sqrtNewton (n : Nat) : Nat → Nat → Nat
  | 0, x => x
  | fuel + 1, x => let y := (x + n / x) / 2; if y < x then sqrtNewton n fuel y else x

/-- ⌊√n⌋ for n below 2^4096. -/
def isqrt (n : Nat) : Nat :=
  if n = 0 then 0 else sqrtNewton n 24 (2 ^ ((n.log2 + 2) / 2))

/-- Bits kept below the leading bit of a quotient, root or series: far more than any rounding looks at. -/
def workBits : Nat := 352

/-- a / b for finite b ≠ 0 and finite a. -/
def Exact.divFin (s : Bool) (m : Nat) (e : Int) (t : Bool) (n : Nat) (d : Int) : Exact :=
  let k := workBits + bitLength n
  let x := m * 2 ^ k
  .fin (s != t) (x / n) (e - d - k) (x % n ≠ 0)

/-- Division with the special operands of R162. -/
def Exact.div : Exact → Exact → Exact × Flags
  | .nan a, b => (.nan false, if a || b.snan then .invalid else .none)
  | _, .nan b => (.nan false, if b then .invalid else .none)
  | .inf _, .inf _ => (.nan false, .invalid)
  | .inf s, .fin t _ _ _ => (.inf (s != t), .none)
  | .fin s _ _ _, .inf t => (.zero (s != t), .none)
  | .fin s m e _, .fin t n d _ =>
    if n = 0 then if m = 0 then (.nan false, .invalid) else (.inf (s != t), .divZero)
    else if m = 0 then (.zero (s != t), .none)
    else (Exact.divFin s m e t n d, .none)

/-- The root of m × 2^e, m ≠ 0. -/
def sqrtFin (m : Nat) (e : Int) : Exact :=
  let k : Nat := if (e - workBits) % 2 = 0 then 2 * workBits else 2 * workBits + 1
  let k : Nat := if (e - k) % 2 = 0 then k else k + 1
  let x := m * 2 ^ k
  let r := isqrt x
  .fin false r ((e - k) / 2) (r * r ≠ x)

/-- Square root (R160). -/
def Exact.sqrt : Exact → Exact × Flags
  | .nan a => (.nan false, if a then .invalid else .none)
  | .inf s => if s then (.nan false, .invalid) else (.inf false, .none)
  | .fin s m e _ =>
    if m = 0 then (.zero s, .none) else if s then (.nan false, .invalid) else (sqrtFin m e, .none)

/-- Reciprocal (R160). -/
def Exact.rcp : Exact → Exact × Flags
  | .nan a => (.nan false, if a then .invalid else .none)
  | .inf s => (.zero s, .none)
  | .fin s m e _ =>
    if m = 0 then (.inf s, .divZero) else (Exact.divFin false 1 0 s m e, .none)

/-- 1/√(m × 2^e): the root of the reciprocal, taken as √(2^k / m) with k chosen so that the power is even. -/
def rsqFin (m : Nat) (e : Int) : Exact :=
  let k : Nat := 2 * workBits + bitLength m
  let k : Nat := if (e + k) % 2 = 0 then k else k + 1
  let x := 2 ^ k / m
  let r := isqrt x
  .fin false r (-(e + k) / 2) (r * r * m ≠ 2 ^ k)

/-- Reciprocal square root (R160). -/
def Exact.rsq : Exact → Exact × Flags
  | .nan a => (.nan false, if a then .invalid else .none)
  | .inf s => if s then (.nan false, .invalid) else (.zero false, .none)
  | .fin s m e _ =>
    if m = 0 then (.inf s, .divZero) else if s then (.nan false, .invalid) else (rsqFin m e, .none)

/-- 2^(0.b₁b₂…b_k) in units of 2^-workBits, the bits of `f` from the lowest up: each step is a root. -/
def exp2Frac (f : Nat) : Nat → Nat → Nat
  | 0, r => r
  | k + 1, r => exp2Frac (f / 2) k (isqrt (r * 2 ^ workBits * (if f % 2 = 1 then 2 else 1)))

/-- 2^x (R160, R161). -/
def Exact.exp2 : Exact → Exact × Flags
  | .nan a => (.nan false, if a then .invalid else .none)
  | .inf s => if s then (.zero false, .none) else (.inf false, .none)
  | .fin s m e _ =>
    -- beyond ±2^10 the result lies past every limit of FP32, whatever the fraction
    if 0 ≤ e ∨ m % 2 ^ (-e).toNat = 0 then
      let n : Int := if 0 ≤ e then m * 2 ^ (min e 64).toNat else m / 2 ^ (-e).toNat
      let n := min n 1024
      (.fin false 1 (if s then -n else n) false, .none)
    else
      let k := (-e).toNat
      let whole : Int := min (m / 2 ^ k) 1024
      let fr := m % 2 ^ k
      let (n, f) : Int × Nat := if s then (-whole - 1, 2 ^ k - fr) else (whole, fr)
      (.fin false (exp2Frac f k (2 ^ workBits) / 2 ^ 32) (n - (workBits - 32 : Nat)) true, .none)

/-- The bits of log2 of x / 2^p, x / 2^p in [1, 2), by repeated squaring. -/
def log2Frac (p : Nat) : Nat → Nat → Nat → Nat
  | 0, _, a => a
  | k + 1, x, a =>
    let y := x * x / 2 ^ p
    if y < 2 ^ (p + 1) then log2Frac p k y (2 * a) else log2Frac p k (y / 2) (2 * a + 1)

/-- log2 x (R160, R161). -/
def Exact.log2 : Exact → Exact × Flags
  | .nan a => (.nan false, if a then .invalid else .none)
  | .inf s => if s then (.nan false, .invalid) else (.inf false, .none)
  | .fin s m e _ =>
    if m = 0 then (.inf true, .divZero)
    else if s then (.nan false, .invalid)
    else
      let n : Int := m.log2 + e
      if m = 2 ^ m.log2 then (.fin (n < 0) n.natAbs 0 false, .none)
      else
        let x := m * 2 ^ (workBits - m.log2)
        let f := log2Frac workBits 128 x 0
        let v : Int := n * 2 ^ 128 + f
        -- the value lies strictly between v and v + 1 units
        if 0 ≤ v then (.fin false v.toNat (-128) true, .none)
        else (.fin true (-v - 1).toNat (-128) true, .none)

/-- atan(1/n) in units of 2^-workBits, `fuel` terms: `t` is 1/n^(2k+1). -/
def atanInv (n : Nat) : Nat → Nat → Nat → Int
  | 0, _, _ => 0
  | fuel + 1, k, t => ((t / (2 * k + 1) : Nat) : Int) - atanInv n fuel (k + 1) (t / (n * n))

/-- π in units of 2^-workBits. -/
def piFixed : Nat :=
  (16 * atanInv 5 90 0 (2 ^ workBits / 5) - 4 * atanInv 239 30 0 (2 ^ workBits / 239)).toNat

/-- The alternating series Σ (-1)^k x^(2k+d) / (2k+d)! in units of 2^-workBits, `t` the current term. -/
def sinSeries (x2 : Nat) : Nat → Nat → Nat → Int
  | 0, _, _ => 0
  | fuel + 1, j, t =>
    (t : Int) - sinSeries x2 fuel (j + 2) (t * x2 / 2 ^ workBits / ((j + 1) * (j + 2)))

/-- sin(π f / 2^k) for 0 < f / 2^k < 1/2, cut to below every rounding position. -/
def sinPiFixed (f k : Nat) : Nat :=
  let q := piFixed
  -- above 1/4 the cosine of the complement converges as fast
  if 4 * f ≤ 2 ^ k then
    let x := q * f / 2 ^ k
    (sinSeries (x * x / 2 ^ workBits) 48 1 x).toNat
  else
    let x := q * (2 ^ k / 2 - f) / 2 ^ k
    (sinSeries (x * x / 2 ^ workBits) 48 0 (2 ^ workBits)).toNat

/-- sin(π x) for 0 ≤ x = f / 2^k < 2, exact multiples of 1/2 included; k ≥ 1. -/
def sinPi (f k : Nat) : Exact :=
  let one := 2 ^ k
  let (s, f) : Bool × Nat := if one ≤ f then (true, f - one) else (false, f)
  let f := if one < 2 * f then one - f else f
  if f = 0 then .zero false
  else if 2 * f = one then .fin s 1 0 false
  else .fin s (sinPiFixed f k / 2 ^ 16) (-((workBits - 16 : Nat) : Int)) true

/-- |x| mod 2 as f / 2^k with k ≥ 1. -/
def modTwo (m : Nat) (e : Int) : Nat × Nat :=
  if 0 ≤ e then ((m * 2 ^ (min e 2).toNat % 2) * 2, 1)
  else
    let k := (-e).toNat
    (m % 2 ^ (k + 1), k)

/-- sin(πx) (R160, R161): odd in x, and an integer gives the zero of its sign. -/
def Exact.sinpi : Exact → Exact × Flags
  | .nan a => (.nan false, if a then .invalid else .none)
  | .inf _ => (.nan false, .invalid)
  | .fin s m e _ =>
    let (f, k) := modTwo m e
    match sinPi f k with
    | .fin t n d o => (if n = 0 ∧ ¬ o then .zero s else .fin (s != t) n d o, .none)
    | x => (x, .none)

/-- cos(πx) = sin(π(x + 1/2)), even in x; n + 1/2 gives +0 (R160, R161). -/
def Exact.cospi : Exact → Exact × Flags
  | .nan a => (.nan false, if a then .invalid else .none)
  | .inf _ => (.nan false, .invalid)
  | .fin _ m e _ =>
    let (f, k) := modTwo m e
    let f2 := (2 * f + 2 ^ k) % 2 ^ (k + 2)
    (sinPi f2 (k + 1), .none)

/-- x rounded to an integral value by mode, keeping its sign and raising nothing (R159, R161). -/
def Exact.rint (mode : Rnd) : Exact → Exact × Flags
  | .nan a => (.nan false, if a then .invalid else .none)
  | .inf s => (.inf s, .none)
  | .fin s m e t => if 0 ≤ e then (.fin s m e t, .none) else (.fin s (roundAt mode s m e t 0).1 0 false, .none)

/-- x × 2^n (R162). -/
def Exact.scaleBy (n : Int) : Exact → Exact × Flags
  | .nan a => (.nan false, if a then .invalid else .none)
  | .inf s => (.inf s, .none)
  | .fin s m e t => (.fin s m (if m = 0 then 0 else e + n) t, .none)

end Sys2Proof.Machine
end

