-- ==== Sys2Proof/Machine/State.lean ====
section
/-! DEFINITION. The state of the device as plain data, the state after reset, and the reasons a step can
stop. Everything the manual names is a field of some record here; INVENTORY.md lists it with its rule. -/

namespace Sys2Proof.Machine

/-- A sparse table: keys strictly rising, no entry equal to the table's default. -/
abbrev Table (α : Type) := List (Nat × α)

/-- The tag of a poisoned datum (R373): unit class [11:8], error record number [7:0]. -/
abbrev Poison := Option (BitVec 12)

/-- A 32-bit register with its poison (R373). -/
structure Reg where
  val : Word
  poison : Poison
deriving DecidableEq, Repr

/-- A 64-bit address register with its poison. -/
structure AddrReg where
  val : DWord
  poison : Poison
deriving DecidableEq, Repr

/-- A predicate with its poison. -/
structure Pred where
  val : Bool
  poison : Poison
deriving DecidableEq, Repr

/-- The pending hint state of a thread, one value per kind (R71, R72). -/
structure Hints where
  lit : Word
  litSet : Bool
  pred : Option (BitVec 3 × Bool)
  mem : Option (BitVec 8)
  rnd : Option (BitVec 4)
  disp : Option (BitVec 22)
  dead : Option (BitVec 6 × BitVec 16)
  sched : Option (Bool × BitVec 16)
deriving DecidableEq, Repr

/-- No hint pending; the literal starts from zero (R73). -/
def Hints.none : Hints := ⟨0, false, .none, .none, .none, .none, .none, .none⟩

/-- The outstanding-operation counters (R89) with the colour counts of stores and copies. -/
structure Counters where
  loads : Nat
  stores : Nat
  copies : Nat
  matrix : Nat
  colls : Nat
  storeCol : List Nat
  copyCol : List Nat
deriving DecidableEq, Repr

def Counters.zero : Counters := ⟨0, 0, 0, 0, 0, List.replicate 8 0, List.replicate 8 0⟩

/-- The three kinds of `BAR` (R187). -/
inductive BarKind where
  | sync | arrive | wait
deriving DecidableEq, Repr

/-- What a waiting thread waits for (R33). `barrier` holds the scope, id and kind, whether its arrival is
still to be counted, and the phase it waits on; `monitor` the value at the first write that met its condition
(R235). -/
inductive WaitOn where
  | ready
  | counters (nl ns nc nm nx : Nat) (uni acq : Bool)
  | barrier (scope id : Nat) (kind : BarKind) (arriving : Bool) (phase : Nat)
  | tbar (addr : Nat) (old : Bool)
  | monitor (addr : Nat) (cond : Nat) (x : DWord) (seen : Option DWord)
  | sleep (till : Nat)
deriving DecidableEq, Repr

/-- The wait reason code of R33. -/
def WaitOn.code : WaitOn → Nat
  | .ready => 0
  | .counters .. => 1
  | .barrier .. => 2
  | .tbar .. => 3
  | .monitor .. => 4
  | .sleep .. => 5

/-- The classes of R337 that hold a thread. -/
inductive HoldClass where
  | runtime | debug
deriving DecidableEq, Repr

/-- Where a thread is (R32). A key is a word offset from the code base (R34). -/
inductive Place where
  | running
  | waiting (key : Nat) (on : WaitOn)
  | held (cls : HoldClass)
  | exited
deriving DecidableEq, Repr

/-- A result in the forwarding window (R108): the first register it writes and its words. -/
structure WinEntry where
  reg : Nat
  vals : List Reg
deriving DecidableEq, Repr

/-- A thread's acquire or release that has not finished: nothing later of the thread issues (R225, R226). -/
inductive Block where
  | none
  | acquire (flight : Nat)
deriving DecidableEq, Repr

/-- One thread (R29, R102, R126). `resume` says that the saved hints are reinstated when its block ends, for
the word it returns to (R79); `owes` that it waits to make an entry in a full strict log (R357). -/
structure Thread where
  tid : Nat
  place : Place
  spilled : Bool
  bank : List Reg
  win : List WinEntry
  dead : List (Nat × Reg)
  pending : List Nat
  preds : List Pred
  fpc : Word
  fcause : Word
  finfo : Word
  fmask : Word
  faddr : DWord
  fflags : BitVec 5
  fen : BitVec 5
  mode : BitVec 10
  clkh : Word
  inTrap : Bool
  hints : Hints
  saved : Option Hints
  resume : Bool
  cnt : Counters
  shadowId : Nat
  shadowWord : Word
  suppress : Bool
  block : Block
  owes : Bool
deriving DecidableEq, Repr

/-- RUNNING, SETTLING, SETTLED (R346). -/
inductive DebugState where
  | running | settling | settled
deriving DecidableEq, Repr

/-- How a workgroup ended, for its exit record (R352): end code, cause, live threads and where each stood,
and the faulting thread's %fpc and %finfo. -/
structure ExitInfo where
  ended : Nat
  cause : Nat
  fpc : Word
  finfo : Word
  pcs : List Nat
deriving DecidableEq, Repr

inductive WgStatus where
  | resident
  | preempted
  | rollingBack
  | finished (x : ExitInfo) (retired : Bool)
deriving DecidableEq, Repr

/-- A held sector of guarded execution (R377): physical sector address, the virtual address it was stored through, 32 bytes, the
byte mask, the poison of each byte. -/
structure HeldSector where
  addr : Nat
  va : DWord
  data : List Byte
  mask : BitVec 32
  poison : List Poison
deriving DecidableEq, Repr

/-- A barrier: scope, which group of that scope, id (R186), its phase number and the threads that have arrived. -/
structure Barrier where
  scope : Nat
  inst : Nat
  id : Nat
  phase : Nat
  arrived : List (Nat × Nat)
deriving DecidableEq, Repr

/-- The shadow of a guarded workgroup (R377): what a rollback restores. `barriers` are those it takes part in, as they stood just after
the boundary. -/
structure Shadow where
  threads : List Thread
  quota : Nat
  commons : List Reg
  addrs : List AddrReg
  tvec : Word
  common : Counters
  scratch : List (Nat × Byte)
  banks : List (Nat × Byte)
  poison : List (Nat × BitVec 12)
  barriers : List Barrier
deriving DecidableEq, Repr

/-- An eyelet entry (R37) of a core. -/
structure Entry where
  core : Nat
  key : Nat
  slot : Nat
  chunk : Nat
  passes : Nat
  age : Nat
  fill : Nat
  ageLimit : Nat
  mask : BitVec 256
deriving DecidableEq, Repr

/-- A workgroup (R29, R102, R104, R173). `uid` names it in this model; `inbox` holds the old values of the
primary's atomics that a twin has yet to take (R379), by `%tid` and word offset; `agreed` says that its last signature has matched its
twin's; `issuing` says that a run
port has issued for it in this core cycle (R351); `savedEntries` are the eyelet entries of a pre-empted one, and after its restore those
that have not found room (R57); `away` says that it was ended while it was pre-empted. -/
structure Wg where
  uid : Nat
  launch : Nat
  gang : Nat
  rank : Nat
  num : Nat
  core : Nat
  slot : Nat
  base : Nat
  nthr : Nat
  quota : Nat
  budget : Nat
  commons : List Reg
  addrs : List AddrReg
  tvec : Word
  common : Counters
  scratch : Nat
  stalls : List Nat
  dbg : DebugState
  trace : Bool
  threads : List Thread
  status : WgStatus
  held : List HeldSector
  shadow : Option Shadow
  rolled : Bool
  mismatched : Bool
  agreed : Bool
  issuing : Bool
  twin : Option Nat
  primary : Bool
  inbox : List (Nat × Nat × Nat × Poison)
  savedEntries : List Entry
  away : Bool
deriving DecidableEq, Repr

/-- A thread that has issued the block's terminator: where it goes when the run ends (R48), and the
scheduling hint of its arrival (R76). -/
structure Parking where
  tid : Nat
  place : Place
  sched : Option (Bool × BitVec 16)
deriving DecidableEq, Repr

/-- A PC comparator (R344). -/
structure Comparator where
  launch : Nat
  off : Nat
deriving DecidableEq, Repr

/-- A block run in progress on a run port (R45-R48): the groups, the block buffer, the position (word
`idx` of the block for group `grp`), the reason it last issued nothing, the threads already through the
terminator, and the comparators as its block fetch saw them (R349). -/
structure Run where
  core : Nat
  port : Nat
  wg : Nat
  key : Nat
  uniform : Bool
  groups : List (List Nat)
  words : List Word
  idx : Nat
  grp : Nat
  stall : Option Nat
  parked : List Parking
  armed : List (Option Comparator)
deriving DecidableEq, Repr

/-- A translation entry (R199, R201). Addresses are page-aligned. `leaving` says that a removal has begun and waits for
the accesses that translated through it (R210): what finds it meanwhile waits. -/
structure TEntry where
  tag : Tag
  va : Nat
  size : Nat
  r : Bool
  w : Bool
  x : Bool
  pol : Nat
  pa : Nat
  leaving : Bool
deriving DecidableEq, Repr

/-- A location an access reaches. `mem` is the flat byte space of `State.mem`; a frame byte is a byte of a
thread register of the workgroup (R105); a spill byte is a byte of the eyelet spill region (R39). -/
inductive Loc where
  | mem (a : Nat)
  | frame (off : Nat)
  | spill (off : Nat)
deriving DecidableEq, Repr

/-- What an access in flight does. -/
inductive Access where
  | load (sext : Bool)
  | store
  | atom (op : Nat)
  | red (op : Nat)
deriving DecidableEq, Repr

/-- A load, store or atomic in flight (R216-R218, R222). `tid` is none for the vamp's `CST`. `data` is the
store data or the atomic's operands; `left` the byte offsets of its parts that are not performed yet (R224); `lane` the pod lane on which
its request to another device has been sent (R389); `done` says it is performed and waits for older ones of its class before its counter
is lowered (R89). -/
structure Flight where
  id : Nat
  wg : Nat
  tid : Option Nat
  acc : Access
  va : DWord
  loc : Loc
  size : Nat
  dst : Nat
  data : List Byte
  poison : Poison
  colour : Nat
  acquire : Bool
  release : Bool
  pc : Nat
  left : List Nat
  lane : Option Nat
  done : Bool
deriving DecidableEq, Repr

/-- A word in a core's L1 (R221). -/
structure L1Word where
  core : Nat
  addr : Nat
  val : Word
  poison : Poison
deriving DecidableEq, Repr


/-- A tensor layout record as read (R243). -/
structure LRec where
  base : DWord
  stamp : DWord
  format : Nat
  planes : Nat
  dims : Nat
  flags : Nat
  tensor : Nat
  colour : Nat
  tbar : Nat
  extents : List Nat
  strides : List Int
  boxes : List Nat
deriving DecidableEq, Repr

/-- The forms of `COPY` (R253). -/
inductive CopyForm where
  | t | g | s | mc | wb | fill
deriving DecidableEq, Repr

/-- Where a copy stands: moving its elements, suspended on a miss (R259), its payload in the network to
banks or performed, its follow-on pass waiting (R258), or complete and waiting for older copies (R249). -/
inductive CopyStage where
  | moving
  | suspended
  | landing
  | following
  | finished
deriving DecidableEq, Repr

/-- A copy in the copy engine (R253-R260). `queue` is the queue and index of its command; `stampPa` is where its
stamp area lies, as translated at issue; `pc` the word offset of its instruction; `patBad` the poison of its mask, multicast or pattern registers (R374); `slot` the
suspension slot it has taken, `missed` the access (R259) and address that missed; `hit` the poison of an error in a packet of its payload
(R370). -/
structure CopyOp where
  id : Nat
  wg : Option Nat
  tid : Option Nat
  queue : Option (Nat × Nat)
  gang : Option Nat
  launch : Option Nat
  quad : Nat
  tenant : Tag
  world : Nat
  form : CopyForm
  src : LRec
  dst : LRec
  sorg : List Int
  dorg : List Int
  mask : List Word
  mc : Word
  fill : List Word
  col : Nat
  fs : Option Nat
  stampPa : Option Nat
  pc : Nat
  patBad : Poison
  stage : CopyStage
  slot : Option Nat
  missed : Option (Nat × Nat)
  hit : Poison
  next : Nat
  dropped : BitVec 16
  status : Nat
  reason : Nat
  info : Word
deriving DecidableEq, Repr

/-- An engine write in the network toward a bank (R239): the copy, the bank, offset, bytes with the mask of the
bits they write, poison, the issuer's tag, and for a multicast the target's bit. -/
structure Inbound where
  id : Nat
  copy : Nat
  bit : Option Nat
  bank : Nat
  off : Nat
  data : List Byte
  mask : List Byte
  poison : Poison
  tag : Tag
deriving DecidableEq, Repr

/-- A range-scoreboard entry (R240). `since` orders the times at which entries were taken among the ids of operations (R241). -/
structure SbEntry where
  quad : Nat
  lo : Nat
  hi : Nat
  copy : Bool
  op : Nat
  since : Nat
deriving DecidableEq, Repr

/-- The matrix operations of the reservation table (R273). -/
inductive MatKind where
  | pass | accrd | accwr | accscl | accz | wbinv
deriving DecidableEq, Repr

/-- A matrix operation from its enqueue to its completion: its place in its issuer's order (the copy's, for a
follow-on), descriptor or parameter words, for `WBINV` the mask and source, the k-steps done, whether its segment is
granted, and its failure reason. -/
structure MatOp where
  id : Nat
  seq : Nat
  wg : Option Nat
  tid : Option Nat
  gang : Nat
  quad : Nat
  kind : MatKind
  words : List Word
  mask : Nat
  src : Option Nat
  kdone : Nat
  granted : Bool
  ended : Bool
  reason : Nat
  done : Bool
deriving DecidableEq, Repr

/-- Where a contribution to a collective stands (R395). -/
inductive CollStage where
  | sent | counted | result (data : List (Byte × Poison)) | failed (reason : Nat) | done
deriving DecidableEq, Repr

/-- A contribution (R393-R395). Its source and destination are physical pieces (address, bytes), as translated at issue; `hit` is the
poison of an error on the way of its data (R370). -/
structure Contribution where
  id : Nat
  wg : Nat
  tid : Option Nat
  launch : Nat
  quad : Nat
  tenant : Tag
  fn : Nat
  scope : Nat
  inst : Nat
  cid : Nat
  op : Nat
  count : Nat
  ranks : Nat
  root : Nat
  rank : Nat
  src : List (Nat × Nat)
  dst : List (Nat × Nat)
  stampPa : Option Nat
  col : Nat
  hit : Poison
  stage : CollStage
deriving DecidableEq, Repr

/-- A gang's place in its life (R303-R312). -/
inductive GangStatus where
  | never | placed | draining | saved | retired
deriving DecidableEq, Repr

/-- A gang: its launch and number, the die it is shared out to, its quad, its runs of banks, accumulator
blocks and weight-buffer segments (first unit and count), the number its first bank has for its program (log 79), the frames of its
context room (R314), since when it waits as its share's next gang (R306), and what a pre-emption saved (R312), by offset in its runs of
units; after the next placement, the saved operations and copies that still wait for a free entry or slot of the quad. `back` says that a
slice of its partition has begun since it was saved (R315); `moved` that its image has left by a handover which the hypervisor asked for,
so that only an `IMAGE_ACCEPT` of the outside brings it back (R365). -/
structure Gang where
  uid : Nat
  launch : Nat
  num : Nat
  die : Nat
  quad : Nat
  bank0 : Nat
  banks : Nat
  acc0 : Nat
  accs : Nat
  seg0 : Nat
  segs : Nat
  home0 : Nat
  room : List Nat
  status : GangStatus
  waitSince : Option Nat
  isTwin : Bool
  savedBanks : List (Nat × Byte)
  savedSegs : List (Nat × Byte)
  savedAcc : List (Nat × BitVec 36)
  savedBankPoison : List (Nat × BitVec 12)
  savedSegPoison : List (Nat × BitVec 12)
  savedAccPoison : List (Nat × BitVec 12)
  savedOps : List MatOp
  savedCopies : List CopyOp
  sealedEpoch : Option Nat
  back : Bool
  moved : Bool
deriving DecidableEq, Repr

/-- A continuation record (R298): PC word offset and the two arguments. -/
structure PoolRec where
  pc : Nat
  arg0 : Word
  arg1 : Word
deriving DecidableEq, Repr

/-- A launch: its record (R294), tenant, effective priority, and its progress. `ended` is 0 while it runs, the end code
of its stop (R352) once it is stopped, 5 when its pod did not join (R391). -/
structure Launch where
  id : Nat
  tenant : Tag
  queue : Option Nat
  cmd : Nat
  code : DWord
  args : DWord
  gx : Nat
  gy : Nat
  gz : Nat
  threads : Nat
  wpg : Nat
  regs : Nat
  commons : Nat
  banks : Nat
  acc : Nat
  wbuf : Nat
  scratch : Nat
  world : Nat
  prio : Nat
  guarded : Bool
  twin : Bool
  debug : Bool
  record : Bool
  strict : Bool
  persistent : Bool
  tlimit : Nat
  account : Nat
  exits : Nat
  podid : Word
  poddevs : Nat
  nwg : Nat
  pool : Option (List PoolRec)
  wave : Bool
  startNs : Option Nat
  ended : Nat
  liveAtEnd : Nat
  num : Table Nat
deriving DecidableEq, Repr

/-- A command taken from a ring and not yet complete (R291-R293): its index, its 64 bytes, whether it has begun, and for a `WAITQ` that
has begun whether a write has met it. -/
structure Cmd where
  idx : Nat
  bytes : List Byte
  begun : Bool
  met : Bool
deriving DecidableEq, Repr

/-- A software queue (R288-R290): the shadow of its privileged fields, its QCB, its state, the hardware slot it is
mapped in with that slot's tag before the mapping and the time of the mapping, the `wr` at which its guest fields were
found bad, whether it is to be unmapped at its next command boundary and with which state, whether its bucket has emptied and not
refilled since (R302), and its commands. -/
structure Queue where
  q : Nat
  owner : Tag
  pcap : Nat
  world : Nat
  bucket : Nat
  qcb : Nat
  qstate : Nat
  slot : Option Nat
  slotTag : Tag
  mappedAt : Nat
  badWr : Option Nat
  leaving : Option Nat
  dry : Bool
  cmds : List Cmd
deriving DecidableEq, Repr

/-- A fault record (R340). -/
structure FaultRec where
  cause : Nat
  cls : Nat
  chunk : Nat
  slot : Nat
  core : Nat
  quad : Nat
  launch : Nat
  fpc : Word
  finfo : Word
  tag : Tag
  addr : DWord
  mask : BitVec 256
deriving DecidableEq, Repr

/-- An open recall (R323-R325); `ids` is empty in count mode. `given` and `taken` are the ids relinquished and seized
for it; `late` says that its deadline has passed while units it names lay on a die that was not attached (R386); `chosen` is the unit it is
making quiet, with whether a gang is pre-empted for it (R331); `closing` says that a `RACK` has closed it for its tenant (log 83). -/
structure Recall where
  seq : Nat
  kind : Nat
  ids : List Nat
  owed : Nat
  origin : Nat
  deadline : Nat
  given : List Nat
  taken : List Nat
  late : Bool
  chosen : Option (Nat × Bool)
  closing : Bool
deriving DecidableEq, Repr

/-- A loss record (R333). -/
structure LossRec where
  kind : Nat
  reason : Nat
  id : Word
  time : DWord
  addr : DWord
  bytes : DWord
deriving DecidableEq, Repr

/-- A tenant counter (R353, R354): its event, period and value; of PC samples, their number and the thread (core,
workgroup slot, `%tid`) last taken. -/
structure Ctr where
  event : Nat
  period : Nat
  value : DWord
  sample : Nat
  last : Option (Nat × Nat × Nat)
deriving DecidableEq, Repr

/-- A tenant (R319): its descriptor, sequence numbers, recalls, losses, counters, and the fault records
CW3 still holds for it (R321), the launch of its runtime wave and the context room kept for it (R314, R320). `owedLoss` counts loss stamps
that wait for the HBM of an ABSENT die (R386). -/
structure Tenant where
  tag : Tag
  code : DWord
  threads : Nat
  regs : Nat
  commons : Nat
  core : Nat
  faults : Nat
  recallRing : Nat
  notice : Nat
  rbase : Nat
  rsize : Nat
  args : DWord
  faultSeq : Nat
  recallSeq : Nat
  recalls : List Recall
  waiting : List RecallReq
  losses : List LossRec
  lossSeq : Nat
  owedLoss : Nat
  areaOff : Nat
  ctrs : List Ctr
  pendFaults : List FaultRec
  wave : Option Nat
  room : List Nat
deriving DecidableEq, Repr

/-- A `DSTEP` under way (R349): the run that issued it (core, port, workgroup) and the thread it steps. -/
structure Stepping where
  core : Nat
  port : Nat
  by' : Nat
  wg : Nat
  tid : Nat
deriving DecidableEq, Repr

/-- A watchpoint of a quad (R344). -/
structure Watch where
  start : Nat
  len : Nat
  read : Bool
  write : Bool
  tenant : Tag
deriving DecidableEq, Repr

/-- A remote-ownership entry (R335). -/
structure RemoteOwn where
  frame : Nat
  z : Option Nat
  tag : Tag
  rwx : BitVec 3
  dev : Nat
deriving DecidableEq, Repr

/-- A host aperture window (R398). -/
structure Window where
  tag : Tag
  size : Nat
  sess : Nat
deriving DecidableEq, Repr

/-- A host session (R397). -/
structure Session where
  id : Nat
  part : Nat
  management : Bool
deriving DecidableEq, Repr

/-- What CW5 reads out of a frozen quad (R350): its workgroups, eyelet entries, on-chip bytes, descriptor slots, and the copies and
matrix operations under way. -/
structure Readout where
  quad : Nat
  wgs : List Wg
  entries : List Entry
  mem : List Host.Cell
  acc : Table (BitVec 36)
  slots : Table Word
  copies : List CopyOp
  matops : List MatOp
deriving DecidableEq, Repr

/-- What the firmware sends out over the host port's management sessions or keeps for telemetry: the status of a request
(R322), a request that fails without a code (R365, R402), the tag of a created tenant, a tampered queue (R290), the ids a
closed recall gave up and lost (R325), an active world (R402), a quote (R369), a silent error of twins (R379), the state of a frozen
device (R350), CW3's record of a die that fails its tests (R401); and what leaves over the pod links: the answer to a remote request
(R390), a packet sent on (R387) with its poison, a STOP or GO of a channel (R388). -/
inductive HostMsg where
  | status (code : Nat)
  | failed
  | created (tag : Tag)
  | tamper (q : Nat)
  | recallClosed (tag : Tag) (seq : Nat) (given taken : List Nat)
  | activated (world : Nat)
  | quote (bytes : List Byte)
  | silentError (launch wg : Nat)
  | readout (quads : List Readout)
  | answer (dev status : Nat) (data : List (Byte × Poison))
  | dieFailed (die : Nat)
  | forwarded (dev link : Nat) (poison : Poison)
  | flow (link vc : Nat) (stop : Bool)
deriving DecidableEq, Repr

/-- A registered multi-device launch (R391). -/
structure PodReg where
  podid : Word
  poddevs : Nat
  devs : List Nat
  since : Nat
deriving DecidableEq, Repr

/-- A key slot (R363). -/
inductive KeySlot where
  | empty | active | revoking
deriving DecidableEq, Repr

/-- The island's states (R381). -/
inductive IslandState where
  | off | boot | forward | joined | fencing | safe
deriving DecidableEq, Repr

/-- An endpoint's states (R382). -/
inductive EndState where
  | attached | detaching | absent
deriving DecidableEq, Repr

/-- Whether a die goes through steps 5 and 6 of the island's bring-up (R401), or steps 4 to 6 of a warm reset (R385). -/
inductive DieStage where
  | none | bringUp | resetting
deriving DecidableEq, Repr

/-- A compute die: its endpoint and what it goes through, core-cycle counter, clock and limits (R404), milliseconds at or above
110 °C, and since when it detaches. -/
structure Die where
  endp : EndState
  stage : DieStage
  cycles : Nat
  thermal : Nat
  hot : Nat
  since : Nat
deriving DecidableEq, Repr

/-- A request that waits until the units it names are quiet (R322, R328), or a window's transfers are over (R398), and is
then tried again; `kept` says that a gang has been pre-empted for the unit of a `SEIZE`, with which its contents are saved (R331). -/
inductive Request where
  | grant (u : Res) (part : Nat)
  | revoke (u : Res)
  | create (r : CreateReq)
  | bind (part : Nat) (b : BindReq) (tenant : Tag)
  | seize (tenant : Tag) (u : Res) (kept : Bool)
  | destroy (hyper : Bool) (part : Nat) (tenant : Tag)
  | unbind (win : Nat)
  | close (sess : Nat)
deriving DecidableEq, Repr

/-- What comes next: an event of the outside world or of a controller, a step of the device of its own, a request tried again; and four
happenings for which the opcode table has no row: a die fails step 5 or 6 of its bring-up (R401), a world's owner agrees a session key
with CW4 (R402), a firmware core sends another a message or takes one (R400). -/
inductive Todo where
  | event (i : Instr)
  | own
  | again (r : Request)
  | dieFails (die : Nat)
  | agreeKey (world : Nat)
  | sendMail (sender receiver : Nat) (msg : List Byte)
  | takeMail (sender receiver : Nat)
deriving DecidableEq, Repr

/-- A message between two cores of the firmware (R400). -/
structure Mail where
  sender : Nat
  receiver : Nat
  msg : List Byte
deriving DecidableEq, Repr

/-- An entry that waits for room in the full log of a launch with the strict flag (R357): its launch and thread, and its words (R356). -/
structure LogEntry where
  launch : Nat
  wg : Nat
  tid : Nat
  head : Nat
  off : Nat
  value : Nat
deriving DecidableEq, Repr

/-- A sealed image of frames or of a world's state (R365): context, world, epoch, the bytes and poison of its frames as they stood, and of a
world its gangs with their workgroups. -/
structure SealedCtx where
  ctx : Ctx
  world : Nat
  epoch : Nat
  cells : List (Nat × Byte)
  poison : List (Nat × BitVec 12)
  gangs : List Gang
  wgs : List Wg
deriving DecidableEq, Repr

/-- The machine. -/
structure State where
  /-- local HBM, host memory, banks, weight buffers and core scratch, as bytes (see `Machine/Ops.lean` for the map) -/
  mem : List Host.Cell
  /-- poison by byte address, 0 is clean; a poisoned write marks its whole granule (R373) -/
  memPoison : Table (BitVec 12)
  /-- accumulator elements: global block × 2^15 + row × 256 + column -/
  acc : Table (BitVec 36)
  accPoison : Table (BitVec 12)
  wgs : List Wg
  runs : List Run
  entries : List Entry
  logPend : List LogEntry
  flights : List Flight
  l1 : List L1Word
  /-- the core that last stored each word (R221), keyed by word address; 0 is none, core + 1 otherwise -/
  owner : Table Nat
  barriers : List Barrier
  copies : List CopyOp
  inbound : List Inbound
  score : List SbEntry
  matops : List MatOp
  colls : List Contribution
  /-- descriptor slots: quad × 128 + slot × 8 + word -/
  slots : Table Word
  /-- translation entries: quad × 2048 + set × 16 + way -/
  tlb : Table (Option TEntry)
  /-- watchpoints: quad × 8 + index -/
  watches : Table (Option Watch)
  /-- quad reservations (R306): quad to gang + 1 -/
  reserved : Table Nat
  gangs : List Gang
  launches : List Launch
  launchSeq : Nat
  queues : List Queue
  /-- frame ownership entries (R196), by frame -/
  fot : Table Word
  /-- extent table (R197): 2 × index and 2 × index + 1 are its two words -/
  extents : Table Word
  /-- binding tags by kind × 2^32 + id -/
  tags : Table Tag
  /-- seizure counts by kind × 2^32 + id -/
  seizures : Table (BitVec 8)
  /-- last generation by partition × 4096 + tenant -/
  gens : Table (BitVec 8)
  tenants : List Tenant
  /-- debug records waiting in CW5, with their partition -/
  pendDebug : List (Nat × FaultRec)
  /-- units being made quiet: nothing new is placed on them (R328) -/
  quieting : List (Nat × Nat)
  /-- configuration registers by address -/
  cfg : Table Word
  /-- calendar words in effect, by the address of their register -/
  calActive : Table Word
  /-- SECPOL written since the cold reset (R366) -/
  resetLocked : Bool
  /-- token-bucket levels by partition -/
  buckets : Table Int
  /-- deficit counters by core and tenant tag -/
  deficit : List (Nat × Tag × Int)
  comparators : List (Option Comparator)
  stepping : List Stepping
  /-- the wait-for graph's nodes at the last build, as workgroup, `%tid` and where it waits, and the node sets
  reported (R358) -/
  lastScan : List (Nat × Nat × Place × Nat)
  scanReported : List (List (Nat × Nat))
  /-- since when the device is frozen (R350, R392) -/
  frozen : Option Nat
  /-- active time-slice entry of a shared quad -/
  slice : Table Nat
  keySlots : List KeySlot
  /-- worlds whose key was destroyed and whose frames are not yet filled with zero (R363) -/
  revoked : List Nat
  /-- context epochs, the epochs already accepted, and the sealed images of frames and worlds, by context (R365) -/
  epochs : Table Nat
  consumed : List (Nat × Nat)
  sealedCtxs : List SealedCtx
  /-- the number of the next error record CW3 writes (R373) -/
  errSeq : Nat
  /-- messages to the host, oldest first -/
  outbox : List HostMsg
  island : IslandState
  /-- the image slots as a boot under way finds them, the slot whose image runs, the version fused at the last accepted update, whether
  step 7 is reached (R401), the worlds whose owner has had a quote and agreed a session key (R402) -/
  booting : Option (Bool × Bool)
  imageSlot : Nat
  fused : Nat
  quoting : Bool
  quoted : Bool
  agreed : List Nat
  /-- messages between the firmware's cores, oldest first: of a direction the first 16 are in its mailbox, its sender waits with the
  others (R400) -/
  mail : List Mail
  die0 : Die
  die1 : Die
  powerLimit : Nat
  ns : Nat
  /-- whether CW6 has loaded the route tables, the pod links that are up, the stopped (link, virtual channel)s with the
  packets that wait for them, the (link, virtual channel)s whose sender this island has stopped, the devices whose last route is lost with
  the time of the loss, and those answered ABSENT for it (R385, R387, R388) -/
  routesLoaded : Bool
  linkUp : List Bool
  stopped : List (Nat × Nat)
  stopsSent : List (Nat × Nat)
  buffered : List (Nat × Packet)
  lostRoutes : List (Nat × Nat)
  absentDevs : List Nat
  remoteOwn : List RemoteOwn
  podRegs : List PodReg
  windows : List (Nat × Window)
  sessions : List Session
  /-- what comes next, oldest first (log 3); with nothing in it the device goes on of its own -/
  agenda : List Todo
  freeCtr : Nat
  nextId : Nat
deriving DecidableEq, Repr

def Die.reset : Die := ⟨.absent, .none, 0, 850, 0, 0⟩

/-- The machine right after a cold reset. Tables hold nothing but what differs from their defaults, and
every resource is unbound (R24); the island boots and both dies are absent (log 1). -/
def State.reset : State where
  mem := []
  memPoison := []
  acc := []
  accPoison := []
  wgs := []
  runs := []
  entries := []
  logPend := []
  flights := []
  l1 := []
  owner := []
  barriers := []
  copies := []
  inbound := []
  score := []
  matops := []
  colls := []
  slots := []
  tlb := []
  watches := []
  reserved := []
  gangs := []
  launches := []
  launchSeq := 0
  queues := []
  fot := []
  extents := []
  tags := []
  seizures := []
  gens := []
  tenants := []
  pendDebug := []
  quieting := []
  cfg := []
  calActive := []
  resetLocked := false
  buckets := []
  deficit := []
  comparators := List.replicate 16 none
  stepping := []
  lastScan := []
  scanReported := []
  frozen := none
  slice := []
  keySlots := List.replicate 16 .empty
  revoked := []
  epochs := []
  consumed := []
  sealedCtxs := []
  errSeq := 0
  outbox := []
  island := .boot
  booting := none
  imageSlot := 0
  fused := 0
  quoting := false
  quoted := false
  agreed := []
  mail := []
  die0 := .reset
  die1 := .reset
  powerLimit := 850
  ns := 0
  routesLoaded := false
  linkUp := List.replicate 18 false
  stopped := []
  stopsSent := []
  buffered := []
  lostRoutes := []
  absentDevs := []
  remoteOwn := []
  podRegs := []
  windows := []
  sessions := []
  agenda := []
  freeCtr := 0
  nextId := 0

/-- Why a step can stop with a fault. -/
inductive Fault where
  /-- Raised by the meaning of an encoded instruction when no block run is in progress, so that no group
  issues it; `step` never reaches it. Safe: the machine stops where the manual has no such situation. -/
  | noIssuer
deriving DecidableEq, Repr

/-- Why a step can be refused. -/
inductive Refusal where
  /-- The instruction has no meaning in this model yet. Safe: the machine stops. -/
  | notModelled (mnemonic : String)
deriving DecidableEq, Repr

end Sys2Proof.Machine
end

