-- ==== Sys2Proof/Machine/Tables.lean ====
section
/-! DEFINITION. Sparse tables in canonical form, bit fields of naturals, and little-endian bytes. Memory is
such a table: addresses strictly rising, no entry equal to what an unlisted address reads as. -/

namespace Sys2Proof.Machine

/-- What a table holds at a key; `d` is what an unlisted key reads as. -/
def Table.get {α : Type} (d : α) : Table α → Nat → α
  | [], _ => d
  | (k, v) :: r, n => if n = k then v else Table.get d r n

/-- Write a key, keeping the canonical form: writing the default removes the entry. -/
def Table.set {α : Type} [DecidableEq α] (d : α) : Table α → Nat → α → Table α
  | [], n, x => if x = d then [] else [(n, x)]
  | (k, v) :: r, n, x =>
    if n < k then (if x = d then (k, v) :: r else (n, x) :: (k, v) :: r)
    else if n = k then (if x = d then r else (n, x) :: r)
    else (k, v) :: Table.set d r n x

/-- The canonical form from a least key on. -/
def Table.wfFrom {α : Type} [DecidableEq α] (d : α) : Nat → Table α → Bool
  | _, [] => true
  | lo, (k, v) :: r => decide (lo ≤ k) && decide (v ≠ d) && Table.wfFrom d (k + 1) r

/-- The canonical form: keys strictly rising, no entry equal to the default. -/
def Table.wf {α : Type} [DecidableEq α] (d : α) (t : Table α) : Bool := Table.wfFrom d 0 t

/-- What an unlisted byte of memory reads as (log 2). -/
def Memory.unlisted : Byte := 0

/-- The canonical form of memory. -/
def Memory.wf (m : List Host.Cell) : Bool := Table.wf Memory.unlisted m

/-- One byte of memory. -/
def Memory.read (m : List Host.Cell) (a : Nat) : Byte := Table.get Memory.unlisted m a

/-- Write one byte of memory. -/
def Memory.write (m : List Host.Cell) (a : Nat) (b : Byte) : List Host.Cell := Table.set Memory.unlisted m a b

/-- `n` bytes from address `a` on. -/
def Memory.bytes (m : List Host.Cell) (a : Nat) : Nat → List Byte
  | 0 => []
  | n + 1 => Memory.read m a :: Memory.bytes m (a + 1) n

/-- Write bytes from address `a` on. -/
def Memory.writeAll (m : List Host.Cell) (a : Nat) : List Byte → List Host.Cell
  | [] => m
  | b :: bs => Memory.writeAll (Memory.write m a b) (a + 1) bs

/-- Clear `n` bytes from address `a` on. -/
def Memory.clear (m : List Host.Cell) (lo n : Nat) : List Host.Cell :=
  m.filter fun c => decide (c.1 < lo) || decide (lo + n ≤ c.1)

/-- Clear the keys in [lo, lo + n) of a table. -/
def Table.clear {α : Type} (t : Table α) (lo n : Nat) : Table α :=
  t.filter fun c => decide (c.1 < lo) || decide (lo + n ≤ c.1)

/-- Bits [lo + n - 1 : lo] of a natural number. -/
def bitsOf (x lo n : Nat) : Nat := x / 2 ^ lo % 2 ^ n

/-- The natural number of little-endian bytes (R3). -/
def leNat : List Byte → Nat
  | [] => 0
  | b :: bs => b.toNat + 256 * leNat bs

/-- `n` little-endian bytes of a natural number, wrapping (R3). -/
def leBytes (x : Nat) : Nat → List Byte
  | 0 => []
  | n + 1 => BitVec.ofNat 8 x :: leBytes (x / 256) n

/-- A little-endian field of `n` bytes at offset `o` of a record. -/
def fieldAt (bs : List Byte) (o n : Nat) : Nat := leNat ((bs.drop o).take n)

/-- A natural number read as a signed integer of `n` bits. -/
def signedOf (n x : Nat) : Int := if x % 2 ^ n < 2 ^ (n - 1) then x % 2 ^ n else (x % 2 ^ n : Nat) - (2 ^ n : Nat)

/-- The lower of two poisons (R374): poison wins over clean, and the lower tag over the higher. -/
def Poison.join : Poison → Poison → Poison
  | none, p => p
  | p, none => p
  | some a, some b => some (if a.toNat ≤ b.toNat then a else b)

end Sys2Proof.Machine
end

