-- ==== Sys2Proof/Machine/Ops.lean ====
section
/-! DEFINITION. The named operations over the state: lookups, updates of workgroups and threads, the binding
tags and ownership tables, translation (R203), the eyelet table (R38-R40), and taking and leaving a fault
(R88, R339). -/

namespace Sys2Proof.Machine

/-! ### Lookups -/

def State.wg? (s : State) (uid : Nat) : Option Wg := s.wgs.find? fun w => w.uid = uid
def State.launch? (s : State) (l : Nat) : Option Launch := s.launches.find? fun x => x.id = l
def State.gang? (s : State) (g : Nat) : Option Gang := s.gangs.find? fun x => x.uid = g
def State.tenant? (s : State) (t : Tag) : Option Tenant := s.tenants.find? fun x => x.tag = t
def State.flight? (s : State) (i : Nat) : Option Flight := s.flights.find? fun x => x.id = i
def State.copy? (s : State) (i : Nat) : Option CopyOp := s.copies.find? fun x => x.id = i
def State.matop? (s : State) (i : Nat) : Option MatOp := s.matops.find? fun x => x.id = i
def State.coll? (s : State) (i : Nat) : Option Contribution := s.colls.find? fun x => x.id = i
def State.queue? (s : State) (q : Nat) : Option Queue := s.queues.find? fun x => x.q = q

def Wg.thread? (w : Wg) (tid : Nat) : Option Thread := w.threads.find? fun t => t.tid = tid
def Wg.quad (w : Wg) : Nat := w.core / 4
def Wg.die (w : Wg) : Nat := w.core / 384

/-- Bytes of the workgroup's insole frames (R105). -/
def Wg.insole (w : Wg) : Nat := 4 * w.quota * w.nthr

/-- A workgroup that is placed and not pre-empted, not ended (R351): its slot, thread slots and store are free as soon as it has retired
(R58, log 88); one that was ended while pre-empted holds none (R31). -/
def Wg.isResident (w : Wg) : Bool :=
  match w.status with
  | .resident => true
  | .rollingBack => true
  | .finished _ retired => !retired && !w.away
  | .preempted => false

def Wg.isActive (w : Wg) : Bool := w.status = .resident

def Thread.live (t : Thread) : Bool := t.place ≠ .exited

def Thread.isHeld (t : Thread) : Bool :=
  match t.place with
  | .held _ => true
  | _ => false

def Thread.isReady (t : Thread) : Bool :=
  match t.place with
  | .waiting _ .ready => true
  | _ => false

def Thread.isWaiting (t : Thread) : Bool :=
  match t.place with
  | .waiting _ _ => true
  | _ => false

/-! ### Updates -/

/-- Apply `f` to the workgroup named `uid`. -/
def State.onWg (s : State) (uid : Nat) (f : Wg → Wg) : State :=
  { s with wgs := s.wgs.map fun w => if w.uid = uid then f w else w }

/-- Apply `f` to the thread `tid`. -/
def Wg.onThread (w : Wg) (tid : Nat) (f : Thread → Thread) : Wg :=
  { w with threads := w.threads.map fun t => if t.tid = tid then f t else t }

def State.onThread (s : State) (uid tid : Nat) (f : Thread → Thread) : State :=
  s.onWg uid fun w => w.onThread tid f

def State.onLaunch (s : State) (l : Nat) (f : Launch → Launch) : State :=
  { s with launches := s.launches.map fun x => if x.id = l then f x else x }

def State.onGang (s : State) (g : Nat) (f : Gang → Gang) : State :=
  { s with gangs := s.gangs.map fun x => if x.uid = g then f x else x }

def State.onTenant (s : State) (t : Tag) (f : Tenant → Tenant) : State :=
  { s with tenants := s.tenants.map fun x => if x.tag = t then f x else x }

def State.onFlight (s : State) (i : Nat) (f : Flight → Flight) : State :=
  { s with flights := s.flights.map fun x => if x.id = i then f x else x }

def State.onCopy (s : State) (i : Nat) (f : CopyOp → CopyOp) : State :=
  { s with copies := s.copies.map fun x => if x.id = i then f x else x }

def State.onMatop (s : State) (i : Nat) (f : MatOp → MatOp) : State :=
  { s with matops := s.matops.map fun x => if x.id = i then f x else x }

def State.onColl (s : State) (i : Nat) (f : Contribution → Contribution) : State :=
  { s with colls := s.colls.map fun x => if x.id = i then f x else x }

def State.onQueue (s : State) (q : Nat) (f : Queue → Queue) : State :=
  { s with queues := s.queues.map fun x => if x.q = q then f x else x }

/-! ### The workgroup's launch and rights -/

def State.launchOf (s : State) (w : Wg) : Option Launch := s.launch? w.launch

/-- `%tenant` of a workgroup. -/
def State.tagOf (s : State) (w : Wg) : Tag :=
  match s.launchOf w with
  | some l => l.tenant
  | none => 0xFFF00#24

def State.worldOf (s : State) (w : Wg) : Nat :=
  match s.launchOf w with
  | some l => l.world
  | none => 0

/-- Whether a workgroup belongs to its tenant's runtime wave (R320). -/
def State.isWave (s : State) (w : Wg) : Bool :=
  match s.launchOf w with
  | some l => l.wave
  | none => false

def State.isDebug (s : State) (w : Wg) : Bool :=
  match s.launchOf w with
  | some l => l.debug
  | none => false

/-- Put an operation into a list kept in the order of issue. -/
def insertBy {α : Type} (key : α → Nat) (x : α) : List α → List α
  | [] => [x]
  | y :: ys => if key x < key y then x :: y :: ys else y :: insertBy key x ys

def Tag.part (t : Tag) : Nat := (t.extractLsb' 20 4).toNat
def Tag.num (t : Tag) : Nat := (t.extractLsb' 8 12).toNat
def Tag.gen (t : Tag) : Nat := (t.extractLsb' 0 8).toNat

/-- The tag p‖t‖g (R23). -/
def Tag.make (p t g : Nat) : Tag := BitVec.ofNat 24 (p % 16 * 2 ^ 20 + t % 4096 * 256 + g % 256)

/-- Tenant 0 of a partition is its supervisor (R23). -/
def Tag.isSupervisor (t : Tag) : Bool := Tag.num t = 0

/-! ### Configuration registers (R371) -/

/-- Reset values of the registers that do not reset to zero. -/
def cfgReset (a : Nat) : Word :=
  if a = 0x01000000 then 0x00010101#32
  else if 0x01000000 ≤ a ∧ a < 0x01000080 ∧ a % 8 = 0 then 0x00010100#32
  else if 0x02000000 ≤ a ∧ a < 0x02000200 then 0x10101010#32
  else if a = 0x0A000000 then 2100#32
  else if a = 0x0A000001 then 850#32
  else if a = 0x0A000002 then 0x03520352#32
  else 0#32

/-- A configuration register. Entries equal to the reset value are not listed. -/
def State.cfgGet (s : State) (a : Nat) : Word := Table.get (cfgReset a) s.cfg a

def State.cfgSet (s : State) (a : Nat) (x : Word) : State := { s with cfg := Table.set (cfgReset a) s.cfg a x }

/-! ### Binding tags (R23-R28) -/

def maxId (kind : Nat) : Nat :=
  match kind with
  | 1 => 768
  | 2 => 3072
  | 3 => 768
  | 4 => 1536
  | 5 => 3072
  | 6 => 12582912
  | 7 => 144
  | 8 => 256
  | 9 => 2880
  | _ => 0

def unboundTag : Tag := 0x0FFF00#24

/-- The frame ownership entry of a frame (R196). -/
def State.fotGet (s : State) (f : Nat) : Word := Table.get 0x000FFF00#32 s.fot f

def State.fotSet (s : State) (f : Nat) (x : Word) : State := { s with fot := Table.set 0x000FFF00#32 s.fot f x }

/-- Word `k` of extent table entry `i` (R197). -/
def State.extGet (s : State) (i k : Nat) : Word :=
  Table.get (if k = 0 then 0#32 else 0x000FFF00#32) s.extents (2 * i + k)

def State.extSet (s : State) (i k : Nat) (x : Word) : State :=
  { s with extents := Table.set (if k = 0 then 0#32 else 0x000FFF00#32) s.extents (2 * i + k) x }

/-- Frames of an extent of size code z (R197). -/
def extentFrames (z : Nat) : Nat := 2 ^ (5 + z)

/-- The valid extent entry that contains a frame. Listed words are searched: an entry that is not listed is
invalid. -/
def State.extentOf (s : State) (f : Nat) : Option Nat :=
  (s.extents.find? fun e =>
    decide (e.1 % 2 = 0) && (fld e.2 31 1 = 1#1) &&
    decide ((fld e.2 0 24).toNat ≤ f) && decide (f < (fld e.2 0 24).toNat + extentFrames (fld e.2 24 4).toNat)).map
      fun e => e.1 / 2

/-- The ownership word (tag, world, ceiling in [30:28]) that rules a frame (R196, R197). -/
def State.ownerWord (s : State) (f : Nat) : Word :=
  let e := s.fotGet f
  if fld e 31 1 = 1#1 then
    match s.extentOf f with
    | some i => s.extGet i 1
    | none => e
  else e

/-- The binding tag of a resource (R27, R28). -/
def State.tagGet (s : State) (kind id : Nat) : Tag :=
  if kind = 6 then fld (s.ownerWord id) 0 24
  else Table.get unboundTag s.tags (kind * 2 ^ 32 + id)

/-- Set the tag of a resource of a kind other than 6. -/
def State.tagSet (s : State) (kind id : Nat) (t : Tag) : State :=
  { s with tags := Table.set unboundTag s.tags (kind * 2 ^ 32 + id) t }

/-- CheckTag of R86. -/
def State.checkTag (s : State) (tenant : Tag) (kind id : Nat) : Bool :=
  decide (id < maxId kind) && (s.tagGet kind id = tenant)

/-! ### Counters of events (R353) -/

/-- Add to every counter of a tenant that counts an event. -/
def State.count (s : State) (t : Tag) (event amount : Nat) : State :=
  s.onTenant t fun x =>
    { x with ctrs := x.ctrs.map fun c =>
        if c.event = event then { c with value := c.value + BitVec.ofNat 64 amount } else c }

/-- A group-instruction of a workgroup issues: it is counted, its tenant is charged for the run port (R310), and
the workgroup is not stalled in this cycle (R351). -/
def chargeTenant (core : Nat) (t : Tag) : List (Nat × Tag × Int) → List (Nat × Tag × Int)
  | [] => [(core, t, -1)]
  | d :: ds => if d.1 = core ∧ d.2.1 = t then (core, t, d.2.2 - 1) :: ds else d :: chargeTenant core t ds

def State.issuedOne (s : State) (w : Wg) : State :=
  let s1 := (s.count (s.tagOf w) 0x01 1).onWg w.uid fun v => { v with issuing := true }
  { s1 with deficit := chargeTenant w.core (s.tagOf w) s1.deficit }

/-- Count a numeric event of a launch (R148): saturates. -/
def State.countNum (s : State) (l tid : Nat) (e : Option NumEvent) : State :=
  match e with
  | none => s
  | some e => s.onLaunch l fun x =>
      let k := tid * 4 + e.index
      { x with num := Table.set 0 x.num k (min (Table.get 0 x.num k + 1) (2 ^ 64 - 1)) }

/-! ### Free choices (log 4) -/

/-- Choice `k` of this step. -/
def State.choose (s : State) (k : Nat) : Bool := Config.freeBit (s.freeCtr + k)

/-- Every step that may choose advances the counter past its choices. -/
def State.advanceFree (s : State) : State := { s with freeCtr := s.freeCtr + 2 ^ 20 }

/-! ### Physical space (R19-R22)

`State.mem` keys: a local HBM offset; a physical address of region 2 as it stands; SRAM byte `off` of global
bank b at 2^52 + b × 2^17 + off; weight-buffer byte at 2^53 + segment × 2^16 + off; core scratch of workgroup
`uid` at 2^54 + uid × 2^19 + off. -/

def sramBase (bank : Nat) : Nat := 2 ^ 52 + bank * 2 ^ 17
def wbufBase (seg : Nat) : Nat := 2 ^ 53 + seg * 2 ^ 16
def scratchBase (uid : Nat) : Nat := 2 ^ 54 + uid * 2 ^ 19

/-- The region of a flat address (R22): 0 local, 1 remote, 2 host, 4 on chip. -/
def regionOf (a : Nat) : Nat := if 2 ^ 52 ≤ a then 4 else a / 2 ^ 50

/-- The poison granule a byte lies in (R373): its first byte and its size. -/
def granule (a : Nat) : Nat × Nat := if regionOf a = 4 then (a / 4 * 4, 4) else (a / 32 * 32, 32)

/-- The poison of one byte. -/
def State.poisonAt (s : State) (a : Nat) : Poison :=
  let p := Table.get 0#12 s.memPoison a
  if p = 0#12 then none else some p

/-- The poison of `n` bytes from `a` on: the lowest tag among them. -/
def State.poisonOf (s : State) (a : Nat) : Nat → Poison
  | 0 => none
  | n + 1 => (s.poisonAt a).join (s.poisonOf (a + 1) n)

/-- Mark `n` bytes with a poison, or clean. -/
def markPoison (t : Table (BitVec 12)) (a : Nat) (p : BitVec 12) : Nat → Table (BitVec 12)
  | 0 => t
  | n + 1 => markPoison (Table.set 0#12 t a p) (a + 1) p n

/-- The poison of memory after a write of `n` bytes at `a` (R373): clean data cleans its bytes; poisoned data
poisons the granule. -/
def writePoison (t : Table (BitVec 12)) (a n : Nat) (p : Poison) : Table (BitVec 12) :=
  match p with
  | none => markPoison t a 0#12 n
  | some q =>
    let g := granule a
    markPoison t (min g.1 a) q (max n g.2)

def State.readMem (s : State) (a n : Nat) : List Byte := Memory.bytes s.mem a n

/-- The natural number of `n` bytes at `a`. -/
def State.readNat (s : State) (a n : Nat) : Nat := leNat (s.readMem a n)

/-- Whether a write touches a monitored location and its condition now holds (R235). -/
def monitorHolds (m : List Host.Cell) (addr cond : Nat) (x : DWord) : Bool :=
  let v := leNat (Memory.bytes m addr 8)
  if cond = 0 then decide (x.toNat ≤ v) else if cond = 1 then decide (v ≠ x.toNat) else decide (v = x.toNat)

/-- A place after a write: a monitor whose condition holds keeps the value that met it, a transaction barrier whose
phase has flipped holds its thread no longer. -/
def Place.seeWrite (m : List Host.Cell) (a n : Nat) (p : Place) : Place :=
  match p with
  | .waiting k (.monitor addr cond x none) =>
    if a < addr + 8 ∧ addr < a + n ∧ monitorHolds m addr cond x then
      .waiting k (.monitor addr cond x (some (BitVec.ofNat 64 (leNat (Memory.bytes m addr 8)))))
    else p
  | .waiting k (.tbar addr old) =>
    if a < addr + 4 ∧ addr < a + n ∧ (Memory.read m (addr + 3)).getLsbD 7 ≠ old then .waiting k .ready else p
  | _ => p

def Thread.seeWrite (m : List Host.Cell) (a n : Nat) (t : Thread) : Thread := { t with place := t.place.seeWrite m a n }

/-- A thread that has issued its block's last instruction waits from then on, though its run goes on (R33, R235). -/
def Run.seeWrite (m : List Host.Cell) (a n : Nat) (r : Run) : Run :=
  { r with parked := r.parked.map fun p => { p with place := p.place.seeWrite m a n } }

/-- A `WAITQ` in progress looks at its location on every write (R293): once the value has been reached it is met. -/
def Cmd.seeWrite (m : List Host.Cell) (a n : Nat) (c : Cmd) : Cmd :=
  let p := leNat ((c.bytes.drop 8).take 8)
  if c.begun ∧ leNat (c.bytes.take 1) = 5 ∧ a < p + 8 ∧ p < a + n ∧ leNat ((c.bytes.drop 24).take 8) ≤ leNat (Memory.bytes m p 8) then
    { c with met := true }
  else c

def Queue.seeWrite (m : List Host.Cell) (a n : Nat) (q : Queue) : Queue := { q with cmds := q.cmds.map (Cmd.seeWrite m a n) }

/-- Whether a place is a wait on a transaction barrier. -/
def Place.onTbar (p : Place) : Bool :=
  match p with
  | .waiting _ (.tbar _ _) => true
  | _ => false

/-- Perform a write at its home (R221, R223, R235): bytes, poison, owner, the previous owner's L1 words,
monitors, and the threads that wait for the phase of a transaction barrier (R261), which acquire. A saved workgroup has no monitor
and no bank (R235): it looks again when it is restored. `storer` is the storing core + 1, or 0 for an engine, firmware or remote
device. -/
def State.perform (s : State) (a : Nat) (data : List Byte) (p : Poison) (storer : Nat) : State :=
  let n := data.length
  let m := Memory.writeAll s.mem a data
  let onChip := regionOf a = 4
  let words := (List.range ((a + n + 3) / 4 - a / 4)).map fun i => (a / 4 + i) * 4
  let owner' := if onChip then s.owner else words.foldl (fun t w => Table.set 0 t w storer) s.owner
  let l1' := if onChip then s.l1 else
    s.l1.filter fun x => !(words.contains x.addr &&
      (decide (x.core + 1 = Table.get 0 s.owner x.addr) || decide (x.core + 1 = storer)))
  let flips := fun p : Place => p.onTbar && !(p.seeWrite m a n).onTbar
  let woken := ((s.wgs.filter fun w => decide (w.status ≠ .preempted) && w.threads.any fun t => flips t.place).map (·.core)) ++
    (s.runs.filter fun r => r.parked.any fun p => flips p.place).map (·.core)
  { s with
    mem := m
    memPoison := writePoison s.memPoison a n p
    owner := owner'
    l1 := l1'.filter fun x => !(woken.contains x.core && decide (Table.get 0 owner' x.addr ≠ x.core + 1))
    runs := s.runs.map (Run.seeWrite m a n)
    queues := s.queues.map (Queue.seeWrite m a n)
    wgs := s.wgs.map fun w => if w.status = .preempted then w else { w with threads := w.threads.map (Thread.seeWrite m a n) } }

def State.die? (s : State) (d : Nat) : Die := if d = 0 then s.die0 else s.die1

/-- Whether a local byte lies beside an ABSENT die, out of reach of every engine and of the firmware (R383). -/
def State.hbmOut (s : State) (a : Nat) : Bool := decide (regionOf a = 0) && decide ((s.die? (a / 65536 / 6291456)).endp = .absent)

/-- A write by an engine or firmware; HBM beside an ABSENT die is out of reach (R383). -/
def State.writeOut (s : State) (a : Nat) (data : List Byte) : State :=
  if s.hbmOut a then s else s.perform a data none 0

/-- Threads, runs and queued commands re-test what waits for the bytes of a range that firmware or an engine has just written (R235,
R261, R293). -/
def State.noticeWrite (s : State) (a n : Nat) : State :=
  { s with
    runs := s.runs.map (Run.seeWrite s.mem a n)
    queues := s.queues.map (Queue.seeWrite s.mem a n)
    wgs := s.wgs.map fun w => if w.status = .preempted then w else { w with threads := w.threads.map (Thread.seeWrite s.mem a n) } }

/-- Forget what caches and owners know of a range. -/
def State.forgetRange (s : State) (a n : Nat) : State :=
  { s with
    owner := Table.clear s.owner a n
    l1 := s.l1.filter fun w => !(decide (a ≤ w.addr) && decide (w.addr < a + n)) }

/-- A range of memory reads as zero. -/
def State.clearMem (s : State) (a n : Nat) : State :=
  ({ s with mem := Memory.clear s.mem a n, memPoison := Table.clear s.memPoison a n } : State).forgetRange a n

/-- A little-endian write by an engine or firmware. -/
def State.writeNat (s : State) (a n x : Nat) : State := s.writeOut a (leBytes x n)

/-- An acquire's third step (R225): the core discards every L1 word it does not own. -/
def State.dropUnowned (s : State) (core : Nat) : State :=
  { s with l1 := s.l1.filter fun x => !(decide (x.core = core) && decide (Table.get 0 s.owner x.addr ≠ core + 1)) }

/-! ### The translation buffer (R199, R200) -/

def pageShift (size : Nat) : Nat :=
  match size with
  | 0 => 12
  | 1 => 16
  | 2 => 21
  | 3 => 30
  | _ => 36

/-- The exclusive or of the 7-bit slices of va[55:s] (R199). -/
def tlbSet (va shift : Nat) : Nat :=
  let p := bitsOf va shift (56 - shift)
  (List.range 8).foldl (fun a i => a ^^^ bitsOf p (7 * i) 7) 0

def tlbKey (quad index : Nat) : Nat := quad * 2048 + index

def State.tlbGet (s : State) (quad index : Nat) : Option TEntry := Table.get none s.tlb (tlbKey quad index)

def State.tlbSetAt (s : State) (quad index : Nat) (e : Option TEntry) : State :=
  { s with tlb := Table.set none s.tlb (tlbKey quad index) e }

/-- The entry of a tenant that maps an address, of the smallest page size (R200); one under removal is still found, and what finds it
waits (R210). -/
def State.lookup (s : State) (quad : Nat) (tenant : Tag) (va : Nat) : Option TEntry :=
  (List.range 5).findSome? fun size =>
    let sh := pageShift size
    (List.range 16).findSome? fun way =>
      if s.tagGet 5 (quad * 16 + way) = tenant then
        match s.tlbGet quad (tlbSet va sh * 16 + way) with
        | some e => if e.size = size ∧ e.va / 2 ^ sh = bitsOf va 0 56 / 2 ^ sh then some e else none
        | none => none
      else none

/-- The kinds of access of R203, R204. -/
inductive AccKind where
  | r | w | x | a
deriving DecidableEq, Repr

def AccKind.code : AccKind → Nat
  | .r => 0
  | .w => 1
  | .x => 2
  | .a => 3

def AccKind.allowed (k : AccKind) (e : TEntry) : Bool :=
  match k with
  | .r => e.r
  | .w => e.w
  | .x => e.x
  | .a => e.r && e.w

/-! Fault causes (R337). -/

/-- No cause of the manual: what finds a translation entry under removal must wait (R210). -/
def cWait : Nat := 0
def cIllegal : Nat := 0x01
def cMisalign : Nat := 0x02
def cTbMiss : Nat := 0x03
def cProtect : Nat := 0x04
def cFp : Nat := 0x05
def cUserTrap : Nat := 0x06
def cBreakpoint : Nat := 0x07
def cWatchpoint : Nat := 0x08
def cPoison : Nat := 0x09
def cUniform : Nat := 0x0A
def cQuota : Nat := 0x0B
def cBank : Nat := 0x0C
def cCopyFault : Nat := 0x0D
def cWatchdog : Nat := 0x0E
def cLocked : Nat := 0x0F
def cGuard : Nat := 0x10

/-- The delivery classes of R337. -/
inductive FaultClass where
  | user | runtime | system | debug
deriving DecidableEq, Repr

def classOf (cause : Nat) : FaultClass :=
  if cause = cMisalign ∨ cause = cFp ∨ cause = cUserTrap then .user
  else if cause = cTbMiss ∨ cause = cProtect ∨ cause = cBank ∨ cause = cCopyFault then .runtime
  else if cause = cBreakpoint ∨ cause = cWatchpoint then .debug
  else .system

/-- What a fault carries: cause, `%finfo`, the address of its record (R340). -/
structure FaultInfo where
  cause : Nat
  info : Word
  addr : DWord
deriving DecidableEq, Repr

/-- `%finfo` of a memory fault (R204). -/
def memInfo (reason : Nat) (k : AccKind) (va : DWord) : Word :=
  BitVec.ofNat 32 (reason + k.code * 16 + bitsOf va.toNat 12 20 * 2 ^ 12)

def protectAt (reason : Nat) (k : AccKind) (va : DWord) : FaultInfo := ⟨cProtect, memInfo reason k va, va⟩

def bankFault (k : AccKind) (bank : Nat) (va : DWord) : FaultInfo :=
  ⟨cBank, BitVec.ofNat 32 (0xA + k.code * 16 + bank * 64), va⟩

/-- The cause `cWait`. -/
def tbWait : FaultInfo := ⟨cWait, 0, 0⟩

/-- The local bank that a gang's program knows under a number, and the cluster-window offset that it knows under one: a gang restored
to other banks goes on with the numbers of its first placement (R238, R312, log 79). -/
def Gang.bankAt (g : Gang) (b : Nat) : Nat := b + g.bank0 - g.home0
def Gang.offAt (g : Gang) (o : Nat) : Nat := o + g.bank0 * 2 ^ 17 - g.home0 * 2 ^ 17

/-- The offset in its quad's cluster window that an operation of a gang reaches. -/
def State.offAt (s : State) (gang : Option Nat) (o : Nat) : Nat := ((gang.bind s.gang?).map fun g => g.offAt o).getD o

/-- The offset under which a gang's program knows an offset of its quad's cluster window. -/
def State.progOff (s : State) (gang : Option Nat) (o : Nat) : Nat :=
  ((gang.bind s.gang?).map fun g => o + g.home0 * 2 ^ 17 - g.bank0 * 2 ^ 17).getD o

/-- Banks a gang's program sees: under guarded execution the lower half (R376). -/
def State.visibleBanks (s : State) (g : Gang) : Nat :=
  match s.launch? g.launch with
  | some l => if l.guarded then g.banks / 2 else g.banks
  | none => g.banks

/-- Translate of R203: the location an access of `size` bytes reaches, or the fault. `special` marks `ATOM`,
`RED` and `MWAIT`, which the core window refuses, and `MWAIT` and access A region 2. -/
def State.translate (s : State) (w : Wg) (k : AccKind) (special : Bool) (va : DWord) (size : Nat) :
    Except FaultInfo Loc :=
  let v := va.toNat
  let top := v / 2 ^ 56
  if top = 0xFD then
    if special ∨ k = .x then .error (protectAt 0x4 k va)
    else
      let off := bitsOf v 0 56
      let lim := w.insole + w.scratch
      if 2 ^ 19 ≤ off then .error (protectAt 0x7 k va)
      else if k = .w ∧ lim < off + size then .error (protectAt 0x7 k va)
      else if lim + 8192 < off + size then .error (protectAt 0x7 k va)
      else if off < w.insole then .ok (.frame off)
      else if off < lim then .ok (.mem (scratchBase w.uid + (off - w.insole)))
      else .ok (.spill (off - lim))
  else if top = 0xFE then
    if k = .x then .error (protectAt 0x4 k va)
    else if bitsOf v 21 35 ≠ 0 then .error (protectAt 0x7 k va)
    else
      let bank := bitsOf v 17 4
      match s.gang? w.gang with
      | none => .error (bankFault k bank va)
      | some g =>
        let gb := w.quad * 16 + g.bankAt bank
        if s.checkTag (s.tagOf w) 2 gb ∧ g.home0 ≤ bank ∧ bank < g.home0 + s.visibleBanks g then
          .ok (.mem (sramBase gb + bitsOf v 0 17))
        else .error (bankFault k bank va)
  else if top = 0 then
    match s.lookup w.quad (s.tagOf w) v with
    | none => .error ⟨cTbMiss, memInfo 0x9 k va, va⟩
    | some e =>
      if e.leaving then .error tbWait
      else if e.tag ≠ s.tagOf w then .error (protectAt 0x5 k va)
      else if ¬ k.allowed e then .error (protectAt 0x6 k va)
      else
        let pa := e.pa + (v - e.va)
        if pa / 2 ^ 50 = 2 ∧ special then .error (protectAt 0x4 k va) else .ok (.mem pa)
  else .error (protectAt 0x4 k va)

/-! ### Calendars (R308, R309) -/

/-- The byte of slot `i` of a class on a die. -/
def State.calSlot (s : State) (die cls i : Nat) : Nat :=
  let w := Table.get 0x10101010#32 s.calActive (0x02000000 + 256 * die + 64 * cls + i % 256 / 4)
  bitsOf w.toNat (8 * (i % 4)) 8

/-- Whether a partition's work may use a slot. -/
def slotUsable (b part : Nat) : Bool := decide (b / 16 % 2 = 1) || decide (b % 16 = part)

/-- Cycles of a slot of a class (R308); a network cycle is taken as long as a core cycle (log 80). -/
def slotCycles (cls : Nat) : Nat := if cls < 2 then 64 else if cls = 2 then 8 else 1

/-- Whether a class's slot now lets a partition's work use an engine, a slice or a link of a die. -/
def State.slotOpen (s : State) (die cls part : Nat) : Bool :=
  slotUsable (s.calSlot die cls ((s.die? die).cycles / slotCycles cls)) part

/-! ### Pod links (R387-R389) -/

/-- Links towards a device that are up. -/
def State.linksTo (s : State) (dev : Nat) : List Nat :=
  if s.routesLoaded then (Config.route dev).filter fun l => s.linkUp.getD l false else []

/-- Whether requests to a device find no route: it is not reached within 3 hops, or its last route has been lost for long enough (R385,
R387). -/
def State.unroutable (s : State) (dev : Nat) : Bool :=
  s.absentDevs.contains dev || ((s.linksTo dev).isEmpty && s.lostRoutes.all fun r => r.1 ≠ dev)

/-- Flits in the outgoing buffer of a link. -/
def State.outFlits (s : State) (link : Nat) : Nat := ((s.buffered.filter fun b => b.1 = link).map fun b => b.2.flits).sum

/-- The link a request of this device takes: the fewest flits, then the lowest number (R387). -/
def State.ownLink (s : State) (dev : Nat) : Option Nat :=
  let ls := s.linksTo dev
  ls.find? fun l => ls.all fun k => decide (s.outFlits l < s.outFlits k) || (decide (s.outFlits l = s.outFlits k) && decide (l ≤ k))

/-- The lane of a link that a tenant's requests use: one bound to it, else one of its partition's holding, else one of the pool (R389);
where every lane of the link is another's, none. -/
def State.laneOf (s : State) (tag : Tag) (link : Nat) : Option Nat :=
  let lanes := (List.range 8).map (8 * link + ·)
  let held := fun p : Nat => lanes.find? fun k => decide (Tag.num (s.tagGet 7 k) = 0xFFF) && decide (Tag.part (s.tagGet 7 k) = p)
  ((lanes.find? fun k => s.tagGet 7 k = tag).orElse fun _ => held (Tag.part tag)).orElse fun _ => held 0

/-- The lane on which a tenant's request to a device leaves now: none while its link's request channel is stopped (R388). -/
def State.sendLane (s : State) (tag : Tag) (dev : Nat) : Option Nat :=
  match s.ownLink dev with
  | some l => if s.stopped.contains (l, 0) then none else s.laneOf tag l
  | none => none

/-- The device to which an access to a flat address goes over a pod link (R22). -/
def remoteDev (a : Nat) : Option Nat :=
  if regionOf a = 1 ∧ a / 2 ^ 40 % 1024 ≠ Config.devNumber.toNat then some (a / 2 ^ 40 % 1024) else none

/-- Whether an access of a quad's workgroup to a flat address is served now: its packets use the links of the quad's die, a slice of
local memory the calendar of its own; a bank is reached without either (R309). A request to another device needs a lane (R388, R389). -/
def State.served (s : State) (quad : Nat) (tag : Tag) (a : Nat) : Bool :=
  let part := Tag.part tag
  match regionOf a with
  | 0 => s.slotOpen (quad / 96) 3 part && s.slotOpen (a / 65536 / 6291456) 2 part
  | 4 => true
  | _ => s.slotOpen (quad / 96) 3 part && (remoteDev a).all fun d => s.unroutable d || (s.sendLane tag d).isSome

/-! ### Code (R34, R35, R62) -/

/-- The virtual address of a word offset from the code base. -/
def codeAddr (l : Launch) (key : Nat) : DWord := l.code + BitVec.ofNat 64 (4 * key)

/-- The world latch of a quad (`WLATCH`, R371). -/
def State.latch (s : State) (quad : Nat) : Nat := (fld (s.cfgGet (0x07000000 + quad)) 0 4).toNat

/-- Whether requests of a world have a key: world 0 needs none (R360, R361); one that is being revoked keeps its key until the keys
are destroyed (R364). -/
def State.hasKey (s : State) (world : Nat) : Bool :=
  decide (world = 0) || s.keySlots[world]? = some .active || s.keySlots[world]? = some .revoking

/-- The world of a local frame (R196, R197). -/
def State.frameWorld (s : State) (a : Nat) : Nat := (fld (s.ownerWord (a / 65536)) 24 4).toNat

/-- Whether the slice of a local byte answers a request of a world: it needs the world's key, and a line of
another world is answered as without one (R360, R362). -/
def State.sliceAnswers (s : State) (world a : Nat) : Bool := s.hasKey world && decide (s.frameWorld a = world)

/-- Whether a quad reaches a local byte: beside its own die, or beside the other while that is attached (R383). -/
def State.reachable (s : State) (quad a : Nat) : Bool :=
  let d := a / 65536 / 6291456
  decide (d = quad / 96) || decide ((s.die? d).endp = .attached)


/-! ### Remote ownership (R335) -/

def RemoteOwn.covers (e : RemoteOwn) (off size : Nat) : Bool :=
  let n := match e.z with
    | some z => extentFrames z
    | none => 1
  decide (e.frame * 65536 ≤ off) && decide (off + size ≤ (e.frame + n) * 65536)

/-- Whether a request of a device and tag for bytes at a local offset passes; `ATOM` and `RED` need r and w. -/
def State.remotePasses (s : State) (dev : Nat) (tag : Tag) (off size : Nat) (k : AccKind) : Bool :=
  s.remoteOwn.any fun e => decide (e.dev = dev) && decide (e.tag = tag) && e.covers off size &&
    (match k with
      | .r => e.rwx.getLsbD 0
      | .w => e.rwx.getLsbD 1
      | .x => e.rwx.getLsbD 2
      | .a => e.rwx.getLsbD 0 && e.rwx.getLsbD 1)

/-- Whether the key slot of a world is ACTIVE; world 0 needs none (R390). -/
def State.keyActive (s : State) (world : Nat) : Bool := decide (world = 0) || s.keySlots[world]? = some .active

/-- How the home of an access answers. -/
inductive Home where
  | here (a : Nat)
  | keyless
  | other
  | refused
deriving DecidableEq, Repr

/-- Where an access of a quad's workgroup is served (R206, R335, R360): local memory, but what lies beside the other die only while
that is attached (R383); on-chip stores; the host and another device, unless the quad's world has no key (R360) or no route leads there
(R387); this device's own number as a remote request, which a world whose key slot is not ACTIVE is refused (R390). -/
def State.homeOf (s : State) (quad : Nat) (tag : Tag) (k : AccKind) (a size : Nat) : Home :=
  match regionOf a with
  | 0 =>
    if ¬ s.reachable quad a then .refused
    else if s.sliceAnswers (s.latch quad) a then .here a else .keyless
  | 1 =>
    let off := a % 2 ^ 40
    if a / 2 ^ 40 % 1024 = Config.devNumber.toNat then
      if ¬ (s.reachable quad off ∧ s.keyActive (s.latch quad) ∧ s.remotePasses Config.devNumber.toNat tag off size k) then .refused
      else if s.sliceAnswers (s.latch quad) off then .here off else .keyless
    else if ¬ s.hasKey (s.latch quad) then .keyless
    else if s.unroutable (a / 2 ^ 40 % 1024) then .refused
    else .other
  | 2 => if s.hasKey (s.latch quad) then .here a else .keyless
  | _ => .here a

/-- The local byte that a flat address names: what names this device as remote is looped back (R22). -/
def homeAddr (a : Nat) : Nat :=
  if regionOf a = 1 ∧ a / 2 ^ 40 % 1024 = Config.devNumber.toNat then a % 2 ^ 40 else a

/-- Where a code word is read: at its home, also when it names this device as remote (R22); what another device, or a slice without the
key, answers is not known here. -/
def State.codeHome (s : State) (w : Wg) (a : Nat) : Option Nat :=
  match s.homeOf w.quad (s.tagOf w) .x a 4 with
  | .here b => some b
  | _ => none

/-- Fetch the word at a key: it must be translated with access X; a word that is not known here is a free value (log 8). It is always the
word that memory holds now (R63, log 89). -/
def State.fetch (s : State) (w : Wg) (key : Nat) : Except FaultInfo Word :=
  match s.launchOf w with
  | none => .error ⟨cProtect, 0, 0⟩
  | some l =>
    let va := codeAddr l key
    match s.translate w .x false va 4 with
    | .error e => .error e
    | .ok (.mem a) =>
      match s.codeHome w a with
      | some b => .ok (BitVec.ofNat 32 (s.readNat b 4))
      | none => .ok (BitVec.ofNat 32 (leNat ((List.range 4).map fun i => Config.freeByte (s.freeCtr + 2 ^ 19 + 4 * key + i))))
    | .ok _ => .error (protectAt 0x4 .x va)

def ublkWord : Word := 0x00400000#32

/-- Whether the instruction at a key is `UBLK` (R37). -/
def State.keyUniform (s : State) (w : Wg) (key : Nat) : Bool :=
  match s.fetch w key with
  | .ok x => x = ublkWord
  | .error _ => false

/-! ### The eyelet table (R37-R40) -/

def coreEntries (s : State) (core : Nat) : Nat := (s.entries.filter fun e => e.core = core).length

def State.coreSpilled (s : State) (core : Nat) : Bool :=
  s.wgs.any fun w => decide (w.core = core) && w.isActive && w.threads.any (·.spilled)

def maskBit (tid : Nat) : BitVec 256 := BitVec.ofNat 256 (2 ^ (tid % 256))

/-- An arrival of a thread at a key (R38): into the entry of its (key, slot, chunk), else into a new entry,
else spilled. `sched` is the scheduling hint of the arrival (R76). -/
def State.arrive (s : State) (uid tid key : Nat) (on : WaitOn) (sched : Option (Bool × BitVec 16)) : State :=
  match s.wg? uid with
  | none => s
  | some w =>
    let chunk := tid / 256
    let here := fun e : Entry => decide (e.core = w.core) && decide (e.key = key) && decide (e.slot = w.slot) &&
      decide (e.chunk = chunk)
    let put := fun spilled (s : State) =>
      s.onThread uid tid fun t => { t with place := .waiting key on, spilled := spilled }
    if s.entries.any here then
      put false { s with entries := s.entries.map fun e => if here e then { e with mask := e.mask ||| maskBit tid } else e }
    else if ¬ s.coreSpilled w.core ∧ coreEntries s w.core < 256 then
      let e : Entry :=
        { core := w.core, key := key, slot := w.slot, chunk := chunk, passes := 0, age := 0
          fill := match sched with
            | some (false, n) => n.toNat
            | _ => 0
          ageLimit := match sched with
            | some (true, n) => n.toNat
            | _ => 0
          mask := maskBit tid }
      put false { s with entries := s.entries ++ [e] }
    else put true (s.count (s.tagOf w) 0x04 1)

/-- The least of a list of triples in lexicographic order. -/
def leastTriple : List (Nat × Nat × Nat) → Option (Nat × Nat × Nat)
  | [] => none
  | x :: xs =>
    match leastTriple xs with
    | none => some x
    | some y =>
      if x.1 < y.1 ∨ (x.1 = y.1 ∧ (x.2.1 < y.2.1 ∨ (x.2.1 = y.2.1 ∧ x.2.2 ≤ y.2.2))) then some x else some y

def Thread.key? (t : Thread) : Option Nat :=
  match t.place with
  | .waiting k _ => some k
  | _ => none

/-- The spilled (key, slot, chunk) triples of a core. -/
def State.spilledTriples (s : State) (core : Nat) : List (Nat × Nat × Nat) :=
  (s.wgs.filter fun w => decide (w.core = core) && w.isActive).flatMap fun w =>
    w.threads.filterMap fun t =>
      if t.spilled then t.key?.map fun k => (k, w.slot, t.tid / 256) else none

/-- Move one spilled triple into a free entry (R40); one that a restore has left out comes back with its age, passes and overrides
(R57, log 87). -/
def State.unspillOne (s : State) (core : Nat) : State :=
  if 256 ≤ coreEntries s core then s
  else
    match leastTriple (s.spilledTriples core) with
    | none => s
    | some (k, slot, chunk) =>
      match s.wgs.find? fun w => decide (w.core = core) && w.isActive && decide (w.slot = slot) with
      | none => s
      | some w =>
        let take := fun t : Thread => t.spilled && decide (t.key? = some k) && decide (t.tid / 256 = chunk)
        let mask := (w.threads.filter take).foldl (fun m t => m ||| maskBit t.tid) 0#256
        let back := fun e : Entry => decide (e.key = k) && decide (e.chunk = chunk)
        let e : Entry := match w.savedEntries.find? back with
          | some e => { e with core := core, slot := slot, mask := mask }
          | none => ⟨core, k, slot, chunk, 0, 0, 0, 0, mask⟩
        { s.onWg w.uid fun w => { w with
            threads := w.threads.map fun t => if take t then { t with spilled := false } else t
            savedEntries := w.savedEntries.filter fun e => !back e } with
          entries := s.entries ++ [e] }

def State.unspill (s : State) (core : Nat) : Nat → State
  | 0 => s
  | n + 1 => if s.coreSpilled core then (s.unspillOne core).unspill core n else s

/-- Take threads of a workgroup out of every entry and spill word (R38, R40): entries left empty are freed. -/
def State.leaveEntries (s : State) (w : Wg) (tids : List Nat) : State :=
  let clear := fun e : Entry =>
    if e.core = w.core ∧ e.slot = w.slot then
      { e with mask := tids.foldl (fun m t => if t / 256 = e.chunk then m &&& ~~~ maskBit t else m) e.mask }
    else e
  let s1 := { s with entries := (s.entries.map clear).filter fun e => e.mask ≠ 0#256 }
  let s2 := s1.onWg w.uid fun w =>
    { w with threads := w.threads.map fun t => if tids.contains t.tid then { t with spilled := false } else t }
  s2.unspill w.core 256

/-! ### Hints, registers at the end of a run -/

/-- Write a register of the bank: it is dead no longer (R76). Registers the bank does not list yet are zero. -/
def Thread.bankSet (t : Thread) (n : Nat) (x : Reg) : Thread :=
  { t with
    bank := (t.bank ++ List.replicate (n + 1 - t.bank.length) (⟨0, none⟩ : Reg)).set n x
    dead := t.dead.filter fun d => d.1 ≠ n }

/-- Write the words of one window entry to the bank (R108). -/
def Thread.bankSetAll (t : Thread) (n : Nat) : List Reg → Thread
  | [] => t
  | x :: xs => (t.bankSet n x).bankSetAll (n + 1) xs

/-- Every result still in the window goes to the bank, oldest first (R48, R108). -/
def Thread.flush (t : Thread) : Thread :=
  { t.win.foldr (fun e u => u.bankSetAll e.reg e.vals) t with win := [] }

/-- At block end a thread's results are written and its pending hints cleared (R48, R71); a `TRET.RETRY`
reinstates the saved hints for the word it returns to (R79). -/
def Thread.endBlock (t : Thread) : Thread :=
  if t.resume then { t.flush with hints := t.saved.getD Hints.none, saved := none, resume := false }
  else { t.flush with hints := Hints.none }

/-! ### Fault records (R340, R341) -/

/-- The chunk mask of some threads. -/
def chunkMask (tids : List Nat) (chunk : Nat) : BitVec 256 :=
  tids.foldl (fun m t => if t / 256 = chunk then m ||| maskBit t else m) 0#256

def FaultClass.code : FaultClass → Nat
  | .user => 0
  | .runtime => 1
  | .system => 2
  | .debug => 3

/-- Post a record to its tenant's fault ring through CW3 (R321). -/
def State.postFault (s : State) (r : FaultRec) : State :=
  s.onTenant r.tag fun t => { t with pendFaults := t.pendFaults ++ [r] }

/-- Whether the partition's debug mailbox frame is bound to a tenant (R347). -/
def State.mailboxOf (s : State) (t : Tag) : Option Nat :=
  let f := (fld (s.cfgGet (0x04000000 + Tag.part t)) 0 24).toNat
  if s.checkTag t 6 f then some f else none

/-- Post a record of class debug: to the mailbox when it belongs to the launch's tenant, else to the tenant's
ring (R339, R347). -/
def State.postDebug (s : State) (r : FaultRec) : State :=
  match s.mailboxOf r.tag with
  | some _ => { s with pendDebug := s.pendDebug ++ [(Tag.part r.tag, r)] }
  | none => s.postFault r

/-- One record for each chunk that holds a thread of `tids` (R341). -/
def State.postRecords (s : State) (w : Wg) (cls : FaultClass) (cause : Nat) (fpc finfo : Word) (addr : DWord)
    (tids : List Nat) : State :=
  (List.range 8).foldl (fun s c =>
    let m := chunkMask tids c
    if m = 0#256 then s
    else
      let r : FaultRec :=
        { cause := cause, cls := cls.code, chunk := c, slot := w.slot, core := w.core, quad := w.quad
          launch := w.launch, fpc := fpc, finfo := finfo, tag := s.tagOf w, addr := addr, mask := m }
      if cls = .debug then s.postDebug r else s.postFault r) s

/-! ### Stamps, notices and losses (R231, R248, R321, R333) -/

/-- A stamp area completes (R231, R248): the status and info words are written, then the stamp is incremented. -/
def State.bumpStamp (s : State) (a : Nat) (status info : Nat) : State :=
  let s1 := s.writeNat (a + 8) 8 (status + info % 2 ^ 32 * 2 ^ 32)
  s1.writeNat a 8 (s1.readNat a 8 + 1)

/-- The status and info words alone. -/
def State.stampStatus (s : State) (a : Nat) (status info : Nat) : State :=
  s.writeNat (a + 8) 8 (status + info % 2 ^ 32 * 2 ^ 32)

/-- A tenant's notice stamp: 0 faults, 16 recalls, 32 losses (R319, R321). -/
def State.bumpNotice (s : State) (t : Tenant) (o : Nat) : State := s.bumpStamp (t.notice + o) 0 0

/-- Write a loss record: CW2 keeps the last 256, and the loss stamp counts every one (R321, R333); a stamp beside an ABSENT die is raised
when that is attached again. -/
def State.addLoss (s : State) (tag : Tag) (r : LossRec) : State :=
  match s.tenant? tag with
  | none => s
  | some t =>
    let s1 := s.onTenant tag fun t =>
      { t with losses := (t.losses ++ [r]).drop (t.losses.length + 1 - 256), lossSeq := t.lossSeq + 1 }
    if s.hbmOut t.notice then s1.onTenant tag fun t => { t with owedLoss := t.owedLoss + 1 } else s1.bumpNotice t 32

/-- Loss stamps that had to wait for the HBM their notice area lies in are raised (R321, R386). -/
def State.payLosses (s : State) : State :=
  s.tenants.foldl (fun (s : State) t =>
    if t.owedLoss = 0 ∨ s.hbmOut t.notice then s
    else (List.range t.owedLoss).foldl (fun (s : State) _ => s.bumpNotice t 32)
      (s.onTenant t.tag fun t => { t with owedLoss := 0 })) s

/-- Four free bytes as a word (log 4). -/
def State.freeWord (s : State) (k : Nat) : Word :=
  Config.freeByte (s.freeCtr + 4 * k) ++ Config.freeByte (s.freeCtr + 4 * k + 1) ++
    Config.freeByte (s.freeCtr + 4 * k + 2) ++ Config.freeByte (s.freeCtr + 4 * k + 3)

/-- Free bytes: what another device, or a slice without a key, answers (log 8). -/
def State.freeBytes (s : State) (k : Nat) : Nat → List Byte
  | 0 => []
  | n + 1 => Config.freeByte (s.freeCtr + k) :: s.freeBytes (k + 1) n

/-! ### Worlds (R359, R360) -/

/-- The provenance of data read without a key and by a refused remote read (R373). -/
def poisonNoKey : BitVec 12 := 0xA00#12
def poisonRemote : BitVec 12 := 0x900#12

/-! ### Barriers (R185-R188) -/

/-- Which group of a scope a workgroup belongs to (R186): the workgroup, the gang, the launch on its die, the
launch. -/
def State.barrierInst (s : State) (w : Wg) (scope : Nat) : Nat :=
  match scope with
  | 0 => w.uid
  | 1 => w.gang
  | 2 => match s.gang? w.gang with
    | some g => w.launch * 2 + g.die
    | none => w.launch * 2
  | _ => w.launch

def State.inScope (s : State) (scope inst : Nat) (w : Wg) : Bool := s.barrierInst w scope = inst

/-- Whether a scope counts a gang that has never been placed, which has arrived in no phase (R186). -/
def State.unplacedIn (s : State) (scope inst : Nat) : Bool :=
  match scope with
  | 0 => false
  | 1 => false
  | 2 => s.gangs.any fun g => g.status = .never && decide (g.launch * 2 + g.die = inst)
  | _ => s.gangs.any fun g => g.status = .never && decide (g.launch = inst)

/-- Whether another device has registered a launch's podid: POD barriers and collectives count it from then on (R391). -/
def State.othersRegistered (s : State) (l : Launch) : Bool :=
  s.podRegs.any fun r => decide (r.podid = l.podid) && r.devs.any fun d => decide (d ≠ Config.devNumber.toNat)

/-- Whether the participants on other devices of a POD barrier have arrived: another device's progress is
not in this state, so it is a free choice (log 8). -/
def State.otherDevices (s : State) (scope inst : Nat) : Bool :=
  if scope = 4 then
    match s.launch? inst with
    | some l => decide (l.poddevs ≤ 1) || !s.othersRegistered l || s.choose 0
    | none => true
  else true

/-- Whether every participant of a barrier has arrived or exited (R187). -/
def State.phaseComplete (s : State) (b : Barrier) : Bool :=
  !b.arrived.isEmpty && !s.unplacedIn b.scope b.inst && s.otherDevices b.scope b.inst &&
    (s.wgs.filter (s.inScope b.scope b.inst)).all fun w =>
      w.threads.all fun t => !t.live || b.arrived.contains (w.uid, t.tid)

/-- Whether a thread waits in `BAR.SYNC` or `BAR.WAIT` of the current phase of a barrier. -/
def Thread.waitsAt (b : Barrier) (t : Thread) : Bool :=
  match t.place with
  | .waiting _ (.barrier scope id _ false ph) => decide (scope = b.scope) && decide (id = b.id) && decide (ph = b.phase)
  | _ => false

/-- A refused store or `RED` is discarded, counted as a loss and reported (R206, R333, R340): it names the device that refused, this
one where the other die is absent (R383). -/
def State.refusedWrite (s : State) (w : Wg) (tid : Option Nat) (pc : Nat) (k : AccKind) (a : Nat) (va : DWord) : State :=
  let dev := if regionOf a = 0 then Config.devNumber.toNat else a / 2 ^ 40 % 1024
  let s1 := s.addLoss (s.tagOf w) ⟨0, 2, BitVec.ofNat 32 dev, BitVec.ofNat 64 s.ns, va, 0⟩
  s1.postFault
    { cause := 0x22, cls := 1, chunk := (tid.getD 0) / 256, slot := w.slot, core := w.core, quad := w.quad
      launch := w.launch, fpc := BitVec.ofNat 32 (4 * pc), finfo := BitVec.ofNat 32 (dev + k.code * 1024)
      tag := s.tagOf w, addr := va, mask := chunkMask tid.toList ((tid.getD 0) / 256) }

/-- A write without a key is discarded and reported (R360); the manual names an ENGINE_FAIL or a fault record, the
model posts ENGINE_FAIL with a free `finfo` (log 10). -/
def State.keylessWrite (s : State) (w : Wg) (va : DWord) : State :=
  s.postFault
    { cause := 0x20, cls := 1, chunk := 0, slot := 0, core := 0xFFFF, quad := w.quad, launch := w.launch
      fpc := 0, finfo := s.freeWord 0, tag := s.tagOf w, addr := va, mask := 0 }

/-- Perform the store of some bytes of a workgroup where its home answers (R206, R221, R360): one refusal stands for the whole access,
whose address `va` is. The storing core owns the words also when it names them as remote (log 95). -/
def State.storeAt (s : State) (w : Wg) (tid : Option Nat) (pc a : Nat) (va : DWord) (data : List Byte) (p : Poison) : State :=
  match s.homeOf w.quad (s.tagOf w) .w a data.length with
  | .here b => s.perform b data p (w.core + 1)
  | .keyless => s.keylessWrite w va
  | .other => s
  | .refused => s.refusedWrite w tid pc .w a va

/-- The masked bytes of a held sector at their home, one by one: poisoned ones first, so that clean bytes stay clean in their granule
(R373, R377). A sector is refused as one, also by another device, whose answer is a free choice (log 96). -/
def State.performHeld (s : State) (w : Wg) (h : HeldSector) : State :=
  let put := fun (b : Nat) (bad : Bool) (s : State) (i : Nat) =>
    let p := h.poison.getD i none
    if h.mask.getLsbD i ∧ p.isSome = bad then s.perform (b + i) [h.data.getD i 0] p (w.core + 1) else s
  if h.mask = 0#32 then s
  else
    match s.homeOf w.quad (s.tagOf w) .w h.addr 32 with
    | .here b => (List.range 32).foldl (put b false) ((List.range 32).foldl (put b true) s)
    | .keyless => s.keylessWrite w h.va
    | .other => if s.choose (2 ^ 17 + h.addr / 32 % 2 ^ 16) then s.refusedWrite w none 0 .w h.addr h.va else s
    | .refused => s.refusedWrite w none 0 .w h.addr h.va

/-- Bytes listed in an area of memory. -/
def memArea (m : List Host.Cell) (lo n : Nat) : List (Nat × Byte) :=
  m.filter fun c => decide (lo ≤ c.1) && decide (c.1 < lo + n)

/-- What a rollback of a guarded workgroup restores (R377, R378): registers, frames, scratch, visible banks, and the barriers of the
workgroup as they stand when the phase that ends the interval has completed. -/
def State.snapshot (s : State) (w : Wg) : Shadow :=
  let (lo, n) := match s.gang? w.gang with
    | some g => (sramBase (w.quad * 16 + g.bank0), s.visibleBanks g * 2 ^ 17)
    | none => (0, 0)
  let sc := scratchBase w.uid
  { threads := w.threads, quota := w.quota, commons := w.commons, addrs := w.addrs, tvec := w.tvec
    common := w.common, scratch := memArea s.mem sc (2 ^ 19), banks := memArea s.mem lo n
    poison := s.memPoison.filter fun c => (decide (sc ≤ c.1) && decide (c.1 < sc + 2 ^ 19)) ||
      (decide (lo ≤ c.1) && decide (c.1 < lo + n))
    barriers := (s.barriers.filter fun b => s.inScope b.scope b.inst w).map fun b =>
      if b.scope = 0 ∧ s.phaseComplete b then { b with phase := b.phase + 1, arrived := [] } else b }

/-- Whether a workgroup's twin still runs with it (R379). -/
def State.paired (s : State) (w : Wg) : Bool :=
  (w.twin.bind s.wg?).any fun q => match q.status with
    | .finished _ _ => false
    | _ => true

/-- A boundary (R377): every held store is performed (`mine` is false for the twin, whose held stores are
never performed, R379), then the shadow is renewed. -/
def State.boundary (s : State) (uid : Nat) (mine : Bool) : State :=
  match s.wg? uid with
  | none => s
  | some w =>
    let s1 := if mine then w.held.foldl (fun (s : State) h => s.performHeld w h) s else s
    let s2 := s1.onWg uid fun w => { w with held := [], rolled := false, mismatched := false }
    match s2.wg? uid with
    | none => s2
    | some w => s2.onWg uid fun v => { v with shadow := some (s2.snapshot w) }

/-- Whether completing this barrier's phase is a boundary of a guarded workgroup (R377). -/
def State.isBoundary (s : State) (b : Barrier) : Option Wg :=
  if b.scope = 0 then
    match s.wg? b.inst with
    | some w =>
      let guarded : Bool := match s.launchOf w with
        | some l => l.guarded
        | none => false
      if guarded ∧ w.threads.all (fun t => !t.live || t.waitsAt b) then some w else none
    | none => none
  else none

/-- A phase completes (R187): the next begins with no arrivals, and every thread that waits for it becomes
ready and acquires. -/
def State.completePhase (s : State) (b : Barrier) : State :=
  let woken := s.wgs.filter fun w => s.inScope b.scope b.inst w && w.threads.any (Thread.waitsAt b)
  let s1 := { s with
    barriers := s.barriers.map fun x =>
      if x.scope = b.scope ∧ x.inst = b.inst ∧ x.id = b.id then { x with phase := b.phase + 1, arrived := [] } else x
    wgs := s.wgs.map fun w =>
      if s.inScope b.scope b.inst w then
        { w with threads := w.threads.map fun t =>
            if t.waitsAt b then
              match t.place with
              | .waiting k _ => { t with place := .waiting k .ready }
              | _ => t
            else t }
      else w }
  woken.foldl (fun s w => s.dropUnowned w.core) s1

/-- Complete every barrier whose participants have all arrived or exited. A boundary comes before any thread
wakes; twins first exchange signatures (`TWIN_SIGNATURE_EXCHANGE`), one whose twin has ended goes on alone (log 78). -/
def State.settleBarriers (s : State) : State :=
  s.barriers.foldl (fun s b =>
    if s.phaseComplete b then
      match s.isBoundary b with
      | some w => if s.paired w then s else (s.boundary w.uid w.primary).completePhase b
      | none => s.completePhase b
    else s) s

/-! ### Ending a workgroup (R339, R352) -/

/-- The place to which a thread of a run in progress has been sent by the block's last instruction (R48). -/
def State.parkedAt (s : State) (w : Wg) (tid : Nat) : Option Place :=
  (s.runs.filter fun r => r.wg = w.uid).findSome? fun r => (r.parked.find? fun p => p.tid = tid).map fun p => p.place

/-- Whether a thread has not executed `EXIT` (R32): one that has may still stand in a run in progress. -/
def State.alive (s : State) (w : Wg) (t : Thread) : Bool := t.live && decide (s.parkedAt w t.tid ≠ some .exited)

/-- Where a thread stands, as a byte offset from the code base (R352). -/
def State.standsAt (s : State) (w : Wg) (t : Thread) : Nat :=
  match t.place with
  | .waiting k _ => 4 * k
  | .held _ => t.fpc.toNat
  | .exited => 0
  | .running =>
    match s.parkedAt w t.tid with
    | some (.waiting k _) => 4 * k
    | some _ => 0
    | none =>
      match s.runs.find? fun r => decide (r.wg = w.uid) && r.groups.any (·.contains t.tid) with
      | none => t.fpc.toNat
      | some r =>
        let g := r.groups.findIdx (·.contains t.tid)
        4 * (r.key + r.idx + if g < r.grp then 1 else 0)

/-- Remove threads from a workgroup's runs; a run left with no thread ends (R52, R88). -/
def Run.without (r : Run) (tids : List Nat) : Run :=
  { r with groups := r.groups.map (·.filter fun t => !tids.contains t)
           parked := r.parked.filter fun p => !tids.contains p.tid }

/-- Units being made quiet when a workgroup ends: a `RELINQ` of a runtime wave that ends with it frees its core or queue slot no more
(R327); a recall that still wants one begins again. -/
def State.stillQuieting (s : State) (w : Wg) : List (Nat × Nat) :=
  s.quieting.filter fun q => !(s.isWave w && (decide (q.1 = 1) || decide (q.1 = 8)) && decide (s.tagGet q.1 q.2 = s.tagOf w))

/-- Translation entries when a workgroup ends: a removal that a runtime wave has begun and not finished is given up with it (R210, R327);
what CW2 removes for a request begins again. -/
def State.stillMapped (s : State) (w : Wg) : Table (Option TEntry) :=
  if s.isWave w then s.tlb.map fun e => (e.1, e.2.map fun t => if t.tag = s.tagOf w then { t with leaving := false } else t) else s.tlb

/-- End a workgroup: every thread leaves its run, entry or held set and becomes exited (R339); the entries of a saved one have left
the core with it. Held stores of guarded execution are discarded (log 21). -/
def State.terminate (s : State) (uid ended cause : Nat) (fpc finfo : Word) : State :=
  match s.wg? uid with
  | none => s
  | some w =>
    match w.status with
    | .finished _ _ => s
    | _ =>
      let pcs := (w.threads.filter (s.alive w)).map (s.standsAt w)
      let s1 := if w.status = .preempted then s else s.leaveEntries w (w.threads.map (·.tid))
      let s2 := { s1 with runs := s1.runs.filter fun r => r.wg ≠ uid }
      (({ s2 with quieting := s2.stillQuieting w, tlb := s2.stillMapped w } : State).onWg uid fun w =>
        { w with
          status := .finished ⟨ended, cause, fpc, finfo, pcs⟩ false, away := decide (w.status = .preempted)
          held := []
          threads := w.threads.map fun t => { t.endBlock with place := .exited, spilled := false } }).settleBarriers

/-- A workgroup stops to be rolled back (R378): its threads leave their runs and entries until the operations
in flight have completed and `GUARD_ROLLBACK` restores it. -/
def State.beginRollback (s : State) (uid : Nat) : State :=
  match s.wg? uid with
  | none => s
  | some w =>
    if ¬ w.isActive then s
    else
      let s1 := s.leaveEntries w (w.threads.map (·.tid))
      let s2 := { s1 with runs := s1.runs.filter fun r => r.wg ≠ uid }
      s2.onWg uid fun w => { w with status := .rollingBack }

/-- A fault of class system (R339): a guarded workgroup that consumes poison is rolled back once per interval
(R378), every other one is terminated. -/
def State.systemFault (s : State) (w : Wg) (cause : Nat) (fpc finfo : Word) : State :=
  let guarded : Bool := match s.launchOf w with
    | some l => l.guarded
    | none => false
  if cause = cPoison ∧ guarded ∧ ¬ w.rolled then
    let back := fun (s : State) (u : Nat) => (s.beginRollback u).onWg u fun w => { w with rolled := true }
    match w.twin with
    | some u => back (back s w.uid) u
    | none => back s w.uid
  else s.terminate w.uid 1 cause fpc finfo

/-! ### Taking a fault (R88, R338, R339) -/

/-- One thread's part of a fault at the word at offset `pc` (in words): the saved registers, the saved hints;
the thread leaves its run. -/
def Thread.takeFault (pc : Nat) (lanes : Word) (f : FaultInfo) (t : Thread) : Thread :=
  { t.flush with
    fpc := BitVec.ofNat 32 (4 * pc)
    fcause := BitVec.ofNat 32 f.cause
    finfo := f.info
    fmask := lanes
    faddr := f.addr
    suppress := false
    saved := some t.hints
    hints := Hints.none }

/-- Where a fault is delivered (R339): a user fault enters the handler only when `%tvec` is enabled and the
thread is not in it; a runtime fault of the runtime wave is of class system. -/
def State.delivery (s : State) (w : Wg) (t : Thread) (cause : Nat) : FaultClass :=
  match classOf cause with
  | .user => if w.tvec.getLsbD 0 ∧ ¬ t.inTrap then .user else .system
  | .runtime => if s.isWave w then .system else .runtime
  | c => c

/-- The handler's key (R127). -/
def Wg.tvecKey (w : Wg) : Nat := (fld w.tvec 2 24).toNat

/-- Home lanes of some threads (R88). -/
def laneMask (tids : List Nat) : Word := tids.foldl (fun m t => m ||| BitVec.ofNat 32 (2 ^ (t % 32))) 0#32

/-- Deliver the fault of one thread that has already taken it; a scheduling hint of the word applies to the arrival at the handler
(R76), but that of a floating-point instruction is discarded (R153). -/
def State.deliver (s : State) (uid tid : Nat) (cls : FaultClass) : State :=
  match s.wg? uid with
  | none => s
  | some w =>
    match cls with
    | .user =>
      let sched := (w.thread? tid).bind fun t =>
        if t.fcause = BitVec.ofNat 32 cFp then none else t.saved.bind fun h => h.sched
      (s.onThread uid tid fun t => { t with inTrap := true }).arrive uid tid w.tvecKey .ready sched
    | .runtime => s.onThread uid tid fun t => { t with place := .held .runtime }
    | .debug => s.onThread uid tid fun t => { t with place := .held .debug }
    | .system => s

/-- The records of threads that fault in one issue with one cause and class: one for each chunk, with the `%finfo` and address of
its first (R340, R341). -/
def State.postChunks (s : State) (w : Wg) (cls : FaultClass) (cause : Nat) (fpc : Word) (fs : List (Nat × FaultInfo)) : State :=
  (List.range 8).foldl (fun (s : State) c =>
    match fs.filter fun f => f.1 / 256 = c with
    | [] => s
    | f :: r => s.postRecords w cls cause fpc f.2.info f.2.addr (f.1 :: r.map (·.1))) s

/-- The faults of some threads of one issue (R88): `lanes` gives for each thread the faulting lanes of its
group. Every thread takes its fault and leaves the run; then each is delivered, records are posted one per
chunk, cause and class, every fault is counted (R353), and a fault of class system ends the workgroup. `uniform` marks a fault of a
uniform instruction's own operation, which is of class system whatever its cause (R175). -/
def State.raise (s : State) (uniform : Bool) (uid pc : Nat) (fs : List (Nat × Word × FaultInfo)) : State :=
  match s.wg? uid with
  | none => s
  | some w =>
    if fs.isEmpty then s
    else
      let tids := fs.map (·.1)
      let cls := fun (tid cause : Nat) => match w.thread? tid with
        | some t => if uniform then .system else s.delivery w t cause
        | none => .system
      let ds := fs.map fun (tid, _, f) => (tid, cls tid f.cause, f)
      let s1 := s.onWg uid fun w =>
        { w with threads := w.threads.map fun t =>
            match fs.find? fun f => f.1 = t.tid with
            | some (_, lanes, f) => t.takeFault pc lanes f
            | none => t }
      let s2 := { s1 with runs := s1.runs.map fun r => if r.wg = uid then r.without tids else r }
      let s3 := ds.foldl (fun s (tid, c, _) => s.deliver uid tid c) s2
      let s4 := ds.foldl (fun s (_, _, f) =>
        (s.count (s.tagOf w) 0x0E 1).count (s.tagOf w) (if f.cause = cTbMiss then 0x09 else 0x100) 1) s3
      let pairs := (ds.map fun (_, c, f) => (c, f.cause)).eraseDups
      let s5 := pairs.foldl (fun s (c, cause) =>
        if c = .user then s
        else s.postChunks w c cause (BitVec.ofNat 32 (4 * pc))
          ((ds.filter fun (_, c', f) => c' = c ∧ f.cause = cause).map fun (t, _, f) => (t, f))) s4
      match ds.find? fun (_, c, _) => c = .system with
      | none => s5
      | some (_, _, f) => s5.systemFault w f.cause (BitVec.ofNat 32 (4 * pc)) f.info

/-- A code fetch fails for some threads (R35): no word of the instruction at which they were released has issued, so their suppression
bits stay (R345). -/
def State.raiseFetch (s : State) (uid pc : Nat) (fs : List (Nat × Word × FaultInfo)) : State :=
  let kept := fun n : Nat => fs.any (fun f => decide (f.1 = n)) && (s.wg? uid).any fun w => w.threads.any fun t => decide (t.tid = n) && t.suppress
  (s.raise false uid pc fs).onWg uid fun w =>
    { w with threads := w.threads.map fun t => if kept t.tid then { t with suppress := true } else t }

/-! ### Leaving a fault (R79, R342) -/

/-- Return to a key, with the saved hints reinstated for the word at `%fpc`, or dropped; `sched` is the scheduling hint of the
instruction that brings the arrival about (R76). -/
def State.resumeAt (s : State) (uid tid key : Nat) (retry : Bool) (sched : Option (Bool × BitVec 16)) : State :=
  (s.onThread uid tid fun t =>
    { t with hints := if retry then t.saved.getD Hints.none else Hints.none, saved := none }).arrive uid tid key .ready sched

/-! ### Outstanding-operation counters (R89) -/

inductive CntClass where
  | load | store (col : Nat) | copy (col : Nat) | matrix | coll
deriving DecidableEq, Repr

def bumpAt (l : List Nat) (i : Nat) (d : Int) : List Nat := l.set i ((l.getD i 0 : Int) + d).toNat

def Counters.add (c : Counters) (k : CntClass) (d : Int) : Counters :=
  match k with
  | .load => { c with loads := (c.loads + d).toNat }
  | .store j => { c with stores := (c.stores + d).toNat, storeCol := bumpAt c.storeCol j d }
  | .copy j => { c with copies := (c.copies + d).toNat, copyCol := bumpAt c.copyCol j d }
  | .matrix => { c with matrix := (c.matrix + d).toNat }
  | .coll => { c with colls := (c.colls + d).toNat }

def Counters.ofClass (c : Counters) : CntClass → Nat
  | .load => c.loads
  | .store _ => c.stores
  | .copy _ => c.copies
  | .matrix => c.matrix
  | .coll => c.colls

/-- The stall reason of a full counter (R89). -/
def CntClass.reason : CntClass → Nat
  | .load => 2
  | .store _ => 3
  | .copy _ => 4
  | .matrix => 5
  | .coll => 6

def Counters.isZero (c : Counters) : Bool :=
  decide (c.loads = 0) && decide (c.stores = 0) && decide (c.copies = 0) && decide (c.matrix = 0) && decide (c.colls = 0)

/-- Add to a thread's counter, or to the common counter of its workgroup. -/
def State.counter (s : State) (uid : Nat) (tid : Option Nat) (k : CntClass) (d : Int) : State :=
  match tid with
  | some t => s.onThread uid t fun x => { x with cnt := x.cnt.add k d }
  | none => s.onWg uid fun w => { w with common := w.common.add k d }

/-- Whether the thresholds of a `WAIT` are met (R33, R184). -/
def meets (c common : Counters) (uni : Bool) (nl ns nc nm nx : Nat) : Bool :=
  let ok := fun (c : Counters) => decide (c.loads ≤ nl) && decide (c.stores ≤ ns) && decide (c.copies ≤ nc) &&
    decide (c.matrix ≤ nm) && decide (c.colls ≤ nx)
  ok c && (!uni || ok common)

/-- Threads of a workgroup whose `WAIT` is now met become ready; such a wait that covers engine work is an
acquire (R184, R231). -/
def State.wakeWaits (s : State) (uid : Nat) : State :=
  match s.wg? uid with
  | none => s
  | some w =>
    let met := fun t : Thread => match t.place with
      | .waiting _ (.counters nl ns nc nm nx uni _) => meets t.cnt w.common uni nl ns nc nm nx
      | _ => false
    let acq := w.threads.any fun t => met t && match t.place with
      | .waiting _ (.counters _ _ _ _ _ _ a) => a
      | _ => false
    let s1 := s.onWg uid fun w =>
      { w with threads := w.threads.map fun t =>
          match t.place with
          | .waiting k (.counters nl ns nc nm nx uni a) =>
            if meets t.cnt w.common uni nl ns nc nm nx then { t with place := .waiting k .ready }
            else { t with place := .waiting k (.counters nl ns nc nm nx uni a) }
          | _ => t }
    if acq then s1.dropUnowned w.core else s1

/-- An operation completes: its counter is lowered and waits are looked at (R89). -/
def State.complete (s : State) (uid : Nat) (tid : Option Nat) (k : CntClass) : State :=
  (s.counter uid tid k (-1)).wakeWaits uid

/-! ### Identifiers and the outcome of an event -/

/-- A fresh identifier. -/
def State.fresh (s : State) : Nat × State := (s.nextId, { s with nextId := s.nextId + 1 })

/-- The answer of an event: whatever it did, a run that stalled may try again. -/
def done (s : State) : Host.Outcome State Fault Refusal :=
  .next { s with runs := s.runs.map fun r => { r with stall := none } }

end Sys2Proof.Machine
end

