-- ==== Sys2Proof/Machine/Flags.lean ====
section
/-! DEFINITION. Rounding settings and flags (R139-R143), and every floating-point result, minimum, comparison
and conversion of chapter 07 as a function of bit patterns. -/

namespace Sys2Proof.Machine

/-- The settings an instruction rounds under (R139). -/
structure FpEnv where
  mode : Rnd
  ftz : Bool
  sat : Bool
deriving DecidableEq, Repr

/-- `%mode`.rnd and `%mode`.ftz, with the bits of a pending `HINT.RND` where the hint applies (R139, R153). -/
def Thread.fpEnv (t : Thread) (hinted : Bool) : FpEnv :=
  match (if hinted then t.hints.rnd else none) with
  | some h => ⟨Rnd.ofBits (fld h 0 2).toNat, h.getLsbD 2 || t.mode.getLsbD 2, h.getLsbD 3⟩
  | none => ⟨Rnd.ofBits (fld t.mode 0 2).toNat, t.mode.getLsbD 2, false⟩
where
  fld {w : Nat} (x : BitVec w) (lo n : Nat) : BitVec n := x.extractLsb' lo n

/-- A floating-point result: the pattern, every flag raised, the numeric event (counted by `CVT` alone). -/
structure FpOut where
  bits : Nat
  flags : Flags
  event : Option NumEvent
deriving DecidableEq, Repr

/-- Round an exact value once (R140). FP64 never flushes (R141). -/
def FpEnv.round (e : FpEnv) (f : Fmt) (x : Exact × Flags) : FpOut :=
  let r := f.roundTo e.mode (e.ftz && f ≠ fp64) e.sat x.1
  ⟨r.bits, x.2.union r.flags, r.event⟩

/-- Read a pattern of a format under the settings (R141). -/
def FpEnv.read (e : FpEnv) (f : Fmt) (b : Nat) : Exact := f.read (e.ftz && f ≠ fp64) b

def fpAdd (f : Fmt) (e : FpEnv) (a b : Nat) : FpOut := e.round f (sumTerms e.mode [e.read f a, e.read f b])

def fpSub (f : Fmt) (e : FpEnv) (a b : Nat) : FpOut :=
  e.round f (sumTerms e.mode [e.read f a, (e.read f b).negate])

def fpMul (f : Fmt) (e : FpEnv) (a b : Nat) : FpOut := e.round f ((e.read f a).mul (e.read f b))

/-- ±(a × b) ± c with one rounding (R158). -/
def fpFma (f : Fmt) (e : FpEnv) (negProd negAdd : Bool) (a b c : Nat) : FpOut :=
  let (p, fl) := (e.read f a).mul (e.read f b)
  let p := if negProd then p.negate else p
  let c := if negAdd then (e.read f c).negate else e.read f c
  let (x, fl2) := sumTerms e.mode [p, c]
  e.round f (x, fl.union fl2)

def fpDiv (f : Fmt) (e : FpEnv) (a b : Nat) : FpOut := e.round f ((e.read f a).div (e.read f b))

/-- A function of one operand (R159). -/
def fpUn (f : Fmt) (e : FpEnv) (op : Exact → Exact × Flags) (a : Nat) : FpOut := e.round f (op (e.read f a))

/-- a × 2^n (R162); an infinity returns as it is. -/
def fpScale (e : FpEnv) (a : Nat) (n : Int) : FpOut :=
  match e.read fp32 a with
  | .inf s => ⟨fp32.signBit s + fp32.infBits, .none, none⟩
  | x => e.round fp32 (x.scaleBy n)

/-- A pattern after flush-to-zero (R141). -/
def flushBits (f : Fmt) (ftz : Bool) (b : Nat) : Nat :=
  if ftz && f ≠ fp64 && f.subnormal b then f.signBit (b / 2 ^ (f.eb + f.fb) % 2 = 1) else b

/-- The minimum and maximum forms of R157: `top` picks the larger, `prop` propagates a NaN. -/
def fpMinMax (f : Fmt) (ftz top prop : Bool) (a b : Nat) : FpOut :=
  let a := flushBits f ftz a
  let b := flushBits f ftz b
  let x := f.value a
  let y := f.value b
  let fl : Flags := if x.snan || y.snan then .invalid else .none
  let r :=
    if x.isNan && y.isNan then f.nanBits
    else if x.isNan then (if prop then f.nanBits else b)
    else if y.isNan then (if prop then f.nanBits else a)
    else if x.atMost y then (if top then b else a)
    else (if top then a else b)
  ⟨r, fl, none⟩

/-- Two halves, each its own operation (R165); the flags are the union (R142). -/
def packed (f : Nat → Nat → Nat → FpOut) (a b c : Nat) : FpOut :=
  let lo := f (a % 65536) (b % 65536) (c % 65536)
  let hi := f (a / 65536 % 65536) (b / 65536 % 65536) (c / 65536 % 65536)
  ⟨hi.bits * 65536 + lo.bits, lo.flags.union hi.flags, none⟩

/-- v[vd] + a.0 × b.0 + a.1 × b.1 in FP32, rounded once (R166). -/
def fpDot2 (f : Fmt) (e : FpEnv) (a b c : Nat) : FpOut :=
  let (p, f0) := (e.read f (a % 65536)).mul (e.read f (b % 65536))
  let (q, f1) := (e.read f (a / 65536 % 65536)).mul (e.read f (b / 65536 % 65536))
  let (x, f2) := sumTerms e.mode [e.read fp32 c, p, q]
  e.round fp32 (x, (f0.union f1).union f2)

/-- The class mask of R163. -/
def fpClass (b : Nat) : Nat :=
  let neg := b / 2 ^ 31 % 2 = 1
  match fp32.value b with
  | .nan true => 2 ^ 8
  | .nan false => 2 ^ 9
  | .inf s => if s then 1 else 2 ^ 7
  | .fin _ m _ _ =>
    if m = 0 then (if neg then 2 ^ 3 else 2 ^ 4)
    else if fp32.subnormal b then (if neg then 2 ^ 2 else 2 ^ 5)
    else (if neg then 2 else 2 ^ 6)

/-- FGETEXP of R164. -/
def fpGetExp (ftz : Bool) (b : Nat) : FpOut :=
  match fp32.read ftz b with
  | .nan s => ⟨0x80000000, if s then .invalid else .none, none⟩
  | .inf _ => ⟨0x7FFFFFFF, .none, none⟩
  | .fin _ m e _ => if m = 0 then ⟨0x80000000, .none, none⟩ else ⟨(((m.log2 : Int) + e) % 2 ^ 32).toNat, .none, none⟩

/-- FGETMAN of R164. -/
def fpGetMan (ftz : Bool) (b : Nat) : FpOut :=
  match fp32.read ftz b with
  | .nan s => ⟨fp32.nanBits, if s then .invalid else .none, none⟩
  | .inf s => ⟨fp32.signBit s + fp32.infBits, .none, none⟩
  | .fin s m _ _ =>
    if m = 0 then ⟨fp32.signBit s, .none, none⟩
    else ⟨fp32.signBit s + 127 * 2 ^ 23 + (m * 2 ^ (23 - m.log2) - 2 ^ 23), .none, none⟩

/-- The relation of R168, and whether NV is raised. -/
def fpCompare (f : Fmt) (ftz : Bool) (cc : Nat) (a b : Nat) : Bool × Flags :=
  let x := f.read (ftz && f ≠ fp64) a
  let y := f.read (ftz && f ≠ fp64) b
  let un := x.isNan || y.isNan
  let signals := x.snan || y.snan || (un && decide (2 ≤ cc) && decide (cc ≤ 5))
  let c := x.cmp y
  let eq := decide (c = 0)
  let lt := decide (c < 0)
  let t := match cc with
    | 0 => !un && eq
    | 1 => !un && !eq
    | 2 => !un && lt
    | 3 => !un && (lt || eq)
    | 4 => !un && !(lt || eq)
    | 5 => !un && !lt
    | 6 => !un
    | 7 => un
    | 8 => un || eq
    | 9 => un || !eq
    | 10 => un || lt
    | 11 => un || (lt || eq)
    | 12 => un || !(lt || eq)
    | _ => un || !lt
  (t, if signals then .invalid else .none)

/-- The integer comparison of R123. -/
def intCompare (cc : Nat) (a b : Word) : Bool :=
  match cc with
  | 0 => a = b
  | 1 => a ≠ b
  | 2 => a.slt b
  | 3 => a.sle b
  | 4 => b.slt a
  | 5 => b.sle a
  | 6 => a.ult b
  | 7 => a.ule b
  | 8 => b.ult a
  | _ => b.ule a

/-- Byte k of a word. -/
def byteOf (a k : Nat) : Nat := a / 2 ^ (8 * k) % 256

/-- A word with byte k replaced. -/
def putByte (a k x : Nat) : Nat := a - byteOf a k * 2 ^ (8 * k) + x * 2 ^ (8 * k)

/-- The source type of a conversion code (R169): how many registers it reads. -/
def cvtSrcRegs (code : Nat) : Nat := if code = 0x0C ∨ code = 0x0E then 2 else 1

/-- The 16-bit format that a conversion's source field is read in (R68, R169). -/
def cvtSrcFmt (code : Nat) : Option Fmt :=
  if code = 0x06 ∨ code = 0x07 then some fp16 else if code = 0x09 ∨ code = 0x0A then some bf16 else none

/-- How many registers a conversion writes (R169). -/
def cvtDstRegs (code : Nat) : Nat := if code = 0x0B ∨ code = 0x0D then 2 else 1

/-- Conversion codes that are claimed (R169). -/
def cvtCodeOk (code fn : Nat) : Bool :=
  (decide (1 ≤ code) && decide (code ≤ 0x0E)) ||
  (decide (0x10 ≤ code) && decide (code ≤ 0x17) && decide (fn = 0)) ||
  (decide (0x20 ≤ code) && decide (code ≤ 0x2F))

/-- A signalling NaN read by a conversion raises NV (R170). -/
def Exact.withNv (x : Exact) : Exact × Flags := (x, if x.snan then .invalid else .none)

/-- An integer result of a conversion (R171). -/
def cvtInt (lo hi : Int) (mode : Rnd) (x : Exact) : FpOut :=
  let (v, fl, ev) := roundInt lo hi mode x
  ⟨(v % 2 ^ 32).toNat, (if x.snan then Flags.invalid else .none).union fl, ev⟩

/-- Whether a conversion code carries no rounding and no saturation of its own: the fields are accepted and have no effect (R169). -/
def cvtExact (code : Nat) : Bool :=
  decide (code = 0x06) || decide (code = 0x07) || decide (code = 0x09) || decide (code = 0x0A) || decide (code = 0x0B) ||
    decide (code = 0x0D) || (decide (0x10 ≤ code) && decide (code < 0x28))

/-- A conversion (R169-R171): `a` the source (32 or 64 bits), `d` the old destination word. -/
def cvtResult (code : Nat) (e : FpEnv) (a d : Nat) : FpOut :=
  let s32 := signedOf 32 a
  if code = 0x01 then e.round fp32 (.ofInt s32, .none)
  else if code = 0x02 then e.round fp32 (.ofInt a, .none)
  else if code = 0x03 then cvtInt (-2147483648) 2147483647 e.mode (e.read fp32 a)
  else if code = 0x04 then cvtInt 0 4294967295 e.mode (e.read fp32 a)
  else if code = 0x05 then e.round fp16 (e.read fp32 a).withNv
  else if code = 0x06 then e.round fp32 (e.read fp16 (a % 65536)).withNv
  else if code = 0x07 then e.round fp32 (e.read fp16 (a / 65536)).withNv
  else if code = 0x08 then e.round bf16 (e.read fp32 a).withNv
  else if code = 0x09 then e.round fp32 (e.read bf16 (a % 65536)).withNv
  else if code = 0x0A then e.round fp32 (e.read bf16 (a / 65536)).withNv
  else if code = 0x0B then e.round fp64 (e.read fp32 a).withNv
  else if code = 0x0C then e.round fp32 (e.read fp64 a).withNv
  else if code = 0x0D then e.round fp64 (.ofInt s32, .none)
  else if code = 0x0E then cvtInt (-2147483648) 2147483647 e.mode (e.read fp64 a)
  else if code < 0x14 then ⟨((signedOf 8 (byteOf a (code % 4))) % 2 ^ 32).toNat, .none, none⟩
  else if code < 0x18 then ⟨byteOf a (code % 4), .none, none⟩
  else if code < 0x24 then e.round fp32 (e4m3.value (byteOf a (code % 4))).withNv
  else if code < 0x28 then e.round fp32 (e5m2.value (byteOf a (code % 4))).withNv
  else
    let f := if code < 0x2C then e4m3 else e5m2
    let r := { e with ftz := false }.round f (e.read fp32 a).withNv
    { r with bits := putByte d (code % 4) r.bits }

/-- `%finfo` of a floating-point trap (R143). -/
def fpInfo (dest : Nat) (fl : Flags) (pred : Bool) : Word :=
  BitVec.ofNat 32 (dest + fl.bits.toNat * 2 ^ 7 + if pred then 2 ^ 12 else 0)

end Sys2Proof.Machine
end

