-- ==== Sys2Proof/Machine/Operands.lean ====
section
/-! DEFINITION. Operand fields (R66-R70), the forwarding window (R108), the checks of R84, and the issue of one
instruction: a thread instruction for a group, a uniform instruction for a workgroup (R12, R48, R52). -/

namespace Sys2Proof.Machine

/-! ### Registers of a thread -/

/-- The word of register `n` that the window holds, the youngest first (R108). -/
def winFind (n : Nat) : List WinEntry → Option Reg
  | [] => none
  | e :: es => if e.reg ≤ n ∧ n < e.reg + e.vals.length then e.vals[n - e.reg]? else winFind n es

/-- Register `n` as an operand read sees it (R85, R108): the window, then the bank; a dead register reads as
one of two values, which one is not promised (R76). -/
def Thread.reg (s : State) (t : Thread) (n : Nat) : Reg :=
  match winFind n t.win with
  | some x => x
  | none =>
    match t.dead.find? fun d => d.1 = n with
    | some d => if s.choose (t.tid * 256 + n) then d.2 else t.bank.getD n ⟨0, none⟩
    | none => t.bank.getD n ⟨0, none⟩

/-- The oldest window entry leaves for the bank, but for registers a younger entry writes (R108). -/
def Thread.evict (t : Thread) : Thread :=
  match t.win.reverse with
  | [] => t
  | e :: younger =>
    let go := fun (u : Thread) (i : Nat) =>
      if (winFind (e.reg + i) younger).isSome then u else u.bankSet (e.reg + i) (e.vals.getD i ⟨0, none⟩)
    { (List.range e.vals.length).foldl go t with win := younger.reverse }

/-- Write a result of one or two words into the window (R85, R108); the registers are no longer dead. -/
def Thread.write (t : Thread) (n : Nat) (vals : List Reg) : Thread :=
  let t := { t with
    win := ⟨n, vals⟩ :: t.win
    dead := t.dead.filter fun d => !(decide (n ≤ d.1) && decide (d.1 < n + vals.length)) }
  if 8 < t.win.length then t.evict else t

/-- A window entry without register `n`; it keeps its place among the last eight results (R108). -/
def WinEntry.without (n : Nat) (e : WinEntry) : List WinEntry :=
  if e.reg ≤ n ∧ n < e.reg + e.vals.length then
    match (List.range e.vals.length).filterMap (fun i =>
        if e.reg + i = n then none else some (⟨e.reg + i, [e.vals.getD i ⟨0, none⟩]⟩ : WinEntry)) with
    | [] => [⟨e.reg, []⟩]
    | es => es
  else [e]

/-- `HINT.DEAD` on one register (R76): a result still in the window is discarded, kept only as the value a
later read may see. -/
def Thread.kill (quota : Nat) (t : Thread) (n : Nat) : Thread :=
  if quota ≤ n then t
  else
    match winFind n t.win with
    | none => t
    | some x =>
      { t with
        win := t.win.flatMap (WinEntry.without n)
        dead := (n, x) :: t.dead.filter fun d => d.1 ≠ n }

/-- Registers a pending `HINT.DEAD` names (R76). -/
def deadNames (h : Hints) : List Nat :=
  match h.dead with
  | none => []
  | some (b, m) => (List.range 16).filterMap fun i => if m.getLsbD i ∧ 2 * b.toNat + i < 128 then some (2 * b.toNat + i) else none

/-- Once the target has issued for a thread: named registers die, hints clear, and a suppressed comparator is
armed again (R71, R76, R345). -/
def Thread.issued (quota : Nat) (t : Thread) : Thread :=
  { (deadNames t.hints).foldl (Thread.kill quota) t with hints := Hints.none, suppress := false }

/-- The same after a uniform instruction: one of the matrix engine discards `HINT.DEAD` (R278). -/
def Thread.issuedAt (word : Word) (quota : Nat) (t : Thread) : Thread :=
  if fld word 26 6 = 0x32#6 then { t with hints := Hints.none, suppress := false } else t.issued quota

/-- A predicate (R85): p0 reads as true. -/
def Thread.pred (t : Thread) (n : Nat) : Pred := if n = 0 then ⟨true, none⟩ else t.preds.getD n ⟨false, none⟩

/-- Write a predicate; a write to p0 is discarded (R70). -/
def Thread.setPred (t : Thread) (n : Nat) (p : Pred) : Thread :=
  if n = 0 then t else { t with preds := t.preds.set n p }

/-- The guard of the next instruction (R74). -/
def Thread.guard (t : Thread) : Pred :=
  match t.hints.pred with
  | none => ⟨true, none⟩
  | some (p, neg) => let x := t.pred p.toNat; ⟨x.val != neg, x.poison⟩

/-! ### Registers of the workgroup -/

def Wg.creg (w : Wg) (n : Nat) : Reg := w.commons.getD n ⟨0, none⟩

/-- Write common registers from `n` on (R70); the count is checked before. -/
def Wg.setCommons (w : Wg) (n : Nat) : List Reg → Wg
  | [] => w
  | x :: xs => ({ w with commons := w.commons.set n x } : Wg).setCommons (n + 1) xs

/-- An address register; a0 reads as zero (R70). -/
def Wg.addr (w : Wg) (n : Nat) : AddrReg := if n = 0 then ⟨0, none⟩ else w.addrs.getD n ⟨0, none⟩

/-- Write an address register; a write to a0 is discarded (R70). -/
def Wg.setAddr (w : Wg) (n : Nat) (x : AddrReg) : Wg := if n = 0 then w else { w with addrs := w.addrs.set n x }

/-! ### Source fields (R66-R68) -/

/-- The inline FP32 constants of R67. -/
def inlineConst (f : Nat) : Word :=
  match f with
  | 0xE1 => 0x3F000000#32
  | 0xE2 => 0x3F800000#32
  | 0xE3 => 0x40000000#32
  | 0xE4 => 0x40800000#32
  | 0xE5 => 0x41000000#32
  | 0xE6 => 0x3E800000#32
  | 0xE7 => 0xBF000000#32
  | 0xE8 => 0xBF800000#32
  | 0xE9 => 0xC0000000#32
  | 0xEA => 0xC0800000#32
  | 0xEB => 0x3FB8AA3B#32
  | 0xEC => 0x3F317218#32
  | 0xED => 0x7F800000#32
  | 0xEE => 0xFF800000#32
  | _ => 0#32

/-- The context of one issue: the state before it, the workgroup, the run, the word and its word offset. -/
structure Who where
  s : State
  w : Wg
  r : Run
  word : Word
  pc : Nat
deriving DecidableEq, Repr

/-- A 32-bit operand (R68, first column). -/
def Who.int (x : Who) (t : Thread) (f : BitVec 8) : Reg :=
  let n := f.toNat
  if n < 0x80 then t.reg x.s n
  else if n < 0xC0 then x.w.creg (n - 0x80)
  else if n < 0xE0 then ⟨BitVec.ofNat 32 (n - 0xC0), none⟩
  else if n < 0xEF then ⟨inlineConst n, none⟩
  else ⟨t.hints.lit, none⟩

/-- A packed 16-bit operand (R68, second column): inline constants are rounded into both halves. -/
def Who.packed (x : Who) (t : Thread) (f : BitVec 8) (fmt : Fmt) : Reg :=
  let n := f.toNat
  if 0xE0 ≤ n ∧ n < 0xEF then
    let h := (fmt.roundTo .rne false false (fp32.value (inlineConst n).toNat)).bits
    ⟨BitVec.ofNat 32 (h * 65536 + h), none⟩
  else x.int t f

/-- An FP32 pattern as the FP64 pattern of the same value; a NaN keeps its fraction bits. -/
def widen32 (b : Nat) : DWord :=
  match fp32.value b with
  | .nan _ => BitVec.ofNat 64 (b / 2 ^ 31 % 2 * 2 ^ 63 + 2047 * 2 ^ 52 + b % 2 ^ 23 * 2 ^ 29)
  | v => BitVec.ofNat 64 (fp64.roundTo .rne false false v).bits

/-- An FP64 operand (R68, last column). Of a common pair whose odd half lies at an odd commons count only the first register is checked,
and the half that is not there reads as 0 (log 90). -/
def Who.fp64 (x : Who) (t : Thread) (f : BitVec 8) : DWord × Poison :=
  let n := f.toNat
  if n < 0xC0 then
    let lo := x.int t f
    let hi := x.int t (f + 1)
    (hi.val ++ lo.val, lo.poison.join hi.poison)
  else if n < 0xE0 then (BitVec.ofNat 64 (Machine.fp64.roundTo .rne false false (.ofInt (n - 0xC0 : Nat))).bits, none)
  else (widen32 (x.int t f).val.toNat, none)

/-- Consecutive thread registers as one little-endian number, and their poison. -/
def Who.vregs (x : Who) (t : Thread) (n cnt : Nat) : Nat × Poison :=
  (List.range cnt).foldr (fun i (v, p) =>
    let r := t.reg x.s (n + i)
    (r.val.toNat + 2 ^ 32 * v, r.poison.join p)) (0, none)

/-- A 32-bit operand of a uniform instruction (R69); the literal is that of the run's threads (R78). -/
def Who.uint (x : Who) (f : BitVec 8) : Reg :=
  let n := f.toNat
  if n < 0x80 then ⟨0, none⟩
  else if n < 0xC0 then x.w.creg (n - 0x80)
  else if n < 0xE0 then ⟨BitVec.ofNat 32 (n - 0xC0), none⟩
  else if n < 0xEF then ⟨inlineConst n, none⟩
  else
    match x.r.groups.flatten with
    | [] => ⟨0, none⟩
    | tid :: _ => match x.w.thread? tid with
      | some t => ⟨t.hints.lit, none⟩
      | none => ⟨0, none⟩

/-- The scheduling hint pending at a uniform instruction: that of the run's threads (R76, R78). -/
def Who.sched (x : Who) : Option (Bool × BitVec 16) :=
  (x.r.groups.flatten.head?.bind x.w.thread?).bind fun t => t.hints.sched

/-! ### The checks of R84 -/

/-- An operand field: a thread register (or 2 or 4 from an aligned number), a source field of a thread or of a
uniform instruction, or a common destination with the last register it reaches and the field value that
`REG_QUOTA` reports. -/
inductive Opnd where
  | v (n cnt : Nat)
  | src (f : BitVec 8) (cnt : Nat)
  | usrc (f : BitVec 8) (cnt : Nat)
  | c (n cnt info : Nat)
deriving DecidableEq, Repr

/-- Whether a source field holds a claimed value with an aligned register (R66, R68). -/
def srcLegal (f cnt : Nat) : Bool :=
  if f < 0x80 then decide (f % cnt = 0)
  else if f < 0xC0 then decide ((f - 0x80) % cnt = 0)
  else decide (f ≠ 0xEF) && decide (f ≤ 0xF0)

/-- Order 3 of R84 for one field. -/
def Opnd.legal : Opnd → Bool
  | .v n cnt => decide (n % cnt = 0)
  | .src f cnt => srcLegal f.toNat cnt
  | .usrc f cnt => decide (0x80 ≤ f.toNat) && srcLegal f.toNat cnt
  | .c n cnt _ => decide (n % cnt = 0)

/-- Whether a field reads the pending literal. -/
def Opnd.usesLiteral : Opnd → Bool
  | .src f _ => f = 0xF0#8
  | .usrc f _ => f = 0xF0#8
  | _ => false

/-- Order 5 of R84 for one field: the `%finfo` of a register at or above its limit; of a common source the register named, also where an
FP64 operand reads the next one too (log 90). -/
def Opnd.overQuota (q cn : Nat) : Opnd → Option Nat
  | .v n _ => if q ≤ n then some (n + 256 * q) else none
  | .src f _ =>
    let n := f.toNat
    if n < 0x80 then (if q ≤ n then some (n + 256 * q) else none)
    else if n < 0xC0 then (if cn ≤ n - 0x80 then some (n + 256 * cn) else none)
    else none
  | .usrc f cnt =>
    let n := f.toNat
    if 0x80 ≤ n ∧ n < 0xC0 then (if cn < n - 0x80 + cnt then some (n + 256 * cn) else none) else none
  | .c n cnt info => if cn < n + cnt then some (info + 256 * cn) else none

/-- Thread registers a field names. -/
def Opnd.vnames : Opnd → List Nat
  | .v n cnt => (List.range cnt).map (n + ·)
  | .src f cnt => if f.toNat < 0x80 then (List.range cnt).map (f.toNat + ·) else []
  | _ => []

/-- The static part of an instruction: its operand fields from bit 31 down, whether its other fields hold
claimed values (R64), which `HINT.MEM` bits it refuses when it is a memory instruction (R76), and the rights it lacks, if it needs any (R83). -/
structure Form where
  ops : List Opnd
  claimed : Bool
  mem : Option (BitVec 8)
  rights : Who → Option Nat

/-- A form with nothing but operands. -/
def Form.plain (ops : List Opnd) : Form := ⟨ops, true, none, fun _ => none⟩

def firstSome {α β : Type} (f : α → Option β) : List α → Option β
  | [] => none
  | x :: xs => match f x with
    | some y => some y
    | none => firstSome f xs

def illegalWord (w : Word) : FaultInfo := ⟨cIllegal, w, 0⟩

/-- Orders 3 to 6 of R84 for one thread. `uniform` marks a uniform instruction: it takes no pending guard
(R74) and stands only in a uniform block (R53). -/
def Form.check (fm : Form) (x : Who) (uniform : Bool) (t : Thread) : Option FaultInfo :=
  let memBad : Bool := match fm.mem, t.hints.mem with
    | some refused, some h => h &&& refused ≠ 0#8
    | _, _ => false
  if ¬ fm.claimed ∨ ¬ fm.ops.all Opnd.legal ∨ memBad ∨ (uniform ∧ t.hints.pred.isSome) ∨
      (fm.ops.any Opnd.usesLiteral ∧ ¬ t.hints.litSet) then
    some (illegalWord x.word)
  else if uniform ∧ ¬ x.r.uniform then some ⟨cUniform, x.word, 0⟩
  else
    match firstSome (Opnd.overQuota x.w.quota x.w.commons.length) fm.ops with
    | some info => some ⟨cQuota, BitVec.ofNat 32 info, 0⟩
    | none =>
      match fm.rights x with
      | some k => some ⟨cProtect, BitVec.ofNat 32 k, 0⟩
      | none => none

/-- `%finfo` of consumed poison (R375). -/
def poisonFault (p : BitVec 12) (kind : Nat) : FaultInfo := ⟨cPoison, BitVec.ofNat 32 (p.toNat + kind * 2 ^ 12), 0⟩

/-! ### The run that issues -/

/-- Whether a word is a uniform instruction (R80, column Issue): the engine and launch commands by their sc field. -/
def uniformWord (w : Word) : Bool :=
  let op := (fld w 26 6).toNat
  let sc := (fld w 14 8).toNat
  [0x21, 0x28, 0x29, 0x2A, 0x2B, 0x2C, 0x2D, 0x2F, 0x32, 0x34, 0x36, 0x38].contains op ||
    ([0x30, 0x33, 0x37].contains op && decide (0x80 ≤ sc) && decide (sc < 0xC0))

def isHintWord (w : Word) : Bool := fld w 26 6 = 0x3F#6

/-- Whether the instruction that the hint a run stands at applies to is uniform: the hint then issues once, on the vamp (R78). -/
def Run.hintsUniform (r : Run) : Bool := ((r.words.drop (r.idx + 1)).find? fun x => !isHintWord x).any uniformWord

/-- The comparator that fires at a word (R344): one of the launch at its byte offset, set before the run's block
was fetched (R349) and not cleared since. -/
def State.comparatorAt (s : State) (r : Run) (launch pc : Nat) : Option Nat :=
  (s.comparators.zip r.armed).findIdx? fun c => match c.1 with
    | some d => decide (c.2 = some d) && decide (d.launch = launch) && decide (d.off = 4 * pc)
    | none => false

/-- The first group at or after `g` that still holds a thread. -/
def Run.nextGroup (r : Run) (g : Nat) : Option Nat :=
  (List.range r.groups.length).find? fun i => decide (g ≤ i) && !(r.groups.getD i []).isEmpty

/-- Put a run behind those that may issue and before those that stall (log 3). -/
def enqueueRun (rs : List Run) (r : Run) : List Run :=
  if r.stall = none then
    (rs.filter fun x => x.stall = none) ++ [r] ++ (rs.filter fun x => x.stall ≠ none)
  else rs ++ [r]

/-- The key at which a run's threads go on when its block ends without a terminator (R46, R47). -/
def Run.endKey (r : Run) : Nat := r.key + r.words.length

/-- The barrier a workgroup's thread names, with its current phase. -/
def State.barrierAt (s : State) (w : Wg) (scope id : Nat) : Option Barrier :=
  s.barriers.find? fun b => decide (b.scope = scope) && decide (b.inst = s.barrierInst w scope) && decide (b.id = id)

/-- Whether what a thread is to wait for has come already (R34): the thresholds of a `WAIT` are met, a phase has completed. -/
def State.waitOver (s : State) (w : Wg) (tid : Nat) (on : WaitOn) : Bool :=
  match on with
  | .counters nl ns nc nm nx uni _ => (w.thread? tid).any fun t => meets t.cnt w.common uni nl ns nc nm nx
  | .barrier scope id _ false ph => match s.barrierAt w scope id with
    | some b => decide (b.phase ≠ ph)
    | none => true
  | _ => false

/-- Whether the end of a wait is an acquire (R187, R231). -/
def WaitOn.acquires (on : WaitOn) : Bool :=
  match on with
  | .counters _ _ _ _ _ _ a => a
  | .barrier _ _ _ _ _ => true
  | _ => false

/-- A thread that the last instruction of a block has sent somewhere goes there (R34); what came while the run still went on it waits
for no longer. -/
def State.park (s : State) (uid : Nat) (p : Parking) : State :=
  match p.place with
  | .waiting k on =>
    match s.wg? uid with
    | none => s
    | some w =>
      if s.waitOver w p.tid on then
        let s1 := s.arrive uid p.tid k .ready p.sched
        if on.acquires then s1.dropUnowned w.core else s1
      else s.arrive uid p.tid k on p.sched
  | q => (s.onThread uid p.tid fun t => { t with place := q }).settleBarriers

/-- End a run (R48): the results of every thread still in it are written, then the threads that issued the
terminator go where it sent them and the others are parked ready at the next word. Behind the last key the next word has the key 2^24,
for which no rule names a fault here (R34): it is a key like any other (log 85). -/
def State.endRun (s : State) (r : Run) : State :=
  let tids := r.groups.flatten
  let s1 := s.onWg r.wg fun w =>
    { w with threads := w.threads.map fun t =>
        if tids.contains t.tid ∨ r.parked.any (fun p => p.tid = t.tid) then t.endBlock else t }
  let s2 := r.parked.foldl (fun (s : State) p => s.park r.wg p) s1
  tids.foldl (fun s tid => s.arrive r.wg tid r.endKey .ready none) s2

/-- Take the head run out of the list, by its core and port. -/
def State.dropRun (s : State) (r : Run) : State :=
  { s with runs := s.runs.filter fun x => !(decide (x.core = r.core) && decide (x.port = r.port)) }

/-- Move a run past the group it has just issued for (R48), or end it. `whole` marks a uniform instruction,
which issues once for every group (R52). -/
def State.advance (s : State) (core port : Nat) (whole : Bool) : State :=
  match s.runs.find? fun x => decide (x.core = core) && decide (x.port = port) with
  | none => s
  | some r =>
    let s0 := s.dropRun r
    match (if whole then none else r.nextGroup (r.grp + 1)) with
    | some g => { s0 with runs := enqueueRun s0.runs { r with grp := g, stall := none } }
    | none =>
      match (if r.idx + 1 < r.words.length then r.nextGroup 0 else none) with
      | some g => { s0 with runs := enqueueRun s0.runs { r with idx := r.idx + 1, grp := g, stall := none } }
      | none => s0.endRun r

/-- The issuing run stalls: nothing is issued, and the reason is recorded (R50, R351). -/
def State.stallRun (s : State) (r : Run) (reason : Nat) : State :=
  let s0 := s.dropRun r
  { s0 with runs := enqueueRun s0.runs { r with stall := some reason } }

/-- What an instruction does to one thread: fault (with the thread as it stands, its flags accrued), also with
effects that happen whether or not it traps (the numeric event of `CVT`, R149); or the
thread after it, where it goes if the instruction ends its block, and the effects beyond the thread. -/
inductive Act where
  | fault (f : FaultInfo) (t : Thread)
  | trap (f : FaultInfo) (t : Thread) (post : List (State → State))
  | ok (t : Thread) (place : Option Place) (post : List (State → State))

/-- Whether an instruction gives a thread-register result that enters the forwarding window (R108): integer, floating-point and
selecting instructions, `SRD`, and the reads of counters. -/
def givesResult (w : Word) : Bool :=
  let op := (fld w 26 6).toNat
  (decide (1 ≤ op) && decide (op ≤ 0x0A)) || decide (op = 0x0E) || (decide (0x10 ≤ op) && decide (op ≤ 0x18)) ||
    (decide (op = 0x2E) && !w.getLsbD 25) || (decide (op = 0x35) && [0, 1, 2, 5].contains (fld w 0 3).toNat)

/-- The act of a thread whose guard is false (R12, R75): nothing, but a result of its group enters the window it shares (R108). -/
def skipAct (x : Who) (ends : Bool) (t : Thread) : Act :=
  .ok (if givesResult x.word then t.write 0 [] else t) (if ends then some (.waiting (x.pc + 1) .ready) else none) []

/-- One thread's part of the issue of a thread instruction: comparators, orders 3 to 6, the guard's poison,
then the operation. A word that raises `ILLEGAL` ends the block of no thread that does not fault (R82). -/
def Form.act (fm : Form) (x : Who) (ends : Bool) (op : Who → Thread → Act) (t : Thread) : Act :=
  match (if t.suppress then none else x.s.comparatorAt x.r x.w.launch x.pc) with
  | some i => .fault ⟨cBreakpoint, BitVec.ofNat 32 i, 0⟩ t
  | none =>
    let g := t.guard
    if g.poison = none ∧ ¬ g.val then skipAct x (ends && fm.claimed && fm.ops.all Opnd.legal) t
    else
      match fm.check x false t with
      | some f => .fault f t
      | none =>
        match g.poison with
        | some p => .fault (poisonFault p 1) t
        | none => op x t

/-- Whether the operation itself is about to run for a thread. -/
def Form.operates (fm : Form) (x : Who) (t : Thread) : Bool :=
  (t.suppress || (x.s.comparatorAt x.r x.w.launch x.pc).isNone) && t.guard.val && t.guard.poison.isNone &&
    (fm.check x false t).isNone

/-- Whether a thread is the first of its group whose operation writes something the group shares; `ok` says that the operation
does not fault. A write that stays is the first one's or, by a free choice, a later one's (log 4). -/
def Who.leads (x : Who) (fm : Form) (ok : Thread → Bool) (t : Thread) : Bool :=
  decide ((x.w.threads.find? fun u => (x.r.groups.getD x.r.grp []).contains u.tid && fm.operates x u && ok u).map
    (fun u => u.tid) = some t.tid)

/-- The reason the group stalls on a register whose load has not returned (R50, R112). -/
def pendingStall (fm : Form) (ts : List Thread) : Option Nat :=
  if ts.any fun t => fm.ops.any fun o => o.vnames.any fun n => t.pending.contains n then some 13 else none

/-- Apply the acts of a group to the state: the threads, the effects beyond them in order of `%tid`, the
faults, the places; then the run moves on. -/
def State.applyActs (s : State) (x : Who) (acts : List (Nat × Act)) : State :=
  let s1 := s.onWg x.w.uid fun w =>
    { w with threads := w.threads.map fun t =>
        match acts.find? fun a => a.1 = t.tid with
        | some (_, .ok t' _ _) => t'.issued w.quota
        | some (_, .fault _ t') => t'
        | some (_, .trap _ t' _) => t'
        | none => t }
  let s2 : State := acts.foldl (fun (s : State) (a : Nat × Act) => match a.2 with
    | .ok _ _ post => post.foldl (fun (s : State) p => p s) s
    | .trap _ _ post => post.foldl (fun (s : State) p => p s) s
    | .fault _ _ => s) s1
  let parks : List Parking := acts.filterMap fun a => match a.2 with
    | .ok t (some p) _ => some (⟨a.1, p, t.hints.sched⟩ : Parking)
    | _ => none
  let s3 : State := { s2 with runs := s2.runs.map fun (r : Run) =>
    if r.core = x.r.core ∧ r.port = x.r.port then
      { r with groups := r.groups.map (·.filter fun t => !(parks.any fun p => p.tid = t)), parked := r.parked ++ parks }
    else r }
  let bad : List (Nat × FaultInfo) := acts.filterMap fun a => match a.2 with
    | .fault f _ => some (a.1, f)
    | .trap f _ _ => some (a.1, f)
    | .ok _ _ _ => none
  let s4 := s3.raise false x.w.uid x.pc (bad.map fun b => (b.1, laneMask (bad.map (·.1)), b.2))
  ((s4.issuedOne x.w).count (s.tagOf x.w) 0x02 acts.length).advanceFree

/-- The head run and its workgroup. -/
def State.issuer (s : State) : Option (Run × Wg) :=
  match s.runs with
  | [] => none
  | r :: _ => (s.wg? r.wg).map fun w => (r, w)

/-- Why nothing of some threads may issue yet: an acquire or release that has not finished (R225, R226), or an entry owed to a full
strict log (R357). -/
def heldBack (ts : List Thread) : Option Nat :=
  if ts.any fun t => t.block ≠ .none then some 2 else if ts.any fun t => t.owes then some 14 else none

/-- The stall of a group of which a thread's access finds a translation entry under removal (R210). -/
def tbStall (acts : List (Nat × Act)) : Option Nat :=
  if acts.any fun a => match a.2 with
    | .fault f _ => decide (f.cause = cWait)
    | _ => false
  then some 2 else none

/-- Issue a thread instruction for the issuing group of the head run. `stall` gives the reason the group must
wait, before anything is issued. -/
def issueThread (word : Word) (fm : Form) (ends : Bool) (stall : Who → List Thread → Option Nat)
    (op : Who → Thread → Act) (s : State) : Host.Outcome State Fault Refusal :=
  match s.issuer with
  | none => .fault .noIssuer
  | some (r, w) =>
    let x : Who := ⟨s, w, r, word, r.key + r.idx⟩
    let tids := r.groups.getD r.grp []
    let ts := w.threads.filter fun t => tids.contains t.tid
    let acting := ts.filter (fm.operates x)
    match heldBack ts with
    | some n => .next (s.stallRun r n)
    | none =>
      let acts := ts.map fun t => (t.tid, fm.act x ends op t)
      match (pendingStall fm acting).orElse fun _ => (stall x acting).orElse fun _ => tbStall acts with
      | some n => .next (s.stallRun r n)
      | none => .next ((s.applyActs x acts).advance r.core r.port false)

/-- What a uniform instruction does: fault for every thread of the run (R175), the state after, or the state
after with the key every thread of the run goes to. -/
inductive UAct where
  | fault (f : FaultInfo)
  | ok (s : State)
  | park (s : State) (key : Nat)

/-- Issue a uniform instruction (R52): once, for every group of the head run; what it raises, `UNIFORM_CONTEXT` among it, it raises for
every thread of the run whose guard holds (R84; R53 names the issuing group's: log 77). `wait` gives the reason the vamp must wait first
and the state while it does: an operation that takes several steps begins there. -/
def issueUniformThen (word : Word) (fm : Form) (wait : Who → Option (Nat × State)) (op : Who → UAct) (s : State) :
    Host.Outcome State Fault Refusal :=
  match s.issuer with
  | none => .fault .noIssuer
  | some (r, w) =>
    let x : Who := ⟨s, w, r, word, r.key + r.idx⟩
    let tids := r.groups.flatten
    let ts := w.threads.filter fun t => tids.contains t.tid
    let lanes := fun tid => match r.groups.find? (·.contains tid) with
      | some g => laneMask g
      | none => 0#32
    let fire := ts.filterMap fun t =>
      match (if t.suppress then none else s.comparatorAt r w.launch x.pc) with
      | some i => some (t.tid, lanes t.tid, (⟨cBreakpoint, BitVec.ofNat 32 i, 0⟩ : FaultInfo))
      | none => none
    let free := ts.filter fun t => !(fire.any fun f => f.1 = t.tid)
    let bad := free.filterMap fun t => (fm.check x true t).map fun f => (t.tid, lanes t.tid, f)
    match heldBack ts with
    | some n => .next (s.stallRun r n)
    | none =>
    if ¬ fire.isEmpty ∨ ¬ bad.isEmpty then
      .next ((((s.raise false w.uid x.pc (fire ++ bad)).issuedOne w).advanceFree).advance r.core r.port true)
    else
      match wait x with
      | some (n, s') => .next (s'.stallRun r n)
      | none =>
        let clear : State → State := fun s => s.onWg w.uid fun w =>
          { w with threads := w.threads.map fun t => if tids.contains t.tid then t.issuedAt word w.quota else t }
        match op x with
        | .fault f =>
          if f.cause = cWait then .next (s.stallRun r 2)
          else .next ((((s.raise true w.uid x.pc (tids.map fun t => (t, lanes t, f))).issuedOne w).advanceFree).advance r.core r.port true)
        | .ok s' =>
          .next ((((clear s').issuedOne w).advanceFree).advance r.core r.port true)
        | .park s' key =>
          let s1 := (clear s').issuedOne w
          let s2 : State := { s1 with runs := s1.runs.map fun (q : Run) =>
            if q.core = r.core ∧ q.port = r.port then
              { q with groups := q.groups.map fun _ => [],
                       parked := q.parked ++ ts.map fun t => ⟨t.tid, .waiting key .ready, t.hints.sched⟩ }
            else q }
          .next (s2.advanceFree.advance r.core r.port true)

/-- A uniform instruction whose wait changes nothing. -/
def issueUniform (word : Word) (fm : Form) (stall : Who → Option Nat) (op : Who → UAct) :
    State → Host.Outcome State Fault Refusal :=
  issueUniformThen word fm (fun x => (stall x).map fun n => (n, x.s)) op

/-! ### Shapes of thread instructions -/

/-! ### The recording log (R356, R357) -/

/-- The log area of a launch with the record flag: the first 64 KiB boundary at or above exits + 128 × `%nwg`. -/
def Launch.logArea (l : Launch) : Nat := (l.exits + 128 * l.nwg + 65535) / 65536 * 65536

/-- Entries written and not read. -/
def State.logFill (s : State) (l : Launch) : Nat :=
  (s.readNat l.logArea 4 + 2 ^ 32 - s.readNat (l.logArea + 4) 4) % 2 ^ 32

/-- Whether a thread's atomics are in flight whose old values are still to be logged: an entry of a later instruction of the thread
comes after theirs (R356). -/
def State.logsAtom (s : State) (w : Wg) (tid : Nat) : Bool :=
  (s.launchOf w).any (fun l => l.record) && s.flights.any fun f => decide (f.wg = w.uid) && decide (f.tid = some tid) && !f.done &&
    match f.acc with
    | .atom _ => true
    | _ => false

/-- The stall of an instruction that makes an entry: its threads' atomics in flight (R356). -/
def State.logStall (s : State) (w : Wg) (ts : List Thread) : Option Nat :=
  if ts.any fun t => s.logsAtom w t.tid then some 2 else none

/-- Write an entry at the end of the log. -/
def State.putEntry (s : State) (l : Launch) (e : LogEntry) : State :=
  let a := l.logArea
  let n := s.readNat a 4
  let p := a + 64 + 16 * (n % 65532)
  (((s.writeNat p 4 e.head).writeNat (p + 4) 4 e.off).writeNat (p + 8) 8 e.value).writeNat a 4 (n + 1)

/-- A full log that discards an entry is not replayable from its number on (R357). -/
def State.spoilLog (s : State) (l : Launch) : State :=
  let a := l.logArea
  if s.readNat (a + 8) 1 = 0 then (s.writeNat (a + 8) 1 1).writeNat (a + 12) 4 (s.readNat a 4) else s

/-- Make one log entry (R356); of a full log it is discarded, or with the strict flag it waits, and its thread with it (R357). A
secondary twin makes none: memory outside its quad is the primary's (R379). -/
def State.logEntry (s : State) (w : Wg) (tid kind pc value : Nat) : State :=
  match s.launchOf w with
  | none => s
  | some l =>
    if ¬ l.record ∨ (w.twin.isSome ∧ ¬ w.primary) then s
    else
      let e : LogEntry :=
        { launch := l.id, wg := w.uid, tid := tid, head := kind + w.core * 2 ^ 4 + w.slot * 2 ^ 14 + tid * 2 ^ 18, off := 4 * pc
          value := value }
      let full := decide (s.logFill l = 65532)
      if l.strict ∧ (full ∨ s.logPend.any fun p => p.launch = l.id) then
        ({ s with logPend := s.logPend ++ [e] }).onThread w.uid tid fun t => { t with owes := true }
      else if full then s.spoilLog l
      else s.putEntry l e

/-- The entries that wait are made, oldest first, as software reads the log (R357). -/
def State.flushLog (s : State) : List LogEntry → List LogEntry → State
  | [], kept => { s with logPend := kept }
  | e :: es, kept =>
    match s.launch? e.launch with
    | none => s.flushLog es kept
    | some l =>
      if (kept.any fun k => k.launch = e.launch) ∨ s.logFill l = 65532 then s.flushLog es (kept ++ [e])
      else
        ((s.putEntry l e).onThread e.wg e.tid fun t =>
          { t with owes := (kept ++ es).any fun k => decide (k.wg = e.wg) && decide (k.tid = e.tid) }).flushLog es kept

def noStall : Who → List Thread → Option Nat := fun _ _ => none

/-- An integer or logical result (R113): a poisoned operand poisons the result (R374). -/
def aluOp (d : Nat) (srcs : List (BitVec 8)) (readsD : Bool) (f : Who → Thread → Word) : Who → Thread → Act :=
  fun x t =>
    let p := srcs.foldl (fun p a => p.join (x.int t a).poison) (if readsD then (t.reg x.s d).poison else none)
    .ok (t.write d [⟨f x t, p⟩]) none []

/-- A predicate result (R123, R124). -/
def predOp (d : Nat) (r : Who → Thread → Pred) : Who → Thread → Act :=
  fun x t => .ok (t.setPred d (r x t)) none []

/-- A floating-point result of `cnt` words (R142, R143, R374): a poisoned operand poisons the destination and
raises nothing; an enabled flag traps and leaves the destination unwritten. -/
def fpFinish (d cnt : Nat) (p : Poison) (o : FpOut) (t : Thread) : Act :=
  let words := (List.range cnt).map fun i => (⟨BitVec.ofNat 32 (o.bits / 2 ^ (32 * i)), p⟩ : Reg)
  if p.isSome then .ok (t.write d words) none []
  else
    let t := { t with fflags := t.fflags ||| o.flags.bits }
    if o.flags.bits &&& t.fen = 0#5 then .ok (t.write d words) none []
    else .fault ⟨cFp, fpInfo d o.flags false, 0⟩ t

/-- The combine of `ICMP` and `FCMP` (R123): set, .AND, .OR with the old predicate. -/
inductive Combine where
  | set | and | or
deriving DecidableEq, Repr

def Combine.apply (c : Combine) (old t : Bool) : Bool :=
  match c with
  | .set => t
  | .and => old && t
  | .or => old || t

/-- The poison of a combined predicate: the old value is read unless the form sets it. -/
def Combine.poison (c : Combine) (old p : Poison) : Poison :=
  match c with
  | .set => p
  | _ => old.join p

end Sys2Proof.Machine
end

