-- ==== Sys2Proof/Machine/Integer.lean ====
section
/-! DEFINITION. Integer, logical, shift, bit-field, comparison, predicate and select instructions (R113-R125)
and PACK (R172). -/

namespace Sys2Proof.Machine

abbrev Answer := Host.Outcome State Fault Refusal

/-- The word of an instruction, as `%finfo` shows it. -/
def wordOf (i : Instr) : Word := (encode i).getD 0#32

/-- One source. -/
def alu1 (i : Instr) (d : BitVec 7) (a : BitVec 8) (f : Word → Word) : State → Answer :=
  issueThread (wordOf i) (.plain [.v d.toNat 1, .src a 1]) false noStall
    (aluOp d.toNat [a] false fun x t => f (x.int t a).val)

/-- Two sources. -/
def alu2 (i : Instr) (d : BitVec 7) (a b : BitVec 8) (f : Word → Word → Word) : State → Answer :=
  issueThread (wordOf i) (.plain [.v d.toNat 1, .src a 1, .src b 1]) false noStall
    (aluOp d.toNat [a, b] false fun x t => f (x.int t a).val (x.int t b).val)

/-- Two sources and the destination read: `f vd a b`. -/
def alu3 (i : Instr) (d : BitVec 7) (a b : BitVec 8) (f : Word → Word → Word → Word) : State → Answer :=
  issueThread (wordOf i) (.plain [.v d.toNat 1, .src a 1, .src b 1]) false noStall
    (aluOp d.toNat [a, b] true fun x t => f (t.reg x.s d.toNat).val (x.int t a).val (x.int t b).val)

/-! ### Results -/

/-- Sat of R114. -/
def satS32 (x : Int) : Word :=
  if 2147483647 < x then 0x7FFFFFFF#32 else if x < -2147483648 then 0x80000000#32 else BitVec.ofInt 32 x

/-- Sum of the four products of the bytes of two words (R115). -/
def dot4 (f : BitVec 8 → Int) (a b : Word) : Int :=
  (List.range 4).foldl (fun s i => s + f (a.extractLsb' (8 * i) 8) * f (b.extractLsb' (8 * i) 8)) 0

/-- The shift amount (R118): bits [4:0]. -/
def amount (b : Word) : Nat := b.toNat % 32

/-- Number of 1 bits (R120). -/
def popCount (a : Word) : Nat := (List.range 32).foldl (fun n i => if a.getLsbD i then n + 1 else n) 0

def leadingZeros (a : Word) : Nat := 32 - bitLength a.toNat

def trailingZeros (a : Word) : Nat := ((List.range 32).find? fun i => a.getLsbD i).getD 32

/-- Bit j of the result is bit 31 - j (R120). -/
def reverseBits (a : Word) : Word :=
  BitVec.ofNat 32 ((List.range 32).foldl (fun n j => if a.getLsbD (31 - j) then n + 2 ^ j else n) 0)

/-- The position and the existing width of a bit field (R121): pos = b[4:0], len = b[12:8], 0 means 32. -/
def fieldOf (b : Word) : Nat × Nat :=
  let pos := b.toNat % 32
  let len := b.toNat / 256 % 32
  let w := if len = 0 then 32 else len
  (pos, min (pos + w) 32 - pos)

def fieldU (a b : Word) : Word :=
  let (pos, w) := fieldOf b
  BitVec.ofNat 32 (a.toNat / 2 ^ pos % 2 ^ w)

def fieldS (a b : Word) : Word :=
  let (pos, w) := fieldOf b
  BitVec.ofInt 32 (signedOf w (a.toNat / 2 ^ pos))

def fieldInsert (old a b : Word) : Word :=
  let (pos, w) := fieldOf b
  let mask := (2 ^ w - 1) * 2 ^ pos
  BitVec.ofNat 32 ((old.toNat - (old.toNat &&& mask)) + a.toNat % 2 ^ w * 2 ^ pos)

/-- One byte of R122 for a selector. -/
def permByte (a : Word) (s : Nat) : Nat :=
  let b := a.toNat / 2 ^ (8 * (s % 4)) % 256
  match s / 4 % 4 with
  | 0 => b
  | 1 => 0
  | 2 => 0xFF
  | _ => if 128 ≤ b then 0xFF else 0

def permuteBytes (a b : Word) : Word :=
  BitVec.ofNat 32 ((List.range 4).foldl (fun n i => n + permByte a (b.toNat / 2 ^ (4 * i) % 16) * 2 ^ (8 * i)) 0)

/-- Nibble i of a word (R172). -/
def nibble (a b : Word) : Nat := a.toNat / 2 ^ (4 * (b.toNat % 8)) % 16

/-- SatS4 of R172 as a 4-bit pattern. -/
def satS4 (a : Word) : Nat :=
  let v := a.toInt
  if 7 < v then 7 else if v < -8 then 8 else (v % 16).toNat

def packNibble (old a b : Word) : Word :=
  let i := b.toNat % 8
  BitVec.ofNat 32 (old.toNat - nibble old b * 2 ^ (4 * i) + satS4 a * 2 ^ (4 * i))

/-! ### IARITH (R114) -/

def execIadd (d : BitVec 7) (a b : BitVec 8) : State → Answer := alu2 (.iadd d a b) d a b fun x y => x + y
def execIsub (d : BitVec 7) (a b : BitVec 8) : State → Answer := alu2 (.isub d a b) d a b fun x y => x - y
def execIaddsS (d : BitVec 7) (a b : BitVec 8) : State → Answer :=
  alu2 (.iaddsS d a b) d a b fun x y => satS32 (x.toInt + y.toInt)
def execIsubsS (d : BitVec 7) (a b : BitVec 8) : State → Answer :=
  alu2 (.isubsS d a b) d a b fun x y => satS32 (x.toInt - y.toInt)
def execIminS (d : BitVec 7) (a b : BitVec 8) : State → Answer :=
  alu2 (.iminS d a b) d a b fun x y => if x.sle y then x else y
def execIminU (d : BitVec 7) (a b : BitVec 8) : State → Answer :=
  alu2 (.iminU d a b) d a b fun x y => if x.ule y then x else y
def execImaxS (d : BitVec 7) (a b : BitVec 8) : State → Answer :=
  alu2 (.imaxS d a b) d a b fun x y => if y.sle x then x else y
def execImaxU (d : BitVec 7) (a b : BitVec 8) : State → Answer :=
  alu2 (.imaxU d a b) d a b fun x y => if y.ule x then x else y

/-! ### IMULG (R115) -/

def execImul (d : BitVec 7) (a b : BitVec 8) : State → Answer := alu2 (.imul d a b) d a b fun x y => x * y
def execImulhS (d : BitVec 7) (a b : BitVec 8) : State → Answer :=
  alu2 (.imulhS d a b) d a b fun x y => BitVec.ofInt 32 (x.toInt * y.toInt / 2 ^ 32)
def execImulhU (d : BitVec 7) (a b : BitVec 8) : State → Answer :=
  alu2 (.imulhU d a b) d a b fun x y => BitVec.ofNat 32 (x.toNat * y.toNat / 2 ^ 32)
def execImac (d : BitVec 7) (a b : BitVec 8) : State → Answer := alu3 (.imac d a b) d a b fun v x y => v + x * y
def execIdot4S (d : BitVec 7) (a b : BitVec 8) : State → Answer :=
  alu3 (.idot4S d a b) d a b fun v x y => v + BitVec.ofInt 32 (dot4 BitVec.toInt x y)
def execIdot4U (d : BitVec 7) (a b : BitVec 8) : State → Answer :=
  alu3 (.idot4U d a b) d a b fun v x y => v + BitVec.ofInt 32 (dot4 (fun b => (b.toNat : Int)) x y)
def execIabsd (d : BitVec 7) (a b : BitVec 8) : State → Answer :=
  alu2 (.iabsd d a b) d a b fun x y => BitVec.ofNat 32 (x.toInt - y.toInt).natAbs

/-! ### LOGIC (R116) -/

def execAnd (d : BitVec 7) (a b : BitVec 8) : State → Answer := alu2 (.and d a b) d a b fun x y => x &&& y
def execOr (d : BitVec 7) (a b : BitVec 8) : State → Answer := alu2 (.or d a b) d a b fun x y => x ||| y
def execXor (d : BitVec 7) (a b : BitVec 8) : State → Answer := alu2 (.xor d a b) d a b fun x y => x ^^^ y
def execAndn (d : BitVec 7) (a b : BitVec 8) : State → Answer := alu2 (.andn d a b) d a b fun x y => x &&& ~~~y
def execOrn (d : BitVec 7) (a b : BitVec 8) : State → Answer := alu2 (.orn d a b) d a b fun x y => x ||| ~~~y
def execXnor (d : BitVec 7) (a b : BitVec 8) : State → Answer := alu2 (.xnor d a b) d a b fun x y => ~~~(x ^^^ y)

/-! ### SHIFT (R118) -/

def execShl (d : BitVec 7) (a b : BitVec 8) : State → Answer := alu2 (.shl d a b) d a b fun x y => x <<< amount y
def execShr (d : BitVec 7) (a b : BitVec 8) : State → Answer := alu2 (.shr d a b) d a b fun x y => x >>> amount y
def execSar (d : BitVec 7) (a b : BitVec 8) : State → Answer :=
  alu2 (.sar d a b) d a b fun x y => x.sshiftRight (amount y)
def execRol (d : BitVec 7) (a b : BitVec 8) : State → Answer :=
  alu2 (.rol d a b) d a b fun x y => x.rotateLeft (amount y)
def execRor (d : BitVec 7) (a b : BitVec 8) : State → Answer :=
  alu2 (.ror d a b) d a b fun x y => x.rotateRight (amount y)
def execFshr (d : BitVec 7) (a b : BitVec 8) : State → Answer :=
  alu3 (.fshr d a b) d a b fun v x y => ((x ++ v) >>> amount y).setWidth 32

/-! ### BITS (R120-R122) -/

def execPopc (d : BitVec 7) (a : BitVec 8) : State → Answer :=
  alu1 (.popc d a) d a fun x => BitVec.ofNat 32 (popCount x)
def execClz (d : BitVec 7) (a : BitVec 8) : State → Answer :=
  alu1 (.clz d a) d a fun x => BitVec.ofNat 32 (leadingZeros x)
def execCtz (d : BitVec 7) (a : BitVec 8) : State → Answer :=
  alu1 (.ctz d a) d a fun x => BitVec.ofNat 32 (trailingZeros x)
def execBrev (d : BitVec 7) (a : BitVec 8) : State → Answer := alu1 (.brev d a) d a reverseBits
def execBfxS (d : BitVec 7) (a b : BitVec 8) : State → Answer := alu2 (.bfxS d a b) d a b fieldS
def execBfxU (d : BitVec 7) (a b : BitVec 8) : State → Answer := alu2 (.bfxU d a b) d a b fieldU
def execBfi (d : BitVec 7) (a b : BitVec 8) : State → Answer := alu3 (.bfi d a b) d a b fieldInsert
def execPermb (d : BitVec 7) (a b : BitVec 8) : State → Answer := alu2 (.permb d a b) d a b permuteBytes

/-! ### Immediate forms (R117, R119) -/

def execIaddi (d : BitVec 7) (a : BitVec 8) (i : BitVec 11) : State → Answer :=
  alu1 (.iaddi d a i) d a fun x => x + i.signExtend 32
def execAndi (d : BitVec 7) (a : BitVec 8) (i : BitVec 11) : State → Answer :=
  alu1 (.andi d a i) d a fun x => x &&& i.signExtend 32
def execOri (d : BitVec 7) (a : BitVec 8) (i : BitVec 11) : State → Answer :=
  alu1 (.ori d a i) d a fun x => x ||| i.signExtend 32
def execXori (d : BitVec 7) (a : BitVec 8) (i : BitVec 11) : State → Answer :=
  alu1 (.xori d a i) d a fun x => x ^^^ i.signExtend 32
def execShli (d : BitVec 7) (a : BitVec 8) (n : BitVec 5) : State → Answer :=
  alu1 (.shli d a n) d a fun x => x <<< n.toNat
def execShri (d : BitVec 7) (a : BitVec 8) (n : BitVec 5) : State → Answer :=
  alu1 (.shri d a n) d a fun x => x >>> n.toNat
def execSari (d : BitVec 7) (a : BitVec 8) (n : BitVec 5) : State → Answer :=
  alu1 (.sari d a n) d a fun x => x.sshiftRight n.toNat
def execRoli (d : BitVec 7) (a : BitVec 8) (n : BitVec 5) : State → Answer :=
  alu1 (.roli d a n) d a fun x => x.rotateLeft n.toNat
def execRori (d : BitVec 7) (a : BitVec 8) (n : BitVec 5) : State → Answer :=
  alu1 (.rori d a n) d a fun x => x.rotateRight n.toNat

/-! ### ICMP (R123), PLOG (R124), SEL (R125) -/

/-- An integer comparison into a predicate; cc 10 to 15 are not claimed. -/
def icmpForm (i : Instr) (p : BitVec 3) (c : BitVec 4) (a b : BitVec 8) (m : Combine) : State → Answer :=
  issueThread (wordOf i) ⟨[.src a 1, .src b 1], decide (c.toNat < 10), none, fun _ => none⟩ false noStall
    (predOp p.toNat fun x t =>
      let u := x.int t a
      let v := x.int t b
      let old := t.pred p.toNat
      ⟨m.apply old.val (intCompare c.toNat u.val v.val), m.poison old.poison (u.poison.join v.poison)⟩)

def execIcmp (p : BitVec 3) (c : BitVec 4) (a b : BitVec 8) : State → Answer := icmpForm (.icmp p c a b) p c a b .set
def execIcmpAnd (p : BitVec 3) (c : BitVec 4) (a b : BitVec 8) : State → Answer :=
  icmpForm (.icmpAnd p c a b) p c a b .and
def execIcmpOr (p : BitVec 3) (c : BitVec 4) (a b : BitVec 8) : State → Answer :=
  icmpForm (.icmpOr p c a b) p c a b .or

/-- Predicate logic: no field is a register that a quota limits. -/
def plogForm (i : Instr) (d : BitVec 3) (f : Thread → Pred) : State → Answer :=
  issueThread (wordOf i) (.plain []) false noStall (predOp d.toNat fun _ t => f t)

def pred2 (f : Bool → Bool → Bool) (a b : BitVec 3) (t : Thread) : Pred :=
  let x := t.pred a.toNat
  let y := t.pred b.toNat
  ⟨f x.val y.val, x.poison.join y.poison⟩

def execPand (d a b : BitVec 3) : State → Answer := plogForm (.pand d a b) d (pred2 (· && ·) a b)
def execPor (d a b : BitVec 3) : State → Answer := plogForm (.por d a b) d (pred2 (· || ·) a b)
def execPxor (d a b : BitVec 3) : State → Answer := plogForm (.pxor d a b) d (pred2 (· != ·) a b)
def execPnot (d a : BitVec 3) : State → Answer :=
  plogForm (.pnot d a) d fun t => let x := t.pred a.toNat; ⟨!x.val, x.poison⟩

def execPsetnz (d : BitVec 3) (a : BitVec 8) : State → Answer :=
  issueThread (wordOf (.psetnz d a)) (.plain [.src a 1]) false noStall
    (predOp d.toNat fun x t => let u := x.int t a; ⟨u.val ≠ 0, u.poison⟩)

/-- SEL checks both sources whichever it takes; a poisoned predicate or source poisons the result. -/
def execSel (d : BitVec 7) (a b : BitVec 8) (p : BitVec 3) : State → Answer :=
  issueThread (wordOf (.sel d a b p)) (.plain [.v d.toNat 1, .src a 1, .src b 1]) false noStall fun x t =>
    let u := x.int t a
    let v := x.int t b
    let q := t.pred p.toNat
    .ok (t.write d.toNat [⟨if q.val then u.val else v.val, q.poison.join (u.poison.join v.poison)⟩]) none []

/-! ### PACK (R172) -/

def execPackn (d : BitVec 7) (a b : BitVec 8) : State → Answer := alu3 (.packn d a b) d a b packNibble
def execUnpknS (d : BitVec 7) (a b : BitVec 8) : State → Answer :=
  alu2 (.unpknS d a b) d a b fun x y => BitVec.ofInt 32 (signedOf 4 (nibble x y))
def execUnpknU (d : BitVec 7) (a b : BitVec 8) : State → Answer :=
  alu2 (.unpknU d a b) d a b fun x y => BitVec.ofNat 32 (nibble x y)
def execPackh (d : BitVec 7) (a b : BitVec 8) : State → Answer :=
  alu2 (.packh d a b) d a b fun x y => BitVec.ofNat 32 (y.toNat % 65536 * 65536 + x.toNat % 65536)

end Sys2Proof.Machine
end

