-- ==== Sys2Proof/Machine/Float.lean ====
section
/-! DEFINITION. The floating-point, packed and conversion instructions of chapter 07 (R152-R171). -/

namespace Sys2Proof.Machine

/-- An FP32 or packed result of two sources and, where `readsD`, the destination: `f env vd a b`. -/
def fp32Form (i : Instr) (d : BitVec 7) (a : BitVec 8) (b : Option (BitVec 8)) (readsD hinted : Bool)
    (pk : Option Fmt) (f : FpEnv → Nat → Nat → Nat → FpOut) : State → Answer :=
  issueThread (wordOf i) (.plain ([.v d.toNat 1, .src a 1] ++ (b.toList.map fun b => .src b 1))) false noStall
    fun x t =>
      let read := fun g => match pk with
        | some fmt => x.packed t g fmt
        | none => x.int t g
      let u := read a
      let v := match b with
        | some b => read b
        | none => ⟨0, none⟩
      let o := t.reg x.s d.toNat
      let p := (u.poison.join v.poison).join (if readsD then o.poison else none)
      fpFinish d.toNat 1 p (f (t.fpEnv hinted) o.val.toNat u.val.toNat v.val.toNat) t

def fpBin (i : Instr) (d : BitVec 7) (a b : BitVec 8) (hinted : Bool) (f : FpEnv → Nat → Nat → FpOut) :
    State → Answer := fp32Form i d a (some b) false hinted none fun e _ x y => f e x y

def fpOne (i : Instr) (d : BitVec 7) (a : BitVec 8) (hinted : Bool) (f : FpEnv → Nat → FpOut) : State → Answer :=
  fp32Form i d a none false hinted none fun e _ x _ => f e x

/-! ### FARITH (R156, R157) -/

def execFadd (d : BitVec 7) (a b : BitVec 8) : State → Answer := fpBin (.fadd d a b) d a b true (fpAdd fp32)
def execFsub (d : BitVec 7) (a b : BitVec 8) : State → Answer := fpBin (.fsub d a b) d a b true (fpSub fp32)
def execFmul (d : BitVec 7) (a b : BitVec 8) : State → Answer := fpBin (.fmul d a b) d a b true (fpMul fp32)
def execFmin (d : BitVec 7) (a b : BitVec 8) : State → Answer :=
  fpBin (.fmin d a b) d a b false fun e => fpMinMax fp32 e.ftz false false
def execFmax (d : BitVec 7) (a b : BitVec 8) : State → Answer :=
  fpBin (.fmax d a b) d a b false fun e => fpMinMax fp32 e.ftz true false
def execFminm (d : BitVec 7) (a b : BitVec 8) : State → Answer :=
  fpBin (.fminm d a b) d a b false fun e => fpMinMax fp32 e.ftz false true
def execFmaxm (d : BitVec 7) (a b : BitVec 8) : State → Answer :=
  fpBin (.fmaxm d a b) d a b false fun e => fpMinMax fp32 e.ftz true true
def execFcopys (d : BitVec 7) (a b : BitVec 8) : State → Answer :=
  alu2 (.fcopys d a b) d a b fun x y => (y &&& 0x80000000#32) ||| (x &&& 0x7FFFFFFF#32)

/-! ### FFMA (R158) -/

def fmaForm (i : Instr) (d : BitVec 7) (a b : BitVec 8) (np na : Bool) : State → Answer :=
  fp32Form i d a (some b) true true none fun e c x y => fpFma fp32 e np na x y c

def execFmac (d : BitVec 7) (a b : BitVec 8) : State → Answer := fmaForm (.fmac d a b) d a b false false
def execFmsc (d : BitVec 7) (a b : BitVec 8) : State → Answer := fmaForm (.fmsc d a b) d a b false true
def execFnmac (d : BitVec 7) (a b : BitVec 8) : State → Answer := fmaForm (.fnmac d a b) d a b true false
def execFnmsc (d : BitVec 7) (a b : BitVec 8) : State → Answer := fmaForm (.fnmsc d a b) d a b true true

/-! ### FUN (R159-R161) -/

def execFrcp (d : BitVec 7) (a : BitVec 8) : State → Answer := fpOne (.frcp d a) d a true fun e => fpUn fp32 e Exact.rcp
def execFsqrt (d : BitVec 7) (a : BitVec 8) : State → Answer :=
  fpOne (.fsqrt d a) d a true fun e => fpUn fp32 e Exact.sqrt
def execFrsq (d : BitVec 7) (a : BitVec 8) : State → Answer := fpOne (.frsq d a) d a true fun e => fpUn fp32 e Exact.rsq
def execFexp2 (d : BitVec 7) (a : BitVec 8) : State → Answer :=
  fpOne (.fexp2 d a) d a true fun e => fpUn fp32 e Exact.exp2
def execFlog2 (d : BitVec 7) (a : BitVec 8) : State → Answer :=
  fpOne (.flog2 d a) d a true fun e => fpUn fp32 e Exact.log2
def execFsinpi (d : BitVec 7) (a : BitVec 8) : State → Answer :=
  fpOne (.fsinpi d a) d a true fun e => fpUn fp32 e Exact.sinpi
def execFcospi (d : BitVec 7) (a : BitVec 8) : State → Answer :=
  fpOne (.fcospi d a) d a true fun e => fpUn fp32 e Exact.cospi
def execFrint (d : BitVec 7) (a : BitVec 8) : State → Answer :=
  fpOne (.frint d a) d a true fun e => fpUn fp32 e (Exact.rint e.mode)

/-! ### FMISC (R162-R164) -/

def execFdiv (d : BitVec 7) (a b : BitVec 8) : State → Answer := fpBin (.fdiv d a b) d a b true (fpDiv fp32)
def execFclass (d : BitVec 7) (a : BitVec 8) : State → Answer :=
  alu1 (.fclass d a) d a fun x => BitVec.ofNat 32 (fpClass x.toNat)
def execFneg (d : BitVec 7) (a : BitVec 8) : State → Answer := alu1 (.fneg d a) d a fun x => x ^^^ 0x80000000#32
def execFabs (d : BitVec 7) (a : BitVec 8) : State → Answer := alu1 (.fabs d a) d a fun x => x &&& 0x7FFFFFFF#32
def execFscale (d : BitVec 7) (a b : BitVec 8) : State → Answer :=
  fpBin (.fscale d a b) d a b true fun e x n => fpScale e x (signedOf 32 n)
def execFgetexp (d : BitVec 7) (a : BitVec 8) : State → Answer :=
  fpOne (.fgetexp d a) d a false fun e => fpGetExp e.ftz
def execFgetman (d : BitVec 7) (a : BitVec 8) : State → Answer :=
  fpOne (.fgetman d a) d a false fun e => fpGetMan e.ftz

/-! ### Packed pairs (R165, R166) -/

/-- The type field of H2A: FP16 or BF16. -/
def halfFmt (t : BitVec 1) : Fmt := if t = 0#1 then fp16 else bf16

def h2Form (i : Instr) (d : BitVec 7) (a b : BitVec 8) (fmt : Fmt) (readsD hinted : Bool)
    (f : FpEnv → Nat → Nat → Nat → FpOut) : State → Answer :=
  fp32Form i d a (some b) readsD hinted (some fmt) f

def execHadd2 (d : BitVec 7) (a b : BitVec 8) (t : BitVec 1) : State → Answer :=
  h2Form (.hadd2 d a b t) d a b (halfFmt t) false true fun e c x y => packed (fun x y _ => fpAdd (halfFmt t) e x y) x y c
def execHmul2 (d : BitVec 7) (a b : BitVec 8) (t : BitVec 1) : State → Answer :=
  h2Form (.hmul2 d a b t) d a b (halfFmt t) false true fun e c x y => packed (fun x y _ => fpMul (halfFmt t) e x y) x y c
def execHmac2 (d : BitVec 7) (a b : BitVec 8) (t : BitVec 1) : State → Answer :=
  h2Form (.hmac2 d a b t) d a b (halfFmt t) true true fun e c x y =>
    packed (fun x y z => fpFma (halfFmt t) e false false x y z) x y c
def execHmax2 (d : BitVec 7) (a b : BitVec 8) (t : BitVec 1) : State → Answer :=
  h2Form (.hmax2 d a b t) d a b (halfFmt t) false false fun e c x y =>
    packed (fun x y _ => fpMinMax (halfFmt t) e.ftz true false x y) x y c

def hmin2Form (i : Instr) (d : BitVec 7) (a b : BitVec 8) (fmt : Fmt) : State → Answer :=
  h2Form i d a b fmt false false fun e c x y => packed (fun x y _ => fpMinMax fmt e.ftz false false x y) x y c
def hsub2Form (i : Instr) (d : BitVec 7) (a b : BitVec 8) (fmt : Fmt) : State → Answer :=
  h2Form i d a b fmt false true fun e c x y => packed (fun x y _ => fpSub fmt e x y) x y c
def hdot2Form (i : Instr) (d : BitVec 7) (a b : BitVec 8) (fmt : Fmt) : State → Answer :=
  h2Form i d a b fmt true true fun e c x y => fpDot2 fmt e x y c

def execHmin2F16 (d : BitVec 7) (a b : BitVec 8) : State → Answer := hmin2Form (.hmin2F16 d a b) d a b fp16
def execHmin2Bf16 (d : BitVec 7) (a b : BitVec 8) : State → Answer := hmin2Form (.hmin2Bf16 d a b) d a b bf16
def execHsub2F16 (d : BitVec 7) (a b : BitVec 8) : State → Answer := hsub2Form (.hsub2F16 d a b) d a b fp16
def execHsub2Bf16 (d : BitVec 7) (a b : BitVec 8) : State → Answer := hsub2Form (.hsub2Bf16 d a b) d a b bf16
def execHdot2F16 (d : BitVec 7) (a b : BitVec 8) : State → Answer := hdot2Form (.hdot2F16 d a b) d a b fp16
def execHdot2Bf16 (d : BitVec 7) (a b : BitVec 8) : State → Answer := hdot2Form (.hdot2Bf16 d a b) d a b bf16

/-! ### DARITH (R167): register pairs -/

def fp64Form (i : Instr) (d : BitVec 7) (a : BitVec 8) (b : Option (BitVec 8)) (readsD hinted : Bool)
    (f : FpEnv → Nat → Nat → Nat → FpOut) : State → Answer :=
  issueThread (wordOf i) (.plain ([.v d.toNat 2, .src a 2] ++ (b.toList.map fun b => .src b 2))) false noStall
    fun x t =>
      let u := x.fp64 t a
      let v := match b with
        | some b => x.fp64 t b
        | none => (0#64, none)
      let o := x.vregs t d.toNat 2
      let p := (u.2.join v.2).join (if readsD then o.2 else none)
      fpFinish d.toNat 2 p (f (t.fpEnv hinted) o.1 u.1.toNat v.1.toNat) t

/-- `vd` of DARITH is a 6-bit field, the even register number without its zero bit 19. -/
def pairReg (d : BitVec 6) : BitVec 7 := d ++ 0#1

def dBin (i : Instr) (d : BitVec 6) (a b : BitVec 8) (hinted : Bool) (f : FpEnv → Nat → Nat → FpOut) : State → Answer :=
  fp64Form i (pairReg d) a (some b) false hinted fun e _ x y => f e x y

def execDadd (d : BitVec 6) (a b : BitVec 8) : State → Answer := dBin (.dadd d a b) d a b true (fpAdd fp64)
def execDsub (d : BitVec 6) (a b : BitVec 8) : State → Answer := dBin (.dsub d a b) d a b true (fpSub fp64)
def execDmul (d : BitVec 6) (a b : BitVec 8) : State → Answer := dBin (.dmul d a b) d a b true (fpMul fp64)
def execDfmac (d : BitVec 6) (a b : BitVec 8) : State → Answer :=
  fp64Form (.dfmac d a b) (pairReg d) a (some b) true true fun e c x y => fpFma fp64 e false false x y c
def execDmin (d : BitVec 6) (a b : BitVec 8) : State → Answer :=
  dBin (.dmin d a b) d a b false fun _ => fpMinMax fp64 false false false
def execDmax (d : BitVec 6) (a b : BitVec 8) : State → Answer :=
  dBin (.dmax d a b) d a b false fun _ => fpMinMax fp64 false true false
def execDdiv (d : BitVec 6) (a b : BitVec 8) : State → Answer := dBin (.ddiv d a b) d a b true (fpDiv fp64)
def execDsqrt (d : BitVec 6) (a : BitVec 8) : State → Answer :=
  fp64Form (.dsqrt d a) (pairReg d) a none false true fun e _ x _ => fpUn fp64 e Exact.sqrt x

/-! ### FCMP (R168) -/

/-- A floating-point comparison: cc 14 and 15 are not claimed; an enabled NV leaves the predicate unwritten. -/
def fcmpForm (i : Instr) (p : BitVec 3) (c : BitVec 4) (a b : BitVec 8) (w : BitVec 1) (m : Combine) : State → Answer :=
  let cnt := if w = 0#1 then 1 else 2
  issueThread (wordOf i) ⟨[.src a cnt, .src b cnt], decide (c.toNat < 14), none, fun _ => none⟩ false noStall fun x t =>
    let (u, up) : Nat × Poison :=
      if w = 0#1 then ((x.int t a).val.toNat, (x.int t a).poison) else ((x.fp64 t a).1.toNat, (x.fp64 t a).2)
    let (v, vp) : Nat × Poison :=
      if w = 0#1 then ((x.int t b).val.toNat, (x.int t b).poison) else ((x.fp64 t b).1.toNat, (x.fp64 t b).2)
    let old := t.pred p.toNat
    let q := m.poison old.poison (up.join vp)
    let r := fpCompare (if w = 0#1 then fp32 else fp64) (t.fpEnv false).ftz c.toNat u v
    let new : Pred := ⟨m.apply old.val r.1, q⟩
    if q.isSome then .ok (t.setPred p.toNat new) none []
    else
      let t := { t with fflags := t.fflags ||| r.2.bits }
      if r.2.bits &&& t.fen = 0#5 then .ok (t.setPred p.toNat new) none []
      else .fault ⟨cFp, fpInfo p.toNat r.2 true, 0⟩ t

def execFcmp (p : BitVec 3) (c : BitVec 4) (a b : BitVec 8) (w : BitVec 1) : State → Answer :=
  fcmpForm (.fcmp p c a b w) p c a b w .set
def execFcmpAnd (p : BitVec 3) (c : BitVec 4) (a b : BitVec 8) (w : BitVec 1) : State → Answer :=
  fcmpForm (.fcmpAnd p c a b w) p c a b w .and
def execFcmpOr (p : BitVec 3) (c : BitVec 4) (a b : BitVec 8) (w : BitVec 1) : State → Answer :=
  fcmpForm (.fcmpOr p c a b w) p c a b w .or

/-! ### CVT (R169-R171) -/

/-- Whether a conversion reads vd: the byte forms keep its other bytes. -/
def cvtReadsD (code : Nat) : Bool := decide (0x28 ≤ code)

/-- A conversion: its own rounding field, ftz and saturate of R139; the numeric event is counted when
`%mode`.cvtcount is 1, whether or not it traps (R149, R170), and no operand is poisoned (log 91). -/
def execCvt (d : BitVec 7) (a code : BitVec 8) (s : BitVec 1) (r : BitVec 2) : State → Answer :=
  let k := code.toNat
  let cnt := cvtSrcRegs k
  let out := cvtDstRegs k
  issueThread (wordOf (.cvt d a code s r))
    ⟨[.v d.toNat out, .src a cnt], cvtCodeOk k (s ++ r).toNat, none, fun _ => none⟩ false noStall fun x t =>
      let (u, up) : Nat × Poison :=
        if cnt = 2 then ((x.fp64 t a).1.toNat, (x.fp64 t a).2)
        else
          let v := match cvtSrcFmt k with
            | some f => x.packed t a f
            | none => x.int t a
          (v.val.toNat, v.poison)
      let o := t.reg x.s d.toNat
      let p := up.join (if cvtReadsD k then o.poison else none)
      let e := t.fpEnv true
      let e : FpEnv := { e with mode := Rnd.ofBits r.toNat, sat := e.sat || (!cvtExact k && s = 1#1) }
      let res := cvtResult k e u o.val.toNat
      let post : List (State → State) :=
        if t.mode.getLsbD 3 ∧ p = none ∧ res.event.isSome then
          [fun s => s.countNum x.w.launch (t.mode.extractLsb' 4 6).toNat res.event]
        else []
      match fpFinish d.toNat out p res t with
      | .ok t' place _ => .ok t' place post
      | .fault f t' => .trap f t' post
      | .trap f t' _ => .trap f t' post

end Sys2Proof.Machine
end

