-- ==== Sys2Proof/Machine/Control.lean ====
section
/-! DEFINITION. System forms, traps, branches, waits and barriers of threads (R176-R188, R342), special
registers (R126-R128), and hints (R71-R76). -/

namespace Sys2Proof.Machine

/-- A form whose only effect is where the thread goes (it ends the block). -/
def parkForm (i : Instr) (place : Who → Place) : State → Answer :=
  issueThread (wordOf i) (.plain []) true noStall fun x t => .ok t (some (place x)) []

/-! ### SYS (R176-R178, R342) -/

def execNop : State → Answer := issueThread (wordOf .nop) (.plain []) false noStall fun _ t => .ok t none []

def execExit : State → Answer := parkForm .exit fun _ => .exited

def execYield : State → Answer := parkForm .yield fun x => .waiting (x.pc + 1) .ready

/-- The core-cycle counter of a workgroup's die (R128). -/
def State.clock (s : State) (w : Wg) : Nat := if w.die = 0 then s.die0.cycles else s.die1.cycles

/-- `SLEEP`: reason 5 until c + n core cycles; n = 0 parks ready (R178). -/
def execSleep (n : BitVec 20) : State → Answer :=
  parkForm (.sleep n) fun x =>
    .waiting (x.pc + 1) (if n = 0#20 then .ready else .sleep (x.s.clock x.w + n.toNat))

/-- A `UBLK` at the key executes as a no-operation (R81); one elsewhere is never inside a block (R46). -/
def execUblk : State → Answer := issueThread (wordOf .ublk) (.plain []) false noStall fun _ t => .ok t none []

def execTrap (n : BitVec 8) : State → Answer :=
  issueThread (wordOf (.trap n)) (.plain []) true noStall fun _ t => .fault ⟨cUserTrap, n.setWidth 32, 0⟩ t

/-- `TRET` (R342): only inside a handler; the saved hints are dropped, or restored for the word at `%fpc`. The
hints of this instruction itself are cleared before. -/
def tretForm (i : Instr) (retry : Bool) : State → Answer :=
  issueThread (wordOf i) (.plain []) true noStall fun x t =>
    if ¬ t.inTrap then .fault (illegalWord x.word) t
    else
      let key := t.fpc.toNat / 4 + if retry then 0 else 1
      .ok { t with inTrap := false, resume := retry, saved := if retry then t.saved else none }
        (some (.waiting key .ready)) []

def execTretNext : State → Answer := tretForm .tretNext false

def execTretRetry : State → Answer := tretForm .tretRetry true

/-- `BRK` raises BREAKPOINT in a debug launch, unless the thread was just released at it (R342, R345). -/
def execBrk (c : BitVec 8) : State → Answer :=
  issueThread (wordOf (.brk c)) (.plain []) false noStall fun x t =>
    if x.s.isDebug x.w ∧ ¬ t.suppress then .fault ⟨cBreakpoint, BitVec.ofNat 32 (0x100 + c.toNat), 0⟩ t
    else .ok t none []

/-! ### Branches (R179-R181) -/

/-- The key of a branch target, or the fault of R35 with the target's byte address (R204). -/
def targetKey (x : Who) (target : Int) : Except FaultInfo Nat :=
  if target < 0 ∨ 2 ^ 24 ≤ target then
    let base := match x.s.launchOf x.w with
      | some l => l.code
      | none => 0
    .error ⟨cProtect, 0x28#32, base + BitVec.ofInt 64 (4 * target)⟩
  else .ok target.toNat

/-- Whether control transfers of a workgroup are logged (R349, R356): a `RET` with the same kind, the only one there is for a transfer, and
no mark of its own (log 103). -/
def traceEntry (x : Who) (tid key : Nat) : List (State → State) :=
  if x.w.trace then [fun s => s.logEntry x.w tid 6 x.pc (4 * key)] else []

def traceStall (x : Who) (ts : List Thread) : Option Nat := if x.w.trace then x.s.logStall x.w ts else none

/-- Go to a computed target, or take its fault. -/
def goTo (x : Who) (t : Thread) (target : Int) : Act :=
  match targetKey x target with
  | .error f => .fault f t
  | .ok k => .ok t (some (.waiting k .ready)) (traceEntry x t.tid k)

def execBra (p : BitVec 3) (n : BitVec 1) (d : BitVec 22) : State → Answer :=
  issueThread (wordOf (.bra p n d)) (.plain []) true traceStall fun x t =>
    let c := t.pred p.toNat
    match c.poison with
    | some q => .fault (poisonFault q 1) t
    | none => goTo x t (if c.val != (n = 1#1) then x.pc + d.toInt else x.pc + 1)

/-- `BRX` and `RET` (R180). -/
def brxForm (i : Instr) (a : BitVec 8) : State → Answer :=
  issueThread (wordOf i) (.plain [.src a 1]) true traceStall fun x t =>
    let u := x.int t a
    match u.poison with
    | some q => .fault (poisonFault q 1) t
    | none => goTo x t u.val.toNat

def execBrx (a : BitVec 8) : State → Answer := brxForm (.brx a) a

def execRet (a : BitVec 8) : State → Answer := brxForm (.ret a) a

def execCall (l : BitVec 7) (d : BitVec 19) : State → Answer :=
  issueThread (wordOf (.call l d)) (.plain [.v l.toNat 1]) true traceStall fun x t =>
    goTo x (match targetKey x (x.pc + d.toInt) with
      | .error _ => t
      | .ok _ => t.write l.toNat [⟨BitVec.ofNat 32 (x.pc + 1), none⟩]) (x.pc + d.toInt)

/-! ### WAIT (R183, R184, R231) -/

/-- Whether a met `WAIT` acquires: one of nc, nm, nx lies below the count of its class (R231). -/
def coversEngines (c : Counters) (nc nm nx : Nat) : Bool :=
  decide (nc < c.copies) || decide (nm < c.matrix) || decide (nx < c.colls)

def execWait (l s c m x : BitVec 5) : State → Answer :=
  issueThread (wordOf (.wait l s c m x)) (.plain []) true noStall fun w t =>
    let uni := w.r.uniform
    let key := w.pc + 1
    let acq := coversEngines t.cnt c.toNat m.toNat x.toNat ||
      (uni && coversEngines w.w.common c.toNat m.toNat x.toNat)
    if meets t.cnt w.w.common uni l.toNat s.toNat c.toNat m.toNat x.toNat then
      .ok t (some (.waiting key .ready)) []
    else .ok t (some (.waiting key (.counters l.toNat s.toNat c.toNat m.toNat x.toNat uni acq))) []

/-! ### Barriers (R185-R187) -/


/-- A barrier that has not been used has completed no phase. -/
def State.openBarrier (s : State) (w : Wg) (scope id : Nat) : State :=
  match s.barrierAt w scope id with
  | some _ => s
  | none => { s with barriers := s.barriers ++ [⟨scope, s.barrierInst w scope, id, 0, []⟩] }

def barForm (i : Instr) (s : BitVec 3) (stall : Who → List Thread → Option Nat) (op : Who → Thread → Act) : State → Answer :=
  issueThread (wordOf i) ⟨[], decide (s.toNat < 5), none, fun _ => none⟩ true stall op

/-- `BAR.SYNC` and `BAR.ARRIVE`: parked with reason 2 until the release is complete and the arrival counted
(`BARRIER_ARRIVAL`), and `SYNC` until the phase completes. -/
def arriveForm (i : Instr) (s : BitVec 3) (id : BitVec 6) (k : BarKind) : State → Answer :=
  barForm i s noStall fun x t =>
    .ok t (some (.waiting (x.pc + 1) (.barrier s.toNat id.toNat k true 0)))
      [fun st => st.openBarrier x.w s.toNat id.toNat]

def execBarSync (s : BitVec 3) (i : BitVec 6) : State → Answer := arriveForm (.barSync s i) s i .sync

def execBarArrive (s : BitVec 3) (i : BitVec 6) : State → Answer := arriveForm (.barArrive s i) s i .arrive

/-- `BAR.WAIT`: waits for the phase of the thread's last arrival, or is ready at once and acquires. Its acquire waits for the thread's
earlier loads (R225): the group stalls for them before it parks. -/
def execBarWait (s : BitVec 3) (i : BitVec 6) : State → Answer :=
  barForm (.barWait s i) s (fun _ ts => if ts.any fun t => decide (0 < t.cnt.loads) then some 2 else none) fun x t =>
    match x.s.barrierAt x.w s.toNat i.toNat with
    | some b =>
      if b.arrived.contains (x.w.uid, t.tid) then
        .ok t (some (.waiting (x.pc + 1) (.barrier s.toNat i.toNat .wait false b.phase))) []
      else .ok t (some (.waiting (x.pc + 1) .ready)) [fun st => st.dropUnowned x.w.core]
    | none => .ok t (some (.waiting (x.pc + 1) .ready)) [fun st => st.dropUnowned x.w.core]

/-! ### Special registers (R126-R128) -/

/-- The value of a special register. -/
def specialValue (x : Who) (t : Thread) (id : Nat) : Word :=
  let n := fun k : Nat => BitVec.ofNat 32 k
  match id with
  | 0x000 => n t.tid
  | 0x001 => n (t.tid % 32)
  | 0x002 => n x.w.num
  | 0x003 => n x.w.rank
  | 0x004 => match x.s.gang? x.w.gang with
    | some g => n g.num
    | none => 0#32
  | 0x005 => n x.w.nthr
  | 0x006 => match x.s.launchOf x.w with
    | some l => n l.nwg
    | none => 0#32
  | 0x007 => n x.w.core
  | 0x008 => n x.w.quad
  | 0x009 => n x.w.die
  | 0x00A => Config.devNumber.setWidth 32
  | 0x00B => n (x.s.worldOf x.w)
  | 0x00C => (x.s.tagOf x.w).setWidth 32
  | 0x00D => n (4 * x.w.quota * t.tid)
  | 0x00E => n (x.s.clock x.w)
  | 0x00F => t.clkh
  | 0x010 => n (4 * x.pc)
  | 0x011 => t.fpc
  | 0x012 => t.fcause
  | 0x013 => t.finfo
  | 0x014 => t.fmask
  | 0x015 => t.fflags.setWidth 32
  | 0x016 => t.fen.setWidth 32
  | 0x017 => x.w.tvec
  | 0x018 => t.mode.setWidth 32
  | _ => n x.w.launch

/-- `SRD` (R128): reading `%clk` latches the high half, and the counter is logged under the record flag, all 64 bits (R356). -/
def execSrd (r : BitVec 7) (i : BitVec 10) : State → Answer :=
  let id := i.toNat
  issueThread (wordOf (.srd r i)) ⟨[.v r.toNat 1], decide (id ≤ 0x019), none, fun _ => none⟩ false
    (fun x ts => if id = 0x00E then x.s.logStall x.w ts else none) fun x t =>
      let t1 := t.write r.toNat [⟨specialValue x t id, none⟩]
      if id = 0x00E then
        let c := x.s.clock x.w
        .ok { t1 with clkh := BitVec.ofNat 32 (c / 2 ^ 32) } none [fun s => s.logEntry x.w t.tid 3 x.pc (c % 2 ^ 64)]
      else .ok t1 none []

/-- `SWR` (R128). `%tvec` is a register of the workgroup: of the values several threads of a group write, one
stays, which one is a free choice; of several groups the last one's stays (log 4). A fault of a run on the other port in between finds
what the groups so far have written (log 102). -/
def execSwr (r : BitVec 7) (i : BitVec 10) : State → Answer :=
  let id := i.toNat
  let fm : Form := ⟨[.v r.toNat 1], decide (0x015 ≤ id) && decide (id ≤ 0x018), none, fun _ => none⟩
  issueThread (wordOf (.swr r i)) fm false noStall fun x t =>
    let u := t.reg x.s r.toNat
    match u.poison with
    | some q => .fault (poisonFault q 4) t
    | none =>
      let v := u.val
      if id = 0x015 then .ok { t with fflags := t.fflags &&& ~~~(v.setWidth 5) } none []
      else if id = 0x016 then .ok { t with fen := v.setWidth 5 } none []
      else if id = 0x018 then .ok { t with mode := v.setWidth 10 } none []
      else
        .ok t none [fun s =>
          if x.leads fm (fun u => (u.reg x.s r.toNat).poison.isNone) t || s.choose t.tid then
            s.onWg x.w.uid fun w => { w with tvec := v &&& 0x03FFFFFD#32 }
          else s]

/-! ### Hints (R71-R76)

A hint issues for every thread of the group, or, before a uniform instruction, once for every thread of the run (R78): it takes no
guard, and its only effect is on the pending state. A reserved payload raises `ILLEGAL` at the hint (R84, order 2). -/

/-- Issue a hint. -/
def issueHintWord (word : Word) (claimed : Bool) (f : Hints → Hints) (s : State) : Answer :=
  match s.issuer with
  | none => .fault .noIssuer
  | some (r, w) =>
    let x : Who := ⟨s, w, r, word, r.key + r.idx⟩
    let whole := r.hintsUniform
    let tids := if whole then r.groups.flatten else r.groups.getD r.grp []
    let ts := w.threads.filter fun t => tids.contains t.tid
    match heldBack ts with
    | some n => .next (s.stallRun r n)
    | none =>
      let fs : List (Nat × FaultInfo) := ts.filterMap fun t =>
        match (if t.suppress then none else s.comparatorAt r w.launch x.pc) with
        | some k => some (t.tid, ⟨cBreakpoint, BitVec.ofNat 32 k, 0⟩)
        | none => if claimed then none else some (t.tid, illegalWord x.word)
      let ok := tids.filter fun t => !(fs.any fun f => f.1 = t)
      let s1 := s.onWg w.uid fun w =>
        { w with threads := w.threads.map fun t => if ok.contains t.tid then { t with hints := f t.hints } else t }
      let lanes := fun tid : Nat => laneMask ((fs.map (·.1)).filter fun t => r.groups.any fun g => g.contains tid && g.contains t)
      let s2 := s1.raise false w.uid x.pc (fs.map fun f => (f.1, lanes f.1, f.2))
      let s3 := s2.issuedOne w
      .next ((if whole then s3 else s3.count (s.tagOf w) 0x02 ts.length).advanceFree.advance r.core r.port whole)

def issueHint (i : Instr) : Bool → (Hints → Hints) → State → Answer := issueHintWord (wordOf i)

def execHintImms (i : BitVec 22) : State → Answer :=
  issueHint (.hintImms i) true fun h => { h with lit := i.signExtend 32, litSet := true }
def execHintImmh (i : BitVec 16) : State → Answer :=
  issueHint (.hintImmh i) true fun h => { h with lit := i ++ (h.lit.extractLsb' 0 16), litSet := true }
def execHintImml (i : BitVec 16) : State → Answer :=
  issueHint (.hintImml i) true fun h => { h with lit := (h.lit.extractLsb' 16 16) ++ i, litSet := true }
def execHintPred (n : BitVec 1) (p : BitVec 3) : State → Answer :=
  issueHint (.hintPred n p) true fun h => { h with pred := some (p, n = 1#1) }
/-- Cache policy 3 is reserved. -/
def execHintMem (n : BitVec 1) (k : BitVec 2) (r q : BitVec 1) (c : BitVec 3) : State → Answer :=
  issueHint (.hintMem n k r q c) (k ≠ 3#2) fun h => { h with mem := some (n ++ k ++ r ++ q ++ c) }
def execHintRnd (s f : BitVec 1) (r : BitVec 2) : State → Answer :=
  issueHint (.hintRnd s f r) true fun h => { h with rnd := some (s ++ f ++ r) }
def execHintDisp (d : BitVec 22) : State → Answer :=
  issueHint (.hintDisp d) true fun h => { h with disp := some d }
def execHintDead (b : BitVec 6) (m : BitVec 16) : State → Answer :=
  issueHint (.hintDead b m) true fun h => { h with dead := some (b, m) }
/-- A fill threshold above 2,048 is reserved. -/
def execHintSchedFill (n : BitVec 12) : State → Answer :=
  issueHint (.hintSchedFill n) (decide (n.toNat ≤ 2048)) fun h => { h with sched := some (false, n.setWidth 16) }
def execHintSchedAge (n : BitVec 16) : State → Answer :=
  issueHint (.hintSchedAge n) true fun h => { h with sched := some (true, n) }

end Sys2Proof.Machine
end

