-- ==== Sys2Proof/Machine/Uniform.lean ====
section
/-! DEFINITION. The vamp's own instructions: the uniform branch, scalar and address arithmetic, the workgroup
reduction (R182, R189-R195), and the register quota (R129-R131). -/

namespace Sys2Proof.Machine

def noStallU : Who → Option Nat := fun _ => none

/-- The state after common registers are written from `n` on. -/
def Who.put (x : Who) (s : State) (n : Nat) (vals : List Reg) : State := s.onWg x.w.uid fun w => w.setCommons n vals

/-! ### BRU (R182) -/

def bruTaken (t : Nat) (v : Word) : Bool :=
  match t with
  | 0 => true
  | 1 => v = 0#32
  | 2 => v ≠ 0#32
  | 3 => v.toInt < 0
  | 4 => 0 ≤ v.toInt
  | 5 => 0 < v.toInt
  | _ => v.toInt ≤ 0

/-- `BRU` (R182); a trace logs it once, under the first thread of the run (log 103). -/
def execBru (c : BitVec 6) (t : BitVec 3) (d : BitVec 17) : State → Answer :=
  let always := t = 0#3
  issueUniform (wordOf (.bru c t d))
    ⟨if always then [] else [.c c.toNat 1 c.toNat], decide (t.toNat < 7) && (!decide always || c = 0#6), none, fun _ => none⟩
    (fun x => traceStall x (x.w.threads.filter fun t => x.r.groups.flatten.contains t.tid)) fun x =>
      let v := x.w.creg c.toNat
      match (if always then none else v.poison) with
      | some q => .fault (poisonFault q 1)
      | none =>
        match targetKey x (if bruTaken t.toNat v.val then x.pc + d.toInt else x.pc + 1) with
        | .error f => .fault f
        | .ok k => .park ((traceEntry x (x.r.groups.flatten.headD 0) k).foldl (fun s f => f s) x.s) k

/-! ### CALU and CADDI (R189, R190) -/

def calu (i : Instr) (d : BitVec 6) (a b : BitVec 8) (f : Word → Word → Word) : State → Answer :=
  issueUniform (wordOf i) (.plain [.c d.toNat 1 d.toNat, .usrc a 1, .usrc b 1]) noStallU fun x =>
    let u := x.uint a
    let v := x.uint b
    .ok (x.put x.s d.toNat [⟨f u.val v.val, u.poison.join v.poison⟩])

def boolWord (b : Bool) : Word := if b then 1#32 else 0#32

def execCadd (d : BitVec 6) (a b : BitVec 8) : State → Answer := calu (.cadd d a b) d a b fun x y => x + y
def execCsub (d : BitVec 6) (a b : BitVec 8) : State → Answer := calu (.csub d a b) d a b fun x y => x - y
def execCmul (d : BitVec 6) (a b : BitVec 8) : State → Answer := calu (.cmul d a b) d a b fun x y => x * y
def execCand (d : BitVec 6) (a b : BitVec 8) : State → Answer := calu (.cand d a b) d a b fun x y => x &&& y
def execCor (d : BitVec 6) (a b : BitVec 8) : State → Answer := calu (.cor d a b) d a b fun x y => x ||| y
def execCxor (d : BitVec 6) (a b : BitVec 8) : State → Answer := calu (.cxor d a b) d a b fun x y => x ^^^ y
def execCshl (d : BitVec 6) (a b : BitVec 8) : State → Answer := calu (.cshl d a b) d a b fun x y => x <<< amount y
def execCshr (d : BitVec 6) (a b : BitVec 8) : State → Answer := calu (.cshr d a b) d a b fun x y => x >>> amount y
def execCsar (d : BitVec 6) (a b : BitVec 8) : State → Answer :=
  calu (.csar d a b) d a b fun x y => x.sshiftRight (amount y)
def execCminS (d : BitVec 6) (a b : BitVec 8) : State → Answer :=
  calu (.cminS d a b) d a b fun x y => if x.sle y then x else y
def execCmaxS (d : BitVec 6) (a b : BitVec 8) : State → Answer :=
  calu (.cmaxS d a b) d a b fun x y => if y.sle x then x else y
def execCminU (d : BitVec 6) (a b : BitVec 8) : State → Answer :=
  calu (.cminU d a b) d a b fun x y => if x.ule y then x else y
def execCmaxU (d : BitVec 6) (a b : BitVec 8) : State → Answer :=
  calu (.cmaxU d a b) d a b fun x y => if y.ule x then x else y
def execCsltS (d : BitVec 6) (a b : BitVec 8) : State → Answer := calu (.csltS d a b) d a b fun x y => boolWord (x.slt y)
def execCsltU (d : BitVec 6) (a b : BitVec 8) : State → Answer := calu (.csltU d a b) d a b fun x y => boolWord (x.ult y)
def execCseq (d : BitVec 6) (a b : BitVec 8) : State → Answer := calu (.cseq d a b) d a b fun x y => boolWord (x = y)

def execCaddi (d : BitVec 6) (a : BitVec 8) (i : BitVec 12) : State → Answer :=
  issueUniform (wordOf (.caddi d a i)) (.plain [.c d.toNat 1 d.toNat, .usrc a 1]) noStallU fun x =>
    let u := x.uint a
    .ok (x.put x.s d.toNat [⟨u.val + i.signExtend 32, u.poison⟩])

/-! ### AOP (R191) -/

def execAadd (d a : BitVec 4) (s : BitVec 8) : State → Answer :=
  issueUniform (wordOf (.aadd d a s)) (.plain []) noStallU fun x =>
    let u := x.w.addr a.toNat
    .ok (x.s.onWg x.w.uid fun w => w.setAddr d.toNat ⟨u.val + s.signExtend 64, u.poison⟩)

def execAadds (d a : BitVec 4) (s : BitVec 8) (k : BitVec 6) : State → Answer :=
  issueUniform (wordOf (.aadds d a s k)) (.plain []) noStallU fun x =>
    let u := x.w.addr a.toNat
    .ok (x.s.onWg x.w.uid fun w => w.setAddr d.toNat ⟨u.val + s.signExtend 64 <<< k.toNat, u.poison⟩)

def execAfromc (d : BitVec 4) (n : BitVec 6) : State → Answer :=
  issueUniform (wordOf (.afromc d n)) (.plain [.c n.toNat 2 (0x80 + n.toNat)]) noStallU fun x =>
    let lo := x.w.creg n.toNat
    let hi := x.w.creg (n.toNat + 1)
    .ok (x.s.onWg x.w.uid fun w => w.setAddr d.toNat ⟨hi.val ++ lo.val, lo.poison.join hi.poison⟩)

def execAtoc (a : BitVec 4) (n : BitVec 6) : State → Answer :=
  issueUniform (wordOf (.atoc a n)) (.plain [.c n.toNat 2 (0x80 + n.toNat)]) noStallU fun x =>
    let u := x.w.addr a.toNat
    .ok (x.put x.s n.toNat [⟨u.val.extractLsb' 0 32, u.poison⟩, ⟨u.val.extractLsb' 32 32, u.poison⟩])

/-! ### WRED (R194, R195) -/

/-- Combine of R194. -/
def wredCombine (op : Nat) (y z : Word) : Word :=
  let e : FpEnv := ⟨.rne, false, false⟩
  let f := fun o : FpOut => BitVec.ofNat 32 o.bits
  match op with
  | 0 => y + z
  | 1 => f (fpAdd fp32 e y.toNat z.toNat)
  | 2 => if y.sle z then y else z
  | 3 => if z.sle y then y else z
  | 4 => if y.ule z then y else z
  | 5 => if z.ule y then y else z
  | 6 => y &&& z
  | 7 => y ||| z
  | 8 => y ^^^ z
  | 9 => f (fpMinMax fp32 false false false y.toNat z.toNat)
  | 10 => f (fpMinMax fp32 false true false y.toNat z.toNat)
  | _ => y + z

/-- The value with no participant (R194). -/
def wredEmpty (op : Nat) : Word :=
  match op with
  | 2 => 0x7FFFFFFF#32
  | 3 => 0x80000000#32
  | 4 => 0xFFFFFFFF#32
  | 6 => 0xFFFFFFFF#32
  | 9 => 0x7FC00000#32
  | 10 => 0x7FC00000#32
  | _ => 0#32

/-- Combine two places of the tree; an empty place passes the other through (R195). -/
def wredPair (op : Nat) (a b : Option Reg) : Option Reg :=
  match a, b with
  | none, z => z
  | y, none => y
  | some y, some z => some ⟨wredCombine op y.val z.val, y.poison.join z.poison⟩

/-- One level of the tree. -/
def wredLevel (op : Nat) : List (Option Reg) → List (Option Reg)
  | a :: b :: r => wredPair op a b :: wredLevel op r
  | r => r

/-- The eleven levels from 2,048 places to one (R195). -/
def wredTree (op : Nat) : Nat → List (Option Reg) → Option Reg
  | 0, r => r.headD none
  | n + 1, r => wredTree op n (wredLevel op r)

/-- A NaN result of a floating-point reduction is canonical, a single participant's too (R135, R195). -/
def wredResult (op : Nat) (v : Reg) : Reg :=
  if (op = 1 ∨ op = 9 ∨ op = 10) ∧ (fp32.value v.val.toNat).isNan then ⟨0x7FC00000#32, v.poison⟩ else v

/-- `WRED` has its own guard; a poisoned guard is consumed (R375). -/
def execWred (d : BitVec 6) (a : BitVec 8) (r : BitVec 4) (p : BitVec 3) (n : BitVec 1) : State → Answer :=
  let op := r.toNat
  let count := op = 11
  let inRun := fun (x : Who) => x.w.threads.filter fun t => x.r.groups.any (·.contains t.tid)
  let takes := fun (t : Thread) => (t.pred p.toNat).val != (n = 1#1)
  issueUniform (wordOf (.wred d a r p n))
    ⟨[.c d.toNat 1 d.toNat, .src a 1], decide (op < 12) && (!decide count || a = 0#8), none, fun _ => none⟩
    (fun x => if (inRun x).any fun t => !decide count && takes t && t.pending.contains a.toNat then some 13 else none)
    fun x =>
      match firstSome (fun t : Thread => (t.pred p.toNat).poison) (inRun x) with
      | some q => .fault (poisonFault q 1)
      | none =>
        let leaf := fun j => match (inRun x).find? fun t => t.tid = j with
          | some t => if takes t then some (if count then ⟨1#32, none⟩ else x.int t a) else none
          | none => none
        let res := wredResult op ((wredTree op 11 ((List.range 2048).map leaf)).getD ⟨wredEmpty op, none⟩)
        .ok (x.put x.s d.toNat [res])

/-! ### REGQ (R129-R131) -/

/-- The result word of `REGQ`. -/
def regqWord (st : Nat) (w : Wg) : Word := BitVec.ofNat 32 (st + w.quota * 256 + w.budget * 65536)

/-- Insole and scratch of the workgroups resident on a core, one of them at another quota (R15); a guarded
workgroup holds twice its own (R376). -/
def State.coreUse (s : State) (core uid quota : Nat) : Nat :=
  ((s.wgs.filter fun w => decide (w.core = core) && w.isResident).map fun w =>
    let q := if w.uid = uid then quota else w.quota
    let k := match s.launchOf w with
      | some l => if l.guarded then 2 else 1
      | none => 1
    k * (4 * q * w.nthr + w.scratch)).sum

/-- Whole frames of the image of a gang (R314), its workgroups at the quotas `q` gives. -/
def State.gangRoom (s : State) (g : Gang) (q : Wg → Nat) : Nat :=
  let ws := (s.wgs.filter fun w => w.gang = g.uid).map fun w => 4 * q w * w.nthr + w.scratch + 16384
  (ws.sum + g.banks * 131072 + g.accs * 262144 + g.segs * 65536 + 65536 + 65535) / 65536

/-- Frames of a partition's context area that its gangs hold, but for one, by their place in the area; the room of a runtime wave that
is absent stays its own (R314). -/
def State.roomUsed (s : State) (part uid : Nat) : List Nat :=
  ((s.gangs.filter fun g => decide (g.uid ≠ uid) &&
    (s.launch? g.launch).any fun l => decide (Tag.part l.tenant = part)).flatMap fun g => g.room) ++
  (s.tenants.filter fun t => decide (Tag.part t.tag = part) &&
    !(s.gangs.any fun g => decide (some g.launch = t.wave) && (decide (g.uid = uid) || !g.room.isEmpty))).flatMap
      fun t => t.room

/-- The context area of a partition, in frames (R317). -/
def State.ctxSize (s : State) (part : Nat) : Nat := (fld (s.cfgGet (0x01000000 + 8 * part + 7)) 0 24).toNat

/-- The room of `n` frames of a gang that holds some already: those it holds, then the lowest free ones (R314). -/
def State.roomFor (s : State) (part uid : Nat) (held : List Nat) (n : Nat) : Option (List Nat) :=
  let used := s.roomUsed part uid
  let free := (List.range (s.ctxSize part)).filter fun f => !used.contains f && !held.contains f
  let all := held ++ free.take (n - held.length)
  if n ≤ all.length then some all else none

/-- The room a gang needs when a workgroup takes a quota, if its partition's area can grow to it. -/
def State.growRoom (s : State) (w : Wg) (quota : Nat) : Option (Gang × List Nat) :=
  match s.gang? w.gang with
  | none => none
  | some g =>
    let need := s.gangRoom g fun v => if v.uid = w.uid then quota else v.quota
    (s.roomFor (Tag.part (s.tagOf w)) g.uid g.room need).map fun r => (g, r)

/-- Change the number of registers of every thread: kept below both quotas, new ones zero (R130). -/
def Wg.requota (w : Wg) (q : Nat) : Wg :=
  { w with
    quota := q
    threads := w.threads.map fun t =>
      let t := t.flush
      { t with bank := (t.bank ++ List.replicate q (⟨0, none⟩ : Reg)).take q, dead := t.dead.filter fun d => d.1 < q } }

/-- The stall of a quota change: this workgroup's loads, stores and copies must all be done (R130). -/
def quotaStall (w : Wg) : Option Nat :=
  let all := fun (f : Counters → Nat) => w.threads.all (fun t => decide (f t.cnt = 0)) && decide (f w.common = 0)
  if ¬ all Counters.loads then some 2 else if ¬ all Counters.stores then some 3
  else if ¬ all Counters.copies then some 4 else none

/-- The status of `REGQ.SET` before it waits. -/
def regqSetStatus (x : Who) (q : Nat) : Nat :=
  if q < 4 ∨ 128 < q ∨ q % 4 ≠ 0 then 1
  else if x.w.budget < q then 3
  else if 472 * 1024 < x.s.coreUse x.w.core x.w.uid q ∨ (x.w.quota < q ∧ (x.s.growRoom x.w q).isNone) then 2
  else 0

def execRegqSet (d : BitVec 6) (a : BitVec 8) : State → Answer :=
  issueUniform (wordOf (.regqSet d a)) (.plain [.c d.toNat 1 d.toNat, .usrc a 1])
    (fun x =>
      let q := (x.uint a).val.toNat
      if (x.uint a).poison = none ∧ regqSetStatus x q = 0 then quotaStall x.w else none) fun x =>
      match (x.uint a).poison with
      | some p => .fault (poisonFault p 4)
      | none =>
        let q := (x.uint a).val.toNat
        let st := regqSetStatus x q
        if st ≠ 0 ∨ q = x.w.quota then .ok (x.put x.s d.toNat [⟨regqWord st x.w, none⟩])
        else
          let s1 := match x.s.growRoom x.w q with
            | some (g, n) => x.s.onGang g.uid fun g => { g with room := n }
            | none => x.s
          .ok (s1.onWg x.w.uid fun w => let w' := w.requota q; w'.setCommons d.toNat [⟨regqWord 0 w', none⟩])

/-- The workgroup of a rank of a gang that has not retired. -/
def State.rankOf (s : State) (w : Wg) (r : Nat) : Option Wg :=
  s.wgs.find? fun v => decide (v.gang = w.gang) && decide (v.rank = r) && match v.status with
    | .finished _ retired => !retired
    | _ => true

def execRegqXfer (d : BitVec 6) (a b : BitVec 8) : State → Answer :=
  issueUniform (wordOf (.regqXfer d a b)) (.plain [.c d.toNat 1 d.toNat, .usrc a 1, .usrc b 1]) noStallU fun x =>
    match (x.uint a).poison.join (x.uint b).poison with
    | some p => .fault (poisonFault p 4)
    | none =>
      let r := (x.uint a).val.toNat
      let n := (x.uint b).val.toNat
      match (if 3 < r ∨ r = x.w.rank ∨ n = 0 ∨ n % 4 ≠ 0 then none else x.s.rankOf x.w r) with
      | none => .ok (x.put x.s d.toNat [⟨regqWord 1 x.w, none⟩])
      | some v =>
        if x.w.budget < x.w.quota + n ∨ 128 < v.budget + n then .ok (x.put x.s d.toNat [⟨regqWord 3 x.w, none⟩])
        else
          let s1 := x.s.onWg v.uid fun v => { v with budget := v.budget + n }
          .ok (s1.onWg x.w.uid fun w =>
            let w' := { w with budget := w.budget - n }
            w'.setCommons d.toNat [⟨regqWord 0 w', none⟩])

def execRegqGet (d : BitVec 6) : State → Answer :=
  issueUniform (wordOf (.regqGet d)) (.plain [.c d.toNat 1 d.toNat]) noStallU fun x =>
    .ok (x.put x.s d.toNat [⟨regqWord 0 x.w, none⟩])

end Sys2Proof.Machine
end

