-- ==== Sys2Proof/Machine/Memory.lean ====
section
/-! DEFINITION. Loads, stores, atomics, reductions, cache hints, fences, monitors and transaction barriers of
threads, and the vamp's loads and stores (R77, R107, R192, R193, R203-R235, R250, R251, R261), with the steps
that complete them. -/

namespace Sys2Proof.Machine

/-! ### Addresses -/

/-- The byte address of formats M and MT (R77) for element size `e` and offset `k`, and its poison. -/
def Who.address (x : Who) (t : Thread) (sx : BitVec 8) (ab : BitVec 4) (e k : Nat) : AddrReg :=
  let u := x.int t sx
  let a := x.w.addr ab.toNat
  let disp := (t.hints.disp.getD 0#22).signExtend 64
  ⟨a.val + BitVec.ofNat 64 (u.val.toNat * e) + BitVec.ofNat 64 (k * e) + disp, u.poison.join a.poison⟩

/-- The offset in the cluster window of a byte of a bank of this quad (R20). -/
def windowOffset (quad a : Nat) : Option Nat :=
  let base := sramBase (quad * 16)
  if base ≤ a ∧ a < base + 2 ^ 21 then some (a - base) else none

/-- The watchpoint an access of a debug launch hits (R344): the lowest index. -/
def State.watchHit (s : State) (w : Wg) (loc : Loc) (size : Nat) (rd wr : Bool) : Option Nat :=
  match (if s.isDebug w then loc else .frame 0) with
  | .mem a =>
    match windowOffset w.quad a with
    | none => none
    | some o =>
      (List.range 8).find? fun i =>
        match Table.get none s.watches (w.quad * 8 + i) with
        | some p => decide (p.tenant = s.tagOf w) && decide (p.start < o + size) && decide (o < p.start + p.len) &&
            ((rd && p.read) || (wr && p.write))
        | none => false
  | _ => none

/-- `%finfo` of `WATCHPOINT` (R344). -/
def watchFault (i : Nat) (k : AccKind) (va : DWord) : FaultInfo := ⟨cWatchpoint, BitVec.ofNat 32 (i + k.code * 16), va⟩

/-- Order 7 of a memory instruction (R215): a poisoned address, alignment, translation, the watchpoints. `rd` and
`wr` are how a watchpoint classes the access. -/
def Who.reach (x : Who) (t : Thread) (k : AccKind) (special rd wr : Bool) (ea : AddrReg) (size : Nat) :
    Except FaultInfo Loc :=
  match ea.poison with
  | some q => .error (poisonFault q 0)
  | none =>
    if ea.val.toNat % size ≠ 0 then .error ⟨cMisalign, ea.val.setWidth 32, ea.val⟩
    else
      match x.s.translate x.w k special ea.val size with
      | .error f => .error f
      | .ok loc =>
        match (if t.suppress then none else x.s.watchHit x.w loc size rd wr) with
        | some i => .error (watchFault i k ea.val)
        | none => .ok loc

/-! ### Locations -/

/-- Whether two accesses touch a common 4-byte word, by whichever region they name it (R22). -/
def Loc.meets (a : Loc) (n : Nat) (b : Loc) (m : Nat) : Bool :=
  let hit := fun x y : Nat => decide (x / 4 * 4 < y + m) && decide (y / 4 * 4 < x + n)
  match a, b with
  | .mem x, .mem y => hit (homeAddr x) (homeAddr y)
  | .frame x, .frame y => hit x y
  | _, _ => false

/-- Whether an access overlaps an entry of the range scoreboard, and its stall reason (R241). -/
def State.scoreStall (s : State) (quad : Nat) (loc : Loc) (size : Nat) : Option Nat :=
  match loc with
  | .mem a =>
    match windowOffset quad a with
    | none => none
    | some o =>
      match s.score.find? fun e => decide (e.quad = quad) && decide (e.lo < o + size) && decide (o ≤ e.hi) with
      | some e => some (if e.copy then 4 else 5)
      | none => none
  | _ => none

/-- A location some bytes further on. -/
def Loc.plus (l : Loc) (o : Nat) : Loc :=
  match l with
  | .mem a => .mem (a + o)
  | .frame off => .frame (off + o)
  | .spill off => .spill (off + o)

/-- The parts in which a plain access is performed: its words (R224). -/
def wordParts (size : Nat) : List Nat := if size ≤ 4 then [0] else (List.range (size / 4)).map (4 * ·)

/-- The part of an access that is performed next: which one is not promised (R224). -/
def State.partOf (s : State) (f : Flight) : Nat :=
  f.left.getD (((if s.choose (2 ^ 20 - 1) then 1 else 0) + if s.choose (2 ^ 20 - 2) then 2 else 0) % f.left.length) 0

/-- Bytes with their poison. -/
abbrev PByte := Byte × Poison

def State.peek (s : State) (a n : Nat) : List PByte :=
  (List.range n).map fun i => (Memory.read s.mem (a + i), s.poisonAt (a + i))

def joinAll (bs : List PByte) : Poison := bs.foldl (fun p b => p.join b.2) none

/-- The bytes of a register. -/
def Reg.bytes (r : Reg) : List PByte := (leBytes r.val.toNat 4).map fun b => (b, r.poison)

/-- The word a spill word shows (R39): key, reason and valid bit of a spilled thread of the workgroup. -/
def Wg.spillWord (w : Wg) (slot : Nat) : Word :=
  if slot < w.base ∨ w.base + w.nthr ≤ slot then 0#32
  else
    match w.thread? (slot - w.base) with
    | some t =>
      match t.place with
      | .waiting k on => if t.spilled then BitVec.ofNat 32 (k % 2 ^ 24 + on.code * 2 ^ 24 + 2 ^ 31) else 0#32
      | _ => 0#32
    | none => 0#32

/-- A register as a load of its frame word sees it (R107): of a thread in a run, the value at its last block end
or one written in the run. -/
def State.frameReg (s : State) (w : Wg) (word : Nat) : Reg :=
  match w.thread? (word / w.quota) with
  | none => ⟨0, none⟩
  | some t =>
    if s.choose (2 ^ 18 + word % 2 ^ 18) then t.reg s (word % w.quota)
    else t.bank.getD (word % w.quota) ⟨0, none⟩

/-! ### L1 (R221) -/

def State.l1Word? (s : State) (core a : Nat) : Option L1Word :=
  s.l1.find? fun x => decide (x.core = core) && decide (x.addr = a)

/-- Bring a word from its home into a core's L1, replacing an older copy. -/
def State.fillL1 (s : State) (core a : Nat) : State :=
  { s with l1 := (s.l1.filter fun x => !(decide (x.core = core) && decide (x.addr = a))) ++
      [⟨core, a, BitVec.ofNat 32 (s.readNat a 4), s.poisonOf a 4⟩] }

/-- Whether a load of a word is served by L1 (R221, R225, R229): a copy the core owns; or, for a plain load, any
copy, which one is not promised. -/
def State.l1Serves (s : State) (core a : Nat) (atHome : Bool) : Bool :=
  (s.l1Word? core a).isSome &&
    (decide (Table.get 0 s.owner a = core + 1) || (!atHome && s.choose (2 ^ 19 + a / 4 % 2 ^ 18)))

/-- A load of local memory: word by word from L1 or from the home, which fills L1. The flag says that every word
hit. -/
def State.loadLocal (s : State) (core : Nat) (atHome : Bool) (a n : Nat) : State × Bool × List PByte :=
  let words := (List.range ((a + n + 3) / 4 - a / 4)).map fun i => (a / 4 + i) * 4
  let s1 := words.foldl (fun (u : State) w => if s.l1Serves core w atHome then u else u.fillL1 core w) s
  let bytes := words.flatMap fun w =>
    match s1.l1Word? core w with
    | some x => if s.l1Serves core w atHome then (Reg.bytes ⟨x.val, x.poison⟩) else s.peek w 4
    | none => s.peek w 4
  (s1, words.all fun w => s.l1Serves core w atHome, (bytes.drop (a % 4)).take n)

/-- What the held buffer of a guarded workgroup shows of a byte (R377). -/
def Wg.heldByte (w : Wg) (a : Nat) : Option PByte :=
  match w.held.find? fun h => decide (homeAddr h.addr = homeAddr a / 32 * 32) && h.mask.getLsbD (a % 32) with
  | some h => some (h.data.getD (a % 32) 0, h.poison.getD (a % 32) none)
  | none => none

/-- Bytes `o` to `o + n` of a held sector are held no longer: a later store has gone to them by their other name (R22). -/
def HeldSector.drop (h : HeldSector) (o n : Nat) : HeldSector := { h with mask := h.mask &&& ~~~ BitVec.ofNat 32 ((2 ^ n - 1) * 2 ^ o) }

/-- Read a location for a workgroup (R107, R203, R206, R221, R360, R377). `atHome` marks an acquire read. -/
def State.readLoc (s : State) (w : Wg) (atHome : Bool) (loc : Loc) (n : Nat) : State × List PByte :=
  match loc with
  | .frame off =>
    let words := (List.range ((off + n + 3) / 4 - off / 4)).map fun i => off / 4 + i
    (s, ((words.flatMap fun k => (s.frameReg w k).bytes).drop (off % 4)).take n)
  | .spill off =>
    let words := (List.range ((off + n + 3) / 4 - off / 4)).map fun i => off / 4 + i
    (s, ((words.flatMap fun k => Reg.bytes ⟨w.spillWord k, none⟩).drop (off % 4)).take n)
  | .mem a =>
    if regionOf a = 4 then (s, s.peek a n)
    else
      let (s1, bs) := match s.homeOf w.quad (s.tagOf w) .r a n with
        | .here b =>
          if regionOf a = 0 then
            let (s1, hit, bs) := s.loadLocal w.core atHome b n
            (s1.count (s.tagOf w) (if hit then 0x07 else 0x08) 1, bs)
          else (s, s.peek b n)
        | .keyless => (s, (s.freeBytes 0 n).map fun b => (b, some poisonNoKey))
        | .other => (s, (s.freeBytes 0 n).map fun b => (b, none))
        | .refused => (s, (s.freeBytes 0 n).map fun b => (b, some poisonRemote))
      (s1, (List.range n).zip bs |>.map fun (i, b) => (w.heldByte (a + i)).getD b)

/-- Registers from loaded bytes (R216): a narrow value zero- or sign-extended, else one register per 4 bytes. -/
def regsOf (sext : Bool) (bs : List PByte) : List Reg :=
  let n := bs.length
  let v := leNat (bs.map (·.1))
  if n < 4 then
    [⟨if sext then BitVec.ofInt 32 (signedOf (8 * n) v) else BitVec.ofNat 32 v, joinAll bs⟩]
  else
    (List.range (n / 4)).map fun i =>
      ⟨BitVec.ofNat 32 (v / 2 ^ (32 * i)), joinAll ((bs.drop (4 * i)).take 4)⟩

/-! ### Registers of a thread outside the window -/

/-- A result of register `n` still in the window goes to the bank. -/
def Thread.settleReg (t : Thread) (n : Nat) : Thread :=
  match winFind n t.win with
  | some r => ({ t with win := t.win.flatMap (WinEntry.without n) } : Thread).bankSet n r
  | none => t

/-- A register that a load will write (R112): a result still in the window goes to the bank first. -/
def Thread.claim (t : Thread) (n : Nat) : Thread :=
  let t1 := t.settleReg n
  { t1 with dead := t1.dead.filter fun d => d.1 ≠ n, pending := t1.pending ++ [n] }

/-- Returned data goes to the registers, which are no longer pending. -/
def Thread.deliverRegs (t : Thread) (n : Nat) (rs : List Reg) : Thread :=
  { t.bankSetAll n rs with pending := t.pending.filter fun k => k < n ∨ n + rs.length ≤ k }

/-- The registers of one part of a load; after the last part none of the load's registers is pending. -/
def Thread.deliverPart (t : Thread) (f : Flight) (o : Nat) (last : Bool) (rs : List Reg) : Thread :=
  let t1 := t.bankSetAll (f.dst + o / 4) rs
  if last then { t1 with pending := t1.pending.filter fun k => k < f.dst ∨ f.dst + (f.size + 3) / 4 ≤ k } else t1

/-- A register after a store of some of its bytes: a word that stays partly poisoned is poisoned (R373). -/
def mergeReg (old : Reg) (lo : Nat) (bs : List Byte) (p : Poison) : Reg :=
  let old' := leBytes old.val.toNat 4
  let v := leNat (old'.take lo ++ bs ++ old'.drop (lo + bs.length))
  ⟨BitVec.ofNat 32 v, if bs.length = 4 then p else old.poison.join p⟩

/-- A store to a frame word performed (R107). `during` says that the store is complete with it: then, if its thread is in a run, a result
in its window may stay in front of it and overwrite it, which one is not promised. -/
def State.storeReg (s : State) (uid word lo : Nat) (bs : List Byte) (p : Poison) (during : Bool) : State :=
  match s.wg? uid with
  | none => s
  | some w =>
    let n := word % w.quota
    s.onThread uid (word / w.quota) fun t =>
      let t1 := if during ∧ s.choose (2 ^ 18 + word % 2 ^ 18) then t else t.settleReg n
      t1.bankSet n (mergeReg (t1.bank.getD n ⟨0, none⟩) lo bs p)

/-- A store to frame bytes from `off` on, word by word. -/
def State.storeFrame (s : State) (uid off : Nat) (bs : List Byte) (p : Poison) (during : Bool) : State :=
  if bs.length ≤ 4 then s.storeReg uid (off / 4) (off % 4) bs p during
  else (List.range (bs.length / 4)).foldl (fun (s : State) i =>
    s.storeReg uid (off / 4 + i) 0 ((bs.drop (4 * i)).take 4) p during) s

/-! ### Stores held by guarded execution (R377) -/

/-- Put the bytes of a store into its sector; every byte has its own poison. -/
def HeldSector.merge (h : HeldSector) (o : Nat) (bs : List Byte) (p : Poison) : HeldSector :=
  { h with
    data := h.data.take o ++ bs ++ h.data.drop (o + bs.length)
    mask := h.mask ||| BitVec.ofNat 32 ((2 ^ bs.length - 1) * 2 ^ o)
    poison := h.poison.take o ++ List.replicate bs.length p ++ h.poison.drop (o + bs.length) }

/-- A guarded store enters the held buffer; a 2,049th sector raises `GUARD_OVERFLOW`, whose `%finfo` the manual
does not state (log 9). `fs` names the threads it is raised for. -/
def State.holdStore (s : State) (uid pc a : Nat) (va : DWord) (bs : List Byte) (p : Poison) (fs : List (Nat × Word)) : State :=
  match s.wg? uid with
  | none => s
  | some w =>
    if ¬ w.isActive then s
    else
      let base := a / 32 * 32
      let other := fun h : HeldSector => if homeAddr h.addr = homeAddr base then h.drop (a % 32) bs.length else h
      if w.held.any fun h => h.addr = base then
        s.onWg uid fun w => { w with held := w.held.map fun h => if h.addr = base then h.merge (a % 32) bs p else other h }
      else if 2048 ≤ w.held.length then
        s.raise true uid pc (fs.map fun f => (f.1, f.2, ⟨cGuard, s.freeWord 0, 0⟩))
      else
        s.onWg uid fun w =>
          { w with held := w.held.map other ++
              [(⟨base, va - BitVec.ofNat 64 (a % 32), List.replicate 32 0, 0, List.replicate 32 none⟩ : HeldSector).merge (a % 32) bs p] }

/-- Whether a workgroup's launch is guarded. -/
def State.isGuarded (s : State) (w : Wg) : Bool :=
  match s.launchOf w with
  | some l => l.guarded
  | none => false

/-! ### Flights -/

/-- Put an access in flight. An acquire holds its thread until it is done (R225). -/
def State.launchFlight (s : State) (f : Nat → Flight) : State :=
  let (i, s1) := s.fresh
  let g := f i
  let s2 := { s1 with flights := s1.flights ++ [g] }
  match g.tid with
  | some t => if g.acquire then s2.onThread g.wg t fun t => { t with block := .acquire i } else s2
  | none => s2

/-- The counter class of an access (R89). -/
def Flight.cls (f : Flight) : CntClass :=
  match f.acc with
  | .load _ => .load
  | .atom _ => .load
  | .store => .store f.colour
  | .red _ => .store 0

def CntClass.isLoad : CntClass → Bool
  | .load => true
  | _ => false

/-- Lower a counter once for each oldest access of its class that is done (R89). -/
def State.drain (s : State) (uid : Nat) (tid : Option Nat) (load : Bool) : Nat → State
  | 0 => s
  | n + 1 =>
    match s.flights.find? fun f => decide (f.wg = uid) && decide (f.tid = tid) && decide (f.cls.isLoad = load) with
    | some f =>
      if f.done then
        (({ s with flights := s.flights.filter fun g => g.id ≠ f.id } : State).complete uid tid f.cls).drain uid tid load n
      else s
    | none => s

/-- An access is done: an acquire drops the L1 words its core does not own and lets its thread go on (R225). -/
def State.finishFlight (s : State) (f : Flight) (core : Nat) : State :=
  let s1 := s.onFlight f.id fun f => { f with done := true }
  let s2 := if f.acquire then s1.dropUnowned core else s1
  let s3 := match f.tid with
    | some t => s2.onThread f.wg t fun t => if t.block = Block.acquire f.id then { t with block := .none } else t
    | none => s2
  (s3.drain f.wg f.tid f.cls.isLoad s3.flights.length).advanceFree

/-- Copies of a thread (or of the vamp) issued before an access and not complete. -/
def State.copiesOpen (s : State) (uid : Nat) (tid : Option Nat) (before : Nat) : Bool :=
  s.copies.any fun c => decide (c.wg = some uid) && decide (c.tid = tid) && decide (c.id < before) &&
    decide (c.stage ≠ .finished)

/-- Whether an access may be performed now: everything of its thread and of the vamp that it overlaps and that
was issued before is done (R223); a release waits for the thread's loads, stores and copies and for the
common stores and copies (R226). -/
def State.mayPerform (s : State) (f : Flight) : Bool :=
  let before := s.flights.filter fun g => decide (g.id < f.id) && decide (g.wg = f.wg) && !g.done
  let related := fun g : Flight => decide (g.tid = f.tid) || decide (g.tid = none) || decide (f.tid = none)
  !f.done && !(before.any fun g => related g && g.loc.meets g.size f.loc f.size) &&
    (!f.release || (!(before.any fun g => decide (g.tid = f.tid) || decide (g.tid = none)) &&
      !s.copiesOpen f.wg f.tid f.id && !s.copiesOpen f.wg none f.id))


/-- Whether the calendars let an access of a workgroup to a location be served now (R309). -/
def State.locServed (s : State) (w : Wg) (loc : Loc) : Bool :=
  match loc with
  | .mem a => s.served w.quad (s.tagOf w) a
  | _ => true

/-- The effective priority of a workgroup's accesses (R295). -/
def State.wgPrio (s : State) (uid : Nat) : Nat := (((s.wg? uid).bind s.launchOf).map fun l => l.prio).getD 31

/-- The die beside which a local byte lies, for an access that a slice serves. -/
def Flight.sliceDie (f : Flight) : Option Nat :=
  match f.loc with
  | .mem a => if regionOf (homeAddr a) = 0 then some (homeAddr a / 65536 / 6291456) else none
  | _ => none

/-- Whether an access to local memory waits behind another in an open slot of the slices: by effective priority, then by age (R309). -/
def State.sliceBehind (s : State) (f : Flight) : Bool :=
  f.sliceDie.any fun d => (s.calSlot d 2 ((s.die? d).cycles / slotCycles 2)).testBit 4 &&
    s.flights.any fun g => decide (g.sliceDie = some d) && s.mayPerform g &&
      (decide (s.wgPrio g.wg < s.wgPrio f.wg) || (decide (s.wgPrio g.wg = s.wgPrio f.wg) && decide (g.id < f.id)))

/-- Whether the calendars, and the lanes where it is yet to be sent, let an access be served now (R309, R388, R389). -/
def State.flightServed (s : State) (w : Wg) (f : Flight) : Bool := (f.lane.isSome || s.locServed w f.loc) && !s.sliceBehind f

def State.refuseStore (s : State) (w : Wg) (f : Flight) (k : AccKind) (a : Nat) : State := s.refusedWrite w f.tid f.pc k a f.va

def State.refuseKeyless (s : State) (w : Wg) (f : Flight) : State := s.keylessWrite w f.va

/-- The threads for which a store's own fault is raised: its thread, or, of the vamp's, every thread of the workgroup. -/
def Wg.storers (w : Wg) (f : Flight) : List (Nat × Word) :=
  match f.tid with
  | some t => [(t, laneMask [t])]
  | none => (w.threads.filter Thread.live).map fun t => (t.tid, laneMask [t.tid])

/-- Whether a store is complete as soon as its last part is performed: its thread waits in a `WAIT` with store threshold 0 that this
store alone keeps from passing (R107). -/
def Wg.endsWait (w : Wg) (f : Flight) : Bool :=
  decide (f.left.length ≤ 1) && (f.tid.bind w.thread?).any fun t => decide (t.cnt.stores = 1) && match t.place with
    | .waiting _ (.counters nl 0 nc nm nx uni _) => meets (t.cnt.add f.cls (-1)) w.common uni nl 0 nc nm nx
    | _ => false

/-- Whether a part of a store to a frame word is performed later: the word's thread has a result in its window, and which of the two
comes first is not promised (R107). -/
def State.frameDelays (s : State) (w : Wg) (f : Flight) (o : Nat) : Bool :=
  match f.loc.plus o with
  | .frame off => s.choose (2 ^ 20 - 3) && (w.thread? (off / 4 / w.quota)).any fun t => (winFind (off / 4 % w.quota) t.win).isSome
  | _ => false

/-- Perform the part of a store at offset `o` at its home (R107, R206, R221, R224, R360); a guarded workgroup's outside the windows is
held (R377). -/
def State.performStore (s : State) (w : Wg) (f : Flight) (o : Nat) : State :=
  let bs := (f.data.drop o).take 4
  match f.loc.plus o with
  | .frame off => s.storeFrame w.uid off bs f.poison (w.endsWait f)
  | .spill _ => s
  | .mem a =>
    if regionOf a = 4 then s.perform a bs f.poison (w.core + 1)
    else if s.isGuarded w then s.holdStore w.uid f.pc a (f.va + BitVec.ofNat 64 o) bs f.poison (w.storers f)
    else s.storeAt w f.tid f.pc a f.va bs f.poison

/-- Whether the home of a store's part does not take it: then all that is left of the access is discarded with it (R206, R360). -/
def State.discards (s : State) (w : Wg) (f : Flight) (o : Nat) : Bool :=
  match f.loc.plus o with
  | .mem a =>
    !(decide (regionOf a = 4) || s.isGuarded w) &&
      match s.homeOf w.quad (s.tagOf w) .w a (min 4 (f.size - o)) with
      | .keyless => true
      | .refused => true
      | _ => false
  | _ => false

/-- A part of an access is performed: others are left, or the access is done; `all` says that nothing of it is left. -/
def State.partDone (s : State) (f : Flight) (o : Nat) (all : Bool) (core : Nat) : State :=
  if f.left.length ≤ 1 ∨ all then s.finishFlight f core
  else (s.onFlight f.id fun f => { f with left := f.left.erase o }).advanceFree

/-! ### Sending (R389) and cancelling (R384) -/

/-- The lane on which an access to another device is sent before it can be performed there. -/
def State.lanesFirst (s : State) (w : Wg) (f : Flight) : Option Nat :=
  match f.lane, f.loc with
  | none, .mem a => (remoteDev a).bind fun d => if s.unroutable d then none else s.sendLane (s.tagOf w) d
  | _, _ => none

/-- Whether an access goes through the island. -/
def Wg.leavesDie (w : Wg) (loc : Loc) : Bool :=
  match loc with
  | .mem a => (decide (regionOf a = 0) && decide (a / 65536 / 6291456 ≠ w.core / 384)) || decide (regionOf a = 1) || decide (regionOf a = 2)
  | _ => false

/-- Whether a request has been cancelled: its die is DETACHING and it goes through the island (R384). -/
def State.isCancelled (s : State) (w : Wg) (f : Flight) : Bool :=
  decide ((s.die? (w.core / 384)).endp = .detaching) && w.leavesDie f.loc

/-- An answer for a die that is not ATTACHED is dropped and counted; the counter saturates (R384). -/
def State.countLate (s : State) (die : Nat) : State :=
  let a := 0x0A000006 + die
  s.cfgSet a (BitVec.ofNat 32 (min ((s.cfgGet a).toNat + 1) 0xFFFFFFFF))

/-- The new memory value of an atomic (R218), of `size` bytes. -/
def atomValue (op size m x y : Nat) : Nat :=
  let bits := 8 * size
  let e : FpEnv := ⟨.rne, false, false⟩
  match op with
  | 0 => (m + x) % 2 ^ bits
  | 1 => if signedOf bits m ≤ signedOf bits x then m else x
  | 2 => min m x
  | 3 => if signedOf bits x ≤ signedOf bits m then m else x
  | 4 => max m x
  | 5 => m &&& x
  | 6 => m ||| x
  | 7 => m ^^^ x
  | 8 => x
  | 9 => if m = x then y else m
  | 10 => (fpAdd fp32 e m x).bits
  | 11 => (fpMinMax fp32 false false false m x).bits
  | _ => (fpMinMax fp32 false true false m x).bits

/-- Perform an atomic on bytes at `b`, indivisibly: the old bytes and the state after. -/
def State.atomAt (s : State) (op size : Nat) (data : List Byte) (p : Poison) (storer b : Nat) : State × List PByte :=
  let old := s.peek b size
  let m := leNat (old.map (·.1))
  let x := leNat (data.take size)
  let y := leNat (data.drop size)
  let q := p.join (joinAll old)
  (s.perform b (leBytes (atomValue op size m x y) size) q storer, old.map fun o => (o.1, q))

/-- The twin's part of an atomic or reduction outside its quad: the primary's old value, once it has come (R379). -/
def Wg.takeInbox (w : Wg) (tid pc : Nat) : Option ((Nat × Poison) × Wg) :=
  match w.inbox.find? fun e => decide (e.1 = tid) && decide (e.2.1 = pc) with
  | some e => some (e.2.2, { w with inbox := w.inbox.erase e })
  | none => none

/-- Perform an atomic or reduction of a workgroup: the state after and what it returns. -/
def State.performAtom (s : State) (w : Wg) (f : Flight) (op : Nat) (back : Bool) : State × List PByte :=
  match f.loc with
  | .mem a =>
    if w.twin.isSome ∧ ¬ w.primary ∧ regionOf a ≠ 4 then
      match w.takeInbox (f.tid.getD 0) f.pc with
      | some (old, w') => (s.onWg w.uid fun _ => w', (leBytes old.1 f.size).map fun b => (b, old.2))
      | none => (s, (s.freeBytes 0 f.size).map fun b => (b, none))
    else
      let (s1, old) := match (if regionOf a = 4 then .here a else s.homeOf w.quad (s.tagOf w) .a a f.size) with
        | .here b => s.atomAt op f.size f.data f.poison (w.core + 1) b
        | .keyless =>
          (if back then s else s.refuseKeyless w f, (s.freeBytes 0 f.size).map fun b => (b, some poisonNoKey))
        | .other => (s, (s.freeBytes 0 f.size).map fun b => (b, none))
        | .refused =>
          (if back then s else s.refuseStore w f .a a, (s.freeBytes 0 f.size).map fun b => (b, some poisonRemote))
      match w.twin with
      | some u =>
        if regionOf a ≠ 4 then
          (s1.onWg u fun v => { v with inbox := v.inbox ++ [(f.tid.getD 0, f.pc, leNat (old.map (·.1)), joinAll old)] }, old)
        else (s1, old)
      | none => (s1, old)
  | _ => (s, [])

/-- Whether an earlier atomic of an atomic's thread is still to be logged (R356). -/
def State.logsBefore (s : State) (w : Wg) (f : Flight) : Bool :=
  (s.launchOf w).any (fun l => l.record) && s.flights.any fun g => decide (g.id < f.id) && decide (g.wg = f.wg) && decide (g.tid = f.tid) &&
    !g.done && match g.acc with
      | .atom _ => true
      | _ => false

/-- Whether a secondary twin's atomic or reduction outside its quad has its completion from the primary (R379); a twin whose primary has
ended waits for none (log 78). -/
def State.twinHeard (s : State) (w : Wg) (f : Flight) : Bool :=
  let onChip : Bool := match f.loc with
    | .mem a => decide (regionOf a = 4)
    | _ => false
  w.twin.isNone || w.primary || onChip || !s.paired w || (w.takeInbox (f.tid.getD 0) f.pc).isSome

/-- Whether an atomic or reduction can be performed: an earlier entry of its thread's log and a twin's missing completion hold it back. -/
def State.mayAtom (s : State) (w : Wg) (f : Flight) : Bool :=
  match f.acc with
  | .atom _ => s.mayPerform f && !s.logsBefore w f && s.twinHeard w f
  | .red _ => s.mayPerform f && s.twinHeard w f
  | _ => false

/-! ### Issue of LD, ST, ATOM, RED -/

/-- Element size of sz (R77). -/
def elemSize (z : Nat) : Nat :=
  match z with
  | 0 => 1
  | 1 => 2
  | 2 => 4
  | 3 => 8
  | 4 => 16
  | 5 => 1
  | _ => 2

/-- Registers a size covers. -/
def sizeRegs (size : Nat) : Nat := if size = 8 then 2 else if size = 16 then 4 else 1

/-- The memory form: operand register count, claimed, refused hint bits, the address operand. -/
def memForm (n cnt : Nat) (sx : BitVec 8) (claimed : Bool) (refused : BitVec 8) : Form :=
  ⟨[.v n cnt, .src sx 1], claimed, some refused, fun _ => none⟩

/-- The stall of a group's accesses: a full counter (R89), then the range scoreboard (R241). -/
def accessStall (x : Who) (ts : List Thread) (load : Bool) (size : Nat) (reach : Who → Thread → Except FaultInfo Loc) :
    Option Nat :=
  let locs := ts.filterMap fun t => match reach x t with
    | .ok l => some (t, l)
    | .error _ => none
  if locs.any fun p => decide (255 ≤ (if load then p.1.cnt.loads else p.1.cnt.stores)) then some (if load then 2 else 3)
  else firstSome (fun p : Thread × Loc => x.s.scoreStall x.w.quad p.2 size) locs

/-- The `HINT.MEM` bits pending: colour, acquire, release. -/
def Thread.memHint (t : Thread) : BitVec 8 := t.hints.mem.getD 0#8

def execLd (t : BitVec 7) (x : BitVec 8) (a : BitVec 4) (z : BitVec 3) (k : BitVec 4) : State → Answer :=
  let size := elemSize z.toNat
  let cnt := sizeRegs size
  let reach := fun (w : Who) (u : Thread) =>
    w.reach u .r false true false (w.address u x a size k.toNat) size
  issueThread (wordOf (.ld t x a z k)) (memForm t.toNat cnt x (decide (z.toNat < 7)) 0x10#8) false
    (fun w ts => accessStall w ts true size reach) fun w u =>
      match reach w u with
      | .error f => .fault f u
      | .ok loc =>
        let u1 := (List.range cnt).foldl (fun (u : Thread) i => u.claim (t.toNat + i)) u
        .ok { u1 with cnt := u1.cnt.add .load 1 } none
          [fun s => (s.launchFlight fun i =>
            { id := i, wg := w.w.uid, tid := some u.tid, acc := .load (decide (5 ≤ z.toNat))
              va := (w.address u x a size k.toNat).val, loc := loc, size := size, dst := t.toNat, data := []
              poison := none, colour := 0, acquire := u.memHint.getLsbD 3, release := false, pc := w.pc
              left := wordParts size, lane := none, done := false }).count (w.s.tagOf w.w) 0x05 1]

/-- Data leaving the device must be clean (R375, kind 3). -/
def hostPoison (loc : Loc) (p : Poison) : Option FaultInfo :=
  match loc, p with
  | .mem a, some q => if regionOf a = 2 then some (poisonFault q 3) else none
  | _, _ => none

def execSt (t : BitVec 7) (x : BitVec 8) (a : BitVec 4) (z : BitVec 3) (k : BitVec 4) : State → Answer :=
  let size := elemSize z.toNat
  let reach := fun (w : Who) (u : Thread) =>
    w.reach u .w false false true (w.address u x a size k.toNat) size
  issueThread (wordOf (.st t x a z k)) (memForm t.toNat (sizeRegs size) x (decide (z.toNat < 5)) 0x08#8) false
    (fun w ts => accessStall w ts false size reach) fun w u =>
      match reach w u with
      | .error f => .fault f u
      | .ok loc =>
        let (v, p) := w.vregs u t.toNat (sizeRegs size)
        let data := leBytes v size
        let counted := fun s : State => s.count (w.s.tagOf w.w) 0x06 1
        match hostPoison loc p with
        | some f => .fault f u
        | none =>
          let col := (u.memHint.extractLsb' 0 3).toNat
          .ok { u with cnt := u.cnt.add (.store col) 1 } none
            [fun s => counted (s.launchFlight fun i =>
              { id := i, wg := w.w.uid, tid := some u.tid, acc := .store
                va := (w.address u x a size k.toNat).val, loc := loc, size := size, dst := 0, data := data
                poison := p, colour := col, acquire := false, release := u.memHint.getLsbD 4, pc := w.pc
                left := wordParts size, lane := none, done := false })]

/-- Registers an atomic reads (R218). -/
def atomRegs (size op : Nat) : Nat := sizeRegs size * if op = 9 then 2 else 1

/-- `ATOM` returns the old value to vt; `RED` does not. -/
def execAtom (t : BitVec 7) (x : BitVec 8) (a : BitVec 4) (z : BitVec 1) (k : BitVec 4) : State → Answer :=
  let size := if z = 0#1 then 4 else 8
  let op := k.toNat
  let cnt := atomRegs size op
  let reach := fun (w : Who) (u : Thread) => w.reach u .a true true true (w.address u x a size 0) size
  issueThread (wordOf (.atom t x a z k))
    (memForm t.toNat cnt x (decide (op < 13) && !(decide (10 ≤ op) && decide (size = 8))) 0#8) false
    (fun w ts => accessStall w ts true size reach) fun w u =>
      match reach w u with
      | .error f => .fault f u
      | .ok loc =>
        let (v, p) := w.vregs u t.toNat cnt
        let u1 := (List.range (sizeRegs size)).foldl (fun (u : Thread) i => u.claim (t.toNat + i)) u
        .ok { u1 with cnt := u1.cnt.add .load 1 } none
          [fun s => s.launchFlight fun i =>
            { id := i, wg := w.w.uid, tid := some u.tid, acc := .atom op, va := (w.address u x a size 0).val, loc := loc
              size := size, dst := t.toNat, data := leBytes v (4 * cnt), poison := p, colour := 0
              acquire := u.memHint.getLsbD 3, release := u.memHint.getLsbD 4, pc := w.pc, left := [0], lane := none, done := false }]

def execRed (t : BitVec 7) (x : BitVec 8) (a : BitVec 4) (z : BitVec 1) (k : BitVec 4) : State → Answer :=
  let size := if z = 0#1 then 4 else 8
  let op := k.toNat
  let reach := fun (w : Who) (u : Thread) => w.reach u .a true true true (w.address u x a size 0) size
  issueThread (wordOf (.red t x a z k))
    (memForm t.toNat (sizeRegs size) x
      (decide (op < 13) && decide (op ≠ 8) && decide (op ≠ 9) && !(decide (10 ≤ op) && decide (size = 8))) 0x08#8) false
    (fun w ts => accessStall w ts false size reach) fun w u =>
      match reach w u with
      | .error f => .fault f u
      | .ok loc =>
        let (v, p) := w.vregs u t.toNat (sizeRegs size)
        .ok { u with cnt := u.cnt.add (.store 0) 1 } none
          [fun s => s.launchFlight fun i =>
            { id := i, wg := w.w.uid, tid := some u.tid, acc := .red op, va := (w.address u x a size 0).val, loc := loc
              size := size, dst := 0, data := leBytes v size, poison := p, colour := 0, acquire := false
              release := u.memHint.getLsbD 4, pc := w.pc, left := [0], lane := none, done := false }]

/-! ### Completion -/

/-- What is left of an access at its home. -/
def State.performRest (s : State) (w : Wg) (f : Flight) : State :=
  match f.acc with
  | .load _ => s
  | .store => f.left.foldl (fun (s : State) o => s.performStore w f o) s
  | .atom op => (s.performAtom w f op true).1
  | .red op => (s.performAtom w f op false).1

/-- A cancelled request is performed or dropped: which is not promised. The answer of one that is performed is dropped (R384). -/
def State.cancelFlight (s : State) (w : Wg) (f : Flight) : State :=
  (if s.choose (2 ^ 20 - 4) then (s.performRest w f).countLate (w.core / 384) else s).finishFlight f w.core

/-- Perform an access now, unless it has been cancelled or is yet to be sent. -/
def State.carry (s : State) (w : Wg) (f : Flight) (act : Answer) : Answer :=
  if s.isCancelled w f then done (s.cancelFlight w f)
  else
    match s.lanesFirst w f with
    | some l => done (s.onFlight f.id fun f => { f with lane := some l })
    | none => act

/-- Data of a load has come, a word of it (R224): its register, and with the last the counter (R216, R222); an error on its way poisons
it (R370). -/
def execLoadComplete (id : Nat) (s : State) : Answer :=
  match s.flight? id with
  | none => done s
  | some f =>
    match s.wg? f.wg with
    | none => done s
    | some w =>
      match f.acc with
      | .load sext =>
        if s.mayPerform f ∧ s.flightServed w f then
          s.carry w f (
            let o := s.partOf f
            let (s1, bs) := s.readLoc w f.acquire (f.loc.plus o) (min 4 f.size)
            let s2 := match f.tid with
              | some t => s1.onThread w.uid t fun t => t.deliverPart f o (decide (f.left.length ≤ 1))
                  (regsOf sext (bs.map fun (b : PByte) => (b.1, f.poison.join b.2)))
              | none => s1
            done (s2.partDone f o false w.core))
        else done s
      | _ => done s

def execStoreComplete (id : Nat) (s : State) : Answer :=
  match s.flight? id with
  | none => done s
  | some f =>
    match s.wg? f.wg with
    | none => done s
    | some w =>
      match f.acc with
      | .store =>
        if s.mayPerform f ∧ s.flightServed w f ∧ ¬ s.frameDelays w f (s.partOf f) then
          s.carry w f (done ((s.performStore w f (s.partOf f)).partDone f (s.partOf f) (s.discards w f (s.partOf f)) w.core))
        else done s
      | _ => done s

/-- An `ATOM` or `RED` is performed indivisibly at its home (R218); the old value is logged under the record flag. -/
def execAtomicPerform (id : Nat) (s : State) : Answer :=
  match s.flight? id with
  | none => done s
  | some f =>
    match s.wg? f.wg with
    | none => done s
    | some w =>
      if s.mayAtom w f ∧ s.flightServed w f then
        match f.acc with
        | .atom op =>
          s.carry w f (
            let (s1, old) := s.performAtom w f op true
            let s2 := s1.logEntry w (f.tid.getD 0) 1 f.pc (leNat (old.map (·.1)))
            let s3 := s2.onThread w.uid (f.tid.getD 0) fun t => t.deliverRegs f.dst (regsOf false old)
            done (s3.finishFlight f w.core))
        | .red op => s.carry w f (done ((s.performAtom w f op false).1.finishFlight f w.core))
        | _ => done s
      else done s

/-- A remote device answers REFUSED or ABSENT (R206, R390): a load's registers and an atomic's old value are
poisoned; a store or `RED` is discarded, counted and reported. -/
def execRemoteRefusal (id : Nat) (_absent : Bool) (s : State) : Answer :=
  match s.flight? id with
  | none => done s
  | some f =>
    match s.wg? f.wg, f.loc with
    | some w, .mem a =>
      if regionOf a = 1 ∧ s.mayPerform f ∧ ¬ s.logsBefore w f ∧ s.homeOf w.quad (s.tagOf w) .a a f.size ≠ .here (a % 2 ^ 40) then
        let bad : List PByte := (s.freeBytes 0 f.size).map fun b => (b, some poisonRemote)
        let s1 := match f.acc with
          | .load sext => s.onThread w.uid (f.tid.getD 0) fun t => t.deliverRegs f.dst (regsOf sext bad)
          | .atom _ => (s.logEntry w (f.tid.getD 0) 1 f.pc (leNat (bad.map fun (b : PByte) => b.1))).onThread w.uid (f.tid.getD 0) fun t =>
              t.deliverRegs f.dst (regsOf false bad)
          | .store => s.refuseStore w f .w a
          | .red _ => s.refuseStore w f .a a
        if s.isCancelled w f then done ((s.countLate (w.core / 384)).finishFlight f w.core) else done (s1.finishFlight f w.core)
      else done s
    | _, _ => done s

/-! ### CACHE (R219) -/

/-- The physical line of an address, when it is translated for reading and lies in no window. -/
def Who.line (x : Who) (t : Thread) (sx : BitVec 8) (ab : BitVec 4) (k : Nat) : Option Nat :=
  let ea := x.address t sx ab 8 k
  match ea.poison with
  | some _ => none
  | none =>
    if 2 ^ 56 ≤ ea.val.toNat then none
    else
      match x.s.translate x.w .r false ea.val 1 with
      | .ok (.mem a) => some (a / 128 * 128)
      | _ => none

/-- A cache form: acts on the line, or does nothing. -/
def cacheForm (i : Instr) (x : BitVec 8) (a : BitVec 4) (k : BitVec 4) (f : Who → Nat → State → State) :
    State → Answer :=
  issueThread (wordOf i) ⟨[.src x 1], true, some 0x18#8, fun _ => none⟩ false noStall fun w u =>
    match w.line u x a k.toNat with
    | some l => .ok u none [f w l]
    | none => .ok u none []

/-- The words of a line of local memory that its slice answers come into the core's L1. -/
def execPfetch (x : BitVec 8) (a : BitVec 4) (k : BitVec 4) : State → Answer :=
  cacheForm (.pfetch x a k) x a k fun w l s =>
    if regionOf l = 0 ∧ s.sliceAnswers (s.latch w.w.quad) l then
      (List.range 32).foldl (fun (s : State) i => s.fillL1 w.w.core (l + 4 * i)) s
    else s

def execCinval (x : BitVec 8) (a : BitVec 4) (k : BitVec 4) : State → Answer :=
  cacheForm (.cinval x a k) x a k fun w l s =>
    { s with l1 := s.l1.filter fun e => !(decide (e.core = w.w.core) && decide (e.addr / 128 * 128 = l)) }

/-- Brings the line into its home slice, which holds no state of its own here: timing only. -/
def execPfetchL2 (x : BitVec 8) (a : BitVec 4) (k : BitVec 4) : State → Answer :=
  cacheForm (.pfetchL2 x a k) x a k fun _ _ s => s

/-! ### FENCE (R233) -/

/-- Outstanding operations of the masked colours. -/
def colourSum (l : List Nat) (m : BitVec 8) : Nat :=
  ((List.range 8).map fun i => if m.getLsbD i then l.getD i 0 else 0).sum

/-- The release of a fence (R226): stores, then copies, of the thread and of the workgroup. -/
def fenceStall (x : Who) (ts : List Thread) (m : BitVec 8) : Option Nat :=
  let c := x.w.common
  if ts.isEmpty then none
  else if 0 < colourSum c.storeCol m ∨ ts.any (fun t => decide (0 < colourSum t.cnt.storeCol m)) then some 3
  else if 0 < colourSum c.copyCol m ∨ ts.any (fun t => decide (0 < colourSum t.cnt.copyCol m)) then some 4
  else none

/-- The first step of an acquire fence (R225): the thread's loads. -/
def loadStall (ts : List Thread) : Option Nat := if ts.any fun t => decide (0 < t.cnt.loads) then some 2 else none

/-- The rest of an acquire. -/
def acquirePost (x : Who) : State → State := fun s => s.dropUnowned x.w.core

def execFenceRel (m : BitVec 8) : State → Answer :=
  issueThread (wordOf (.fenceRel m)) (.plain []) false (fun x ts => fenceStall x ts m) fun _ t => .ok t none []

def execFenceAcq : State → Answer :=
  issueThread (wordOf .fenceAcq) (.plain []) false (fun _ ts => loadStall ts) fun x t => .ok t none [acquirePost x]

def execFenceFull (m : BitVec 8) : State → Answer :=
  issueThread (wordOf (.fenceFull m)) (.plain []) false
    (fun x ts => (fenceStall x ts m).orElse fun _ => loadStall ts) fun x t => .ok t none [acquirePost x]

/-! ### MWAIT (R234, R235) -/

/-- The 8 bytes a monitor reads at their home; another device's are free. -/
def State.monitorRead (s : State) (w : Wg) (a : Nat) : DWord :=
  if regionOf a = 4 then BitVec.ofNat 64 (s.readNat a 8)
  else
    match s.homeOf w.quad (s.tagOf w) .r a 8 with
    | .here b => BitVec.ofNat 64 (s.readNat b 8)
    | _ => BitVec.ofNat 64 (leNat (s.freeBytes 0 8))

/-- Where a monitor watches: this device's own bytes, also when they are named as remote. -/
def State.monitorAt (s : State) (w : Wg) (a : Nat) : Nat :=
  if regionOf a = 4 then a
  else
    match s.homeOf w.quad (s.tagOf w) .r a 8 with
    | .here b => b
    | _ => a

/-- Cond of R234: 0 GE, 1 NE, 2 EQ. -/
def condHolds (c : Nat) (m x : DWord) : Bool :=
  if c = 0 then decide (x.toNat ≤ m.toNat) else if c = 1 then decide (m ≠ x) else decide (m = x)

def execMwait (t : BitVec 6) (x : BitVec 8) (a : BitVec 4) (c : BitVec 3) (k : BitVec 4) : State → Answer :=
  let n := 2 * t.toNat
  let reach := fun (w : Who) (u : Thread) => w.reach u .r true false false (w.address u x a 8 k.toNat) 8
  let want := fun (w : Who) (u : Thread) => BitVec.ofNat 64 (w.vregs u n 2).1
  let met := fun (w : Who) (u : Thread) => match reach w u with
    | .ok (.mem b) => condHolds c.toNat (w.s.monitorRead w.w b) (want w u)
    | _ => false
  issueThread (wordOf (.mwait t x a c k)) (memForm n 2 x (decide (c.toNat < 3)) 0x10#8) true
    (fun w ts =>
      let own := fun u : Thread => match reach w u with
        | .ok l => w.s.flights.any fun f => decide (f.wg = w.w.uid) && !f.done &&
            (decide (f.tid = some u.tid) || decide (f.tid = none)) && f.loc.meets f.size l 8
        | .error _ => false
      if ts.any own then some 9 else w.s.logStall w.w ts) fun w u =>
      match reach w u with
      | .ok (.mem b) =>
        let m := w.s.monitorRead w.w b
        if condHolds c.toNat m (want w u) then
          .ok u (some (.waiting (w.pc + 1) .ready)) [acquirePost w, fun s => s.logEntry w.w u.tid 2 w.pc m.toNat]
        else .ok u (some (.waiting (w.pc + 1) (.monitor (w.s.monitorAt w.w b) c.toNat (want w u) none))) []
      | .ok _ => .fault (protectAt 0x4 .r (w.address u x a 8 k.toNat).val) u
      | .error f => .fault f u

/-- A monitored thread becomes ready and acquires; the value seen is logged. -/
def State.wakeMonitor (s : State) (w : Wg) (tid key : Nat) (v : DWord) : State :=
  ((s.onThread w.uid tid fun t => { t with place := .waiting key .ready }).dropUnowned w.core).logEntry w tid 2 (key - 1) v.toNat

/-- `MONITOR_WAKE`: the thread whose condition a write has met. -/
def execMonitorWake (wg tid : Nat) (s : State) : Answer :=
  match s.wg? wg with
  | none => done s
  | some w =>
    match w.thread? tid with
    | some t =>
      match t.place with
      | .waiting key (.monitor _ _ _ (some v)) => done (s.wakeMonitor w tid key v)
      | _ => done s
    | none => done s

/-- `MONITOR_POLL`: the home re-reads the location instead; a saved workgroup has no monitor (R235). -/
def execMonitorPoll (wg tid : Nat) (s : State) : Answer :=
  match s.wg? wg with
  | none => done s
  | some w =>
    match (if w.status = .preempted then none else w.thread? tid) with
    | some t =>
      match t.place with
      | .waiting key (.monitor a c x none) =>
        let m := s.monitorRead w a
        if condHolds c m x then done (s.wakeMonitor w tid key m).advanceFree else done s.advanceFree
      | _ => done s
    | none => done s

/-! ### Transaction barriers (R250, R251, R261) -/

/-- Add to the pending arrivals and bytes of a record, modulo their widths, then test it (R251). -/
def State.tbarAdd (s : State) (a : Nat) (arrive : Bool) (bytes : Int) (p : Poison) (storer : Nat) : State :=
  let w0 := s.readNat a 4
  let pend := if arrive then (w0 + 65535) % 65536 else w0 % 65536
  let byte' := (((s.readNat (a + 4) 4 : Int) + bytes) % 2 ^ 32).toNat
  let expected := w0 / 65536 % 32768
  let phase := w0 / 2 ^ 31
  let w0' := if pend = 0 ∧ byte' = 0 then expected + expected * 65536 + (1 - phase) * 2 ^ 31
    else pend + expected * 65536 + phase * 2 ^ 31
  s.perform a (leBytes (w0' + byte' * 2 ^ 32) 8) p storer

/-- The phase bit of a record. -/
def State.tbarPhase (s : State) (a : Nat) : Bool := (Memory.read s.mem (a + 3)).getLsbD 7

/-- Order 7 of `TBAR`: the window, alignment, translation, the watchpoints. -/
def Who.tbarReach (x : Who) (t : Thread) (k : AccKind) (rd wr : Bool) (ea : AddrReg) : Except FaultInfo Loc :=
  match ea.poison with
  | some q => .error (poisonFault q 0)
  | none => if ea.val.toNat / 2 ^ 56 ≠ 0xFE then .error (protectAt 0x4 k ea.val) else x.reach t k true rd wr ea 16

/-- The stall of a `TBAR`: the full counter; the thread's own accesses to the record, which come before; and, for a
release, its loads, stores and copies with the common stores and copies (R226). -/
def tbarStall (x : Who) (ts : List Thread) (load release : Bool) (reach : Who → Thread → Except FaultInfo Loc) :
    Option Nat :=
  let go := ts.filter fun t => match reach x t with
    | .ok _ => true
    | .error _ => false
  let own := fun t : Thread => match reach x t with
    | .ok l => x.s.flights.any fun f => decide (f.wg = x.w.uid) && !f.done &&
        (decide (f.tid = some t.tid) || decide (f.tid = none)) && f.loc.meets f.size l 16
    | .error _ => false
  let c := x.w.common
  if go.isEmpty then none
  else if go.any fun t => decide (255 ≤ (if load then t.cnt.loads else t.cnt.stores)) then some (if load then 2 else 3)
  else if release ∧ go.any (fun t => decide (0 < t.cnt.loads)) then some 2
  else if go.any own ∨ (release ∧ (decide (0 < c.stores) || go.any fun t => decide (0 < t.cnt.stores))) then some 3
  else if release ∧ (decide (0 < c.copies) || go.any fun t => decide (0 < t.cnt.copies)) then some 4
  else none

def tbarForm (t : BitVec 7) (x : BitVec 8) : Form := memForm t.toNat 1 x true 0xF8#8

def execTbarInit (t : BitVec 7) (x : BitVec 8) (a : BitVec 4) (k : BitVec 4) : State → Answer :=
  let reach := fun (w : Who) (u : Thread) => w.tbarReach u .w false true (w.address u x a 16 k.toNat)
  issueThread (wordOf (.tbarInit t x a k)) (tbarForm t x) false (fun w ts => tbarStall w ts false false reach) fun w u =>
    match reach w u with
    | .ok (.mem b) =>
      let r := u.reg w.s t.toNat
      let n := r.val.toNat
      if r.poison = none ∧ (n = 0 ∨ 32767 < n) then .fault (protectAt 0x4 .w (w.address u x a 16 k.toNat).val) u
      else .ok u none [fun s => s.perform b (leBytes (n % 32768 * 65536 + n % 32768) 16) r.poison (w.w.core + 1)]
    | .ok _ => .fault (protectAt 0x4 .w (w.address u x a 16 k.toNat).val) u
    | .error f => .fault f u

def execTbarArrive (t : BitVec 7) (x : BitVec 8) (a : BitVec 4) (k : BitVec 4) : State → Answer :=
  let reach := fun (w : Who) (u : Thread) => w.tbarReach u .a true true (w.address u x a 16 k.toNat)
  issueThread (wordOf (.tbarArrive t x a k)) (tbarForm t x) false (fun w ts => tbarStall w ts true true reach) fun w u =>
    match reach w u with
    | .ok (.mem b) =>
      .ok (u.claim t.toNat) none [fun s =>
        let p := s.poisonOf b 8
        let ph := s.tbarPhase b
        (s.tbarAdd b true 0 p (w.w.core + 1)).onThread w.w.uid u.tid fun u => u.deliverRegs t.toNat [⟨boolWord ph, p⟩]]
    | .ok _ => .fault (protectAt 0x4 .a (w.address u x a 16 k.toNat).val) u
    | .error f => .fault f u

def execTbarExpect (t : BitVec 7) (x : BitVec 8) (a : BitVec 4) (k : BitVec 4) : State → Answer :=
  let reach := fun (w : Who) (u : Thread) => w.tbarReach u .a true true (w.address u x a 16 k.toNat)
  issueThread (wordOf (.tbarExpect t x a k)) (tbarForm t x) false (fun w ts => tbarStall w ts false true reach) fun w u =>
    match reach w u with
    | .ok (.mem b) =>
      let r := u.reg w.s t.toNat
      if r.poison = none ∧ 2 ^ 24 < r.val.toNat then .fault (protectAt 0x4 .a (w.address u x a 16 k.toNat).val) u
      else .ok u none [fun s => s.tbarAdd b true r.val.toNat (r.poison.join (s.poisonOf b 8)) (w.w.core + 1)]
    | .ok _ => .fault (protectAt 0x4 .a (w.address u x a 16 k.toNat).val) u
    | .error f => .fault f u

def execTbarWait (t : BitVec 7) (x : BitVec 8) (a : BitVec 4) (k : BitVec 4) : State → Answer :=
  let reach := fun (w : Who) (u : Thread) => w.tbarReach u .r true false (w.address u x a 16 k.toNat)
  issueThread (wordOf (.tbarWait t x a k)) (tbarForm t x) true (fun w ts => tbarStall w ts false false reach) fun w u =>
    match reach w u with
    | .ok (.mem b) =>
      let old := (u.reg w.s t.toNat).val.getLsbD 0
      if w.s.tbarPhase b ≠ old then .ok u (some (.waiting (w.pc + 1) .ready)) [acquirePost w]
      else .ok u (some (.waiting (w.pc + 1) (.tbar b old))) []
    | .ok _ => .fault (protectAt 0x4 .r (w.address u x a 16 k.toNat).val) u
    | .error f => .fault f u

def execTbarTest (t : BitVec 7) (x : BitVec 8) (a : BitVec 4) (k : BitVec 4) : State → Answer :=
  let reach := fun (w : Who) (u : Thread) => w.tbarReach u .r true false (w.address u x a 16 k.toNat)
  issueThread (wordOf (.tbarTest t x a k)) (tbarForm t x) false
    (fun w ts => (tbarStall w ts true false reach).orElse fun _ => w.s.logStall w.w ts) fun w u =>
    match reach w u with
    | .ok (.mem b) =>
      let old := u.reg w.s t.toNat
      let r := decide (w.s.tbarPhase b ≠ old.val.getLsbD 0)
      .ok ((u.claim t.toNat).deliverRegs t.toNat [⟨boolWord r, old.poison.join (w.s.poisonOf b 4)⟩]) none
        [fun s => (if r then s.dropUnowned w.w.core else s).logEntry w.w u.tid 5 w.pc (if r then 1 else 0)]
    | .ok _ => .fault (protectAt 0x4 .r (w.address u x a 16 k.toNat).val) u
    | .error f => .fault f u

/-! ### CLD and CST (R192, R193) -/

/-- Order 7 of `CLD` and `CST`. -/
def Who.ureach (x : Who) (k : AccKind) (ea : AddrReg) (size : Nat) : Except FaultInfo Loc :=
  match ea.poison with
  | some q => .error (poisonFault q 0)
  | none =>
    if ea.val.toNat % size ≠ 0 then .error ⟨cMisalign, ea.val.setWidth 32, ea.val⟩
    else x.s.translate x.w k false ea.val size

def Who.uaddress (x : Who) (a : BitVec 4) (i : BitVec 14) : AddrReg :=
  let u := x.w.addr a.toNat
  ⟨u.val + BitVec.ofNat 64 (4 * i.toNat), u.poison⟩

def commonForm (d : BitVec 6) (z : BitVec 2) (claimed : Bool) : Form :=
  let cnt := sizeRegs (4 * 2 ^ z.toNat)
  ⟨[.c d.toNat cnt d.toNat], claimed, none, fun _ => none⟩

/-- Accesses of the run's threads and of the vamp that are not done and touch a location. -/
def Who.runOverlaps (x : Who) (l : Loc) (size : Nat) : Bool :=
  x.s.flights.any fun f => decide (f.wg = x.w.uid) && !f.done && f.loc.meets f.size l size &&
    match f.tid with
    | none => true
    | some t => x.r.groups.any (·.contains t)

/-- A `CLD` from another device may be refused: its answer is not known here (log 8). -/
def State.refusedAt (s : State) (w : Wg) (loc : Loc) (bs : List PByte) : List PByte :=
  match loc with
  | .mem a =>
    if regionOf a = 1 ∧ s.homeOf w.quad (s.tagOf w) .r a 4 = .other ∧ s.choose 1 then
      bs.map fun b => (b.1, some poisonRemote)
    else bs
  | _ => bs

def execCld (d : BitVec 6) (a : BitVec 4) (z : BitVec 2) (i : BitVec 14) : State → Answer :=
  let size := 4 * 2 ^ z.toNat
  let reach := fun x : Who => x.ureach .r (x.uaddress a i) size
  issueUniform (wordOf (.cld d a z i)) (commonForm d z (decide (z.toNat < 3)))
    (fun x => match reach x with
      | .ok l => if x.runOverlaps l size ∨ ¬ x.s.locServed x.w l then some 2 else x.s.scoreStall x.w.quad l size
      | .error _ => none) fun x =>
      match reach x with
      | .error f => .fault f
      | .ok l =>
        let (s1, bs) := x.s.readLoc x.w false l size
        .ok (x.put s1 d.toNat (regsOf false (x.s.refusedAt x.w l bs)))

def execCst (d : BitVec 6) (a : BitVec 4) (z : BitVec 2) (i : BitVec 14) : State → Answer :=
  let size := 4 * 2 ^ z.toNat
  let cnt := sizeRegs size
  let reach := fun x : Who => x.ureach .w (x.uaddress a i) size
  issueUniform (wordOf (.cst d a z i)) (commonForm d z (decide (z.toNat < 2)))
    (fun x => match reach x with
      | .ok l => if 255 ≤ x.w.common.stores then some 3 else x.s.scoreStall x.w.quad l size
      | .error _ => none) fun x =>
      match reach x with
      | .error f => .fault f
      | .ok l =>
        let rs := (List.range cnt).map fun j => x.w.creg (d.toNat + j)
        let data := rs.flatMap fun r => leBytes r.val.toNat 4
        let p := rs.foldl (fun (p : Poison) r => p.join r.poison) none
        match hostPoison l p with
        | some f => .fault f
        | none =>
          .ok ((x.s.counter x.w.uid none (.store 0) 1).launchFlight fun j =>
            { id := j, wg := x.w.uid, tid := none, acc := .store, va := (x.uaddress a i).val, loc := l, size := size
              dst := 0, data := data, poison := p, colour := 0, acquire := false, release := false, pc := x.pc
              left := wordParts size, lane := none, done := false })

end Sys2Proof.Machine
end

