-- ==== Sys2Proof/Machine/Binding.lean ====
section
/-! DEFINITION. The translation buffer's instructions, tag queries and the release of held threads (R208-R213). -/

namespace Sys2Proof.Machine

/-- The status word of R208. -/
def statusWord (st value : Nat) : Word := BitVec.ofNat 32 (st + value % 65536 * 256)

/-- Rights code 1 of R84: only the runtime wave's threads hold runtime rights (R320). -/
def runtimeRights (x : Who) : Option Nat := if x.s.isWave x.w then none else some 1

def noRights (_ : Who) : Option Nat := none

/-- A form of format U with a status register and two sources: `f` gives the state after, the status and the
value; a poisoned source poisons the status word (R374). -/
def statusForm (i : Instr) (d : BitVec 6) (srcs : List (BitVec 8)) (rights : Who → Option Nat)
    (stall : Who → Option Nat) (f : Who → State × Nat × Nat) : State → Answer :=
  issueUniform (wordOf i) ⟨.c d.toNat 1 d.toNat :: srcs.map fun a => .usrc a 1, true, none, rights⟩ stall fun x =>
    let (s1, st, v) := f x
    let p := srcs.foldl (fun (p : Poison) a => p.join (x.uint a).poison) none
    .ok (x.put s1 d.toNat [⟨statusWord st v, p⟩])

/-! ### TBLD (R209) -/

/-- A translation entry from its image (R201), with the way it names. -/
def imageEntry (t : Tag) (w0 w1 w2 w3 : Word) : TEntry :=
  { tag := t
    va := (w0.toNat + (fld w1 0 12).toNat * 2 ^ 32) * 4096
    size := (fld w1 12 3).toNat
    r := w1.getLsbD 19, w := w1.getLsbD 20, x := w1.getLsbD 21
    pol := (fld w1 22 2).toNat
    pa := (w2.toNat + (fld w3 0 8).toNat * 2 ^ 32) * 4096
    leaving := false }

/-- The image words of an entry in a way (R201). -/
def TEntry.image (e : TEntry) (way : Nat) : List Nat :=
  [ e.va / 4096 % 2 ^ 32,
    e.va / 2 ^ 44 % 2 ^ 12 + e.size * 2 ^ 12 + way * 2 ^ 15 + (if e.r then 2 ^ 19 else 0) + (if e.w then 2 ^ 20 else 0) +
      (if e.x then 2 ^ 21 else 0) + e.pol * 2 ^ 22,
    e.pa / 4096 % 2 ^ 32,
    e.pa / 2 ^ 44 % 2 ^ 8 ]

def imageReserved (w1 w3 : Word) : Bool := decide (fld w1 24 8 ≠ 0#8) || decide (fld w3 8 16 ≠ 0#16)

/-- The check of an ownership word: tag, ceiling, world. -/
def ownWord (t : Tag) (e : TEntry) (latch : Nat) (w : Word) : Nat :=
  if fld w 0 24 ≠ t then 1
  else if (e.r ∧ ¬ w.getLsbD 28) ∨ (e.w ∧ ¬ w.getLsbD 29) ∨ (e.x ∧ ¬ w.getLsbD 30) then 4
  else if (fld w 24 4).toNat ≠ latch then 5
  else 0

/-- Own of R209: status 0, 1, 4 or 5. -/
def State.own (s : State) (t : Tag) (q : Nat) (e : TEntry) : Nat :=
  let bytes := 2 ^ pageShift e.size
  let off := e.pa % 2 ^ 50
  match e.pa / 2 ^ 50 with
  | 0 =>
    if 0xC000000000 ≤ off then 1
    else if e.size ≤ 1 then ownWord t e (s.latch q) (s.ownerWord (off / 65536))
    else
      match s.extentOf (off / 65536) with
      | none => 1
      | some i =>
        let w0 := s.extGet i 0
        if off + bytes ≤ ((fld w0 0 24).toNat + extentFrames (fld w0 24 4).toNat) * 65536 then
          ownWord t e (s.latch q) (s.extGet i 1)
        else 1
  | 1 => 0
  | 2 =>
    match s.windows.find? fun w => w.1 = off / 2 ^ 40 with
    | some (_, w) => if w.tag = t ∧ off % 2 ^ 40 + bytes ≤ w.size then 0 else 1
    | none => 1
  | _ => 1

/-- Status of `TBLD` for an image. -/
def State.tbldStatus (s : State) (t : Tag) (q way : Nat) (e : TEntry) (reserved : Bool) : Nat :=
  if 191 < q then 6
  else if 5 ≤ e.size ∨ e.pol = 3 ∨ reserved then 7
  else if s.tagGet 5 (q * 16 + way) ≠ t then 2
  else if e.va % 2 ^ pageShift e.size ≠ 0 ∨ e.pa % 2 ^ pageShift e.size ≠ 0 then 3
  else s.own t q e

/-- Load an entry: a duplicate in another way of the set goes, then the slot takes the entry (R209). -/
def State.tbldPut (s : State) (q way : Nat) (e : TEntry) : State × Nat :=
  let set := tlbSet e.va (pageShift e.size)
  let s1 := (List.range 16).foldl (fun (s : State) w =>
    match s.tlbGet q (set * 16 + w) with
    | some o => if w ≠ way ∧ o.tag = e.tag ∧ o.size = e.size ∧ o.va = e.va then s.tlbSetAt q (set * 16 + w) none else s
    | none => s) s
  (s1.tlbSetAt q (set * 16 + way) (some e), set * 16 + way)

def execTbld (d : BitVec 6) (a b : BitVec 8) : State → Answer :=
  let n := a.toNat - 0x80
  issueUniform (wordOf (.tbld d a b))
    ⟨[.c d.toNat 1 d.toNat, .c n 4 (a.toNat + 3), .usrc b 1], decide (0x80 ≤ a.toNat) && decide (a.toNat < 0xC0), none,
      runtimeRights⟩ noStallU fun x =>
      let q := (x.uint b).val.toNat
      let t := x.s.tagOf x.w
      let w := fun k => (x.w.creg (n + k)).val
      let e := imageEntry t (w 0) (w 1) (w 2) (w 3)
      let way := (fld (w 1) 15 4).toNat
      let st := x.s.tbldStatus t q way e (imageReserved (w 1) (w 3))
      let p := (List.range 4).foldl (fun (p : Poison) k => p.join (x.w.creg (n + k)).poison) (x.uint b).poison
      let (s1, v) := if st = 0 then x.s.tbldPut q way e else (x.s, 0)
      .ok (x.put s1 d.toNat [⟨statusWord st v, p⟩])

/-! ### TBINV (R210) -/

/-- The indices a `TBINV` names, or its refusal. -/
def tbinvTargets (sa : Nat) : Except Nat (List Nat) :=
  if sa < 2048 then .ok [sa]
  else if sa < 2 ^ 31 then .error 6
  else if sa < 2 ^ 31 + 16 then .ok ((List.range 128).map fun set => set * 16 + (sa - 2 ^ 31))
  else .error 7

/-- Whether physical bytes lie in an entry's page. -/
def TEntry.reaches (e : TEntry) (a n : Nat) : Bool := decide (e.pa < a + n) && decide (a < e.pa + 2 ^ pageShift e.size)

/-- The areas that a tenant's accesses under way on a quad have translated and not yet reached: the sectors that a guarded workgroup
holds (R222, R377), the completion areas of copies, also of those that a pre-emption has saved, and the pieces and areas of
contributions. -/
def State.reachedAreas (s : State) (q : Nat) (t : Tag) : List (Nat × Nat) :=
  ((s.wgs.filter fun w => decide (w.quad = q) && decide (s.tagOf w = t)).flatMap fun w => w.held.map fun h => (h.addr, 32)) ++
    (((s.copies.filter fun c => c.stage ≠ .finished) ++ s.gangs.flatMap fun g => g.savedCopies).filter fun c =>
      decide (c.quad = q) && decide (c.tenant = t)).flatMap (fun c => c.stampPa.toList.map fun a => (a, 16)) ++
    (s.colls.filter fun c => decide (c.quad = q) && decide (c.tenant = t) && decide (c.stage ≠ .done)).flatMap fun c =>
      c.src ++ c.dst ++ c.stampPa.toList.map fun a => (a, 16)

/-- Whether an access not yet complete translated through an entry of a quad: a thread's or the vamp's by its page and tenant, the
others by their physical areas. A monitor that is armed is no access: it stays armed on the address it was translated to, and is not
waited for (log 104). -/
def State.usesEntry (s : State) (q : Nat) (e : TEntry) : Bool :=
  (s.flights.any fun f => !f.done && decide (f.va.toNat / 2 ^ pageShift e.size = e.va / 2 ^ pageShift e.size) &&
    (match s.wg? f.wg with
      | some w => decide (w.quad = q) && decide (s.tagOf w = e.tag)
      | none => false)) ||
  (s.reachedAreas q e.tag).any fun p => e.reaches p.1 p.2

/-- Valid entries among some indices. -/
def State.validAt (s : State) (q : Nat) (is : List Nat) : List (Nat × TEntry) :=
  is.filterMap fun i => (s.tlbGet q i).map fun e => (i, e)

/-- Status of `TBINV`, the removed entries; of a quad above 191 and a reserved selection the former's status 6 stands (log 105). -/
def State.tbinv (s : State) (t : Tag) (sa q : Nat) : Nat × List (Nat × TEntry) :=
  if 191 < q then (6, [])
  else
    match tbinvTargets sa with
    | .error st => (st, [])
    | .ok is =>
      if s.tagGet 5 (q * 16 + (is.headD 0) % 16) ≠ t then (2, []) else (0, s.validAt q is)

/-- The vamp waits until every access through the entries has completed; meanwhile what finds one of them waits too (R210). -/
def execTbinv (d : BitVec 6) (a b : BitVec 8) : State → Answer :=
  let go := fun x : Who => x.s.tbinv (x.s.tagOf x.w) (x.uint a).val.toNat (x.uint b).val.toNat
  let put := fun (x : Who) (es : List (Nat × TEntry)) (f : TEntry → Option TEntry) =>
    es.foldl (fun (s : State) e => s.tlbSetAt (x.uint b).val.toNat e.1 (f e.2)) x.s
  issueUniformThen (wordOf (.tbinv d a b)) ⟨[.c d.toNat 1 d.toNat, .usrc a 1, .usrc b 1], true, none, runtimeRights⟩
    (fun x =>
      let es := (go x).2
      if es.any fun e => x.s.usesEntry (x.uint b).val.toNat e.2 then
        some (2, put x es fun e => some { e with leaving := true })
      else none) fun x =>
      let (st, es) := go x
      .ok (x.put (put x es fun _ => none) d.toNat [⟨statusWord st es.length, (x.uint a).poison.join (x.uint b).poison⟩])

/-! ### TBQ and TAGQ (R211, R212) -/

def execTbq (d : BitVec 6) (a b : BitVec 8) : State → Answer :=
  issueUniform (wordOf (.tbq d a b)) (.plain [.c d.toNat 4 d.toNat, .usrc a 1, .usrc b 1]) noStallU fun x =>
    let i := (x.uint a).val.toNat
    let q := (x.uint b).val.toNat
    let t := x.s.tagOf x.w
    let (ws, qst) : List Nat × Nat :=
      if 191 < q ∨ 2047 < i then ([0, 0, 0, 0], 6)
      else if x.s.tagGet 5 (q * 16 + i % 16) ≠ t then ([0, 0, 0, 0], 2)
      else
        match x.s.tlbGet q i with
        | some e => (e.image (i % 16), 0)
        | none => ([0, 0, 0, 0], 1)
    let p := (x.uint a).poison.join (x.uint b).poison
    .ok (x.put x.s d.toNat (ws.mapIdx fun k w => ⟨BitVec.ofNat 32 (w + if k = 3 then qst * 2 ^ 24 else 0), p⟩))

/-- Whether a resource's tag may be shown to a caller (R212). -/
def tagShown (caller tag : Tag) : Bool :=
  (decide (Tag.part tag = Tag.part caller) && decide (Tag.num tag = Tag.num caller)) ||
  (decide (Tag.num tag = 0xFFF) && (decide (Tag.part tag = Tag.part caller) || decide (Tag.part tag = 0))) ||
  (Tag.isSupervisor caller && (decide (Tag.part caller = Tag.part tag) || decide (Tag.part caller = 0)))

def execTagq (d : BitVec 6) (a b : BitVec 8) : State → Answer :=
  issueUniform (wordOf (.tagq d a b)) (.plain [.c d.toNat 1 d.toNat, .usrc a 1, .usrc b 1]) noStallU fun x =>
    let k := (x.uint a).val.toNat
    let i := (x.uint b).val.toNat
    let v : Word :=
      if maxId k ≤ i then 0x06000000#32
      else
        let t := x.s.tagGet k i
        if tagShown (x.s.tagOf x.w) t then t.setWidth 32 else 0x09000000#32
    .ok (x.put x.s d.toNat [⟨v, (x.uint a).poison.join (x.uint b).poison⟩])

/-! ### FRESUME (R213) -/

/-- The workgroup in a slot of a core. -/
def State.wgAt (s : State) (core slot : Nat) : Option Wg :=
  s.wgs.find? fun w => decide (w.core = core) && decide (w.slot = slot) && w.isResident

/-- Whether a held thread's fault was a `BREAKPOINT` or a `WATCHPOINT`: released at `%fpc`, it fires neither at its next instruction
(R345). -/
def Thread.atDebugFault (t : Thread) : Bool :=
  decide (t.fcause = BitVec.ofNat 32 cBreakpoint) || decide (t.fcause = BitVec.ofNat 32 cWatchpoint)

/-- A release at `%fpc`. -/
def State.releaseAt (s : State) (uid : Nat) (t : Thread) (sched : Option (Bool × BitVec 16)) : State :=
  (s.onThread uid t.tid fun t => { t with suppress := t.suppress || t.atDebugFault }).resumeAt uid t.tid (t.fpc.toNat / 4) true sched

/-- Threads of a workgroup held by a fault of class runtime that a filter matches. -/
def Wg.heldAt (w : Wg) (filter : Word) : List Thread :=
  w.threads.filter fun t => decide (t.place = .held .runtime) && (decide (filter = 0xFFFFFFFF#32) || decide (t.fpc = filter))

def execFresume (d : BitVec 6) (a b : BitVec 8) : State → Answer :=
  statusForm (.fresume d a b) d [a, b] runtimeRights noStallU fun x =>
    let c := (x.uint a).val
    let core := (fld c 0 10).toNat
    let mode := (fld c 14 2).toNat
    let me := x.s.tagOf x.w
    if mode = 3 ∨ fld c 16 16 ≠ 0#16 then (x.s, 7, 0)
    else
      match (if 767 < core then none else x.s.wgAt core (fld c 10 4).toNat) with
      | none => (x.s, 6, 0)
      | some w =>
        if x.s.tagGet 1 core ≠ me ∨ x.s.tagOf w ≠ me then (x.s, 1, 0)
        else
          let h := w.heldAt (x.uint b).val
          match h with
          | [] => (x.s, 8, 0)
          | t0 :: _ =>
            let s1 :=
              if mode = 0 then h.foldl (fun (s : State) t => s.releaseAt w.uid t x.sched) x.s
              else if mode = 1 then h.foldl (fun (s : State) t => s.resumeAt w.uid t.tid (t.fpc.toNat / 4 + 1) false x.sched) x.s
              else
                (x.s.postRecords w .system t0.fcause.toNat t0.fpc t0.finfo t0.faddr (h.map (·.tid))).terminate w.uid 3
                  t0.fcause.toNat t0.fpc t0.finfo
            (s1, 0, h.length)

end Sys2Proof.Machine
end

