-- ==== Sys2Proof/Machine/Debug.lean ====
section
/-! DEFINITION. Counters, stall counters and numeric counters of threads (R150, R353-R355), and the debug
instructions (R344-R349). -/

namespace Sys2Proof.Machine

/-! ### CNT (R355) -/

/-- The number behind a `CNTRD` id: a counter of the tenant, or an own stall counter. -/
def Who.counterValue (x : Who) (id : Nat) : Nat :=
  if id < 8 then
    match x.s.tenant? (x.s.tagOf x.w) with
    | some t => match t.ctrs[id]? with
      | some c => c.value.toNat
      | none => 0
    | none => 0
  else x.w.stalls.getD (id - 0x10) 0

def cntIdOk (id : Nat) : Bool := decide (id < 8) || (decide (0x10 ≤ id) && decide (id < 0x20))

def cntForm (i : Instr) (n cnt : Nat) (id : BitVec 8) (op : Nat → Thread → Thread) : State → Answer :=
  issueThread (wordOf i) ⟨[.v n cnt], cntIdOk id.toNat, none, fun _ => none⟩ false noStall fun x t =>
    .ok (op (x.counterValue id.toNat) t) none []

/-- The low word, and the high word into the shadow, at one instant. -/
def execCntrdLo (d : BitVec 7) (i : BitVec 8) : State → Answer :=
  cntForm (.cntrdLo d i) d.toNat 1 i fun v t =>
    { t.write d.toNat [⟨BitVec.ofNat 32 v, none⟩] with shadowId := i.toNat, shadowWord := BitVec.ofNat 32 (v / 2 ^ 32) }

def execCntrdHi (d : BitVec 7) (i : BitVec 8) : State → Answer :=
  cntForm (.cntrdHi d i) d.toNat 1 i fun v t =>
    t.write d.toNat [⟨if t.shadowId = i.toNat then t.shadowWord else BitVec.ofNat 32 (v / 2 ^ 32), none⟩]

def execCntrd (d : BitVec 6) (i : BitVec 8) : State → Answer :=
  cntForm (.cntrd d i) (2 * d.toNat) 2 i fun v t =>
    t.write (2 * d.toNat) [⟨BitVec.ofNat 32 v, none⟩, ⟨BitVec.ofNat 32 (v / 2 ^ 32), none⟩]

/-- Change a counter of the issuing tenant. -/
def State.onCtr (s : State) (tag : Tag) (i : Nat) (f : Ctr → Ctr) : State :=
  s.onTenant tag fun t => { t with ctrs := t.ctrs.mapIdx fun k c => if k = i then f c else c }

/-- Whether a `CNTSEL` value names an event and period. -/
def cntselOk (v : Word) : Bool :=
  decide ((fld v 0 8).toNat ≤ 0x20) && decide (fld v 24 8 = 0#8) && (decide (fld v 0 8 = 0x20#8) || decide (fld v 8 16 = 0#16))

def execCntsel (i : BitVec 8) (a : BitVec 8) : State → Answer :=
  let fm : Form := ⟨[.src a 1], decide (i.toNat < 8), none, fun _ => none⟩
  issueThread (wordOf (.cntsel i a)) fm false noStall fun x t =>
    let v := (x.int t a).val
    if cntselOk v then
      .ok t none [fun s =>
        if x.leads fm (fun u => cntselOk (x.int u a).val) t || s.choose t.tid then
          s.onCtr (s.tagOf x.w) i.toNat fun c => { c with event := (fld v 0 8).toNat, period := (fld v 8 16).toNat }
        else s]
    else .fault (illegalWord x.word) t

def execCntz (i : BitVec 8) : State → Answer :=
  issueThread (wordOf (.cntz i)) ⟨[], decide (i.toNat < 8), none, fun _ => none⟩ false noStall fun x t =>
    .ok t none [fun s => s.onCtr (s.tagOf x.w) i.toNat fun c => { c with value := 0 }]

def execNumrd (d : BitVec 6) (i : BitVec 8) (a : BitVec 8) : State → Answer :=
  issueThread (wordOf (.numrd d i a)) ⟨[.v (2 * d.toNat) 2, .src a 1], decide (i.toNat < 64), none, fun _ => none⟩ false
    noStall fun x t =>
      let u := x.int t a
      let v := match x.s.launchOf x.w with
        | some l => Table.get 0 l.num (i.toNat * 4 + u.val.toNat % 4)
        | none => 0
      .ok (t.write (2 * d.toNat) [⟨BitVec.ofNat 32 v, u.poison⟩, ⟨BitVec.ofNat 32 (v / 2 ^ 32), u.poison⟩]) none []

/-! ### DBG (R348, R349) -/

/-- The debug forms need the launch's debug flag (R83). -/
def debugRights (x : Who) : Option Nat := if x.s.isDebug x.w then none else some 2

/-- The target checks of R348. -/
def Who.target (x : Who) (v : Word) : Except Nat Wg :=
  if fld v 14 18 ≠ 0#18 then .error 7
  else
    match (if 767 < (fld v 0 10).toNat then none else x.s.wgAt (fld v 0 10).toNat (fld v 10 4).toNat) with
    | none => .error 6
    | some w =>
      if x.s.tagOf w ≠ x.s.tagOf x.w ∨ ¬ x.s.isDebug w then .error 1
      else if w.uid = x.w.uid then .error 12
      else .ok w

/-- A debug form on a target. -/
def targetForm (i : Instr) (d : BitVec 6) (a : BitVec 8) (rest : List (BitVec 8)) (f : Who → Wg → State × Nat × Nat) :
    State → Answer :=
  statusForm i d (a :: rest) debugRights noStallU fun x =>
    match x.target (x.uint a).val with
    | .error st => (x.s, st, 0)
    | .ok w => f x w

def execDbpset (d : BitVec 6) (a b : BitVec 8) : State → Answer :=
  statusForm (.dbpset d a b) d [a, b] debugRights noStallU fun x =>
    let off := (x.uint a).val.toNat
    match x.s.launches.find? fun l => decide (l.id = (x.uint b).val.toNat) with
    | none => (x.s, 6, 0)
    | some l =>
      if l.tenant ≠ x.s.tagOf x.w ∨ ¬ l.debug then (x.s, 1, 0)
      else if 2 ^ 26 ≤ off ∨ off % 4 ≠ 0 then (x.s, 7, 0)
      else
        match x.s.comparators.findIdx? fun c => c = none with
        | none => (x.s, 10, 0)
        | some k => ({ x.s with comparators := x.s.comparators.set k (some ⟨l.id, off⟩) }, 0, k)

def execDbpclr (d : BitVec 6) (a : BitVec 8) : State → Answer :=
  statusForm (.dbpclr d a) d [a] debugRights noStallU fun x =>
    let k := (x.uint a).val.toNat
    match (if 15 < k then none else x.s.comparators[k]?) with
    | none => (x.s, 6, 0)
    | some none => (x.s, 0, 0)
    | some (some c) =>
      if (x.s.launch? c.launch).any fun l => l.tenant ≠ x.s.tagOf x.w then (x.s, 1, 0)
      else ({ x.s with comparators := x.s.comparators.set k none }, 0, 0)

/-- RUNNING becomes SETTLING (R346). -/
def execDhalt (d : BitVec 6) (a : BitVec 8) : State → Answer :=
  targetForm (.dhalt d a) d a [] fun x w =>
    if w.dbg = .running then (x.s.onWg w.uid fun w => { w with dbg := .settling }, 0, 0) else (x.s, 0, 0)

/-- Threads held by a debug fault. -/
def Wg.debugHeld (w : Wg) : List Thread := w.threads.filter fun t => t.place = .held .debug

def execDresume (d : BitVec 6) (a b : BitVec 8) : State → Answer :=
  targetForm (.dresume d a b) d a [b] fun x w =>
    let m := (x.uint b).val.toNat
    if 1 < m then (x.s, 7, 0)
    else
      let s1 := w.debugHeld.foldl (fun (s : State) t => s.releaseAt w.uid t x.sched) x.s
      (if m = 0 then s1.onWg w.uid fun w => { w with dbg := .running } else s1, 0, w.debugHeld.length)

def execDwset (d : BitVec 6) (a b : BitVec 8) : State → Answer :=
  statusForm (.dwset d a b) d [a, b] debugRights noStallU fun x =>
    let v := (x.uint a).val
    let u := (x.uint b).val
    let q := (fld u 0 8).toNat
    let start := (fld v 0 21).toNat
    let len := (fld u 8 21).toNat
    let k := q * 8 + (fld v 21 3).toNat
    if 191 < q then (x.s, 6, 0)
    else if fld v 26 6 ≠ 0#6 ∨ fld u 29 3 ≠ 0#3 ∨ 0x200000 < start + len then (x.s, 7, 0)
    else if (Table.get none x.s.watches k).any fun p => p.tenant ≠ x.s.tagOf x.w then (x.s, 12, 0)
    else
      let e := if len = 0 then none else some ⟨start, len, v.getLsbD 24, v.getLsbD 25, x.s.tagOf x.w⟩
      ({ x.s with watches := Table.set none x.s.watches k e }, 0, 0)

def DebugState.code : DebugState → Nat
  | .running => 0
  | .settling => 1
  | .settled => 2

def execDstat (d : BitVec 6) (a : BitVec 8) : State → Answer :=
  targetForm (.dstat d a) d a [] fun x w => (x.s, 0, w.dbg.code + w.debugHeld.length * 4)

def execTrace (d : BitVec 6) (a b : BitVec 8) : State → Answer :=
  targetForm (.trace d a b) d a [b] fun x w =>
    let m := (x.uint b).val.toNat
    if 1 < m ∨ !(x.s.launchOf w).any (fun l => l.record) then (x.s, 7, 0)
    else (x.s.onWg w.uid fun w => { w with trace := decide (m = 1) }, 0, 0)

/-! ### DSTEP -/


/-- The hints from a key on and their target (R79): the words, or what the first fetch failed with. -/
def State.stepWords (s : State) (w : Wg) (key : Nat) : Nat → Except FaultInfo (List Word)
  | 0 => .ok []
  | n + 1 =>
    match s.fetch w key with
    | .error e => .error e
    | .ok x =>
      if fld x 26 6 = 0x3F#6 then
        match s.stepWords w (key + 1) n with
        | .ok xs => .ok (x :: xs)
        | .error e => .error e
      else .ok [x]

/-- Where the word of a thread to be stepped is: `%fpc` of one held for debug, the key of a ready one. -/
def Thread.stepKey (t : Thread) : Option Nat :=
  match t.place with
  | .held .debug => some (t.fpc.toNat / 4)
  | .waiting k .ready => some k
  | _ => none

/-- Take a thread out of where it is into a run of its own (R349): one held for debug with its saved hints and under R345, a waiting one
as it stands. -/
def State.beginStep (s : State) (w : Wg) (t : Thread) (key : Nat) (words : List Word) (x : Who) : State :=
  let s1 := (s.leaveEntries w [t.tid]).onThread w.uid t.tid fun t =>
    if t.isHeld then { t with place := .running, suppress := t.suppress || t.atDebugFault, hints := t.saved.getD Hints.none, saved := none }
    else { t with place := .running }
  let r : Run :=
    { core := w.core, port := 2 + w.slot * 2048 + t.tid, wg := w.uid, key := key, uniform := false, groups := [[t.tid]], words := words
      idx := 0, grp := 0, stall := none, parked := [], armed := s.comparators }
  { s1 with runs := s1.runs ++ [r], stepping := s1.stepping ++ [⟨x.r.core, x.r.port, x.w.uid, w.uid, t.tid⟩] }

/-- The step a run has under way. -/
def Who.underWay (x : Who) : Option Stepping :=
  x.s.stepping.find? fun e => decide (e.core = x.r.core) && decide (e.port = x.r.port) && decide (e.by' = x.w.uid)

/-- Whether the stepped thread is still in its run. -/
def State.stepRunning (s : State) (e : Stepping) : Bool :=
  s.runs.any fun r => decide (r.wg = e.wg) && decide (2 ≤ r.port) && decide ((r.port - 2) % 2048 = e.tid)

/-- What `DSTEP` begins: nothing, with a status; or the step. -/
def Who.stepStatus (x : Who) (a b : BitVec 8) : Except Nat (Wg × Thread × Nat × Except FaultInfo (List Word)) :=
  match x.target (x.uint a).val with
  | .error st => .error st
  | .ok w =>
    let tid := (x.uint b).val.toNat
    if w.dbg ≠ .settled then .error 12
    else if w.nthr ≤ tid then .error 6
    else
      match w.thread? tid with
      | none => .error 12
      | some t =>
        match t.stepKey with
        | none => .error 12
        | some k =>
          match x.s.stepWords w k 256 with
          | .error e => .ok (w, t, k, .error e)
          | .ok ws =>
            let last := ws.getLastD 0#32
            if uniformWord last ∨ last = ublkWord then .error 12 else .ok (w, t, k, .ok ws)

/-- The place code after a step. -/
def placeCode (t : Thread) : Nat :=
  match t.place with
  | .waiting _ _ => 1
  | .held _ => 2
  | .exited => 3
  | .running => 0

/-- The step is done: its status, and a target that still has an operation under way settles again. -/
def State.endStep (s : State) (e : Stepping) : State × Nat :=
  let s1 := { s with stepping := s.stepping.filter fun f => f ≠ e }
  match s.wg? e.wg with
  | none => (s1, 3)
  | some w =>
    let quiet := w.common.isZero && w.threads.all fun t => t.cnt.isZero
    (s1.onWg w.uid fun w => if w.dbg = .settled ∧ ¬ quiet then { w with dbg := .settling } else w,
      match w.thread? e.tid with
      | some t => placeCode t
      | none => 3)

/-- `DSTEP`: the vamp waits while the stepped thread's run is in progress; the first issue begins it. -/
def execDstep (d : BitVec 6) (a b : BitVec 8) : State → Answer :=
  issueUniformThen (wordOf (.dstep d a b)) ⟨[.c d.toNat 1 d.toNat, .usrc a 1, .usrc b 1], true, none, debugRights⟩
    (fun x =>
      match x.underWay, x.stepStatus a b with
      | some e, _ => if x.s.stepRunning e then some (2, x.s) else none
      | none, .ok (w, t, k, .ok ws) => some (2, x.s.beginStep w t k ws x)
      | none, _ => none) fun x =>
      let (s1, st, v) : State × Nat × Nat := match x.underWay, x.stepStatus a b with
        | some e, _ => let (s1, c) := x.s.endStep e; (s1, 0, c)
        | none, .error st => (x.s, st, 0)
        | none, .ok (w, t, k, _) =>
          match x.s.stepWords w k 256 with
          | .error e =>
            let s1 := (x.s.leaveEntries w [t.tid]).onThread w.uid t.tid fun t =>
              if t.isHeld then { t with suppress := t.suppress || t.atDebugFault, hints := t.saved.getD Hints.none } else t
            (s1.raiseFetch w.uid k [(t.tid, laneMask [t.tid], e)], 0, 2)
          | .ok _ => (x.s, 12, 0)
      .ok (x.put s1 d.toNat [⟨statusWord st v, (x.uint a).poison.join (x.uint b).poison⟩])

/-! ### DPCRD -/

/-- Words 0 to 10 of the image of an entry (R37). The uniform bit is that of the word at the key now. -/
def State.entryImage (s : State) (w : Wg) (e : Entry) : List Word :=
  let ready := w.threads.filter fun t => e.mask.getLsbD (t.tid % 256) && decide (t.tid / 256 = e.chunk) && t.isReady
  [ BitVec.ofNat 32 (e.key % 2 ^ 24 + e.slot * 2 ^ 24 + e.chunk * 2 ^ 28 + 2 ^ 31),
    BitVec.ofNat 32 (ready.length + e.passes * 2 ^ 9 + e.age * 2 ^ 16),
    BitVec.ofNat 32 (e.fill + e.ageLimit * 2 ^ 12 + if s.keyUniform w e.key then 2 ^ 28 else 0) ] ++
    (List.range 8).map fun k => e.mask.extractLsb' (32 * k) 32

/-- Insert into a list in ascending (key, chunk). -/
def insertEntry (e : Entry) : List Entry → List Entry
  | [] => [e]
  | f :: fs => if e.key < f.key ∨ (e.key = f.key ∧ e.chunk ≤ f.chunk) then e :: f :: fs else f :: insertEntry e fs

/-- Valid entries of a workgroup in ascending key, then chunk. -/
def State.entriesOf (s : State) (w : Wg) : List Entry :=
  (s.entries.filter fun e => decide (e.core = w.core) && decide (e.slot = w.slot)).foldr insertEntry []

def holdCode (t : Thread) : Nat :=
  match t.place with
  | .held .runtime => 1
  | .held .debug => 2
  | _ => 0

def waitCode (t : Thread) : Nat :=
  match t.place with
  | .waiting _ on => on.code
  | _ => 0

/-- Data words, status and value of `DPCRD` for a settled target. -/
def State.dpcrd (s : State) (w : Wg) (sel : Nat) : List Word × Nat × Nat :=
  let zero := List.replicate 11 0#32
  if sel < 256 then
    let es := s.entriesOf w
    match es[sel]? with
    | some e => (s.entryImage w e, 0, es.length)
    | none => (zero, 6, 0)
  else if sel / 2 ^ 30 = 1 then
    match (if w.nthr ≤ sel - 2 ^ 30 then none else w.thread? (sel - 2 ^ 30)) with
    | none => (zero, 6, 0)
    | some t =>
      let v0 := placeCode t + waitCode t * 4 + holdCode t * 32 + if t.inTrap then 128 else 0
      let k := if t.isHeld then t.fpc.toNat / 4 else (t.key?).getD 0
      ([BitVec.ofNat 32 v0, BitVec.ofNat 32 k, t.fpc, t.fcause, t.finfo] ++ List.replicate 6 0#32, 0, 0)
  else if sel / 2 ^ 31 = 1 ∧ sel - 2 ^ 31 < 8 then
    let c := sel - 2 ^ 31
    let held := (w.threads.filter fun t => t.isHeld && decide (t.tid / 256 = c)).map (·.tid)
    let m := chunkMask held c
    (List.replicate 3 0#32 ++ (List.range 8).map fun k => m.extractLsb' (32 * k) 32, 0, held.length)
  else (zero, 7, 0)

def execDpcrd (d : BitVec 6) (a b : BitVec 8) : State → Answer :=
  issueUniform (wordOf (.dpcrd d a b))
    ⟨[.c d.toNat 4 d.toNat, .c (d.toNat + 8) 4 d.toNat, .usrc a 1, .usrc b 1], true, none, debugRights⟩ noStallU fun x =>
      let zero := List.replicate 11 0#32
      let (ws, st, v) := match x.target (x.uint a).val with
        | .error st => (zero, st, 0)
        | .ok w => if w.dbg = .settled then x.s.dpcrd w (x.uint b).val.toNat else (zero, 12, 0)
      let p := (x.uint a).poison.join (x.uint b).poison
      .ok (x.put x.s d.toNat ((ws ++ [statusWord st v]).map fun w => ⟨w, p⟩))

end Sys2Proof.Machine
end

