-- ==== Sys2Proof/Machine/Runs.lean ====
section
/-! DEFINITION. The selector, block fetch and runs (R41-R47), the steps that make threads ready (R33, R178, R187),
guarded and twin boundaries (R377-R379), retirement and exit records (R58, R352), the run-port shares (R310),
and the core cycle (R43, R351). -/

namespace Sys2Proof.Machine

/-! ### Candidates (R41, R42) -/

/-- A candidate: a key of a workgroup with its counts (R41). -/
structure Candidate where
  wg : Nat
  key : Nat
  slot : Nat
  tag : Tag
  ready : Nat
  age : Nat
  passes : Nat
  fill : Nat
  ageLimit : Nat
deriving DecidableEq, Repr

/-- Whether a die's clocks run: it is not absent, and the device is not frozen (R350, R382). -/
def State.dieRuns (s : State) (d : Nat) : Bool := decide ((s.die? d).endp ≠ .absent) && s.frozen.isNone

/-- Whether a workgroup's candidates may be selected: it is resident, not halted, its gang is not being pre-empted (R41, R312), and what
the gang's last pre-emption saved is back in the engines (R275, log 59). -/
def State.selectable (s : State) (w : Wg) : Bool :=
  w.isActive && decide (w.dbg = .running) && (s.gang? w.gang).any fun g =>
    decide (g.status = .placed) && g.savedCopies.isEmpty && g.savedOps.isEmpty

/-- Ready threads of an entry. -/
def Wg.readyIn (w : Wg) (e : Entry) : List Thread :=
  w.threads.filter fun t => decide (t.tid / 256 = e.chunk) && e.mask.getLsbD (t.tid % 256) && t.isReady

/-- Entries of a workgroup at a key, lowest chunk first. -/
def State.entriesAt (s : State) (w : Wg) (key : Nat) : List Entry := (s.entriesOf w).filter fun e => e.key = key


/-- The candidate of a workgroup at a key, if it is one. The uniform bit is the word at the key as it is fetched now (R37, R51); while
a uniform block of the workgroup runs, nothing else of it does (R55, R174). -/
def State.candidateAt (s : State) (w : Wg) (key : Nat) : Option Candidate :=
  let es := s.entriesAt w key
  let ready := (es.map fun e => (w.readyIn e).length).sum
  let uniform := s.keyUniform w key
  let whole := w.threads.all fun t => !t.live || (t.isReady && decide (t.key? = some key) && !t.spilled)
  let busy := s.runs.any fun r => decide (r.wg = w.uid) && (decide (r.key = key) || r.uniform || uniform)
  if ready = 0 ∨ ¬ s.selectable w ∨ busy ∨ (uniform ∧ ¬ whole) then none
  else
    let e0 := es.head?
    let fill := (e0.map fun e => e.fill).getD 0
    let lim := (e0.map fun e => e.ageLimit).getD 0
    some
      { wg := w.uid, key := key, slot := w.slot, tag := s.tagOf w, ready := ready
        age := (es.map fun e => e.age).foldl max 0, passes := (es.map fun e => e.passes).foldl max 0
        fill := if fill = 0 then 32 else fill, ageLimit := if lim = 0 then 256 else lim }

/-- Candidates of a core. -/
def State.candidates (s : State) (core : Nat) : List Candidate :=
  (s.wgs.filter fun w => decide (w.core = core) && w.isActive).flatMap fun w =>
    ((s.entriesOf w).map fun e => e.key).eraseDups.filterMap (s.candidateAt w)

/-- The first of a list under an order `b` that says when the second is better. -/
def bestOf {α : Type} (better : α → α → Bool) : List α → Option α
  | [] => none
  | x :: xs =>
    match bestOf better xs with
    | none => some x
    | some y => if better y x then some y else some x

/-- The candidate R42 takes among one tenant's. -/
def selectOf (cs : List Candidate) : Option Candidate :=
  if cs.any fun c => decide (31 ≤ c.passes) then
    bestOf (fun a b => decide (b.passes < a.passes) || (decide (a.passes = b.passes) &&
      (decide (a.key < b.key) || (decide (a.key = b.key) && decide (a.slot < b.slot))))) cs
  else
    let full := cs.filter fun c => decide (c.fill ≤ c.ready) || decide (c.ageLimit ≤ c.age)
    bestOf (fun a b => decide (a.key < b.key) || (decide (a.key = b.key) &&
      (decide (b.age < a.age) || (decide (a.age = b.age) && decide (a.slot < b.slot)))))
      (if full.isEmpty then cs else full)

/-- D of R310. -/
def State.deficitOf (s : State) (core : Nat) (t : Tag) : Int :=
  match s.deficit.find? fun d => decide (d.1 = core) && decide (d.2.1 = t) with
  | some d => d.2.2
  | none => 0

/-- The tenant a free port takes (R310): the largest D, above 0 if any is; ties to the lowest tag. -/
def State.portTenant (s : State) (core : Nat) (cs : List Candidate) : Option Tag :=
  bestOf (fun a b => decide (s.deficitOf core b < s.deficitOf core a) ||
    (decide (s.deficitOf core a = s.deficitOf core b) && decide (a.toNat < b.toNat))) (cs.map fun c => c.tag)

/-! ### Block fetch (R35, R46, R47, R82) -/

/-- Whether a terminator's fields all hold claimed values and allowed operands: it raises no `ILLEGAL` for its word (R64, R82). -/
def endClaimed (i : Instr) : Bool :=
  match i with
  | .barSync s _ => decide (s.toNat < 5)
  | .barArrive s _ => decide (s.toNat < 5)
  | .barWait s _ => decide (s.toNat < 5)
  | .mwait _ x _ c _ => decide (c.toNat < 3) && srcLegal x.toNat 1
  | .brx a => srcLegal a.toNat 1
  | .ret a => srcLegal a.toNat 1
  | .tbarWait _ x _ _ => srcLegal x.toNat 1
  | _ => true

/-- The block-terminating encodings of R82. A word that raises `ILLEGAL` terminates no block for the threads that do not fault at it. -/
def terminates (w : Word) : Bool :=
  let op := (fld w 26 6).toNat
  let sub := (fld w 20 6).toNat
  ((decide (op = 0) && [1, 2, 3, 5, 6].contains sub) || (decide (0x1F ≤ op) && decide (op ≤ 0x25)) ||
    (decide (op = 0x31) && fld w 4 3 = 3#3)) && (decodeWord w).toOption.any endClaimed

/-- Words of a block from a key on, at most `n`, and whether its end may leave hints without their target: the limit
of R46 or a failed fetch. -/
def State.fetchFrom (s : State) (w : Wg) (key : Nat) (first : Bool) : Nat → List Word × Bool
  | 0 => ([], true)
  | n + 1 =>
    match s.fetch w key with
    | .error _ => ([], true)
    | .ok x =>
      if x = ublkWord ∧ ¬ first then ([], false)
      else if terminates x then ([x], false)
      else
        let (xs, cut) := s.fetchFrom w (key + 1) false n
        (x :: xs, cut)

/-- Whether the calendars let the code word at a key be read now (R309). -/
def State.codeServed (s : State) (w : Wg) (key : Nat) : Bool :=
  (s.launchOf w).all fun l => match s.translate w .x false (codeAddr l key) 4 with
    | .ok (.mem a) => s.served w.quad (s.tagOf w) a
    | _ => true

/-- Whether the fetch of the block at a key finds a translation entry under removal, and so waits (R210), or a word that is not served now
(R309). -/
def State.fetchWaits (s : State) (w : Wg) (key : Nat) (first : Bool) : Nat → Bool
  | 0 => false
  | n + 1 =>
    match s.fetch w key with
    | .error f => decide (f.cause = cWait)
    | .ok x => !s.codeServed w key || !((decide (x = ublkWord) && !first) || terminates x) && s.fetchWaits w (key + 1) false n

/-- Drop hints at the end of a list of words. -/
def trimHints (ws : List Word) : List Word := (ws.reverse.dropWhile isHintWord).reverse

/-- What a block fetch gives: the words, or the fault of every thread of the run (R35, R47). -/
def State.fetchBlock (s : State) (w : Wg) (key : Nat) : Except FaultInfo (List Word) :=
  match s.fetch w key with
  | .error e => .error e
  | .ok x =>
    let (ws, cut) := s.fetchFrom w key true 64
    let body := if cut then trimHints ws else ws
    match body with
    | [] =>
      match s.fetch w (key + ws.length) with
      | .error e => if ws.length < 64 then .error e else .error (illegalWord x)
      | .ok _ => .error (illegalWord x)
    | b :: bs => .ok (b :: bs)

/-- The groups of R45: group g takes the g-th lowest `%tid` of each home lane. -/
def groupsOf (tids : List Nat) : List (List Nat) :=
  let lane := fun l => tids.filter fun t => t % 32 = l
  let n := ((List.range 32).map fun l => (lane l).length).foldl max 0
  (List.range n).map fun g => (List.range 32).filterMap fun l => (lane l)[g]?

/-- After a selection (R42, R43): the candidate's entries start again, the tenant's other candidates on the core gain a
pass, each of their entries by one of its own count (log 86). -/
def State.passOver (s : State) (core : Nat) (c : Candidate) (others : List Candidate) : State :=
  { s with entries := s.entries.map fun e =>
      if e.core ≠ core then e
      else if e.key = c.key ∧ e.slot = c.slot then { e with age := 0, passes := 0 }
      else if others.any fun o => o.key = e.key ∧ o.slot = e.slot then { e with passes := min (e.passes + 1) 127 }
      else e }

/-- Take a candidate into a run on a port (R45, R46), or into the fault of its first fetch. -/
def State.takeCandidate (s : State) (core port : Nat) (c : Candidate) (others : List Candidate) : State :=
  match s.wg? c.wg with
  | none => s
  | some w =>
    let tids := ((s.entriesAt w c.key).flatMap w.readyIn).map (·.tid)
    let s1 := (s.passOver core c others).leaveEntries w tids
    let s2 := s1.onWg w.uid fun w =>
      { w with threads := w.threads.map fun t => if tids.contains t.tid then { t with place := .running } else t }
    let groups := groupsOf tids
    match s.fetchBlock w c.key with
    | .error f => s2.raiseFetch w.uid c.key (groups.flatMap fun g => g.map fun t => (t, laneMask g, f))
    | .ok ws =>
      let r : Run :=
        { core := core, port := port, wg := w.uid, key := c.key, uniform := decide (ws.head? = some ublkWord)
          groups := groups, words := ws, idx := 0, grp := 0, stall := none, parked := [], armed := s.comparators }
      { s2.count (s.tagOf w) 0x03 1 with runs := enqueueRun s2.runs r }

/-- Whether a port is free to select. -/
def State.portFree (s : State) (core port : Nat) : Bool :=
  decide (port < 2) && decide (core < 768) && s.dieRuns (core / 384) &&
    !(s.runs.any fun r => decide (r.core = core) && decide (r.port = port))

/-- `RUN_SELECT`: a free run port takes a tenant, then one of its candidates; while the lookup of the chosen block's code waits (R210),
the port waits (log 14). -/
def execRunSelect (core port : Nat) (s : State) : Answer :=
  if s.portFree core port then
    let cs := s.candidates core
    match s.portTenant core cs with
    | none => done s
    | some t =>
      let mine := cs.filter fun c => c.tag = t
      match selectOf mine with
      | none => done s
      | some c =>
        if (s.wg? c.wg).any fun w => s.fetchWaits w c.key true 64 then done s
        else done (s.takeCandidate core port c (mine.filter fun o => o ≠ c))
  else done s

/-- `RUN_PORT_ROUND` (R310): at the start of a round every resident tenant gets its quantum; a tenant that has left
loses its rest. -/
def execRunPortRound (core : Nat) (s : State) : Answer :=
  let tags := ((s.wgs.filter fun w => decide (w.core = core) && w.isResident).map s.tagOf).eraseDups
  let share := fun t : Tag => (fld (s.cfgGet (0x01000000 + 8 * Tag.part t)) 8 8).toNat
  let total := (tags.map share).sum
  let next := tags.map fun t =>
    let q : Int := (2048 * share t / total : Nat)
    (core, t, min (s.deficitOf core t + q) (2 * q))
  done { s with deficit := (s.deficit.filter fun d => d.1 ≠ core) ++ next }

/-! ### Threads become ready -/

/-- `SLEEP_EXPIRY` (R178). -/
def execSleepExpiry (wg tid : Nat) (s : State) : Answer :=
  match s.wg? wg with
  | none => done s
  | some w =>
    done (s.onThread wg tid fun t =>
      match t.place with
      | .waiting k (.sleep till) => if till ≤ s.clock w then { t with place := .waiting k .ready } else t
      | _ => t)

/-- Whether a thread's release before an arrival is complete (R187, R226). -/
def Wg.released (w : Wg) (t : Thread) : Bool :=
  decide (t.cnt.loads = 0) && decide (t.cnt.stores = 0) && decide (t.cnt.copies = 0) && decide (w.common.stores = 0) &&
    decide (w.common.copies = 0)

/-- Count an arrival in the current phase of a barrier. -/
def State.countArrival (s : State) (w : Wg) (tid : Nat) (b : Barrier) (k : BarKind) : State :=
  let s1 := { s with barriers := s.barriers.map fun (x : Barrier) =>
    if x.scope = b.scope ∧ x.inst = b.inst ∧ x.id = b.id then { x with arrived := x.arrived ++ [(w.uid, tid)] } else x }
  (s1.onThread w.uid tid fun t =>
    match t.place with
    | .waiting key _ =>
      { t with place := .waiting key (if k = .arrive then .ready else .barrier b.scope b.id k false b.phase) }
    | _ => t).settleBarriers

/-- `BARRIER_ARRIVAL` (R187): an arrival is counted once its release is complete and the thread's earlier arrival at
this barrier is no longer in the current phase. -/
def execBarrierArrival (wg tid : Nat) (s : State) : Answer :=
  match s.wg? wg with
  | none => done s
  | some w =>
    match w.thread? tid with
    | none => done s
    | some t =>
      match t.place with
      | .waiting _ (.barrier scope id k true _) =>
        match s.barrierAt w scope id with
        | none => done s
        | some b =>
          if w.released t ∧ ¬ b.arrived.contains (wg, tid) then done ((s.countArrival w tid b k).advanceFree) else done s
      | _ => done s

/-! ### Guarded and twin execution (R377-R379) -/

/-- Put back the bytes of an area. -/
def restoreArea (m : List Host.Cell) (lo n : Nat) (cells : List (Nat × Byte)) : List Host.Cell :=
  cells.foldl (fun m c => Memory.write m c.1 c.2) (Memory.clear m lo n)

/-- A barrier as a rollback of a workgroup leaves it (R378): its own barrier stands as just after the boundary; of a wider one its
arrivals since then are taken back. -/
def State.rollBarrier (s : State) (w : Wg) (x : Shadow) (b : Barrier) : Barrier :=
  let old := x.barriers.find? fun o => decide (o.scope = b.scope) && decide (o.inst = b.inst) && decide (o.id = b.id)
  if ¬ s.inScope b.scope b.inst w then b
  else if b.scope = 0 then old.getD { b with phase := 0, arrived := [] }
  else
    { b with arrived := b.arrived.filter fun a => decide (a.1 ≠ w.uid) ||
        old.any fun o => decide (o.phase = b.phase) && o.arrived.contains a }

/-- Restore a workgroup from its shadow (R378): registers, frames, scratch, banks, barriers; every live thread parked ready at the
key it held just after the boundary. -/
def State.restoreShadow (s : State) (w : Wg) (x : Shadow) : State :=
  let (lo, n) := match s.gang? w.gang with
    | some g => (sramBase (w.quad * 16 + g.bank0), s.visibleBanks g * 2 ^ 17)
    | none => (0, 0)
  let sc := scratchBase w.uid
  let s1 : State := { s with
    mem := restoreArea (restoreArea s.mem sc (2 ^ 19) x.scratch) lo n x.banks
    memPoison := x.poison.foldl (fun t c => Table.set 0#12 t c.1 c.2)
      (Table.clear (Table.clear s.memPoison sc (2 ^ 19)) lo n)
    barriers := s.barriers.map (s.rollBarrier w x) }
  let s2 := s1.onWg w.uid fun w =>
    { w with
      quota := x.quota, commons := x.commons, addrs := x.addrs, tvec := x.tvec, held := []
      inbox := [], status := .resident
      threads := x.threads.map fun t =>
        match t.place with
        | .exited => t
        | _ => { t with cnt := Counters.zero, pending := [], block := .none, spilled := false } }
  x.threads.foldl (fun (s : State) t =>
    match t.place with
    | .waiting k _ => s.arrive w.uid t.tid k .ready none
    | _ => s) s2

/-- Whether every operation of a workgroup has completed. -/
def Wg.quiet (w : Wg) : Bool := w.common.isZero && w.threads.all fun t => t.cnt.isZero

/-- Whether a workgroup may be restored: it is to be rolled back, and everything it has in flight has completed. -/
def Wg.mayRollBack (w : Wg) : Bool := decide (w.status = .rollingBack) && w.shadow.isSome && w.quiet

/-- `GUARD_ROLLBACK` (R378): once everything in flight has completed; a pair of twins is restored together (R379). -/
def execGuardRollback (wg : Nat) (s : State) : Answer :=
  match s.wg? wg with
  | none => done s
  | some w =>
    let both := w :: (if s.paired w then (w.twin.bind s.wg?).toList else [])
    if both.all Wg.mayRollBack then
      done (both.foldl (fun (s : State) v => match v.shadow with
        | some x => s.restoreShadow v x
        | none => s) s)
    else done s

/-- A twin's signature of an interval (R379). -/
def Wg.signature (w : Wg) : Nat :=
  (w.held.map fun h =>
    (Config.sha256Low (leBytes h.addr 8 ++ h.data ++ leBytes h.mask.toNat 4)).toNat).sum % 2 ^ 64

/-- The barrier at whose phase completion a workgroup stands at a boundary. -/
def State.boundaryOf (s : State) (w : Wg) : Option Barrier :=
  s.barriers.find? fun b => decide (b.scope = 0) && decide (b.inst = w.uid) && s.phaseComplete b && (s.isBoundary b).isSome

/-- Whether a workgroup is done but for its final boundary (R377). -/
def Wg.atEnd (w : Wg) : Bool := w.threads.all fun t => !t.live

/-- Twins whose signatures match: the primary performs its held stores, then both phases complete, or both may retire. -/
def State.twinsAgree (s : State) (p q : Wg) : State :=
  let s1 := (s.boundary p.uid true).boundary q.uid false
  let go := fun (s : State) (w : Wg) => match s.boundaryOf w with
    | some b => s.completePhase b
    | none => s.onWg w.uid fun w => { w with agreed := true }
  go (go s1 p) q

/-- A mismatch: the first rolls both back; the second at the same boundary ends both with `POISON`, tag class 0xB. -/
def State.twinsDiffer (s : State) (p q : Wg) : State :=
  if p.mismatched ∨ q.mismatched then
    let stop := fun (s : State) (w : Wg) =>
      let f := poisonFault (BitVec.ofNat 12 (0xB00 + s.errSeq % 256)) 0
      ((s.count (s.tagOf w) 0x0E 1).postRecords w .system cPoison 0 f.info 0 (w.threads.map (·.tid))).terminate w.uid 1
        cPoison 0 f.info
    let s1 := stop (stop s p) q
    { s1 with outbox := s1.outbox ++ [.silentError p.launch p.num], errSeq := s1.errSeq + 1 }
  else
    let back := fun (s : State) (w : Wg) =>
      ((s.count (s.tagOf w) 0x0E 1).onWg w.uid fun w => { w with mismatched := true }).beginRollback w.uid
    back (back s p) q

/-- `TWIN_SIGNATURE_EXCHANGE` (R379): at a boundary of both twins, or at the end of both. -/
def execTwinSignatureExchange (wg : Nat) (s : State) : Answer :=
  match s.wg? wg with
  | none => done s
  | some p =>
    match p.twin.bind s.wg? with
    | none => done s
    | some q =>
      let together := ((s.boundaryOf p).isSome && (s.boundaryOf q).isSome) || (p.atEnd && q.atEnd && p.quiet && q.quiet && !p.agreed)
      if p.primary ∧ together ∧ p.isActive ∧ q.isActive then
        done ((if p.signature = q.signature then s.twinsAgree p q else s.twinsDiffer p q).advanceFree)
      else done s

/-! ### Retirement (R58, R352) -/

/-- Distinct values of an ascending insertion of a list. -/
def insertNat (x : Nat) : List Nat → List Nat
  | [] => [x]
  | y :: ys => if x ≤ y then x :: y :: ys else y :: insertNat x ys

def sortNat (xs : List Nat) : List Nat := xs.foldr insertNat []

/-- The bytes of an exit record (R352). -/
def exitBytes (num : Nat) (x : ExitInfo) (stalls : List Nat) : List Byte :=
  let ds := (sortNat x.pcs).eraseDups
  let p0 := ds.getD 0 0
  let p1 := ds.getD 1 0
  leBytes num 4 ++ leBytes x.ended 1 ++ leBytes x.cause 1 ++ leBytes x.pcs.length 2 ++ leBytes x.fpc.toNat 4 ++
    leBytes x.finfo.toNat 4 ++ leBytes p0 4 ++ leBytes p1 4 ++
    leBytes (if ds.isEmpty then 0 else x.pcs.count p0) 2 ++ leBytes (if ds.length < 2 then 0 else x.pcs.count p1) 2 ++
    leBytes ds.length 2 ++ leBytes 0 2 ++ (List.range 16).flatMap fun i => leBytes (stalls.getD i 0) 6

/-- Write a workgroup's exit record, when its launch has an exit area. -/
def State.writeExit (s : State) (w : Wg) (x : ExitInfo) : State :=
  match s.launchOf w with
  | some l => if l.exits = 0 then s else s.writeOut (l.exits + 128 * w.num) (exitBytes w.num x w.stalls)
  | none => s

/-- A gang whose workgroups have all retired is retired, and its allotments and its context room are free (R58, R314). -/
def State.retireGang (s : State) (gid : Nat) : State :=
  let all := (s.wgs.filter fun w => w.gang = gid).all fun w => match w.status with
    | .finished _ retired => retired
    | _ => false
  if all then
    (s.onGang gid fun g => { g with status := .retired, room := [], banks := 0, accs := 0, segs := 0 }).settleBarriers
  else s

/-- A workgroup retires: its exit record, then its gang. -/
def State.retireWg (s : State) (w : Wg) (x : ExitInfo) : State :=
  let s1 := (s.writeExit w x).onWg w.uid fun w => { w with status := .finished x true }
  let s2 : State := { s1 with deficit := s1.deficit.filter fun d =>
    d.1 ≠ w.core ∨ d.2.1 ≠ s.tagOf w ∨ (s1.wgs.any fun v => v.isResident ∧ v.core = w.core ∧ s.tagOf v = s.tagOf w) }
  s2.retireGang w.gang

/-- `WORKGROUP_RETIRE` (R58): every thread has exited and every operation has completed. A guarded workgroup passes
through a final boundary; a twin has first exchanged its last signature. -/
def execWorkgroupRetire (wg : Nat) (s : State) : Answer :=
  match s.wg? wg with
  | none => done s
  | some w =>
    if ¬ w.quiet ∨ ¬ w.atEnd then done s
    else
      match w.status with
      | .resident =>
        if s.paired w ∧ ¬ w.agreed then done s
        else done (((if s.isGuarded w then s.boundary wg w.primary else s).retireWg w ⟨0, 0, 0, 0, []⟩).advanceFree)
      | .finished x false => done ((s.retireWg w x).advanceFree)
      | _ => done s

/-- `WORKGROUP_SETTLED` (R346): a halted workgroup with no run in progress and nothing outstanding. -/
def execWorkgroupSettled (wg : Nat) (s : State) : Answer :=
  match s.wg? wg with
  | none => done s
  | some w =>
    if w.dbg = .settling ∧ w.quiet ∧ ¬ (s.runs.any fun r => r.wg = wg) then
      done (s.onWg wg fun w => { w with dbg := .settled })
    else done s

/-! ### The core cycle (R43, R351) -/

def CopyOp.isMc (c : CopyOp) : Bool := decide (c.form = .mc)

/-- Quads a multicast writes, with their bits (R257). -/
def CopyOp.targets (c : CopyOp) : List (Nat × Nat) :=
  let mc := c.mc.toNat
  (List.range 16).filterMap fun i =>
    if mc / 2 ^ i % 2 = 1 ∧ bitsOf mc 16 7 + i < 96 then some (i, c.quad / 96 * 96 + bitsOf mc 16 7 + i) else none

/-- Free entries of a quad's scoreboard. -/
def State.scoreFree (s : State) (quad : Nat) : Nat := 32 - (s.score.filter fun e => e.quad = quad).length

/-- Whether a multicast waits for a free entry on a target quad (R257). -/
def State.mcFull (s : State) (c : CopyOp) : Bool :=
  c.isMc && decide (c.stage = .moving) && !(s.score.any fun e => e.op = c.id) && c.targets.any fun t => s.scoreFree t.2 = 0

/-- Whether two contributions name one instance (R393). -/
def Contribution.sameInst (a b : Contribution) : Bool :=
  decide (a.launch = b.launch) && decide (a.scope = b.scope) && decide (a.inst = b.inst) && decide (a.cid = b.cid)

/-- Contributions counted in the current phase of an instance. -/
def State.phaseOf (s : State) (c : Contribution) : List Contribution :=
  s.colls.filter fun d => decide (d.stage = .counted) && d.sameInst c

/-- Active instances other than this contribution's. -/
def State.otherInstances (s : State) (c : Contribution) : Nat :=
  ((s.colls.filter fun d => decide (d.stage = .counted) && !d.sameInst c).map fun d =>
    (d.launch, d.scope, d.inst, d.cid)).eraseDups.length

/-- Whether a contribution waits for an instance, or its rank for the next phase (R393, R395). -/
def State.collWaits (s : State) (c : Contribution) : Bool :=
  decide (c.stage = .sent) && (((s.phaseOf c).isEmpty && decide (256 ≤ s.otherInstances c)) || (s.phaseOf c).any fun d => d.rank = c.rank)

/-- The stall class of a waiting thread (R351, rule 6); a `WAIT` of a uniform block looks at the common counters too. A thread whose
arrival at a barrier still waits for its release counts under 7, the barrier's own reason, where R226 names those of the operations it
waits for (log 100). -/
def waitStall (common : Counters) (t : Thread) : Option Nat :=
  match t.place with
  | .waiting _ .ready => none
  | .waiting _ (.counters nl ns nc nm nx uni _) =>
    let open' := fun (f : Counters → Nat) (n : Nat) => decide (n < f t.cnt) || (uni && decide (n < f common))
    some (if open' Counters.loads nl then 2 else if open' Counters.stores ns then 3 else if open' Counters.copies nc then 4
      else if open' Counters.matrix nm then 5 else if open' Counters.colls nx then 6 else 2)
  | .waiting _ (.barrier ..) => some 7
  | .waiting _ (.tbar ..) => some 8
  | .waiting _ (.monitor ..) => some 9
  | .waiting _ (.sleep ..) => some 1
  | _ => none

/-- The reasons of a workgroup's waiting threads; a multicast that waits for a scoreboard counts under reason 4 for its issuer (R257,
log 84), and a contribution that waits under reason 6 (R393, R395). -/
def State.waitStalls (s : State) (w : Wg) : List Nat :=
  (if s.copies.any fun c => decide (c.wg = some w.uid) && s.mcFull c then [4] else []) ++
    (if s.colls.any fun c => decide (c.wg = w.uid) && s.collWaits c then [6] else []) ++ w.threads.filterMap (waitStall w.common)

/-- The stall counter that a resident workgroup raises in a cycle in which nothing of it issues (R351). A run that
waits for nothing this model holds is in its block fetch. -/
def State.stallOf (s : State) (w : Wg) : Nat :=
  let run := fun p => s.runs.find? fun r => decide (r.wg = w.uid) && decide (r.port = p)
  match (run 0).orElse fun _ => run 1 with
  | some r => r.stall.getD 0
  | none =>
    if w.dbg ≠ .running then 14
    else if w.isActive ∧ w.atEnd ∧ s.paired w ∧ ¬ w.agreed then 7
    else if ((s.entriesOf w).map fun e => e.key).any fun k => (s.candidateAt w k).isSome then 12
    else if w.threads.any fun t => t.spilled then 15
    else if w.threads.all fun t => !t.live || t.isHeld then 14
    else
      match s.waitStalls w with
      | [] => 1
      | x :: xs => xs.foldl min x

/-- Raise a stall counter; it saturates. -/
def bumpStall (l : List Nat) (i : Nat) : List Nat := l.set i (min (l.getD i 0 + 1) (2 ^ 48 - 1))

/-- One workgroup's cycle. -/
def State.wgCycle (s : State) (w : Wg) : State :=
  if w.issuing then s.onWg w.uid fun w => { w with issuing := false }
  else
    let k := s.stallOf w
    (s.count (s.tagOf w) (0x10 + k) 1).onWg w.uid fun w => { w with stalls := bumpStall w.stalls k }

def State.onDie (s : State) (d : Nat) (f : Die → Die) : State :=
  if d = 0 then { s with die0 := f s.die0 } else { s with die1 := f s.die1 }

/-- `CORE_CYCLE`: the die's cycle counter, one stall counter of every resident workgroup that did not issue, the ages of
entries with a ready thread; island time goes on. -/
def execCoreCycle (die : Nat) (s : State) : Answer :=
  if ¬ s.dieRuns die then done { s with ns := s.ns + 1 + Config.tick s.freeCtr, freeCtr := s.freeCtr + 1 }
  else
    let ws := s.wgs.filter fun w => w.isResident && decide (w.core / 384 = die)
    let s1 := ws.foldl (fun (s : State) w => s.wgCycle w) s
    let aged := s1.entries.map fun (e : Entry) =>
      if e.core / 384 = die ∧ (ws.any fun w => w.core = e.core ∧ w.slot = e.slot ∧ ¬ (w.readyIn e).isEmpty) then
        { e with age := min (e.age + 1) 65535 }
      else e
    let s2 := { s1 with entries := aged, ns := s1.ns + 1 + Config.tick s1.freeCtr, freeCtr := s1.freeCtr + 1 }
    let s3 := s2.onDie die fun d => { d with cycles := d.cycles + 1 }
    done (s3.flushLog s3.logPend [])

/-! ### Words no entry claims (R64, R84) -/

/-- `UNCLAIMED_ENCODING`: `ILLEGAL` for the issuing group, at a hint as at a hint, of a uniform group for every thread of
the run. -/
def execUnclaimedEncoding (word : BitVec 32) (s : State) : Answer :=
  if isHintWord word then issueHintWord word false (fun h => h) s
  else if uniformWord word then issueUniform word ⟨[], false, none, fun _ => none⟩ noStallU (fun x => .ok x.s) s
  else issueThread word ⟨[], false, none, fun _ => none⟩ false noStall (fun _ t => .ok t none []) s

end Sys2Proof.Machine
end

