-- ==== Sys2Proof/Machine/Commands.lean ====
section
/-! DEFINITION. What engines and queues share: ownership checks of physical addresses (R292), queue control blocks
(R289), the completion of a command (R293), records that stop no thread (R340). -/

namespace Sys2Proof.Machine

/-! ### Ownership checks -/

/-- Whether frames of local HBM are owned by a tag with the rights of `rwx` in their ceilings (R196, R292). -/
def State.owned (s : State) (t : Tag) (rwx : BitVec 3) (a n : Nat) : Bool :=
  decide (a + n ≤ 0xC000000000) &&
    (List.range ((a + n + 65535) / 65536 - a / 65536)).all fun i =>
      let w := s.ownerWord (a / 65536 + i)
      decide (fld w 0 24 = t) && decide (fld w 28 3 &&& rwx = rwx)

def rightR : BitVec 3 := 1#3
def rightW : BitVec 3 := 2#3
def rightRW : BitVec 3 := 3#3

/-! ### Records without a thread (R340) -/

/-- An engine or command record: mask zero, core 0xFFFF. -/
def plainRec (cause quad launch : Nat) (finfo : Word) (tag : Tag) (addr : DWord) : FaultRec :=
  { cause := cause, cls := 1, chunk := 0, slot := 0, core := 0xFFFF, quad := quad, launch := launch, fpc := 0
    finfo := finfo, tag := tag, addr := addr, mask := 0 }

/-- ENGINE_FAIL: engine 0 copy, 1 matrix, 2 collective. -/
def State.engineFail (s : State) (engine quad launch : Nat) (tag : Tag) (status reason : Nat) : State :=
  s.postFault (plainRec 0x20 quad launch (BitVec.ofNat 32 (status + reason * 256 + engine * 65536)) tag 0)

/-- COMMAND_FAIL of a queue, with the launch it concerns, or 0 (R340). -/
def State.commandFail (s : State) (tag : Tag) (q launch status : Nat) : State :=
  s.postFault (plainRec 0x21 0 launch (BitVec.ofNat 32 (status + q * 65536)) tag 0)

/-- A write refused at another device's memory, by this device's remote table, or beside its absent die: a loss record and a record
without a stop that name the device (R206, R333, R383). -/
def State.lostWrite (s : State) (tag : Tag) (quad launch : Nat) (k : AccKind) (a : Nat) (va : DWord) : State :=
  let dev := if regionOf a = 0 then Config.devNumber.toNat else a / 2 ^ 40 % 1024
  let s1 := s.addLoss tag ⟨0, 2, BitVec.ofNat 32 dev, BitVec.ofNat 64 s.ns, va, 0⟩
  s1.postFault (plainRec 0x22 quad launch (BitVec.ofNat 32 (dev + k.code * 1024)) tag va)

/-! ### Queue control blocks (R289, R291) -/

def State.qcbNat (s : State) (q : Queue) (o n : Nat) : Nat := s.readNat (q.qcb + o) n

def State.ringOf (s : State) (q : Queue) : Nat := s.qcbNat q 0 8
def State.lgsize (s : State) (q : Queue) : Nat := s.qcbNat q 8 1
def State.wrOf (s : State) (q : Queue) : Nat := s.qcbNat q 12 4
def State.rdOf (s : State) (q : Queue) : Nat := s.qcbNat q 16 4

/-- Whether a queue's control block or ring lies beside an ABSENT die: CW0 and CW1 leave it alone until that is attached (R383, log
108). -/
def State.queueOut (s : State) (q : Queue) : Bool :=
  s.hbmOut q.qcb || s.hbmOut (s.ringOf q) || s.hbmOut (s.ringOf q + 64 * 2 ^ s.lgsize q - 1)

/-- The guest fields of R289 are usable. -/
def State.guestOk (s : State) (q : Queue) : Bool :=
  decide (4 ≤ s.lgsize q) && decide (s.lgsize q ≤ 16) && decide (s.ringOf q % 64 = 0)

/-- Commands written and not taken; more than the ring holds count as a full ring (R291). -/
def State.waitingCmds (s : State) (q : Queue) : Nat :=
  min ((s.wrOf q + 2 ^ 32 - s.rdOf q) % 2 ^ 32) (2 ^ s.lgsize q)

/-- Write a queue's state into the shadow and its QCB. -/
def State.setQState (s : State) (q : Queue) (st : Nat) : State :=
  (s.onQueue q.q fun q => { q with qstate := st }).writeNat (q.qcb + 9) 1 st

/-! ### Completing a command (R293) -/

def Cmd.type (c : Cmd) : Nat := fieldAt c.bytes 0 1
def Cmd.after (c : Cmd) : Bool := decide (fieldAt c.bytes 1 1 % 2 = 1)
def Cmd.quad (c : Cmd) : Nat := fieldAt c.bytes 2 2
def Cmd.payload (c : Cmd) : Nat := fieldAt c.bytes 8 8
def Cmd.done (c : Cmd) : Nat := fieldAt c.bytes 16 8
def Cmd.value (c : Cmd) : Nat := fieldAt c.bytes 24 8
def Cmd.pool (c : Cmd) : Nat := fieldAt c.bytes 32 8

/-- A command completes: its completion area, or a record when it fails and has none; it leaves the queue. `launch` is the launch it
concerns, 0 for none. -/
def State.completeCmd (s : State) (qn idx launch status reason info : Nat) : State :=
  match s.queue? qn with
  | none => s
  | some q =>
    match q.cmds.find? fun c => c.idx = idx with
    | none => s
    | some c =>
      let s1 :=
        if c.done = 0 then (if status = 0 then s else s.commandFail q.owner qn launch status)
        else if c.done % 16 ≠ 0 then s.commandFail q.owner qn launch 5
        else if ¬ s.owned q.owner rightW c.done 16 then s.commandFail q.owner qn launch 6
        else s.bumpStamp c.done (status + reason * 256) info
      s1.onQueue qn fun q => { q with cmds := q.cmds.filter fun c => c.idx ≠ idx }

end Sys2Proof.Machine
end

