-- ==== Sys2Proof/Machine/Copy.lean ====
section
/-! DEFINITION. Tensor layout records and the copy engine (R236-R260). -/

namespace Sys2Proof.Machine

/-! ### Layout records (R243, R244) -/

/-- Bits of an element of a format code (R138); INT4 4, NI8 8. -/
def formatBits (f : Nat) : Nat :=
  match f with
  | 5 => 16
  | 6 => 16
  | 7 => 32
  | 8 => 16
  | 9 => 16
  | 10 => 32
  | 11 => 32
  | 12 => 64
  | 13 => 4
  | 14 => 4
  | _ => 8

/-- A record from its 128 bytes. -/
def layoutOf (bs : List Byte) : LRec :=
  { base := BitVec.ofNat 64 (fieldAt bs 0 8)
    stamp := BitVec.ofNat 64 (fieldAt bs 8 8)
    format := fieldAt bs 16 1
    planes := fieldAt bs 17 1
    dims := fieldAt bs 18 1
    flags := fieldAt bs 19 1
    tensor := fieldAt bs 20 1
    colour := fieldAt bs 21 1
    tbar := fieldAt bs 22 2
    extents := (List.range 8).map fun d => fieldAt bs (24 + 4 * d) 4
    strides := (List.range 7).map fun d => signedOf 64 (fieldAt bs (56 + 8 * d) 8)
    boxes := (List.range 8).map fun d => fieldAt bs (112 + 2 * d) 2 }

def LRec.fmt (r : LRec) : Nat := r.format % 16
def LRec.flag (r : LRec) (k : Nat) : Bool := decide (r.flags / 2 ^ k % 2 = 1)
def LRec.transpose (r : LRec) : Bool := r.flag 0
def LRec.isNi8 (r : LRec) : Bool := decide (r.fmt = 2)
def LRec.isInt4 (r : LRec) : Bool := decide (r.fmt = 13) || decide (r.fmt = 14)

/-- The boxes of the record's dimensions, and their product. -/
def LRec.box (r : LRec) : List Nat := r.boxes.take r.dims
def LRec.boxSize (r : LRec) : Nat := r.box.foldl (· * ·) 1

/-- The byte size of the box (R252). -/
def LRec.boxBytes (r : LRec) : Nat := if r.isNi8 then r.boxSize / 8 * r.planes else r.boxSize * formatBits r.fmt / 8

/-- Part of an element in memory: `n` bits from bit `lo` of the bytes at `va`, which are bits from `off` on of the
element. -/
structure Piece where
  va : Nat
  lo : Nat
  n : Nat
  off : Nat
deriving DecidableEq, Repr

def Piece.size (p : Piece) : Nat := if p.n < 8 then 1 else p.n / 8

/-- Where the element at some coordinates lies (R244), or, outside the tensor, would lie. -/
def LRec.pieces (r : LRec) (x : List Int) : List Piece :=
  let rest := ((List.range (r.dims - 1)).map fun d => x.getD (d + 1) 0 * r.strides.getD d 0).sum
  let x0 : Int := x.headD 0
  let va := fun o : Int => (((r.base.toNat : Int) + o + rest) % 2 ^ 64).toNat
  if r.isNi8 then
    (List.range r.planes).map fun (k : Nat) =>
      ⟨va ((k : Int) * r.strides.getD (r.dims - 1) 0 + (4 * (x0 / 32) + x0 % 32 / 8)), (x0 % 8).toNat, 1, 7 - k⟩
  else if r.isInt4 then [⟨va (x0 / 2), 4 * (x0 % 2).toNat, 4, 0⟩]
  else [⟨va (x0 * (formatBits r.fmt / 8 : Nat)), 0, formatBits r.fmt, 0⟩]

def LRec.inBounds (r : LRec) (x : List Int) : Bool :=
  (List.range r.dims).all fun d => decide (0 ≤ x.getD d 0) && decide (x.getD d 0 < r.extents.getD d 0)

/-- Whether an address lies in the cluster window's bounds, and its offset. -/
def windowOff (va : Nat) : Option Nat :=
  if va / 2 ^ 56 = 0xFE ∧ bitsOf va 21 35 = 0 then some (va % 2 ^ 21) else none

/-! ### The elements of a copy (R245, R256) -/

/-- Box index of element number `i`, innermost first. -/
def coordsOf : List Nat → Nat → List Nat
  | [], _ => []
  | b :: bs, i => i % b :: coordsOf bs (i / b)

def swap01 {α : Type} : List α → List α
  | a :: b :: r => b :: a :: r
  | r => r

def CopyOp.isFill (c : CopyOp) : Bool := decide (c.form = .fill)

def CopyOp.packs (c : CopyOp) : Bool := decide (c.form = .g) || decide (c.form = .s)

/-- The record whose boxes shape the copy. -/
def CopyOp.shape (c : CopyOp) : LRec := if c.isFill then c.dst else c.src

def CopyOp.row (c : CopyOp) (j : Nat) : Bool := (c.mask.getD (j / 32) 0#32).getLsbD (j % 32)

/-- Set bits of the row mask below `j`. -/
def CopyOp.rowsBelow (c : CopyOp) (j : Nat) : Nat := ((List.range j).filter c.row).length

/-- The packed count of `COPY.G` and `COPY.S`. -/
def CopyOp.packed (c : CopyOp) : Nat := c.rowsBelow (c.src.boxes.getD 1 0)

/-- Source and destination box indices of element `i`; none for a row that is not in the mask. -/
def CopyOp.indices (c : CopyOp) (i : Nat) : Option (List Nat × List Nat) :=
  let e := coordsOf c.shape.box i
  let j := e.getD 1 0
  let turn := fun d : List Nat => if c.dst.transpose ∧ ¬ c.isFill then swap01 d else d
  if c.packs then
    if ¬ c.row j then none
    else if c.form = .g then some (e, turn (e.set 1 (c.rowsBelow j)))
    else some (e.set 1 (c.rowsBelow j), turn e)
  else some (e, turn e)

/-- What a destination element receives. -/
inductive ElemSrc where
  | none | zero | pattern | value (ps : List Piece)
deriving DecidableEq, Repr

def addOrg (o : List Int) (e : List Nat) : List Int := (o.zip e).map fun p => p.1 + p.2

/-- Element `i`: its source, and the pieces of its destination. -/
def CopyOp.elem (c : CopyOp) (i : Nat) : ElemSrc × List Piece :=
  match c.indices i with
  | none => (.none, [])
  | some (es, ed) =>
    let x := addOrg c.sorg es
    let y := addOrg c.dorg ed
    if ¬ c.dst.inBounds y then (.none, [])
    else if c.isFill then (.pattern, c.dst.pieces y)
    else if c.src.inBounds x then (.value (c.src.pieces x), c.dst.pieces y)
    else if c.src.flag 2 then (.zero, c.dst.pieces y)
    else (.none, [])

def CopyOp.elems (c : CopyOp) : List (ElemSrc × List Piece) := (List.range c.shape.boxSize).map c.elem

/-- Pieces a copy reads, and pieces it writes. -/
def CopyOp.reads (c : CopyOp) : List Piece := c.elems.flatMap fun e => match e.1 with
  | .value ps => ps
  | _ => []
def CopyOp.writes (c : CopyOp) : List Piece := c.elems.flatMap fun e => e.2

/-- Pieces of the destination box, whether or not they are in the end written (R240). -/
def CopyOp.boxPieces (c : CopyOp) : List Piece :=
  (List.range c.dst.boxSize).flatMap fun i => c.dst.pieces (addOrg c.dorg (coordsOf c.dst.box i))

/-- The bounding interval of pieces in the cluster window, at the offsets `at'` gives (R240). -/
def boundingOf (at' : Nat → Nat) (ps : List Piece) : Option (Nat × Nat) :=
  ps.foldl (fun (b : Option (Nat × Nat)) p =>
    match (windowOff p.va).map at' with
    | none => b
    | some o => match b with
      | none => some (o, o + p.size - 1)
      | some (lo, hi) => some (min lo o, max hi (o + p.size - 1))) none

/-! ### Conversion (R246) -/

def floatFmt (f : Nat) : Option Fmt :=
  match f with
  | 3 => some e4m3
  | 4 => some e5m2
  | 5 => some bf16
  | 6 => some fp16
  | 7 => some fp32
  | _ => none

def pairOk (a b : Nat) : Bool :=
  decide (a ≠ 15) && decide (b ≠ 15) &&
    (decide (a = b) || ((floatFmt a).isSome && (floatFmt b).isSome) || (decide (a = 1) && decide (b = 2)) ||
      (decide (a = 2) && decide (b = 1)))

/-- The destination's bits for a source element's bits; a top-planes reading of NI8 leaves the bits below at 0. -/
def convertElem (src dst : LRec) (v : Nat) : Nat × Option NumEvent :=
  if src.fmt = dst.fmt then (v, none)
  else
    match floatFmt src.fmt, floatFmt dst.fmt with
    | some f, some g =>
      let r := g.roundTo (Rnd.ofBits (dst.flags / 16 % 4)) false (dst.flag 3) (f.value v)
      (r.bits, r.event)
    | _, _ => if src.isNi8 ∧ src.flag 1 ∧ src.planes < 8 then (v + 2 ^ (7 - src.planes), none) else (v, none)

/-- The fill pattern's bits. -/
def CopyOp.fillBits (c : CopyOp) : Nat :=
  ((c.fill.getD 0 0#32).toNat + (c.fill.getD 1 0#32).toNat * 2 ^ 32) % 2 ^ formatBits c.dst.fmt

/-! ### The checks at issue (R247) -/

def badDims (r : LRec) : Bool := decide (r.dims = 0) || decide (8 < r.dims) || (r.isNi8 && decide (r.dims = 8))

/-- Check 0x02. -/
def CopyOp.dimsBad (c : CopyOp) : Bool :=
  badDims c.dst || (!c.isFill && (badDims c.src || decide (c.src.dims ≠ c.dst.dims)))

/-- Check 0x03. -/
def CopyOp.boxBad (c : CopyOp) : Bool :=
  c.dst.box.contains 0 || decide (2 ^ 32 < c.dst.boxSize) ||
    (!c.isFill && decide ((if c.dst.transpose then swap01 c.src.box else c.src.box) ≠ c.dst.box))

def reservedBad (r : LRec) : Bool :=
  decide (16 ≤ r.format) || decide (64 ≤ r.flags) || decide (64 ≤ r.tensor) || decide (8 ≤ r.colour) ||
    (decide (r.planes ≠ 0) && !r.isNi8)

/-- The alignment part of check 0x05; more than 8 planes, of which no check speaks, fail here too (log 99). -/
def packedBad (r : LRec) (org : List Int) : Bool :=
  (r.isNi8 && (decide (r.planes = 0) || decide (8 < r.planes) || decide (org.headD 0 % 32 ≠ 0) ||
    decide (r.boxes.headD 0 % 32 ≠ 0) || decide (r.extents.headD 0 % 32 ≠ 0) ||
    decide (r.strides.getD (r.dims - 1) 0 % 4 ≠ 0))) ||
  (r.isInt4 && (decide (org.headD 0 % 2 ≠ 0) || decide (r.boxes.headD 0 % 2 ≠ 0)))

/-- Check 0x0A of one record. -/
def strideBad (r : LRec) : Bool :=
  let e : Nat := if r.isNi8 then 4 else if r.isInt4 then 1 else formatBits r.fmt / 8
  decide (r.base.toNat % e ≠ 0) || (r.strides.take (r.dims - 1)).any fun x => decide (x % e ≠ 0)

/-- Whether a bank of a quad, by the number a gang's program has for it, is bound to a tag and allotted to the gang (R236, R237). -/
def State.bankOk (s : State) (quad : Nat) (tag : Tag) (gang : Option Nat) (bank : Nat) : Bool :=
  match gang.bind s.gang? with
  | some g => s.checkTag tag 2 (quad * 16 + g.bankAt bank) && decide (g.quad = quad) && decide (g.home0 ≤ bank) &&
      decide (bank < g.home0 + s.visibleBanks g)
  | none => false

def piecesBankOk (s : State) (c : CopyOp) (ps : List Piece) : Bool :=
  ps.all fun p => match windowOff p.va with
    | some o => s.bankOk c.quad c.tenant c.gang (o / 2 ^ 17)
    | none => true

/-- Whether the record names a transaction barrier, and its bank and offset. -/
def CopyOp.tbarAt (c : CopyOp) : Option (Nat × Nat) :=
  if c.dst.tbar = 0xFFFF then none else some (c.dst.tbar / 4096, c.dst.tbar % 4096 * 32)

/-- Check 0x09. A multicast's targets are checked where they land (R257). -/
def CopyOp.banksBad (s : State) (c : CopyOp) : Bool :=
  !piecesBankOk s c c.reads || (!c.isMc && !piecesBankOk s c c.writes) ||
    (!c.isMc && match c.tbarAt with
      | some (b, _) => !s.bankOk c.quad c.tenant c.gang b
      | none => false)

/-- The first failing check's reason, the lowest of them where several fail (log 99); 0 is none. -/
def State.copyReason (s : State) (c : CopyOp) : Nat :=
  let srcBad := fun f : LRec → Bool => !c.isFill && f c.src
  let mc := c.mc.toNat
  if decide (c.dst.fmt = 15) || (!c.isFill && !pairOk c.src.fmt c.dst.fmt) then 1
  else if c.dimsBad then 2
  else if c.boxBad then 3
  else if reservedBad c.dst || srcBad reservedBad || srcBad LRec.transpose || (c.isMc && decide (2 ^ 23 ≤ mc)) then 4
  else if packedBad c.dst c.dorg || (!c.isFill && packedBad c.src c.sorg) ||
      (!c.isFill && c.src.isNi8 && c.dst.isNi8 && decide (c.src.planes < c.dst.planes)) then 5
  else if c.dst.transpose && (decide (c.dst.dims = 1) || c.dst.isNi8 || c.dst.isInt4) then 6
  else if c.packs && (decide (c.src.dims ≠ 2) || decide (256 < c.src.boxes.getD 1 0)) then 7
  else if c.isMc && (decide (c.dst.base.toNat / 2 ^ 56 ≠ 0xFE) || decide (mc % 2 ^ 16 = 0) || decide (95 < bitsOf mc 16 7 + 15)) then 8
  else if c.banksBad s then 9
  else if strideBad c.dst || srcBad strideBad then 10
  else 0

/-! ### Element accesses -/

/-- Why an element access is not performed; one that finds a translation entry under removal waits (R210), and one that the calendars of
slices and links do not serve now (R309). -/
inductive Halt where
  | wait
  | miss (k : AccKind) (va : Nat)
  | refused (reason : Nat) (k : AccKind) (va : Nat)
deriving DecidableEq, Repr

/-- Translation of an engine's access under a tenant and a gang (R203, R244, R247, R259). -/
def State.engineAt (s : State) (quad : Nat) (tag : Tag) (gang : Option Nat) (k : AccKind) (va size : Nat) :
    Except Halt Nat :=
  if va / 2 ^ 56 = 0xFE then
    match windowOff va with
    | none => .error (.refused 0x0B k va)
    | some o =>
      if s.bankOk quad tag gang (o / 2 ^ 17) then .ok (sramBase (quad * 16) + s.offAt gang o)
      else .error (.refused 0x09 k va)
  else if va / 2 ^ 56 = 0 then
    match s.lookup quad tag va with
    | none => .error (.miss k va)
    | some e =>
      if e.leaving then .error .wait
      else if ¬ k.allowed e then .error (.refused 0x0B k va)
      else
        let pa := e.pa + (va - e.va)
        if pa / 2 ^ 50 = 2 then
          match s.windows.find? fun w => w.1 = pa % 2 ^ 50 / 2 ^ 40 with
          | some (_, w) =>
            if w.tag = tag ∧ pa % 2 ^ 40 + size ≤ w.size then .ok pa else .error (.refused 0x0B k va)
          | none => .error (.refused 0x0B k va)
        else .ok pa
  else .error (.refused 0x0B k va)

/-- The same of an access that the calendars of slices and links serve now; else it waits (R309). -/
def State.engineReach (s : State) (quad : Nat) (tag : Tag) (gang : Option Nat) (k : AccKind) (va size : Nat) :
    Except Halt Nat :=
  match s.engineAt quad tag gang k va size with
  | .ok a => if s.served quad tag a then .ok a else .error .wait
  | .error h => .error h

/-- Read bytes at a physical address for an engine of a quad (R206, R360): the number and its poison. -/
def State.engineRead (s : State) (quad : Nat) (tag : Tag) (a n : Nat) : State × Nat × Poison :=
  match (if regionOf a = 4 then .here a else s.homeOf quad tag .r a n) with
  | .here b => (s, s.readNat b n, s.poisonOf b n)
  | .keyless => (s.advanceFree, leNat (s.freeBytes 0 n), some poisonNoKey)
  | .other => (s.advanceFree, leNat (s.freeBytes 0 n), none)
  | .refused => (s.advanceFree, leNat (s.freeBytes 0 n), some poisonRemote)

/-- Write the masked bits of some bytes at a physical address for an engine of a quad. -/
def State.engineWrite (s : State) (quad launch : Nat) (tag : Tag) (engine a va : Nat) (data mask : List Byte)
    (p : Poison) : State :=
  let put := fun (s : State) (b : Nat) =>
    s.perform b (((s.readMem b data.length).zip (data.zip mask)).map fun (o, d, m) => (o &&& ~~~ m) ||| (d &&& m)) p 0
  match (if regionOf a = 4 then .here a else s.homeOf quad tag .w a data.length) with
  | .here b => put s b
  | .keyless => s.engineFail engine quad launch tag 1 0
  | .other => s
  | .refused => s.lostWrite tag quad launch .w a (BitVec.ofNat 64 va)

/-- Whether this copy's effects outside its quad are the primary twin's alone (R379). -/
def State.secondary (s : State) (wg : Option Nat) : Bool :=
  match wg.bind s.wg? with
  | some w => w.twin.isSome && !w.primary
  | none => false

/-- Read the pieces of an element. -/
def State.readPieces (s : State) (c : CopyOp) : List Piece → Except Halt (State × Nat × Poison)
  | [] => .ok (s, 0, none)
  | p :: ps =>
    match s.engineReach c.quad c.tenant c.gang .r p.va p.size with
    | .error h => .error h
    | .ok a =>
      let (s1, v, q) := s.engineRead c.quad c.tenant a p.size
      match s1.readPieces c ps with
      | .error h => .error h
      | .ok (s2, v', q') => .ok (s2, v / 2 ^ p.lo % 2 ^ p.n * 2 ^ p.off + v', q.join q')


/-- An engine write leaves for a bank (R239). -/
def State.sendInbound (s : State) (c : CopyOp) (bit : Option Nat) (bank off : Nat) (data mask : List Byte) (p : Poison) :
    State :=
  let (i, s1) := s.fresh
  { s1 with inbound := s1.inbound ++ [⟨i, c.id, bit, bank, off, data, mask, p, c.tenant⟩] }

/-- The bytes of a piece of an element's bits, and their mask. -/
def Piece.bytes (p : Piece) (v : Nat) : List Byte × List Byte :=
  let x := v / 2 ^ p.off % 2 ^ p.n
  if p.n < 8 then ([BitVec.ofNat 8 (x * 2 ^ p.lo)], [BitVec.ofNat 8 ((2 ^ p.n - 1) * 2 ^ p.lo)])
  else (leBytes x p.size, List.replicate p.size 0xFF#8)

/-- Add to a bank's dropped-write counter (R257), which stays at its highest value (log 107). -/
def State.dropAt (s : State) (bank : Nat) : State :=
  let a := 0x0B000000 + bank
  s.cfgSet a (if s.cfgGet a = 0xFFFFFFFF#32 then 0xFFFFFFFF#32 else s.cfgGet a + 1)

/-- Write one piece of an element. -/
def State.writePiece (s : State) (c : CopyOp) (v : Nat) (q : Poison) (p : Piece) : Except Halt State :=
  let (data, mask) := p.bytes v
  if c.isMc then
    match windowOff p.va with
    | none => .error (.refused 0x0B .w p.va)
    | some o =>
      .ok (c.targets.foldl (fun (s : State) t =>
        if s.secondary c.wg ∧ t.2 ≠ c.quad then s
        else s.sendInbound c (some t.1) (t.2 * 16 + o / 2 ^ 17) (o % 2 ^ 17) data mask q) s)
  else
    match s.engineReach c.quad c.tenant c.gang .w p.va p.size with
    | .error h => .error h
    | .ok a =>
      if regionOf a = 4 then .ok (s.sendInbound c none ((a - 2 ^ 52) / 2 ^ 17) ((a - 2 ^ 52) % 2 ^ 17) data mask q)
      else if regionOf a = 2 ∧ q.isSome then .error (.refused 0x0B .w p.va)
      else if s.secondary c.wg then .ok s
      else .ok (s.engineWrite c.quad (c.launch.getD 0) c.tenant 0 a p.va data mask q)

def State.writePieces (s : State) (c : CopyOp) (v : Nat) (q : Poison) : List Piece → Except Halt State
  | [] => .ok s
  | p :: ps =>
    match s.writePiece c v q p with
    | .error h => .error h
    | .ok s1 => s1.writePieces c v q ps

/-- The poison of an error that has met a packet of a copy's payload: it goes with the next element moved (R370). -/
def State.hitOf (s : State) (c : CopyOp) : Poison := (s.copy? c.id).bind fun d => d.hit

/-- Whether an element's effect lies outside the copy's quad. -/
def CopyOp.outsideAt (c : CopyOp) (ps : List Piece) : Bool :=
  if c.isMc then !(c.targets.any fun t => t.2 = c.quad) else ps.all fun p => (windowOff p.va).isNone

/-- Move one element; of twins the primary alone performs it outside its quad (R379), and an element counts its numeric event where it is
performed (R150, log 97), but none that is poisoned (log 91). -/
def State.moveElem (s : State) (c : CopyOp) (i : Nat) : Except Halt State :=
  let (e, ps) := c.elem i
  match e with
  | .none => .ok s
  | .zero => s.writePieces c 0 c.patBad ps
  | .pattern =>
    match s.writePieces c c.fillBits (c.patBad.join (s.hitOf c)) ps with
    | .error h => .error h
    | .ok s1 => .ok (s1.onCopy c.id fun d => { d with hit := none })
  | .value rs =>
    match s.readPieces c rs with
    | .error h => .error h
    | .ok (s1, v, q0) =>
      let q := (q0.join (s.hitOf c)).join c.patBad
      let (v', ev) := convertElem c.src c.dst v
      match s1.writePieces c v' q ps with
      | .error h => .error h
      | .ok s2 =>
        .ok ((s2.countNum (c.launch.getD 0) (c.dst.tensor % 64)
          (if q.isSome ∨ (s.secondary c.wg ∧ c.outsideAt ps) then none else ev)).onCopy c.id fun d => { d with hit := none })

/-- The address that the next element of a copy is read from, where it translates. -/
def State.copyReads (s : State) (c : CopyOp) : Option Nat :=
  match (c.elem c.next).1 with
  | .value (p :: _) => (s.engineAt c.quad c.tenant c.gang .r p.va p.size).toOption
  | _ => none

/-- Move elements from `i` on, at most `n`: the state, the next element, what stopped it. -/
def State.moveElems (s : State) (c : CopyOp) (i : Nat) : Nat → State × Nat × Option Halt
  | 0 => (s, i, none)
  | n + 1 =>
    match s.moveElem c i with
    | .error h => (s, i, some h)
    | .ok s1 => s1.moveElems c (i + 1) n

/-! ### Waiting for the range scoreboard (R240-R242) -/

/-- Entries of a quad taken before an operation's issue (R241). -/
def State.earlier (s : State) (op quad : Nat) : List SbEntry :=
  s.score.filter fun e => decide (e.quad = quad) && decide (e.since < op)

/-- Whether pieces in a quad's cluster window, at the offsets `at'` gives, overlap an entry. -/
def overlapsEntry (at' : Nat → Nat) (ps : List Piece) (e : SbEntry) : Bool :=
  ps.any fun p => match (windowOff p.va).map at' with
    | some o => decide (e.lo < o + p.size) && decide (o ≤ e.hi)
    | none => false

/-- Whether a copy's accesses wait for an earlier entry (R241). A multicast writes at the same offsets in every target (R257). -/
def State.copyWaits (s : State) (c : CopyOp) : Bool :=
  ((s.earlier c.id c.quad).any fun e => e.copy && overlapsEntry (s.offAt c.gang) c.reads e) ||
    (if c.isMc then c.targets.any fun t => (s.earlier c.id t.2).any (overlapsEntry id c.writes)
     else (s.earlier c.id c.quad).any (overlapsEntry (s.offAt c.gang) c.writes))


/-- A multicast takes its entries, when every target quad has a free one; the flag says that it holds them. -/
def State.enterTargets (s : State) (c : CopyOp) : State × Bool :=
  if ¬ c.isMc ∨ s.score.any (fun e => e.op = c.id) then (s, true)
  else if s.mcFull c then (s, false)
  else
    match boundingOf id c.boxPieces with
    | none => (s, true)
    | some (lo, hi) =>
      ({ s with score := s.score ++ c.targets.map (fun t => ⟨t.2, lo, hi, true, c.id, s.nextId⟩), nextId := s.nextId + 1 }, true)

/-- Whether an access writes its location. -/
def Access.writes (a : Access) : Bool :=
  match a with
  | .load _ => false
  | _ => true

/-- Whether the issuer's earlier writes, those of atomics among them, are not all performed (R231). -/
def State.storesOpen (s : State) (wg tid : Option Nat) (before : Nat) : Bool :=
  s.flights.any fun f => decide (some f.wg = wg) && !f.done && decide (f.id < before) && f.acc.writes &&
    (decide (f.tid = tid) || decide (f.tid = none) || decide (tid = none))

/-- Whether a copy's elements could move, but for the engine's calendar. -/
def State.copyReady (s : State) (c : CopyOp) : Bool :=
  decide (c.stage = .moving) && !s.storesOpen c.wg c.tid c.id && !s.copyWaits c && !s.mcFull c

/-- The effective priority of a copy: its launch's, or its queue's cap (R295). -/
def State.copyPrio (s : State) (c : CopyOp) : Nat :=
  match c.launch.bind s.launch? with
  | some l => l.prio
  | none => match c.queue.bind fun q => s.queue? q.1 with
    | some q => q.pcap
    | none => 31

/-- Whether the engine of a quad is in a slot that a copy's partition may use (R309). -/
def State.copySlot (s : State) (c : CopyOp) : Bool := s.slotOpen (c.quad / 96) 1 (Tag.part c.tenant)

/-- Whether a copy's elements may move: it is ready, and no copy that may use the slot comes before it by priority, then by age
(R309). -/
def State.mayMove (s : State) (c : CopyOp) : Bool :=
  s.copyReady c && s.copySlot c &&
    !(s.copies.any fun d => decide (d.quad = c.quad) && s.copyReady d && s.copySlot d &&
      (decide (s.copyPrio d < s.copyPrio c) || (decide (s.copyPrio d = s.copyPrio c) && decide (d.id < c.id))))

/-! ### Completion (R248, R249, R252) -/

/-- Bytes a copy has written of the elements before `next` (R353). -/
def CopyOp.written (c : CopyOp) (next : Nat) : Nat :=
  let n := ((List.range next).filter fun i => (c.elem i).1 ≠ .none).length
  n * (if c.dst.isNi8 then c.dst.planes else formatBits c.dst.fmt) / 8 * if c.isMc then c.targets.length else 1

/-- The payload has left the engine; or an element was refused. -/
def State.toLanding (s : State) (c : CopyOp) (next status reason info : Nat) : State :=
  (s.onCopy c.id fun c =>
    { c with stage := .landing, slot := none, next := next, status := status, reason := reason, info := BitVec.ofNat 32 info }).count
      c.tenant 0x0B (c.written next)

/-- Move what can be moved: to landing, or to the element that misses. -/
def State.runCopy (s : State) (c : CopyOp) : State × Option (AccKind × Nat) :=
  let (s1, next, h) := s.moveElems c c.next (c.shape.boxSize - c.next)
  match h with
  | none => (s1.toLanding c next 0 0 0, none)
  | some .wait => (s1.onCopy c.id fun c => { c with next := next }, none)
  | some (.refused r k va) =>
    let s2 := match (if r = 0x09 ∧ k = .w then windowOff va else none) with
      | some o => s1.dropAt (c.quad * 16 + s.offAt c.gang o / 2 ^ 17)
      | none => s1
    (s2.toLanding c next 1 r va, none)
  | some (.miss k va) => (s1.onCopy c.id fun c => { c with next := next }, some (k, va))

/-- Whether the copy subtracts its bytes: its size and its record are defined (R252). -/
def CopyOp.subtracts (c : CopyOp) : Bool :=
  decide (c.dst.fmt ≠ 15) && !c.dimsBad && !c.boxBad && (!c.dst.isNi8 || (decide (1 ≤ c.dst.planes) && decide (c.dst.planes ≤ 8)))

/-- One quad's transaction barrier: the packed count, then the bytes. -/
def State.tbarLand (s : State) (c : CopyOp) (quad bank off : Nat) : State :=
  let a := sramBase (quad * 16 + bank) + off
  let s1 := if c.packs then s.perform (a + 8) (leBytes c.packed 4) c.patBad 0 else s
  s1.tbarAdd a false (-(c.dst.boxBytes : Int)) (s1.poisonOf a 8) 0

/-- Steps 2 and 3 of R249. -/
def State.landTbars (s : State) (c : CopyOp) : State :=
  match (if c.subtracts then c.tbarAt else none) with
  | none => s
  | some (bank, off) =>
    if c.isMc then
      c.targets.foldl (fun (s : State) t =>
        if s.secondary c.wg ∧ t.2 ≠ c.quad then s
        else if s.checkTag c.tenant 2 (t.2 * 16 + bank) then s.tbarLand c t.2 bank off
        else (s.dropAt (t.2 * 16 + bank)).onCopy c.id fun c =>
          { c with dropped := c.dropped ||| BitVec.ofNat 16 (2 ^ t.1) }) s
    else if s.bankOk c.quad c.tenant c.gang bank then s.tbarLand c c.quad (s.offAt c.gang (bank * 2 ^ 17) / 2 ^ 17) off
    else s

/-- The status a copy completes with: writes dropped at a target make an OK MC_DROPPED (R257). -/
def CopyOp.outcome (c : CopyOp) : Nat × Nat × Nat :=
  if c.status = 0 ∧ c.dropped ≠ 0#16 then (2, 0, c.dropped.toNat)
  else if c.status = 0 then (0, 0, if c.packs then c.packed else 0)
  else (c.status, c.reason, c.info.toNat)

/-- Complete a stamp area at a physical address (R231, R248). -/
def State.engineStamp (s : State) (quad launch : Nat) (tag : Tag) (engine : Nat) (wg : Option Nat) (a st info : Nat) :
    State :=
  if regionOf a = 4 then s.bumpStamp a st info
  else if s.secondary wg then s
  else
    match s.homeOf quad tag .w a 16 with
    | .here b => s.bumpStamp b st info
    | .keyless => s.engineFail engine quad launch tag 1 0
    | .other => s
    | .refused => s.lostWrite tag quad launch .w a (BitVec.ofNat 64 a)

/-- Whether a saved copy of an issuer, older than another operation, waits to be handed back to an engine (R184, R259). -/
def State.copySaved (s : State) (uid : Nat) (tid : Option Nat) (before : Nat) : Bool :=
  s.gangs.any fun g => g.savedCopies.any fun c => decide (c.wg = some uid) && decide (c.tid = tid) && decide (c.id < before)

/-- The same for a saved matrix operation (R275). -/
def State.opSaved (s : State) (uid : Nat) (tid : Option Nat) (before : Nat) : Bool :=
  s.gangs.any fun g => g.savedOps.any fun o => decide (o.wg = some uid) && decide (o.tid = tid) && decide (o.seq < before)

/-- Lower the copy counter once for each oldest copy of an issuer that has completed (R89, R249). -/
def State.drainCopies (s : State) (uid : Nat) (tid : Option Nat) : Nat → State
  | 0 => s
  | n + 1 =>
    match s.copies.find? fun c => decide (c.wg = some uid) && decide (c.tid = tid) with
    | some c =>
      if c.stage = .finished ∧ ¬ s.copySaved uid tid c.id then
        (({ s with copies := s.copies.filter fun d => d.id ≠ c.id } : State).complete uid tid (.copy c.col)).drainCopies uid tid n
      else s
    | none => s

/-- The matrix operation of an issuer that comes first in its order (R89). -/
def State.firstMatop (s : State) (uid : Nat) (tid : Option Nat) : Option MatOp :=
  bestOf (fun a b => decide (a.seq < b.seq)) (s.matops.filter fun o => decide (o.wg = some uid) && decide (o.tid = tid))

/-- Lower the matrix counter once for each operation of an issuer that has completed, in issue order (R276); a copy that
has yet to enqueue its pass keeps later ones back. -/
def State.drainMatrix (s : State) (uid : Nat) (tid : Option Nat) : Nat → State
  | 0 => s
  | n + 1 =>
    match s.firstMatop uid tid with
    | none => s
    | some o =>
      let held := s.copies.any fun c => decide (c.wg = some uid) && decide (c.tid = tid) && c.fs.isSome &&
        decide (c.id < o.seq) && decide (c.stage ≠ .finished)
      if o.done ∧ ¬ held ∧ ¬ s.copySaved uid tid o.seq ∧ ¬ s.opSaved uid tid o.seq then
        (({ s with matops := s.matops.filter fun p => p.id ≠ o.id } : State).complete uid tid .matrix).drainMatrix uid tid n
      else s

/-- Steps 5 and 6 of R249: status, stamp or record; entries and slot are free; the counter, or the command. -/
def State.sealCopy (s : State) (id : Nat) : State :=
  match s.copy? id with
  | none => s
  | some c =>
    let (st, reason, info) := c.outcome
    let s1 := match c.stampPa with
      | some a => s.engineStamp c.quad (c.launch.getD 0) c.tenant 0 c.wg a (st + reason * 256) info
      | none => if st = 1 ∨ st = 3 then s.engineFail 0 c.quad (c.launch.getD 0) c.tenant st reason else s
    let s2 := ({ s1 with score := s1.score.filter fun e => e.op ≠ id } : State).count c.tenant 0x0A 1
    let s3 := s2.onCopy id fun c => { c with stage := .finished, slot := none }
    match c.wg, c.queue with
    | some u, _ =>
      let s4 := if c.fs.isSome ∧ (st = 1 ∨ st = 3) then s3.complete u c.tid .matrix else s3
      (s4.drainMatrix u c.tid s4.matops.length).drainCopies u c.tid s4.copies.length
    | none, some (q, k) =>
      ({ s3 with copies := s3.copies.filter fun d => d.id ≠ id } : State).completeCmd q k 0 st reason info
    | none, none => s3

/-- The payload is performed: counts and bytes, then the follow-on pass waits for its place, or the copy completes. -/
def State.landCopy (s : State) (c : CopyOp) : State :=
  let s1 := s.landTbars c
  match s1.copy? c.id with
  | none => s1
  | some d =>
    if d.fs.isSome ∧ (d.status = 0 ∨ d.status = 2) then s1.onCopy c.id fun d => { d with stage := .following }
    else s1.sealCopy c.id

/-- Whether none of a copy's writes is in the network. -/
def State.landed (s : State) (c : CopyOp) : Bool := !(s.inbound.any fun i => i.copy = c.id)

/-- Whether a copy has effects outside its quad: its destination, another target, or its stamp (R379). -/
def CopyOp.reachesOut (c : CopyOp) : Bool :=
  c.isMc || decide (c.dst.base.toNat / 2 ^ 56 ≠ 0xFE) || c.stampPa.any fun a => regionOf a ≠ 4

/-- The name under which a twin hears of the completion of a copy: the issuing thread, the vamp as 4096, and the word's offset. -/
def CopyOp.inboxKey (c : CopyOp) : Nat × Nat := (c.tid.getD 4096, c.pc)

/-- Whether a secondary twin's copy must hear of the primary's completion (R379); one whose primary has ended does not (log 78). -/
def State.awaitsTwin (s : State) (c : CopyOp) : Bool :=
  (c.wg.bind s.wg?).any fun w => w.twin.isSome && !w.primary && c.reachesOut && s.paired w

/-- Whether it has heard. -/
def State.twinDone (s : State) (c : CopyOp) : Bool :=
  !s.awaitsTwin c || (c.wg.bind s.wg?).any fun w => (w.takeInbox c.inboxKey.1 c.inboxKey.2).isSome

/-- The completion of a copy with effects outside its quad crosses to the twin: the primary's is sent, the secondary's taken (R379). -/
def State.tellTwin (s : State) (c : CopyOp) : State :=
  match c.wg.bind s.wg? with
  | none => s
  | some w =>
    if ¬ c.reachesOut then s
    else if w.primary then
      match w.twin with
      | some u => s.onWg u fun v => { v with inbox := v.inbox ++ [(c.inboxKey.1, c.inboxKey.2, 0, none)] }
      | none => s
    else match w.takeInbox c.inboxKey.1 c.inboxKey.2 with
      | some (_, w') => s.onWg w.uid fun _ => w'
      | none => s

/-- `COPY_COMPLETE` (R249): the elements move; when every write is performed, and a secondary twin has heard of the primary's completion,
the copy completes. -/
def execCopyComplete (id : Nat) (s : State) : Answer :=
  match s.copy? id with
  | none => done s
  | some c =>
    match c.stage with
    | .moving =>
      if s.mayMove c then
        let (s1, go) := s.enterTargets c
        if ¬ go then done s
        else
          match s1.runCopy c with
          | (s2, none) => done s2.advanceFree
          | (_, some _) => done s1
      else done s
    | .landing => if s.landed c ∧ s.twinDone c then done ((s.tellTwin c).landCopy c) else done s
    | _ => done s

/-- Suspension slots of a quad that are free. -/
def State.freeSlot (s : State) (quad : Nat) : Option Nat :=
  (List.range 4).find? fun k => !(s.copies.any fun c => c.quad = quad && decide (c.slot = some k))

/-- `COPY_SUSPEND` (R259): an element's translation misses; with no slot free the copy ends with reason 0x0C. -/
def execCopySuspend (id : Nat) (s : State) : Answer :=
  match s.copy? id with
  | none => done s
  | some c =>
    let (s0, go) := s.enterTargets c
    if s.mayMove c ∧ go then
      match s0.runCopy c with
      | (_, none) => done s
      | (s1, some (k, va)) =>
        match c.slot.orElse fun _ => s1.freeSlot c.quad with
        | some slot =>
          let s2 := s1.onCopy id fun c => { c with stage := .suspended, slot := some slot, missed := some (k.code, va) }
          done ((s2.count c.tenant 0x0E 1).postFault (plainRec cCopyFault c.quad (c.launch.getD 0)
            (BitVec.ofNat 32 (9 + k.code * 16 + slot * 64)) c.tenant (BitVec.ofNat 64 va))).advanceFree
        | none =>
          let next := (s1.copy? id).elim 0 fun c => c.next
          done (s1.toLanding c next 1 0x0C va).advanceFree
    else done s

/-- Whether the link calendar lets an engine's write to a bank through now: within a quad it takes no link (R309). -/
def State.inboundServed (s : State) (i : Inbound) : Bool :=
  (s.copy? i.copy).all fun c => decide (c.quad = i.bank / 16) || s.slotOpen (c.quad / 96) 3 (Tag.part i.tag)

/-- `BANK_INBOUND_WRITE` (R239): checked against the bank's tag; a refused write is dropped and counted. -/
def execBankInboundWrite (id : Nat) (s : State) : Answer :=
  match (s.inbound.find? fun i => i.id = id).filter s.inboundServed with
  | none => done s
  | some i =>
    let s1 : State := { s with inbound := s.inbound.filter fun j => j.id ≠ id }
    let a := sramBase i.bank + i.off
    if s.checkTag i.tag 2 i.bank then
      done (s1.perform a (((s1.readMem a i.data.length).zip (i.data.zip i.mask)).map fun (o, d, m) =>
        (o &&& ~~~ m) ||| (d &&& m)) i.poison 0)
    else
      let s2 := s1.dropAt i.bank
      match i.bit with
      | some b => done (s2.onCopy i.copy fun c => { c with dropped := c.dropped ||| BitVec.ofNat 16 (2 ^ b) })
      | none => done (s2.onCopy i.copy fun c =>
          if c.status = 0 then
            { c with status := 1, reason := 9, info := BitVec.ofNat 32 (s.progOff c.gang (i.bank % 16 * 2 ^ 17 + i.off)) }
          else c)

/-! ### Issue (R253-R255) -/

/-- The registers a copy reads: those of a thread, or the workgroup's common registers. -/
structure EngineRegs where
  read : Nat → Reg
  limit : Nat
  first : Nat
  sc : Nat

/-- Registers of format E from the field sc. -/
def Who.engineRegs (x : Who) (t : Option Thread) (sc : BitVec 8) : EngineRegs :=
  match t with
  | some t => ⟨fun n => t.reg x.s n, x.w.quota, sc.toNat, sc.toNat⟩
  | none => ⟨fun n => x.w.creg n, x.w.commons.length, sc.toNat - 0x80, sc.toNat⟩

/-- `REG_QUOTA` at order 7 of the first of `n` registers that does not exist (R254). -/
def EngineRegs.over (r : EngineRegs) (n : Nat) : Option FaultInfo :=
  (List.range n).findSome? fun i =>
    if r.limit ≤ r.first + i then some ⟨cQuota, BitVec.ofNat 32 (r.sc + i + 256 * r.limit), 0⟩ else none

def EngineRegs.words (r : EngineRegs) (n : Nat) : List Word := (List.range n).map fun i => (r.read (r.first + i)).val

def EngineRegs.poison (r : EngineRegs) (n : Nat) : Poison :=
  (List.range n).foldl (fun (p : Poison) i => p.join (r.read (r.first + i)).poison) none

/-- A plain read of `n` bytes at issue, and the state after. -/
def Who.readAt (x : Who) (s : State) (va : DWord) (n : Nat) : Except FaultInfo (State × List PByte) :=
  match x.s.translate x.w .r false va n with
  | .error f => .error f
  | .ok loc => .ok (s.readLoc x.w false loc n)

/-- The pair of records (R243). -/
def Who.readRecords (x : Who) (ab : BitVec 4) : Except FaultInfo (State × List PByte × List PByte) :=
  let a := x.w.addr ab.toNat
  match a.poison with
  | some q => .error (poisonFault q 0)
  | none =>
    let v := a.val.toNat
    if v % 128 ≠ 0 then .error ⟨cMisalign, a.val.setWidth 32, a.val⟩
    else if v / 2 ^ 56 ≠ 0 ∧ v / 2 ^ 56 ≠ 0xFE then .error (protectAt 0x4 .r a.val)
    else
      match x.readAt x.s a.val 128 with
      | .error f => .error f
      | .ok (s1, b1) =>
        match (if (v + 128) % 2 ^ 64 / 2 ^ 56 ≠ 0 ∧ (v + 128) % 2 ^ 64 / 2 ^ 56 ≠ 0xFE then .error (protectAt 0x4 .r (a.val + 128))
          else x.readAt s1 (a.val + 128) 128) with
        | .error f => .error f
        | .ok (s2, b2) => .ok (s2, b1, b2)

/-- The checks of a stamp area (R248): where it lies, if there is one. -/
def Who.stampAt (x : Who) (va : DWord) : Except FaultInfo (Option Nat) :=
  if va = 0#64 then .ok none
  else if va.toNat % 16 ≠ 0 then .error ⟨cMisalign, va.setWidth 32, va⟩
  else if va.toNat / 2 ^ 56 = 0xFD then .error (protectAt 0x4 .w va)
  else
    match x.s.translate x.w .w false va 16 with
    | .error f => .error f
    | .ok (.mem a) => if regionOf a = 2 then .error (protectAt 0x4 .w va) else .ok (some a)
    | .ok _ => .error (protectAt 0x4 .w va)

/-- Registers after the coordinates (R253). -/
def CopyForm.extra (f : CopyForm) (dst : LRec) : Nat :=
  match f with
  | .g => 8
  | .s => 8
  | .mc => 1
  | .fill => if dst.fmt = 12 then 2 else 1
  | _ => 0


/-- How many registers a copy of these records reads (R254). -/
def CopyForm.regs (f : CopyForm) (dual : Bool) (src dst : LRec) : Nat :=
  let d := (if f = .fill then dst else src).dims
  d + (if dual then d else 0) + f.extra dst

/-- Order 7 of a copy (R255): the state after its reads, and the copy with its failing check; one that fails has no follow-on pass and
raises no matrix counter. Poisoned coordinates are consumed (R375); a poisoned mask, multicast or pattern register poisons what the copy
writes (R374). -/
def Who.copyPlan (x : Who) (form : CopyForm) (ab : BitVec 4) (sc : BitVec 8) (fs : BitVec 4) (col : BitVec 3)
    (dual : Bool) (t : Option Thread) : Except FaultInfo (State × CopyOp) :=
  match x.readRecords ab with
  | .error f => .error f
  | .ok (s1, b1, b2) =>
    let src := layoutOf (b1.map (·.1))
    let dst := layoutOf (b2.map (·.1))
    let fill := decide (form = .fill)
    let r := x.engineRegs t sc
    let c0 : CopyOp :=
      { id := 0, wg := some x.w.uid, tid := t.map (·.tid), queue := none, gang := some x.w.gang, launch := some x.w.launch
        quad := x.w.quad, tenant := x.s.tagOf x.w, world := x.s.worldOf x.w, form := form, src := src, dst := dst
        sorg := [], dorg := [], mask := [], mc := 0, fill := [], col := col.toNat
        fs := if fs = 0xF#4 then none else some fs.toNat, stampPa := none, pc := x.pc, patBad := none, stage := .moving, slot := none
        missed := none, hit := none
        next := 0
        dropped := 0, status := 0, reason := 0, info := 0 }
    let n := if c0.dimsBad then 0 else form.regs dual src dst
    let coords := n - form.extra dst
    match (if fill then joinAll b2 else (joinAll b1).join (joinAll b2)), r.over n, r.poison coords with
    | some q, _, _ => .error (poisonFault q 2)
    | none, some f, _ => .error f
    | none, none, some q => .error (poisonFault q 2)
    | none, none, none =>
      match x.stampAt dst.stamp with
      | .error f => .error f
      | .ok stamp =>
        if fs ≠ 0xF#4 ∧ ¬ x.s.checkTag (x.s.tagOf x.w) 9 (x.w.quad * 15 + fs.toNat) then
          .error ⟨cProtect, 0x5#32, 0⟩
        else
          let d := if fill then dst.dims else src.dims
          let ws := r.words n
          let ints := fun k => ((ws.drop k).take d).map fun w => w.toInt
          let rest := ws.drop (if dual then 2 * d else d)
          let zeros := List.replicate d (0 : Int)
          let c1 : CopyOp :=
            { c0 with
              stampPa := stamp
              sorg := if fill then zeros else ints 0
              dorg := if fill then ints 0 else if dual then ints d else zeros
              mask := rest, mc := rest.headD 0#32, fill := rest, patBad := r.poison n }
          let reason := x.s.copyReason c1
          .ok (s1, if reason = 0 then c1 else { c1 with stage := .landing, status := 1, reason := reason, fs := none })

/-- The state after an issued copy's plain reads of its records (R243). -/
def Who.afterRecords (x : Who) (ab : BitVec 4) (s : State) : State :=
  let go := fun (s : State) (va : DWord) => match x.readAt s va 128 with
    | .ok (s1, _) => s1
    | .error _ => s
  go (go s (x.w.addr ab.toNat).val) ((x.w.addr ab.toNat).val + 128)

/-- The scoreboard interval of a copy at issue (R240). -/
def State.copyInterval (s : State) (c : CopyOp) : Option (Nat × Nat) :=
  if c.stage = .landing ∨ c.isMc then none else boundingOf (s.offAt c.gang) c.boxPieces

/-- The entry of a copy on its quad's scoreboard. -/
def State.copyEntry (s : State) (c : CopyOp) (i : Nat) : List SbEntry :=
  match s.copyInterval c with
  | some (lo, hi) => [⟨c.quad, lo, hi, true, i, i⟩]
  | none => []

/-- The entries that a copy under way holds: of a multicast one on each target quad, once it has taken them (R240, R257). -/
def State.heldEntries (s : State) (c : CopyOp) : List SbEntry :=
  if ¬ c.isMc then s.copyEntry c c.id
  else if c.stage = .moving then []
  else match boundingOf id c.boxPieces with
    | some (lo, hi) => c.targets.map fun t => ⟨t.2, lo, hi, true, c.id, c.id⟩
    | none => []

/-- Hand a copy to the engine. -/
def State.installCopy (s : State) (c : CopyOp) : State :=
  let (i, s1) := s.fresh
  { s1 with copies := s1.copies ++ [{ c with id := i }], score := s1.score ++ s.copyEntry c i }


/-- The stall of issued copies: counters, registers whose load has not returned, own accesses to the records or records not served now
(R309), room on the scoreboard. -/
def copyStall (x : Who) (ab : BitVec 4) (cnts : List Counters) (plans : List (Except FaultInfo (State × CopyOp))) :
    Option Nat :=
  let cs := plans.filterMap fun p => match p with
    | .ok (_, c) => some c
    | .error _ => none
  let a := x.w.addr ab.toNat
  let own := match x.s.translate x.w .r false a.val 128, x.s.translate x.w .r false (a.val + 128) 128 with
    | .ok l, .ok m => x.runOverlaps l 128 || x.runOverlaps m 128 || !x.s.locServed x.w l || !x.s.locServed x.w m
    | _, _ => false
  if cs.isEmpty then none
  else if cnts.any fun c => decide (255 ≤ c.copies) then some 4
  else if (cs.any fun c => c.fs.isSome) ∧ cnts.any fun c => decide (255 ≤ c.matrix) then some 5
  else if own then some 3
  else if x.s.scoreFree x.w.quad < (cs.filter fun c => (x.s.copyInterval c).isSome).length then some 4
  else none

/-- Whether a copy's coordinate registers wait for a load (R112). -/
def coordsPending (sc n : Nat) (t : Thread) : Bool := (List.range n).any fun i => t.pending.contains (sc + i)

/-- The longest run of registers a copy may read: 2 × 8 coordinates and 8 mask words. -/
def Who.copyRegs (x : Who) (form : CopyForm) (ab : BitVec 4) (dual : Bool) : Nat :=
  match x.readRecords ab with
  | .ok (_, b1, b2) =>
    let src := layoutOf (b1.map (·.1))
    let dst := layoutOf (b2.map (·.1))
    if (if form = .fill then badDims dst else badDims src) then 0 else form.regs dual src dst
  | .error _ => 0

/-- A copy instruction (R253): per thread, or once on the vamp; a field sc that makes it neither is illegal as a uniform instruction is
(log 101). -/
def copyForm (i : Instr) (form : CopyForm) (ab : BitVec 4) (sc : BitVec 8) (fs : BitVec 4) (col : BitVec 3) (mode : BitVec 2) :
    State → Answer :=
  let claimed := decide (sc.toNat < 0xC0) && decide (mode.toNat < 2)
  let dual := decide (mode = 1#2)
  if sc.toNat < 0x80 then
    let plan := fun (x : Who) (t : Thread) => x.copyPlan form ab sc fs col dual (some t)
    issueThread (wordOf i) ⟨[], claimed, some 0x18#8, noRights⟩ false
      (fun x ts =>
        if ts.any (coordsPending sc.toNat (x.copyRegs form ab dual)) then some 13
        else copyStall x ab (ts.map (·.cnt)) (ts.map (plan x))) fun x t =>
        match plan x t with
        | .error f => .fault f t
        | .ok (_, c) =>
          let cnt := (t.cnt.add (.copy col.toNat) 1).add .matrix (if c.fs.isSome then 1 else 0)
          .ok { t with cnt := cnt } none [fun s => (x.afterRecords ab s).installCopy c]
  else
    let plan := fun x : Who => x.copyPlan form ab sc fs col dual none
    issueUniform (wordOf i) ⟨[], claimed, none, noRights⟩
      (fun x => copyStall x ab [x.w.common] [plan x]) fun x =>
        match plan x with
        | .error f => .fault f
        | .ok (s1, c) =>
          .ok (((s1.counter x.w.uid none (.copy col.toNat) 1).counter x.w.uid none .matrix
            (if c.fs.isSome then 1 else 0)).installCopy c)

def execCopyT (a : BitVec 4) (s : BitVec 8) (f : BitVec 4) (c : BitVec 3) (m : BitVec 2) : State → Answer :=
  copyForm (.copyT a s f c m) .t a s f c m
def execCopyG (a : BitVec 4) (s : BitVec 8) (f : BitVec 4) (c : BitVec 3) (m : BitVec 2) : State → Answer :=
  copyForm (.copyG a s f c m) .g a s f c m
def execCopyS (a : BitVec 4) (s : BitVec 8) (f : BitVec 4) (c : BitVec 3) (m : BitVec 2) : State → Answer :=
  copyForm (.copyS a s f c m) .s a s f c m
def execCopyMc (a : BitVec 4) (s : BitVec 8) (f : BitVec 4) (c : BitVec 3) (m : BitVec 2) : State → Answer :=
  copyForm (.copyMc a s f c m) .mc a s f c m
/-- The write-back to HBM changes the completion time only (R256): slices hold no state of their own here. -/
def execCopyWb (a : BitVec 4) (s : BitVec 8) (f : BitVec 4) (c : BitVec 3) (m : BitVec 2) : State → Answer :=
  copyForm (.copyWb a s f c m) .wb a s f c m
def execCopyFill (a : BitVec 4) (s : BitVec 8) (f : BitVec 4) (c : BitVec 3) : State → Answer :=
  copyForm (.copyFill a s f c) .fill a s f c 0#2

/-! ### CRESUME and CCANCEL (R260) -/

/-- The copy in a suspension slot. -/
def State.slotCopy (s : State) (quad slot : Nat) : Option CopyOp :=
  s.copies.find? fun c => decide (c.quad = quad) && decide (c.slot = some slot)

/-- What R260 finds: a status, or the copy. -/
def Who.suspended (x : Who) (n : Nat) : Except Nat CopyOp :=
  let v := (x.w.creg n).val
  if fld v 10 22 ≠ 0#22 then .error 7
  else
    match (if 191 < (fld v 0 8).toNat then none else x.s.slotCopy (fld v 0 8).toNat (fld v 8 2).toNat) with
    | none => .error 6
    | some c => if c.tenant ≠ x.s.tagOf x.w then .error 1 else .ok c

/-- The form shared by `CRESUME` and `CCANCEL`: a common register and the one after it; a poisoned register poisons the status (R374). -/
def slotForm (i : Instr) (sc : BitVec 8) (stall : Who → CopyOp → Option Nat) (f : State → CopyOp → State) : State → Answer :=
  let n := sc.toNat - 0x80
  let ok := decide (0x80 ≤ sc.toNat) && decide (sc.toNat < 0xC0)
  issueUniform (wordOf i) ⟨if ok then [.c n 1 sc.toNat, .c (n + 1) 1 (sc.toNat + 1)] else [], ok, none, runtimeRights⟩
    (fun x => match x.suspended n with
      | .ok c => stall x c
      | .error _ => none) fun x =>
      let p := (x.w.creg n).poison
      match x.suspended n with
      | .error st => .ok (x.put x.s (n + 1) [⟨BitVec.ofNat 32 st, p⟩])
      | .ok c => .ok (x.put (f x.s c) (n + 1) [⟨0, p⟩])

def execCresume (s : BitVec 8) : State → Answer :=
  slotForm (.cresume s) s (fun _ _ => none) fun st c =>
    st.onCopy c.id fun c => if c.stage = .suspended then { c with stage := .moving } else c

/-- The vamp waits for the writes in the network, counted under reason 2 (log 98); then the copy completes. -/
def execCcancel (s : BitVec 8) : State → Answer :=
  slotForm (.ccancel s) s (fun x c => if x.s.landed c then none else some 2) fun st c =>
    let s1 := st.toLanding c c.next 3 0 0
    match s1.copy? c.id with
    | some d => (s1.tellTwin d).landCopy d
    | none => s1

end Sys2Proof.Machine
end

