-- ==== Sys2Proof/Machine/Matrix.lean ====
section
/-! DEFINITION. The matrix engine, weight buffer and accumulator store (R144-R147, R258, R262-R287), with the calendars
that grant its segments (R308, R309). -/

namespace Sys2Proof.Machine

/-! ### Descriptor fields (R269, R281) -/

def MatOp.word (o : MatOp) (k : Nat) : Word := o.words.getD k 0#32
def MatOp.bits (o : MatOp) (k lo n : Nat) : Nat := bitsOf (o.word k).toNat lo n

def MatOp.fmtA (o : MatOp) : Nat := o.bits 0 0 4
def MatOp.fmtB (o : MatOp) : Nat := o.bits 0 4 4
def MatOp.planes (o : MatOp) : Nat := o.bits 0 8 4
def MatOp.midpoint (o : MatOp) : Bool := decide (o.bits 0 12 1 = 1)
def MatOp.cplx (o : MatOp) : Bool := decide (o.bits 0 13 1 = 1)
def MatOp.zinit (o : MatOp) : Bool := decide (o.bits 0 14 1 = 1)
def MatOp.neg (o : MatOp) : Bool := decide (o.bits 0 15 1 = 1)
def MatOp.aaddr (o : MatOp) : Nat := o.bits 1 0 21
def MatOp.astride (o : MatOp) : Nat := o.bits 2 0 16
def MatOp.kmajor (o : MatOp) : Bool := decide (o.bits 2 16 1 = 1)
def MatOp.boff (o : MatOp) : Nat := o.bits 3 0 19 * 64
def MatOp.steps (o : MatOp) : Nat := o.bits 4 0 13
def MatOp.cols (o : MatOp) : Nat := o.bits 4 13 9
def MatOp.kel (o : MatOp) : Nat := if o.cplx then 2 * o.steps else o.steps
def MatOp.nb (o : MatOp) : Nat := if o.cplx then o.cols / 2 else o.cols

/-- The completion word: word 5 of a descriptor, P6 of a parameter block; `WBINV` has none. -/
def MatOp.cword (o : MatOp) : Nat :=
  match o.kind with
  | .pass => (o.word 5).toNat
  | .wbinv => 0
  | _ => (o.word 6).toNat
def MatOp.tensor (o : MatOp) : Nat := o.cword % 64
def MatOp.ckind (o : MatOp) : Nat := bitsOf o.cword 6 2
def MatOp.caddr (o : MatOp) : Nat := bitsOf o.cword 8 17 * 16

def MatOp.prow (o : MatOp) : Nat := o.bits 0 0 9
def MatOp.prows (o : MatOp) : Nat := o.bits 0 9 10
def MatOp.pcol (o : MatOp) : Nat := o.bits 1 0 3
def MatOp.pcols (o : MatOp) : Nat := o.bits 1 3 4
def MatOp.pfmt (o : MatOp) : Nat := o.bits 1 8 4
def MatOp.saddr (o : MatOp) : Nat := o.bits 2 0 21
def MatOp.sstride (o : MatOp) : Nat := o.bits 3 0 16
def MatOp.csaddr (o : MatOp) : Nat := o.bits 4 0 21
def MatOp.cs (o : MatOp) : Bool := decide (o.bits 4 31 1 = 1)
def MatOp.rsaddr (o : MatOp) : Nat := o.bits 5 0 21
def MatOp.rs (o : MatOp) : Bool := decide (o.bits 5 31 1 = 1)

def MatOp.isPass (o : MatOp) : Bool := decide (o.kind = .pass)

/-- Whether a format code has 16-bit elements. -/
def wideFmt (f : Nat) : Bool := decide (f = 5) || decide (f = 6)
def matrixFmt (f : Nat) : Bool := decide (1 ≤ f) && decide (f ≤ 6)

/-- Element bytes. -/
def MatOp.ebytes (o : MatOp) : Nat := formatBits (if o.isPass then o.fmtA else o.pfmt) / 8

/-! ### Intervals (R270, R277) -/

/-- The highest byte of A, from its first (R270). -/
def MatOp.aHigh (o : MatOp) : Nat :=
  let e := o.ebytes
  if o.fmtA = 2 then o.aaddr + 1023 * o.astride + o.kel / 8 - 1
  else if o.kmajor then o.aaddr + (o.kel - 1) * o.astride + 128 * e - 1
  else o.aaddr + 127 * o.astride + o.kel * e - 1

/-- The highest byte of the SRAM array of a parameter block. -/
def MatOp.sHigh (o : MatOp) : Nat := o.saddr + (o.prows - 1) * o.sstride + 32 * o.pcols * o.ebytes - 1

def setBits (m : Nat) : List Nat := (List.range 8).filter fun i => m / 2 ^ i % 2 = 1

/-- The cluster-window interval an operation holds on the range scoreboard, by its program's numbers of the banks. -/
def MatOp.interval (o : MatOp) : Option (Nat × Nat) :=
  match o.kind with
  | .pass => some (o.aaddr, o.aHigh)
  | .accrd => some (o.saddr, o.sHigh)
  | .accwr => some (o.saddr, o.sHigh)
  | .wbinv => o.src.map fun a => (a, a + 65536 * (setBits o.mask).length - 1)
  | _ => none

/-- The same by the quad's numbers (log 79). -/
def State.opInterval (s : State) (o : MatOp) : Option (Nat × Nat) :=
  o.interval.map fun i => (s.offAt (some o.gang) i.1, s.offAt (some o.gang) i.2)

/-! ### The checks of R271 -/

/-- Whether every bank of an interval is bound to the tenant and allotted to the gang. -/
def State.intervalOk (s : State) (quad : Nat) (tag : Tag) (gang lo hi : Nat) : Bool :=
  decide (hi < 2 ^ 21) && (List.range (hi / 2 ^ 17 + 1 - lo / 2 ^ 17)).all fun i =>
    s.bankOk quad tag (some gang) (lo / 2 ^ 17 + i)

/-- The tenant of a gang. -/
def State.gangTag (s : State) (g : Nat) : Tag :=
  match (s.gang? g).bind fun x => s.launch? x.launch with
  | some l => l.tenant
  | none => unboundTag

def State.gangLaunch (s : State) (g : Nat) : Nat := ((s.gang? g).map fun x => x.launch).getD 0

/-- Whether an operation's completion record may be written (R276). -/
def State.recordOk (s : State) (o : MatOp) : Bool :=
  decide (o.ckind ≠ 3) && s.bankOk o.quad (s.gangTag o.gang) (some o.gang) (o.caddr / 2 ^ 17)

def State.gangAccs (s : State) (g : Nat) : Nat := ((s.gang? g).map fun x => x.accs).getD 0
def State.gangSegs (s : State) (g : Nat) : Nat := ((s.gang? g).map fun x => x.segs).getD 0

/-- Bytes of B a pass reads, from its offset (R266). -/
def MatOp.bBytes (o : MatOp) : Nat :=
  if o.fmtB = 2 then o.planes * (o.kel * o.nb / 8) else o.kel * o.nb * (formatBits o.fmtB / 8)

def firstReason : List (Nat × Bool) → Nat
  | [] => 0
  | (r, bad) :: rest => if bad then r else firstReason rest

/-- The first failing check of a pass; 0 is none. -/
def State.passReason (s : State) (o : MatOp) : Nat :=
  let ni8 := decide (o.fmtB = 2)
  let lim := if o.cplx then 2048 else 4096
  let al := if o.fmtA = 2 then 4 else o.ebytes
  firstReason
    [ (1, !matrixFmt o.fmtA || !matrixFmt o.fmtB || (wideFmt o.fmtA != wideFmt o.fmtB)),
      (2, if ni8 then decide (o.planes = 0) || decide (8 < o.planes) else decide (o.planes ≠ 0) || o.midpoint),
      (3, decide (o.steps = 0) || decide (o.steps % 32 ≠ 0) || decide (lim < o.steps) || decide (o.cols = 0) ||
        decide (o.cols % 32 ≠ 0) || decide (256 < o.cols)),
      (4, decide (o.bits 0 16 16 ≠ 0) || decide (o.bits 1 21 11 ≠ 0) || decide (o.bits 2 17 15 ≠ 0) ||
        decide (o.bits 3 19 13 ≠ 0) || decide (o.bits 4 24 8 ≠ 0) || decide (o.bits 5 25 7 ≠ 0) ||
        decide (o.word 6 ≠ 0#32) || decide (o.word 7 ≠ 0#32) || (o.kmajor && decide (o.fmtA = 2))),
      (5, decide (o.aaddr % al ≠ 0) || decide (o.astride % al ≠ 0) ||
        (decide (o.fmtA = 2) && decide (o.astride < o.kel / 8)) ||
        !s.intervalOk o.quad (s.gangTag o.gang) o.gang o.aaddr o.aHigh),
      (6, decide (65536 * s.gangSegs o.gang < o.boff + o.bBytes)),
      (7, decide (s.gangAccs o.gang < o.bits 4 22 2 + 1)),
      (8, decide (o.ckind ≠ 0) && !s.recordOk o) ]

/-- Formats `ACCRD` writes, formats `ACCWR` reads (R282, R283). -/
def accFmt (f : Nat) : Bool := decide (f < 12) && decide (f ≠ 2)

/-- The first failing check of an accumulator form. -/
def State.accReason (s : State) (o : MatOp) : Nat :=
  let rd := decide (o.kind = .accrd)
  let wr := decide (o.kind = .accwr)
  let scl := decide (o.kind = .accscl)
  let array := rd || wr
  let vec := fun (a n : Nat) => decide (a % 4 ≠ 0) || !s.intervalOk o.quad (s.gangTag o.gang) o.gang a (a + 4 * n - 1)
  firstReason
    [ (1, array && !accFmt o.pfmt),
      (3, decide (o.prows = 0) || decide (512 < o.prow + o.prows) || decide (o.pcols = 0) || decide (8 < o.pcol + o.pcols)),
      (4, decide (o.bits 0 19 13 ≠ 0) || decide (o.bits 1 7 1 ≠ 0) || decide (o.bits 1 16 16 ≠ 0) ||
        (array && (decide (o.bits 2 21 11 ≠ 0) || decide (o.bits 3 16 16 ≠ 0))) ||
        (rd && decide (o.bits 4 21 10 ≠ 0)) || ((rd || scl) && decide (o.bits 5 21 10 ≠ 0)) ||
        decide (o.bits 6 25 7 ≠ 0) || (rd && decide (o.word 7 ≠ 0#32)) ||
        (wr && decide (o.bits 1 12 4 ≠ 0)) || (!array && decide (o.bits 1 8 8 ≠ 0))),
      (5, (array && (decide (o.saddr % o.ebytes ≠ 0) || decide (o.sstride % o.ebytes ≠ 0) ||
          !s.intervalOk o.quad (s.gangTag o.gang) o.gang o.saddr o.sHigh)) ||
        (rd && o.cs && vec o.csaddr (32 * o.pcols)) || ((rd || scl) && o.rs && vec o.rsaddr o.prows)),
      (7, decide (128 * s.gangAccs o.gang < o.prow + o.prows)),
      (8, decide (o.ckind ≠ 0) && !s.recordOk o),
      (9, scl && !o.rs) ]

def State.matReason (s : State) (o : MatOp) : Nat :=
  match o.kind with
  | .pass => s.passReason o
  | .wbinv => 0
  | _ => s.accReason o

/-! ### The reservation table (R273) -/

/-- Entries held on a quad. -/
def State.reservations (s : State) (quad : Nat) : Nat := (s.matops.filter fun o => decide (o.quad = quad) && !o.done).length

/-- Accumulator rows an operation touches: the first and the count. -/
def MatOp.rows (o : MatOp) : Nat × Nat :=
  if o.reason ≠ 0 then (0, 0)
  else
    match o.kind with
    | .pass => (128 * o.bits 4 22 2, 128)
    | .wbinv => (0, 0)
    | _ => (o.prow, o.prows)

/-- Gang-relative segments an operation reads, and those it writes. -/
def MatOp.segsRead (o : MatOp) : List Nat :=
  if o.isPass ∧ o.reason = 0 ∧ o.bBytes ≠ 0 then
    (List.range ((o.boff + o.bBytes - 1) / 65536 + 1 - o.boff / 65536)).map fun i => o.boff / 65536 + i
  else []
def MatOp.segsWritten (o : MatOp) : List Nat := if o.kind = .wbinv then setBits o.mask else []

/-- Whether two operations of one gang conflict. -/
def MatOp.conflicts (a b : MatOp) : Bool :=
  decide (a.gang = b.gang) &&
    ((decide (0 < a.rows.2) && decide (0 < b.rows.2) && decide (a.rows.1 < b.rows.1 + b.rows.2) &&
      decide (b.rows.1 < a.rows.1 + a.rows.2)) ||
    a.segsWritten.any (fun i => b.segsRead.contains i || b.segsWritten.contains i) ||
    a.segsRead.any fun i => b.segsWritten.contains i)

/-- Whether nothing an operation must follow is incomplete: older conflicting operations, copies it overlaps that took
their entries earlier (R241, R273), and its issuer's earlier stores (R231). -/
def State.matReady (s : State) (o : MatOp) : Bool :=
  !((s.matops.takeWhile fun p => p.id ≠ o.id).any fun p => !p.done && p.conflicts o) && !s.storesOpen o.wg o.tid o.seq &&
    match s.opInterval o with
    | some (lo, hi) => !((s.earlier o.id o.quad).any fun e => e.copy && decide (e.lo ≤ hi) && decide (lo ≤ e.hi))
    | none => true

/-- The entry of an operation on its quad's scoreboard: a pass takes one, and holds it until A has been read (R240, R277). -/
def State.opEntry (s : State) (o : MatOp) : List SbEntry :=
  match (if o.reason = 0 ∧ ¬ o.ended then s.opInterval o else none) with
  | some (lo, hi) => [⟨o.quad, lo, hi, false, o.id, o.id⟩]
  | none => []

/-- Enqueue an operation: its check, its entry of the range scoreboard. -/
def State.enqueueOp (s : State) (o : MatOp) : State :=
  let (i, s1) := s.fresh
  let o1 := { o with id := i, seq := if o.seq = 0 then i else o.seq }
  let o2 := { o1 with reason := s.matReason o1 }
  { s1 with matops := s1.matops ++ [o2], score := s1.score ++ s.opEntry o2 }

/-- Whether an operation that passes its checks finds no scoreboard entry free (R242). -/
def State.scoreFull (s : State) (o : MatOp) : Bool :=
  decide (s.scoreFree o.quad = 0) && o.interval.isSome && decide (s.matReason o = 0)


/-! ### Elements -/

/-- A value of a format code as an exact number; NI8 as its reading (R136). -/
def elemValue (f b : Nat) : Exact :=
  match floatFmt f with
  | some g => g.value b
  | none => .ofInt (signedOf 8 b)

/-- The flat address of a cluster-window offset of an operation. -/
def State.clusterAt (s : State) (o : MatOp) (off : Nat) : Nat := sramBase (o.quad * 16) + s.offAt (some o.gang) off

/-- Bytes at a cluster-window offset of an operation: number and poison. -/
def State.clusterNat (s : State) (o : MatOp) (off n : Nat) : Nat × Poison :=
  (s.readNat (s.clusterAt o off) n, s.poisonOf (s.clusterAt o off) n)

/-- The bits of planes: plane `7 - k` at `at' k`, of the bit `b` of its word. -/
def planeBits (read : Nat → Nat × Poison) (b n : Nat) : Nat × Poison :=
  (List.range n).foldl (fun acc k =>
    let r := read k
    (acc.1 + r.1 / 2 ^ b % 2 * 2 ^ (7 - k), acc.2.join r.2)) (0, none)

/-- A[r][k] (R270). -/
def State.aElem (s : State) (o : MatOp) (r k : Nat) : Nat × Poison :=
  if o.fmtA = 2 then
    planeBits (fun j => s.clusterNat o (o.aaddr + j * 128 * o.astride + r * o.astride + 4 * (k / 32)) 4) (k % 32) 8
  else
    let e := o.ebytes
    s.clusterNat o (o.aaddr + if o.kmajor then k * o.astride + r * e else r * o.astride + k * e) e

/-- The flat address of a weight-buffer byte of a gang (R264). -/
def State.wbufAt (s : State) (gang off : Nat) : Nat :=
  match s.gang? gang with
  | some g => wbufBase (g.quad * 8 + g.seg0 + off / 65536) + off % 65536
  | none => 0

/-- B[k][c] (R266): the element's bits, for NI8 of its value under the fill. -/
def State.bElem (s : State) (o : MatOp) (k c : Nat) : Nat × Poison :=
  let i := k * o.nb + c
  let rd := fun off n => (s.readNat (s.wbufAt o.gang off) n, s.poisonOf (s.wbufAt o.gang off) n)
  if o.fmtB = 2 then
    let r := planeBits (fun j => rd (o.boff + j * (o.kel * o.nb / 8) + 4 * (i / 32)) 4) (i % 32) o.planes
    (r.1 + if o.midpoint ∧ o.planes < 8 then 2 ^ (7 - o.planes) else 0, r.2)
  else
    let e := formatBits o.fmtB / 8
    rd (o.boff + i * e) e

/-! ### The accumulator (R267) -/

def State.accKey (s : State) (gang row col : Nat) : Nat :=
  match s.gang? gang with
  | some g => (g.quad * 4 + g.acc0 + row / 128) * 2 ^ 15 + row % 128 * 256 + col
  | none => 0

def State.accGet (s : State) (k : Nat) : BitVec 36 × Poison :=
  let p := Table.get 0#12 s.accPoison k
  (Table.get 0#36 s.acc k, if p = 0#12 then none else some p)

def State.accSet (s : State) (k : Nat) (v : BitVec 36) (p : Poison) : State :=
  { s with acc := Table.set 0#36 s.acc k v, accPoison := Table.set 0#12 s.accPoison k (p.getD 0#12) }

/-! ### The arithmetic of a pass (R145, R146, R272) -/

/-- One product: the two elements' bits, whether it is negated. -/
structure Product where
  a : Nat × Poison
  b : Nat × Poison
  neg : Bool
deriving DecidableEq, Repr

def Product.value (fa fb : Nat) (p : Product) : Exact :=
  let x := ((elemValue fa p.a.1).mul (elemValue fb p.b.1)).1
  if p.neg then x.negate else x

def intFmt (f : Nat) : Bool := decide (f = 1) || decide (f = 2)

/-- One k-group: the new element and its event. -/
def groupSum (fa fb : Nat) (acc : BitVec 36) (ps : List Product) : BitVec 36 × Option NumEvent :=
  if intFmt fa && intFmt fb then
    let v : Int := acc.toInt + (ps.map fun p =>
      (if p.neg then -1 else 1) * (signedOf 8 p.a.1 * signedOf 8 p.b.1)).sum
    let y : Int := max (-(2 ^ 35)) (min (2 ^ 35 - 1) v)
    (BitVec.ofInt 36 y, if y = v then none else some .sat)
  else
    let prior := af36.value acc.toNat
    let sum := (sumTerms .rne (prior :: ps.map (Product.value fa fb))).1
    let r := af36.roundTo .rne false false sum
    let fresh := sum.isNan && !prior.isNan &&
      !(ps.any fun p => (elemValue fa p.a.1).isNan || (elemValue fb p.b.1).isNan)
    (BitVec.ofNat 36 r.bits, if fresh then some .nan else r.event)

/-- The poison of some products. -/
def productPoison (ps : List Product) : Poison := ps.foldl (fun (q : Poison) p => (q.join p.a.2).join p.b.2) none

/-- The products of k-group `g` for element (i, j). -/
def State.groupProducts (s : State) (o : MatOp) (g i j : Nat) : List Product :=
  if o.cplx then
    let c := j / 2
    (List.range 32).flatMap fun t =>
      let k := 32 * g + t
      let ar := s.aElem o i (2 * k)
      let ai := s.aElem o i (2 * k + 1)
      let br := s.bElem o (2 * k) c
      let bi := s.bElem o (2 * k + 1) c
      if j % 2 = 0 then [⟨ar, br, o.neg⟩, ⟨ai, bi, !o.neg⟩] else [⟨ar, bi, o.neg⟩, ⟨ai, br, o.neg⟩]
  else
    (List.range 32).map fun t => ⟨s.aElem o i (32 * g + t), s.bElem o (32 * g + t) j, o.neg⟩

/-- One k-group of one element; where an operand is poisoned no numeric event counts (R374, log 91). -/
def State.stepElem (s : State) (o : MatOp) (g i j : Nat) : State :=
  let key := s.accKey o.gang (128 * o.bits 4 22 2 + i) j
  let (old, q) : BitVec 36 × Poison := if g = 0 ∧ o.zinit then (0#36, none) else s.accGet key
  let ps := s.groupProducts o g i j
  let (v, ev) := groupSum o.fmtA o.fmtB old ps
  let p := q.join (productPoison ps)
  (s.accSet key v p).countNum (s.gangLaunch o.gang) o.tensor (if p.isSome then none else ev)

/-- One k-group of a pass: every element (i, j). -/
def State.stepGroup (s : State) (o : MatOp) (g : Nat) : State :=
  (List.range 128).foldl (fun (s : State) i =>
    (List.range o.cols).foldl (fun (s : State) j => s.stepElem o g i j) s) s

/-- K-steps of the next segment (R274). -/
def MatOp.segSteps (o : MatOp) : Nat := min 64 (o.steps - o.kdone)

/-- A segment of a pass. -/
def State.runSegment (s : State) (o : MatOp) : State :=
  (List.range (o.segSteps / 32)).foldl (fun (s : State) t => s.stepGroup o (o.kdone / 32 + t)) s

/-! ### Segments and calendars (R274, R308, R309) -/

/-- Cycles of a segment (R263). -/
def MatOp.segCycles (o : MatOp) : Nat :=
  let k := o.segSteps
  if wideFmt o.fmtA then (if o.cplx then 4 * k else 2 * k)
  else if o.fmtB = 2 ∧ o.planes ≤ 2 then (if o.cplx then (k + 1) / 2 else (k + 3) / 4)
  else if o.fmtB = 2 ∧ o.planes ≤ 4 then (if o.cplx then k else (k + 1) / 2)
  else if o.cplx then 2 * k else k

/-- Whether a segment granted now ends within usable slots. -/
def State.calendarAllows (s : State) (o : MatOp) : Bool :=
  let die := o.quad / 96
  let now := (s.die? die).cycles
  let part := Tag.part (s.gangTag o.gang)
  (List.range ((now + o.segCycles - 1) / 64 + 1 - now / 64)).all fun i => slotUsable (s.calSlot die 0 (now / 64 + i)) part

/-- Whether a gang that is being pre-empted has a run or a copy to finish, which may wait for its passes (R312). -/
def State.gangBusy (s : State) (gid : Nat) : Bool :=
  (s.runs.any fun r => (s.wg? r.wg).any fun w => w.gang = gid) ||
    s.copies.any fun c => decide (c.gang = some gid) && decide (c.stage ≠ .finished) && decide (c.stage ≠ .suspended)

/-- Whether a pass may go on, but for the calendar. -/
def State.opGoes (s : State) (o : MatOp) : Bool := o.isPass && !o.done && !o.ended && decide (o.reason = 0) && s.matReady o

/-- Whether a pass is eligible for a segment. While its gang is being pre-empted it is as long as something of the gang that must finish
may wait for it (R312). -/
def State.eligible (s : State) (o : MatOp) : Bool :=
  s.opGoes o && s.calendarAllows o &&
    (s.gang? o.gang).any fun g => decide (g.status = .placed) || (decide (g.status = .draining) && s.gangBusy g.uid)

def State.opPrio (s : State) (o : MatOp) : Nat := ((s.launch? (s.gangLaunch o.gang)).map fun l => l.prio).getD 31

/-- The pass the arbiter takes: lowest priority number, then oldest. -/
def State.arbitrate (s : State) (quad : Nat) : Option MatOp :=
  bestOf (fun a b => decide (s.opPrio a < s.opPrio b))
    (s.matops.filter fun o => decide (o.quad = quad) && s.eligible o)

/-- `SEGMENT_GRANT` (R274). -/
def execSegmentGrant (quad : Nat) (s : State) : Answer :=
  if s.matops.any fun o => o.quad = quad ∧ o.granted then done s
  else
    match s.arbitrate quad with
    | none => done s
    | some o => done ((s.onMatop o.id fun o => { o with granted := true }).count (s.gangTag o.gang) 0x0D 1)

/-- `SEGMENT_END` (R274): the segment's sums; after the last, A has been read and its entry is free (R277). -/
def execSegmentEnd (quad : Nat) (s : State) : Answer :=
  match s.matops.find? fun o => o.quad = quad ∧ o.granted with
  | none => done s
  | some o =>
    let s1 := (s.runSegment o).count (s.gangTag o.gang) 0x0C o.segSteps
    let k := o.kdone + o.segSteps
    let s2 := s1.onMatop o.id fun o => { o with granted := false, kdone := k, ended := decide (o.steps ≤ k) }
    done (if o.steps ≤ k then { s2 with score := s2.score.filter fun e => e.op ≠ o.id } else s2)

/-! ### The transfer path (R282-R286) -/

/-- A scale vector's element. -/
def State.scaleElem (s : State) (o : MatOp) (on : Bool) (a i : Nat) : Exact × Poison :=
  if on then
    let r := s.clusterNat o (a + 4 * i) 4
    (fp32.value r.1, r.2)
  else (.ofInt 1, none)

/-- RoundTo of an `ACCRD` output format: the bits and the event (R140). -/
def roundOut (f : Nat) (mode : Rnd) (sat : Bool) (x : Exact) : Nat × Option NumEvent :=
  match floatFmt f with
  | some g => let r := g.roundTo mode false sat x; (r.bits, r.event)
  | none =>
    let n := formatBits f
    let signed := decide (f = 1) || decide (f = 9) || decide (f = 11)
    let (lo, hi) : Int × Int := if signed then (-(2 ^ (n - 1)), 2 ^ (n - 1) - 1) else (0, 2 ^ n - 1)
    let r := roundInt lo hi mode x
    ((r.1 % 2 ^ n).toNat, r.2.2)

/-- The event of a floating-point result that is a NaN although no operand is one (R148); an integer result is never one. -/
def freshNan (ops : List Exact) (y : Exact) (ev : Option NumEvent) : Option NumEvent :=
  if y.isNan ∧ ¬ ops.any Exact.isNan then some .nan else ev

/-- One element of `ACCRD` (R282); each element of the scale vectors is read once, before the first result is written (R277): `s0` is
the state it is read in. A poisoned result counts no numeric event (log 91). -/
def State.accrdElem (s0 s : State) (o : MatOp) (r c : Nat) : State :=
  let key := s.accKey o.gang (o.prow + r) (32 * o.pcol + c)
  let (e, p) := s.accGet key
  let v := if o.bits 1 15 1 = 1 then Exact.ofInt e.toInt else af36.value e.toNat
  let (cv, cp) := s0.scaleElem o o.cs o.csaddr c
  let (rv, rp) := s0.scaleElem o o.rs o.rsaddr r
  let q := (p.join cp).join rp
  let zero := o.rs && rv.isZero
  let y := if zero then .zero false else ((v.mul cv).1.mul rv).1
  let (b, ev) := roundOut o.pfmt (Rnd.ofBits (o.bits 1 12 2)) (decide (o.bits 1 14 1 = 1)) y
  let s1 := s.perform (s.clusterAt o (o.saddr + r * o.sstride + c * o.ebytes)) (leBytes b o.ebytes) q 0
  s1.countNum (s.gangLaunch o.gang) o.tensor
    (if zero ∨ q.isSome then none else if (floatFmt o.pfmt).isSome then freshNan [v, cv, rv] y ev else ev)

/-- One element of `ACCWR` (R283). -/
def State.accwrElem (s : State) (o : MatOp) (r c : Nat) : State :=
  let x := s.clusterNat o (o.saddr + r * o.sstride + c * o.ebytes) o.ebytes
  let n := formatBits o.pfmt
  let v : BitVec 36 := match floatFmt o.pfmt with
    | some g => BitVec.ofNat 36 (af36.roundTo .rne false false (g.value x.1)).bits
    | none =>
      if o.pfmt = 1 ∨ o.pfmt = 9 ∨ o.pfmt = 11 then BitVec.ofInt 36 (signedOf n x.1) else BitVec.ofNat 36 x.1
  s.accSet (s.accKey o.gang (o.prow + r) (32 * o.pcol + c)) v x.2

/-- One element of `ACCSCL` (R284). -/
def State.accsclElem (s : State) (o : MatOp) (r c : Nat) : State :=
  let key := s.accKey o.gang (o.prow + r) (32 * o.pcol + c)
  let (e, p) := s.accGet key
  let v := af36.value e.toNat
  let (rv, rp) := s.scaleElem o true o.rsaddr r
  let q := p.join rp
  let y := if rv.isZero then .zero false else (v.mul rv).1
  let z := af36.roundTo .rne false false y
  (s.accSet key (BitVec.ofNat 36 z.bits) q).countNum (s.gangLaunch o.gang) o.tensor
    (if rv.isZero ∨ q.isSome then none else freshNan [v, rv] y z.event)

/-- One element of `ACCZ` (R285). -/
def State.acczElem (s : State) (o : MatOp) (r c : Nat) : State :=
  s.accSet (s.accKey o.gang (o.prow + r) (32 * o.pcol + c)) 0#36 none

/-- Every element of a parameter block's region. -/
def State.region (s : State) (o : MatOp) (f : State → Nat → Nat → State) : State :=
  (List.range o.prows).foldl (fun (s : State) r => (List.range (32 * o.pcols)).foldl (fun (s : State) c => f s r c) s) s

/-- Copy an area of 64 KiB with its poison. -/
def State.copyArea (s : State) (src dst : Nat) : State :=
  { s with
    mem := Memory.writeAll s.mem dst (s.readMem src 65536)
    memPoison := (s.memPoison.filter fun c => decide (src ≤ c.1) && decide (c.1 < src + 65536)).foldl
      (fun t c => Table.set 0#12 t (c.1 - src + dst) c.2) (Table.clear s.memPoison dst 65536) }

/-- One segment of a `WBINV` (R286): zero bytes, or the bytes at its source. -/
def State.fillSegment (s : State) (o : MatOp) (seg j : Nat) : State :=
  let dst := s.wbufAt o.gang (65536 * seg)
  match o.src with
  | none => { s with mem := Memory.clear s.mem dst 65536, memPoison := Table.clear s.memPoison dst 65536 }
  | some a => s.copyArea (s.clusterAt o (a + 65536 * j)) dst

/-- What an operation of the transfer path does. -/
def State.transfer (s : State) (o : MatOp) : State :=
  match o.kind with
  | .pass => s
  | .accrd => s.region o fun u r c => s.accrdElem u o r c
  | .accwr => s.region o fun s r c => s.accwrElem o r c
  | .accscl => s.region o fun s r c => s.accsclElem o r c
  | .accz => s.region o fun s r c => s.acczElem o r c
  | .wbinv => ((setBits o.mask).zipIdx).foldl (fun (s : State) x => s.fillSegment o x.1 x.2) s

/-! ### Completion (R276) -/

/-- The completion record; or a record to the tenant, when the operation has failed or its record fails its check, of an operation
without a failure reason 0x08 (R276, log 81). -/
def State.matRecord (s : State) (o : MatOp) : State :=
  let a := s.clusterAt o o.caddr
  let st := if o.reason = 0 then 0 else 1 + o.reason * 256
  if o.ckind ≠ 0 ∧ s.recordOk o then
    if o.ckind = 1 then s.bumpStamp a st 0 else s.tbarAdd a true 0 (s.poisonOf a 8) 0
  else if o.ckind ≠ 0 ∨ o.reason ≠ 0 then
    s.engineFail 1 o.quad (s.gangLaunch o.gang) (s.gangTag o.gang) 1 (if o.reason = 0 then 8 else o.reason)
  else s

/-- Whether an operation may complete now. -/
def State.mayComplete (s : State) (o : MatOp) : Bool :=
  !o.done && (decide (o.reason ≠ 0) || (if o.isPass then o.ended else s.matReady o))

/-- `MATRIX_OP_COMPLETE` (R276). -/
def execMatrixOpComplete (id : Nat) (s : State) : Answer :=
  match s.matop? id with
  | none => done s
  | some o =>
    if s.mayComplete o then
      let s1 := (if o.reason = 0 then s.transfer o else s).matRecord o
      let s2 := ({ s1 with score := s1.score.filter fun e => e.op ≠ id } : State).onMatop id fun o => { o with done := true }
      match o.wg with
      | some u => done (s2.drainMatrix u o.tid s2.matops.length)
      | none => done s2
    else done s

/-! ### Follow-on passes (R258) -/

/-- The words of a descriptor slot of a quad, if it is bound to a tag. -/
def State.slotWords (s : State) (quad slot : Nat) (tag : Tag) : List Word :=
  (List.range 8).map fun k =>
    if s.checkTag tag 9 (quad * 15 + slot) then Table.get 0#32 s.slots (quad * 128 + slot * 8 + k) else 0#32

def newOp (wg tid : Option Nat) (gang quad : Nat) (kind : MatKind) (words : List Word) : MatOp :=
  { id := 0, seq := 0, wg := wg, tid := tid, gang := gang, quad := quad, kind := kind, words := words, mask := 0
    src := none, kdone := 0, granted := false, ended := false, reason := 0, done := false }

/-- `FOLLOW_ON_ENQUEUE`: step 4 of R249 for a copy whose payload is performed; then the copy completes. -/
def execFollowOnEnqueue (id : Nat) (s : State) : Answer :=
  match s.copy? id with
  | none => done s
  | some c =>
    match c.stage, c.fs with
    | .following, some fs =>
      let o := { newOp c.wg c.tid (c.gang.getD 0) c.quad .pass (s.slotWords c.quad fs c.tenant) with seq := c.id }
      if 16 ≤ s.reservations c.quad ∨ s.scoreFull o then done s else done ((s.enqueueOp o).sealCopy id)
    | _, _ => done s

/-! ### MATX instructions (R278-R287) -/

/-- Eight common registers from `n` on: quota as R278 reports it. -/
def matRegs (n cnt : Nat) : Opnd := .c (n + cnt - 1) 1 (0x80 + n + cnt - 1)

/-- The fault of an unbound slot. -/
def slotFault (x : Who) (s : BitVec 4) : Option FaultInfo :=
  if x.s.checkTag (x.s.tagOf x.w) 9 (x.w.quad * 15 + s.toNat) then none else some ⟨cProtect, 0x5#32, 0⟩

def Who.commonWords (x : Who) (n cnt : Nat) : List Word := (List.range cnt).map fun k => (x.w.creg (n + k)).val
def Who.commonPoison (x : Who) (n cnt : Nat) : Poison :=
  (List.range cnt).foldl (fun (p : Poison) k => p.join (x.w.creg (n + k)).poison) none

def execMdesc (c : BitVec 6) (s : BitVec 4) : State → Answer :=
  issueUniform (wordOf (.mdesc c s)) ⟨[matRegs c.toNat 8], decide (s.toNat < 15), none, noRights⟩ noStallU fun x =>
    match slotFault x s, x.commonPoison c.toNat 8 with
    | some f, _ => .fault f
    | none, some q => .fault (poisonFault q 2)
    | none, none =>
      .ok { x.s with slots := (List.range 8).foldl (fun t k =>
        Table.set 0#32 t (x.w.quad * 128 + s.toNat * 8 + k) (x.w.creg (c.toNat + k)).val) x.s.slots }

/-- The stall of an operation that takes a reservation entry. -/
def matStall (x : Who) (o : MatOp) : Option Nat :=
  if 255 ≤ x.w.common.matrix ∨ 16 ≤ x.s.reservations x.w.quad ∨ x.s.scoreFull o then some 5 else none

def Who.newOp (x : Who) (kind : MatKind) (words : List Word) : MatOp :=
  Machine.newOp (some x.w.uid) none x.w.gang x.w.quad kind words

def Who.enqueue (x : Who) (o : MatOp) : State := (x.s.counter x.w.uid none .matrix 1).enqueueOp o

def execMma (s : BitVec 4) : State → Answer :=
  let op := fun x : Who => x.newOp .pass (x.s.slotWords x.w.quad s.toNat (x.s.tagOf x.w))
  issueUniform (wordOf (.mma s)) ⟨[], decide (s.toNat < 15), none, noRights⟩
    (fun x => if (slotFault x s).isNone then matStall x (op x) else none) fun x =>
      match slotFault x s with
      | some f => .fault f
      | none => .ok (x.enqueue (op x))

/-- `ACCRD`, `ACCWR`, `ACCSCL` and `ACCZ` (R281). -/
def accForm (i : Instr) (kind : MatKind) (c : BitVec 6) : State → Answer :=
  let op := fun x : Who => x.newOp kind (x.commonWords c.toNat 8)
  issueUniform (wordOf i) ⟨[matRegs c.toNat 8], true, none, noRights⟩
    (fun x => if (x.commonPoison c.toNat 8).isNone then matStall x (op x) else none) fun x =>
      match x.commonPoison c.toNat 8 with
      | some q => .fault (poisonFault q 2)
      | none => .ok (x.enqueue (op x))

def execAccrd (c : BitVec 6) : State → Answer := accForm (.accrd c) .accrd c
def execAccwr (c : BitVec 6) : State → Answer := accForm (.accwr c) .accwr c
def execAccscl (c : BitVec 6) : State → Answer := accForm (.accscl c) .accscl c
def execAccz (c : BitVec 6) : State → Answer := accForm (.accz c) .accz c

/-- Order 7 of `WBINV` (R286): the source's cluster-window offset, if there is one. -/
def Who.wbinvSource (x : Who) (a : BitVec 4) (m : BitVec 8) : Except FaultInfo (Option Nat) :=
  let src := x.w.addr a.toNat
  let v := src.val.toNat
  let n := 65536 * (setBits m.toNat).length
  if (setBits m.toNat).any fun i => x.s.gangSegs x.w.gang ≤ i then .error ⟨cProtect, 0x5#32, 0⟩
  else if a = 0#4 then .ok none
  else
    match src.poison with
    | some q => .error (poisonFault q 0)
    | none =>
      if v / 2 ^ 56 ≠ 0xFE then .error (protectAt 0x4 .r src.val)
      else if v % 128 ≠ 0 then .error ⟨cMisalign, src.val.setWidth 32, src.val⟩
      else if bitsOf v 21 35 ≠ 0 ∨ 0x1FFFFF < v % 2 ^ 21 + n - 1 then .error (protectAt 0x7 .r src.val)
      else
        let lo := v % 2 ^ 21 / 2 ^ 17
        let hi := (v % 2 ^ 21 + n - 1) / 2 ^ 17
        match ((List.range (hi + 1 - lo)).map fun i => lo + i).find? fun b =>
            !x.s.bankOk x.w.quad (x.s.tagOf x.w) (some x.w.gang) b with
        | some b => .error (bankFault .r b src.val)
        | none => .ok (some (v % 2 ^ 21))

def execWbinv (a : BitVec 4) (m : BitVec 8) : State → Answer :=
  let op := fun (x : Who) (src : Option Nat) => { x.newOp .wbinv [] with mask := m.toNat, src := src }
  issueUniform (wordOf (.wbinv a m)) ⟨[], decide (m ≠ 0#8), none, noRights⟩
    (fun x => match x.wbinvSource a m with
      | .ok src => matStall x (op x src)
      | .error _ => none) fun x =>
      match x.wbinvSource a m with
      | .error f => .fault f
      | .ok src => .ok (x.enqueue (op x src))

/-- Registers `MSTAT` writes (R287). -/
def Who.mstat (x : Who) (sel : Nat) : List Word :=
  let tag := x.s.tagOf x.w
  if sel < 15 then x.s.slotWords x.w.quad sel tag
  else
    let mine := (x.s.matops.filter fun o => decide (o.gang = x.w.gang) && !o.done).length
    [ BitVec.ofNat 32 (mine + x.s.reservations x.w.quad * 256),
      BitVec.ofNat 32 (((List.range 15).map fun k => if x.s.checkTag tag 9 (x.w.quad * 15 + k) then 2 ^ k else 0).sum) ]

def execMstat (c : BitVec 6) (s : BitVec 8) : State → Answer :=
  let sel := s.toNat
  issueUniform (wordOf (.mstat c s)) ⟨[matRegs c.toNat (if sel = 0x10 then 2 else 8)], decide (sel < 15) || decide (sel = 16),
    none, noRights⟩ noStallU fun x => .ok (x.put x.s c.toNat ((x.mstat sel).map fun v => ⟨v, none⟩))

end Sys2Proof.Machine
end

