-- ==== Sys2Proof/Machine/Collective.lean ====
section
/-! DEFINITION. The island's collectives (R393-R396). -/

namespace Sys2Proof.Machine

/-! ### Issue (R394) -/

/-- The fields of a collective descriptor (R393). -/
structure CollDesc where
  src : DWord
  dst : DWord
  stamp : DWord
  count : Nat
  ranks : Nat
  op : Nat
  scope : Nat
  cid : Nat
  root : Nat
  reserved : Bool
deriving DecidableEq, Repr

def collDescOf (bs : List Byte) : CollDesc :=
  { src := BitVec.ofNat 64 (fieldAt bs 0 8)
    dst := BitVec.ofNat 64 (fieldAt bs 8 8)
    stamp := BitVec.ofNat 64 (fieldAt bs 16 8)
    count := fieldAt bs 24 4
    ranks := fieldAt bs 28 2
    op := fieldAt bs 30 1
    scope := fieldAt bs 31 1 % 8
    cid := fieldAt bs 32 1 % 64
    root := fieldAt bs 34 2
    reserved := decide (8 ≤ fieldAt bs 31 1) || decide (64 ≤ fieldAt bs 32 1) || decide (fieldAt bs 33 1 ≠ 0) ||
      decide (fieldAt bs 36 28 ≠ 0) }

/-- Functions: 0 AR, 1 RS, 2 AG, 3 BC. Bytes of a source and of a destination. -/
def CollDesc.srcBytes (d : CollDesc) (fn : Nat) : Nat := if fn = 1 then d.ranks * d.count else d.count
def CollDesc.dstBytes (d : CollDesc) (fn : Nat) : Nat := if fn = 2 then d.ranks * d.count else d.count

/-- The checks of R396 that concern one contribution; 0 is none. -/
def CollDesc.reason (d : CollDesc) (fn rank : Nat) : Nat :=
  firstReason
    [ (1, if 2 ≤ fn then decide (d.op ≠ 0) else decide (10 < d.op)),
      (2, decide (d.scope < 2) || decide (4 < d.scope)),
      (3, decide (d.count < 4) || decide (16777216 < d.count) || decide (d.count % 4 ≠ 0) || decide (d.ranks = 0) ||
        decide (d.ranks ≤ d.root)),
      (4, d.reserved),
      (5, decide (d.ranks ≤ rank)) ]

/-- Translate `n` bytes page by page: their physical pieces. -/
def Who.pages (x : Who) (k : AccKind) (va : DWord) (n : Nat) : Nat → Except FaultInfo (List (Nat × Nat))
  | 0 => .ok []
  | fuel + 1 =>
    if n = 0 then .ok []
    else if va.toNat / 2 ^ 56 ≠ 0 ∧ va.toNat / 2 ^ 56 ≠ 0xFE then .error (protectAt 0x4 k va)
    else
      let len := min n (4096 - va.toNat % 4096)
      match x.s.translate x.w k false va len with
      | .error f => .error f
      | .ok (.mem a) =>
        match x.pages k (va + BitVec.ofNat 64 len) (n - len) fuel with
        | .error f => .error f
        | .ok r => .ok ((a, len) :: r)
      | .ok _ => .error (protectAt 0x4 k va)

/-- Order 7 of `COLL`: the state after its reads, and the contribution. -/
def Who.collPlan (x : Who) (fn : Nat) (ab : BitVec 4) (sc : BitVec 8) (col : BitVec 3) (t : Option Thread) :
    Except FaultInfo (State × Contribution) :=
  let a := x.w.addr ab.toNat
  let r := x.engineRegs t sc
  match a.poison with
  | some q => .error (poisonFault q 0)
  | none =>
    if a.val.toNat % 64 ≠ 0 then .error ⟨cMisalign, a.val.setWidth 32, a.val⟩
    else
      match x.readAt x.s a.val 64 with
      | .error f => .error f
      | .ok (s1, bs) =>
        match (joinAll bs).join (r.poison 1) with
        | some q => .error (poisonFault q 2)
        | none =>
          let d := collDescOf (bs.map (·.1))
          let rank := (r.read r.first).val.toNat
          let n := d.srcBytes fn
          let m := d.dstBytes fn
          match x.pages .r d.src n (n / 4096 + 2), x.pages .w d.dst m (m / 4096 + 2), x.stampAt d.stamp with
          | .error f, _, _ => .error f
          | .ok _, .error f, _ => .error f
          | .ok _, .ok _, .error f => .error f
          | .ok src, .ok dst, .ok stamp =>
            let reason := d.reason fn rank
            .ok (s1,
              { id := 0, wg := x.w.uid, tid := t.map (·.tid), launch := x.w.launch, quad := x.w.quad
                tenant := x.s.tagOf x.w, fn := fn, scope := d.scope, inst := x.s.barrierInst x.w d.scope, cid := d.cid
                op := d.op, count := d.count, ranks := d.ranks, root := d.root, rank := rank, src := src, dst := dst
                stampPa := stamp, col := col.toNat, hit := none, stage := if reason = 0 then .sent else .failed reason })

def State.installColl (s : State) (c : Contribution) : State :=
  let (i, s1) := s.fresh
  { s1 with colls := s1.colls ++ [{ c with id := i }] }

/-- The stall of a `COLL`: the full counter, own stores to the descriptor not yet done. -/
def collStall (x : Who) (ab : BitVec 4) (cnts : List Counters) (plans : List (Except FaultInfo (State × Contribution))) :
    Option Nat :=
  let go := plans.any fun p => match p with
    | .ok _ => true
    | .error _ => false
  let own := match x.s.translate x.w .r false (x.w.addr ab.toNat).val 64 with
    | .ok l => x.runOverlaps l 64
    | .error _ => false
  if ¬ go then none
  else if cnts.any fun c => decide (255 ≤ c.colls) then some 6
  else if own then some 3
  else none

/-- A collective instruction: per thread, or once on the vamp (R394). A field sc of 0xC0 to 0xFF makes it neither; its `ILLEGAL` is raised
as a uniform instruction's, for every thread of the run, whose guards do not matter (log 101). -/
def collForm (i : Instr) (fn : Nat) (ab : BitVec 4) (sc : BitVec 8) (col : BitVec 3) : State → Answer :=
  if sc.toNat < 0x80 then
    let plan := fun (x : Who) (t : Thread) => x.collPlan fn ab sc col (some t)
    issueThread (wordOf i) (.plain [.v sc.toNat 1]) false
      (fun x ts => collStall x ab (ts.map (·.cnt)) (ts.map (plan x))) fun x t =>
        match plan x t with
        | .error f => .fault f t
        | .ok (_, c) =>
          .ok { t with cnt := t.cnt.add .coll 1 } none [fun s => match x.readAt s (x.w.addr ab.toNat).val 64 with
            | .ok (s1, _) => s1.installColl c
            | .error _ => s.installColl c]
  else
    let plan := fun x : Who => x.collPlan fn ab sc col none
    issueUniform (wordOf i) ⟨[.c (sc.toNat - 0x80) 1 sc.toNat], decide (sc.toNat < 0xC0), none, noRights⟩
      (fun x => collStall x ab [x.w.common] [plan x]) fun x =>
        match plan x with
        | .error f => .fault f
        | .ok (s1, c) => .ok ((s1.counter x.w.uid none .coll 1).installColl c)

def execCollAr (a : BitVec 4) (s : BitVec 8) (c : BitVec 3) : State → Answer := collForm (.collAr a s c) 0 a s c
def execCollRs (a : BitVec 4) (s : BitVec 8) (c : BitVec 3) : State → Answer := collForm (.collRs a s c) 1 a s c
def execCollAg (a : BitVec 4) (s : BitVec 8) (c : BitVec 3) : State → Answer := collForm (.collAg a s c) 2 a s c
def execCollBc (a : BitVec 4) (s : BitVec 8) (c : BitVec 3) : State → Answer := collForm (.collBc a s c) 3 a s c

/-! ### Phases (R395) -/

/-- The twin's own contribution that takes its completion from this one (R379). -/
def State.twinColl (s : State) (c : Contribution) : Option Contribution :=
  match (s.wg? c.wg).bind fun w => w.twin with
  | none => none
  | some u => s.colls.find? fun d => decide (d.wg = u) && decide (d.tid = c.tid) && decide (d.stage = .sent) &&
      decide (d.cid = c.cid) && decide (d.scope = c.scope) && decide (d.rank = c.rank) && decide (d.fn = c.fn)

/-- The bytes of physical pieces. -/
def State.pieceBytes (s : State) (c : Contribution) (ps : List (Nat × Nat)) : List (Byte × Poison) :=
  ps.flatMap fun p => (List.range p.2).map fun i =>
    let r := (s.engineRead c.quad c.tenant (p.1 + i) 1).2
    (BitVec.ofNat 8 r.1, r.2)

/-- Element `e` of a source. -/
def wordAt (bs : List (Byte × Poison)) (e : Nat) : Reg :=
  let w := (bs.drop (4 * e)).take 4
  ⟨BitVec.ofNat 32 (leNat (w.map (·.1))), joinAll w⟩

/-- The least n with P ≤ 2^n. -/
def treeDepth (p : Nat) : Nat := bitLength (p - 1)

/-- The reduction of element `e` over ranks (R195, R395); a NaN is canonical, a single rank's too (R135). -/
def reduceAt (op ranks : Nat) (xs : List (List (Byte × Poison))) (e : Nat) : List (Byte × Poison) :=
  let leaf := fun j => if j < ranks then some (wordAt (xs.getD j []) e) else none
  let n := treeDepth ranks
  let r := (wredTree op n ((List.range (2 ^ n)).map leaf)).getD ⟨0, none⟩
  (wredResult op r).bytes

/-- What a rank's destination receives. -/
def collResult (c : Contribution) (xs : List (List (Byte × Poison))) : List (Byte × Poison) :=
  match c.fn with
  | 0 => (List.range (c.count / 4)).flatMap fun e => reduceAt c.op c.ranks xs e
  | 1 => (List.range (c.count / 4)).flatMap fun e => reduceAt c.op c.ranks xs (c.rank * (c.count / 4) + e)
  | 2 => xs.flatten
  | _ => xs.getD c.root []

/-- Whether a phase may complete: every rank is there; ranks of other devices that have registered may be, which is a free choice (R391,
log 8). -/
def State.phaseFull (s : State) (c : Contribution) (ph : List Contribution) : Bool :=
  let missing := (List.range c.ranks).filter fun r => !(ph.any fun d => d.rank = r)
  missing.isEmpty || (decide (c.scope = 4) && ((s.launch? c.launch).any fun l => decide (1 < l.poddevs) && s.othersRegistered l) &&
    s.choose 0)

/-- The sources of a phase by rank; another device's is not in this state. -/
def State.sources (s : State) (c : Contribution) (ph : List Contribution) : List (List (Byte × Poison)) :=
  (List.range c.ranks).map fun r =>
    match ph.find? fun d => d.rank = r with
    | some d => if c.fn = 3 ∧ r ≠ c.root then [] else (s.pieceBytes d d.src).map fun b => (b.1, d.hit.join b.2)
    | none => (s.freeBytes (64 + r) (c.count * if c.fn = 1 then c.ranks else 1)).map fun b => (b, none)

/-- End a phase: every contribution of it, and its twin's, takes its outcome; an error on the way of a source is in the sources then. -/
def State.endPhase (s : State) (ph : List Contribution) (f : Contribution → CollStage) : State :=
  ph.foldl (fun (s : State) d =>
    let s1 := s.onColl d.id fun c => { c with stage := f d, hit := none }
    match s.twinColl d with
    | some t => s1.onColl t.id fun c => { c with stage := f d, hit := none }
    | none => s1) s

/-- Complete a phase that is full. -/
def State.settlePhase (s : State) (c : Contribution) : State :=
  let ph := s.phaseOf c
  if s.phaseFull c ph then
    let xs := s.sources c ph
    s.endPhase ph fun d => .result (collResult d xs)
  else s

/-- Check 0x06 of R396: fields that must agree within a phase. -/
def Contribution.agrees (a b : Contribution) : Bool :=
  decide (a.count = b.count) && decide (a.ranks = b.ranks) && decide (a.op = b.op) && decide (a.root = b.root) &&
    decide (a.fn = b.fn)

/-- Whether an older contribution of the same rank waits for a phase of the instance: it takes the next one first (R395). -/
def State.rankBehind (s : State) (c : Contribution) : Bool :=
  s.colls.any fun d => decide (d.id < c.id) && decide (d.stage = .sent) && d.sameInst c && decide (d.rank = c.rank) &&
    !s.secondary (some d.wg)

/-- Whether a contribution may be counted now: its issuer's earlier stores are performed (R231), an instance is free, its
rank is not in the phase and no older one of the rank waits; a twin's only with its fellow's. -/
def State.mayCount (s : State) (c : Contribution) : Bool :=
  decide (c.stage = .sent) && !s.storesOpen (some c.wg) c.tid c.id && !s.collWaits c && !s.rankBehind c && !s.secondary (some c.wg) &&
    (((s.wg? c.wg).bind fun w => w.twin).isNone || (s.twinColl c).isSome)

/-- `COLL_CONTRIBUTION` (R395): a contribution counts in its phase, which it may complete or fail. -/
def execCollContribution (id : Nat) (s : State) : Answer :=
  match s.coll? id with
  | none => done s
  | some c =>
    if s.mayCount c then
      let s1 := s.onColl id fun c => { c with stage := .counted }
      let ph := s1.phaseOf c
      if ph.any fun d => !d.agrees c then done (s1.endPhase ph fun _ => .failed 6)
      else done (s1.settlePhase c).advanceFree
    else done s

/-! ### Completion -/

/-- Lower the collectives counter once for each oldest contribution of an issuer that has completed (R89). -/
def State.drainColls (s : State) (uid : Nat) (tid : Option Nat) : Nat → State
  | 0 => s
  | n + 1 =>
    match s.colls.find? fun c => decide (c.wg = uid) && decide (c.tid = tid) with
    | some c =>
      if c.stage = .done then
        (({ s with colls := s.colls.filter fun d => d.id ≠ c.id } : State).complete uid tid .coll).drainColls uid tid n
      else s
    | none => s

/-- Write a contribution's destination, byte by byte; a poisoned element that would leave the device is not written. -/
def State.writePhys (s : State) (c : Contribution) : List (Nat × Nat) → List (Byte × Poison) → State
  | [], _ => s
  | (a, n) :: ps, bs =>
    let s1 := ((bs.take n).zipIdx).foldl (fun (s : State) x =>
      let (b, q) := x.1
      if regionOf a = 2 ∧ q.isSome then s
      else if s.secondary (some c.wg) ∧ regionOf a ≠ 4 then s
      else s.engineWrite c.quad c.launch c.tenant 2 (a + x.2) 0 [b] [0xFF#8] q) s
    s1.writePhys c ps (bs.drop n)

/-- Whether a destination on the host would receive poison. -/
def hostPoisoned : List (Nat × Nat) → List (Byte × Poison) → Bool
  | [], _ => false
  | (a, n) :: ps, bs => (decide (regionOf a = 2) && (bs.take n).any fun b => b.2.isSome) || hostPoisoned ps (bs.drop n)

/-- Status, stamp or record; then the counter. -/
def State.sealColl (s : State) (c : Contribution) (reason : Nat) : State :=
  let st := if reason = 0 then 0 else 1 + reason * 256
  let s1 := match c.stampPa with
    | some a => s.engineStamp c.quad c.launch c.tenant 2 (some c.wg) a st 0
    | none => if reason = 0 then s else s.engineFail 2 c.quad c.launch c.tenant 1 reason
  let s2 := s1.onColl c.id fun c => { c with stage := .done }
  s2.drainColls c.wg c.tid s2.colls.length

/-- `COLLECTIVE_COMPLETE` (R395, R396). A phase that waits for other devices only is looked at again. -/
def execCollectiveComplete (id : Nat) (s : State) : Answer :=
  match s.coll? id with
  | none => done s
  | some c =>
    match c.stage with
    | .result xs =>
      let bs := xs.map fun b => (b.1, c.hit.join b.2)
      done ((s.writePhys c c.dst bs).sealColl c (if hostPoisoned c.dst bs then 0x0B else 0)).advanceFree
    | .failed r => done (s.sealColl c r)
    | .counted => if c.scope = 4 then done (s.settlePhase c).advanceFree else done s
    | _ => done s

/-- A participating endpoint or device is gone (R396, reason 0x0D): every phase with a contribution that `lost` names. -/
def State.failPhases (s : State) (lost : Contribution → Bool) : State :=
  let hit := s.colls.filter fun c => decide (c.stage = .counted) && s.colls.any fun d =>
    decide (d.stage = .counted) && d.sameInst c && lost d
  s.endPhase hit fun _ => .failed 0x0D

end Sys2Proof.Machine
end

