-- ==== Sys2Proof/Machine/Gang.lean ====
section
/-! DEFINITION. Distributors, placement, pre-emption, time slices and the ends of launches (R303-R316). -/

namespace Sys2Proof.Machine

/-! ### Starting a workgroup (R31, R103, R104, R126, R173, R296) -/

def startThread (tid regs : Nat) (args : Option (Word × Word)) : Thread :=
  let zero : List Reg := List.replicate regs ⟨0, none⟩
  { tid := tid, place := .exited, spilled := false
    bank := match args with
      | some (x, y) => (zero.set 0 ⟨x, none⟩).set 1 ⟨y, none⟩
      | none => zero
    win := [], dead := [], pending := [], preds := List.replicate 8 ⟨false, none⟩
    fpc := 0, fcause := 0, finfo := 0, fmask := 0, faddr := 0, fflags := 0, fen := 0, mode := 0, clkh := 0
    inTrap := false, hints := Hints.none, saved := none, resume := false, cnt := Counters.zero, shadowId := 256
    shadowWord := 0, suppress := false, block := .none, owes := false }

/-- The records of a workgroup of a pool launch (R299). -/
def Launch.recordsOf (l : Launch) (num : Nat) : Option (List PoolRec) :=
  l.pool.map fun p => (p.drop (num * l.threads)).take l.threads

/-- Threads of workgroup `num` of a launch. -/
def Launch.threadsOf (l : Launch) (num : Nat) : Nat :=
  match l.recordsOf num with
  | some r => r.length
  | none => l.threads

/-- The keys at which its threads start. -/
def Launch.startKeys (l : Launch) (num : Nat) : List Nat :=
  match l.recordsOf num with
  | some r => r.map fun x => x.pc
  | none => List.replicate l.threads 0

/-- Workgroups of gang number `g`. -/
def Launch.gangSize (l : Launch) (g : Nat) : Nat := min l.wpg (l.nwg - g * l.wpg)

def startWg (l : Launch) (g : Gang) (uid rank core slot base : Nat) (twin : Option Nat) : Wg :=
  let num := g.num * l.wpg + rank
  let args := fun t : Nat => ((l.recordsOf num).bind fun r => r[t]?).map fun x => (x.arg0, x.arg1)
  { uid := uid, launch := l.id, gang := g.uid, rank := rank, num := num, core := core, slot := slot, base := base
    nthr := l.threadsOf num, quota := l.regs, budget := l.regs, commons := List.replicate l.commons ⟨0, none⟩
    addrs := [⟨0, none⟩, ⟨l.args, none⟩,
        ⟨BitVec.ofNat 64 (0xFE * 2 ^ 56 + (if g.banks = 0 then 0 else g.bank0) * 2 ^ 17), none⟩,
        ⟨BitVec.ofNat 64 (0xFD * 2 ^ 56), none⟩] ++ List.replicate 12 ⟨0, none⟩
    tvec := 0, common := Counters.zero, scratch := l.scratch, stalls := List.replicate 16 0, dbg := .running
    trace := false, threads := (List.range (l.threadsOf num)).map fun t => startThread t l.regs (args t)
    status := .resident, held := [], shadow := none, rolled := false, mismatched := false, agreed := false, issuing := false
    twin := twin, primary := !g.isTwin, inbox := [], savedEntries := [], away := false }

/-! ### World latches (R359) -/

/-- Whether nothing is placed, moving or queued on a quad. -/
def State.quadEmpty (s : State) (quad : Nat) : Bool :=
  (s.gangs.all fun g => g.quad ≠ quad ∨ (g.status ≠ .placed ∧ g.status ≠ .draining)) &&
    (s.copies.all fun c => c.quad ≠ quad) && (s.score.all fun e => e.quad ≠ quad) &&
    (s.matops.all fun o => o.quad ≠ quad) && s.inbound.all fun i => i.bank / 16 ≠ quad

/-- Clear a quad's unified stores, banks, accumulator blocks, segments, descriptor slots and translation entries. -/
def State.clearQuad (s : State) (quad : Nat) : State :=
  let s1 := (s.clearMem (sramBase (quad * 16)) (2 ^ 21)).clearMem (wbufBase (quad * 8)) (2 ^ 19)
  { s1 with
    l1 := s1.l1.filter fun x => x.core / 4 ≠ quad
    acc := Table.clear s1.acc (quad * 2 ^ 17) (2 ^ 17)
    accPoison := Table.clear s1.accPoison (quad * 2 ^ 17) (2 ^ 17)
    slots := Table.clear s1.slots (quad * 128) 128
    tlb := Table.clear s1.tlb (quad * 2048) 2048 }

/-- A latch takes a world, over a cleared quad (R359); one that has it already stays. -/
def State.relatch (s : State) (quad world : Nat) : State :=
  if s.latch quad = world then s else (s.clearQuad quad).cfgSet (0x07000000 + quad) (BitVec.ofNat 32 world)

/-! ### Whether a gang fits (R15, R31, R236, R264, R305) -/

/-- The lowest run of `n` consecutive units among `total` that `ok` allows. -/
def lowestRun (total n : Nat) (ok : Nat → Bool) : Option Nat :=
  if n = 0 then some 0
  else (List.range (total + 1 - n)).find? fun b => (List.range n).all fun i => ok (b + i)

/-- Gangs that hold units of a quad. -/
def State.gangsOn (s : State) (quad : Nat) : List Gang :=
  s.gangs.filter fun g => decide (g.quad = quad) && (decide (g.status = .placed) || decide (g.status = .draining))

def inRun (first n i : Nat) : Bool := decide (first ≤ i) && decide (i < first + n)

def State.coreWgs (s : State) (core : Nat) : List Wg := s.wgs.filter fun w => decide (w.core = core) && w.isResident

/-- The lowest free workgroup slot of a core. -/
def State.freeWgSlot (s : State) (core : Nat) : Option Nat :=
  (List.range 16).find? fun k => !((s.coreWgs core).any fun w => w.slot = k)

/-- The lowest base at which `n` threads fit among the free thread slots of a core. -/
def State.freeBase (s : State) (core n : Nat) : Option Nat :=
  (List.range (2049 - n)).find? fun b => (s.coreWgs core).all fun w => decide (b + n ≤ w.base) || decide (w.base + w.nthr ≤ b)

/-- Store bytes a workgroup needs (R15); guarded execution doubles them (R376). -/
def Launch.storeNeed (l : Launch) (nthr quota : Nat) : Nat := (4 * quota * nthr + l.scratch) * if l.guarded then 2 else 1

/-- Whether a core takes a workgroup of a launch. -/
def State.coreTakes (s : State) (l : Launch) (core nthr quota : Nat) : Bool :=
  s.checkTag l.tenant 1 core && !s.quieting.contains (1, core) && (s.freeWgSlot core).isSome && decide (nthr ≤ 2048) && (s.freeBase core nthr).isSome &&
    decide (s.coreUse core s.nextId 0 + l.storeNeed nthr quota ≤ 472 * 1024)

/-- Assign a gang's workgroups, by threads and quota, to distinct cores, lowest first. -/
def assignCores (ok : Nat → Nat × Nat → Bool) : List (Nat × Nat) → List Nat → Option (List Nat)
  | [], _ => some []
  | w :: ws, cores =>
    (List.range cores.length).findSome? fun i =>
      let c := cores.getD i 0
      if ok c w then (assignCores ok ws (cores.eraseIdx i)).map fun r => c :: r else none

/-- Banks a launch is allotted per gang: guarded execution doubles them (R376). -/
def Launch.banksNeed (l : Launch) : Nat := if l.guarded then 2 * l.banks else l.banks

/-- Bytes of a gang's image in whole frames (R314). -/
def Launch.imageFrames (l : Launch) (num : Nat) : Nat :=
  let ws := (List.range (l.gangSize num)).map fun r => 4 * l.regs * l.threadsOf (num * l.wpg + r) + l.scratch + 16384
  (ws.sum + l.banksNeed * 131072 + l.acc * 262144 + l.wbuf * 65536 + 65536 + 65535) / 65536

/-- The time-slice list of a quad: its entries up to the first that is not valid (R315, R371). -/
def State.sliceList (s : State) (quad : Nat) : List Word :=
  ((List.range 4).map fun e => s.cfgGet (0x03000000 + 4 * quad + e)).takeWhile fun x => x.getLsbD 4

/-- The partition whose slice a shared quad is in; none for a quad that is not shared (R315). -/
def State.slicePart (s : State) (quad : Nat) : Option Nat :=
  let l := s.sliceList quad
  (l[Table.get 0 s.slice quad % max 1 l.length]?).map fun x => (fld x 0 4).toNat

/-- Threads and quota of each workgroup of a gang. -/
def State.gangShape (s : State) (l : Launch) (g : Gang) : List (Nat × Nat) :=
  if g.status = .saved then (s.wgs.filter fun w => decide (w.gang = g.uid) && decide (w.status = .preempted)).map fun w => (w.nthr, w.quota)
  else (List.range (l.gangSize g.num)).map fun r => (l.threadsOf (g.num * l.wpg + r), l.regs)

/-- Where a gang would stand on a quad. -/
structure Spot where
  quad : Nat
  cores : List Nat
  bank0 : Nat
  acc0 : Nat
  seg0 : Nat
  room : List Nat
deriving DecidableEq, Repr

/-- Cores of a quad a gang may take: the runtime wave has the core of its descriptor (R320). -/
def State.coreChoices (s : State) (l : Launch) (quad : Nat) : List Nat :=
  if l.wave then ((s.tenant? l.tenant).map fun t => t.core).toList.filter fun c => c / 4 = quad
  else (List.range 4).map (quad * 4 + ·)

/-- The number under which CW4 keeps a context of a world (R365). -/
def ctxKey (world : Nat) (c : Ctx) : Nat :=
  match c with
  | .gang g => 4 * g
  | .frames f n => 4 * ((f * 2 ^ 24 + n) * 16 + world) + 1
  | .world w => 4 * w + 2

/-- Whether a saved gang's image may be opened: a protected world's only once its target has accepted it (R365). -/
def State.imageOpen (s : State) (l : Launch) (g : Gang) : Bool :=
  decide (g.status ≠ .saved) || decide (l.world = 0) || (!g.moved && match g.sealedEpoch with
    | some e => s.consumed.contains (ctxKey l.world (.gang g.uid), e)
    | none => false)

/-- Whether a unit of a quad is bound to a tenant and is not being made quiet for a change of its binding (R328, R331). -/
def State.unitFree (s : State) (t : Tag) (kind id : Nat) : Bool := s.checkTag t kind id && !s.quieting.contains (kind, id)

/-- The context room of a gang: what it holds since a pre-emption, or the lowest free frames; the runtime wave has what CREATE kept for
it (R314). -/
def State.gangFrames (s : State) (l : Launch) (g : Gang) : Option (List Nat) :=
  if g.status = .saved then some g.room
  else if l.wave then (s.tenant? l.tenant).map fun t => t.room
  else s.roomFor (Tag.part l.tenant) g.uid [] (l.imageFrames g.num)

/-- Whether gangs are still leaving a shared quad while saved gangs of the incoming partition are to be restored: its new gangs come after
those (R315). -/
def State.comingBack (s : State) (quad part : Nat) : Bool :=
  (s.gangsOn quad).any (fun o => o.status = .draining) &&
    s.gangs.any fun h => h.back && decide (h.status = .saved) && decide (h.die = quad / 96) &&
      (s.launch? h.launch).any fun m => Tag.part m.tenant = part

/-- Whether a handover has sealed the world of a launch, or frames of its tenant that wait for their commit: nothing of it starts (R365). -/
def State.prepared (s : State) (l : Launch) : Bool :=
  s.sealedCtxs.any fun c => match c.ctx with
    | .gang _ => false
    | .world w => decide (w = l.world)
    | .frames f n => decide (c.epoch = Table.get 0 s.epochs (ctxKey c.world c.ctx)) &&
        (List.range n).any fun i => s.tagGet 6 (f + i) = l.tenant

/-- R305 for one quad, whose latch is its world's or may be changed, which a quad with a reservation, also of the gang itself, may not
(R359); a quad of a world whose keys are being destroyed takes no new gang (R364). -/
def State.fits (s : State) (l : Launch) (g : Gang) (quad : Nat) : Option Spot :=
  let others := s.gangsOn quad
  let part := Tag.part l.tenant
  let held := Table.get 0 s.reserved quad
  if decide (s.slicePart quad = none ∨ s.slicePart quad = some part) &&
      (decide (s.latch quad = l.world) || (s.quadEmpty quad && decide (held = 0))) &&
      !(decide (g.status = .never) && decide (s.slicePart quad = some part) && s.comingBack quad part) &&
      decide (s.keySlots[l.world]? ≠ some .revoking) && s.imageOpen l g && !s.prepared l &&
      (decide (held = 0) || decide (held = g.uid + 1)) then
    match assignCores (fun c w => s.coreTakes l c w.1 w.2) (s.gangShape l g) (s.coreChoices l quad),
        lowestRun 16 l.banksNeed fun i => s.unitFree l.tenant 2 (quad * 16 + i) && !(others.any fun o => inRun o.bank0 o.banks i),
        lowestRun 4 l.acc fun i => s.unitFree l.tenant 3 (quad * 4 + i) && !(others.any fun o => inRun o.acc0 o.accs i),
        lowestRun 8 l.wbuf fun i => s.unitFree l.tenant 4 (quad * 8 + i) && !(others.any fun o => inRun o.seg0 o.segs i),
        s.gangFrames l g with
    | some cs, some b, some a, some w, some room => some ⟨quad, cs, b, a, w, room⟩
    | _, _, _, _, _ => none
  else none

/-- The lowest quad of a die on which a gang fits. -/
def State.spotOn (s : State) (l : Launch) (g : Gang) : Option Spot :=
  if (s.die? g.die).endp ≠ .attached then none
  else (List.range 96).findSome? fun q => s.fits l g (g.die * 96 + q)

/-- The twin of a gang. -/
def State.twinGang (s : State) (g : Gang) : Option Gang :=
  s.gangs.find? fun h => decide (h.launch = g.launch) && decide (h.num = g.num) && decide (h.isTwin ≠ g.isTwin)

/-! ### Placement -/

/-- Threads of a new workgroup arrive at their first keys. -/
def State.startThreads (s : State) (uid : Nat) (keys : List Nat) : State :=
  (keys.zipIdx).foldl (fun (s : State) k => s.arrive uid k.2 k.1 .ready none) s

/-- Renew the shadow of a guarded workgroup at the start of an interval (R377). -/
def State.renewShadow (s : State) (uid : Nat) : State :=
  match s.wg? uid with
  | none => s
  | some w => if s.isGuarded w then s.onWg uid fun v => { v with shadow := some (s.snapshot w) } else s

/-- The allotments of a spot. -/
def Gang.settle (g : Gang) (l : Launch) (p : Spot) : Gang :=
  { g with quad := p.quad, bank0 := p.bank0, banks := l.banksNeed, acc0 := p.acc0, accs := l.acc, seg0 := p.seg0
           segs := l.wbuf, room := p.room, status := .placed, waitSince := none, sealedEpoch := none, back := false, moved := false }

/-- Place a gang that has never been placed: its workgroups, on the cores of the spot. `twins` are the uids of its twin's
workgroups, if those exist already. -/
def State.placeNew (s : State) (l : Launch) (g : Gang) (p : Spot) (twins : List Nat) : State :=
  let g1 := { g.settle l p with home0 := p.bank0 }
  let s1 := s.onGang g.uid fun _ => g1
  (p.cores.zipIdx).foldl (fun (s : State) c =>
    let (uid, s) := s.fresh
    let n := l.threadsOf (g.num * l.wpg + c.2)
    let w := startWg l g1 uid c.2 c.1 ((s.freeWgSlot c.1).getD 0) ((s.freeBase c.1 n).getD 0) twins[c.2]?
    let s1 : State := { s with wgs := s.wgs ++ [w] }
    let s2 := match twins[c.2]? with
      | some u => s1.onWg u fun v => { v with twin := some uid }
      | none => s1
    (s2.startThreads uid (l.startKeys w.num)).renewShadow uid) s1

/-! ### Pre-emption (R311-R313) -/

/-- The key at which a run's thread stands when the run is cut: its next word, or the first of the hints before it (R57,
R79). -/
def Run.cutKey (r : Run) (grp : Nat) : Nat :=
  let i := r.idx + if grp < r.grp then 1 else 0
  r.key + i - (((r.words.take i).reverse.takeWhile isHintWord).length)

/-- A thread of a cut run: its results are written; hints that were reinstated for the word it stands at stay pending (R79). -/
def Thread.cut (t : Thread) (fresh : Bool) : Thread := if fresh then t.flush else t.endBlock

/-- Cut a run at an instruction boundary: threads through the terminator go where it sent them, the others wait at their next
word, with no hint pending but those reinstated for it. -/
def State.cutRun (s : State) (r : Run) : State :=
  let s0 := s.dropRun r
  let s1 := s0.onWg r.wg fun w =>
    { w with threads := w.threads.map fun t =>
        if r.parked.any (fun p => p.tid = t.tid) then t.endBlock
        else if r.groups.any (·.contains t.tid) then t.cut (decide (r.cutKey (r.groups.findIdx (·.contains t.tid)) = r.key))
        else t }
  let s2 := r.parked.foldl (fun (s : State) p => s.park r.wg p) s1
  ((r.groups.zipIdx).foldl (fun (s : State) g =>
    g.1.foldl (fun (s : State) t => s.arrive r.wg t (r.cutKey g.2) .ready none) s) s2)

/-- Cut the runs of a gang but for uniform blocks, which go on to their end (log 30). `all` cuts those too: a stopped launch. -/
def State.cutRuns (s : State) (gid : Nat) (all : Bool) : State :=
  let mine := s.runs.filter fun r => (all || !r.uniform) && (s.wg? r.wg).any fun w => w.gang = gid
  mine.foldl State.cutRun s

/-- Steps 1 and 2 of R312. A pair of twins is pre-empted together (R379). -/
def State.beginPreempt (s : State) (gid : Nat) : State :=
  let go := fun (s : State) (g : Gang) =>
    if g.status = .placed then
      ((s.onGang g.uid fun g => { g with status := .draining }).cutRuns g.uid false).count (s.gangTag g.uid) 0x0F 1
    else s
  match s.gang? gid with
  | none => s
  | some g =>
    match s.twinGang g with
    | some h => go (go s g) h
    | none => go s g

/-- Whether a gang is a runtime wave's, which only time-slice boundaries and the seizure of its core pre-empt (R320). -/
def State.waveGang (s : State) (g : Gang) : Bool := (s.launch? g.launch).any fun l => l.wave

/-- `PREEMPT` (R311, R312). -/
def execPreempt (g : Nat) (s : State) : Answer :=
  done (if (s.gang? g).any s.waveGang then s else s.beginPreempt g)

def State.gangWgs (s : State) (gid : Nat) : List Wg := s.wgs.filter fun w => w.gang = gid

def State.copiesOf (s : State) (gid : Nat) : List CopyOp := s.copies.filter fun c => decide (c.gang = some gid) && decide (c.stage ≠ .finished)
def State.opsOf (s : State) (gid : Nat) : List MatOp := s.matops.filter fun o => decide (o.gang = gid) && !o.done

/-- Whether a copy of a gang can go no further: it waits for an entry that a suspended copy or a pass behind one holds, and no pass of the
gang can go on (R241, log 58). -/
def State.copyStuck (s : State) (gid : Nat) (c : CopyOp) : Bool :=
  !((s.opsOf gid).any fun o => s.opGoes o || s.mayComplete o) &&
    ((decide (c.stage = .moving) && (s.copyWaits c || s.mcFull c)) || (decide (c.stage = .following) && decide (16 ≤ s.reservations c.quad)))

/-- Whether steps 3 and 4 of R312 are done: a copy that is saved has no write in the network. -/
def State.drained (s : State) (gid : Nat) : Bool :=
  let ws := s.gangWgs gid
  ws.all (fun w =>
    !(s.runs.any fun r => r.wg = w.uid) && !(s.stepping.any fun e => e.wg = w.uid || e.by' = w.uid) &&
    decide (w.status ≠ .rollingBack) && decide (w.common.loads = 0) && decide (w.common.stores = 0) &&
    decide (w.common.colls = 0) &&
    w.threads.all fun t => decide (t.cnt.loads = 0) && decide (t.cnt.stores = 0) && decide (t.cnt.colls = 0)) &&
  (s.copiesOf gid).all (fun c => (decide (c.stage = .suspended) || s.copyStuck gid c) && s.landed c) &&
    (s.opsOf gid).all fun o => !o.granted

/-- Cells of a table in [lo, lo + n), by offset. -/
def areaOf {α : Type} (t : Table α) (lo n : Nat) : List (Nat × α) :=
  (t.filter fun c => decide (lo ≤ c.1) && decide (c.1 < lo + n)).map fun c => (c.1 - lo, c.2)

/-- Put saved cells at `lo`, over `n` keys cleared. -/
def putArea {α : Type} [DecidableEq α] (d : α) (t : Table α) (lo n : Nat) (cs : List (Nat × α)) : Table α :=
  cs.foldl (fun t c => Table.set d t (lo + c.1) c.2) (Table.clear t lo n)

def Gang.bankLo (g : Gang) : Nat := sramBase (g.quad * 16 + g.bank0)
def Gang.segLo (g : Gang) : Nat := wbufBase (g.quad * 8 + g.seg0)
def Gang.accLo (g : Gang) : Nat := (g.quad * 4 + g.acc0) * 2 ^ 15

/-- The contents of a gang's units. -/
def State.saveUnits (s : State) (g : Gang) : Gang :=
  { g with
    savedBanks := areaOf s.mem g.bankLo (g.banks * 2 ^ 17)
    savedSegs := areaOf s.mem g.segLo (g.segs * 2 ^ 16)
    savedAcc := areaOf s.acc g.accLo (g.accs * 2 ^ 15)
    savedBankPoison := areaOf s.memPoison g.bankLo (g.banks * 2 ^ 17)
    savedSegPoison := areaOf s.memPoison g.segLo (g.segs * 2 ^ 16)
    savedAccPoison := areaOf s.accPoison g.accLo (g.accs * 2 ^ 15)
    savedOps := s.opsOf g.uid ++ g.savedOps
    savedCopies := s.copiesOf g.uid ++ g.savedCopies }

/-- Save a workgroup: its eyelet entries leave the core with it. -/
def State.saveWg (s : State) (w : Wg) : State :=
  let mine := s.entriesOf w ++ w.savedEntries
  let s1 : State := { s with entries := s.entries.filter fun e => !(decide (e.core = w.core) && decide (e.slot = w.slot)) }
  let s2 := (s1.onWg w.uid fun v => { v with status := .preempted, savedEntries := mine }).unspill w.core 256
  { s2 with deficit := s2.deficit.filter fun d =>
      d.1 ≠ w.core ∨ d.2.1 ≠ s.tagOf w ∨ ((s2.coreWgs w.core).any fun v => s.tagOf v = s.tagOf w) }

/-- Steps 5 and 6 of R312. -/
def State.saveGang (s : State) (g : Gang) : State :=
  let g1 := s.saveUnits g
  let s1 := (s.gangWgs g.uid).foldl (fun (s : State) w => if w.isActive then s.saveWg w else s) s
  let gone := (g1.savedOps.map fun o => o.id) ++ g1.savedCopies.map fun c => c.id
  ({ s1 with
      matops := s1.matops.filter fun o => !gone.contains o.id
      copies := s1.copies.filter fun c => !gone.contains c.id
      score := s1.score.filter fun e => !gone.contains e.op } : State).onGang g.uid fun _ =>
    { g1 with status := .saved, banks := 0, accs := 0, segs := 0 }

/-- The epoch of a context (R365). -/
def State.epochOf (s : State) (world : Nat) (c : Ctx) : Nat := Table.get 0 s.epochs (ctxKey world c)

/-- A commit advances the epoch. -/
def State.bumpEpoch (s : State) (world : Nat) (c : Ctx) : State :=
  { s with epochs := Table.set 0 s.epochs (ctxKey world c) ((s.epochOf world c + 1) % 2 ^ 64) }

/-- The world of a gang's launch. -/
def State.gangWorld (s : State) (g : Gang) : Nat := ((s.launch? g.launch).map fun l => l.world).getD 0

/-- Clear the banks, segments and accumulator blocks that a gang stood on. -/
def State.clearUnits (s : State) (g : Gang) : State :=
  let s1 := (s.clearMem g.bankLo (g.banks * 2 ^ 17)).clearMem g.segLo (g.segs * 2 ^ 16)
  { s1 with acc := Table.clear s1.acc g.accLo (g.accs * 2 ^ 15), accPoison := Table.clear s1.accPoison g.accLo (g.accs * 2 ^ 15) }

/-- Save a gang; a protected world's image is sealed with the context's epoch, its quad state is destroyed, and the commit advances the
epoch (R312, R365). -/
def State.commitSave (s : State) (g : Gang) : State :=
  let w := s.gangWorld g
  if w = 0 then s.saveGang g
  else ((s.saveGang { g with sealedEpoch := some (s.epochOf w (.gang g.uid)) }).clearUnits g).bumpEpoch w (.gang g.uid)

/-- `PREEMPT_SAVE` (R313). A pair of twins is saved together (R379). -/
def execPreemptSave (g : Nat) (s : State) : Answer :=
  match s.gang? g with
  | none => done s
  | some x =>
    let pair := (s.twinGang x).toList.filter fun h => h.status = .draining
    if x.status = .draining ∧ s.drained g ∧ pair.all fun h => s.drained h.uid then
      done (pair.foldl (fun (s : State) h => s.commitSave h) (s.commitSave x))
    else done s

/-! ### Restoring (R312) -/

/-- Move an address that lay in a gang's old banks. -/
def moveAddr (old new : Gang) (a : Nat) : Nat :=
  if old.bankLo ≤ a ∧ a < old.bankLo + new.banks * 2 ^ 17 then a - old.bankLo + new.bankLo else a

/-- A restored thread re-tests its transaction barrier or its location (R235, R261). -/
def State.retest (s : State) (old new : Gang) (w : Wg) (t : Thread) : Thread :=
  match t.place with
  | .waiting k (.tbar a ph) =>
    let b := moveAddr old new a
    if s.tbarPhase b ≠ ph then { t with place := .waiting k .ready } else { t with place := .waiting k (.tbar b ph) }
  | .waiting k (.monitor a c x none) =>
    let b := moveAddr old new a
    let m := s.monitorRead w b
    { t with place := .waiting k (.monitor b c x (if condHolds c m x then some m else none)) }
  | _ => t

/-- Put a saved workgroup on a core. The core discards the L1 words it does not own, so that no thread reads there what is older than
what it has read or written before (R223, R227); what finds no entry free is spilled (R40) till one is, and comes back with its age,
passes and overrides (R57, log 87). -/
def State.restoreWg (s : State) (old new : Gang) (w : Wg) (core : Nat) : State :=
  let slot := (s.freeWgSlot core).getD 0
  let base := (s.freeBase core w.nthr).getD 0
  let room := 256 - coreEntries s core
  let n := if s.coreSpilled core then 0 else room
  let es := (w.savedEntries.take n).map fun e => { e with core := core, slot := slot }
  let inEntry := fun t : Thread => es.any fun e => decide (t.tid / 256 = e.chunk) && e.mask.getLsbD (t.tid % 256) && decide (t.key? = some e.key)
  let s1 : State := { s with entries := s.entries ++ es }
  let w1 := { w with core := core, slot := slot, base := base }
  let s2 := s1.onWg w.uid fun _ =>
    { w1 with
      status := .resident, savedEntries := w.savedEntries.drop n
      shadow := w.shadow.map fun x => { x with
        banks := x.banks.map fun c => (moveAddr old new c.1, c.2)
        poison := x.poison.map fun c => (moveAddr old new c.1, c.2) }
      threads := w.threads.map fun t =>
        let u := s.retest old new w1 t
        { u with spilled := t.isWaiting && !inEntry t } }
  (s2.unspill core 256).dropUnowned core

/-- Hand a saved copy back to the engine of its quad, in its place in the order of issue, if the entries it held are free: one that was
suspended takes a slot and is suspended again, with a new record of what it missed (R259). -/
def State.restoreCopy (s : State) (c : CopyOp) : Option State :=
  let es := s.heldEntries c
  if ¬ es.all fun e => 0 < s.scoreFree e.quad then none
  else
    let back := fun c : CopyOp => ({ s with copies := insertBy CopyOp.id c s.copies, score := s.score ++ es } : State)
    if c.stage ≠ .suspended then some (back c)
    else
      (s.freeSlot c.quad).map fun k =>
        let (acc, va) := c.missed.getD (0, 0)
        ((back { c with slot := some k }).count c.tenant 0x0E 1).postFault
          (plainRec cCopyFault c.quad (c.launch.getD 0) (BitVec.ofNat 32 (9 + acc * 16 + k * 64)) c.tenant (BitVec.ofNat 64 va))

/-- Enqueue a saved matrix operation again, in its place in the order of issue, if the table and the scoreboard have room (R240, R273,
R275). -/
def State.restoreOp (s : State) (o : MatOp) : Option State :=
  if 16 ≤ s.reservations o.quad ∨ s.scoreFree o.quad < (s.opEntry o).length then none
  else some { s with matops := insertBy MatOp.id o s.matops, score := s.score ++ s.opEntry o }

/-- Hand back the oldest copy or operation that a gang's last pre-emption saved. -/
def State.handNext (s : State) (g : Gang) : Option State :=
  match g.savedCopies, g.savedOps with
  | [], [] => none
  | c :: cs, [] => (s.restoreCopy c).map fun s => s.onGang g.uid fun g => { g with savedCopies := cs }
  | [], o :: os => (s.restoreOp o).map fun s => s.onGang g.uid fun g => { g with savedOps := os }
  | c :: cs, o :: os =>
    if c.id < o.id then (s.restoreCopy c).map fun s => s.onGang g.uid fun g => { g with savedCopies := cs }
    else (s.restoreOp o).map fun s => s.onGang g.uid fun g => { g with savedOps := os }

/-- Hand back at most `n` of what a gang's last pre-emption saved, oldest first, as far as its quad has room. -/
def State.handBack (s : State) (gid : Nat) : Nat → State
  | 0 => s
  | n + 1 =>
    match (s.gang? gid).bind s.handNext with
    | some s1 => s1.handBack gid n
    | none => s

/-- How many copies and operations a gang still has saved. -/
def Gang.savedCount (g : Gang) : Nat := g.savedCopies.length + g.savedOps.length

/-- A copy of a gang that goes on elsewhere. -/
def CopyOp.moveTo (c : CopyOp) (old new : Gang) : CopyOp := { c with quad := new.quad, stampPa := c.stampPa.map (moveAddr old new) }

/-- Place a saved gang again. -/
def State.placeSaved (s : State) (l : Launch) (g : Gang) (p : Spot) : State :=
  let g1 := g.settle l p
  let s1 : State := { s with
    mem := putArea Memory.unlisted (putArea Memory.unlisted s.mem g1.bankLo (g1.banks * 2 ^ 17) g.savedBanks) g1.segLo
      (g1.segs * 2 ^ 16) g.savedSegs
    memPoison := putArea 0#12 (putArea 0#12 s.memPoison g1.bankLo (g1.banks * 2 ^ 17) g.savedBankPoison) g1.segLo
      (g1.segs * 2 ^ 16) g.savedSegPoison
    acc := putArea 0#36 s.acc g1.accLo (g1.accs * 2 ^ 15) g.savedAcc
    accPoison := putArea 0#12 s.accPoison g1.accLo (g1.accs * 2 ^ 15) g.savedAccPoison }
  let s2 := s1.onGang g.uid fun _ =>
    { g1 with savedBanks := [], savedSegs := [], savedAcc := [], savedBankPoison := [], savedSegPoison := []
              savedAccPoison := [], savedOps := g.savedOps.map fun o => { o with quad := p.quad }
              savedCopies := g.savedCopies.map fun c => c.moveTo g g1 }
  let ws := (s.gangWgs g.uid).filter fun w => w.status = .preempted
  ((ws.zip p.cores).foldl (fun (s : State) x => s.restoreWg g g1 x.1 x.2) s2).handBack g.uid g.savedCount

/-- The order of a share: pre-empted gangs before never-placed ones, then ascending number (R303, R305). A twin is placed with its gang
(R379), or, once that has retired, alone (log 78). -/
def State.shareOf (s : State) (l : Launch) (die : Nat) : List Gang :=
  let mine := fun st => s.gangs.filter fun g => decide (g.launch = l.id) && decide (g.die = die) && decide (g.status = st) &&
    (!g.isTwin || (s.twinGang g).all fun h => h.status = .retired)
  mine .saved ++ mine .never

/-- The next gang of a launch's share. -/
def State.nextGang (s : State) (l : Launch) (die : Nat) : Option Gang := (s.shareOf l die).head?

/-- Launches in the order a distributor considers them: by priority, then oldest first, as `State.launches` lists them. -/
def insertLaunch (l : Launch) : List Launch → List Launch
  | [] => [l]
  | m :: r => if l.prio ≤ m.prio then l :: m :: r else m :: insertLaunch l r

def State.launchOrder (s : State) : List Launch :=
  (s.launches.filter fun l => l.ended = 0).foldr insertLaunch []

/-- Where a gang, and its twin beside it, would stand; each holds its own room (R314). -/
def State.spots (s : State) (l : Launch) (g : Gang) : Option (Spot × Option (Gang × Spot)) :=
  match s.spotOn l g with
  | none => none
  | some p =>
    match s.twinGang g with
    | none => some (p, none)
    | some h =>
      if h.status = .retired then some (p, none)
      else if h.status = g.status then
        ((s.onGang g.uid fun g => { g with room := p.room }).spotOn l h).map fun q => (p, some (h, q))
      else none

/-- Place a gang, on a quad whose latch is first changed if it must be (R305, R359). -/
def State.placeOne (s : State) (l : Launch) (g : Gang) (p : Spot) (twins : List Nat) : State :=
  let s1 := s.relatch p.quad l.world
  if g.status = .saved then s1.placeSaved l g p else s1.placeNew l g p twins

/-- Place a gang (and its twin), start the launch's clock, clear its reservation. -/
def State.place (s : State) (l : Launch) (g : Gang) (p : Spot) (t : Option (Gang × Spot)) : State :=
  let s1 := s.placeOne l g p []
  let s2 := match t with
    | some (h, q) => s1.placeOne l h q ((s1.gangWgs g.uid).map fun (w : Wg) => w.uid)
    | none => s1
  let s3 := s2.onLaunch l.id fun l => { l with startNs := l.startNs.orElse fun _ => some s.ns }
  { s3 with reserved := s3.reserved.filter fun r => r.2 ≠ g.uid + 1 }

/-- Whether a launch's next gang is one that was saved when its partition's slice of a shared quad began, and fits there (R315). -/
def State.returning (s : State) (die : Nat) (l : Launch) : Bool :=
  (s.nextGang l die).any fun g => g.back && decide (g.status = .saved) && (s.spotOn l g).any fun p => (s.slicePart p.quad).isSome

/-- Launches in the order in which a distributor tries their next gangs: those that come back with their slice first (R315); every other
saved gang has its place in the order of R303. -/
def State.tryOrder (s : State) (die : Nat) : List Launch := s.launchOrder.filter (s.returning die) ++ s.launchOrder

/-- The first launch whose next gang fits. -/
def State.choosePlace (s : State) (die : Nat) : Option (Launch × Gang × Spot × Option (Gang × Spot)) :=
  (s.tryOrder die).findSome? fun l =>
    match s.nextGang l die with
    | none => none
    | some g => (s.spots l g).map fun p => (l, g, p.1, p.2)

/-! ### Making room (R306, R307) -/

/-- The state with some gangs gone from their quad; `retired` says that their context room is free too. -/
def State.withoutGangs (s : State) (retired : Bool) (gs : List Gang) : State :=
  let ids := gs.map fun g => g.uid
  let copies := s.copies.filter fun c => c.gang.any fun g => ids.contains g
  let ops := s.matops.filter fun o => ids.contains o.gang
  let gone := (copies.map fun c => c.id) ++ ops.map fun o => o.id
  { s with
    wgs := s.wgs.filter fun w => !ids.contains w.gang
    copies := s.copies.filter fun c => !gone.contains c.id
    matops := s.matops.filter fun o => !gone.contains o.id
    score := s.score.filter fun e => !gone.contains e.op
    inbound := s.inbound.filter fun i => !gone.contains i.copy
    gangs := s.gangs.map fun g => if ids.contains g.uid then
        { g with status := .retired, banks := 0, accs := 0, segs := 0, room := if retired then [] else g.room }
      else g }

/-- Persistent gangs of a quad that a gang of a launch may pre-empt, lowest priority first (R307). -/
def State.persistentOn (s : State) (l : Launch) (quad : Nat) : List Gang :=
  let prio := fun g : Gang => ((s.launch? g.launch).map fun m => m.prio).getD 0
  ((s.gangsOn quad).filter fun g => decide (g.status = .placed) &&
    (s.launch? g.launch).any fun m => m.persistent && decide (l.prio < m.prio)).foldr (insertBy fun g => 255 - prio g) []

/-- The fewest of those whose pre-emption makes room for a gang on a quad, beside the gangs that already leave it. -/
def State.victimsOn (s : State) (l : Launch) (g : Gang) (quad : Nat) : Option (List Gang) :=
  let vs := s.persistentOn l quad
  let gone := (s.gangsOn quad).filter fun g => g.status = .draining
  ((List.range (vs.length + 1)).find? fun n => ((s.withoutGangs false (gone ++ vs.take n)).fits l g quad).isSome).map fun n => vs.take n

/-- The gangs that a waiting gang which fits no quad of its die pre-empts: on the quad with the fewest, the lowest on a tie (R307). -/
def State.victims (s : State) (l : Launch) (g : Gang) : Option (List Gang) :=
  if (s.die? g.die).endp ≠ .attached ∨ (s.spotOn l g).isSome then none
  else bestOf (fun a b => decide (a.length < b.length)) ((List.range 96).filterMap fun q => s.victimsOn l g (g.die * 96 + q))

/-- The first launch whose next gang, or that gang's twin, may pre-empt others, with those. -/
def State.choosePreempt (s : State) (die : Nat) : Option (List Gang) :=
  s.launchOrder.findSome? fun l =>
    match s.nextGang l die with
    | none => none
    | some g =>
      match (s.victims l g).orElse fun _ => (s.twinGang g).bind fun h => s.victims l h with
      | some (v :: vs) => some (v :: vs)
      | _ => none

/-- Next gangs that do not fit begin to wait (R306); a gang that is its share's next no longer waits no longer. -/
def State.markWaiting (s : State) (die : Nat) : State :=
  s.launchOrder.foldl (fun (s : State) l =>
    match s.nextGang l die with
    | some g =>
      let s1 : State := { s with gangs := s.gangs.map fun h =>
        if h.launch = l.id ∧ h.die = die ∧ h.uid ≠ g.uid then { h with waitSince := none } else h }
      if g.waitSince = none ∧ (s1.spots l g).isNone then s1.onGang g.uid fun g => { g with waitSince := some s.ns } else s1
    | none => s) s

/-- `GANG_PLACE` (R303, R305): what restored gangs are still owed comes first; then the first gang that fits is placed; where none fits,
one that may pre-empts for its priority (R307). -/
def execGangPlace (die : Nat) (s : State) : Answer :=
  let s0 := (s.gangs.filter fun g => decide (g.die = die) && decide (g.status = .placed)).foldl (fun (s : State) g => s.handBack g.uid g.savedCount) s
  let s1 := match s0.choosePlace die with
    | some (l, g, p, t) => s0.place l g p t
    | none => match s0.choosePreempt die with
      | some vs => vs.foldl (fun (s : State) (g : Gang) => s.beginPreempt g.uid) s0
      | none => s0
  done (s1.markWaiting die)

/-- `WORK_STEAL` (R304): up to eight never-placed gangs, from the tail of the other die's share of its highest-priority
launch. A twin stays on the other die than its gang (R379). -/
def execWorkSteal (die : Nat) (s : State) : Answer :=
  let other := 1 - die
  if (s.choosePlace die).isSome ∨ (s.die? die).endp ≠ .attached ∨ (s.die? other).endp ≠ .attached then done s
  else
    match s.launchOrder.find? fun l => (s.shareOf l other).any fun g => g.status = .never with
    | none => done s
    | some l =>
      let never := (s.shareOf l other).filter fun g => g.status = .never
      let n := min 8 (never.length / 2)
      let taken := (never.drop (never.length - n)).map fun g => g.num
      done { s with gangs := s.gangs.map fun g =>
          if g.launch = l.id ∧ taken.contains g.num then { g with die := if g.isTwin then other else die, waitSince := none } else g }

/-! ### Reservations (R306) -/

/-- All ways to leave out some of a list, the shortest first. -/
def choices {α : Type} (xs : List α) : List (List α) :=
  (List.range (xs.length + 1)).flatMap fun n => xs.sublists.filter fun ys => ys.length = n


/-- How many resident gangs must retire before a gang fits a quad. -/
def State.mustRetire (s : State) (l : Launch) (g : Gang) (quad : Nat) : Option Nat :=
  ((choices (s.gangsOn quad)).find? fun xs => ((s.withoutGangs true xs).fits l g quad).isSome).map fun xs => xs.length

/-- The quad a waiting gang reserves: the fewest to retire, then the lowest. Its latch is the gang's world's: a quad that holds a
reservation keeps its latch (R359, log 92). -/
def State.bestQuad (s : State) (l : Launch) (g : Gang) : Option Nat :=
  (bestOf (fun (a b : Nat × Nat) => decide (a.2 < b.2)) ((List.range 96).filterMap fun q =>
    if Table.get 0 s.reserved (g.die * 96 + q) = 0 ∧ s.latch (g.die * 96 + q) = l.world then (s.mustRetire l g (g.die * 96 + q)).map fun n => (g.die * 96 + q, n)
    else none)).map fun x => x.1

/-- `PLACEMENT_RESERVATION`: a next gang that has waited 2 ms takes a quad; after a try it waits 2 ms again. -/
def execPlacementReservation (die : Nat) (s : State) : Answer :=
  done (s.launchOrder.foldl (fun (s : State) l =>
    match s.nextGang l die with
    | none => s
    | some g =>
      let due : Bool := match g.waitSince with
        | some t => decide (t + 2000000 ≤ s.ns)
        | none => false
      if ¬ due ∨ s.reserved.any (fun r => r.2 = g.uid + 1) then s
      else
        match s.bestQuad l g with
        | some q => { s with reserved := Table.set 0 s.reserved q (g.uid + 1) }
        | none => s.onGang g.uid fun g => { g with waitSince := some s.ns }) s)

/-! ### Calendars and time slices (R308, R315) -/

/-- `CALENDAR_WRAP`: the written calendar takes effect where the period of its class ends. -/
def execCalendarWrap (die cls : Nat) (s : State) : Answer :=
  let period := 256 * slotCycles cls
  if die < 2 ∧ cls < 4 ∧ (s.die? die).cycles % period = 0 then
    let lo := 0x02000000 + 256 * die + 64 * cls
    done { s with calActive := (List.range 64).foldl (fun t i => Table.set 0x10101010#32 t (lo + i) (s.cfgGet (lo + i))) s.calActive }
  else done s

/-- The entry of a list in which a time of `us` microseconds from its first entry's start lies. -/
def entryAt : List Word → Nat → Nat
  | [], _ => 0
  | e :: es, us => if us < (fld e 6 20).toNat then 0 else entryAt es (us - (fld e 6 20).toNat) + 1

/-- The slice of a list that island time has come to: the slices run in list order; the first starts at time 0 (log 82). -/
def State.sliceDue (s : State) (l : List Word) : Nat :=
  entryAt l (s.ns / 1000 % max 1 (l.map fun e => (fld e 6 20).toNat).sum)

/-- Gangs on a quad that its slice does not let run. -/
def State.foreignOn (s : State) (quad : Nat) : List Gang :=
  (s.gangsOn quad).filter fun g => decide (g.status = .placed) && decide (some (Tag.part (s.gangTag g.uid)) ≠ s.slicePart quad)

/-- One quad's switch: gangs of every other partition on it are pre-empted, and the saved gangs of the incoming partition come back
first. -/
def State.switchSlice (s : State) (quad entry : Nat) : State :=
  let s1 := { s with slice := Table.set 0 s.slice quad entry }
  let s2 : State := { s1 with gangs := s1.gangs.map fun g =>
    if g.die = quad / 96 ∧ (g.status = .saved ∨ g.status = .draining) ∧ some (Tag.part (s1.gangTag g.uid)) = s1.slicePart quad then
      { g with back := true }
    else g }
  (s2.foreignOn quad).foldl (fun (s : State) g => s.beginPreempt g.uid) s2

/-- `TIME_SLICE_BOUNDARY`: when the next entry of a quad's list is due, every quad with the same list switches to it (R315); so it does
when a written list finds gangs there that its slice does not let run. -/
def execTimeSliceBoundary (quad entry : Nat) (s : State) : Answer :=
  let l := s.sliceList quad
  if quad < 192 ∧ entry < l.length ∧ entry = s.sliceDue l ∧
      (entry ≠ Table.get 0 s.slice quad ∨ ¬ (s.foreignOn quad).isEmpty) then
    done (((List.range 192).filter fun q => s.sliceList q = l).foldl (fun (s : State) q => s.switchSlice q entry) s)
  else done s

/-! ### Ending a launch (R297, R316, R331, R385) -/

/-- Records of cause `WATCHDOG`, one per distinct PC and chunk (R352). -/
def State.postWatchdog (s : State) (w : Wg) : State :=
  let live := w.threads.filter (s.alive w)
  ((live.map (s.standsAt w)).eraseDups).foldl (fun (s : State) pc =>
    s.postRecords w .system cWatchdog (BitVec.ofNat 32 pc) 0 0
      ((live.filter fun t => s.standsAt w t = pc).map (·.tid))) s

/-- Operations a stopped launch leaves: suspended copies are cancelled, contributions not yet answered are dropped, what a
pre-emption saved goes. -/
def State.cancelOps (s : State) (l : Nat) : State :=
  let s1 := (s.copies.filter fun c => decide (c.launch = some l) && decide (c.stage = .suspended)).foldl
    (fun (s : State) c => s.toLanding c c.next 3 0 0) s
  (s1.colls.filter fun c => decide (c.launch = l) && (decide (c.stage = .sent) || decide (c.stage = .counted))).foldl
    (fun (s : State) c =>
      let s2 := s.onColl c.id fun c => { c with stage := .done }
      s2.drainColls c.wg c.tid s2.colls.length) s1

/-- Stop one workgroup; one that is pre-empted has nothing outstanding left. -/
def State.stopWg (s : State) (w : Wg) (ended cause : Nat) : State :=
  let s0 := if ended = 2 then s.postWatchdog w else s
  let s1 := if w.status = .preempted then s0.onWg w.uid fun w =>
      { w with common := Counters.zero, threads := w.threads.map fun t => { t with cnt := Counters.zero } }
    else s0
  s1.terminate w.uid ended cause 0 0

/-- The exit record of a workgroup that was never placed (R316, R352). -/
def State.exitUnplaced (s : State) (l : Launch) (num ended cause : Nat) : State :=
  if l.exits = 0 then s
  else s.writeOut (l.exits + 128 * num) (exitBytes num ⟨ended, cause, 0, 0, (l.startKeys num).map (4 * ·)⟩ [])

/-- What a pre-emption saved of a stopped launch (R316): a copy is back in the engine, to be cancelled, unless its gang is saved and its
stamp lies in a bank that is no longer the gang's; operations of a saved gang go, as its counters do, those of a placed gang are still
enqueued and end; a gang under pre-emption ends its passes. -/
def State.stopSaved (s : State) (lid : Nat) : State :=
  let mine := s.gangs.filter fun g => g.launch = lid
  let back := mine.flatMap fun g => (g.savedCopies.filter fun c => g.status ≠ .saved ∨ c.stampPa.all fun a => regionOf a ≠ 4).map fun c =>
    { c with stage := .suspended }
  { s with
    copies := back.foldr (insertBy CopyOp.id) s.copies
    gangs := s.gangs.map fun g =>
      if g.launch = lid then
        { g with savedOps := if g.status = .saved then [] else g.savedOps, savedCopies := []
                 status := if g.status = .draining then .placed else g.status }
      else g }

/-- Stop a launch: its placed and saved workgroups, its gangs that were never placed, its operations. -/
def State.stopLaunch (s : State) (lid ended cause : Nat) : State :=
  match s.launch? lid with
  | none => s
  | some l =>
    if l.ended ≠ 0 then s
    else
      let ws := s.wgs.filter fun w => decide (w.launch = lid) && match w.status with
        | .finished _ _ => false
        | _ => true
      let live := (ws.map fun w => (w.threads.filter (s.alive w)).length).sum
      let never := s.gangs.filter fun g => decide (g.launch = lid) && decide (g.status = .never)
      let nums := (never.filter fun g => !g.isTwin).flatMap fun g => (List.range (l.gangSize g.num)).map fun r => g.num * l.wpg + r
      let s1 := ws.foldl (fun (s : State) w => s.stopWg w ended cause) s
      let s2 := nums.foldl (fun (s : State) n => s.exitUnplaced l n ended cause) s1
      let ids := never.map fun g => g.uid
      let s3 : State := { s2 with
        gangs := s2.gangs.map fun g => if ids.contains g.uid then { g with status := .retired } else g
        reserved := s2.reserved.filter fun r => !(s2.gangs.any fun g => g.launch = lid ∧ r.2 = g.uid + 1) }
      ((s3.onLaunch lid fun l => { l with ended := ended, liveAtEnd := live + (nums.map l.threadsOf).sum }).stopSaved lid).cancelOps lid

/-- `WATCHDOG_EXPIRY` (R316): island time from the placement of the launch's first gang. -/
def execWatchdogExpiry (l : Nat) (s : State) : Answer :=
  match s.launch? l with
  | none => done s
  | some x =>
    match x.startNs with
    | some t => if ¬ x.wave ∧ t + 1000 * x.tlimit ≤ s.ns then done (s.stopLaunch l 2 cWatchdog) else done s
    | none => done s

end Sys2Proof.Machine
end

