-- ==== Sys2Proof/Machine/Queue.lean ====
section
/-! DEFINITION. Software queues and their hardware slots (R288-R291), commands (R292, R293), launch records (R294,
R295), continuation pools (R298, R299), the end of a launch (R297), token buckets (R302) and `LNCH` (R300, R301). -/

namespace Sys2Proof.Machine

/-- A message to the host. -/
def State.tell (s : State) (m : HostMsg) : State := { s with outbox := s.outbox ++ [m] }

/-! ### The host port (R381, R397) -/

/-- Whether transit is forwarded. -/
def State.forwards (s : State) : Bool :=
  decide (s.island = .forward) || decide (s.island = .joined) || decide (s.island = .fencing)

/-- Whether the host port answers: while the island is up; in SAFE, management requests only (R381). -/
def State.portAnswers (s : State) (management : Bool) : Bool :=
  s.forwards || (decide (s.island = .safe) && management)

/-- Whether a partition's management session is open, over which its requests come (R322, R397). -/
def State.managed (s : State) (part : Nat) : Bool :=
  s.portAnswers true && s.sessions.any fun x => x.management && decide (x.part = part)

/-! ### The partition table (R317) -/

/-- Word `k` of a partition's entry. -/
def State.partWord (s : State) (p k : Nat) : Word := s.cfgGet (0x01000000 + 8 * p + k)

def State.partValid (s : State) (p : Nat) : Bool := decide (p < 16) && (s.partWord p 0).getLsbD 0

/-- Whether a partition may launch in a world. -/
def State.partWorld (s : State) (p world : Nat) : Bool := decide (world < 16) && (s.partWord p 0).getLsbD (16 + world)

def State.bucketRate (s : State) (p : Nat) : Nat := (fld (s.partWord p 4) 9 8).toNat
def State.bucketDepth (s : State) (p : Nat) : Nat := (s.partWord p 5).toNat
def State.bucketLevel (s : State) (p : Nat) : Int := Table.get 0 s.buckets p

/-- Whether a bucket has emptied and not refilled to a quarter since (R302). -/
def State.bucketDry (s : State) (p : Nat) : Bool := decide (s.bucketLevel p ≤ 0) || s.queues.any fun q => decide (q.bucket = p) && q.dry

/-! ### Queues (R288-R290) -/

/-- The privileged fields of a QCB as they stand in memory. -/
def Queue.shadowBytes (q : Queue) : List Byte :=
  leBytes q.owner.toNat 4 ++ leBytes q.pcap 1 ++ leBytes q.world 1 ++ leBytes q.bucket 1 ++ List.replicate 121 0#8

/-- The privileged fields of a request are in their ranges. -/
def queueFieldsOk (r : QueueReq) : Bool :=
  decide (r.q < 65536) && decide (r.pcap < 32) && decide (r.world < 16) && decide (r.bucket < 16)

/-- Whether the one who asks may name the owner (R288). -/
def State.mayNameQueue (s : State) (r : QueueReq) : Bool :=
  r.hyper || (s.partValid r.part && decide (Tag.part r.owner = r.part) && decide (Tag.num r.owner ≠ 0xFFF))

/-- `QUEUE_CREATE`: the queue, its shadow and the privileged fields of its QCB. A request outside its bounds is refused. -/
def execQueueCreate (r : QueueReq) (s : State) : Answer :=
  if ¬ queueFieldsOk r ∨ r.qcb % 256 ≠ 0 ∨ 0xC000000000 ≤ r.qcb then done (s.tell (.status 7))
  else if ¬ s.mayNameQueue r ∨ ¬ s.owned r.owner rightRW r.qcb 256 then done (s.tell (.status 1))
  else if (s.queue? r.q).isSome ∨ s.hbmOut r.qcb then done (s.tell (.status 12))
  else
    let q : Queue :=
      { q := r.q, owner := r.owner, pcap := r.pcap, world := r.world, bucket := r.bucket, qcb := r.qcb, qstate := 0
        slot := none, slotTag := unboundTag, mappedAt := 0, badWr := none, leaving := none, dry := s.bucketDry r.bucket, cmds := [] }
    let s1 : State := { s with queues := s.queues ++ [q] }
    done (((s1.writeOut (r.qcb + 128) q.shadowBytes).writeNat (r.qcb + 9) 1 0).tell (.status 0))

/-- `QCB_SHADOW_WRITE` (R290): by the hypervisor only; `clear` ends state 3. -/
def execQcbShadowWrite (r : QueueReq) (s : State) : Answer :=
  match s.queue? r.q with
  | none => done (s.tell (.status 6))
  | some q =>
    if ¬ r.hyper then done (s.tell (.status 1))
    else if ¬ queueFieldsOk r then done (s.tell (.status 7))
    else if s.hbmOut q.qcb then done (s.tell (.status 12))
    else
      let q1 := { q with owner := r.owner, pcap := r.pcap, world := r.world, bucket := r.bucket, dry := s.bucketDry r.bucket }
      let s1 := (s.onQueue r.q fun _ => q1).writeOut (q.qcb + 128) q1.shadowBytes
      done ((if r.clear ∧ q.qstate = 3 then s1.setQState q1 0 else s1).tell (.status 0))

/-- The hardware slot a queue would take: the lowest free one of its partition's holding, or bound to its owner. -/
def State.slotFor (s : State) (q : Queue) : Option Nat :=
  (List.range 256).find? fun k =>
    !(s.queues.any fun r => r.slot = some k) && !s.quieting.contains (8, k) &&
      (decide (s.tagGet 8 k = q.owner) ||
        (decide (Tag.num (s.tagGet 8 k) = 0xFFF) && decide (Tag.part (s.tagGet 8 k) = Tag.part q.owner)))

/-- Whether CW1 tries to map a queue (R288, R289, R302). -/
def State.wantsMap (s : State) (q : Queue) : Bool :=
  decide (q.slot = none) && s.partValid (Tag.part q.owner) && !s.queueOut q && decide (0 < s.waitingCmds q) && !q.dry &&
    decide (0 < s.bucketLevel q.bucket) &&
    (decide (q.qstate ≤ 2) || (decide (q.qstate = 4) && decide (q.badWr ≠ some (s.wrOf q))))

/-- Map a queue into a slot, after the checks of R289 and R290. -/
def State.mapQueue (s : State) (q : Queue) (k : Nat) : State :=
  if ¬ s.owned q.owner rightRW q.qcb 256 then s.setQState q 3
  else if ¬ s.guestOk q then
    ((s.onQueue q.q fun q => { q with badWr := some (s.wrOf q) }).setQState q 4).commandFail q.owner q.q 0 5
  else if ¬ s.owned q.owner rightR (s.ringOf q) (64 * 2 ^ s.lgsize q) then s.setQState q 3
  else if s.readMem (q.qcb + 128) 128 ≠ q.shadowBytes then (s.setQState q 3).tell (.tamper q.q)
  else
    let s1 := s.onQueue q.q fun q => { q with slot := some k, slotTag := s.tagGet 8 k, mappedAt := s.ns, badWr := none, leaving := none }
    (s1.tagSet 8 k q.owner).setQState q 1

/-- `QUEUE_MAP`: a queue with an unread command, when a slot is free. -/
def execQueueMap (q : Nat) (s : State) : Answer :=
  match s.queue? q with
  | none => done s
  | some x =>
    match (if s.wantsMap x then s.slotFor x else none) with
    | some k => done (s.mapQueue x k)
    | none => done s

/-- Whether a queue stands at a command boundary: every command taken has begun. -/
def Queue.atBoundary (q : Queue) : Bool := q.cmds.all fun c => c.begun

/-- Take a queue out of its slot; the slot has again the tag it had before, unless its binding has changed since. -/
def State.unmapQueue (s : State) (q : Queue) (st : Nat) : State :=
  match q.slot with
  | none => s
  | some k =>
    let s1 := if s.tagGet 8 k = q.owner then s.tagSet 8 k q.slotTag else s
    (s1.onQueue q.q fun q => { q with slot := none, leaving := none }).setQState q st

/-- Unmap a queue now, or at its next command boundary. -/
def State.leaveSlot (s : State) (q : Queue) (st : Nat) : State :=
  if q.slot = none then s
  else if q.atBoundary then s.unmapQueue q st
  else s.onQueue q.q fun q => { q with leaving := some st }

/-- Another queue of the partition waits for a slot and none is free. -/
def State.slotWanted (s : State) (part : Nat) : Bool :=
  s.queues.any fun r => decide (Tag.part r.owner = part) && s.wantsMap r && (s.slotFor r).isNone

/-- `QUEUE_UNMAP` (R288): a queue asked to leave, or the longest mapped of its partition after 1 ms while another waits. -/
def execQueueUnmap (q : Nat) (s : State) : Answer :=
  match s.queue? q with
  | none => done s
  | some x =>
    if x.slot = none ∨ ¬ x.atBoundary then done s
    else
      match x.leaving with
      | some st => done (s.unmapQueue x st)
      | none =>
        let part := Tag.part x.owner
        let longest := s.queues.all fun r => decide (r.slot = none) || decide (Tag.part r.owner ≠ part) || decide (x.mappedAt ≤ r.mappedAt)
        if longest ∧ x.mappedAt + 1000000 ≤ s.ns ∧ s.slotWanted part then done (s.unmapQueue x 0) else done s

/-- `COMMAND_TAKE` (R291): the next command in ring order; rd advances as a release. -/
def execCommandTake (q : Nat) (s : State) : Answer :=
  match s.queue? q with
  | none => done s
  | some x =>
    if x.slot = none ∨ x.leaving ≠ none ∨ ¬ x.atBoundary ∨ s.queueOut x ∨ s.waitingCmds x = 0 then done s
    else
      let i := s.rdOf x
      let c : Cmd := ⟨i, s.readMem (s.ringOf x + 64 * (i % 2 ^ s.lgsize x)) 64, false, false⟩
      done ((s.onQueue q fun q => { q with cmds := q.cmds ++ [c] }).writeNat (x.qcb + 16) 4 (i + 1))

/-! ### Beginning a command (R291-R293) -/

/-- The byte offset of the first field that fails (R292, R293). -/
def firstOff : List (Bool × Nat) → Option Nat
  | [] => none
  | (b, o) :: r => if b then some o else firstOff r

def payloadAlign (type : Nat) : Nat := if type = 4 ∨ type = 5 then 8 else if type = 0 ∨ 5 < type then 1 else 128

def Cmd.badField (c : Cmd) : Option Nat :=
  firstOff
    [ (decide (c.type = 0) || decide (5 < c.type), 0),
      (decide (2 ≤ fieldAt c.bytes 1 1), 1),
      (if c.type = 3 then decide (191 < c.quad) else decide (c.quad ≠ 0), 2),
      (decide (fieldAt c.bytes 4 4 ≠ 0), 4),
      (decide (c.payload % payloadAlign c.type ≠ 0), 8),
      (decide (c.done % 16 ≠ 0), 16),
      (decide (c.value ≠ 0) && decide (c.type ≠ 5), 24),
      (if c.type = 2 then decide (c.pool % 32 ≠ 0) else decide (c.pool ≠ 0), 32),
      (decide (fieldAt c.bytes 40 24 ≠ 0), 40) ]

/-- The command of a queue that may begin: the first that has not begun, not behind a `WAITQ`, and with the flag after
only when its predecessor has completed. -/
def Queue.nextCmd (q : Queue) : Option Cmd :=
  match q.cmds.find? fun c => !c.begun with
  | none => none
  | some c =>
    if (q.cmds.any fun d => d.begun && decide (d.type = 5)) ||
        (c.after && q.cmds.any fun d => decide ((d.idx + 1) % 2 ^ 32 = c.idx)) then none
    else some c

def State.markBegun (s : State) (q idx : Nat) : State :=
  s.onQueue q fun x => { x with cmds := x.cmds.map fun c => if c.idx = idx then { c with begun := true } else c }

/-- Whether a command names memory beside an ABSENT die: it waits until that is attached (R383, log 108). -/
def State.cmdOut (s : State) (c : Cmd) : Bool :=
  s.hbmOut c.payload || (decide (c.type = 2) && (s.hbmOut c.pool || s.hbmOut (s.readNat (c.pool + 8) 8))) ||
    (decide (c.done ≠ 0) && s.hbmOut c.done)

/-- Begin the next command of a queue, if `takes` its type: the checks of the command record, the completion area, then
`run`, which may leave it waiting. -/
def beginCmd (qn : Nat) (takes : Nat → Bool) (run : State → Queue → Cmd → State) (s : State) : Answer :=
  match s.queue? qn with
  | none => done s
  | some q =>
    match q.nextCmd with
    | none => done s
    | some c =>
      if ¬ takes c.type ∨ s.cmdOut c then done s
      else
        match c.badField with
        | some o => done (s.completeCmd qn c.idx 0 5 0 o)
        | none =>
          if c.done ≠ 0 ∧ ¬ s.owned q.owner rightW c.done 16 then done (s.completeCmd qn c.idx 0 6 0 0)
          else done (run s q c)

/-! ### Launch records (R294, R295) -/

/-- The launch of a record, before it has an id. Counts of gangs follow from `gx`, `gy`, `gz`. -/
def launchFrom (q : Queue) (idx : Nat) (b : List Byte) : Launch :=
  let flags := fieldAt b 42 2
  let flag := fun k : Nat => decide (flags / 2 ^ k % 2 = 1)
  { id := 0, tenant := q.owner, queue := some q.q, cmd := idx
    code := BitVec.ofNat 64 (fieldAt b 0 8), args := BitVec.ofNat 64 (fieldAt b 8 8)
    gx := fieldAt b 16 4, gy := fieldAt b 20 4, gz := fieldAt b 24 4
    threads := fieldAt b 28 2, wpg := fieldAt b 30 1, regs := fieldAt b 31 1, commons := fieldAt b 32 1
    banks := fieldAt b 33 1, acc := fieldAt b 34 1, wbuf := fieldAt b 35 1, scratch := fieldAt b 36 4
    world := fieldAt b 40 1, prio := max (fieldAt b 41 1) q.pcap
    guarded := flag 0 || flag 1, twin := flag 1, debug := flag 2, record := flag 3, strict := flag 4, persistent := flag 5
    tlimit := fieldAt b 44 4, account := fieldAt b 48 8, exits := fieldAt b 56 8
    podid := BitVec.ofNat 32 (fieldAt b 64 4), poddevs := fieldAt b 68 2
    nwg := fieldAt b 16 4 * fieldAt b 20 4 * fieldAt b 24 4 * fieldAt b 30 1
    pool := none, wave := false, startNs := none, ended := 0, liveAtEnd := 0, num := [] }

/-- Check 1 of R295: the lowest offset that fails. A pool launch ignores the gang counts (R299). -/
def recordBad (l : Launch) (b : List Byte) : Option Nat :=
  let count := fun n : Nat => l.pool.isNone && (decide (n = 0) || decide (65535 < n))
  firstOff
    [ (decide (l.code.toNat % 256 ≠ 0), 0),
      (count l.gx || (l.pool.isNone && decide (2 ^ 24 < l.gx * l.gy * l.gz)), 16),
      (count l.gy, 20),
      (count l.gz, 24),
      (decide (64 < l.commons), 32),
      (decide (16 < l.banks), 33),
      (decide (4 < l.acc), 34),
      (decide (8 < l.wbuf), 35),
      (decide (l.scratch % 128 ≠ 0), 36),
      (decide (31 < fieldAt b 41 1), 41),
      (decide (64 ≤ fieldAt b 42 2), 42),
      (decide (l.tlimit = 0), 44),
      (decide (l.account % 64 ≠ 0), 48),
      (decide (l.exits % 128 ≠ 0), 56),
      (decide (l.podid = 0#32) != decide (l.poddevs = 0), 64),
      (decide (fieldAt b 70 58 ≠ 0), 70) ]

/-- Whether a partition holds a core of a die. -/
def State.holdsDie (s : State) (part die : Nat) : Bool :=
  s.tags.any fun e => decide (e.1 / 2 ^ 32 = 1) && decide (e.1 % 2 ^ 32 / 384 = die) && decide (Tag.part e.2 = part)

/-- Check 2 of R295, but for the context room. -/
def State.shapeBad (s : State) (l : Launch) : Bool :=
  decide (l.threads = 0) || decide (2048 < l.threads) || decide (l.wpg = 0) || decide (4 < l.wpg) || decide (l.regs < 4) ||
    decide (128 < l.regs) || decide (l.regs % 4 ≠ 0) || decide (472 * 1024 < l.storeNeed l.threads l.regs) ||
    (l.guarded && (decide (l.wpg ≠ 1) || decide (8 < l.banks))) ||
    (l.twin && !(s.holdsDie (Tag.part l.tenant) 0 && s.holdsDie (Tag.part l.tenant) 1))

/-- Whether the pool's last gang alone would need more room than the context area (R314). -/
def State.roomless (s : State) (l : Launch) : Bool :=
  (List.range ((l.nwg + l.wpg - 1) / l.wpg)).any fun g => decide (s.ctxSize (Tag.part l.tenant) < l.imageFrames g)

/-- Check 3 of R295 with R368. -/
def State.worldBad (s : State) (q : Queue) (l : Launch) : Bool :=
  decide (l.world ≠ q.world) || !s.partWorld (Tag.part l.tenant) l.world ||
    (decide (l.world ≠ 0) && l.debug && !(s.cfgGet 0x0D000000).getLsbD 16)

/-- Check 4 of R295, with the log area of R356; the info word. -/
def State.areasBad (s : State) (l : Launch) : Option Nat :=
  if l.account ≠ 0 ∧ ¬ s.owned l.tenant rightW l.account 2048 then some 2
  else if (l.exits ≠ 0 ∧ ¬ s.owned l.tenant rightW l.exits (128 * l.nwg)) ∨
      (l.record ∧ ¬ s.owned l.tenant rightW l.logArea (2 ^ 20)) then some 3
  else none

/-- The first failing check of R295: status and info. -/
def State.launchBad (s : State) (q : Queue) (l : Launch) (b : List Byte) : Option (Nat × Nat) :=
  match recordBad l b with
  | some o => some (5, o)
  | none =>
    if s.shapeBad l || decide (s.ctxSize (Tag.part l.tenant) < l.imageFrames 0) || s.roomless l then some (4, 0)
    else if s.worldBad q l then some (7, l.world)
    else (s.areasBad l).map fun i => (6, i)

def newGang (uid launch num die : Nat) (twin : Bool) : Gang :=
  { uid := uid, launch := launch, num := num, die := die, quad := 0, bank0 := 0, banks := 0, acc0 := 0, accs := 0
    seg0 := 0, segs := 0, home0 := 0, room := [], status := .never, waitSince := none, isTwin := twin, savedBanks := [], savedSegs := []
    savedAcc := [], savedBankPoison := [], savedSegPoison := [], savedAccPoison := [], savedOps := [], savedCopies := []
    sealedEpoch := none, back := false, moved := false }

/-- Gangs of a launch. -/
def Launch.gangs (l : Launch) : Nat := (l.nwg + l.wpg - 1) / l.wpg

/-- Give a launch its id and share its gangs out, each with its twin on the other die (R295, R303, R379). -/
def State.startLaunch (s : State) (l : Launch) : State :=
  let id := (s.launchSeq + 1) % 2 ^ 32
  let gs := (List.range l.gangs).flatMap fun g =>
    newGang (s.nextId + 2 * g) id g (g % 2) false ::
      if l.twin then [newGang (s.nextId + 2 * g + 1) id g (1 - g % 2) true] else []
  { s with launchSeq := id, launches := s.launches ++ [{ l with id := id }], gangs := s.gangs ++ gs
           nextId := s.nextId + 2 * l.gangs }

/-- Check a launch and start it. -/
def State.tryLaunch (s : State) (q : Queue) (idx : Nat) (l : Launch) (b : List Byte) : State :=
  match s.launchBad q l b with
  | some (st, info) => s.completeCmd q.q idx 0 st 0 info
  | none => (s.markBegun q.q idx).startLaunch l

/-- `LAUNCH`; a command of a reserved type fails here too. -/
def execLaunch (q : Nat) (s : State) : Answer :=
  beginCmd q (fun t => t = 1 ∨ t = 0 ∨ 5 < t) (fun s q c =>
    if ¬ s.owned q.owner rightR c.payload 128 then s.completeCmd q.q c.idx 0 6 0 1
    else
      let b := s.readMem c.payload 128
      s.tryLaunch q c.idx (launchFrom q c.idx b) b) s

/-! ### Continuation pools (R298, R299) -/

def poolRecOf (b : List Byte) : PoolRec :=
  ⟨fieldAt b 0 4 % 2 ^ 24, BitVec.ofNat 32 (fieldAt b 4 4), BitVec.ofNat 32 (fieldAt b 8 4)⟩

/-- Reserved bits of a record. -/
def poolRecBad (b : List Byte) : Bool := decide (2 ^ 24 ≤ fieldAt b 0 4) || decide (fieldAt b 12 4 ≠ 0)

/-- The PC values with the most records, ties to the lower, at most `n` of them. -/
def fullestBins (rs : List PoolRec) : List Nat → Nat → List Nat
  | _, 0 => []
  | pcs, n + 1 =>
    let size := fun p => (rs.filter fun r => r.pc = p).length
    match bestOf (fun a b => decide (size b < size a) || (decide (size a = size b) && decide (a < b))) pcs with
    | none => []
    | some p => p :: fullestBins rs (pcs.filter fun x => x ≠ p) n

/-- The order of R299: the 64 fullest bins in ascending PC, then the others in ascending PC; pool order within a PC. -/
def binned (rs : List PoolRec) : List PoolRec :=
  let pcs := (sortNat (rs.map fun r => r.pc)).eraseDups
  let bins := fullestBins rs pcs 64
  (pcs.filter (fun p => bins.contains p) ++ pcs.filter fun p => !bins.contains p).flatMap fun p =>
    rs.filter fun r => r.pc = p

/-- The records of a pool, or the status and info of a refusal. -/
def State.poolRecords (s : State) (tag : Tag) (a : Nat) : Except (Nat × Nat) (List PoolRec) :=
  if ¬ s.owned tag rightR a 32 then .error (6, 4)
  else
    let c := min (s.readNat (a + 20) 4) (s.readNat (a + 16) 4)
    let base := s.readNat (a + 8) 8
    if base % 16 ≠ 0 then .error (5, 32)
    else if 0 < c ∧ ¬ s.owned tag rightR base (16 * c) then .error (6, 4)
    else
      let bs := (List.range c).map fun i => s.readMem (base + 16 * i) 16
      if bs.any poolRecBad then .error (5, 32) else .ok (bs.map poolRecOf)

/-- The shape of a pool launch: gx, and the workgroups that hold a thread. -/
def Launch.ofPool (l : Launch) (rs : List PoolRec) : Launch :=
  let per := l.threads * l.wpg
  { l with gx := if per = 0 then 0 else (rs.length + per - 1) / per, gy := 1, gz := 1
           nwg := if l.threads = 0 then 0 else (rs.length + l.threads - 1) / l.threads, pool := some rs }

/-- `LAUNCH_POOL`. -/
def execLaunchPool (q : Nat) (s : State) : Answer :=
  beginCmd q (fun t => t = 2) (fun s q c =>
    if ¬ s.owned q.owner rightR c.payload 128 then s.completeCmd q.q c.idx 0 6 0 1
    else
      match s.poolRecords q.owner c.pool with
      | .error (st, info) => s.completeCmd q.q c.idx 0 st 0 info
      | .ok rs =>
        let b := s.readMem c.payload 128
        s.tryLaunch q c.idx ((launchFrom q c.idx b).ofPool (binned rs)) b) s

/-! ### COPYQ, SIGNALQ, WAITQ (R293) -/

/-- A queue's read of one record of a pair, or none where translation refuses it. -/
def State.queueRecord (s : State) (quad : Nat) (tag : Tag) (va : Nat) : Option (State × LRec × Poison) :=
  match s.engineReach quad tag none .r (va % 2 ^ 64) 128 with
  | .error _ => none
  | .ok a =>
    let (s1, v, p) := s.engineRead quad tag a 128
    some (s1, layoutOf (leBytes v 128), p)

/-- Where the stamp area of a queued copy lies; none inside says that the address is refused. -/
def State.queueStamp (s : State) (quad : Nat) (tag : Tag) (va : Nat) : Option (Option Nat) :=
  if va = 0 then some none
  else if va % 16 ≠ 0 then none
  else
    match s.engineAt quad tag none .w va 16 with
    | .ok a => if regionOf a = 2 then none else some (some a)
    | .error _ => none

/-- Whether an engine's access must wait. -/
def mustWait (r : Except Halt Nat) : Bool :=
  match r with
  | .error .wait => true
  | _ => false

/-- Whether the lookups of a `COPYQ`'s pair or of its stamp wait (R210, R309). -/
def State.queueWaits (s : State) (quad : Nat) (tag : Tag) (va : Nat) : Bool :=
  mustWait (s.engineReach quad tag none .r (va % 2 ^ 64) 128) || mustWait (s.engineReach quad tag none .r ((va + 128) % 2 ^ 64) 128) ||
    (s.queueRecord quad tag (va + 128)).any fun r => decide (r.2.1.stamp ≠ 0) && mustWait (s.engineAt quad tag none .w r.2.1.stamp.toNat 16)

/-- The copy of a `COPYQ`, checked; none where its records or its stamp cannot be reached: a status of the copy the
manual does not state. -/
def State.queueCopy (s : State) (q : Queue) (c : Cmd) : Option (State × CopyOp) :=
  match s.queueRecord c.quad q.owner c.payload with
  | none => none
  | some (s1, src, p1) =>
    match s1.queueRecord c.quad q.owner (c.payload + 128) with
    | none => none
    | some (s2, dst, p2) =>
      match s2.queueStamp c.quad q.owner dst.stamp.toNat with
      | none => none
      | some stamp =>
        if (p1.join p2).isSome then none
        else
          let zeros := List.replicate (min src.dims 8) (0 : Int)
          let op : CopyOp :=
            { id := 0, wg := none, tid := none, queue := some (q.q, c.idx), gang := none, launch := none, quad := c.quad
              tenant := q.owner, world := q.world, form := .t, src := src, dst := dst, sorg := zeros, dorg := zeros
              mask := [], mc := 0, fill := [], col := dst.colour % 8, fs := none, stampPa := stamp, pc := 0, patBad := none
              stage := .moving, slot := none, missed := none, hit := none, next := 0, dropped := 0, status := 0, reason := 0, info := 0 }
          let reason := s2.copyReason op
          some (s2, if reason = 0 then op else { op with stage := .landing, status := 1, reason := reason })

/-- `COPYQ`: waits for room on the scoreboard. A pair or stamp that cannot be reached ends it with FAULT; its reason and
info are free values. -/
def execCopyq (q : Nat) (s : State) : Answer :=
  beginCmd q (fun t => t = 3) (fun s q c =>
    if s.queueWaits c.quad q.owner c.payload then s
    else match s.queueCopy q c with
    | none => (s.completeCmd q.q c.idx 0 1 ((s.freeWord 0).toNat % 256) (s.freeWord 1).toNat).advanceFree
    | some (s1, op) =>
      if (s.copyInterval op).isSome ∧ s.scoreFree c.quad = 0 then s else (s1.markBegun q.q c.idx).installCopy op) s

/-- Earlier commands of a queue that have not completed. -/
def Queue.earlierOpen (q : Queue) (idx : Nat) : Bool := (q.cmds.takeWhile fun c => c.idx ≠ idx) ≠ []

/-- Add 1 to the location of a `SIGNALQ`, as a release, once every earlier command has completed. -/
def State.signal (s : State) (q : Queue) (c : Cmd) : State :=
  if q.earlierOpen c.idx ∨ s.hbmOut c.payload then s
  else (s.writeNat c.payload 8 (s.readNat c.payload 8 + 1)).completeCmd q.q c.idx 0 0 0 0

/-- A `SIGNALQ` that has begun and waits for earlier commands. -/
def Queue.signalling (q : Queue) : Option Cmd := q.cmds.find? fun c => c.begun && decide (c.type = 4)

/-- `SIGNALQ`. -/
def execSignalq (q : Nat) (s : State) : Answer :=
  match (s.queue? q).bind fun x => x.signalling.map fun c => (x, c) with
  | some (x, c) => if x.earlierOpen c.idx then beginSignal q s else done (s.signal x c)
  | none => beginSignal q s
where
  beginSignal (q : Nat) : State → Answer :=
    beginCmd q (fun t => t = 4) fun s q c =>
      if ¬ s.owned q.owner rightRW c.payload 8 then s.completeCmd q.q c.idx 0 6 0 0
      else (s.markBegun q.q c.idx).signal q c

/-- `WAITQ`: begins by reading the location. -/
def execWaitq (q : Nat) (s : State) : Answer :=
  beginCmd q (fun t => t = 5) (fun s q c =>
    if ¬ s.owned q.owner rightR c.payload 8 then s.completeCmd q.q c.idx 0 6 0 0
    else if c.value ≤ s.readNat c.payload 8 then s.completeCmd q.q c.idx 0 0 0 0
    else s.markBegun q.q c.idx) s

/-- `WAITQ_COMPLETE`: the location has reached the value, now or at a write since the command began. -/
def execWaitqComplete (q : Nat) (s : State) : Answer :=
  match (s.queue? q).bind fun x => x.cmds.find? fun c => c.begun && decide (c.type = 5) with
  | none => done s
  | some c => if c.met ∨ (¬ s.hbmOut c.payload ∧ c.value ≤ s.readNat c.payload 8) then done (s.completeCmd q c.idx 0 0 0 0) else done s

/-! ### The end of a launch (R151, R297) -/

/-- The numeric account. -/
def Launch.accountBytes (l : Launch) : List Byte := (List.range 256).flatMap fun k => leBytes (Table.get 0 l.num k) 8

/-- Workgroups that a fault of class system or a KILL ended. -/
def State.faultedWgs (s : State) (l : Nat) : Nat :=
  (s.wgs.filter fun w => decide (w.launch = l) && w.primary && match w.status with
    | .finished x _ => decide (x.ended = 1) || decide (x.ended = 3)
    | _ => false).length

/-- Whether any workgroup was terminated. -/
def State.anyTerminated (s : State) (l : Nat) : Bool :=
  s.wgs.any fun w => decide (w.launch = l) && match w.status with
    | .finished x _ => decide (x.ended ≠ 0)
    | _ => false

/-- Status and info of a launch (R293, R297, R391). -/
def State.launchStatus (s : State) (l : Launch) : Nat × Nat :=
  if l.ended = 2 then (2, l.liveAtEnd)
  else if l.ended = 5 then (5, 64)
  else if l.ended = 6 then (5, 68)
  else if l.ended ≠ 0 ∨ s.anyTerminated l.id then (1, s.faultedWgs l.id)
  else (0, 0)

/-- A launch leaves the device: its workgroups, gangs, barriers. -/
def State.forgetLaunch (s : State) (l : Launch) : State :=
  let ws := (s.wgs.filter fun w => w.launch = l.id).map fun w => w.uid
  let gs := (s.gangs.filter fun g => g.launch = l.id).map fun g => g.uid
  { s with
    launches := s.launches.filter fun x => x.id ≠ l.id
    wgs := s.wgs.filter fun w => w.launch ≠ l.id
    gangs := s.gangs.filter fun g => g.launch ≠ l.id
    barriers := s.barriers.filter fun b =>
      if b.scope = 0 then !ws.contains b.inst else if b.scope = 1 then !gs.contains b.inst
      else if b.scope = 2 then decide (b.inst / 2 ≠ l.id) else decide (b.inst ≠ l.id)
    comparators := s.comparators.map fun c => if c.any fun d => d.launch = l.id then none else c
    tenants := s.tenants.map fun t => if t.wave = some l.id then { t with wave := none } else t
    podRegs := if l.podid = 0#32 then s.podRegs else s.podRegs.filter fun r => r.podid ≠ l.podid }

/-- Whether a launch may complete: every gang has retired and nothing of it is in flight. -/
def State.launchOver (s : State) (l : Launch) : Bool :=
  (s.gangs.all fun g => decide (g.launch ≠ l.id) || decide (g.status = .retired)) &&
    (s.wgs.all fun w => decide (w.launch ≠ l.id) || match w.status with
      | .finished _ retired => retired
      | _ => false) &&
    (s.copies.all fun c => decide (c.launch ≠ some l.id)) && (s.colls.all fun c => decide (c.launch ≠ l.id))

/-- Complete a launch: account, then status, info and stamp of its command. -/
def State.finishLaunch (s : State) (l : Launch) : State :=
  let s1 := if l.account = 0 then s else s.writeOut l.account l.accountBytes
  let (st, info) := s.launchStatus l
  let s2 := match l.queue with
    | some q => s1.completeCmd q l.cmd l.id st 0 info
    | none => s1
  s2.forgetLaunch l

/-- `LAUNCH_COMPLETE`. -/
def execLaunchComplete (l : Nat) (s : State) : Answer :=
  match s.launch? l with
  | none => done s
  | some x => if s.launchOver x then done (s.finishLaunch x) else done s

/-! ### Token buckets (R302) -/

/-- Quads that hold a gang of a launch charged to a bucket. -/
def State.bucketQuads (s : State) (p : Nat) : Nat :=
  ((s.gangs.filter fun g => (decide (g.status = .placed) || decide (g.status = .draining)) &&
    (s.launch? g.launch).any fun l => (l.queue.bind s.queue?).any fun q => q.bucket = p).map fun g => g.quad).eraseDups.length

/-- A queue of a bucket that has emptied: it leaves its slot at its next command boundary, and its state becomes 2; states that wait
for someone else's repair stay. -/
def State.dryQueue (s : State) (q : Queue) : State :=
  let s1 := s.onQueue q.q fun q => { q with dry := true }
  if q.slot ≠ none then s1.leaveSlot q 2
  else if q.qstate ≤ 2 then s1.setQState q 2
  else s1

/-- `BUCKET_TICK`: a µs of a bucket; an empty one unmaps its queues, which are mapped again when it has risen to a quarter of its depth,
or never with rate 0. -/
def execBucketTick (p : Nat) (s : State) : Answer :=
  let depth : Int := s.bucketDepth p
  let level := max (min (s.bucketLevel p + s.bucketRate p) depth - s.bucketQuads p) (-depth)
  let s1 := { s with buckets := Table.set 0 s.buckets p level }
  let mine := s1.queues.filter fun q => q.bucket = p
  done (if level ≤ 0 then mine.foldl (fun (s : State) q => s.dryQueue q) s1
    else if 0 < s.bucketRate p ∧ depth ≤ 4 * level then
      mine.foldl (fun (s : State) q => s.onQueue q.q fun q => { q with dry := false }) s1
    else s1)

/-! ### LNCH (R300, R301) -/

/-- The release before `LNCH`: loads, stores, copies of the threads and the common ones (R226). -/
def releaseStall (x : Who) (ts : List Thread) (code : Option Nat) : Option Nat :=
  let any := fun (f : Counters → Nat) => decide (0 < f x.w.common) || ts.any fun t => decide (0 < f t.cnt)
  if ts.isEmpty then none
  else if ts.any fun t => decide (0 < t.cnt.loads) then some (code.getD 2)
  else if any Counters.stores then some (code.getD 3)
  else if any Counters.copies then some (code.getD 4)
  else none

/-- A plain store made at once, word by word. -/
def Who.storeNow (x : Who) (s : State) (tid : Option Nat) (va : DWord) (loc : Loc) (data : List Byte) : State :=
  (wordParts data.length).foldl (fun (s : State) o =>
    s.performStore x.w
      { id := 0, wg := x.w.uid, tid := tid, acc := .store, va := va, loc := loc, size := data.length, dst := 0, data := data
        poison := none, colour := 0, acquire := false, release := true, pc := x.pc, left := [], lane := none, done := false } o) s

/-- The descriptor of `LNCH.POOL`: its location, or the fault. -/
def Who.poolAt (x : Who) (ab : BitVec 4) : Except FaultInfo Loc :=
  let a := x.w.addr ab.toNat
  match a.poison with
  | some q => .error (poisonFault q 0)
  | none =>
    if a.val.toNat / 2 ^ 56 ≠ 0 then .error (protectAt 0x4 .a a.val)
    else if a.val.toNat % 32 ≠ 0 then .error ⟨cMisalign, a.val.setWidth 32, a.val⟩
    else x.s.translate x.w .a true a.val 32

/-- A descriptor as read: virtual base, capacity, count, and the poison of the read. -/
structure PoolDesc where
  vbase : DWord
  capacity : Nat
  count : Nat
  poison : Poison
deriving DecidableEq, Repr

def Who.poolDesc (x : Who) (loc : Loc) : PoolDesc :=
  let bs := (x.s.readLoc x.w true loc 32).2
  let d := bs.map fun b => b.1
  ⟨BitVec.ofNat 64 (fieldAt d 0 8), fieldAt d 16 4, fieldAt d 20 4, joinAll bs⟩

/-- One append at count `i`: a fault, or a status with where its record goes. -/
def Who.append (x : Who) (d : PoolDesc) (i : Nat) (r : EngineRegs) : Except FaultInfo (Nat × Option Loc) :=
  match r.poison 3 with
  | some q => .error (poisonFault q 4)
  | none =>
    if (r.read r.first).val.toNat / 2 ^ 24 ≠ 0 then .ok (7, none)
    else if d.capacity ≤ i then .ok (10, none)
    else
      match x.s.translate x.w .w false (d.vbase + BitVec.ofNat 64 (16 * i)) 16 with
      | .error f => .error f
      | .ok l => .ok (0, some l)

/-- The count a thread meets: appends of one issue are made in the order of `%tid`. -/
def Who.countAt (x : Who) (d : PoolDesc) (sc : BitVec 8) : List Thread → Nat
  | [] => d.count
  | t :: ts =>
    let i := x.countAt d sc ts
    match (x.engineRegs (some t) sc).over 4, x.append d i (x.engineRegs (some t) sc) with
    | none, .ok (0, _) => i + 1
    | _, _ => i

/-- The status word of an append. -/
def poolStatus (st i : Nat) (p : Poison) : Reg := ⟨BitVec.ofNat 32 (st + if st = 0 then i * 256 else 0), p⟩

/-- The three words of a record and its reserved fourth. -/
def EngineRegs.record (r : EngineRegs) : List Byte :=
  ((r.words 3).flatMap fun w => leBytes w.toNat 4) ++ leBytes 0 4

/-- Perform an append: the count, then the record; under the record flag the index is logged. -/
def Who.doAppend (x : Who) (ab : BitVec 4) (loc : Loc) (d : PoolDesc) (i : Nat) (tid : Option Nat) (r : EngineRegs)
    (rec : Option Loc) (s : State) : State :=
  let s1 := match rec with
    | none => s
    | some l =>
      let s1 := match loc with
        | .mem a => x.storeNow s tid ((x.w.addr ab.toNat).val + 20) (.mem (a + 20)) (leBytes (i + 1) 4)
        | _ => s
      x.storeNow s1 tid (d.vbase + BitVec.ofNat 64 (16 * i)) l r.record
  s1.logEntry x.w (tid.getD (x.r.groups.flatten.headD 0)) 4 x.pc i

/-- The key under which a twin's `LNCH` result is kept: the thread, or the vamp. -/
def twinKey (tid : Option Nat) : Nat := tid.getD 4096

/-- A secondary twin takes the primary's status word; the primary hands its own over (R379). -/
def Who.isSecond (x : Who) : Bool := x.w.twin.isSome && !x.w.primary

def Who.handOver (x : Who) (tid : Option Nat) (v : Reg) (s : State) : State :=
  match x.w.twin with
  | some u => s.onWg u fun w => { w with inbox := w.inbox ++ [(twinKey tid, x.pc, v.val.toNat, v.poison)] }
  | none => s

/-- What the primary has handed over to a secondary, as a register. -/
def Who.takeTwin (x : Who) (tid : Option Nat) : Option Reg :=
  (x.w.takeInbox (twinKey tid) x.pc).map fun p => ⟨BitVec.ofNat 32 p.1.1, p.1.2⟩

/-- Drop what a secondary has taken. -/
def Who.dropTwin (x : Who) (tid : Option Nat) (s : State) : State :=
  s.onWg x.w.uid fun w => match w.takeInbox (twinKey tid) x.pc with
    | some (_, w') => w'
    | none => w

/-- Write a status register of a thread outside the window (R112). -/
def State.putStatus (s : State) (uid tid n : Nat) (r : Reg) : State := s.onThread uid tid fun t => t.deliverRegs n [r]

/-- Earlier threads of the issuing group, last first. -/
def Who.before (x : Who) (t : Thread) : List Thread :=
  let tids := x.r.groups.getD x.r.grp []
  (x.w.threads.filter fun u => tids.contains u.tid && decide (u.tid < t.tid) && (Form.plain []).operates x u).reverse

/-- Order 7 of `LNCH.POOL` for one issuer. -/
def Who.poolPlan (x : Who) (ab : BitVec 4) (sc : BitVec 8) (t : Option Thread) :
    Except FaultInfo (Loc × PoolDesc × Nat × Nat × Option Loc) :=
  let r := x.engineRegs t sc
  match r.over 4 with
  | some f => .error f
  | none =>
    match x.poolAt ab with
    | .error f => .error f
    | .ok loc =>
      let d := x.poolDesc loc
      let i := match t with
        | some t => x.countAt d sc (x.before t)
        | none => d.count
      match x.append d i r with
      | .error f => .error f
      | .ok (st, l) => .ok (loc, d, i, st, l)

def execLnchPool (a : BitVec 4) (sc : BitVec 8) : State → Answer :=
  let i : Instr := .lnchPool a sc
  if sc.toNat < 0x80 then
    issueThread (wordOf i) (.plain []) false
      (fun x ts =>
        if ts.any (coordsPending sc.toNat 4) then some 13
        else
          match releaseStall x ts none with
          | some n => some n
          | none =>
            if x.isSecond ∧ ts.any (fun t => (x.takeTwin (some t.tid)).isNone) then some 2 else none)
      fun x t =>
        match x.poolPlan a sc (some t) with
        | .error f => .fault f t
        | .ok (loc, d, i, st, l) =>
          let n := sc.toNat + 3
          let v := poolStatus st i d.poison
          let r := x.engineRegs (some t) sc
          if x.isSecond then
            let v := (x.takeTwin (some t.tid)).getD ⟨0, none⟩
            .ok (t.claim n) none [x.dropTwin (some t.tid), fun s => s.putStatus x.w.uid t.tid n v]
          else
            .ok (t.claim n) none
              [x.doAppend a loc d i (some t.tid) r l, x.handOver (some t.tid) v, fun s => s.putStatus x.w.uid t.tid n v]
  else
    let n := sc.toNat - 0x80
    issueUniform (wordOf i) ⟨[], decide (sc.toNat < 0xC0), none, noRights⟩
      (fun x =>
        match releaseStall x x.w.threads (some 2) with
        | some k => some k
        | none => if x.isSecond ∧ (x.takeTwin none).isNone then some 2 else none) fun x =>
        match x.poolPlan a sc none with
        | .error f => .fault f
        | .ok (loc, d, i, st, l) =>
          let v := poolStatus st i d.poison
          if x.isSecond then
            .ok (x.put (x.dropTwin none x.s) (n + 3) [(x.takeTwin none).getD ⟨0, none⟩])
          else
            .ok (x.put (x.handOver none v (x.doAppend a loc d i none (x.engineRegs none sc) l x.s)) (n + 3) [v])

/-- The command of `LNCH.GO`: its bytes, or the fault. -/
def Who.goCmd (x : Who) (ab : BitVec 4) (r : EngineRegs) : Except FaultInfo (State × List PByte) :=
  match r.over 2 with
  | some f => .error f
  | none =>
    let a := x.w.addr ab.toNat
    match a.poison with
    | some q => .error (poisonFault q 0)
    | none =>
      if a.val.toNat % 64 ≠ 0 then .error ⟨cMisalign, a.val.setWidth 32, a.val⟩
      else
        match x.readAt x.s a.val 64 with
        | .error f => .error f
        | .ok (s1, bs) =>
          match r.poison 1 with
          | some q => .error (poisonFault q 4)
          | none => .ok (s1, bs)

/-- The submission itself: the status, and the state after. With the queue's control block or ring beside an ABSENT die nothing is
written, and the manual states no status: a free value (log 108). -/
def State.submit (s : State) (tag : Tag) (q : Nat) (bs : List PByte) : State × Nat :=
  if 2 ^ 16 ≤ q then (s, 7)
  else
    match s.queue? q with
    | none => (s, 6)
    | some x =>
      if x.owner ≠ tag then (s, 1)
      else if s.queueOut x then (s.advanceFree, (s.freeWord 0).toNat)
      else if ¬ s.guestOk x then (s, 7)
      else if 2 ^ s.lgsize x ≤ s.waitingCmds x then (s, 10)
      else
        let wr := s.wrOf x
        let s1 := s.perform (s.ringOf x + 64 * (wr % 2 ^ s.lgsize x)) (bs.map fun b => b.1) (joinAll bs) 0
        (s1.writeNat (x.qcb + 12) 4 (wr + 1), 0)

def execLnchGo (a : BitVec 4) (sc : BitVec 8) : State → Answer :=
  let i : Instr := .lnchGo a sc
  if sc.toNat < 0x80 then
    let n := sc.toNat + 1
    issueThread (wordOf i) (.plain []) false
      (fun x ts =>
        if ts.any (coordsPending sc.toNat 2) then some 13
        else
          match releaseStall x ts none with
          | some n => some n
          | none => if x.isSecond ∧ ts.any (fun t => (x.takeTwin (some t.tid)).isNone) then some 2 else none)
      fun x t =>
        let r := x.engineRegs (some t) sc
        match x.goCmd a r with
        | .error f => .fault f t
        | .ok (_, bs) =>
          if x.isSecond then
            let v := (x.takeTwin (some t.tid)).getD ⟨0, none⟩
            .ok (t.claim n) none [x.dropTwin (some t.tid), fun s => s.putStatus x.w.uid t.tid n v]
          else
            .ok (t.claim n) none [fun s =>
              let (s1, st) := s.submit (x.s.tagOf x.w) (r.read r.first).val.toNat bs
              (x.handOver (some t.tid) ⟨BitVec.ofNat 32 st, none⟩ s1).putStatus x.w.uid t.tid n ⟨BitVec.ofNat 32 st, none⟩]
  else
    let n := sc.toNat - 0x80
    issueUniform (wordOf i) ⟨[], decide (sc.toNat < 0xC0), none, noRights⟩
      (fun x =>
        match releaseStall x x.w.threads (some 2) with
        | some k => some k
        | none => if x.isSecond ∧ (x.takeTwin none).isNone then some 2 else none) fun x =>
        let r := x.engineRegs none sc
        match x.goCmd a r with
        | .error f => .fault f
        | .ok (s1, bs) =>
          if x.isSecond then
            .ok (x.put (x.dropTwin none x.s) (n + 1) [(x.takeTwin none).getD ⟨0, none⟩])
          else
            let (s2, st) := s1.submit (x.s.tagOf x.w) (r.read r.first).val.toNat bs
            .ok (x.put (x.handOver none ⟨BitVec.ofNat 32 st, none⟩ s2) (n + 1) [⟨BitVec.ofNat 32 st, none⟩])

end Sys2Proof.Machine
end

