-- ==== Sys2Proof/Machine/Tenant.lean ====
section
/-! DEFINITION. Holdings and requests to the memory core (R317-R322), recalls (R323-R325), `RACK`, `RELINQ` and `LOSSRD`
(R326-R329, R334), seizure (R330-R332), remote ownership (R335, R336). -/

namespace Sys2Proof.Machine

/-- The request waits in CW2 (R322): the machine goes on, then it is tried again. -/
def State.tryAgain (s : State) (r : Request) : State := { s with agenda := s.agenda ++ [.own, .again r] }

/-! ### Units -/

/-- The die a unit belongs to (R14); lanes and queue slots belong to the island. -/
def unitDie (kind id : Nat) : Option Nat :=
  match kind with
  | 1 => some (id / 384)
  | 2 => some (id / 1536)
  | 3 => some (id / 384)
  | 4 => some (id / 768)
  | 5 => some (id / 1536)
  | 6 => some (id / 6291456)
  | 9 => some (id / 1440)
  | _ => none

/-- Whether a unit's binding may change: its die is attached (R386). -/
def State.unitLive (s : State) (kind id : Nat) : Bool :=
  match unitDie kind id with
  | some d => decide ((s.die? d).endp = .attached)
  | none => true

/-- The first id and the number of ids of a unit (R28): a bound extent as a whole; of a run of frames named with a size
code, the run. -/
def State.unitSpan (s : State) (kind id : Nat) (z : Option Nat) : Nat × Nat :=
  if kind ≠ 6 then (id, 1)
  else
    match (if fld (s.fotGet id) 31 1 = 1#1 then s.extentOf id else none) with
    | some i =>
      let w := s.extGet i 0
      ((fld w 0 24).toNat, extentFrames (fld w 24 4).toNat)
    | none =>
      match z with
      | some z => (id / extentFrames z * extentFrames z, extentFrames z)
      | none => (id, 1)

/-- 1 + z of an extent, 0 of anything else. -/
def extentValue (n : Nat) : Nat := if n = 1 then 0 else Nat.log2 n - 4

def seizureKey (kind id : Nat) : Nat := kind * 2 ^ 32 + id

def State.seizureCount (s : State) (kind id : Nat) : Nat := (Table.get 0#8 s.seizures (seizureKey kind id)).toNat

/-- The tag of a unit in a partition's holding (R24, R25). -/
def State.holdingTag (s : State) (part kind id : Nat) : Tag := Tag.make part 0xFFF (s.seizureCount kind id)

def isHolding (part : Nat) (t : Tag) : Bool := decide (Tag.num t = 0xFFF) && decide (Tag.part t = part)

/-- Whether every id of a unit is in a partition's holding; a frame of a bound extent is not. -/
def State.inHolding (s : State) (part kind base n : Nat) : Bool :=
  (List.range n).all fun i =>
    isHolding part (s.tagGet kind (base + i)) && (decide (kind ≠ 6) || decide (fld (s.fotGet (base + i)) 31 1 = 0#1))

/-! ### Clearing (R238, R265, R328) -/

/-- Whether an entry maps bytes of a range of local HBM (R214). -/
def overlapsFrames (base n : Nat) (e : TEntry) : Bool :=
  decide (regionOf e.pa = 0) && decide (e.pa < (base + n) * 65536) && decide (base * 65536 < e.pa + 2 ^ pageShift e.size)

def State.shootFrames (s : State) (base n : Nat) : State :=
  { s with
    tlb := s.tlb.filter fun e => match e.2 with
      | some t => !overlapsFrames base n t
      | none => true
    remoteOwn := s.remoteOwn.filter fun e =>
      let m := match e.z with
        | some z => extentFrames z
        | none => 1
      !(decide (e.frame < base + n) && decide (base < e.frame + m)) }

/-- Whether a place of the translation buffers is in a way. -/
def inWay (way k : Nat) : Bool := decide (k / 2048 = way / 16) && decide (k % 16 = way % 16)

/-- Remove the entries of a way (R202). -/
def State.clearWay (s : State) (way : Nat) : State := { s with tlb := s.tlb.filter fun e => !inWay way e.1 }

/-- The removal of some entries is in progress, or is given up: meanwhile what finds one of them waits (R210). -/
def State.setLeaving (s : State) (p : Nat → TEntry → Bool) (b : Bool) : State :=
  { s with tlb := s.tlb.map fun e => (e.1, e.2.map fun t => if p e.1 t then { t with leaving := b } else t) }

def State.clearUnit (s : State) (kind base n : Nat) : State :=
  match kind with
  | 2 => s.clearMem (sramBase base) (2 ^ 17)
  | 3 => { s with acc := Table.clear s.acc (base * 2 ^ 15) (2 ^ 15), accPoison := Table.clear s.accPoison (base * 2 ^ 15) (2 ^ 15) }
  | 4 => s.clearMem (wbufBase base) (2 ^ 16)
  | 5 => s.clearWay base
  | 6 => ((s.shootFrames base n).clearMem (base * 65536) (n * 65536)).noticeWrite (base * 65536) (n * 65536)
  | 9 => { s with slots := Table.clear s.slots (base / 15 * 128 + base % 15 * 8) 8 }
  | _ => s

/-! ### Changing a holding -/

/-- A frame ownership word. -/
def fotWord (t : Tag) (world : Nat) (rwx : BitVec 3) : Word := BitVec.ofNat 32 (t.toNat + world * 2 ^ 24 + rwx.toNat * 2 ^ 28)

/-- Drop the extent entry that starts at a frame, if there is one. -/
def State.dropExtent (s : State) (base : Nat) : State :=
  match (if fld (s.fotGet base) 31 1 = 1#1 then s.extentOf base else none) with
  | some i => (s.extSet i 0 0#32).extSet i 1 0x000FFF00#32
  | none => s

/-- The lowest free extent entry. -/
def State.freeExtent (s : State) : Option Nat := (List.range 4096).find? fun i => fld (s.extGet i 0) 31 1 = 0#1

/-- A reservation ends when its quad leaves the partition of its gang (R306). -/
def State.pruneReserved (s : State) (quad : Nat) : State :=
  match Table.get 0 s.reserved quad with
  | 0 => s
  | k + 1 =>
    if (List.range 4).any fun i => Tag.part (s.tagGet 1 (quad * 4 + i)) = Tag.part (s.gangTag k) then s
    else { s with reserved := Table.set 0 s.reserved quad 0 }

/-- A unit of a kind other than 6 has a new tag: it is no longer being made quiet. -/
def State.retag (s : State) (kind base : Nat) (t : Tag) : State :=
  let s1 : State := { s.tagSet kind base t with quieting := s.quieting.filter fun q => q ≠ (kind, base) }
  if kind = 1 then s1.pruneReserved (base / 4) else s1

/-- Put a unit into a partition's holding, cleared. -/
def State.toHolding (s : State) (part kind base n : Nat) : State :=
  let s1 := s.clearUnit kind base n
  if kind = 6 then
    (List.range n).foldl (fun (s : State) i => s.fotSet (base + i) (fotWord (s.holdingTag part 6 (base + i)) 0 0)) (s1.dropExtent base)
  else s1.retag kind base (s.holdingTag part kind base)

/-- Bind a unit of a holding to a tenant, cleared; a run of frames becomes an extent (R197). -/
def State.bindUnit (s : State) (t : Tag) (kind base n world : Nat) (rwx : BitVec 3) : State :=
  let s1 := s.clearUnit kind base n
  if kind ≠ 6 then s1.retag kind base t
  else if n = 1 then s1.fotSet base (fotWord t world rwx)
  else
    match s1.freeExtent with
    | none => s1
    | some i =>
      let s2 := (s1.extSet i 0 (BitVec.ofNat 32 (base + (Nat.log2 n - 5) * 2 ^ 24 + 2 ^ 31))).extSet i 1 (fotWord t world rwx)
      (List.range n).foldl (fun (s : State) k => s.fotSet (base + k) (0x800FFF00#32)) s2

/-! ### Quiet units (R239, R328) -/

/-- Workgroups that stand on a core. -/
def State.onCore (s : State) (core : Nat) : List Wg := s.wgs.filter fun w => decide (w.core = core) && w.isResident

/-- The gang a bank, block or segment is allotted to. -/
def State.allottedTo (s : State) (kind id : Nat) : Option Gang :=
  s.gangs.find? fun g => (decide (g.status = .placed) || decide (g.status = .draining)) &&
    (match kind with
      | 2 => decide (g.quad = id / 16) && inRun g.bank0 g.banks (id % 16)
      | 3 => decide (g.quad = id / 4) && inRun g.acc0 g.accs (id % 4)
      | 4 => decide (g.quad = id / 8) && inRun g.seg0 g.segs (id % 8)
      | _ => false)

/-- Whether a unit is in use by a resident gang (R327, R330). -/
def State.inUse (s : State) (kind id : Nat) : Bool :=
  if kind = 1 then !(s.onCore id).isEmpty else (s.allottedTo kind id).isSome

/-- Entries of all quads that map bytes of some frames, with their quads. -/
def State.entriesOver (s : State) (base n : Nat) : List (Nat × TEntry) :=
  s.tlb.filterMap fun e => e.2.bind fun t => if overlapsFrames base n t then some (e.1 / 2048, t) else none

/-- Entries of a way. -/
def State.entriesIn (s : State) (way : Nat) : List (Nat × TEntry) :=
  s.tlb.filterMap fun e => if inWay way e.1 then e.2.map fun t => (e.1 / 2048, t) else none

/-- Whether the steps before the change of tag are done (R328). -/
def State.unitQuiet (s : State) (kind base n : Nat) : Bool :=
  match kind with
  | 1 => (s.onCore base).isEmpty
  | 2 => (s.allottedTo 2 base).isNone && s.inbound.all fun i => i.bank ≠ base
  | 3 => (s.allottedTo 3 base).isNone
  | 4 => (s.allottedTo 4 base).isNone
  | 5 => (s.entriesIn base).all fun e => !s.usesEntry e.1 e.2
  | 6 => (s.entriesOver base n).all fun e => !s.usesEntry e.1 e.2
  | 7 => s.flights.all fun f => f.done || decide (f.lane ≠ some base)
  | 8 => s.queues.all fun q => q.slot ≠ some base
  | _ => true

/-- A unit is being made quiet: nothing new is placed on it until its tag changes. -/
def State.markQuieting (s : State) (kind base : Nat) : State :=
  { s with quieting := if s.quieting.contains (kind, base) then s.quieting else s.quieting ++ [(kind, base)] }

/-- Begin to make a unit quiet: gangs on it are pre-empted; the removal of its entries begins (R210, R214); a queue leaves its slot at its
next command boundary, and the slot then keeps the tag of the queue's owner until it changes with the unit's freeing. -/
def State.quietUnit (s : State) (kind base n : Nat) : State :=
  match kind with
  | 1 => (((s.onCore base).map fun w => w.gang).foldl (fun (s : State) g => s.beginPreempt g) s).markQuieting 1 base
  | 5 => s.setLeaving (fun k _ => inWay base k) true
  | 6 => s.setLeaving (fun _ t => overlapsFrames base n t) true
  | 7 => s
  | 8 =>
    ((s.queues.filter fun q => q.slot = some base).foldl (fun (s : State) q =>
      (s.onQueue q.q fun q => { q with slotTag := q.owner }).leaveSlot { q with slotTag := q.owner } 0) s).markQuieting 8 base
  | k =>
    match s.allottedTo k base with
    | some g => (s.beginPreempt g.uid).markQuieting k base
    | none => s.markQuieting k base

/-- A unit is made quiet no longer: who wanted it has been refused, or has enough. -/
def State.unquiet (s : State) (kind base n : Nat) : State :=
  match kind with
  | 5 => s.setLeaving (fun k _ => inWay base k) false
  | 6 => s.setLeaving (fun _ t => overlapsFrames base n t) false
  | _ => { s with quieting := s.quieting.filter fun q => q ≠ (kind, base) }

/-! ### GRANT, REVOKE, BIND (R318, R322) -/

def replyWith (s : State) (st : Nat) : Answer := done (s.tell (.status st))

/-- Whether a request names a resource (R27, R197). -/
def resNamed (u : Res) : Bool :=
  decide (u.id < maxId u.kind) && (u.z.isNone || (decide (u.kind = 6) && decide (u.z.getD 0 < 16)))

/-- Ids of a kind whose tag is of a partition. -/
def State.heldBy (s : State) (part kind : Nat) : List Nat :=
  s.tags.filterMap fun e => if e.1 / 2 ^ 32 = kind ∧ Tag.part e.2 = part then some (e.1 % 2 ^ 32) else none

/-- Channels in which a partition holds frames (R17). -/
def State.channelsOf (s : State) (part : Nat) : List Nat :=
  (s.fot.filterMap fun e => if Tag.part (fld (s.ownerWord e.1) 0 24) = part then some (e.1 / 32768) else none).eraseDups

/-- Whether a grant stays within the partition's quota (R318, R421). -/
def State.quotaOk (s : State) (part kind base n : Nat) : Bool :=
  let room := fun (xs : List Nat) (q : Nat) => decide (xs.eraseDups.length ≤ q)
  let w1 := s.partWord part 1
  match kind with
  | 1 => room (base / 4 :: (s.heldBy part 1).map (· / 4)) (fld w1 0 8).toNat
  | 5 => room (base :: (s.heldBy part 5).filter fun w => w / 16 = base / 16) (fld w1 17 5).toNat
  | 6 => room ((List.range ((base + n - 1) / 32768 + 1 - base / 32768)).map (base / 32768 + ·) ++ s.channelsOf part)
      (fld (s.partWord part 2) 0 9).toNat
  | 7 => room (base :: s.heldBy part 7) (fld (s.partWord part 2) 9 8).toNat
  | 8 => room (base :: s.heldBy part 8) (fld w1 8 9).toNat
  | _ => true

/-- Status of a `GRANT`. The last 1,024 frames are never granted (R198). -/
def State.grantStatus (s : State) (u : Res) (part : Nat) : Nat :=
  let (base, n) := s.unitSpan u.kind u.id u.z
  if ¬ s.partValid 0 then 1
  else if part = 0 ∨ 15 < part then 7
  else if ¬ s.partValid part ∨ ¬ resNamed u then 6
  else if ¬ s.inHolding 0 u.kind base n ∨ (u.kind = 6 ∧ 12581888 < base + n) then 1
  else if ¬ s.unitLive u.kind base then 12
  else if ¬ s.quotaOk part u.kind base n then 14
  else 0

/-- A request that is refused after it has waited leaves its unit as it finds it. -/
def State.giveUp (s : State) (u : Res) (st : Nat) : Answer :=
  let (base, n) := s.unitSpan u.kind u.id u.z
  replyWith (s.unquiet u.kind base n) st

/-- A grant asked for by the hypervisor. -/
def State.grantFrom (s : State) (u : Res) (part : Nat) : Answer :=
  let (base, n) := s.unitSpan u.kind u.id u.z
  let st := s.grantStatus u part
  if st ≠ 0 then s.giveUp u st
  else if ¬ s.unitQuiet u.kind base n then done ((s.quietUnit u.kind base n).tryAgain (.grant u part))
  else replyWith (s.toHolding part u.kind base n) 0

/-- A request comes over the management session of whoever asks; without one nobody asks (R322, R397). -/
def State.asked (s : State) (part : Nat) (act : Answer) : Answer := if s.managed part then act else done s

/-- `GRANT`. -/
def execGrant (u : Res) (part : Nat) (s : State) : Answer := s.asked 0 (s.grantFrom u part)

/-- Whether any id of a unit is bound to a tenant. -/
def State.anyBound (s : State) (kind base n : Nat) : Bool :=
  (List.range n).any fun i => decide (Tag.num (s.tagGet kind (base + i)) ≠ 0xFFF)

/-- A return to the pool asked for by the hypervisor; a unit already there stays as it is. -/
def State.revokeFrom (s : State) (u : Res) : Answer :=
  let (base, n) := s.unitSpan u.kind u.id u.z
  if ¬ s.partValid 0 then s.giveUp u 1
  else if ¬ resNamed u then s.giveUp u 6
  else if s.anyBound u.kind base n then s.giveUp u 12
  else if s.inHolding 0 u.kind base n then s.giveUp u 0
  else if ¬ s.unitLive u.kind base then s.giveUp u 12
  else if ¬ s.unitQuiet u.kind base n then done ((s.quietUnit u.kind base n).tryAgain (.revoke u))
  else replyWith (s.toHolding 0 u.kind base n) 0

/-- `REVOKE`. -/
def execRevoke (u : Res) (s : State) : Answer := s.asked 0 (s.revokeFrom u)

/-- A tenant that exists: created, or a partition's supervisor. No rule gives a supervisor's generation, which `CREATE` never assigns:
every tag with tenant number 0 is taken as one (log 54). -/
def State.tenantLives (s : State) (t : Tag) : Bool := (s.tenant? t).isSome || Tag.isSupervisor t

/-- Status of one binding to a tenant of a partition. The last 1,024 frames are never bound (R198). -/
def State.bindStatus (s : State) (b : BindReq) (part : Nat) : Nat :=
  let u := b.res
  let (base, n) := s.unitSpan u.kind u.id u.z
  if ¬ resNamed u then 6
  else if 15 < b.world then 7
  else if ¬ s.inHolding part u.kind base n ∨ (u.kind = 6 ∧ 12581888 < base + n) then 1
  else if ¬ s.unitLive u.kind base then 12
  else if 1 < n ∧ s.freeExtent = none then 14
  else 0

def State.bindOne (s : State) (b : BindReq) (t : Tag) : State :=
  let (base, n) := s.unitSpan b.res.kind b.res.id b.res.z
  s.bindUnit t b.res.kind base n b.world b.rwx

def State.bindQuiet (s : State) (b : BindReq) : Bool :=
  let (base, n) := s.unitSpan b.res.kind b.res.id b.res.z
  s.unitQuiet b.res.kind base n

def State.bindCalm (s : State) (b : BindReq) : State :=
  let (base, n) := s.unitSpan b.res.kind b.res.id b.res.z
  s.quietUnit b.res.kind base n

/-- A binding asked for by a partition's supervisor: to a tenant of its own. -/
def State.bindFrom (s : State) (part : Nat) (b : BindReq) (t : Tag) : Answer :=
  let st := if ¬ s.partValid part ∨ Tag.part t ≠ part then 1 else if ¬ s.tenantLives t then 6 else s.bindStatus b part
  if st ≠ 0 then s.giveUp b.res st
  else if ¬ s.bindQuiet b then done ((s.bindCalm b).tryAgain (.bind part b t))
  else replyWith (s.bindOne b t) 0

/-- `BIND`. -/
def execBind (b : BindReq) (q : BindFor) (s : State) : Answer := s.asked q.part (s.bindFrom q.part b q.tenant)

/-! ### CREATE and the runtime wave (R319, R320) -/

/-- A tenant from its descriptor. -/
def tenantFrom (t : Tag) (d : List Byte) : Tenant :=
  { tag := t, code := BitVec.ofNat 64 (fieldAt d 0 8), threads := fieldAt d 8 2, regs := fieldAt d 10 1
    commons := fieldAt d 11 1, core := fieldAt d 12 2, faults := fieldAt d 16 8, recallRing := fieldAt d 24 8
    notice := fieldAt d 32 8, rbase := fieldAt d 40 4, rsize := fieldAt d 44 4, args := BitVec.ofNat 64 (fieldAt d 48 8)
    faultSeq := 0, recallSeq := 0, recalls := [], waiting := [], losses := [], lossSeq := 0, owedLoss := 0, areaOff := 0
    ctrs := List.replicate 8 ⟨0, 0, 0, 0, none⟩, pendFaults := [], wave := none, room := [] }

/-- The launch of a runtime wave: one gang of one workgroup, with the world its quad is latched to (log 40). -/
def Tenant.waveLaunch (t : Tenant) (world : Nat) : Launch :=
  { id := 0, tenant := t.tag, queue := none, cmd := 0, code := t.code, args := t.args, gx := 1, gy := 1, gz := 1
    threads := t.threads, wpg := 1, regs := t.regs, commons := t.commons, banks := 0, acc := 0, wbuf := 0, scratch := 0
    world := world, prio := 0, guarded := false, twin := false, debug := false, record := false, strict := false
    persistent := false, tlimit := 0, account := 0, exits := 0, podid := 0, poddevs := 0, nwg := 1, pool := none
    wave := true, startNs := none, ended := 0, liveAtEnd := 0, num := [] }

/-- Descriptor fields outside their limits, reserved bits, misaligned addresses. -/
def descBad (t : Tenant) (d : List Byte) : Bool :=
  decide (d.length ≠ 64) || decide (t.code.toNat % 256 ≠ 0) || decide (t.threads = 0) || decide (64 < t.threads) ||
    decide (t.regs < 4) || decide (128 < t.regs) || decide (t.regs % 4 ≠ 0) || decide (64 < t.commons) ||
    decide (fieldAt d 14 2 ≠ 0) || decide (t.faults % 4096 ≠ 0) || decide (t.recallRing % 1024 ≠ 0) ||
    decide (t.notice % 64 ≠ 0) || decide (fieldAt d 56 8 ≠ 0)

/-- Frames the bindings of a request name. -/
def State.framesNamed (s : State) (bs : List BindReq) (f : Nat) : Bool :=
  bs.any fun b => b.res.kind = 6 && (let (base, n) := s.unitSpan 6 b.res.id b.res.z; decide (base ≤ f) && decide (f < base + n))

/-- Whether the rings, the notice area and the repossession area lie in frames the request binds. -/
def State.areasNamed (s : State) (t : Tenant) (bs : List BindReq) : Bool :=
  let at' := fun a n => (List.range ((a + n + 65535) / 65536 - a / 65536)).all fun i => s.framesNamed bs (a / 65536 + i)
  at' t.faults 4096 && at' t.recallRing 1024 && at' t.notice 64 &&
    (List.range t.rsize).all fun i => s.framesNamed bs (t.rbase + i)

/-- Whether anything still carries a tag of a tenant number (R25). -/
def State.carriesTag (s : State) (part num : Nat) : Bool :=
  let hit := fun t : Tag => decide (Tag.part t = part) && decide (Tag.num t = num)
  s.tags.any (fun e => hit e.2) || s.fot.any (fun e => hit (fld e.2 0 24)) ||
    s.extents.any (fun e => decide (e.1 % 2 = 1) && hit (fld e.2 0 24)) || s.queues.any (fun q => hit q.owner) ||
    s.remoteOwn.any (fun e => hit e.tag) || s.tenants.any (fun t => hit t.tag) ||
    s.tlb.any fun e => match e.2 with
      | some t => hit t.tag
      | none => false

/-- The lowest tenant number that is free. -/
def State.freeNumber (s : State) (part : Nat) : Option Nat :=
  ((List.range 4094).map (· + 1)).find? fun n => !s.carriesTag part n

/-- Quads on which the request binds a core. -/
def coreQuads (bs : List BindReq) : Nat :=
  ((bs.filterMap fun b => if b.res.kind = 1 then some (b.res.id / 4) else none).eraseDups).length

/-- Two bindings of one request name one unit. -/
def State.doubled (s : State) : List BindReq → Bool
  | [] => false
  | b :: bs =>
    let (base, n) := s.unitSpan b.res.kind b.res.id b.res.z
    (bs.any fun c =>
      let (base', n') := s.unitSpan c.res.kind c.res.id c.res.z
      decide (c.res.kind = b.res.kind) && decide (base < base' + n') && decide (base' < base + n)) || s.doubled bs

/-- The first status of a list that is not 0. -/
def firstStatus : List Nat → Nat
  | [] => 0
  | n :: r => if n = 0 then firstStatus r else n

/-- The context room of a runtime wave (R314). -/
def State.waveRoom (s : State) (t : Tenant) (part : Nat) : Option (List Nat) := s.roomFor part s.nextId [] ((t.waveLaunch 0).imageFrames 0)

/-- Free extent entries, and those that the bindings of a request take. -/
def State.freeExtents (s : State) : Nat := 4096 - (s.extents.filter fun e => decide (e.1 % 2 = 0) && decide (fld e.2 31 1 = 1#1)).length
def State.extentsNamed (s : State) (bs : List BindReq) : Nat :=
  (bs.filter fun b => decide (1 < (s.unitSpan b.res.kind b.res.id b.res.z).2)).length

/-- Status of a `CREATE`. -/
def State.createStatus (s : State) (r : CreateReq) : Nat :=
  let t := tenantFrom unboundTag r.desc
  if ¬ s.partValid r.part then 1
  else if r.binds.any fun b => ¬ resNamed b.res then 6
  else if descBad t r.desc ∨ (r.binds.any fun b => 15 < b.world) ∨ ¬ (r.binds.any fun b => b.res.kind = 1 ∧ b.res.id = t.core) ∨
      s.doubled r.binds then 7
  else
    let st := firstStatus (r.binds.map fun b => s.bindStatus b r.part)
    if st ≠ 0 then st
    else if ¬ s.areasNamed t r.binds then 1
    else if s.freeNumber r.part = none ∨ t.rsize < max 1 (71 * coreQuads r.binds) then 14
    else if (s.waveRoom t r.part).isNone ∨ s.freeExtents < s.extentsNamed r.binds then 14
    else 0

/-- Start a runtime wave: its launch and gang, placed on its core where it fits now (R320). -/
def State.startWave (s : State) (t : Tenant) : State :=
  let s1 := s.startLaunch (t.waveLaunch (s.latch (t.core / 4)))
  let id := s1.launchSeq
  let die := t.core / 384
  let s2 : State := { s1 with gangs := s1.gangs.map fun g => if g.launch = id then { g with die := die } else g }
  let s3 := s2.onTenant t.tag fun t => { t with wave := some id }
  match s3.launch? id, s3.gangs.find? fun g => g.launch = id with
  | some l, some g =>
    match s3.spots l g with
    | some p => s3.place l g p.1 p.2
    | none => s3
  | _, _ => s3

/-- Create the tenant. -/
def State.createTenant (s : State) (r : CreateReq) (num : Nat) : State :=
  let gen := (Table.get 0#8 s.gens (r.part * 4096 + num)) + 1
  let tag := Tag.make r.part num gen.toNat
  let t := tenantFrom tag r.desc
  let s1 := r.binds.foldl (fun (s : State) b => s.bindOne b tag) s
  let t1 := { t with room := (s.waveRoom t r.part).getD [] }
  let s2 : State := { s1 with gens := Table.set 0#8 s1.gens (r.part * 4096 + num) gen, tenants := s1.tenants ++ [t1] }
  (((s2.writeNat (t.notice + 48) 4 0).startWave t1).tell (.created tag)).tell (.status 0)

/-- A tenant's creation asked for by its partition's supervisor. -/
def State.createFrom (s : State) (r : CreateReq) : Answer :=
  let st := s.createStatus r
  if st ≠ 0 then replyWith (r.binds.foldl (fun (s : State) b =>
    let (base, n) := s.unitSpan b.res.kind b.res.id b.res.z
    s.unquiet b.res.kind base n) s) st
  else if ¬ r.binds.all s.bindQuiet then
    done ((r.binds.foldl (fun (s : State) b => s.bindCalm b) s).tryAgain (.create r))
  else
    match s.freeNumber r.part with
    | some n => done (s.createTenant r n)
    | none => replyWith s 14

/-- `CREATE`. -/
def execCreate (r : CreateReq) (s : State) : Answer := s.asked r.part (s.createFrom r)

/-- `RUNTIME_WAVE_PLACE` (R320, R386): a wave whose launch is over starts again once its die is attached. -/
def execRuntimeWavePlace (t : Tag) (s : State) : Answer :=
  match s.tenant? t with
  | none => done s
  | some x =>
    if x.wave = none ∧ s.checkTag t 1 x.core ∧ (s.die? (x.core / 384)).endp = .attached then done (s.startWave x) else done s

/-! ### Recalls (R323-R325) -/

/-- Ids of a kind bound to a tenant, highest first; an extent under its first frame. -/
def State.unitsOf (s : State) (t : Tag) (kind : Nat) : List Nat :=
  let ids :=
    if kind = 6 then
      (s.fot.filterMap fun e => if fld e.2 31 1 = 0#1 ∧ fld e.2 0 24 = t then some e.1 else none) ++
        s.extents.filterMap fun e =>
          if e.1 % 2 = 0 ∧ fld e.2 31 1 = 1#1 ∧ fld (s.extGet (e.1 / 2) 1) 0 24 = t then some (fld e.2 0 24).toNat else none
    else s.tags.filterMap fun e => if e.1 / 2 ^ 32 = kind ∧ e.2 = t then some (e.1 % 2 ^ 32) else none
  (sortNat ids).reverse

/-- Whether the hypervisor, or a partition's supervisor, may name a tenant (R317, R322). -/
def State.mayAsk (s : State) (hyper : Bool) (part : Nat) (t : Tag) : Bool :=
  if hyper then s.partValid 0 else s.partValid part && decide (Tag.part t = part)

/-- Status of a `RECALL`. -/
def State.recallStatus (s : State) (r : RecallReq) : Nat :=
  if ¬ s.mayAsk r.hyper r.part r.tenant then 1
  else if (s.tenant? r.tenant).isNone then 6
  else if maxId r.kind = 0 ∨ r.ids.any fun i => maxId r.kind ≤ i then 6
  else if (r.ids = [] ∧ r.count = 0) ∨ 8 < r.ids.length then 7
  else 0

/-- Over whose management session a request comes: the hypervisor's or a partition's supervisor's (R322). -/
def asker (hyper : Bool) (part : Nat) : Nat := if hyper then 0 else part

/-- `RECALL`: the request waits in CW2 for `RECALL_POST`. -/
def execRecall (r : RecallReq) (s : State) : Answer :=
  let st := s.recallStatus r
  s.asked (asker r.hyper r.part)
    (if st ≠ 0 then replyWith s st else replyWith (s.onTenant r.tenant fun t => { t with waiting := t.waiting ++ [r] }) 0)

/-- The interval of a recall in ns: 0 is 2 ms, at least 50 µs. -/
def recallNs (r : RecallReq) : Nat := if r.interval = 0 then 2000000 else max r.interval 50000

/-- A recall's record (R324). -/
def recallBytes (r : RecallReq) (seq posted deadline : Nat) : List Byte :=
  leBytes r.kind 1 ++ leBytes (if r.ids = [] then 0 else 1) 1 ++ leBytes r.ids.length 1 ++ leBytes (if r.hyper then 1 else 0) 1 ++
    leBytes (if r.ids = [] then r.count else 0) 4 ++ leBytes seq 8 ++ leBytes posted 8 ++ leBytes deadline 8 ++
    (List.range 8).flatMap fun i => leBytes (r.ids.getD i 0) 4

/-- Units a recall owes at its posting. -/
def State.owedAtPost (s : State) (r : RecallReq) : Nat :=
  if r.ids = [] then min r.count (s.unitsOf r.tenant r.kind).length
  else (r.ids.filter fun i => s.checkTag r.tenant r.kind i).length

/-- Post a recall. -/
def State.postRecall (s : State) (t : Tenant) (r : RecallReq) (rest : List RecallReq) : State :=
  let seq := t.recallSeq + 1
  let deadline := s.ns + recallNs r
  let rc : Recall :=
    { seq := seq, kind := r.kind, ids := r.ids, owed := s.owedAtPost r, origin := if r.hyper then 1 else 0
      deadline := deadline, given := [], taken := [], late := false, chosen := none, closing := false }
  let s1 := s.onTenant t.tag fun t => { t with recallSeq := seq, recalls := t.recalls ++ [rc], waiting := rest }
  (s1.writeOut (t.recallRing + 64 * (seq % 16)) (recallBytes r seq s.ns deadline)).bumpNotice t 16

/-- `RECALL_POST`: a tenant holds at most 16 open recalls; while its ring or notice area lies beside an ABSENT die, the recall is not
posted (R386). -/
def execRecallPost (t : Tag) (s : State) : Answer :=
  match s.tenant? t with
  | none => done s
  | some x =>
    match x.waiting with
    | r :: rest =>
      if x.recalls.length < 16 ∧ ¬ s.hbmOut x.recallRing ∧ ¬ s.hbmOut x.notice then done (s.postRecall x r rest) else done s
    | [] => done s

def State.onRecall (s : State) (t : Tag) (seq : Nat) (f : Recall → Recall) : State :=
  s.onTenant t fun x => { x with recalls := x.recalls.map fun r => if r.seq = seq then f r else r }

/-- Credit a relinquished unit to an open recall (R325). -/
def State.credit (s : State) (t : Tag) (kind base n : Nat) : State :=
  match s.tenant? t with
  | none => s
  | some x =>
    let names := fun r : Recall => r.ids.any fun i => decide (base ≤ i) && decide (i < base + n)
    match (x.recalls.find? fun r => decide (r.kind = kind) && names r).orElse fun _ =>
        x.recalls.find? fun r => decide (r.kind = kind) && r.ids.isEmpty with
    | some r => s.onRecall t r.seq fun r => { r with owed := r.owed - 1, given := r.given ++ [base] }
    | none => s

/-- The unit a recall is making quiet is needed no more. -/
def State.dropChosen (s : State) (r : Recall) : State :=
  match r.chosen with
  | some (id, _) =>
    let (base, n) := s.unitSpan r.kind id none
    s.unquiet r.kind base n
  | none => s

/-- Close a recall: the requester is told the ids given up and the ids seized. -/
def State.closeRecall (s : State) (t : Tag) (r : Recall) : State :=
  ((s.dropChosen r).onTenant t fun x => { x with recalls := x.recalls.filter fun q => q.seq ≠ r.seq }).tell
    (.recallClosed t r.seq r.given r.taken)

/-! ### RELINQ (R327) -/

/-- Status of `RELINQ`, without its wait. -/
def Who.relinqStatus (x : Who) (kind id : Nat) : Nat :=
  let base := (x.s.unitSpan kind id none).1
  if maxId kind ≤ id then 6
  else if ¬ x.s.checkTag (x.s.tagOf x.w) kind id then 1
  else if (kind = 1 ∧ id = x.w.core) ∨ ((kind = 2 ∨ kind = 3 ∨ kind = 4) ∧ x.s.inUse kind id) ∨ ¬ x.s.unitLive kind base then 12
  else 0

def execRelinq (d : BitVec 6) (a b : BitVec 8) : State → Answer :=
  let go := fun x : Who =>
    let k := (x.uint a).val.toNat
    let i := (x.uint b).val.toNat
    (k, x.s.unitSpan k i none, x.relinqStatus k i)
  issueUniformThen (wordOf (.relinq d a b)) ⟨[.c d.toNat 1 d.toNat, .usrc a 1, .usrc b 1], true, none, runtimeRights⟩
    (fun x =>
      let (k, (base, n), st) := go x
      if st = 0 ∧ ¬ x.s.unitQuiet k base n then some (2, x.s.quietUnit k base n) else none) fun x =>
      let (k, (base, n), st) := go x
      let t := x.s.tagOf x.w
      let p := (x.uint a).poison.join (x.uint b).poison
      if st ≠ 0 then .ok (x.put (if st = 12 then x.s.unquiet k base n else x.s) d.toNat [⟨statusWord st 0, p⟩])
      else
        let s1 := (x.s.toHolding (Tag.part t) k base n).credit t k base n
        .ok (x.put s1 d.toNat [⟨statusWord 0 (if k = 6 then extentValue n else 0), p⟩])

/-! ### Seizure (R330-R333) -/

/-- Copy a range of memory to another place, cells and poison. -/
def State.moveMem (s : State) (src dst n : Nat) : State :=
  let cs := areaOf s.mem src n
  let ps := areaOf s.memPoison src n
  (({ s with mem := putArea Memory.unlisted s.mem dst n cs, memPoison := putArea 0#12 s.memPoison dst n ps } : State).forgetRange dst n).noticeWrite
    dst n

/-- Bytes of a unit that are saved (R331). -/
def savedBytes (kind n : Nat) : Nat :=
  match kind with
  | 2 => 131072
  | 3 => 262144
  | 4 => 65536
  | 6 => 65536 * n
  | 9 => 32
  | _ => 0

/-- Copy a unit's contents to the repossession area. -/
def State.saveUnit (s : State) (kind base n dst : Nat) : State :=
  match kind with
  | 2 => s.moveMem (sramBase base) dst 131072
  | 3 =>
    let cs := (areaOf s.acc (base * 2 ^ 15) (2 ^ 15)).flatMap fun c =>
      (leBytes c.2.toNat 8).mapIdx fun i b => (8 * c.1 + i, b)
    let ps := (areaOf s.accPoison (base * 2 ^ 15) (2 ^ 15)).flatMap fun c => (List.range 32).map fun i => (8 * c.1 / 32 * 32 + i, c.2)
    (({ s with mem := putArea Memory.unlisted s.mem dst 262144 cs, memPoison := putArea 0#12 s.memPoison dst 262144 ps } : State).forgetRange
      dst 262144).noticeWrite dst 262144
  | 4 => s.moveMem (wbufBase base) dst 65536
  | 6 => s.moveMem (base * 65536) dst (65536 * n)
  | 9 => s.perform dst ((List.range 8).flatMap fun k =>
      leBytes (Table.get 0#32 s.slots (base / 15 * 128 + base % 15 * 8 + k)).toNat 4) none 0
  | _ => s

/-- Add one to a unit's seizure count (R25), for an extent to that of each of its frames. -/
def State.bumpSeizures (s : State) (kind base n : Nat) : State :=
  (List.range n).foldl (fun (s : State) i =>
    let k := seizureKey kind (base + i)
    { s with seizures := Table.set 0#8 s.seizures k (Table.get 0#8 s.seizures k + 1) }) s

/-- Seize a quiet unit (R331): the loss record names where its contents are. `bare` says that there is nothing to save, or that it is
saved with the gang that was pre-empted for it. -/
def State.seizeUnit (s : State) (t : Tag) (kind id reason : Nat) (bare : Bool) : State :=
  match s.tenant? t with
  | none => s
  | some x =>
    let (base, n) := s.unitSpan kind id none
    let bytes := savedBytes kind n
    let frames := (bytes + 65535) / 65536
    let want := !bare && decide (0 < bytes)
    let fits := want && decide (x.areaOff + frames ≤ x.rsize)
    let dst := (x.rbase + x.areaOff) * 65536
    let s1 := if kind = 6 then s.shootFrames base n else s
    let s2 := if fits then (s1.saveUnit kind base n dst).onTenant t fun x => { x with areaOff := x.areaOff + frames } else s1
    let s3 := (s2.bumpSeizures kind base n).toHolding (Tag.part t) kind base n
    s3.addLoss t ⟨kind, if want && !fits then 4 else reason, BitVec.ofNat 32 id, BitVec.ofNat 64 s.ns,
      if fits then BitVec.ofNat 64 dst else 0, if fits then BitVec.ofNat 64 bytes else 0⟩

/-- Units a recall may still take, in order (R330): none once nothing is owed. -/
def State.choosable (s : State) (x : Tenant) (r : Recall) : List Nat :=
  if r.owed = 0 then []
  else if ¬ r.ids.isEmpty then r.ids.filter fun i => s.checkTag x.tag r.kind i
  else
    let all := s.unitsOf x.tag r.kind
    let free := all.filter fun i => !s.inUse r.kind i
    let used := all.filter fun i => s.inUse r.kind i
    let wave := fun i => r.kind = 1 ∧ i = x.core
    (free ++ used).filter (fun i => ¬ wave i) ++ (free ++ used).filter fun i => wave i

/-- The next unit a recall takes among some: one it is making quiet already, else the first; none while what is left lies on dies that are
not attached. -/
def State.nextOf (s : State) (r : Recall) (ids : List Nat) : Option Nat :=
  (ids.find? fun i => s.unitLive r.kind i && r.chosen.any fun c => decide (c.1 = i)).orElse fun _ => ids.find? fun i => s.unitLive r.kind i

def State.nextSeize (s : State) (x : Tenant) (r : Recall) : Option Nat := s.nextOf r (s.choosable x r)

/-- Take one unit for a recall, or begin to make it quiet. -/
def State.seizeFor (s : State) (x : Tenant) (r : Recall) (id : Nat) : State :=
  let (base, n) := s.unitSpan r.kind id none
  let kept := r.chosen.any fun c => decide (c.1 = id) && c.2
  if s.unitQuiet r.kind base n then
    (s.seizeUnit x.tag r.kind id 1 (r.late || kept)).onRecall x.tag r.seq fun r =>
      { r with owed := r.owed - 1, taken := r.taken ++ [id], chosen := none }
  else
    let s1 := if r.chosen.any fun c => decide (c.1 = id) then s else s.dropChosen r
    (s1.quietUnit r.kind base n).onRecall x.tag r.seq fun r =>
      { r with chosen := some (id, kept || (s.allottedTo r.kind base).isSome) }

/-- A recall past its deadline makes one step; it closes when nothing is left to take. -/
def State.stepRecall (s : State) (x : Tenant) (r : Recall) : State :=
  match s.nextSeize x r with
  | some id => s.seizeFor x r id
  | none =>
    if (s.choosable x r).isEmpty then s.closeRecall x.tag r else s.onRecall x.tag r.seq fun r => { r with late := true }

/-- `RECALL_DEADLINE`. -/
def execRecallDeadline (t : Tag) (seq : Nat) (s : State) : Answer :=
  match s.tenant? t with
  | none => done s
  | some x =>
    match x.recalls.find? fun r => r.seq = seq with
    | some r => if r.deadline ≤ s.ns then done (s.stepRecall x r) else done s
    | none => done s

/-- A seizure asked for by the hypervisor: reason 3. `kept` says that a gang has been pre-empted for it. -/
def State.seizeFrom (s : State) (t : Tag) (u : Res) (kept : Bool) : Answer :=
  let (base, n) := s.unitSpan u.kind u.id none
  let u1 : Res := { u with z := none }
  if ¬ s.partValid 0 then s.giveUp u1 1
  else if ¬ resNamed u ∨ (s.tenant? t).isNone then s.giveUp u1 6
  else if ¬ s.checkTag t u.kind u.id then s.giveUp u1 1
  else if ¬ s.unitLive u.kind base then s.giveUp u1 12
  else if ¬ s.unitQuiet u.kind base n then
    done ((s.quietUnit u.kind base n).tryAgain (.seize t u (kept || (s.allottedTo u.kind base).isSome)))
  else replyWith (s.seizeUnit t u.kind u.id 3 kept) 0

/-- `SEIZE`. -/
def execSeize (t : Tag) (u : Res) (s : State) : Answer := s.asked 0 (s.seizeFrom t u false)

/-! ### RACK (R329) -/

/-- What a `RACK` that closes a recall has to seize before it ends (R329): all that is owed but the core on which it runs itself, which
cannot be quiet before it ends (log 83). -/
def Who.rackIds (x : Who) (t : Tenant) (r : Recall) : List Nat :=
  (x.s.choosable t r).filter fun i => ¬ (r.kind = 1 ∧ i = x.w.core)

/-- What it waits for: its next seizure; while what is left lies on dies that are not attached, their return. -/
def Who.rackWait (x : Who) (t : Tenant) (r : Recall) : Option (Nat × State) :=
  match x.s.nextOf r (x.rackIds t r) with
  | some id => some (2, x.s.seizeFor t r id)
  | none => if (x.rackIds t r).isEmpty then none else some (2, x.s.onRecall t.tag r.seq fun r => { r with late := true })

/-- The end of such a `RACK`: the recall is closed; one that still owes the `RACK`'s own core is closed for the tenant, and the core is
seized as at the deadline. -/
def Who.rackClose (x : Who) (t : Tenant) (r : Recall) : State :=
  if (x.s.choosable t r).isEmpty then x.s.closeRecall t.tag r
  else x.s.onRecall t.tag r.seq fun r => { r with deadline := min r.deadline x.s.ns, closing := true }

/-- The recall that `RACK` names, when its mode is claimed. -/
def Who.rackRecall (x : Who) (sv mode : Nat) : Except Nat (Tenant × Recall) :=
  if 1 < mode then .error 7
  else
    match x.s.tenant? (x.s.tagOf x.w) with
    | none => .error 6
    | some t =>
      match t.recalls.find? fun r => decide (r.seq % 2 ^ 32 = sv) && !r.closing with
      | none => .error 6
      | some r => .ok (t, r)

def execRack (d : BitVec 6) (a b : BitVec 8) : State → Answer :=
  let go := fun x : Who => x.rackRecall (x.uint a).val.toNat (x.uint b).val.toNat
  issueUniformThen (wordOf (.rack d a b)) ⟨[.c d.toNat 1 d.toNat, .usrc a 1, .usrc b 1], true, none, runtimeRights⟩
    (fun x =>
      match go x with
      | .ok (t, r) =>
        if r.owed ≠ 0 ∧ (x.uint b).val = 1#32 then x.rackWait t r else none
      | .error _ => none) fun x =>
      let p := (x.uint a).poison.join (x.uint b).poison
      let (s1, st, v) := match go x with
        | .error st => (x.s, st, 0)
        | .ok (t, r) =>
          if r.owed = 0 then (x.s.closeRecall t.tag r, 0, 0)
          else if (x.uint b).val = 1#32 then (x.rackClose t r, 0, 0)
          else (x.s, 11, min r.owed 65535)
      .ok (x.put s1 d.toNat [⟨statusWord st v, p⟩])

/-! ### LOSSRD (R334) -/

/-- The words of a loss record (R333). -/
def LossRec.words (r : LossRec) : List Word :=
  [BitVec.ofNat 32 (r.kind + r.reason * 16), r.id, r.time.setWidth 32, (r.time >>> 32).setWidth 32, r.addr.setWidth 32,
    (r.addr >>> 32).setWidth 32, r.bytes.setWidth 32, (r.bytes >>> 32).setWidth 32]

def lossError (st : Nat) : List Word := BitVec.ofNat 32 (st * 2 ^ 24) :: List.replicate 7 0#32

/-- What `LOSSRD` answers and does. -/
def State.lossrd (s : State) (tag : Tag) (x op : Nat) : State × List Word :=
  match s.tenant? tag with
  | none => (s, lossError 13)
  | some t =>
    match op with
    | 0 =>
      let r := if t.lossSeq ≤ x ∨ 256 < t.lossSeq - x then none else t.losses[t.losses.length - (t.lossSeq - x)]?
      (s, (r.map LossRec.words).getD (lossError 13))
    | 1 => (s, [BitVec.ofNat 32 t.lossSeq, BitVec.ofNat 32 (t.lossSeq - 256), BitVec.ofNat 32 t.areaOff, BitVec.ofNat 32 t.rsize, 0, 0, 0, 0])
    | 2 =>
      if t.areaOff < x then (s, lossError 7)
      else
        let n := (t.areaOff - x) * 65536
        ((s.moveMem ((t.rbase + x) * 65536) (t.rbase * 65536) n).onTenant tag fun t => { t with areaOff := t.areaOff - x },
          List.replicate 8 0#32)
    | _ => (s, lossError 7)

/-- `cd` must be a multiple of 4; `cd + 7` at or above the commons count is `REG_QUOTA`. -/
def execLossrd (d : BitVec 6) (a b : BitVec 8) : State → Answer :=
  issueUniform (wordOf (.lossrd d a b))
    ⟨[.c d.toNat 4 d.toNat, .c (d.toNat + 4) 4 d.toNat, .usrc a 1, .usrc b 1], true, none, runtimeRights⟩ noStallU fun x =>
      let p := (x.uint a).poison.join (x.uint b).poison
      let (s1, ws) := x.s.lossrd (x.s.tagOf x.w) (x.uint a).val.toNat (x.uint b).val.toNat
      .ok (x.put s1 d.toNat (ws.map fun w => ⟨w, p⟩))

/-! ### DESTROY (R322) -/

/-- All units of a tenant, as (kind, id). -/
def State.allUnits (s : State) (t : Tag) : List (Nat × Nat) :=
  (List.range 9).flatMap fun k => (s.unitsOf t (k + 1)).map fun i => (k + 1, i)

/-- The launches of a tenant end; its queues are unmapped for good, what they have not begun is dropped. -/
def State.beginDestroy (s : State) (t : Tag) : State :=
  let s1 := (s.queues.filter fun q => q.owner = t).foldl (fun (s : State) q =>
    (s.unmapQueue q 3).onQueue q.q fun q => { q with qstate := 3, cmds := q.cmds.filter fun c => c.begun }) s
  (s1.launches.filter fun l => l.tenant = t).foldl (fun (s : State) l => s.stopLaunch l.id 4 0) s1

/-- Return everything of a tenant and forget it. -/
def State.finishDestroy (s : State) (t : Tag) : State :=
  let s1 := (s.allUnits t).foldl (fun (s : State) u =>
    let (base, n) := s.unitSpan u.1 u.2 none
    s.toHolding (Tag.part t) u.1 base n) s
  { s1 with
    tenants := s1.tenants.filter fun x => x.tag ≠ t
    queues := s1.queues.filter fun q => q.owner ≠ t
    watches := s1.watches.filter fun w => match w.2 with
      | some x => decide (x.tenant ≠ t)
      | none => true }

/-- Whether nothing of a tenant is in progress. -/
def State.tenantQuiet (s : State) (t : Tag) : Bool :=
  (s.launches.all fun l => l.tenant ≠ t) && (s.copies.all fun c => c.tenant ≠ t) &&
    (s.allUnits t).all fun u => let (base, n) := s.unitSpan u.1 u.2 none; s.unitQuiet u.1 base n

/-- A tenant's end, asked for by the hypervisor or by the supervisor of the tenant's partition. -/
def State.destroyFrom (s : State) (hyper : Bool) (part : Nat) (t : Tag) : Answer :=
  if ¬ s.mayAsk hyper part t then replyWith s 1
  else if (s.tenant? t).isNone then replyWith s 6
  else if (s.allUnits t).any fun u => ¬ s.unitLive u.1 u.2 then replyWith s 12
  else
    let s1 := s.beginDestroy t
    if s1.tenantQuiet t then replyWith (s1.finishDestroy t) 0 else done (s1.tryAgain (.destroy hyper part t))

/-- `DESTROY`. -/
def execDestroy (r : DestroyReq) (s : State) : Answer :=
  s.asked (asker r.hyper r.part) (s.destroyFrom r.hyper r.part r.tenant)

/-! ### Remote ownership (R335, R336) -/

/-- Whether an entry covers what a tenant of the partition holds: a frame, or a whole extent. -/
def State.exportable (s : State) (e : ExportReq) : Bool :=
  let t := s.tagGet 6 e.frame
  let (base, n) := s.unitSpan 6 e.frame none
  decide (e.frame < maxId 6) && decide (Tag.num t ≠ 0xFFF) && decide (Tag.part t = e.part) && decide (base = e.frame) &&
    match e.z with
    | some z => decide (n = extentFrames z)
    | none => decide (n = 1)

/-- The rights are not above the frame's ceiling. -/
def State.underCeiling (s : State) (f : Nat) (rwx : BitVec 3) : Bool := decide (fld (s.ownerWord f) 28 3 &&& rwx = rwx)

def exportRec (e : ExportReq) : RemoteOwn := ⟨e.frame, e.z, e.tenant, e.rwx, e.dev⟩

/-- `EXPORT`: a full table refuses with QUOTA. -/
def execExportEntry (e : ExportReq) (s : State) : Answer :=
  if ¬ s.managed e.part then done s
  else if ¬ s.partValid e.part then replyWith s 1
  else if maxId 6 ≤ e.frame ∨ 1023 < e.dev then replyWith s 6
  else if ¬ s.exportable e then replyWith s 1
  else if ¬ s.underCeiling e.frame e.rwx then replyWith s 7
  else if s.remoteOwn.contains (exportRec e) then replyWith s 0
  else if 16384 ≤ s.remoteOwn.length then replyWith s 14
  else replyWith { s with remoteOwn := s.remoteOwn ++ [exportRec e] } 0

/-- `UNEXPORT`. -/
def execUnexportEntry (e : ExportReq) (s : State) : Answer :=
  if ¬ s.managed e.part then done s
  else if ¬ s.partValid e.part then replyWith s 1
  else if maxId 6 ≤ e.frame ∨ 1023 < e.dev then replyWith s 6
  else if Tag.part (s.tagGet 6 e.frame) ≠ e.part then replyWith s 1
  else if s.remoteOwn.contains (exportRec e) then
    replyWith { s with remoteOwn := s.remoteOwn.filter fun r => r ≠ exportRec e } 0
  else replyWith s 6

end Sys2Proof.Machine
end

