-- ==== Sys2Proof/Machine/Records.lean ====
section
/-! DEFINITION. The records that CW3 and CW5 write: fault records (R321, R340), debug records (R347), PC samples (R354)
and the deadlock detector (R358). -/

namespace Sys2Proof.Machine

/-! ### Fault and debug records -/

/-- A fault record's 64 bytes (R340). -/
def FaultRec.bytes (r : FaultRec) : List Byte :=
  leBytes r.cause 1 ++ leBytes (r.cls + 4 * r.chunk) 1 ++ leBytes r.slot 1 ++ [0#8] ++ leBytes r.core 2 ++ leBytes r.quad 2 ++
    leBytes r.launch 4 ++ leBytes r.fpc.toNat 4 ++ leBytes r.finfo.toNat 4 ++ leBytes r.tag.toNat 4 ++ leBytes r.addr.toNat 8 ++
    leBytes r.mask.toNat 32

/-- Whether record `n` may be written while software has read up to `seen` (R321). -/
def ringOpen (n seen room : Nat) : Bool := decide ((n + 2 ^ 32 - seen) % 2 ^ 32 < room)

/-- Write the oldest record CW3 holds for a tenant, then its notice. -/
def State.writeFault (s : State) (t : Tenant) (r : FaultRec) (rest : List FaultRec) : State :=
  let s1 := s.writeOut (t.faults + 64 * (t.faultSeq % 64)) r.bytes
  (s1.onTenant t.tag fun t => { t with pendFaults := rest, faultSeq := t.faultSeq + 1 }).bumpNotice t 0

/-- Whether a tenant's fault ring takes a record: it is not full, and it and the notice area are not beside an ABSENT die (R386). -/
def State.faultRoom (s : State) (t : Tenant) : Bool :=
  !s.hbmOut t.faults && !s.hbmOut t.notice && ringOpen (t.faultSeq % 2 ^ 32) (s.readNat (t.notice + 48) 4) 64

/-- `FAULT_RECORD_WRITE` (R321): while the ring is full the record waits in CW3. -/
def execFaultRecordWrite (tenant : Tag) (s : State) : Answer :=
  match s.tenant? tenant with
  | none => done s
  | some t =>
    match t.pendFaults with
    | [] => done s
    | r :: rest => if s.faultRoom t then done (s.writeFault t r rest) else done s

/-- The mailbox frame of a partition (R347). -/
def State.mailboxBase (s : State) (part : Nat) : Nat := (fld (s.cfgGet (0x04000000 + part)) 0 24).toNat * 65536

/-- The first record waiting for a partition, and the others. -/
def takePart (part : Nat) : List (Nat × FaultRec) → Option (FaultRec × List (Nat × FaultRec))
  | [] => none
  | (p, r) :: rest => if p = part then some (r, rest) else (takePart part rest).map fun x => (x.1, (p, r) :: x.2)

/-- Write a debug record: the record, the count, the reserved bytes as zero, the status word, the stamp (R347). -/
def State.writeDebug (s : State) (part : Nat) (r : FaultRec) : State :=
  let base := s.mailboxBase part
  let n := s.readNat (base + 0x10) 4
  (((s.writeOut (base + 0x40 + 64 * (n % 31)) r.bytes).writeNat (base + 0x10) 4 (n + 1)).writeOut (base + 0x18) (List.replicate 40 0)).bumpStamp
    base 0 0

/-- `DEBUG_RECORD_WRITE` (R347): with 31 records unread it waits; a mailbox frame that is no longer the launch's
tenant's takes none, and the record goes to the tenant's ring. -/
def execDebugRecordWrite (part : Nat) (s : State) : Answer :=
  match takePart part s.pendDebug with
  | none => done s
  | some (r, rest) =>
    if (s.mailboxOf r.tag).isNone then done ({ s with pendDebug := rest }.postFault r)
    else
      let base := s.mailboxBase part
      if ¬ s.hbmOut base ∧ ringOpen (s.readNat (base + 0x10) 4) (s.readNat (base + 0x14) 4) 31 then
        done ({ s with pendDebug := rest }.writeDebug part r)
      else done s

/-! ### PC samples -/

/-- A live thread that may be sampled: core, workgroup slot, `%tid`. -/
def State.sampled (s : State) (tag : Tag) : List (Nat × Nat × Nat) :=
  (s.wgs.filter fun w => w.isResident && decide (s.tagOf w = tag)).flatMap fun w =>
    (w.threads.filter (s.alive w)).map fun t => (w.core, w.slot, t.tid)

def tripleLess (a b : Nat × Nat × Nat) : Bool :=
  decide (a.1 < b.1) || (decide (a.1 = b.1) && (decide (a.2.1 < b.2.1) || (decide (a.2.1 = b.2.1) && decide (a.2.2 < b.2.2))))

/-- The next of a rotation after the last one taken, in ascending order. -/
def nextTriple (xs : List (Nat × Nat × Nat)) (last : Option (Nat × Nat × Nat)) : Option (Nat × Nat × Nat) :=
  (leastTriple (match last with
    | some l => xs.filter (tripleLess l)
    | none => xs)).orElse fun _ => leastTriple xs

/-- The sample of a thread (R354). -/
def State.sampleOf (s : State) (w : Wg) (t : Thread) (n : Nat) : DWord :=
  let stall := if w.issuing then 0 else s.stallOf w
  BitVec.ofNat 64 (s.standsAt w t / 4 % 2 ^ 24 + stall * 2 ^ 24 + t.tid * 2 ^ 28 + w.slot * 2 ^ 39 + w.core * 2 ^ 43 +
    (if w.issuing then 2 ^ 53 else 0) + n % 1024 * 2 ^ 54)

/-- `PC_SAMPLE`: one sample replaces the value of a counter that selects event 0x20. -/
def execPcSample (tenant : Tag) (ctr : Nat) (s : State) : Answer :=
  match s.tenant? tenant with
  | none => done s
  | some x =>
    match x.ctrs[ctr]? with
    | none => done s
    | some c =>
      if c.event ≠ 0x20 then done s
      else
        match nextTriple (s.sampled tenant) c.last with
        | none => done s
        | some (core, slot, tid) =>
          match s.wgAt core slot with
          | none => done s
          | some w =>
            match w.thread? tid with
            | none => done s
            | some t =>
              let v := s.sampleOf w t c.sample
              done (s.onCtr tenant ctr fun c => { c with value := v, sample := c.sample + 1, last := some (core, slot, tid) })

/-! ### Deadlocks -/

/-- A node of the wait-for graph: workgroup and thread. -/
abbrev WaitNode := Wg × Thread

/-- The wait kind of a thread that waits with reason 2, 3 or 4. -/
def Thread.waitKind (t : Thread) : Option Nat :=
  match t.place with
  | .waiting _ (.barrier ..) => some 2
  | .waiting _ (.tbar ..) => some 3
  | .waiting _ (.monitor ..) => some 4
  | _ => none

/-- The nodes: threads of resident and pre-empted workgroups that wait. -/
def State.waitNodes (s : State) : List WaitNode :=
  s.wgs.flatMap fun w => (w.threads.filter fun t => t.waitKind.isSome).map fun t => (w, t)

def nodeIs (w : Wg) (t : Thread) (n : WaitNode) : Bool := decide (n.1.uid = w.uid) && decide (n.2.tid = t.tid)

/-- Participants whose arrival, byte update or write would release a thread: of a barrier those not arrived in the phase;
of a transaction barrier the other threads of the gang; of a monitor those of the tenant (log 60). -/
def State.releasers (s : State) (n : WaitNode) : List WaitNode :=
  let live := fun w : Wg => (w.threads.filter fun t => t.live && !nodeIs w t n).map fun t => (w, t)
  match n.2.place with
  | .waiting _ (.barrier scope id _ _ _) =>
    let inst := s.barrierInst n.1 scope
    let arrived := fun (w : Wg) (t : Thread) => s.barriers.any fun b =>
      decide (b.scope = scope) && decide (b.inst = inst) && decide (b.id = id) && b.arrived.contains (w.uid, t.tid)
    ((s.wgs.filter (s.inScope scope inst)).flatMap live).filter fun m => !arrived m.1 m.2
  | .waiting _ (.tbar ..) => (s.wgs.filter fun w => w.gang = n.1.gang).flatMap live
  | .waiting _ (.monitor ..) => (s.wgs.filter fun w => s.tagOf w = s.tagOf n.1).flatMap live
  | _ => []

/-- Whether an engine still works for a tenant. -/
def State.enginesBusy (s : State) (tag : Tag) : Bool :=
  (s.copies.any fun c => c.tenant = tag) || (s.colls.any fun c => c.tenant = tag) ||
    s.matops.any fun m => (s.gang? m.gang).any fun g => (s.launch? g.launch).any fun l => l.tenant = tag

/-- Whether a node stays blocked while the nodes `ns` stay where they are: a barrier by any of its participants or by a
gang never placed, the others by all of theirs. -/
def State.blocked (s : State) (ns : List WaitNode) (n : WaitNode) : Bool :=
  let stuck := fun m : WaitNode => ns.any (nodeIs m.1 m.2)
  match n.2.place with
  | .waiting _ (.barrier scope ..) => s.unplacedIn scope (s.barrierInst n.1 scope) || (s.releasers n).any stuck
  | .waiting _ (.tbar ..) => !s.enginesBusy (s.tagOf n.1) && (s.releasers n).all stuck
  | .waiting _ (.monitor ..) => !s.enginesBusy (s.tagOf n.1) && (s.releasers n).all stuck
  | _ => false

/-- The nodes that nothing releases: what is left when nodes that are not blocked are dropped again and again. -/
def State.deadlocked (s : State) : Nat → List WaitNode → List WaitNode
  | 0, ns => ns
  | k + 1, ns => s.deadlocked k (ns.filter (s.blocked ns))

/-- The nodes of `ns` to which some edge of a node of `from'` goes, with those of `from'`, after at most `k` edges. -/
def State.reach (s : State) (ns : List WaitNode) : Nat → List WaitNode → List WaitNode
  | 0, xs => xs
  | k + 1, xs => s.reach ns k (ns.filter fun m => xs.any fun n => nodeIs m.1 m.2 n || (s.releasers n).any (nodeIs m.1 m.2))

/-- The nodes of `ns` that an edge leads to from a node. -/
def State.next (s : State) (ns : List WaitNode) (n : WaitNode) : List WaitNode :=
  ns.filter fun m => (s.releasers n).any (nodeIs m.1 m.2)

/-- Whether two nodes wait at one barrier that counts gangs never placed: they close a cycle through those gangs (R358). -/
def State.awaitsGang (s : State) (n m : WaitNode) : Bool :=
  match n.2.place, m.2.place with
  | .waiting _ (.barrier scope id _ _ _), .waiting _ (.barrier scope' id' _ _ _) =>
    decide (scope = scope') && decide (id = id') && decide (s.barrierInst n.1 scope = s.barrierInst m.1 scope') &&
      s.unplacedIn scope (s.barrierInst n.1 scope)
  | _, _ => false

/-- The nodes on a cycle with a node: those it reaches that reach it, and those that wait with it for a gang never placed. -/
def State.cycleOf (s : State) (ns : List WaitNode) (n : WaitNode) : List WaitNode :=
  let out := s.reach ns ns.length (s.next ns n)
  ns.filter fun m => s.awaitsGang n m ||
    (out.any (nodeIs m.1 m.2) && (s.reach ns ns.length (s.next ns m)).any (nodeIs n.1 n.2))

/-- The cycles among nodes that nothing releases. -/
def State.cycles (s : State) (ns : List WaitNode) : List (List WaitNode) :=
  ((ns.map (s.cycleOf ns)).filter fun c => !c.isEmpty).eraseDups

/-- The progress counter of what a node waits at: arrivals in the phase, the record's word, the monitored location. -/
def State.progressOf (s : State) (n : WaitNode) : Nat :=
  match n.2.place with
  | .waiting _ (.barrier scope id _ _ _) =>
    ((s.barriers.find? fun b => decide (b.scope = scope) && decide (b.inst = s.barrierInst n.1 scope) && decide (b.id = id)).map
      fun b => b.arrived.length).getD 0
  | .waiting _ (.tbar a _) => s.readNat a 8
  | .waiting _ (.monitor a _ _ _) => s.readNat a 8
  | _ => 0

/-- What a build notes of a node. -/
def State.noteOf (s : State) (n : WaitNode) : Nat × Nat × Place × Nat := (n.1.uid, n.2.tid, n.2.place, s.progressOf n)

/-- The ids of a cycle's nodes, in the order of the workgroups. -/
def State.nodeIds (s : State) (c : List WaitNode) : List (Nat × Nat) :=
  (s.waitNodes.filter fun n => c.any (nodeIs n.1 n.2)).map fun n => (n.1.uid, n.2.tid)

/-- The records of a cycle: one for each key and chunk of a workgroup. -/
def State.deadlockRecs (s : State) (c : List WaitNode) : List (Bool × FaultRec) :=
  let sites := (c.map fun n => (n.1.uid, n.2.key?.getD 0, n.2.tid / 256)).eraseDups
  sites.filterMap fun (uid, key, chunk) =>
    match c.find? fun n => decide (n.1.uid = uid) && decide (n.2.key? = some key) with
    | none => none
    | some (w, t) =>
      let tids := (c.filter fun n => decide (n.1.uid = uid) && decide (n.2.key? = some key)).map fun n => n.2.tid
      some (s.isDebug w,
        { cause := 0x23, cls := 1, chunk := chunk, slot := w.slot, core := w.core, quad := w.quad, launch := w.launch
          fpc := BitVec.ofNat 32 key, finfo := BitVec.ofNat 32 (t.waitKind.getD 0), tag := s.tagOf w, addr := 0
          mask := chunkMask tids chunk })

/-- Report a cycle to its tenants' fault rings, and of a debug launch to the debug mailbox too. -/
def State.reportCycle (s : State) (c : List WaitNode) : State :=
  (s.deadlockRecs c).foldl (fun (s : State) r =>
    let s1 := s.postFault r.2
    if r.1 ∧ (s.mailboxOf r.2.tag).isSome then { s1 with pendDebug := s1.pendDebug ++ [(Tag.part r.2.tag, r.2)] } else s1) s

/-- The node sets reported, after a report of some: a set stays reported while its workgroups exist, until one that shares a node with it
is reported in its stead. -/
def State.reportedAfter (s : State) (new : List (List (Nat × Nat))) : List (List (Nat × Nat)) :=
  (s.scanReported.filter fun c => (c.all fun n => (s.wg? n.1).isSome) && !(new.any fun d => d.any c.contains)) ++ new

/-- `DEADLOCK_SCAN`: cycles whose nodes all stood the same at the last build are reported, again only when their node set has
changed. -/
def execDeadlockScan (s : State) : Answer :=
  let nodes := s.waitNodes
  let still := fun n : WaitNode => s.lastScan.contains (s.noteOf n)
  let cycles := (s.cycles (s.deadlocked nodes.length nodes)).filter fun c => c.all still
  let new := cycles.filter fun c => !s.scanReported.contains (s.nodeIds c)
  let s1 := new.foldl (fun (s : State) c => s.reportCycle c) s
  done { s1 with lastScan := nodes.map s.noteOf, scanReported := s.reportedAfter (new.map s.nodeIds) }

end Sys2Proof.Machine
end

