-- ==== Sys2Proof/Machine/World.lean ====
section
/-! DEFINITION. Worlds, keys and handover (R359-R369), integrity counters and soft errors (R370, R373), and the
configuration registers (R366, R371, R372). -/

namespace Sys2Proof.Machine

/-! ### World latches (R359) -/

/-- `WORLD_LATCH_CHANGE`. -/
def execWorldLatchChange (quad world : Nat) (s : State) : Answer :=
  if quad < 192 ∧ world < 16 ∧ s.latch quad ≠ world ∧ s.quadEmpty quad ∧ Table.get 0 s.reserved quad = 0 ∧
      (s.die? (quad / 96)).endp = .attached then
    done (s.relatch quad world)
  else done s

/-! ### Key slots (R363, R364, R402) -/

/-- Frames of a world. -/
def State.worldFrames (s : State) (world : Nat) : List Nat :=
  (s.fot.filter fun e => (fld e.2 31 1 = 0#1 ∧ (fld e.2 24 4).toNat = world)).map (·.1) ++
    s.extents.flatMap fun e =>
      if e.1 % 2 = 0 ∧ fld e.2 31 1 = 1#1 ∧ (fld (s.extGet (e.1 / 2) 1) 24 4).toNat = world then
        (List.range (extentFrames (fld e.2 24 4).toNat)).map ((fld e.2 0 24).toNat + ·)
      else []

/-- Contexts of a world: gangs of its launches. -/
def State.contexts (s : State) (world : Nat) : List Nat := (s.gangs.filter fun g => s.gangWorld g = world).map fun g => g.uid

def State.setKey (s : State) (world : Nat) (k : KeySlot) : State := { s with keySlots := s.keySlots.set world k }

/-- Whether a number names a context of a world. -/
def State.keyOfWorld (s : State) (world k : Nat) : Bool :=
  if k % 4 = 0 then (s.contexts world).contains (k / 4)
  else if k % 4 = 1 then decide (k / 4 % 16 = world)
  else decide (k / 4 = world)

/-- The activation of a world: frames of a number that was revoked are filled with zero, and epochs start at 0. -/
def State.activate (s : State) (world : Nat) : State :=
  let s1 := if s.revoked.contains world then
      (s.worldFrames world).foldl (fun (s : State) f => s.clearMem (f * 65536) 65536) s
    else s
  ({ s1 with
      revoked := s1.revoked.filter fun w => w ≠ world
      epochs := s1.epochs.filter fun e => !s.keyOfWorld world e.1
      consumed := s1.consumed.filter fun e => !s.keyOfWorld world e.1 } : State).setKey world .active

/-- `SECPOL`. -/
def State.secpol (s : State) : Word := s.cfgGet 0x0D000000

/-- The owner of a world agrees a session key with CW4, once it has been answered a quote over partition 0's management session (R402,
steps 1 and 2; log 109). -/
def execAgreeKey (world : Nat) (s : State) : Answer :=
  done (if s.managed 0 ∧ s.quoted ∧ world < 16 ∧ ¬ s.agreed.contains world then { s with agreed := s.agreed ++ [world] } else s)

/-- `WORLD_ACTIVATE` (R402), over partition 0's management session; the session key is used once. -/
def execWorldActivate (world : Nat) (s : State) : Answer :=
  if ¬ s.managed 0 then done s
  else if 1 ≤ world ∧ world < 16 ∧ s.secpol.getLsbD world ∧ s.keySlots[world]? = some .empty ∧ s.agreed.contains world then
    done (({ s with agreed := s.agreed.filter fun w => w ≠ world }.activate world).tell (.activated world))
  else done (s.tell .failed)

/-- Resident gangs on quads latched to a world. -/
def State.worldGangs (s : State) (world : Nat) : List Gang :=
  s.gangs.filter fun g => decide (s.latch g.quad = world) && (decide (g.status = .placed) || decide (g.status = .draining))

/-- Step 1 of R364. -/
def State.beginRevoke (s : State) (world : Nat) : State :=
  (s.worldGangs world).foldl (fun (s : State) g => s.beginPreempt g.uid) (s.setKey world .revoking)

/-- Steps 2 and 3 of R364: what was sealed under the world's key can no longer be opened. -/
def State.finishRevoke (s : State) (world : Nat) : State :=
  let ids := s.contexts world
  ({ s with
      revoked := s.revoked ++ [world]
      sealedCtxs := s.sealedCtxs.filter fun c => c.world ≠ world
      gangs := s.gangs.map fun g => if ids.contains g.uid then { g with sealedEpoch := none } else g
      l1 := s.l1.filter fun x => regionOf x.addr ≠ 0 ∨ s.frameWorld x.addr ≠ world } : State).setKey world .empty

/-- `WORLD_REVOKE`: an active world begins to be revoked; once its gangs have left, its keys are destroyed. -/
def execWorldRevoke (world : Nat) (s : State) : Answer :=
  match s.keySlots[world]? with
  | some .active => done (if 1 ≤ world then s.beginRevoke world else s)
  | some .revoking => done (if (s.worldGangs world).isEmpty then s.finishRevoke world else s)
  | _ => done s

/-! ### Protected-context handover (R365) -/

/-- The frames of a context. -/
def State.ctxFrames (s : State) (c : Ctx) : List Nat :=
  match c with
  | .gang _ => []
  | .frames f n => (List.range n).map (f + ·)
  | .world w => s.worldFrames w

/-- The protected world to which all of some frames, or a world itself, belong. -/
def State.ctxWorld (s : State) (c : Ctx) : Option Nat :=
  match c with
  | .gang _ => none
  | .frames f n =>
    let w := s.frameWorld (f * 65536)
    if 1 ≤ w ∧ 0 < n ∧ (s.ctxFrames c).all fun k => s.frameWorld (k * 65536) = w then some w else none
  | .world w => if 1 ≤ w ∧ w < 16 then some w else none

/-- Gangs that stand in the way of a context: of a world those on its quads. -/
def State.ctxGangs (s : State) (c : Ctx) (w : Nat) : List Gang :=
  match c with
  | .world _ => s.worldGangs w
  | _ => []

/-- Whether an entry of a quad maps some frame of a context. -/
def State.mapsCtx (s : State) (c : Ctx) (t : TEntry) : Bool := (s.ctxFrames c).any fun f => overlapsFrames f 1 t

/-- Whether nothing reaches a context any more: its gangs have left, and the entries that map its frames are under removal and no access
uses them. -/
def State.ctxStill (s : State) (c : Ctx) (w : Nat) : Bool :=
  (s.ctxGangs c w).isEmpty && s.tlb.all fun e => e.2.all fun t => !s.mapsCtx c t || (t.leaving && !s.usesEntry (e.1 / 2048) t)

/-- Gangs of a world with their workgroups, as the image of the world holds them. -/
def State.ctxSaved (s : State) (c : Ctx) (w : Nat) : List Gang :=
  match c with
  | .world _ => s.gangs.filter fun g => decide (s.gangWorld g = w) && decide (g.status = .saved)
  | _ => []

/-- Prepare some frames or a world: its gangs are pre-empted, what translates to its frames waits, and once nothing reaches it its
image is written and sealed. -/
def State.prepareFrames (s : State) (c : Ctx) (w : Nat) : State :=
  let s1 := ((s.ctxGangs c w).foldl (fun (s : State) g => s.beginPreempt g.uid) s).setLeaving (fun _ t => s.mapsCtx c t) true
  if s1.ctxStill c w then
    let mine := fun a : Nat => decide (regionOf a = 0) && (s.ctxFrames c).contains (a / 65536)
    let gs := s.ctxSaved c w
    { s1 with sealedCtxs := (s.sealedCtxs.filter fun x => x.ctx ≠ c) ++
        [⟨c, w, s.epochOf w c, s.mem.filter fun x => mine x.1, s.memPoison.filter fun x => mine x.1, gs,
          s.wgs.filter fun v => gs.any fun g => decide (v.gang = g.uid)⟩] }
  else s1

/-- `HANDOVER_PREPARE`: the context is suspended, then its image is sealed with the context's epoch. -/
def execHandoverPrepare (c : Ctx) (s : State) : Answer :=
  match c with
  | .gang g =>
    match s.gang? g with
    | none => done s
    | some x =>
      if s.gangWorld x = 0 ∨ s.waveGang x then done s
      else if x.status = .placed then done (s.beginPreempt g)
      else if x.status = .draining ∧ s.drained g then
        done (s.onGang g fun x => { x with sealedEpoch := some (s.epochOf (s.gangWorld x) c) })
      else done s
  | c =>
    match s.ctxWorld c with
    | some w => if s.hasKey w then done (s.prepareFrames c w) else done s
    | none => done s

/-- The image of a context as it was sealed at an epoch. -/
def State.sealedAt (s : State) (c : Ctx) (e : Nat) : Option SealedCtx :=
  s.sealedCtxs.find? fun x => decide (x.ctx = c) && decide (x.epoch = e)

/-- The source of a context destroys what its image holds: its frames are cleared and its entries removed, and its gangs stay away until
an image of them is accepted (R365). -/
def State.leaveCtx (s : State) (x : SealedCtx) : State :=
  let gone := fun g : Gang => x.gangs.any fun h => decide (h.uid = g.uid)
  let s1 : State := { s with
    tlb := s.tlb.map fun e => (e.1, e.2.bind fun t => if s.mapsCtx x.ctx t then none else some t)
    gangs := s.gangs.map fun g => if gone g then
        { g with moved := true, savedBanks := [], savedSegs := [], savedAcc := [], savedBankPoison := [], savedSegPoison := []
                 savedAccPoison := [], savedOps := [], savedCopies := [] }
      else g }
  (s.ctxFrames x.ctx).foldl (fun (s : State) f => (s.clearMem (f * 65536) 65536).noticeWrite (f * 65536) 65536) s1

/-- `HANDOVER_COMMIT`: the source's live state is destroyed, frames cleared, and the epoch advanced; a context that something has reached
since its image was sealed is not committed. -/
def execHandoverCommit (c : Ctx) (s : State) : Answer :=
  match c with
  | .gang g =>
    match s.gang? g with
    | none => done s
    | some x =>
      if s.gangWorld x ≠ 0 ∧ x.status = .draining ∧ s.drained g ∧ x.sealedEpoch = some (s.epochOf (s.gangWorld x) c) then
        done ((s.commitSave x).onGang g fun x => { x with moved := true })
      else done s
  | c =>
    match s.ctxWorld c with
    | none => done s
    | some w =>
      match s.sealedAt c (s.epochOf w c) with
      | none => done s
      | some x => if s.ctxStill c w then done ((s.leaveCtx x).bumpEpoch w c) else done s

/-- Whether a target accepts an image: sealed under a key that still lives, at the current epoch minus one, once. -/
def State.accepts (s : State) (i : SealedImage) : Bool :=
  decide (1 ≤ i.world) && s.hasKey i.world && decide (i.epoch + 1 = s.epochOf i.world i.ctx) &&
    !s.consumed.contains (ctxKey i.world i.ctx, i.epoch) &&
    match i.ctx with
    | .gang g => (s.gang? g).all fun g => decide (s.gangWorld g = i.world) && decide (g.sealedEpoch = some i.epoch)
    | c => (s.sealedCtxs.find? fun x => x.ctx = c).all fun x => decide (x.world = i.world) && decide (x.epoch = i.epoch)

/-- What an accepted image holds stands again as it stood when it was sealed here: a gang may be placed, frames have their contents, a
world its gangs and their workgroups. -/
def State.openFrames (s : State) (i : SealedImage) : State :=
  match i.ctx, s.sealedAt i.ctx i.epoch with
  | .gang g, _ => s.onGang g fun x => { x with moved := false }
  | _, none => s
  | _, some x =>
    { s with
      mem := x.cells.foldl (fun m c => Memory.write m c.1 c.2) s.mem
      memPoison := x.poison.foldl (fun t c => Table.set 0#12 t c.1 c.2) s.memPoison
      gangs := s.gangs.map fun g => (x.gangs.find? fun h => h.uid = g.uid).getD g
      wgs := s.wgs.map fun w => (x.wgs.find? fun v => v.uid = w.uid).getD w
      sealedCtxs := s.sealedCtxs.filter fun y => y.ctx ≠ i.ctx }

/-- `IMAGE_ACCEPT`: an accepted epoch is consumed; a refusal reaches the hypervisor as a failed request. -/
def execImageAccept (img : SealedImage) (s : State) : Answer :=
  if s.accepts img then
    done ({ s with consumed := s.consumed ++ [(ctxKey img.world img.ctx, img.epoch)] }.openFrames img)
  else done (s.tell .failed)

/-! ### Lock classes and attestation (R366-R369) -/

/-- The lock class of a block (R366, R371). -/
def lockClass (block : Nat) : Nat :=
  match block with
  | 0x01 => 1
  | 0x02 => 1
  | 0x03 => 1
  | 0x04 => 0
  | 0x05 => 0
  | 0x06 => 0
  | 0x0A => 1
  | 0x0B => 0
  | 0x0D => 2
  | _ => 3

def State.lockctl (s : State) : Word := s.cfgGet 0x05000000

def State.runLocked (s : State) : Bool := s.lockctl.getLsbD 0

/-- A quote (R369). -/
def State.quoteHead (s : State) (nonce : List Byte) : List Byte :=
  let pad := fun (n : Nat) (bs : List Byte) => (bs ++ List.replicate n 0#8).take n
  let state := fun k : KeySlot => match k with
    | .empty => 0
    | .active => 1
    | .revoking => 2
  let keys := ((List.range 16).map fun w => (s.keySlots[w]?.map state).getD 0 * 4 ^ w).sum
  pad 32 nonce ++ pad 32 (Config.measurement s.imageSlot) ++
    pad 32 (Config.sha256 ((List.range 13).flatMap fun b => leBytes (lockClass (b + 1)) 4)) ++ leBytes s.secpol.toNat 4 ++
    leBytes s.lockctl.toNat 4 ++ leBytes keys 4 ++ List.replicate 20 0#8

/-- Whether quotes are answered: over a management session, from step 7 of bring-up onward (R397, R401). -/
def State.answersQuotes (s : State) : Bool :=
  s.forwards && s.quoting && s.sessions.any fun x => x.management

/-- `QUOTE_REQUEST`: whose session it is, the manual's event does not say; one over partition 0's lets a world's owner go on (log 109). -/
def execQuoteRequest (nonce : List (BitVec 8)) (s : State) : Answer :=
  let h := s.quoteHead nonce
  if s.answersQuotes then
    done ({ s with quoted := s.quoted || s.managed 0 }.tell (.quote (h ++ ((Config.sign h) ++ List.replicate 64 0#8).take 64)))
  else done s

/-- Whether a partition 1–15 has a mapped queue, a resident gang or a pre-empted gang (R367). -/
def State.guestWork (s : State) : Bool :=
  (s.queues.any fun q => q.slot.isSome && decide (Tag.part q.owner ≠ 0)) ||
    s.gangs.any fun g => decide (Tag.part (s.gangTag g.uid) ≠ 0) &&
      (decide (g.status = .placed) || decide (g.status = .draining) || decide (g.status = .saved))

/-- A write of `LOCKCTL`, with its status (R367, R372). -/
def State.writeLockctl (s : State) (x : Word) : State × Nat :=
  let old := s.lockctl
  if fld x 1 15 ≠ 0#15 then (s, 7)
  else if old.getLsbD 0 ∧ ¬ x.getLsbD 0 then
    if s.guestWork then (s, 12) else (s.cfgSet 0x05000000 (old &&& 0xFFFF0000#32), 0)
  else if x.getLsbD 0 ∧ ¬ old.getLsbD 0 then
    (s.cfgSet 0x05000000 (BitVec.ofNat 32 (min ((fld old 16 16).toNat + 1) 0xFFFF * 65536 + 1)), 0)
  else (s, 0)

/-- `LOCKCTL_WRITE`. -/
def execLockctlWrite (x : BitVec 32) (s : State) : Answer :=
  let (s1, st) := s.writeLockctl x
  done (s1.tell (.status st))

/-! ### Calendars (R308, R318) -/

/-- Owned slots of a partition among the four of a calendar word. -/
def ownedIn (p : Nat) (x : Word) : Nat :=
  ((List.range 4).filter fun j => !x.getLsbD (8 * j + 4) && decide ((fld x (8 * j) 4).toNat = p)).length

/-- The calendar quota of a partition for a class. -/
def State.calQuota (s : State) (p cls : Nat) : Nat :=
  match cls with
  | 0 => (fld (s.partWord p 3) 0 9).toNat
  | 1 => (fld (s.partWord p 3) 9 9).toNat
  | 2 => (fld (s.partWord p 3) 18 9).toNat
  | _ => (fld (s.partWord p 4) 0 9).toNat

/-- Owned slots of a partition in a class of a die. -/
def State.ownedSlots (s : State) (p die cls : Nat) : Nat :=
  ((List.range 64).map fun i => ownedIn p (s.cfgGet (0x02000000 + 256 * die + 64 * cls + i))).sum

/-- Whether a calendar word may be written. -/
def State.calOk (s : State) (die cls idx : Nat) (x : Word) : Bool :=
  let old := s.cfgGet (0x02000000 + 256 * die + 64 * cls + idx)
  decide (x &&& 0xE0E0E0E0#32 = 0#32) && (List.range 16).all fun p =>
    let before := s.ownedSlots p die cls
    let after := before - ownedIn p old + ownedIn p x
    decide (after ≤ s.calQuota p cls) || decide (after ≤ before)

/-- A write of a calendar word, with its status. -/
def State.writeCal (s : State) (die cls idx : Nat) (x : Word) : State × Nat :=
  if s.calOk die cls idx x then (s.cfgSet (0x02000000 + 256 * die + 64 * cls + idx) x, 0) else (s, 7)

/-- `CAL_WRITE`. -/
def execCalWrite (die cls idx : Nat) (x : BitVec 32) (s : State) : Answer :=
  if die < 2 ∧ cls < 4 ∧ idx < 64 then
    let (s1, st) := s.writeCal die cls idx x
    done (s1.tell (.status st))
  else done (s.tell (.status 6))

/-- `MCDROP_CLEAR` (R257, R371). -/
def execMcdropClear (bank : Nat) (s : State) : Answer :=
  if bank < 3072 then done (s.cfgSet (0x0B000000 + bank) 0) else done s

/-! ### Integrity (R370, R373) -/

/-- Unit class of a hop. -/
def hopClass (hop : Nat) : Nat := if hop = 8 then 0xC else hop + 1

/-- Count an event of `INTEG`; it saturates. -/
def State.countInteg (s : State) (i : Nat) : State :=
  let a := 0x09000000 + i
  s.cfgSet a (BitVec.ofNat 32 (min ((s.cfgGet a).toNat + 1) 0xFFFFFFFF))

/-- A word of the unified store that the check of hop 0 finds bad, at `idx` of a workgroup: a byte address of its scratch, or by
`idx / 2 ^ 32` a register (`%tid` × 256 + number), a predicate (`%tid` × 8 + number), a common register, an address register. -/
def State.poisonStore (s : State) (uid idx : Nat) (p : BitVec 12) : State :=
  let k := idx % 2 ^ 32
  if 2 ^ 54 ≤ idx then { s with memPoison := writePoison s.memPoison idx 1 (some p) }
  else
    match idx / 2 ^ 32 with
    | 0 => s.onThread uid (k / 256) fun t => { t with bank := t.bank.modify (k % 256) fun r => { r with poison := some p } }
    | 1 => s.onThread uid (k / 8) fun t => { t with preds := t.preds.modify (k % 8) fun r => { r with poison := some p } }
    | 2 => s.onWg uid fun w => { w with commons := w.commons.modify k fun r => { r with poison := some p } }
    | _ => s.onWg uid fun w => { w with addrs := w.addrs.modify k fun r => { r with poison := some p } }

/-- A packet in the network or on a link (R370): of a thread's access, of a copy's payload on its way to a bank, of what a copy moves
next, or of a contribution's data. -/
def State.poisonPacket (s : State) (id : Nat) (p : BitVec 12) : State :=
  { s with
    flights := s.flights.map fun f => if f.id = id then { f with poison := some p } else f
    inbound := s.inbound.map fun i => if i.id = id then { i with poison := some p } else i
    copies := s.copies.map fun c => if c.id = id then { c with hit := some p } else c
    colls := s.colls.map fun c => if c.id = id then { c with hit := some p } else c }

/-- A packet in transit that waits at a link (R370, R388). -/
def State.poisonTransit (s : State) (num : Nat) (p : BitVec 12) : State :=
  { s with buffered := s.buffered.map fun b => if b.2.num = num then (b.1, { b.2 with poison := some p }) else b }

/-- A request of a protected world whose tag has failed twice (R361): a write is discarded, a read completes with poisoned data, and an
atomic does both. -/
def State.lostRequest (s : State) (f : Flight) (p : BitVec 12) : State :=
  let core := ((s.wg? f.wg).map fun w => w.core).getD 768
  match f.acc with
  | .store => s.finishFlight f core
  | .red _ => s.finishFlight f core
  | .atom _ => (s.onThread f.wg (f.tid.getD 0) fun t =>
      t.deliverRegs f.dst (regsOf false ((s.freeBytes 0 f.size).map fun b => (b, some p)))).finishFlight f core
  | .load _ => s.onFlight f.id fun f => { f with poison := some p }

/-- Whether a copy's next element is written to a memory slice: then a packet whose tag has failed twice is a discarded write (R361). -/
def CopyOp.writesSlice (c : CopyOp) : Bool :=
  (c.elem c.next).2.any fun p => decide (p.va / 2 ^ 56 = 0)

/-- The next packet of a protected world's copy has lost its tag twice: the write is discarded, or the data read are poisoned. A copy
from memory to memory has packets of both kinds: which one is met is a free choice. -/
def State.lostElement (s : State) (c : CopyOp) (p : BitVec 12) : State :=
  if c.writesSlice ∧ ((s.copyReads c).all (fun a => decide (regionOf a = 4)) ∨ s.choose 0) then
    (s.onCopy c.id fun c => { c with next := c.next + 1 }).advanceFree
  else (s.poisonPacket c.id p).advanceFree

/-- A network packet of what is in flight under a number (R361, R370). -/
def State.lostPacket (s : State) (id : Nat) (p : BitVec 12) : State :=
  match s.copy? id with
  | some c => if c.world ≠ 0 ∧ c.stage = .moving then s.lostElement c p else s.poisonPacket id p
  | none => s.poisonPacket id p

/-- The request in flight of a protected world that a number names. -/
def State.protectedFlight (s : State) (id : Nat) : Option Flight :=
  (s.flight? id).bind fun f => if !f.done ∧ (s.wg? f.wg).any (fun w => s.worldOf w ≠ 0) then some f else none

/-- Poison the granule a datum lies in. `place` and `idx` name it: for the unified store a word of a core's L1 (`place` the
core, `idx` the address) or a word of a workgroup (`place` 768 + the workgroup); for banks, L2 and HBM the address `idx`, for the weight
buffer the eight bytes it lies in; for the accumulator the element `idx`; for packets what is in flight under the number `idx`, on a link
with `place` 1 a packet in transit. -/
def State.poisonAtHop (s : State) (e : HopError) (p : BitVec 12) : State :=
  match e.hop with
  | 0 =>
    if e.place < 768 then
      { s with l1 := s.l1.map fun x => if x.core = e.place ∧ x.addr = e.idx then { x with poison := some p } else x }
    else s.poisonStore (e.place - 768) e.idx p
  | 2 => { s with accPoison := Table.set 0#12 s.accPoison e.idx p }
  | 3 => { s with memPoison := markPoison s.memPoison (e.idx / 8 * 8) p 8 }
  | 6 => match s.protectedFlight e.idx with
    | some f => s.lostRequest f p
    | none => s.lostPacket e.idx p
  | 7 => if e.place = 1 then s.poisonTransit e.idx p else s.poisonPacket e.idx p
  | 8 => s
  | _ => { s with memPoison := writePoison s.memPoison e.idx 1 (some p) }

/-! ### CFG (R371, R372) -/

/-- Registers of a block; `WKEY` starts at 1. -/
def blockSize (block : Nat) : Nat :=
  match block with
  | 0x01 => 128
  | 0x02 => 512
  | 0x03 => 768
  | 0x04 => 16
  | 0x05 => 1
  | 0x06 => 16
  | 0x07 => 192
  | 0x08 => 256
  | 0x09 => 18
  | 0x0A => 8
  | 0x0B => 3072
  | 0x0D => 1
  | _ => 0

/-- The block and index of a register's address. -/
def cfgWhere (a : Nat) : Option (Nat × Nat) :=
  let b := a / 2 ^ 24
  let i := a % 2 ^ 24
  if i < blockSize b ∧ ¬ (b = 6 ∧ i = 0) then some (b, i) else none

/-- Whether a partition stands in a quad's list. -/
def State.sliceLists (s : State) (quad p : Nat) : Bool := (s.sliceList quad).any fun x => (fld x 0 4).toNat = p

/-- The readers of a register (R371). -/
def State.mayRead (s : State) (t : Tag) (b i : Nat) : Bool :=
  let sup := Tag.isSupervisor t
  let p := Tag.part t
  match b with
  | 0x01 => sup && (decide (p = 0) || decide (p = i / 8))
  | 0x02 => sup && s.partValid p
  | 0x03 => sup && (decide (p = 0) || s.sliceLists (i / 4) p)
  | 0x04 => sup && (decide (p = 0) || decide (p = i))
  | 0x05 => sup && s.partValid p
  | 0x06 => sup && decide (p = 0)
  | 0x07 => sup && s.partValid p
  | 0x08 => true
  | 0x09 => sup && decide (p = 0)
  | 0x0A => sup && s.partValid p
  | 0x0B => sup && decide (p = 0)
  | _ => true

/-- A register's value; fields that are only written read as zero. -/
def State.cfgRead (s : State) (b i : Nat) : Word :=
  match b with
  | 0x06 => match s.keySlots[i]? with
    | some .active => 1#32
    | some .revoking => 2#32
    | _ => 0#32
  | 0x08 => BitVec.ofNat 32 (lockClass i)
  | _ => s.cfgGet (b * 2 ^ 24 + i)

/-- `cd` must be even, `sb` zero; `REG_QUOTA` names the register `cd + 1`. -/
def execCfgr (d : BitVec 6) (a : BitVec 8) : State → Answer :=
  issueUniform (wordOf (.cfgr d a))
    ⟨[.c d.toNat 2 (0x81 + d.toNat), .usrc a 1], decide (d.toNat % 2 = 0), none, noRights⟩ noStallU fun x =>
      let p := (x.uint a).poison
      let (v, st) : Word × Word := match cfgWhere (x.uint a).val.toNat with
        | none => (0, 6)
        | some (b, i) => if x.s.mayRead (x.s.tagOf x.w) b i then (x.s.cfgRead b i, 0) else (0, 9)
      .ok (x.put x.s d.toNat [⟨v, p⟩, ⟨st, p⟩])

/-- Clamp a field to its largest value. -/
def clampField (lo n top : Nat) (x : Nat) : Nat :=
  if top < bitsOf x lo n then x - bitsOf x lo n * 2 ^ lo + top * 2 ^ lo else x

/-- Reserved bits of a partition word (R317). -/
def partReserved (k : Nat) : Word :=
  match k with
  | 0 => 0x000000FE#32
  | 1 => 0xFFC00000#32
  | 2 => 0xFFFE0000#32
  | 3 => 0xF8000000#32
  | 4 => 0xFFFE0000#32
  | 5 => 0#32
  | _ => 0xFF000000#32

/-- A partition word as it is written: fields above their range become the largest in range, a share of 0 becomes 1. -/
def partClamp (k x : Nat) : Nat :=
  match k with
  | 0 => if bitsOf x 8 8 = 0 then x + 256 else x
  | 1 => clampField 17 5 16 (clampField 8 9 256 (clampField 0 8 192 x))
  | 2 => clampField 9 8 144 (clampField 0 9 384 x)
  | 3 => clampField 18 9 256 (clampField 9 9 256 (clampField 0 9 256 x))
  | 4 => clampField 9 8 192 (clampField 0 9 256 x)
  | _ => x

/-- A time-slice entry as it is written, if it may be (R371). -/
def sliceEntry (x : Word) : Option Word :=
  if x &&& 0xFC000020#32 ≠ 0#32 ∨ 1000000 < (fld x 6 20).toNat then none
  else if x.getLsbD 4 ∧ (fld x 6 20).toNat < 200 then some ((x &&& 0x0000001F#32) ||| BitVec.ofNat 32 (200 * 64))
  else some x

/-- A partition whose entry has valid clear has no queue mapped (R317). -/
def State.unmapPart (s : State) (part : Nat) : State :=
  if s.partValid part then s
  else (s.queues.filter fun q => q.slot.isSome ∧ Tag.part q.owner = part).foldl (fun (s : State) q => s.leaveSlot q 0) s

/-- The write of a register that is not read-only nor locked: the state after, and the status. A revoke has been waited for. -/
def State.cfgWrite (s : State) (b i : Nat) (x : Word) : State × Nat :=
  let a := b * 2 ^ 24 + i
  match b with
  | 0x01 =>
    if x &&& partReserved (i % 8) ≠ 0#32 then (s, 7)
    else ((s.cfgSet a (BitVec.ofNat 32 (partClamp (i % 8) x.toNat))).unmapPart (i / 8), 0)
  | 0x02 => s.writeCal (i / 256) (i / 64 % 4) (i % 64) x
  | 0x03 => match sliceEntry x with
    | some y => (s.cfgSet a y, 0)
    | none => (s, 7)
  | 0x04 => if fld x 24 8 ≠ 0#8 then (s, 7) else (s.cfgSet a x, 0)
  | 0x05 => s.writeLockctl x
  | 0x06 => if x &&& 0xFFFFFEFC#32 ≠ 0#32 then (s, 7) else (s, 0)
  | 0x0A =>
    let ok := if i = 0 then decide (400 ≤ x.toNat) && decide (x.toNat ≤ 2100)
      else decide (400 ≤ x.toNat) && decide (x.toNat ≤ 850) && decide (x.toNat % 25 = 0)
    if ok then (s.cfgSet a x, 0) else (s, 7)
  | 0x0B => (s.cfgSet a 0, 0)
  | 0x0D => if x &&& 0xFFFE0001#32 ≠ 0#32 then (s, 7) else ({ s.cfgSet a x with resetLocked := true }, 0)
  | _ => (s, 7)

/-- Whether a register is read-only to `CFGW`. -/
def cfgReadOnly (b i : Nat) : Bool := decide (lockClass b = 3) || (decide (b = 0x0A) && decide (2 ≤ i))

/-- Whether a register is locked (R366). -/
def State.cfgLocked (s : State) (b : Nat) : Bool :=
  match lockClass b with
  | 1 => s.runLocked
  | 2 => s.resetLocked
  | _ => false

/-- The rights of partition 0's supervisor (R83). -/
def supervisorRights (x : Who) : Option Nat :=
  if Tag.isSupervisor (x.s.tagOf x.w) ∧ Tag.part (x.s.tagOf x.w) = 0 then none else some 3

/-- The world whose keys a write revokes. -/
def cfgRevokes (a : Nat) (x : Word) : Option Nat :=
  match cfgWhere a with
  | some (0x06, i) => if x &&& 0xFFFFFEFC#32 = 0#32 ∧ x.getLsbD 8 then some i else none
  | _ => none

/-- A calendar word that a write is to change, and its value: the write takes effect at the next wrap (R308, R372). -/
def State.calPending (s : State) (a : Nat) (x : Word) : Option (Bool) :=
  match cfgWhere a with
  | some (0x02, i) =>
    if ¬ s.calOk (i / 256) (i / 64 % 4) (i % 64) x then none
    else if s.cfgGet a ≠ x then some true
    else if Table.get 0x10101010#32 s.calActive a ≠ x then some false
    else none
  | _ => none

/-- A revoke is waited for under stall reason 2 until its world's slot is empty, a calendar write until the period wraps. -/
def execCfgw (d : BitVec 6) (a b : BitVec 8) : State → Answer :=
  issueUniformThen (wordOf (.cfgw d a b))
    ⟨[.c d.toNat 1 d.toNat, .usrc a 1, .usrc b 1], true, none, supervisorRights⟩
    (fun x =>
      if (x.uint b).poison.isSome then none
      else
        match cfgRevokes (x.uint a).val.toNat (x.uint b).val with
        | none =>
          if cfgReadOnly ((x.uint a).val.toNat / 2 ^ 24) ((x.uint a).val.toNat % 2 ^ 24) ∨ x.s.cfgLocked ((x.uint a).val.toNat / 2 ^ 24) then none
          else (x.s.calPending (x.uint a).val.toNat (x.uint b).val).map fun fresh =>
            (2, if fresh then x.s.cfgSet (x.uint a).val.toNat (x.uint b).val else x.s)
        | some w =>
          match x.s.keySlots[w]? with
          | some .active => some (2, x.s.beginRevoke w)
          | some .revoking => some (2, x.s)
          | _ => none) fun x =>
      match (x.uint b).poison with
      | some p => .fault (poisonFault p 4)
      | none =>
        let put := fun (s : State) (st : Nat) => UAct.ok (x.put s d.toNat [⟨BitVec.ofNat 32 st, (x.uint a).poison⟩])
        match cfgWhere (x.uint a).val.toNat with
        | none => put x.s 6
        | some (blk, i) =>
          if cfgReadOnly blk i then put x.s 7
          else if x.s.cfgLocked blk then .fault ⟨cLocked, (x.uint a).val, 0⟩
          else let (s1, st) := x.s.cfgWrite blk i (x.uint b).val; put s1 st

end Sys2Proof.Machine
end

