-- ==== Sys2Proof/Machine/Island.lean ====
section
/-! DEFINITION. The island: its states, endpoints and resets (R380-R386), freeze (R350, R392), pod links (R387, R388), remote
requests (R390), multi-device launches (R391), the host port (R397, R398), clocks and power (R404), bring-up (R401), and
errors of hops (R370). -/

namespace Sys2Proof.Machine

/-! ### The island's state (R381) -/

/-- Whether a die goes through a warm reset: all six steps of R385 (log 110). -/
def Die.inReset (d : Die) : Bool := decide (d.endp = .detaching) || decide (d.stage = .resetting)

/-- The island's state follows its endpoints once it forwards. -/
def State.settleIsland (s : State) : State :=
  if s.island = .off ∨ s.island = .boot ∨ s.island = .safe then s
  else if s.die0.inReset ∨ s.die1.inReset then { s with island := .fencing }
  else if s.die0.endp = .attached ∨ s.die1.endp = .attached then { s with island := .joined }
  else { s with island := .forward }

/-- Step 7 of bring-up is reached once no die goes through steps 5 and 6 any more (R401, log 110). -/
def State.reachQuotes (s : State) : State :=
  { s with quoting := s.quoting || (decide (s.die0.stage ≠ .bringUp) && decide (s.die1.stage ≠ .bringUp)) }

/-- An image slot is accepted: its signature verifies, and its version is not below the one fused (R401, step 2). -/
def State.slotGood (s : State) (signed : Bool) (slot : Nat) : Bool := signed && decide (s.fused ≤ Config.imageVersion slot)

/-- Bring-up to FORWARD, from where the dies go on by themselves, or SAFE where neither image slot is accepted (R401). Links that fail
to train stay down. -/
def State.bringUp (s : State) (slot0 slot1 : Bool) : State :=
  if s.slotGood slot0 0 ∨ s.slotGood slot1 1 then
    { s with
      island := .forward, routesLoaded := true, linkUp := (List.range 18).map fun k => s.choose k
      imageSlot := if s.slotGood slot0 0 then 0 else 1
      die0 := { s.die0 with stage := .bringUp }, die1 := { s.die1 with stage := .bringUp } }.advanceFree
  else { s with island := .safe, routesLoaded := false, linkUp := List.replicate 18 false }

/-- A cold reset (R24): what the outside has yet to do, what has been sent and the fused version stay. -/
def State.coldStart (s : State) : State :=
  { State.reset with agenda := s.agenda, outbox := s.outbox, freeCtr := s.freeCtr, nextId := s.nextId, fused := s.fused }

/-- `COLD_RESET`. -/
def execColdReset (s : State) : Answer := done s.coldStart

/-- `ISLAND_SUPPLY_LOSS`. -/
def execIslandSupplyLoss (s : State) : Answer := done { s.coldStart with island := .off }

/-- The island boots (R381, R401): transit is not forwarded, the links are down; what the image slots hold decides how it ends. -/
def State.boot (s : State) (slot0 slot1 : Bool) : State :=
  { s with
    island := .boot, booting := some (slot0, slot1), routesLoaded := false, linkUp := List.replicate 18 false
    die0 := { s.die0 with stage := .none }, die1 := { s.die1 with stage := .none }
    quoting := false
    stopped := [], stopsSent := [], buffered := [], lostRoutes := [], absentDevs := [] }

/-- `ISLAND_SUPPLY_GOOD`: OFF becomes BOOT; in BOOT bring-up goes on to its end. -/
def execIslandSupplyGood (slot0 slot1 : Bool) (s : State) : Answer :=
  if s.island = .off then done (s.boot slot0 slot1)
  else if s.island = .boot then
    done { s.bringUp ((s.booting.map Prod.fst).getD slot0) ((s.booting.map Prod.snd).getD slot1) with booting := none }
  else done s

/-- `ISLAND_RESET` (R385): both endpoints ABSENT, else BUSY. The island boots again. -/
def execIslandReset (slot0 slot1 : Bool) (s : State) : Answer :=
  if s.island = .off then done s
  else if s.die0.endp = .absent ∧ s.die1.endp = .absent then done ((s.boot slot0 slot1).tell (.status 0))
  else replyWith s 12

/-! ### Endpoints (R382-R386) -/

/-- `DIE_JOIN`: a die that has passed its tests and completed the handshake; loss stamps that waited for its HBM are raised. -/
def execDieJoin (die : Nat) (s : State) : Answer :=
  if die < 2 ∧ s.forwards ∧ (s.die? die).endp = .absent then
    done ((s.onDie die fun d => { d with endp := .attached, stage := .none }).settleIsland.reachQuotes.payLosses)
  else done s

/-- A die fails step 5 or 6 of bring-up, or of its warm reset: its endpoint stays ABSENT, and CW3 makes a record (R401). -/
def execDieFails (die : Nat) (s : State) : Answer :=
  if die < 2 ∧ (s.die? die).stage ≠ .none ∧ (s.die? die).endp = .absent then
    done ((s.onDie die fun d => { d with stage := .none }).settleIsland.reachQuotes.tell (.dieFailed die))
  else done s

/-- Whether a gang stands on a die. -/
def Gang.residentOn (g : Gang) (die : Nat) : Bool :=
  decide (g.quad / 96 = die) && (decide (g.status = .placed) || decide (g.status = .draining))

/-- Steps 1 to 3 of R385; the phases of collectives in which a launch with a gang on the die takes part fail with it (R396, reason
0x0D). -/
def State.beginDetach (s : State) (die : Nat) : State :=
  let s1 := (s.onDie die fun d => { d with endp := .detaching, since := s.ns }).settleIsland
  let hit := s1.launches.filter fun l => s1.gangs.any fun g => decide (g.launch = l.id) && g.residentOn die
  let s2 := s1.failPhases fun c => hit.any fun l => decide (l.id = c.launch)
  hit.foldl (fun (s : State) l => s.stopLaunch l.id 4 0) s2

/-- A request to detach an attached die. -/
def State.detach (s : State) (die : Nat) : State :=
  if die < 2 ∧ (s.die? die).endp = .attached then s.beginDetach die else s

/-- `DIE_WARM_RESET`: asked for by the hypervisor or CW3. -/
def execDieWarmReset (die : Nat) (s : State) : Answer := done (s.detach die)

/-- `HEARTBEAT_TIMEOUT`. -/
def execHeartbeatTimeout (die : Nat) (s : State) : Answer := done (s.detach die)

/-- `OVERTEMP_RESET` (R404): at or above 110 °C for 10 ms. -/
def execOvertempReset (die : Nat) (s : State) : Answer := done (if 10 ≤ (s.die? die).hot then s.detach die else s)

/-- Requests of a die not yet answered (R384). -/
def State.requestsOf (s : State) (die : Nat) : List Flight :=
  s.flights.filter fun f => !f.done && (s.wg? f.wg).any fun w => w.core / 384 = die

/-- Whether nothing of a die is left to cancel. -/
def State.cancelled (s : State) (die : Nat) : Bool :=
  (s.requestsOf die).isEmpty && (s.copies.all fun c => c.quad / 96 ≠ die ∨ c.stage = .finished) &&
    (s.matops.all fun o => o.quad / 96 ≠ die ∨ o.done) && s.inbound.all fun i => i.bank / 1536 ≠ die

/-- Drop what a die still has in flight: requests not performed, engine operations CANCELLED. -/
def State.dropRequests (s : State) (die : Nat) : State :=
  let s1 := (s.requestsOf die).foldl (fun (s : State) f => s.finishFlight f 768) s
  let cs := s1.copies.filter fun c => decide (c.quad / 96 = die) && decide (c.stage ≠ .finished)
  let ids := cs.map fun c => c.id
  let s2 : State := { s1 with
    inbound := s1.inbound.filter fun i => !ids.contains i.copy ∧ i.bank / 1536 ≠ die
    matops := s1.matops.map fun o => if o.quad / 96 = die then { o with done := true, ended := true, granted := false } else o }
  let s3 := cs.foldl (fun (s : State) c => (s.onCopy c.id fun c => { c with status := 3, reason := 0 }).sealCopy c.id) s2
  (s3.matops.filter fun o => o.done).foldl (fun (s : State) o => match o.wg with
    | some u => s.drainMatrix u o.tid s.matops.length
    | none => s) s3

/-- The contents of a die's units and its quads' entries and latches return to their reset values (R385). -/
def State.clearDie (s : State) (die : Nat) : State :=
  let s1 := (s.clearMem (sramBase (die * 1536)) (1536 * 2 ^ 17)).clearMem (wbufBase (die * 768)) (768 * 2 ^ 16)
  let onDie := fun quad : Nat => decide (quad / 96 = die)
  { s1 with
    l1 := s1.l1.filter fun x => x.core / 384 ≠ die
    acc := Table.clear s1.acc (die * 384 * 2 ^ 15) (384 * 2 ^ 15)
    accPoison := Table.clear s1.accPoison (die * 384 * 2 ^ 15) (384 * 2 ^ 15)
    slots := Table.clear s1.slots (die * 96 * 128) (96 * 128)
    tlb := Table.clear s1.tlb (die * 96 * 2048) (96 * 2048)
    watches := Table.clear s1.watches (die * 96 * 8) (96 * 8)
    reserved := Table.clear s1.reserved (die * 96) 96
    score := s1.score.filter fun e => !onDie e.quad
    deficit := s1.deficit.filter fun d => d.1 / 384 ≠ die
    quieting := s1.quieting.filter fun u => unitDie u.1 u.2 ≠ some die
    cfg := Table.clear s1.cfg (0x07000000 + die * 96) 96
    calActive := Table.clear s1.calActive (0x02000000 + die * 256) 256 }

/-- Tenants that hold a unit of a die or a translation entry on one of its quads (R386). -/
def State.losers (s : State) (die : Nat) : List Tag :=
  (s.tenants.map fun t => t.tag).filter fun t =>
    ((s.allUnits t).any fun u => unitDie u.1 u.2 = some die) ||
      s.tlb.any fun e => decide (e.1 / 2048 / 96 = die) && e.2.any fun x => x.tag = t

/-- Step 4 of R385 and R386: ABSENT, the contents lost, one DIE_RESET loss record for each tenant concerned. -/
def State.finishDetach (s : State) (die : Nat) : State :=
  let who := s.losers die
  let s1 := ((s.dropRequests die).failPhases fun c => c.quad / 96 = die).clearDie die
  let s2 := (s1.onDie die fun d => { d with endp := .absent, stage := .resetting, cycles := 0, hot := 0 }).settleIsland
  who.foldl (fun (s : State) t => s.addLoss t ⟨0, 5, BitVec.ofNat 32 die, BitVec.ofNat 64 s.ns, 0, 0⟩) s2

/-- `DETACH_COMPLETE`: cancellation is done, or 100 µs have passed. -/
def execDetachComplete (die : Nat) (s : State) : Answer :=
  if die < 2 ∧ (s.die? die).endp = .detaching ∧ (s.cancelled die ∨ (s.die? die).since + 100000 ≤ s.ns) then
    done (s.finishDetach die).advanceFree
  else done s

/-- `LATE_ANSWER`: dropped and counted; the counter saturates. -/
def execLateAnswer (die : Nat) (s : State) : Answer :=
  if die < 2 ∧ (s.die? die).endp ≠ .attached then done (s.countLate die) else done s

/-! ### Freeze (R350, R392) -/

/-- What CW5 reads out of a quad: of one latched to a protected world, while `SECPOL`.pdebug is 0, zeros (R368). -/
def State.readoutOf (s : State) (quad : Nat) : Readout :=
  if s.latch quad ≠ 0 ∧ ¬ s.secpol.getLsbD 16 then ⟨quad, [], [], [], [], [], [], []⟩
  else
    let ws := s.wgs.filter fun w => w.isResident && decide (w.quad = quad)
    ⟨quad, ws, s.entries.filter fun e => e.core / 4 = quad,
      s.mem.filter fun c => (decide (sramBase (quad * 16) ≤ c.1) && decide (c.1 < sramBase (quad * 16 + 16))) ||
        (decide (wbufBase (quad * 8) ≤ c.1) && decide (c.1 < wbufBase (quad * 8 + 8))) ||
        ws.any fun w => decide (scratchBase w.uid ≤ c.1) && decide (c.1 < scratchBase (w.uid + 1)),
      s.acc.filter fun c => c.1 / 2 ^ 17 = quad, s.slots.filter fun c => c.1 / 128 = quad,
      s.copies.filter fun c => c.quad = quad, s.matops.filter fun o => o.quad = quad⟩

/-- `FREEZE`, over partition 0's management session (R392): the clocks of both compute dies stop; CW5 reads out their state (R350). -/
def execFreeze (s : State) : Answer :=
  done (if s.frozen.isSome ∨ ¬ s.managed 0 then s
    else
      ({ s with frozen := some s.ns } : State).tell
        (.readout (((List.range 192).filter fun q => (s.die? (q / 96)).endp ≠ .absent).map s.readoutOf)))

/-- `THAW`: watchdog limits and recall deadlines are extended by the frozen time. -/
def execThaw (s : State) : Answer :=
  match s.frozen with
  | none => done s
  | some t =>
    let d := s.ns - t
    done { s with
      frozen := none
      launches := s.launches.map fun l => { l with startNs := l.startNs.map (· + d) }
      tenants := s.tenants.map fun x => { x with recalls := x.recalls.map fun r => { r with deadline := r.deadline + d } } }

/-! ### Pod links (R387, R388) -/

/-- The link a packet takes: the fewest flits, then the lowest number. -/
def State.pickLink (s : State) (p : Packet) : Option Nat :=
  bestOf (fun a b => decide (p.fill.getD a 0 < p.fill.getD b 0) || (decide (p.fill.getD a 0 = p.fill.getD b 0) && decide (a < b)))
    (s.linksTo p.target)

/-- Flits in the receive buffer of a link's channel: those of the packets that came by it and have not gone on (R388). -/
def State.inFlits (s : State) (link vc : Nat) : Nat :=
  ((s.buffered.filter fun b => decide (b.2.link = link) && decide (b.2.vc = vc)).map fun b => b.2.flits).sum

/-- The receive buffer of a link's channel has filled to its high watermark: STOP is sent, once (R388). -/
def State.sendStop (s : State) (link vc : Nat) : State :=
  if Config.highMark ≤ s.inFlits link vc ∧ ¬ s.stopsSent.contains (link, vc) then
    { s with stopsSent := s.stopsSent ++ [(link, vc)] }.tell (.flow link vc true)
  else s

/-- Receive buffers that have fallen to their low watermark: GO is sent for each that was stopped (R388). -/
def State.sendGos (s : State) : State :=
  (s.stopsSent.filter fun x => s.inFlits x.1 x.2 ≤ Config.lowMark).foldl (fun (s : State) x =>
    { s with stopsSent := s.stopsSent.filter fun y => y ≠ x }.tell (.flow x.1 x.2 false)) s

/-- Send a packet on, or keep it for a stopped channel; with no route or no hop left its device is answered ABSENT. -/
def State.forward (s : State) (p : Packet) : State :=
  match (if p.hops < 3 then s.pickLink p else none) with
  | some l =>
    if s.stopped.contains (l, p.vc) then { s with buffered := s.buffered ++ [(l, p)] } else s.tell (.forwarded p.target l p.poison)
  | none => s.tell (.answer p.target 2 [])

/-- `LINK_PACKET`: transit. -/
def execLinkPacket (p : Packet) (s : State) : Answer :=
  if s.forwards ∧ p.target ≠ Config.devNumber.toNat then done ((s.forward p).sendStop p.link p.vc) else done s

/-- `FLOW_STOP`. -/
def execFlowStop (link vc : Nat) (s : State) : Answer :=
  if link < 18 ∧ vc < 4 ∧ ¬ s.stopped.contains (link, vc) then done { s with stopped := s.stopped ++ [(link, vc)] } else done s

/-- `FLOW_GO`: what waits in the channel's buffer goes, in order. -/
def execFlowGo (link vc : Nat) (s : State) : Answer :=
  let mine := fun b : Nat × Packet => decide (b.1 = link) && decide (b.2.vc = vc)
  let s1 : State := { s with stopped := s.stopped.filter fun x => x ≠ (link, vc), buffered := s.buffered.filter fun b => !mine b }
  done ((s.buffered.filter mine).foldl (fun (s : State) b => s.tell (.forwarded b.2.target b.1 b.2.poison)) s1).sendGos

/-- `LINK_DOWN`: what its buffers held takes another way; devices that have lost their last route are noted. -/
def execLinkDown (link : Nat) (s : State) : Answer :=
  let s1 : State := { s with
    linkUp := s.linkUp.set link false, stopped := s.stopped.filter fun x => x.1 ≠ link
    stopsSent := s.stopsSent.filter fun x => x.1 ≠ link, buffered := s.buffered.filter fun b => b.1 ≠ link }
  let s2 := (s.buffered.filter fun b => b.1 = link).foldl (fun (s : State) b => s.forward b.2) s1
  let gone := (List.range 1024).filter fun d => !(s.linksTo d).isEmpty && (s2.linksTo d).isEmpty
  done { s2 with lostRoutes := s2.lostRoutes ++ gone.map fun d => (d, s.ns) }.sendGos

/-- `ROUTE_LOSS_TIMEOUT` (R385, R396): 20 µs after the loss the device is answered ABSENT; phases it takes part in fail. -/
def execRouteLossTimeout (dev : Nat) (s : State) : Answer :=
  if s.lostRoutes.any fun r => decide (r.1 = dev) && decide (r.2 + 20000 ≤ s.ns) then
    let joined := fun c : Contribution => (s.launch? c.launch).any fun l =>
      s.podRegs.any fun r => decide (r.podid = l.podid) && r.devs.contains dev
    let s1 : State := { s with absentDevs := s.absentDevs ++ [dev], lostRoutes := s.lostRoutes.filter fun r => r.1 ≠ dev }
    done (s1.failPhases fun c => decide (c.scope = 4) && joined c)
  else done s

/-! ### Remote requests (R390) -/

/-- The kind of access a request makes. -/
def remoteKind (r : RemoteReq) : AccKind :=
  match r.op with
  | .read => .r
  | .write _ => .w
  | .atomic .. => .a

/-- Bytes a request touches. -/
def remoteSize (r : RemoteReq) : Nat :=
  match r.op with
  | .write data => data.length
  | _ => r.size

/-- 0 OK, 1 REFUSED, 2 ABSENT: of a frozen device only for a request that needs a compute die, which one that the island's own table
refuses does not (R392). -/
def State.remoteStatus (s : State) (r : RemoteReq) : Nat :=
  if ¬ s.forwards ∨ (s.die? (r.off / 65536 / 6291456)).endp ≠ .attached then 2
  else if ¬ s.remotePasses r.dev r.tag r.off (remoteSize r) (remoteKind r) ∨
      (r.world ≠ 0 ∧ s.keySlots[r.world]? ≠ some .active) then 1
  else if s.frozen.isSome then 2
  else 0

/-- A remote write that its slice discards is reported to the requester's tenant (R360). -/
def State.foreignWrite (s : State) (r : RemoteReq) : State :=
  s.postFault (plainRec 0x20 (r.off / 65536 / 6291456 * 96) 0 (s.freeWord 0) r.tag 0)

/-- Perform a request that passes; a line of another world answers as without a key (R362). -/
def State.serveRemote (s : State) (r : RemoteReq) : State :=
  if s.sliceAnswers r.world r.off then
    match r.op with
    | .read => s.tell (.answer r.dev 0 ((s.peek r.off r.size).map fun b => (b.1, Poison.join r.poison b.2)))
    | .write data => (s.perform r.off data r.poison 0).tell (.answer r.dev 0 [])
    | .atomic op x y back =>
      let (s1, old) := s.atomAt op r.size (leBytes x r.size ++ leBytes y r.size) r.poison 0 r.off
      s1.tell (.answer r.dev 0 (if back then old else []))
  else
    let lost : List (Byte × Poison) := (s.freeBytes 0 r.size).map fun b => (b, some poisonNoKey)
    match r.op with
    | .read => (s.tell (.answer r.dev 0 lost)).advanceFree
    | .write _ => ((s.foreignWrite r).tell (.answer r.dev 0 [])).advanceFree
    | .atomic _ _ _ back => ((if back then s else s.foreignWrite r).tell (.answer r.dev 0 (if back then lost else []))).advanceFree

/-- `REMOTE_REQUEST`. -/
def execRemoteRequest (r : RemoteReq) (s : State) : Answer :=
  if s.island = .off ∨ s.island = .boot ∨ s.island = .safe then done s
  else
    let st := s.remoteStatus r
    done (if st = 0 then s.serveRemote r else s.tell (.answer r.dev st []))

/-! ### Multi-device launches (R391) -/

/-- End this device's launch with a podid: code 5 not joined, 6 a different poddevs. -/
def State.podFail (s : State) (podid : Word) (code : Nat) : State :=
  (s.launches.filter fun l => decide (l.podid = podid) && decide (l.ended = 0)).foldl (fun (s : State) l =>
    (s.stopLaunch l.id 4 0).onLaunch l.id fun l => { l with ended := code }) s

/-- `PODID_REGISTER`. -/
def execPodidRegister (podid : BitVec 32) (dev poddevs : Nat) (s : State) : Answer :=
  if podid = 0#32 then done s
  else
    match s.podRegs.find? fun r => r.podid = podid with
    | none => done { s with podRegs := s.podRegs ++ [⟨podid, poddevs, [dev], s.ns⟩] }
    | some r =>
      if r.poddevs ≠ poddevs then done (if dev = Config.devNumber.toNat then s.podFail podid 6 else s)
      else if r.devs.contains dev then done s
      else done { s with podRegs := s.podRegs.map fun x => if x.podid = podid then { x with devs := x.devs ++ [dev] } else x }

/-- `POD_JOIN_TIMEOUT`: 100 ms after the first registration. -/
def execPodJoinTimeout (podid : BitVec 32) (s : State) : Answer :=
  match s.podRegs.find? fun r => r.podid = podid with
  | none => done s
  | some r =>
    if r.devs.length < r.poddevs ∧ r.since + 100000000 ≤ s.ns then
      done (({ s with podRegs := s.podRegs.filter fun x => x.podid ≠ podid } : State).podFail podid 5)
    else done s

/-! ### The host port (R397, R398) -/

/-- `SESSION_OPEN`: one management session and up to 64 data sessions for each partition. -/
def execSessionOpen (sess part : Nat) (management : Bool) (s : State) : Answer :=
  let mine := s.sessions.filter fun x => decide (x.part = part) && decide (x.management = management)
  if ¬ s.portAnswers management then done s
  else if s.partValid part ∧ (s.sessions.all fun x => x.id ≠ sess) ∧ mine.length < (if management then 1 else 64) then
    replyWith { s with sessions := s.sessions ++ [⟨sess, part, management⟩] } 0
  else done (s.tell .failed)

/-- Whether bytes lie in a host window. -/
def inWindow (win a : Nat) : Bool := decide (regionOf a = 2) && decide (a / 2 ^ 40 % 1024 = win)

def locIn (win : Nat) (l : Loc) : Bool :=
  match l with
  | .mem a => inWindow win a
  | _ => false

/-- Whether a transfer through a window is still open. -/
def State.windowBusy (s : State) (win : Nat) : Bool :=
  (s.flights.any fun f => !f.done && locIn win f.loc) ||
    (s.copies.any fun c => decide (c.stage ≠ .finished) && c.stampPa.any (inWindow win)) ||
    s.colls.any fun c => decide (c.stage ≠ .done) &&
      ((c.src ++ c.dst).any (fun p => inWindow win p.1) || c.stampPa.any (inWindow win))

/-- The removal of the translation entries that map a window begins: what finds one of them waits (R210, R398). -/
def State.fenceWindow (s : State) (win : Nat) : State := s.setLeaving (fun _ t => inWindow win t.pa) true

/-- Remove the translation entries that map a window. -/
def State.unmapWindow (s : State) (win : Nat) : State :=
  { s with tlb := s.tlb.filter fun e => match e.2 with
      | some t => !inWindow win t.pa
      | none => true }

/-- Whether an access under way still uses an entry that maps a window. -/
def State.windowUsed (s : State) (win : Nat) : Bool :=
  s.windowBusy win || s.tlb.any fun e => e.2.any fun t => inWindow win t.pa && s.usesEntry (e.1 / 2048) t

/-- `APERTURE_WINDOW_BIND`. -/
def execApertureWindowBind (win sess size : Nat) (tenant : BitVec 24) (s : State) : Answer :=
  if ¬ s.portAnswers false then done s
  else if win < 1024 ∧ size ≤ 2 ^ 40 ∧ (s.tenant? tenant).isSome ∧ (s.windows.all fun w => w.1 ≠ win) ∧
      (s.sessions.any fun x => x.id = sess ∧ ¬ x.management ∧ x.part = Tag.part tenant) then
    replyWith { s with windows := s.windows ++ [(win, ⟨tenant, size, sess⟩)] } 0
  else done (s.tell .failed)

/-- Unbind a window: its entries are removed under R210, which waits for its transfers; then it is free. -/
def State.unbindFrom (s : State) (win : Nat) : Answer :=
  let s1 := s.fenceWindow win
  if s1.windowUsed win then done (s1.tryAgain (.unbind win))
  else replyWith { s1.unmapWindow win with windows := s1.windows.filter fun w => w.1 ≠ win } 0

/-- `APERTURE_WINDOW_UNBIND`, over a data session (R398). -/
def execApertureWindowUnbind (win : Nat) (s : State) : Answer := if s.portAnswers false then s.unbindFrom win else done s

/-- Reads in flight on a session's windows are poisoned: loads, what copies from the host move next, and contributions whose phase has yet
to read their source there (R370, R397). -/
def State.poisonReads (s : State) (wins : List Nat) (p : BitVec 12) : State :=
  { s with
    flights := s.flights.map fun f =>
      if !f.done ∧ (wins.any fun w => locIn w f.loc) then
        match f.acc with
        | .load _ => { f with poison := some p }
        | _ => f
      else f
    copies := s.copies.map fun c =>
      if c.stage = .moving ∧ ((s.copyReads c).any fun a => wins.any fun w => locIn w (.mem a)) then { c with hit := some p } else c
    colls := s.colls.map fun c =>
      if (c.stage = .sent ∨ c.stage = .counted) ∧ (c.src.any fun x => wins.any fun w => inWindow w x.1) then { c with hit := some p } else c }

/-- The windows of a session. -/
def State.windowsOf (s : State) (sess : Nat) : List Nat := (s.windows.filter fun w => w.2.sess = sess).map fun w => w.1

/-- The end of a session: the entries of its windows are removed under R210, and they go when their transfers are over. -/
def State.endSession (s : State) (sess : Nat) : State :=
  let wins := s.windowsOf sess
  let s1 := wins.foldl (fun (s : State) w => s.fenceWindow w) s
  if wins.any s1.windowUsed then s1.tryAgain (.close sess)
  else
    let s2 := wins.foldl (fun (s : State) w => s.unmapWindow w) s1
    { s2 with sessions := s2.sessions.filter fun x => x.id ≠ sess, windows := s2.windows.filter fun w => w.2.sess ≠ sess }

/-- Close a session: its reads in flight are poisoned, with the number of the error's one record. -/
def State.closeSession (s : State) (sess : Nat) (p : BitVec 12) : State := (s.poisonReads (s.windowsOf sess) p).endSession sess

/-- The tag of a poisoning of a unit class, with the number of CW3's record of it (R373). -/
def State.errorTag (s : State) (cls : Nat) : BitVec 12 := BitVec.ofNat 12 (cls * 256 + s.errSeq % 256)

/-- An uncorrected error of the host port: counted, and the session closes (R370, R397). -/
def State.failSession (s : State) (sess : Nat) : State :=
  ({ s.countInteg 17 with errSeq := s.errSeq + 1 } : State).closeSession sess (s.errorTag 0xC)

/-- `SESSION_CLOSE`: after 16 retransmissions that failed. -/
def execSessionClose (sess : Nat) (s : State) : Answer :=
  done (if s.sessions.any fun x => x.id = sess then s.failSession sess else s)

/-- `SOFT_ERROR`: corrected, or poisoned with the tag of its hop and of CW3's record; counted either way. An uncorrected
error of the host port closes the session `idx`. -/
def execSoftError (e : HopError) (s : State) : Answer :=
  if 8 < e.hop then done s
  else if e.fixed then done (s.countInteg (2 * e.hop))
  else
    if e.hop = 8 then done (s.failSession e.idx)
    else
      let s1 : State := { s.countInteg (2 * e.hop + 1) with errSeq := s.errSeq + 1 }
      done (s1.poisonAtHop e (s.errorTag (hopClass e.hop)))

/-! ### The firmware's mailboxes (R400) -/

/-- Messages of one direction, oldest first: the first 16 are in its mailbox, with the others their sender waits. -/
def State.mailOf (s : State) (sender receiver : Nat) : List Mail :=
  s.mail.filter fun m => decide (m.sender = sender) && decide (m.receiver = receiver)

/-- The mailbox of an ordered pair of cores. -/
def State.mailbox (s : State) (sender receiver : Nat) : List Mail := (s.mailOf sender receiver).take 16

/-- A core of the firmware sends another a message of 64 bytes. -/
def execSendMail (sender receiver : Nat) (msg : List Byte) (s : State) : Answer :=
  done (if sender < 8 ∧ receiver < 8 ∧ sender ≠ receiver ∧ msg.length = 64 then { s with mail := s.mail ++ [⟨sender, receiver, msg⟩] }
    else s)

/-- It takes the oldest message of a mailbox. -/
def execTakeMail (sender receiver : Nat) (s : State) : Answer :=
  done (match s.mailbox sender receiver with
    | m :: _ => { s with mail := s.mail.erase m }
    | [] => s)

/-! ### Clocks and power (R404) -/

/-- A limit's next step, never above the highest clock. -/
def stepLimit (fall rise : Bool) (floor x : Nat) : Nat :=
  if fall then max (x - 25) floor else if rise then min (x + 25) 850 else x

/-- One die's thermal limit and time at or above 110 °C. -/
def Die.heat (d : Die) (t : Nat) : Die :=
  { d with thermal := stepLimit (decide (100 ≤ t)) (decide (t < 95)) 0 d.thermal, hot := if 110 ≤ t then d.hot + 1 else 0 }

/-- `CLOCK_CONTROL_TICK`: power and temperatures as measured, then the three limits of each die. -/
def execClockControlTick (watts t0 t1 ti th : Nat) (s : State) : Answer :=
  let cap := (fld (s.cfgGet 0x0A000000) 0 12).toNat
  let fmax := (fld (s.cfgGet 0x0A000001) 0 10).toNat
  let power := stepLimit (decide (cap < watts)) (decide (100 * watts < 95 * cap)) 400 s.powerLimit
  let d0 := s.die0.heat t0
  let d1 := s.die1.heat t1
  let falls := (if 100 ≤ t0 then 1 else 0) + if 100 ≤ t1 then 1 else 0
  let f := fun d : Die => min fmax (min power d.thermal)
  let s1 : State := { s with die0 := d0, die1 := d1, powerLimit := power }
  let s2 := (s1.cfgSet 0x0A000002 (BitVec.ofNat 32 (f d0 + f d1 * 65536))).cfgSet 0x0A000003 (BitVec.ofNat 32 (watts % 65536))
  let s3 := s2.cfgSet 0x0A000004 (BitVec.ofNat 32 (t0 % 256 + t1 % 256 * 256 + ti % 256 * 65536 + th % 256 * 16777216))
  done (s3.cfgSet 0x0A000005 (BitVec.ofNat 32 (min ((s.cfgGet 0x0A000005).toNat + falls) 0xFFFFFFFF)))

end Sys2Proof.Machine
end

