-- ==== Sys2Proof/Machine/Dispatch.lean ====
section
/-! DEFINITION. The meaning of every instruction and event: one arm, one call of its meaning. -/

namespace Sys2Proof.Machine

def exec (i : Instr) (s : State) : Host.Outcome State Fault Refusal :=
  match i with
  | .nop => Sys2Proof.Machine.execNop s
  | .exit => Sys2Proof.Machine.execExit s
  | .yield => Sys2Proof.Machine.execYield s
  | .sleep n => Sys2Proof.Machine.execSleep n s
  | .ublk => Sys2Proof.Machine.execUblk s
  | .trap n => Sys2Proof.Machine.execTrap n s
  | .tretNext => Sys2Proof.Machine.execTretNext s
  | .tretRetry => Sys2Proof.Machine.execTretRetry s
  | .brk c => Sys2Proof.Machine.execBrk c s
  | .iadd d a b => Sys2Proof.Machine.execIadd d a b s
  | .isub d a b => Sys2Proof.Machine.execIsub d a b s
  | .iaddsS d a b => Sys2Proof.Machine.execIaddsS d a b s
  | .isubsS d a b => Sys2Proof.Machine.execIsubsS d a b s
  | .iminS d a b => Sys2Proof.Machine.execIminS d a b s
  | .iminU d a b => Sys2Proof.Machine.execIminU d a b s
  | .imaxS d a b => Sys2Proof.Machine.execImaxS d a b s
  | .imaxU d a b => Sys2Proof.Machine.execImaxU d a b s
  | .imul d a b => Sys2Proof.Machine.execImul d a b s
  | .imulhS d a b => Sys2Proof.Machine.execImulhS d a b s
  | .imulhU d a b => Sys2Proof.Machine.execImulhU d a b s
  | .imac d a b => Sys2Proof.Machine.execImac d a b s
  | .idot4S d a b => Sys2Proof.Machine.execIdot4S d a b s
  | .idot4U d a b => Sys2Proof.Machine.execIdot4U d a b s
  | .iabsd d a b => Sys2Proof.Machine.execIabsd d a b s
  | .and d a b => Sys2Proof.Machine.execAnd d a b s
  | .or d a b => Sys2Proof.Machine.execOr d a b s
  | .xor d a b => Sys2Proof.Machine.execXor d a b s
  | .andn d a b => Sys2Proof.Machine.execAndn d a b s
  | .orn d a b => Sys2Proof.Machine.execOrn d a b s
  | .xnor d a b => Sys2Proof.Machine.execXnor d a b s
  | .shl d a b => Sys2Proof.Machine.execShl d a b s
  | .shr d a b => Sys2Proof.Machine.execShr d a b s
  | .sar d a b => Sys2Proof.Machine.execSar d a b s
  | .rol d a b => Sys2Proof.Machine.execRol d a b s
  | .ror d a b => Sys2Proof.Machine.execRor d a b s
  | .fshr d a b => Sys2Proof.Machine.execFshr d a b s
  | .popc d a => Sys2Proof.Machine.execPopc d a s
  | .clz d a => Sys2Proof.Machine.execClz d a s
  | .ctz d a => Sys2Proof.Machine.execCtz d a s
  | .brev d a => Sys2Proof.Machine.execBrev d a s
  | .bfxS d a b => Sys2Proof.Machine.execBfxS d a b s
  | .bfxU d a b => Sys2Proof.Machine.execBfxU d a b s
  | .bfi d a b => Sys2Proof.Machine.execBfi d a b s
  | .permb d a b => Sys2Proof.Machine.execPermb d a b s
  | .iaddi d a n => Sys2Proof.Machine.execIaddi d a n s
  | .andi d a n => Sys2Proof.Machine.execAndi d a n s
  | .ori d a n => Sys2Proof.Machine.execOri d a n s
  | .xori d a n => Sys2Proof.Machine.execXori d a n s
  | .shli d a n => Sys2Proof.Machine.execShli d a n s
  | .shri d a n => Sys2Proof.Machine.execShri d a n s
  | .sari d a n => Sys2Proof.Machine.execSari d a n s
  | .roli d a n => Sys2Proof.Machine.execRoli d a n s
  | .rori d a n => Sys2Proof.Machine.execRori d a n s
  | .icmp p c a b => Sys2Proof.Machine.execIcmp p c a b s
  | .icmpAnd p c a b => Sys2Proof.Machine.execIcmpAnd p c a b s
  | .icmpOr p c a b => Sys2Proof.Machine.execIcmpOr p c a b s
  | .fcmp p c a b w => Sys2Proof.Machine.execFcmp p c a b w s
  | .fcmpAnd p c a b w => Sys2Proof.Machine.execFcmpAnd p c a b w s
  | .fcmpOr p c a b w => Sys2Proof.Machine.execFcmpOr p c a b w s
  | .pand d a b => Sys2Proof.Machine.execPand d a b s
  | .por d a b => Sys2Proof.Machine.execPor d a b s
  | .pxor d a b => Sys2Proof.Machine.execPxor d a b s
  | .pnot d a => Sys2Proof.Machine.execPnot d a s
  | .psetnz d a => Sys2Proof.Machine.execPsetnz d a s
  | .sel d a b p => Sys2Proof.Machine.execSel d a b p s
  | .fadd d a b => Sys2Proof.Machine.execFadd d a b s
  | .fsub d a b => Sys2Proof.Machine.execFsub d a b s
  | .fmul d a b => Sys2Proof.Machine.execFmul d a b s
  | .fmin d a b => Sys2Proof.Machine.execFmin d a b s
  | .fmax d a b => Sys2Proof.Machine.execFmax d a b s
  | .fminm d a b => Sys2Proof.Machine.execFminm d a b s
  | .fmaxm d a b => Sys2Proof.Machine.execFmaxm d a b s
  | .fcopys d a b => Sys2Proof.Machine.execFcopys d a b s
  | .fmac d a b => Sys2Proof.Machine.execFmac d a b s
  | .fmsc d a b => Sys2Proof.Machine.execFmsc d a b s
  | .fnmac d a b => Sys2Proof.Machine.execFnmac d a b s
  | .fnmsc d a b => Sys2Proof.Machine.execFnmsc d a b s
  | .frcp d a => Sys2Proof.Machine.execFrcp d a s
  | .fsqrt d a => Sys2Proof.Machine.execFsqrt d a s
  | .frsq d a => Sys2Proof.Machine.execFrsq d a s
  | .fexp2 d a => Sys2Proof.Machine.execFexp2 d a s
  | .flog2 d a => Sys2Proof.Machine.execFlog2 d a s
  | .fsinpi d a => Sys2Proof.Machine.execFsinpi d a s
  | .fcospi d a => Sys2Proof.Machine.execFcospi d a s
  | .frint d a => Sys2Proof.Machine.execFrint d a s
  | .fdiv d a b => Sys2Proof.Machine.execFdiv d a b s
  | .fclass d a => Sys2Proof.Machine.execFclass d a s
  | .fneg d a => Sys2Proof.Machine.execFneg d a s
  | .fabs d a => Sys2Proof.Machine.execFabs d a s
  | .fscale d a b => Sys2Proof.Machine.execFscale d a b s
  | .fgetexp d a => Sys2Proof.Machine.execFgetexp d a s
  | .fgetman d a => Sys2Proof.Machine.execFgetman d a s
  | .hadd2 d a b t => Sys2Proof.Machine.execHadd2 d a b t s
  | .hmul2 d a b t => Sys2Proof.Machine.execHmul2 d a b t s
  | .hmac2 d a b t => Sys2Proof.Machine.execHmac2 d a b t s
  | .hmax2 d a b t => Sys2Proof.Machine.execHmax2 d a b t s
  | .hmin2F16 d a b => Sys2Proof.Machine.execHmin2F16 d a b s
  | .hmin2Bf16 d a b => Sys2Proof.Machine.execHmin2Bf16 d a b s
  | .hsub2F16 d a b => Sys2Proof.Machine.execHsub2F16 d a b s
  | .hsub2Bf16 d a b => Sys2Proof.Machine.execHsub2Bf16 d a b s
  | .hdot2F16 d a b => Sys2Proof.Machine.execHdot2F16 d a b s
  | .hdot2Bf16 d a b => Sys2Proof.Machine.execHdot2Bf16 d a b s
  | .cvt d a c s1 r => Sys2Proof.Machine.execCvt d a c s1 r s
  | .packn d a b => Sys2Proof.Machine.execPackn d a b s
  | .unpknS d a b => Sys2Proof.Machine.execUnpknS d a b s
  | .unpknU d a b => Sys2Proof.Machine.execUnpknU d a b s
  | .packh d a b => Sys2Proof.Machine.execPackh d a b s
  | .dadd d a b => Sys2Proof.Machine.execDadd d a b s
  | .dsub d a b => Sys2Proof.Machine.execDsub d a b s
  | .dmul d a b => Sys2Proof.Machine.execDmul d a b s
  | .dfmac d a b => Sys2Proof.Machine.execDfmac d a b s
  | .dmin d a b => Sys2Proof.Machine.execDmin d a b s
  | .dmax d a b => Sys2Proof.Machine.execDmax d a b s
  | .ddiv d a b => Sys2Proof.Machine.execDdiv d a b s
  | .dsqrt d a => Sys2Proof.Machine.execDsqrt d a s
  | .ld t x a s1 k => Sys2Proof.Machine.execLd t x a s1 k s
  | .st t x a s1 k => Sys2Proof.Machine.execSt t x a s1 k s
  | .atom t x a s1 k => Sys2Proof.Machine.execAtom t x a s1 k s
  | .red t x a s1 k => Sys2Proof.Machine.execRed t x a s1 k s
  | .pfetch x a k => Sys2Proof.Machine.execPfetch x a k s
  | .cinval x a k => Sys2Proof.Machine.execCinval x a k s
  | .pfetchL2 x a k => Sys2Proof.Machine.execPfetchL2 x a k s
  | .fenceRel m => Sys2Proof.Machine.execFenceRel m s
  | .fenceAcq => Sys2Proof.Machine.execFenceAcq s
  | .fenceFull m => Sys2Proof.Machine.execFenceFull m s
  | .mwait t x a c k => Sys2Proof.Machine.execMwait t x a c k s
  | .bra p n d => Sys2Proof.Machine.execBra p n d s
  | .bru c t d => Sys2Proof.Machine.execBru c t d s
  | .brx a => Sys2Proof.Machine.execBrx a s
  | .ret a => Sys2Proof.Machine.execRet a s
  | .call l d => Sys2Proof.Machine.execCall l d s
  | .wait l s1 c m x => Sys2Proof.Machine.execWait l s1 c m x s
  | .barSync s1 n => Sys2Proof.Machine.execBarSync s1 n s
  | .barArrive s1 n => Sys2Proof.Machine.execBarArrive s1 n s
  | .barWait s1 n => Sys2Proof.Machine.execBarWait s1 n s
  | .cadd d a b => Sys2Proof.Machine.execCadd d a b s
  | .csub d a b => Sys2Proof.Machine.execCsub d a b s
  | .cmul d a b => Sys2Proof.Machine.execCmul d a b s
  | .cand d a b => Sys2Proof.Machine.execCand d a b s
  | .cor d a b => Sys2Proof.Machine.execCor d a b s
  | .cxor d a b => Sys2Proof.Machine.execCxor d a b s
  | .cshl d a b => Sys2Proof.Machine.execCshl d a b s
  | .cshr d a b => Sys2Proof.Machine.execCshr d a b s
  | .csar d a b => Sys2Proof.Machine.execCsar d a b s
  | .cminS d a b => Sys2Proof.Machine.execCminS d a b s
  | .cmaxS d a b => Sys2Proof.Machine.execCmaxS d a b s
  | .cminU d a b => Sys2Proof.Machine.execCminU d a b s
  | .cmaxU d a b => Sys2Proof.Machine.execCmaxU d a b s
  | .csltS d a b => Sys2Proof.Machine.execCsltS d a b s
  | .csltU d a b => Sys2Proof.Machine.execCsltU d a b s
  | .cseq d a b => Sys2Proof.Machine.execCseq d a b s
  | .caddi d a n => Sys2Proof.Machine.execCaddi d a n s
  | .aadd d a s1 => Sys2Proof.Machine.execAadd d a s1 s
  | .aadds d a s1 k => Sys2Proof.Machine.execAadds d a s1 k s
  | .afromc d n => Sys2Proof.Machine.execAfromc d n s
  | .atoc a n => Sys2Proof.Machine.execAtoc a n s
  | .cld d a s1 n => Sys2Proof.Machine.execCld d a s1 n s
  | .cst d a s1 n => Sys2Proof.Machine.execCst d a s1 n s
  | .wred d a r p n => Sys2Proof.Machine.execWred d a r p n s
  | .srd r n => Sys2Proof.Machine.execSrd r n s
  | .swr r n => Sys2Proof.Machine.execSwr r n s
  | .regqSet d a => Sys2Proof.Machine.execRegqSet d a s
  | .regqXfer d a b => Sys2Proof.Machine.execRegqXfer d a b s
  | .regqGet d => Sys2Proof.Machine.execRegqGet d s
  | .copyT a s1 f c m => Sys2Proof.Machine.execCopyT a s1 f c m s
  | .copyG a s1 f c m => Sys2Proof.Machine.execCopyG a s1 f c m s
  | .copyS a s1 f c m => Sys2Proof.Machine.execCopyS a s1 f c m s
  | .copyMc a s1 f c m => Sys2Proof.Machine.execCopyMc a s1 f c m s
  | .copyWb a s1 f c m => Sys2Proof.Machine.execCopyWb a s1 f c m s
  | .copyFill a s1 f c => Sys2Proof.Machine.execCopyFill a s1 f c s
  | .cresume s1 => Sys2Proof.Machine.execCresume s1 s
  | .ccancel s1 => Sys2Proof.Machine.execCcancel s1 s
  | .tbarInit t x a k => Sys2Proof.Machine.execTbarInit t x a k s
  | .tbarArrive t x a k => Sys2Proof.Machine.execTbarArrive t x a k s
  | .tbarExpect t x a k => Sys2Proof.Machine.execTbarExpect t x a k s
  | .tbarWait t x a k => Sys2Proof.Machine.execTbarWait t x a k s
  | .tbarTest t x a k => Sys2Proof.Machine.execTbarTest t x a k s
  | .mdesc c s1 => Sys2Proof.Machine.execMdesc c s1 s
  | .mma s1 => Sys2Proof.Machine.execMma s1 s
  | .accrd c => Sys2Proof.Machine.execAccrd c s
  | .accwr c => Sys2Proof.Machine.execAccwr c s
  | .accscl c => Sys2Proof.Machine.execAccscl c s
  | .accz c => Sys2Proof.Machine.execAccz c s
  | .wbinv a m => Sys2Proof.Machine.execWbinv a m s
  | .mstat c s1 => Sys2Proof.Machine.execMstat c s1 s
  | .collAr a s1 c => Sys2Proof.Machine.execCollAr a s1 c s
  | .collRs a s1 c => Sys2Proof.Machine.execCollRs a s1 c s
  | .collAg a s1 c => Sys2Proof.Machine.execCollAg a s1 c s
  | .collBc a s1 c => Sys2Proof.Machine.execCollBc a s1 c s
  | .tbld d a b => Sys2Proof.Machine.execTbld d a b s
  | .tbinv d a b => Sys2Proof.Machine.execTbinv d a b s
  | .tbq d a b => Sys2Proof.Machine.execTbq d a b s
  | .tagq d a b => Sys2Proof.Machine.execTagq d a b s
  | .fresume d a b => Sys2Proof.Machine.execFresume d a b s
  | .rack d a b => Sys2Proof.Machine.execRack d a b s
  | .relinq d a b => Sys2Proof.Machine.execRelinq d a b s
  | .lossrd d a b => Sys2Proof.Machine.execLossrd d a b s
  | .cntrdLo d n => Sys2Proof.Machine.execCntrdLo d n s
  | .cntrdHi d n => Sys2Proof.Machine.execCntrdHi d n s
  | .cntrd d n => Sys2Proof.Machine.execCntrd d n s
  | .cntsel n a => Sys2Proof.Machine.execCntsel n a s
  | .cntz n => Sys2Proof.Machine.execCntz n s
  | .numrd d n a => Sys2Proof.Machine.execNumrd d n a s
  | .dbpset d a b => Sys2Proof.Machine.execDbpset d a b s
  | .dbpclr d a => Sys2Proof.Machine.execDbpclr d a s
  | .dhalt d a => Sys2Proof.Machine.execDhalt d a s
  | .dstep d a b => Sys2Proof.Machine.execDstep d a b s
  | .dresume d a b => Sys2Proof.Machine.execDresume d a b s
  | .dwset d a b => Sys2Proof.Machine.execDwset d a b s
  | .dstat d a => Sys2Proof.Machine.execDstat d a s
  | .trace d a b => Sys2Proof.Machine.execTrace d a b s
  | .dpcrd d a b => Sys2Proof.Machine.execDpcrd d a b s
  | .lnchPool a s1 => Sys2Proof.Machine.execLnchPool a s1 s
  | .lnchGo a s1 => Sys2Proof.Machine.execLnchGo a s1 s
  | .cfgr d a => Sys2Proof.Machine.execCfgr d a s
  | .cfgw d a b => Sys2Proof.Machine.execCfgw d a b s
  | .hintImms n => Sys2Proof.Machine.execHintImms n s
  | .hintImmh n => Sys2Proof.Machine.execHintImmh n s
  | .hintImml n => Sys2Proof.Machine.execHintImml n s
  | .hintPred n p => Sys2Proof.Machine.execHintPred n p s
  | .hintMem n k r q c => Sys2Proof.Machine.execHintMem n k r q c s
  | .hintRnd s1 f r => Sys2Proof.Machine.execHintRnd s1 f r s
  | .hintDisp d => Sys2Proof.Machine.execHintDisp d s
  | .hintDead b m => Sys2Proof.Machine.execHintDead b m s
  | .hintSchedFill n => Sys2Proof.Machine.execHintSchedFill n s
  | .hintSchedAge n => Sys2Proof.Machine.execHintSchedAge n s
  | .runSelect core port => Sys2Proof.Machine.execRunSelect core port s
  | .sleepExpiry wg tid => Sys2Proof.Machine.execSleepExpiry wg tid s
  | .loadComplete id => Sys2Proof.Machine.execLoadComplete id s
  | .storeComplete id => Sys2Proof.Machine.execStoreComplete id s
  | .atomicPerform id => Sys2Proof.Machine.execAtomicPerform id s
  | .monitorWake wg tid => Sys2Proof.Machine.execMonitorWake wg tid s
  | .monitorPoll wg tid => Sys2Proof.Machine.execMonitorPoll wg tid s
  | .barrierArrival wg tid => Sys2Proof.Machine.execBarrierArrival wg tid s
  | .twinSignatureExchange wg => Sys2Proof.Machine.execTwinSignatureExchange wg s
  | .guardRollback wg => Sys2Proof.Machine.execGuardRollback wg s
  | .copyComplete id => Sys2Proof.Machine.execCopyComplete id s
  | .followOnEnqueue id => Sys2Proof.Machine.execFollowOnEnqueue id s
  | .copySuspend id => Sys2Proof.Machine.execCopySuspend id s
  | .bankInboundWrite id => Sys2Proof.Machine.execBankInboundWrite id s
  | .segmentGrant quad => Sys2Proof.Machine.execSegmentGrant quad s
  | .segmentEnd quad => Sys2Proof.Machine.execSegmentEnd quad s
  | .matrixOpComplete id => Sys2Proof.Machine.execMatrixOpComplete id s
  | .workgroupRetire wg => Sys2Proof.Machine.execWorkgroupRetire wg s
  | .faultRecordWrite tenant => Sys2Proof.Machine.execFaultRecordWrite tenant s
  | .debugRecordWrite part => Sys2Proof.Machine.execDebugRecordWrite part s
  | .workgroupSettled wg => Sys2Proof.Machine.execWorkgroupSettled wg s
  | .queueMap q => Sys2Proof.Machine.execQueueMap q s
  | .queueUnmap q => Sys2Proof.Machine.execQueueUnmap q s
  | .commandTake q => Sys2Proof.Machine.execCommandTake q s
  | .launch q => Sys2Proof.Machine.execLaunch q s
  | .launchPool q => Sys2Proof.Machine.execLaunchPool q s
  | .copyq q => Sys2Proof.Machine.execCopyq q s
  | .signalq q => Sys2Proof.Machine.execSignalq q s
  | .waitq q => Sys2Proof.Machine.execWaitq q s
  | .waitqComplete q => Sys2Proof.Machine.execWaitqComplete q s
  | .launchComplete l => Sys2Proof.Machine.execLaunchComplete l s
  | .bucketTick part => Sys2Proof.Machine.execBucketTick part s
  | .gangPlace die => Sys2Proof.Machine.execGangPlace die s
  | .workSteal die => Sys2Proof.Machine.execWorkSteal die s
  | .placementReservation die => Sys2Proof.Machine.execPlacementReservation die s
  | .calendarWrap die cls => Sys2Proof.Machine.execCalendarWrap die cls s
  | .runPortRound core => Sys2Proof.Machine.execRunPortRound core s
  | .preempt g => Sys2Proof.Machine.execPreempt g s
  | .preemptSave g => Sys2Proof.Machine.execPreemptSave g s
  | .timeSliceBoundary quad entry => Sys2Proof.Machine.execTimeSliceBoundary quad entry s
  | .watchdogExpiry l => Sys2Proof.Machine.execWatchdogExpiry l s
  | .grant u part => Sys2Proof.Machine.execGrant u part s
  | .revoke u => Sys2Proof.Machine.execRevoke u s
  | .create req => Sys2Proof.Machine.execCreate req s
  | .bind b q => Sys2Proof.Machine.execBind b q s
  | .recallUnits r => Sys2Proof.Machine.execRecall r s
  | .recallPost tenant => Sys2Proof.Machine.execRecallPost tenant s
  | .seize tenant u => Sys2Proof.Machine.execSeize tenant u s
  | .destroy r => Sys2Proof.Machine.execDestroy r s
  | .exportEntry e => Sys2Proof.Machine.execExportEntry e s
  | .unexportEntry e => Sys2Proof.Machine.execUnexportEntry e s
  | .recallDeadline tenant seq => Sys2Proof.Machine.execRecallDeadline tenant seq s
  | .runtimeWavePlace tenant => Sys2Proof.Machine.execRuntimeWavePlace tenant s
  | .remoteRequest r => Sys2Proof.Machine.execRemoteRequest r s
  | .remoteRefusal id absent => Sys2Proof.Machine.execRemoteRefusal id absent s
  | .lateAnswer die => Sys2Proof.Machine.execLateAnswer die s
  | .worldLatchChange quad world => Sys2Proof.Machine.execWorldLatchChange quad world s
  | .worldActivate world => Sys2Proof.Machine.execWorldActivate world s
  | .worldRevoke world => Sys2Proof.Machine.execWorldRevoke world s
  | .handoverPrepare g => Sys2Proof.Machine.execHandoverPrepare g s
  | .handoverCommit ctx => Sys2Proof.Machine.execHandoverCommit ctx s
  | .imageAccept img => Sys2Proof.Machine.execImageAccept img s
  | .quoteRequest nonce => Sys2Proof.Machine.execQuoteRequest nonce s
  | .lockctlWrite x => Sys2Proof.Machine.execLockctlWrite x s
  | .calWrite die cls idx x => Sys2Proof.Machine.execCalWrite die cls idx x s
  | .mcdropClear bank => Sys2Proof.Machine.execMcdropClear bank s
  | .freeze => Sys2Proof.Machine.execFreeze s
  | .thaw => Sys2Proof.Machine.execThaw s
  | .pcSample tenant ctr => Sys2Proof.Machine.execPcSample tenant ctr s
  | .deadlockScan => Sys2Proof.Machine.execDeadlockScan s
  | .clockControlTick watts t0 t1 ti th => Sys2Proof.Machine.execClockControlTick watts t0 t1 ti th s
  | .overtempReset die => Sys2Proof.Machine.execOvertempReset die s
  | .islandSupplyGood slot0 slot1 => Sys2Proof.Machine.execIslandSupplyGood slot0 slot1 s
  | .islandSupplyLoss => Sys2Proof.Machine.execIslandSupplyLoss s
  | .islandReset slot0 slot1 => Sys2Proof.Machine.execIslandReset slot0 slot1 s
  | .dieJoin die => Sys2Proof.Machine.execDieJoin die s
  | .heartbeatTimeout die => Sys2Proof.Machine.execHeartbeatTimeout die s
  | .dieWarmReset die => Sys2Proof.Machine.execDieWarmReset die s
  | .detachComplete die => Sys2Proof.Machine.execDetachComplete die s
  | .linkPacket p => Sys2Proof.Machine.execLinkPacket p s
  | .flowStop link vc => Sys2Proof.Machine.execFlowStop link vc s
  | .flowGo link vc => Sys2Proof.Machine.execFlowGo link vc s
  | .routeLossTimeout dev => Sys2Proof.Machine.execRouteLossTimeout dev s
  | .podidRegister podid dev poddevs => Sys2Proof.Machine.execPodidRegister podid dev poddevs s
  | .podJoinTimeout podid => Sys2Proof.Machine.execPodJoinTimeout podid s
  | .collContribution id => Sys2Proof.Machine.execCollContribution id s
  | .collectiveComplete id => Sys2Proof.Machine.execCollectiveComplete id s
  | .sessionClose sess => Sys2Proof.Machine.execSessionClose sess s
  | .coldReset => Sys2Proof.Machine.execColdReset s
  | .unclaimedEncoding word => Sys2Proof.Machine.execUnclaimedEncoding word s
  | .linkDown link => Sys2Proof.Machine.execLinkDown link s
  | .softError e => Sys2Proof.Machine.execSoftError e s
  | .queueCreate req => Sys2Proof.Machine.execQueueCreate req s
  | .qcbShadowWrite req => Sys2Proof.Machine.execQcbShadowWrite req s
  | .apertureWindowBind win sess size tenant => Sys2Proof.Machine.execApertureWindowBind win sess size tenant s
  | .apertureWindowUnbind win => Sys2Proof.Machine.execApertureWindowUnbind win s
  | .sessionOpen sess part management => Sys2Proof.Machine.execSessionOpen sess part management s
  | .coreCycle die => Sys2Proof.Machine.execCoreCycle die s

end Sys2Proof.Machine
end

