-- ==== Sys2Proof/Machine/Fetch.lean ====
section
/-! DEFINITION. What the device does next of its own (log 3): the word the head run issues, else an event that is ready, else a
core cycle; what stands in its agenda; and the placing of one instruction for the next step. -/

namespace Sys2Proof.Machine

/-! ### Words -/

/-- The word the head run issues: it does not stall and its die's clocks run. -/
def State.headWord (s : State) : Option Word :=
  match s.runs with
  | r :: _ => if r.stall = none ∧ s.dieRuns (r.core / 384) then r.words[r.idx]? else none
  | [] => none

/-- Issue a word: the instruction it decodes to, or the unclaimed encoding. -/
def issueWord (w : Word) (s : State) : Answer :=
  match decodeWord w with
  | .ok i => exec i s
  | .error _ => execUnclaimedEncoding w s

/-! ### Events the device has ready -/

/-- Events that come about in the device itself. -/
inductive Own where
  | runSelect (core port : Nat)
  | sleepExpiry (wg tid : Nat)
  | loadComplete (id : Nat)
  | storeComplete (id : Nat)
  | atomicPerform (id : Nat)
  | monitorWake (wg tid : Nat)
  | barrierArrival (wg tid : Nat)
  | twinSignatureExchange (wg : Nat)
  | guardRollback (wg : Nat)
  | copyComplete (id : Nat)
  | followOnEnqueue (id : Nat)
  | copySuspend (id : Nat)
  | bankInboundWrite (id : Nat)
  | segmentGrant (quad : Nat)
  | segmentEnd (quad : Nat)
  | matrixOpComplete (id : Nat)
  | workgroupRetire (wg : Nat)
  | faultRecordWrite (tenant : Tag)
  | debugRecordWrite (part : Nat)
  | workgroupSettled (wg : Nat)
  | queueMap (q : Nat)
  | queueUnmap (q : Nat)
  | commandTake (q : Nat)
  | launch (q : Nat)
  | launchPool (q : Nat)
  | copyq (q : Nat)
  | signalq (q : Nat)
  | waitq (q : Nat)
  | waitqComplete (q : Nat)
  | launchComplete (l : Nat)
  | gangPlace (die : Nat)
  | workSteal (die : Nat)
  | placementReservation (die : Nat)
  | preemptSave (g : Nat)
  | watchdogExpiry (l : Nat)
  | recallPost (tenant : Tag)
  | recallDeadline (tenant : Tag) (seq : Nat)
  | runtimeWavePlace (tenant : Tag)
  | timeSliceBoundary (quad entry : Nat)
  | calendarWrap (die cls : Nat)
  | worldRevoke (world : Nat)
  | imageAccept (img : SealedImage)
  | islandSupplyGood (slot0 slot1 : Bool)
  | overtempReset (die : Nat)
  | detachComplete (die : Nat)
  | routeLossTimeout (dev : Nat)
  | podidRegister (podid : Word) (dev poddevs : Nat)
  | podJoinTimeout (podid : Word)
  | collContribution (id : Nat)
  | collectiveComplete (id : Nat)
  | coreCycle (die : Nat)
deriving DecidableEq, Repr

/-- The meaning of each. -/
def Own.run (o : Own) (s : State) : Answer :=
  match o with
  | .runSelect c p => execRunSelect c p s
  | .sleepExpiry w t => execSleepExpiry w t s
  | .loadComplete i => execLoadComplete i s
  | .storeComplete i => execStoreComplete i s
  | .atomicPerform i => execAtomicPerform i s
  | .monitorWake w t => execMonitorWake w t s
  | .barrierArrival w t => execBarrierArrival w t s
  | .twinSignatureExchange w => execTwinSignatureExchange w s
  | .guardRollback w => execGuardRollback w s
  | .copyComplete i => execCopyComplete i s
  | .followOnEnqueue i => execFollowOnEnqueue i s
  | .copySuspend i => execCopySuspend i s
  | .bankInboundWrite i => execBankInboundWrite i s
  | .segmentGrant q => execSegmentGrant q s
  | .segmentEnd q => execSegmentEnd q s
  | .matrixOpComplete i => execMatrixOpComplete i s
  | .workgroupRetire w => execWorkgroupRetire w s
  | .faultRecordWrite t => execFaultRecordWrite t s
  | .debugRecordWrite p => execDebugRecordWrite p s
  | .workgroupSettled w => execWorkgroupSettled w s
  | .queueMap q => execQueueMap q s
  | .queueUnmap q => execQueueUnmap q s
  | .commandTake q => execCommandTake q s
  | .launch q => execLaunch q s
  | .launchPool q => execLaunchPool q s
  | .copyq q => execCopyq q s
  | .signalq q => execSignalq q s
  | .waitq q => execWaitq q s
  | .waitqComplete q => execWaitqComplete q s
  | .launchComplete l => execLaunchComplete l s
  | .gangPlace d => execGangPlace d s
  | .workSteal d => execWorkSteal d s
  | .placementReservation d => execPlacementReservation d s
  | .preemptSave g => execPreemptSave g s
  | .watchdogExpiry l => execWatchdogExpiry l s
  | .recallPost t => execRecallPost t s
  | .recallDeadline t n => execRecallDeadline t n s
  | .runtimeWavePlace t => execRuntimeWavePlace t s
  | .timeSliceBoundary q e => execTimeSliceBoundary q e s
  | .calendarWrap d c => execCalendarWrap d c s
  | .worldRevoke w => execWorldRevoke w s
  | .imageAccept i => execImageAccept i s
  | .islandSupplyGood a b => execIslandSupplyGood a b s
  | .overtempReset d => execOvertempReset d s
  | .detachComplete d => execDetachComplete d s
  | .routeLossTimeout d => execRouteLossTimeout d s
  | .podidRegister p d n => execPodidRegister p d n s
  | .podJoinTimeout p => execPodJoinTimeout p s
  | .collContribution i => execCollContribution i s
  | .collectiveComplete i => execCollectiveComplete i s
  | .coreCycle d => execCoreCycle d s

/-- Quads for which a time-slice list has been written (R315). -/
def State.slicedQuads (s : State) : List Nat :=
  ((s.cfg.filter fun c => decide (c.1 / 2 ^ 24 = 3)).map fun c => c.1 % 2 ^ 24 / 4).eraseDups


/-- Events of threads and workgroups. -/
def State.wgEvents (s : State) : List Own :=
  (s.wgs.flatMap fun w =>
    [.workgroupSettled w.uid, .guardRollback w.uid, .twinSignatureExchange w.uid, .workgroupRetire w.uid] ++
      w.threads.flatMap fun t => [.barrierArrival w.uid t.tid, .monitorWake w.uid t.tid, .sleepExpiry w.uid t.tid]) ++
    ((s.wgs.map fun w => w.core).eraseDups).flatMap fun c => [.runSelect c 0, .runSelect c 1]

/-- Events of accesses and engines. -/
def State.engineEvents (s : State) : List Own :=
  (s.flights.flatMap fun f => [.loadComplete f.id, .storeComplete f.id, .atomicPerform f.id]) ++
    (s.inbound.map fun i => .bankInboundWrite i.id) ++
    (s.copies.flatMap fun c => [.copyComplete c.id, .followOnEnqueue c.id, .copySuspend c.id]) ++
    (((s.matops.map fun o => o.quad).eraseDups).flatMap fun q => [.segmentEnd q, .segmentGrant q]) ++
    (s.matops.map fun o => .matrixOpComplete o.id) ++
    s.colls.flatMap fun c => [.collContribution c.id, .collectiveComplete c.id]

/-- Events of queues, launches and gangs. -/
def State.launchEvents (s : State) : List Own :=
  (s.queues.flatMap fun q =>
    [.queueUnmap q.q, .queueMap q.q, .commandTake q.q, .launch q.q, .launchPool q.q, .copyq q.q, .signalq q.q, .waitq q.q,
      .waitqComplete q.q]) ++
    (s.gangs.map fun g => .preemptSave g.uid) ++
    (s.launches.flatMap fun l => [.launchComplete l.id, .watchdogExpiry l.id]) ++
    (s.slicedQuads.map fun q => .timeSliceBoundary q (s.sliceDue (s.sliceList q))) ++
    ([0, 1].flatMap fun d => (List.range 4).map fun c => .calendarWrap d c) ++
    [.gangPlace 0, .gangPlace 1, .workSteal 0, .workSteal 1, .placementReservation 0, .placementReservation 1]

/-- Events of the firmware and the island. -/
def State.firmwareEvents (s : State) : List Own :=
  (s.tenants.flatMap fun t =>
    [.faultRecordWrite t.tag, .recallPost t.tag, .runtimeWavePlace t.tag] ++ t.recalls.map fun r => .recallDeadline t.tag r.seq) ++
    (s.pendDebug.map fun r => .debugRecordWrite r.1) ++
    (s.gangs.filterMap fun g => g.sealedEpoch.bind fun e =>
      let i : SealedImage := ⟨s.gangWorld g, .gang g.uid, e⟩
      if g.status = .saved ∧ ¬ g.moved ∧ s.accepts i then some (.imageAccept i) else none) ++
    ((List.range 16).filterMap fun w => if s.keySlots[w]? = some .revoking then some (.worldRevoke w) else none) ++
    (s.booting.map fun b => .islandSupplyGood b.1 b.2).toList ++
    [.overtempReset 0, .overtempReset 1, .detachComplete 0, .detachComplete 1] ++
    (s.lostRoutes.map fun r => .routeLossTimeout r.1) ++
    (s.launches.filterMap fun l => if l.podid = 0#32 then none else some (.podidRegister l.podid Config.devNumber.toNat l.poddevs)) ++
    s.podRegs.map fun r => .podJoinTimeout r.podid

/-- Whether an event does anything. -/
def State.movedBy (s : State) (o : Own) : Bool :=
  match o.run s, done s with
  | .next t, .next u => decide (t ≠ u)
  | _, _ => false

/-- The die whose core cycle comes next: of two that run, the one behind. -/
def State.cycleDie (s : State) : Nat :=
  if s.dieRuns 1 ∧ (¬ s.dieRuns 0 ∨ s.die1.cycles < s.die0.cycles) then 1 else 0

/-- The event the device takes when no word is ready: the first that does anything, else a core cycle. Frozen dies do nothing. -/
def State.ownEvent (s : State) : Own :=
  if s.frozen.isSome then .coreCycle 0
  else
    (firstSome (fun es : State → List Own => (es s).find? s.movedBy)
      [State.engineEvents, State.wgEvents, State.launchEvents, State.firmwareEvents]).getD (.coreCycle s.cycleDie)

/-- A step of the device of its own. -/
def State.ownStep (s : State) : Answer :=
  match s.headWord with
  | some w => issueWord w s
  | none => s.ownEvent.run s

/-! ### The agenda -/

/-- Whether an event needs the clocks of the compute dies (R350). -/
def ofDies (i : Instr) : Bool :=
  match i with
  | .runSelect .. | .sleepExpiry .. | .loadComplete .. | .storeComplete .. | .atomicPerform .. | .monitorWake .. | .monitorPoll ..
  | .remoteRefusal .. | .collContribution .. | .collectiveComplete .. | .runtimeWavePlace .. | .workSteal .. | .placementReservation ..
  | .barrierArrival .. | .twinSignatureExchange .. | .guardRollback .. | .copyComplete .. | .followOnEnqueue ..
  | .copySuspend .. | .bankInboundWrite .. | .segmentGrant .. | .segmentEnd .. | .matrixOpComplete .. | .workgroupRetire ..
  | .workgroupSettled .. | .gangPlace .. | .preempt .. | .preemptSave .. | .calendarWrap .. | .runPortRound .. | .pcSample ..
  | .watchdogExpiry .. | .recallDeadline .. | .timeSliceBoundary .. => true
  | _ => false

/-- Whether an entry stands for a word, which a run alone issues. -/
def ofWord (i : Instr) : Bool :=
  match i with
  | .unclaimedEncoding _ => true
  | i => (encode i).isSome

/-- Whether the agenda may hold an event now: it stands for no word, and frozen dies do nothing. -/
def State.admits (s : State) (i : Instr) : Bool := !ofWord i && !(s.frozen.isSome && ofDies i)

/-- A request tried again. -/
def Request.run (r : Request) (s : State) : Answer :=
  match r with
  | .grant u p => s.grantFrom u p
  | .revoke u => s.revokeFrom u
  | .create c => s.createFrom c
  | .bind p b t => s.bindFrom p b t
  | .seize t u k => s.seizeFrom t u k
  | .destroy h p t => s.destroyFrom h p t
  | .unbind w => s.unbindFrom w
  | .close x => done (s.endSession x)

/-- One entry of the agenda. -/
def State.turn (s : State) (x : Todo) : Answer :=
  match x with
  | .event i => if s.admits i then exec i s else done s
  | .own => s.ownStep
  | .again r => r.run s
  | .dieFails d => execDieFails d s
  | .agreeKey w => execAgreeKey w s
  | .sendMail a b m => execSendMail a b m s
  | .takeMail a b => execTakeMail a b s

/-! ### Placing one instruction -/

/-- A launch of one thread that holds one block; `wave` and `debug` give it the rights of R83. -/
def placedLaunch (id : Nat) (tag : Tag) (wave debug : Bool) : Launch :=
  { id := id, tenant := tag, queue := none, cmd := 0, code := 0, args := 0, gx := 1, gy := 1, gz := 1, threads := 1, wpg := 1
    regs := 128, commons := 64, banks := 0, acc := 0, wbuf := 0, scratch := 0, world := 0, prio := 0, guarded := false
    twin := false, debug := debug, record := false, strict := false, persistent := false, tlimit := 0, account := 0
    exits := 0, podid := 0, poddevs := 0, nwg := 1, pool := none, wave := wave, startNs := none, ended := 0, liveAtEnd := 0
    num := [] }

def placedGang (uid launch : Nat) : Gang :=
  { uid := uid, launch := launch, num := 0, die := 0, quad := 0, bank0 := 0, banks := 0, acc0 := 0, accs := 0, seg0 := 0
    segs := 0, home0 := 0, room := [], status := .placed, waitSince := none, isTwin := false, savedBanks := [], savedSegs := []
    savedAcc := [], savedBankPoison := [], savedSegPoison := [], savedAccPoison := [], savedOps := [], savedCopies := []
    sealedEpoch := none, back := false, moved := false }

/-- A workgroup of one thread on core 0, in the block of a uniform run whose next word is `w`. -/
def State.placeFor (s : State) (tag : Tag) (wave debug : Bool) (w : Word) : State :=
  let id := s.nextId
  let l := placedLaunch s.launchSeq tag wave debug
  let g := placedGang id l.id
  let v := startWg l g (id + 1) 0 0 0 0 none
  let v1 := { v with threads := v.threads.map fun t => { t with place := .running } }
  let r : Run :=
    { core := 0, port := 0, wg := v.uid, key := 0, uniform := true, groups := [[0]], words := [ublkWord, w], idx := 1, grp := 0
      stall := none, parked := [], armed := List.replicate 16 none }
  { s with
    nextId := id + 2, launchSeq := s.launchSeq + 1, launches := l :: s.launches, gangs := g :: s.gangs, wgs := v1 :: s.wgs
    runs := r :: s.runs, island := .joined, die0 := { s.die0 with endp := .attached }, frozen := none, agenda := .own :: s.agenda }

/-- The state in which a word is the next that step issues. -/
def State.placeWord (s : State) (w : Word) : State := s.placeFor (Tag.make 1 1 1) false false w

end Sys2Proof.Machine
end

