-- ==== Sys2Proof/Machine/Step.lean ====
section
/-! DEFINITION. One step of the device, and the placing of one instruction for the next step. -/

namespace Sys2Proof.Machine

/-- One step (log 3): the oldest entry of the agenda, else what the device does of its own. -/
def step (s : State) : Host.Outcome State Fault Refusal :=
  match s.agenda with
  | x :: rest => ({ s with agenda := rest } : State).turn x
  | [] => s.ownStep

/-- The state with one instruction as the next word its device issues. -/
def State.withFetchWord (s : State) (nbits w : Nat) : State := s.placeWord (BitVec.ofNat 32 (w % 2 ^ nbits))

end Sys2Proof.Machine
end

