-- ==== Sys2Proof/Safety.lean ====
section
/-! DEFINITION. The terms the statements use: what a device's group is about to issue and when nothing but the
instruction's own effect can happen, the operands as the manual gives them, what an issue may change, and the invariant
of memory. -/

namespace Sys2Proof.Machine

/-! ### Invariants -/

/-- Memory is in its canonical form: addresses rise, and no entry is what an unlisted address reads as. -/
def State.MemoryOk (s : State) : Prop := Memory.wf s.mem = true

/-! ### The group that issues -/

/-- The threads of the group a run issues for next (R45, R48). -/
def Run.group (r : Run) (w : Wg) : List Thread := w.threads.filter fun t => (r.groups.getD r.grp []).contains t.tid

/-- Every thread still in a run. -/
def Run.everyone (r : Run) (w : Wg) : List Thread := w.threads.filter fun t => r.groups.flatten.contains t.tid

/-- The threads a hint issues for (R71, R78): every thread of the run where the instruction it applies to, the next of the block that is no
hint, is uniform; else the group. -/
def Run.hinted (r : Run) (w : Wg) : List Thread :=
  match (r.words.drop (r.idx + 1)).find? fun x => decide (x.extractLsb' 26 6 ≠ 0x3F#6) with
  | some x => if uniformWord x then r.everyone w else r.group w
  | none => r.group w

/-- The word offset of the instruction a run issues next. -/
def Run.pc (r : Run) : Nat := r.key + r.idx

def State.thread? (s : State) (uid tid : Nat) : Option Thread := (s.wg? uid).bind fun w => w.thread? tid

/-- Where a thread may go without anything else happening: to wait for what has not come yet, or to exit while no barrier is in use
(R34, R187). -/
def Parking.settles (s : State) (w : Wg) (p : Parking) : Prop :=
  (∃ k on, p.place = .waiting k on ∧ s.waitOver w p.tid on = false) ∨ (p.place = .exited ∧ s.barriers = [])

/-- The issuing run `r` of the workgroup `w` issues for its group, and nothing but the instruction decides what happens:
every thread of the group is free to go on (R225, R357), no comparator fires for it (R344), its guard is clean (R375); and every
thread that is already through the block's terminator has left the groups of the run and goes to its place and no more (R48). -/
structure Smooth (s : State) (r : Run) (w : Wg) : Prop where
  issuer : s.issuer = some (r, w)
  parked : ∀ p ∈ r.parked, p.settles s w ∧ p.tid ∉ r.groups.flatten
  free : ∀ t ∈ r.group w, t.block = .none ∧ t.owes = false
  armed : ∀ t ∈ r.group w, t.suppress = true ∨ s.comparatorAt r w.launch r.pc = none
  clean : ∀ t ∈ r.group w, t.guard.poison = none

/-- The same for a uniform instruction, which issues for every thread of the run at once (R52), so that none is through a terminator
already: the block is uniform (R53) and no thread has a guard pending (R74). -/
structure SmoothAll (s : State) (r : Run) (w : Wg) : Prop where
  issuer : s.issuer = some (r, w)
  uniform : r.uniform = true
  parked : r.parked = []
  free : ∀ t ∈ r.everyone w, t.block = .none ∧ t.owes = false
  armed : ∀ t ∈ r.everyone w, t.suppress = true ∨ s.comparatorAt r w.launch r.pc = none
  unguarded : ∀ t ∈ r.everyone w, t.hints.pred = none

/-! ### Operands (R66-R70) -/

/-- The inline FP32 constants of fields 0xE0 to 0xEE (R67). -/
def inlineTable : List Word :=
  [0x00000000#32, 0x3F000000#32, 0x3F800000#32, 0x40000000#32, 0x40800000#32, 0x41000000#32, 0x3E800000#32, 0xBF000000#32,
    0xBF800000#32, 0xC0000000#32, 0xC0800000#32, 0x3FB8AA3B#32, 0x3F317218#32, 0x7F800000#32, 0xFF800000#32]

/-- A 32-bit operand of a thread (R68). -/
def operand (s : State) (w : Wg) (t : Thread) (f : BitVec 8) : Reg :=
  if f.toNat < 0x80 then t.reg s f.toNat
  else if f.toNat < 0xC0 then w.creg (f.toNat - 0x80)
  else if f.toNat < 0xE0 then ⟨BitVec.ofNat 32 (f.toNat - 0xC0), none⟩
  else if f.toNat < 0xEF then ⟨inlineTable.getD (f.toNat - 0xE0) 0, none⟩
  else ⟨t.hints.lit, none⟩

/-- A packed 16-bit operand (R68): an inline constant is rounded to the type into both halves. -/
def operandPacked (s : State) (w : Wg) (t : Thread) (fmt : Fmt) (f : BitVec 8) : Reg :=
  if 0xE0 ≤ f.toNat ∧ f.toNat < 0xEF then
    let h := (fmt.roundTo .rne false false (fp32.value (inlineTable.getD (f.toNat - 0xE0) 0).toNat)).bits
    ⟨BitVec.ofNat 32 (h * 65536 + h), none⟩
  else operand s w t f

/-- An FP64 operand (R68): a pair of registers, an inline integer as its FP64 value, an FP32 constant or literal converted
exactly. -/
def operandDouble (s : State) (w : Wg) (t : Thread) (f : BitVec 8) : DWord × Poison :=
  if f.toNat < 0xC0 then
    ((operand s w t (f + 1)).val ++ (operand s w t f).val, (operand s w t f).poison.join (operand s w t (f + 1)).poison)
  else if f.toNat < 0xE0 then
    (BitVec.ofNat 64 (Machine.fp64.roundTo .rne false false (.ofInt (f.toNat - 0xC0 : Nat))).bits, none)
  else (widen32 (operand s w t f).val.toNat, none)

/-- A pair of thread registers as one 64-bit value. -/
def pairValue (s : State) (t : Thread) (n : Nat) : DWord × Poison :=
  ((t.reg s (n + 1)).val ++ (t.reg s n).val, (t.reg s n).poison.join (t.reg s (n + 1)).poison)

/-- Whether a thread can read a source field of `cnt` registers now: the field is claimed and its register aligned (R66,
R84), below the quota or the number of commons (R70), and not waiting for a load (R112); the literal has been set (R72). -/
def canRead (w : Wg) (t : Thread) (f : BitVec 8) (cnt : Nat) : Prop :=
  f.toNat ≤ 0xF0 ∧ f.toNat ≠ 0xEF ∧
  (f.toNat < 0x80 → f.toNat % cnt = 0 ∧ f.toNat < w.quota ∧ ∀ i < cnt, f.toNat + i ∉ t.pending) ∧
  (0x80 ≤ f.toNat → f.toNat < 0xC0 → (f.toNat - 0x80) % cnt = 0 ∧ f.toNat - 0x80 < w.commons.length) ∧
  (f.toNat = 0xF0 → t.hints.litSet = true)

/-- Whether a thread can name `cnt` thread registers from `n` on. -/
def canName (w : Wg) (t : Thread) (n cnt : Nat) : Prop := n % cnt = 0 ∧ n < w.quota ∧ ∀ i < cnt, n + i ∉ t.pending

/-- A 32-bit operand of a uniform instruction (R69); the literal is that of the run's threads (R78). -/
def uniformOperand (w : Wg) (r : Run) (f : BitVec 8) : Reg :=
  if f.toNat < 0xC0 then w.creg (f.toNat - 0x80)
  else if f.toNat < 0xE0 then ⟨BitVec.ofNat 32 (f.toNat - 0xC0), none⟩
  else if f.toNat < 0xEF then ⟨inlineTable.getD (f.toNat - 0xE0) 0, none⟩
  else ⟨((w.thread? (r.groups.flatten.headD 0)).map fun t => t.hints.lit).getD 0, none⟩

/-- Whether a uniform instruction can read a source field: the literal must be set in every thread of the run. -/
def canReadUniform (w : Wg) (r : Run) (f : BitVec 8) : Prop :=
  0x80 ≤ f.toNat ∧ f.toNat ≤ 0xF0 ∧ f.toNat ≠ 0xEF ∧ (f.toNat < 0xC0 → f.toNat - 0x80 < w.commons.length) ∧
  (f.toNat = 0xF0 → r.groups.flatten ≠ [] ∧ ∀ t ∈ r.everyone w, t.hints.litSet = true)

/-! ### Values of bit patterns and of results (R122, R133, R140, R155-R172) -/

/-- The formats of thread instructions (R133). -/
def threadFormats : List Fmt := [fp64, fp32, fp16, bf16]

/-- The number a finite exact value is. -/
def Exact.rat : Exact → ℚ
  | .fin s m e _ => (if s then -1 else 1) * m * (2 : ℚ) ^ e
  | _ => 0

/-- A value that is finite and known whole. -/
def Exact.finite (x : Exact) : Prop := ∃ s m e, x = .fin s m e false

/-- R133, R134, R141: the value of a pattern from its sign, exponent and fraction fields; a subnormal one reads as a zero of its sign
under ftz. -/
def PatternsHaveValues : Prop :=
  ∀ f ∈ threadFormats, ∀ b : Nat,
    let ex := b / 2 ^ f.fb % 2 ^ f.eb
    let fr := b % 2 ^ f.fb
    let neg := decide (b / 2 ^ (f.eb + f.fb) % 2 = 1)
    let sign : ℚ := if neg then -1 else 1
    let bias : Int := 2 ^ (f.eb - 1) - 1
    let x := f.value b
    (ex = 0 → x.finite ∧ x.neg? = neg ∧ x.rat = sign * (fr / 2 ^ f.fb) * 2 ^ (1 - bias)) ∧
    (0 < ex → ex < 2 ^ f.eb - 1 → x.finite ∧ x.neg? = neg ∧ x.rat = sign * (1 + fr / 2 ^ f.fb) * 2 ^ ((ex : Int) - bias)) ∧
    (ex = 2 ^ f.eb - 1 → x = if fr = 0 then .inf neg else .nan (decide (fr < 2 ^ (f.fb - 1)))) ∧
    ∀ e : FpEnv, e.read f b = if e.ftz = true ∧ f ≠ fp64 ∧ ex = 0 ∧ fr ≠ 0 then .zero neg else x

/-- R139: a value `x` of magnitude `m` times 2^`e`, or just above it where `more` is set, goes to the multiple of 2^`q` that the mode names. -/
def RoundsToMultiple : Prop :=
  ∀ (mode : Rnd) (neg : Bool) (m : Nat) (e q : Int) (more : Bool) (x : ℚ),
    (if more then m * 2 ^ e < x ∧ x < (m + 1) * 2 ^ e ∧ e < q else x = m * 2 ^ e) →
    let n := (roundAt mode neg m e more q).1
    let y : ℚ := n * 2 ^ q
    ((roundAt mode neg m e more q).2 = true ↔ y ≠ x) ∧ |y - x| < 2 ^ q ∧
    (mode = .rne → |y - x| ≤ 2 ^ q / 2 ∧ (|y - x| = 2 ^ q / 2 → n % 2 = 0)) ∧ (mode = .rz → y ≤ x) ∧
    (mode = .rd → if neg then x ≤ y else y ≤ x) ∧ (mode = .ru → if neg then y ≤ x else x ≤ y)

/-- R135, R140: a nonzero finite value goes to the format in one rounding at its quantum; overflow, underflow and inexact are raised as the
value rounded with an unbounded exponent says; ftz gives a zero, saturation the largest finite number; NaN is canonical. -/
def RoundsToFormat : Prop :=
  ∀ f ∈ threadFormats, ∀ (mode : Rnd) (ftz sat : Bool),
    (∀ q, f.roundTo mode ftz sat (.nan q) = ⟨f.nanBits, .none, none⟩) ∧
    (∀ s, (f.roundTo mode ftz sat (.inf s)).bits = f.signBit s + (if sat then f.infBits - 1 else f.infBits) ∧
      (f.roundTo mode ftz sat (.inf s)).flags = .none) ∧
    (∀ s e, f.roundTo mode ftz sat (.fin s 0 e false) = ⟨f.signBit s, .none, none⟩) ∧
    ∀ (s : Bool) (m : Nat) (e : Int) (more : Bool), m ≠ 0 →
      let r := f.roundTo mode ftz sat (.fin s m e more)
      let quantum : Int := m.log2 + e - f.fb
      let free : ℚ := (roundAt mode s m e more quantum).1 * 2 ^ quantum
      let least : Int := 1 - f.bias
      if 2 ^ (f.bias + 1) ≤ free then
        r.flags = ⟨false, false, true, false, true⟩ ∧ r.bits = f.signBit s +
          (if sat = true ∨ mode = .rz ∨ mode = .rd ∧ s = false ∨ mode = .ru ∧ s = true then f.infBits - 1 else f.infBits)
      else if free < 2 ^ least ∧ ftz = true then r.bits = f.signBit s ∧ r.flags = ⟨false, false, false, true, true⟩
      else
        let z := roundAt mode s m e more (max quantum (least - f.fb))
        (f.value r.bits).finite ∧ (f.value r.bits).neg? = s ∧
          (f.value r.bits).rat = (if s then -1 else 1) * z.1 * 2 ^ max quantum (least - f.fb) ∧
          r.flags = ⟨false, false, false, decide (free < 2 ^ least) && z.2, z.2⟩

/-- R155, R156, R158, R162: sums, products, fused sums and quotients are the exact ones, rounded once; the sign of an exact zero, NaN and
infinity as R155 and R162 list them. -/
def ArithmeticIsExact : Prop :=
  ∀ f ∈ threadFormats, ∀ (e : FpEnv) (a b c : Nat),
    let x := e.read f a
    let y := e.read f b
    let z := e.read f c
    let invalid := fun o : FpOut => o = e.round f (.nan false, .invalid)
    let nan := fun o : FpOut => o.bits = f.nanBits ∧ o.flags = if x.snan ∨ y.snan then .invalid else .none
    let sum := fun (o : FpOut) (u v : ℚ) (un vn : Bool) => ∃ w : Exact, w.finite ∧ w.rat = u + v ∧ o = e.round f (w, .none) ∧
      (w.rat = 0 → w.neg? = if u = 0 ∧ v = 0 ∧ un = vn then un else decide (e.mode = .rd))
    let flip := fun n : Bool => if n then (-1 : ℚ) else 1
    (∀ o : Exact × Flags, (e.round f o).bits = (f.roundTo e.mode (e.ftz && decide (f ≠ fp64)) e.sat o.1).bits ∧
      (e.round f o).flags = o.2.union (f.roundTo e.mode (e.ftz && decide (f ≠ fp64)) e.sat o.1).flags) ∧
    (x.finite → y.finite →
      sum (fpAdd f e a b) x.rat y.rat x.neg? y.neg? ∧ sum (fpSub f e a b) x.rat (-y.rat) x.neg? (!y.neg?) ∧
      (∃ w : Exact, w.finite ∧ w.rat = x.rat * y.rat ∧ w.neg? = (x.neg? != y.neg?) ∧ fpMul f e a b = e.round f (w, .none)) ∧
      (∀ np na, z.finite → sum (fpFma f e np na a b c) (flip np * (x.rat * y.rat)) (flip na * z.rat)
        ((x.neg? != y.neg?) != np) (z.neg? != na)) ∧
      (y.rat ≠ 0 → x.rat = 0 → fpDiv f e a b = e.round f (.zero (x.neg? != y.neg?), .none)) ∧
      (y.rat ≠ 0 → x.rat ≠ 0 → ∃ (m : Nat) (k : Int) (more : Bool), fpDiv f e a b = e.round f (.fin (x.neg? != y.neg?) m k more, .none) ∧
        2 ^ 64 ≤ m ∧ m * 2 ^ k ≤ |x.rat / y.rat| ∧ |x.rat / y.rat| < (m + 1) * 2 ^ k ∧ (more = true ↔ m * 2 ^ k ≠ |x.rat / y.rat|)) ∧
      (y.rat = 0 → if x.rat = 0 then invalid (fpDiv f e a b) else fpDiv f e a b = e.round f (.inf (x.neg? != y.neg?), .divZero))) ∧
    (x.isNan = true ∨ y.isNan = true → nan (fpAdd f e a b) ∧ nan (fpSub f e a b) ∧ nan (fpMul f e a b) ∧ nan (fpDiv f e a b)) ∧
    (∀ s, x = .inf s →
      (∀ t, y = .inf t →
        (if s = t then fpAdd f e a b = e.round f (.inf s, .none) ∧ invalid (fpSub f e a b)
          else invalid (fpAdd f e a b) ∧ fpSub f e a b = e.round f (.inf s, .none)) ∧
        fpMul f e a b = e.round f (.inf (s != t), .none) ∧ invalid (fpDiv f e a b)) ∧
      (y.finite → fpAdd f e a b = e.round f (.inf s, .none) ∧ fpSub f e a b = e.round f (.inf s, .none) ∧
        fpDiv f e a b = e.round f (.inf (s != y.neg?), .none) ∧
        if y.rat = 0 then invalid (fpMul f e a b) ∧ ∀ np na, z.isNan = false → invalid (fpFma f e np na a b c)
          else fpMul f e a b = e.round f (.inf (s != y.neg?), .none))) ∧
    ∀ t, y = .inf t → x.finite → fpAdd f e a b = e.round f (.inf t, .none) ∧ fpSub f e a b = e.round f (.inf (!t), .none) ∧
      fpDiv f e a b = e.round f (.zero (x.neg? != t), .none) ∧
      if x.rat = 0 then invalid (fpMul f e a b) else fpMul f e a b = e.round f (.inf (x.neg? != t), .none)

/-- R159, R161, R162, R164, R166: a number scaled, rounded to an integral value, taken apart, and a packed dot product. -/
def PartsAndProducts : Prop :=
  ∀ (e : FpEnv) (a b c : Nat) (n : Int),
    let x := e.read fp32 a
    (x.finite → ∃ w : Exact, w.finite ∧ w.rat = x.rat * 2 ^ n ∧ w.neg? = x.neg? ∧ fpScale e a n = e.round fp32 (w, .none)) ∧
    (∀ s, x = .inf s → fpScale e a n = ⟨fp32.signBit s + fp32.infBits, .none, none⟩) ∧
    (∀ s m k, x = .fin s m k false → ∃ w : Exact, w.finite ∧ w.rat = (if s then -1 else 1) * (roundAt e.mode s m k false 0).1 ∧
      w.neg? = s ∧ fpUn fp32 e (Exact.rint e.mode) a = e.round fp32 (w, .none)) ∧
    (∀ ftz, let y := fp32.read ftz a
      let z := fp32.value (fpGetMan ftz a).bits
      y.finite → y.rat ≠ 0 → z.finite ∧ 1 ≤ |z.rat| ∧ |z.rat| < 2 ∧
        y.rat = z.rat * 2 ^ (BitVec.ofNat 32 (fpGetExp ftz a).bits).toInt ∧ (fpGetMan ftz a).flags = .none ∧ (fpGetExp ftz a).flags = .none) ∧
    ∀ f ∈ [fp16, bf16],
      let u := fun w : Nat => e.read f (w % 65536)
      let v := fun w : Nat => e.read f (w / 65536 % 65536)
      (u a).finite → (u b).finite → (v a).finite → (v b).finite → (e.read fp32 c).finite →
        ∃ w : Exact, w.finite ∧ w.rat = (e.read fp32 c).rat + (u a).rat * (u b).rat + (v a).rat * (v b).rat ∧
          fpDot2 f e a b c = e.round fp32 (w, .none)

/-- R160: the special operands of the functions of one operand, in the order -inf, -0, +0, +inf, then a NaN. -/
def FunctionsOfSpecials : Prop :=
  let nv : Exact × Flags := (.nan false, .invalid)
  let one : Exact × Flags := (.fin false 1 0 false, .none)
  let zero := fun s => ((.zero s, .none) : Exact × Flags)
  let inf := fun s => ((.inf s, .none) : Exact × Flags)
  let pole := fun s => ((.inf s, .divZero) : Exact × Flags)
  ∀ row ∈ [(Exact.rcp, [zero true, pole true, pole false, zero false]), (Exact.sqrt, [nv, zero true, zero false, inf false]),
      (Exact.rsq, [nv, pole true, pole false, zero false]), (Exact.exp2, [zero false, one, one, inf false]),
      (Exact.log2, [nv, pole true, pole true, inf false]), (Exact.sinpi, [nv, zero true, zero false, nv]), (Exact.cospi, [nv, one, one, nv])],
    [row.1 (.inf true), row.1 (fp32.value 0x80000000), row.1 (fp32.value 0), row.1 (.inf false)] = row.2 ∧
    ∀ q, row.1 (.nan q) = (.nan false, if q then .invalid else .none)

/-- R157, R168: comparisons, minima and maxima follow the order of the values; what is unordered, and what raises NV. -/
def ComparisonsOrder : Prop :=
  ∀ f ∈ threadFormats, ∀ (ftz : Bool) (a b : Nat),
    let x := f.read (ftz && decide (f ≠ fp64)) a
    let y := f.read (ftz && decide (f ≠ fp64)) b
    let below := fun u v : Exact => (u = .inf true ∧ v ≠ .inf true) ∨ (v = .inf false ∧ u ≠ .inf false) ∨
      (u.finite ∧ v.finite ∧ u.rat < v.rat)
    let same := (∃ s, x = .inf s ∧ y = .inf s) ∨ (x.finite ∧ y.finite ∧ x.rat = y.rat)
    let un := x.isNan = true ∨ y.isNan = true
    let lt := ¬ un ∧ below x y
    let gt := ¬ un ∧ below y x
    (∀ row ∈ [(0, same), (1, ¬ un ∧ ¬ same), (2, lt), (3, lt ∨ same), (4, gt), (5, gt ∨ same), (6, ¬ un), (7, un), (8, same ∨ un),
        (9, ¬ same), (10, lt ∨ un), (11, lt ∨ same ∨ un), (12, gt ∨ un), (13, gt ∨ same ∨ un)],
      ((fpCompare f ftz row.1 a b).1 = true ↔ row.2) ∧ (fpCompare f ftz row.1 a b).2 =
        if x.snan ∨ y.snan ∨ un ∧ 2 ≤ row.1 ∧ row.1 ≤ 5 then .invalid else .none) ∧
    ∀ top prop,
      let o := fpMinMax f ftz top prop a b
      let less := lt ∨ same ∧ x.neg? = true ∧ y.neg? = false
      let more := gt ∨ same ∧ y.neg? = true ∧ x.neg? = false
      o.flags = (if x.snan ∨ y.snan then .invalid else .none) ∧
      (less → o.bits = flushBits f ftz (if top then b else a)) ∧ (more → o.bits = flushBits f ftz (if top then a else b)) ∧
      (¬ un → o.bits = flushBits f ftz a ∨ o.bits = flushBits f ftz b) ∧
      (x.isNan = true → y.isNan = true ∨ prop = true → o.bits = f.nanBits) ∧
      (y.isNan = true → prop = true → o.bits = f.nanBits) ∧
      (prop = false → x.isNan = true → y.isNan = false → o.bits = flushBits f ftz b) ∧
      (prop = false → y.isNan = true → x.isNan = false → o.bits = flushBits f ftz a)

/-- R169-R171: a conversion to an integer rounds to a multiple of 1 and keeps to the range; one to a floating-point format reads its
source and rounds it once. -/
def ConversionsConvert : Prop :=
  ∀ (e : FpEnv) (a d : Nat),
    let nv := fun x : Exact => if x.snan then Flags.invalid else Flags.none
    (∀ row ∈ [(0x03, fp32, (-2147483648 : Int), (2147483647 : Int)), (0x04, fp32, 0, 4294967295), (0x0E, fp64, -2147483648, 2147483647)],
      let o := cvtResult row.1 e a d
      let give := fun (v : Int) (fl : Flags) => BitVec.ofNat 32 o.bits = BitVec.ofInt 32 v ∧ o.flags = fl
      let x := e.read row.2.1 a
      (x.isNan = true → give 0 .invalid) ∧
      (∀ s, x = .inf s → give (if s then row.2.2.1 else row.2.2.2) .invalid) ∧
      ∀ s m k, x = .fin s m k false →
        let n : Int := (roundAt e.mode s m k false 0).1
        let v : Int := if s then -n else n
        if v < row.2.2.1 then give row.2.2.1 .invalid
        else if row.2.2.2 < v then give row.2.2.2 .invalid
        else give v ⟨false, false, false, false, (roundAt e.mode s m k false 0).2⟩) ∧
    (∀ row ∈ [(0x01, fp32, true), (0x02, fp32, false), (0x0D, fp64, true)], a < 2 ^ 32 →
      ∃ x : Exact, x.finite ∧ x.rat = (if row.2.2 then (BitVec.ofNat 32 a).toInt else a : Int) ∧ (x.rat = 0 → x.neg? = false) ∧
        cvtResult row.1 e a d = e.round row.2.1 (x, .none)) ∧
    (∀ row ∈ [(0x05, fp32, fp16, a), (0x06, fp16, fp32, a % 65536), (0x07, fp16, fp32, a / 65536), (0x08, fp32, bf16, a),
        (0x09, bf16, fp32, a % 65536), (0x0A, bf16, fp32, a / 65536), (0x0B, fp32, fp64, a), (0x0C, fp64, fp32, a)],
      cvtResult row.1 e a d = e.round row.2.2.1 (e.read row.2.1 row.2.2.2, nv (e.read row.2.1 row.2.2.2))) ∧
    ∀ k, k < 4 →
      let byte := (BitVec.ofNat 32 a).extractLsb' (8 * k) 8
      (BitVec.ofNat 32 (cvtResult (0x10 + k) e a d).bits = byte.signExtend 32) ∧
      (BitVec.ofNat 32 (cvtResult (0x14 + k) e a d).bits = byte.setWidth 32) ∧
      ∀ row ∈ [(0x20, 0x28, e4m3), (0x24, 0x2C, e5m2)],
        cvtResult (row.1 + k) e a d = e.round fp32 (row.2.2.value byte.toNat, nv (row.2.2.value byte.toNat)) ∧
        let r := row.2.2.roundTo e.mode false e.sat (e.read fp32 a)
        let o := cvtResult (row.2.1 + k) e a d
        o.flags = (nv (e.read fp32 a)).union r.flags ∧
          ∀ j, j < 4 → (BitVec.ofNat 32 o.bits).extractLsb' (8 * j) 8 =
            if j = k then BitVec.ofNat 8 r.bits else (BitVec.ofNat 32 d).extractLsb' (8 * j) 8

/-- Results on fixed operands: the examples of R141, R157, R164, R166 and R171, and functions of 0.1, 2, 3 and 10 to the nearest. -/
def ResultsOfExamples : Prop :=
  let near : FpEnv := ⟨.rne, false, false⟩
  let inMode := fun m => (⟨m, false, false⟩ : FpEnv)
  (∀ row ∈ [(0x08, [0x3DCD, 0x3DCC, 0x3DCC, 0x3DCD]), (0x05, [0x2E66, 0x2E66, 0x2E66, 0x2E67]), (0x2C, [0x2E, 0x2E, 0x2E, 0x2F]),
      (0x28, [0x1D, 0x1C, 0x1C, 0x1D])],
    [Rnd.rne, .rz, .rd, .ru].map (fun m => (cvtResult row.1 (inMode m) 0x3DCCCCCD 0).bits) = row.2 ∧
    ∀ m ∈ [Rnd.rne, .rz, .rd, .ru], (cvtResult row.1 (inMode m) 0x3DCCCCCD 0).flags = ⟨false, false, false, false, true⟩) ∧
  cvtResult 0x2A near 0x43FA0000 0x11223344 = ⟨0x117E3344, ⟨false, false, true, false, true⟩, some .sat⟩ ∧
  cvtResult 0x2E ⟨.rne, false, true⟩ 0x43FA0000 0x11223344 = ⟨0x11603344, ⟨false, false, false, false, true⟩, none⟩ ∧
  fpMinMax fp32 false false false 0x80000000 0x7FC01234 = ⟨0x80000000, .none, none⟩ ∧
  fpMinMax fp32 false false true 0x80000000 0x7F800001 = ⟨0x7FC00000, .invalid, none⟩ ∧
  fpGetExp false 1 = ⟨0xFFFFFF6B, .none, none⟩ ∧ fpGetMan false 1 = ⟨0x3F800000, .none, none⟩ ∧
  fpGetExp true 1 = ⟨0x80000000, .none, none⟩ ∧ fpGetMan true 1 = ⟨0, .none, none⟩ ∧
  fpDot2 bf16 near 0x40003FC0 0xBF004080 0x3F800000 = ⟨0x40C00000, .none, none⟩ ∧
  (∀ row ∈ [(Exact.rcp, 0x40400000, 0x3EAAAAAB), (Exact.sqrt, 0x40000000, 0x3FB504F3), (Exact.rsq, 0x40400000, 0x3F13CD3A),
      (Exact.exp2, 0x3F000000, 0x3FB504F3), (Exact.log2, 0x41200000, 0x40549A78), (Exact.sinpi, 0x3DCCCCCD, 0x3E9E377A),
      (Exact.cospi, 0x3DCCCCCD, 0x3F737871), (Exact.exp2, 0x3DCCCCCD, 0x3F892FDF), (Exact.log2, 0x3DCCCCCD, 0xC0549A78),
      (Exact.rsq, 0x3DCCCCCD, 0x404A62C2)],
    fpUn fp32 near row.1 row.2.1 = ⟨row.2.2, ⟨false, false, false, false, true⟩, none⟩)

/-- R163: one bit for each class of an FP32 pattern. -/
def ClassesOfPatterns : Prop :=
  ∀ b : Nat, b < 2 ^ 32 →
    let ex := b / 2 ^ 23 % 256
    let fr := b % 2 ^ 23
    let neg := 2 ^ 31 ≤ b
    fpClass b = 2 ^ (if ex = 255 then (if fr = 0 then (if neg then 0 else 7) else if fr < 2 ^ 22 then 8 else 9)
      else if ex = 0 then (if fr = 0 then (if neg then 3 else 4) else if neg then 2 else 5) else if neg then 1 else 6)

/-! ### What an issue may change -/

/-- A thread without its place, its registers and its pending hints: predicates, flags, special registers, counters. -/
def Thread.control (t : Thread) : Thread :=
  { t with place := .exited, spilled := false, bank := [], win := [], dead := [], hints := Hints.none, saved := none
           resume := false, suppress := false }

/-- A workgroup without its threads: commons, address registers, `%tvec`, quota and everything else. -/
def Wg.control (w : Wg) : Wg := { w with threads := [], issuing := false }

/-- A tenant without the values of its event counters (R353). -/
def Tenant.quiet (t : Tenant) : Tenant := { t with ctrs := [] }

/-- The device without its workgroups, runs, eyelet entries, tenants, run-port charges and the model's own counter of free
values: memory, engines, tables, configuration, everything else. -/
def State.elsewhere (s : State) : State :=
  { s with wgs := [], runs := [], entries := [], tenants := [], deficit := [], freeCtr := 0 }

/-- Beside the threads, an issue moves its own run (R48), may move threads into the eyelet table (R38), counts events
(R353) and charges the tenant for the run port (R310): nothing else of the device, no byte of memory, no other run or
workgroup changes. -/
structure Beside (s u : State) (r : Run) (w : Wg) : Prop where
  elsewhere : u.elsewhere = s.elsewhere
  tenants : u.tenants.map Tenant.quiet = s.tenants.map Tenant.quiet
  runs : ∀ q : Run, q.core ≠ r.core ∨ q.port ≠ r.port → (q ∈ u.runs ↔ q ∈ s.runs)
  others : ∀ uid, uid ≠ w.uid → u.wg? uid = s.wg? uid

/-- Register `n` of a thread is neither dead nor about to be (R76): reading it is defined. -/
def Thread.holds (t : Thread) (n : Nat) : Prop := (∀ p ∈ t.dead, p.1 ≠ n) ∧ n ∉ deadNames t.hints

/-- What a thread became: the registers written, no register newly dead but those a pending
`HINT.DEAD` names (R76), every other register as before, the rest of the thread as `base` has it, no hint pending (R71). -/
structure Became (s u : State) (t t' : Thread) (written : List (Nat × Reg)) (base : Thread) : Prop where
  tid : t'.tid = t.tid
  control : t'.control = base.control
  wrote : ∀ p ∈ written, p.1 ∉ deadNames t.hints → t'.reg u p.1 = p.2
  dead : ∀ p ∈ t'.dead, p.1 ∈ deadNames t.hints ∨ ((∀ q ∈ written, q.1 ≠ p.1) ∧ ∃ q ∈ t.dead, q.1 = p.1)
  kept : ∀ n, (∀ p ∈ written, p.1 ≠ n) → t.holds n → t'.reg u n = t.reg s n
  hints : t.resume = false → t'.hints = Hints.none

/-- A thread outside the group keeps its registers and everything but its place; its hints end with its block (R71). -/
structure Stayed (s u : State) (t t' : Thread) : Prop where
  tid : t'.tid = t.tid
  control : t'.control = t.control
  kept : ∀ n, (∀ p ∈ t.dead, p.1 ≠ n) → t'.reg u n = t.reg s n
  dead : ∀ p ∈ t'.dead, ∃ q ∈ t.dead, q.1 = p.1
  hints : t'.hints = t.hints ∨ t'.hints = Hints.none ∨ t.resume = true

/-- What became of the workgroup that issued: its own registers as before, and of its threads those of the group whose
guard holds executed the instruction; those whose guard does not hold did nothing (R12). -/
def GroupBecame (s u : State) (r : Run) (w : Wg) (written : Thread → List (Nat × Reg)) (base : Thread → Thread) : Prop :=
  ∃ w', u.wg? w.uid = some w' ∧ w'.control = w.control ∧
    ∀ tid t, w.thread? tid = some t → ∃ t', w'.thread? tid = some t' ∧
      if t ∈ r.group w then
        if t.guard.val = true then Became s u t t' (written t) (base t) else Became s u t t' [] t
      else Stayed s u t t'

/-- What became of the workgroup that issued where each thread that executes `did` something; the others as in `GroupBecame`. -/
def GroupDid (s u : State) (r : Run) (w : Wg) (did : Thread → Thread → Prop) : Prop :=
  ∃ w', u.wg? w.uid = some w' ∧ w'.control = w.control ∧
    ∀ tid t, w.thread? tid = some t → ∃ t', w'.thread? tid = some t' ∧
      if t ∈ r.group w then
        if t.guard.val = true then did t t' else Became s u t t' [] t
      else Stayed s u t t'

/-- A thread that leaves its handler for the word that faulted (R79, R342): the hints saved for it stay with it till its run ends, and
are then pending again; everything else is as it was. -/
structure Returned (s u : State) (t t' : Thread) : Prop where
  tid : t'.tid = t.tid
  control : t'.control = { t with inTrap := false }.control
  kept : ∀ n, t.holds n → t'.reg u n = t.reg s n
  dead : ∀ p ∈ t'.dead, p.1 ∈ deadNames t.hints ∨ ∃ q ∈ t.dead, q.1 = p.1
  hints : (t'.resume = true ∧ t'.saved = t.saved ∧ t'.hints = Hints.none) ∨
    (t'.resume = false ∧ t'.saved = none ∧ t'.hints = t.saved.getD Hints.none)

/-- What became of the workgroup for which a uniform instruction issued: its own registers as `after` has them; every thread
of the run has the instruction's hints behind it and nothing else changed (R52, R78). -/
def RunBecame (s u : State) (r : Run) (w after : Wg) : Prop :=
  ∃ w', u.wg? w.uid = some w' ∧ w'.control = after.control ∧
    ∀ tid t, w.thread? tid = some t → ∃ t', w'.thread? tid = some t' ∧
      if t ∈ r.everyone w then Became s u t t' [] t else Stayed s u t t'

/-- R48, R52: the run of the port moves on from where it stands in `s`: after a thread instruction to the next group that holds a thread,
after the last of them, and after a uniform one (`whole`), to the next instruction for the first group; behind the last instruction the
block ends, and every thread still in it waits, ready, at the word after the block. -/
def MovesOn (s u : State) (r : Run) (whole : Bool) : Prop :=
  ∀ q, (s.runs.find? fun q => decide (q.core = r.core) && decide (q.port = r.port)) = some q →
    let only := fun n : Run => n ∈ u.runs ∧ ∀ p ∈ u.runs, p.core = r.core → p.port = r.port → p = n
    match (if whole then none else q.nextGroup (q.grp + 1)), (if q.idx + 1 < q.words.length then q.nextGroup 0 else none) with
    | some g, _ => only { q with grp := g, stall := none }
    | none, some g => only { q with idx := q.idx + 1, grp := g, stall := none }
    | none, none => (∀ p ∈ u.runs, p.core ≠ r.core ∨ p.port ≠ r.port) ∧
      ∀ tid ∈ q.groups.flatten, ∀ t, u.thread? q.wg tid = some t → t.place = .waiting (q.key + q.words.length) .ready

/-- A uniform instruction completes for every group of the run at once, whenever it `can`: the workgroup's common and address
registers are as in `after`, nothing else changes, and the run moves on. -/
def CompletesUniform (i : Instr) (can : State → Run → Wg → Prop) (after : State → Run → Wg → Wg) : Prop :=
  ∀ s r w, SmoothAll s r w → can s r w →
    ∃ u, exec i s = .next u ∧ Beside s u r w ∧ RunBecame s u r w (after s r w) ∧ MovesOn s u r true

/-- A common register written; `Wg.creg` reads it (R173). -/
def withCommon (w : Wg) (n : Nat) (x : Reg) : Wg := { w with commons := w.commons.set n x }

/-- An address register: a0 reads as zero and discards what is written to it (R70). -/
def addressOf (w : Wg) (n : BitVec 4) : AddrReg := if n = 0#4 then ⟨0, none⟩ else w.addrs.getD n.toNat ⟨0, none⟩

def withAddr (w : Wg) (n : BitVec 4) (x : AddrReg) : Wg := if n = 0#4 then w else { w with addrs := w.addrs.set n.toNat x }

/-- A uniform result of two operands in common register `d` (R189). -/
def UniformTwo (i : Instr) (d : BitVec 6) (a b : BitVec 8) (f : Word → Word → Word) : Prop :=
  CompletesUniform i (fun _ r w => d.toNat < w.commons.length ∧ canReadUniform w r a ∧ canReadUniform w r b)
    fun _ r w => withCommon w d.toNat
      ⟨f (uniformOperand w r a).val (uniformOperand w r b).val, (uniformOperand w r a).poison.join (uniformOperand w r b).poison⟩

/-- An instruction completes for the group that issues, whenever every thread that executes it `can`: each such thread
then holds the registers `written` and is otherwise `base`, nothing beside the group changes, and the run moves on. -/
def Completes (i : Instr) (can : State → Run → Wg → Thread → Prop) (written : State → Run → Wg → Thread → List (Nat × Reg))
    (base : State → Run → Wg → Thread → Thread) : Prop :=
  ∀ s r w, Smooth s r w → (∀ t ∈ r.group w, t.guard.val = true → can s r w t) →
    ∃ u, exec i s = .next u ∧ Beside s u r w ∧ GroupBecame s u r w (written s r w) (base s r w) ∧ MovesOn s u r false

/-- An instruction that writes thread register `d` from sources `srcs` and changes nothing else (R113). -/
def WritesWord (i : Instr) (d : BitVec 7) (srcs : List (BitVec 8)) (value : State → Wg → Thread → Reg) : Prop :=
  Completes i (fun _ _ w t => canName w t d.toNat 1 ∧ ∀ f ∈ srcs, canRead w t f 1)
    (fun s _ w t => [(d.toNat, value s w t)]) (fun _ _ _ t => t)

/-- A result of one operand: its poison is the operand's (R374). The value bits of a poisoned result are those of the operation, which is
the model's choice (log 69). -/
def FromOne (i : Instr) (d : BitVec 7) (a : BitVec 8) (f : Word → Word) : Prop :=
  WritesWord i d [a] fun s w t => ⟨f (operand s w t a).val, (operand s w t a).poison⟩

/-- A result of two operands; the value bits of a poisoned one are the model's choice (log 69). -/
def FromTwo (i : Instr) (d : BitVec 7) (a b : BitVec 8) (f : Word → Word → Word) : Prop :=
  WritesWord i d [a, b] fun s w t =>
    ⟨f (operand s w t a).val (operand s w t b).val, (operand s w t a).poison.join (operand s w t b).poison⟩

/-- A result of two operands and the old value of the destination, which comes first. -/
def FromThree (i : Instr) (d : BitVec 7) (a b : BitVec 8) (f : Word → Word → Word → Word) : Prop :=
  WritesWord i d [a, b] fun s w t =>
    ⟨f (t.reg s d.toNat).val (operand s w t a).val (operand s w t b).val,
      ((t.reg s d.toNat).poison.join (operand s w t a).poison).join (operand s w t b).poison⟩

/-- A claim about a floating-point instruction: its destination of `cnt` registers, its sources, the poison of its operands, and what
it computes. -/
abbrev FloatClaim := Instr → BitVec 7 → Nat → List (BitVec 8) → (State → Wg → Thread → Poison) → (State → Wg → Thread → FpOut) → Prop

/-- A floating-point result (R142, R143): a poisoned operand poisons the destination and raises nothing (R374), and the value bits are then
the model's choice (log 69); else the flags accrue. It completes where no flag it raises is enabled. -/
def WritesFloat (i : Instr) (d : BitVec 7) (cnt : Nat) (srcs : List (BitVec 8)) (poison : State → Wg → Thread → Poison)
    (out : State → Wg → Thread → FpOut) : Prop :=
  Completes i (fun s _ w t => canName w t d.toNat cnt ∧ (∀ f ∈ srcs, canRead w t f cnt) ∧
      (poison s w t = none → (out s w t).flags.bits &&& t.fen = 0#5))
    (fun s _ w t => (List.range cnt).map fun k =>
      (d.toNat + k, ⟨BitVec.ofNat 32 ((out s w t).bits / 2 ^ (32 * k)), poison s w t⟩))
    (fun s _ w t => if poison s w t = none then { t with fflags := t.fflags ||| (out s w t).flags.bits } else t)

/-- FP32 results of one operand, of two, and of two with the destination as addend. -/
def FloatOne (C : FloatClaim) (i : Instr) (d : BitVec 7) (a : BitVec 8) (hinted : Bool) (f : FpEnv → Nat → FpOut) : Prop :=
  C i d 1 [a] (fun s w t => (operand s w t a).poison)
    (fun s w t => f (t.fpEnv hinted) (operand s w t a).val.toNat)

def FloatTwo (C : FloatClaim) (i : Instr) (d : BitVec 7) (a b : BitVec 8) (hinted : Bool) (f : FpEnv → Nat → Nat → FpOut) : Prop :=
  C i d 1 [a, b] (fun s w t => (operand s w t a).poison.join (operand s w t b).poison)
    (fun s w t => f (t.fpEnv hinted) (operand s w t a).val.toNat (operand s w t b).val.toNat)

def FloatThree (C : FloatClaim) (i : Instr) (d : BitVec 7) (a b : BitVec 8) (f : FpEnv → Nat → Nat → Nat → FpOut) : Prop :=
  C i d 1 [a, b]
    (fun s w t => ((operand s w t a).poison.join (operand s w t b).poison).join (t.reg s d.toNat).poison)
    (fun s w t => f (t.fpEnv true) (operand s w t a).val.toNat (operand s w t b).val.toNat (t.reg s d.toNat).val.toNat)

/-- Packed results: `f` of the settings and the halves of the operands, `addend` whether the destination is read. -/
def PackedTwo (C : FloatClaim) (i : Instr) (d : BitVec 7) (a b : BitVec 8) (fmt : Fmt) (hinted : Bool) (f : FpEnv → Nat → Nat → FpOut) : Prop :=
  C i d 1 [a, b] (fun s w t => (operandPacked s w t fmt a).poison.join (operandPacked s w t fmt b).poison)
    (fun s w t =>
      let x := (operandPacked s w t fmt a).val.toNat
      let y := (operandPacked s w t fmt b).val.toNat
      let lo := f (t.fpEnv hinted) (x % 65536) (y % 65536)
      let hi := f (t.fpEnv hinted) (x / 65536 % 65536) (y / 65536 % 65536)
      ⟨hi.bits * 65536 + lo.bits, lo.flags.union hi.flags, none⟩)

def PackedThree (C : FloatClaim) (i : Instr) (d : BitVec 7) (a b : BitVec 8) (fmt : Fmt) (f : FpEnv → Nat → Nat → Nat → FpOut) : Prop :=
  C i d 1 [a, b]
    (fun s w t => ((operandPacked s w t fmt a).poison.join (operandPacked s w t fmt b).poison).join (t.reg s d.toNat).poison)
    (fun s w t => f (t.fpEnv true) (operandPacked s w t fmt a).val.toNat (operandPacked s w t fmt b).val.toNat
      (t.reg s d.toNat).val.toNat)

/-- FP64 results, in the pair of registers 2d and 2d + 1. -/
def DoubleTwo (C : FloatClaim) (i : Instr) (d : BitVec 6) (a b : BitVec 8) (hinted : Bool) (f : FpEnv → Nat → Nat → FpOut) : Prop :=
  C i (d ++ 0#1) 2 [a, b] (fun s w t => (operandDouble s w t a).2.join (operandDouble s w t b).2)
    (fun s w t => f (t.fpEnv hinted) (operandDouble s w t a).1.toNat (operandDouble s w t b).1.toNat)

/-- R156, R157, R159, R161, R162, R164: the FP32 instructions of two operands and of one. -/
def FloatForms (C : FloatClaim) : Prop :=
  (∀ d a b,
    FloatTwo C (.fadd d a b) d a b true (fpAdd fp32) ∧
    FloatTwo C (.fsub d a b) d a b true (fpSub fp32) ∧
    FloatTwo C (.fmul d a b) d a b true (fpMul fp32) ∧
    FloatTwo C (.fdiv d a b) d a b true (fpDiv fp32) ∧
    FloatTwo C (.fscale d a b) d a b true (fun e x n => fpScale e x (BitVec.ofNat 32 n).toInt) ∧
    FloatTwo C (.fmin d a b) d a b false (fun e => fpMinMax fp32 e.ftz false false) ∧
    FloatTwo C (.fmax d a b) d a b false (fun e => fpMinMax fp32 e.ftz true false) ∧
    FloatTwo C (.fminm d a b) d a b false (fun e => fpMinMax fp32 e.ftz false true) ∧
    FloatTwo C (.fmaxm d a b) d a b false (fun e => fpMinMax fp32 e.ftz true true)) ∧
  (∀ d a,
    FloatOne C (.frcp d a) d a true (fun e => fpUn fp32 e Exact.rcp) ∧
    FloatOne C (.fsqrt d a) d a true (fun e => fpUn fp32 e Exact.sqrt) ∧
    FloatOne C (.frsq d a) d a true (fun e => fpUn fp32 e Exact.rsq) ∧
    FloatOne C (.fexp2 d a) d a true (fun e => fpUn fp32 e Exact.exp2) ∧
    FloatOne C (.flog2 d a) d a true (fun e => fpUn fp32 e Exact.log2) ∧
    FloatOne C (.fsinpi d a) d a true (fun e => fpUn fp32 e Exact.sinpi) ∧
    FloatOne C (.fcospi d a) d a true (fun e => fpUn fp32 e Exact.cospi) ∧
    FloatOne C (.frint d a) d a true (fun e => fpUn fp32 e (Exact.rint e.mode)) ∧
    FloatOne C (.fgetexp d a) d a false (fun e => fpGetExp e.ftz) ∧
    FloatOne C (.fgetman d a) d a false (fun e => fpGetMan e.ftz))

/-- R158, R165, R166: the fused forms and the packed dot product, which read the destination; each half of a packed pair is an operation of
its own. -/
def PackedForms (C : FloatClaim) : Prop :=
  (∀ d a b,
    FloatThree C (.fmac d a b) d a b (fun e x y c => fpFma fp32 e false false x y c) ∧
    FloatThree C (.fmsc d a b) d a b (fun e x y c => fpFma fp32 e false true x y c) ∧
    FloatThree C (.fnmac d a b) d a b (fun e x y c => fpFma fp32 e true false x y c) ∧
    FloatThree C (.fnmsc d a b) d a b (fun e x y c => fpFma fp32 e true true x y c) ∧
    PackedThree C (.hdot2F16 d a b) d a b fp16 (fun e x y c => fpDot2 fp16 e x y c) ∧
    PackedThree C (.hdot2Bf16 d a b) d a b bf16 (fun e x y c => fpDot2 bf16 e x y c) ∧
    ∀ t : BitVec 1, PackedThree C (.hmac2 d a b t) d a b (if t = 0#1 then fp16 else bf16) (fun e x y c =>
      let f := fun x y c => fpFma (if t = 0#1 then fp16 else bf16) e false false x y c
      let lo := f (x % 65536) (y % 65536) (c % 65536)
      let hi := f (x / 65536 % 65536) (y / 65536 % 65536) (c / 65536 % 65536)
      ⟨hi.bits * 65536 + lo.bits, lo.flags.union hi.flags, none⟩)) ∧
  (∀ d a b,
    (∀ t : BitVec 1,
      PackedTwo C (.hadd2 d a b t) d a b (if t = 0#1 then fp16 else bf16) true (fpAdd (if t = 0#1 then fp16 else bf16)) ∧
      PackedTwo C (.hmul2 d a b t) d a b (if t = 0#1 then fp16 else bf16) true (fpMul (if t = 0#1 then fp16 else bf16)) ∧
      PackedTwo C (.hmax2 d a b t) d a b (if t = 0#1 then fp16 else bf16) false
        (fun e => fpMinMax (if t = 0#1 then fp16 else bf16) e.ftz true false)) ∧
    PackedTwo C (.hmin2F16 d a b) d a b fp16 false (fun e => fpMinMax fp16 e.ftz false false) ∧
    PackedTwo C (.hmin2Bf16 d a b) d a b bf16 false (fun e => fpMinMax bf16 e.ftz false false) ∧
    PackedTwo C (.hsub2F16 d a b) d a b fp16 true (fpSub fp16) ∧
    PackedTwo C (.hsub2Bf16 d a b) d a b bf16 true (fpSub bf16))

/-- R167: FP64 in register pairs. -/
def DoubleForms (C : FloatClaim) : Prop :=
  ∀ d a b,
    DoubleTwo C (.dadd d a b) d a b true (fpAdd fp64) ∧
    DoubleTwo C (.dsub d a b) d a b true (fpSub fp64) ∧
    DoubleTwo C (.dmul d a b) d a b true (fpMul fp64) ∧
    DoubleTwo C (.ddiv d a b) d a b true (fpDiv fp64) ∧
    DoubleTwo C (.dmin d a b) d a b false (fun _ => fpMinMax fp64 false false false) ∧
    DoubleTwo C (.dmax d a b) d a b false (fun _ => fpMinMax fp64 false true false) ∧
    C (.dfmac d a b) (d ++ 0#1) 2 [a, b]
      (fun s w t => ((operandDouble s w t a).2.join (operandDouble s w t b).2).join (pairValue s t (2 * d.toNat)).2)
      (fun s w t => fpFma fp64 (t.fpEnv true) false false (operandDouble s w t a).1.toNat (operandDouble s w t b).1.toNat
        (pairValue s t (2 * d.toNat)).1.toNat) ∧
    C (.dsqrt d a) (d ++ 0#1) 2 [a] (fun s w t => (operandDouble s w t a).2)
      (fun s w t => fpUn fp64 (t.fpEnv true) Exact.sqrt (operandDouble s w t a).1.toNat)

/-- The two operands of a floating-point comparison, their poison, and what it finds (R168). -/
def comparePoison (s : State) (w : Wg) (t : Thread) (a b : BitVec 8) (wide : BitVec 1) : Poison :=
  let poison := fun f => if wide = 0#1 then (operand s w t f).poison else (operandDouble s w t f).2
  (poison a).join (poison b)

def compareResult (s : State) (w : Wg) (t : Thread) (c : BitVec 4) (a b : BitVec 8) (wide : BitVec 1) : Bool × Flags :=
  let value := fun f => if wide = 0#1 then (operand s w t f).val.toNat else (operandDouble s w t f).1.toNat
  fpCompare (if wide = 0#1 then fp32 else fp64) (t.mode.getLsbD 2) c.toNat (value a) (value b)

/-- The source of a conversion as it reads it (R68, R169). -/
def convertSource (s : State) (w : Wg) (t : Thread) (a code : BitVec 8) : Nat × Poison :=
  if cvtSrcRegs code.toNat = 2 then ((operandDouble s w t a).1.toNat, (operandDouble s w t a).2)
  else if code = 0x06#8 ∨ code = 0x07#8 then ((operandPacked s w t fp16 a).val.toNat, (operandPacked s w t fp16 a).poison)
  else if code = 0x09#8 ∨ code = 0x0A#8 then ((operandPacked s w t bf16 a).val.toNat, (operandPacked s w t bf16 a).poison)
  else ((operand s w t a).val.toNat, (operand s w t a).poison)

/-- The poison of a conversion's sources: the byte forms read the destination too. -/
def convertPoison (s : State) (w : Wg) (t : Thread) (d : BitVec 7) (a code : BitVec 8) : Poison :=
  (convertSource s w t a code).2.join (if 0x28 ≤ code.toNat then (t.reg s d.toNat).poison else none)

/-- What a conversion gives: its own rounding, and saturation where it may be inexact (R139, R169). That the saturation field of an exact
conversion does nothing is read from R169 (log 70). -/
def convertResult (s : State) (w : Wg) (t : Thread) (d : BitVec 7) (a code : BitVec 8) (sat : BitVec 1) (rnd : BitVec 2) : FpOut :=
  let exact := [0x06#8, 0x07#8, 0x09#8, 0x0A#8, 0x0B#8, 0x0D#8].contains code ∨ 0x20 ≤ code.toNat ∧ code.toNat ≤ 0x27
  cvtResult code.toNat ⟨Rnd.ofBits rnd.toNat, (t.fpEnv true).ftz, (t.fpEnv true).sat || decide (¬ exact ∧ sat = 1#1)⟩
    (convertSource s w t a code).1 (t.reg s d.toNat).val.toNat

/-- A predicate as a read gives it: p0 is true (R85). -/
def predicate (t : Thread) (n : BitVec 3) : Pred := if n = 0#3 then ⟨true, none⟩ else t.preds.getD n.toNat ⟨false, none⟩

/-- A thread with predicate `n` written: a write to p0 is discarded (R70). -/
def withPredicate (t : Thread) (n : BitVec 3) (p : Pred) : Thread :=
  if n = 0#3 then t else { t with preds := t.preds.set n.toNat p }

/-- An instruction that writes predicate `p` from sources `srcs` of `cnt` registers and changes nothing else. -/
def WritesPredicate (i : Instr) (p : BitVec 3) (srcs : List (BitVec 8)) (value : State → Wg → Thread → Pred) : Prop :=
  Completes i (fun _ _ w t => ∀ f ∈ srcs, canRead w t f 1) (fun _ _ _ _ => [])
    (fun s _ w t => withPredicate t p (value s w t))

/-- The value of a special register (R126). -/
def special (s : State) (r : Run) (w : Wg) (t : Thread) (id : Nat) : Word :=
  let launch := s.launch? w.launch
  let clock := (if w.core < 384 then s.die0 else s.die1).cycles
  if id = 0x000 then BitVec.ofNat 32 t.tid
  else if id = 0x001 then BitVec.ofNat 32 (t.tid % 32)
  else if id = 0x002 then BitVec.ofNat 32 w.num
  else if id = 0x003 then BitVec.ofNat 32 w.rank
  else if id = 0x004 then BitVec.ofNat 32 ((s.gang? w.gang).elim 0 fun g => g.num)
  else if id = 0x005 then BitVec.ofNat 32 w.nthr
  else if id = 0x006 then BitVec.ofNat 32 (launch.elim 0 fun l => l.nwg)
  else if id = 0x007 then BitVec.ofNat 32 w.core
  else if id = 0x008 then BitVec.ofNat 32 (w.core / 4)
  else if id = 0x009 then BitVec.ofNat 32 (w.core / 384)
  else if id = 0x00A then Config.devNumber.setWidth 32
  else if id = 0x00B then BitVec.ofNat 32 (launch.elim 0 fun l => l.world)
  else if id = 0x00C then (s.tagOf w).setWidth 32
  else if id = 0x00D then BitVec.ofNat 32 (4 * w.quota * t.tid)
  else if id = 0x00E then BitVec.ofNat 32 clock
  else if id = 0x00F then t.clkh
  else if id = 0x010 then BitVec.ofNat 32 (4 * r.pc)
  else if id = 0x011 then t.fpc
  else if id = 0x012 then t.fcause
  else if id = 0x013 then t.finfo
  else if id = 0x014 then t.fmask
  else if id = 0x015 then t.fflags.setWidth 32
  else if id = 0x016 then t.fen.setWidth 32
  else if id = 0x017 then w.tvec
  else if id = 0x018 then t.mode.setWidth 32
  else BitVec.ofNat 32 w.launch

/-- Whether a workgroup's launch keeps no log (R356). -/
def State.unlogged (s : State) (w : Wg) : Prop := ∀ l, s.launch? w.launch = some l → l.record = false

/-- The place a thread goes to: where its run will send it when its block ends, else where it is. -/
def State.placeOf (s : State) (r : Run) (w : Wg) (tid : Nat) : Option Place :=
  match s.runs.find? fun q => decide (q.core = r.core) && decide (q.port = r.port) with
  | some q =>
    match q.parked.find? fun p => p.tid = tid with
    | some p => some p.place
    | none => (s.thread? w.uid tid).map fun t => t.place
  | none => (s.thread? w.uid tid).map fun t => t.place

/-! ### Taking a user fault (R88, R127, R339) -/

/-- Every thread of the workgroup has a number of its own (R29), and no other run holds or sends on a thread of the group. -/
structure Sole (s : State) (r : Run) (w : Wg) : Prop where
  distinct : (w.threads.map fun t => t.tid).Nodup
  apart : ∀ q ∈ s.runs, q.core ≠ r.core ∨ q.port ≠ r.port → q.wg = w.uid →
    ∀ t ∈ r.group w, (∀ g ∈ q.groups, t.tid ∉ g) ∧ ∀ p ∈ q.parked, p.tid ≠ t.tid

/-- The home lanes of some threads as a mask (R88). -/
def lanesOf (ts : List Thread) : Word := ts.foldl (fun m t => m ||| 1#32 <<< (t.tid % 32)) 0#32

/-- A thread that has entered its handler: it waits, ready, at the key in `%tvec`, with the fault in its registers, the
hints of the faulting word saved (R79), and everything else as in `base`. -/
structure Entered (s u : State) (w : Wg) (pc cause : Nat) (info lanes : Word) (t t' base : Thread) : Prop where
  tid : t'.tid = t.tid
  place : t'.place = .waiting (w.tvec.extractLsb' 2 24).toNat .ready
  control : t'.control = { base with
    fpc := BitVec.ofNat 32 (4 * pc), fcause := BitVec.ofNat 32 cause, finfo := info, fmask := lanes, faddr := t'.faddr
    inTrap := true }.control
  saved : t'.saved = some t.hints
  hints : t'.hints = Hints.none
  kept : ∀ n, (∀ p ∈ t.dead, p.1 ≠ n) → t'.reg u n = t.reg s n

/-- With `%tvec` enabled, an instruction raises a fault of class user for every thread that executes it and `can` fault, none
of which is in its handler: each enters it, and nothing else happens. -/
def EntersHandler (i : Instr) (can : State → Run → Wg → Thread → Prop) (cause : Nat) (info : State → Run → Wg → Thread → Word)
    (base : State → Run → Wg → Thread → Thread) : Prop :=
  ∀ s r w, Smooth s r w → Sole s r w → w.tvec.getLsbD 0 = true →
    (∀ t ∈ r.group w, t.guard.val = true → t.inTrap = false ∧ can s r w t) →
    ∃ u, exec i s = .next u ∧ Beside s u r w ∧ ∃ w', u.wg? w.uid = some w' ∧ w'.control = w.control ∧
      ∀ tid t, w.thread? tid = some t → ∃ t', w'.thread? tid = some t' ∧
        if t ∈ r.group w then
          if t.guard.val = true then
            Entered s u w r.pc cause (info s r w t) (lanesOf ((r.group w).filter fun t => t.guard.val)) t t' (base s r w t)
          else Became s u t t' [] t
        else Stayed s u t t'

/-- A floating-point instruction that raises an enabled flag takes the fault `FP` (R143): the destination is not written, the flags accrue,
and `%finfo` names the destination and every flag raised. -/
def TrapsFloat (i : Instr) (d : BitVec 7) (cnt : Nat) (srcs : List (BitVec 8)) (poison : State → Wg → Thread → Poison)
    (out : State → Wg → Thread → FpOut) : Prop :=
  EntersHandler i
    (fun s _ w t => canName w t d.toNat cnt ∧ (∀ f ∈ srcs, canRead w t f cnt) ∧ poison s w t = none ∧
      (out s w t).flags.bits &&& t.fen ≠ 0#5) 0x05
    (fun s _ w t => BitVec.ofNat 32 (d.toNat + (out s w t).flags.bits.toNat * 2 ^ 7))
    (fun s _ w t => { t with fflags := t.fflags ||| (out s w t).flags.bits })

/-- A thread of the group that is the only one of its number and not yet through the terminator, as every thread is that a
launch starts (R30, R48). -/
def Run.alone (r : Run) (w : Wg) (t : Thread) : Prop :=
  (∀ t' ∈ r.group w, t'.tid = t.tid → t' = t) ∧ ∀ p ∈ r.parked, p.tid ≠ t.tid

/-- A terminator of the block completes: each thread that executes it goes to its `place` when the block ends (R34, R48), one
whose guard is false goes on at the next word (R75); registers and the rest as in `Completes`. -/
def Goes (i : Instr) (can : State → Run → Wg → Thread → Prop) (place : State → Run → Wg → Thread → Place)
    (written : State → Run → Wg → Thread → List (Nat × Reg)) (base : State → Run → Wg → Thread → Thread) : Prop :=
  ∀ s r w, Smooth s r w → (∀ t ∈ r.group w, t.guard.val = true → can s r w t) →
    ∃ u, exec i s = .next u ∧ Beside s u r w ∧ GroupBecame s u r w (written s r w) (base s r w) ∧
      ∀ t ∈ r.group w, r.alone w t →
        u.placeOf r w t.tid = some (if t.guard.val = true then place s r w t else .waiting (r.pc + 1) .ready)

/-- Whether the outstanding operations of a thread meet the five thresholds of a `WAIT` (R183); `none` of the common
counters count outside a uniform block. -/
def meetsAll (c : Counters) (l s k m x : BitVec 5) : Prop :=
  c.loads ≤ l.toNat ∧ c.stores ≤ s.toNat ∧ c.copies ≤ k.toNat ∧ c.matrix ≤ m.toNat ∧ c.colls ≤ x.toNat

/-! ### Effects beyond the threads -/

/-- The state with every stalled run free to try again, as any event leaves it (R50). -/
def State.retried (s : State) : State := { s with runs := s.runs.map fun r => { r with stall := none } }

/-- The threads of the group that execute: those whose guard holds (R12). -/
def Run.acting (r : Run) (w : Wg) : List Thread := (r.group w).filter fun t => t.guard.val

/-- An instruction completes with effects beyond the threads, which lead from `s` to `beyond s r w` but for what any issue
changes; the run moves on from where it stands in that state. -/
def CompletesBeyond (i : Instr) (can : State → Run → Wg → Prop) (beyond : State → Run → Wg → State)
    (written : State → Run → Wg → Thread → List (Nat × Reg)) (base : State → Run → Wg → Thread → Thread) : Prop :=
  ∀ s r w, Smooth s r w → can s r w →
    ∃ u, exec i s = .next u ∧ Beside (beyond s r w) u r w ∧ GroupBecame s u r w (written s r w) (base s r w) ∧
      MovesOn (beyond s r w) u r false

/-- The same for a terminator of the block, with the place each thread goes to. -/
def GoesBeyond (i : Instr) (can : State → Run → Wg → Prop) (beyond : State → Run → Wg → State)
    (place : State → Run → Wg → Thread → Place) : Prop :=
  ∀ s r w, Smooth s r w → can s r w →
    ∃ u, exec i s = .next u ∧ Beside (beyond s r w) u r w ∧ GroupBecame s u r w (fun _ => []) (fun t => t) ∧
      ∀ t ∈ r.group w, r.alone w t →
        u.placeOf r w t.tid = some (if t.guard.val = true then place s r w t else .waiting (r.pc + 1) .ready)

/-! ### Reductions (R194, R195) -/

/-- A thread that holds no register at or above a quota (R102, R104). -/
def Thread.within (t : Thread) (q : Nat) : Prop :=
  t.bank.length ≤ q ∧ (∀ e ∈ t.win, e.reg + e.vals.length ≤ q) ∧ ∀ p ∈ t.dead, p.1 < q

/-- Two places of the tree: an empty one passes the other through. -/
def pairUp (combine : Word → Word → Word) : Option Reg → Option Reg → Option Reg
  | none, z => z
  | y, none => y
  | some y, some z => some ⟨combine y.val z.val, y.poison.join z.poison⟩

/-- The tree over 2^n places. -/
def treeOf (combine : Word → Word → Word) : Nat → (Nat → Option Reg) → Option Reg
  | 0, x => x 0
  | n + 1, x => treeOf combine n fun j => pairUp combine (x (2 * j)) (x (2 * j + 1))

/-- Combine, and the value with no participant, for each rop. -/
def reduction (rop : BitVec 4) : (Word → Word → Word) × Word :=
  let float := fun (f : Nat → Nat → FpOut) (y z : Word) => BitVec.ofNat 32 (f y.toNat z.toNat).bits
  if rop = 0#4 then (fun y z => y + z, 0#32)
  else if rop = 1#4 then (float (fpAdd fp32 ⟨.rne, false, false⟩), 0#32)
  else if rop = 2#4 then (fun y z => if y.toInt ≤ z.toInt then y else z, 0x7FFFFFFF#32)
  else if rop = 3#4 then (fun y z => if z.toInt ≤ y.toInt then y else z, 0x80000000#32)
  else if rop = 4#4 then (fun y z => if y.toNat ≤ z.toNat then y else z, 0xFFFFFFFF#32)
  else if rop = 5#4 then (fun y z => if z.toNat ≤ y.toNat then y else z, 0#32)
  else if rop = 6#4 then (fun y z => y &&& z, 0xFFFFFFFF#32)
  else if rop = 7#4 then (fun y z => y ||| z, 0#32)
  else if rop = 8#4 then (fun y z => y ^^^ z, 0#32)
  else if rop = 9#4 then (float (fpMinMax fp32 false false false), 0x7FC00000#32)
  else if rop = 10#4 then (float (fpMinMax fp32 false true false), 0x7FC00000#32)
  else (fun y z => y + z, 0#32)

/-- A NaN as the result of a floating-point reduction: the canonical one (R135, R195). -/
def canonical (rop : BitVec 4) (x : Reg) : Reg :=
  if (rop = 1#4 ∨ rop = 9#4 ∨ rop = 10#4) ∧ x.val.extractLsb' 23 8 = 0xFF#8 ∧ x.val.extractLsb' 0 23 ≠ 0#23 then ⟨0x7FC00000#32, x.poison⟩
  else x

/-! ### Accesses to memory (R77, R215-R226) -/

/-- The byte address of a memory form (R77): the base, the index scaled by the element size `e`, the offset, the pending
displacement. -/
def operandAddress (s : State) (w : Wg) (t : Thread) (x : BitVec 8) (a : BitVec 4) (e k : Nat) : AddrReg :=
  ⟨(addressOf w a).val + BitVec.ofNat 64 ((operand s w t x).val.toNat * e) + BitVec.ofNat 64 (k * e) +
      (t.hints.disp.getD 0#22).signExtend 64,
    (operand s w t x).poison.join (addressOf w a).poison⟩

/-- The location an access of a workgroup reaches (R203); without one any will do. -/
def locationOf (s : State) (w : Wg) (k : AccKind) (special : Bool) (va : DWord) (size : Nat) : Loc :=
  match s.translate w k special va size with
  | .ok l => l
  | .error _ => .mem 0

/-- A memory operand passes the checks of R215: its address is clean, aligned and translated, and no watchpoint fires (R344). -/
structure Reaches (s : State) (w : Wg) (t : Thread) (k : AccKind) (special rd wr : Bool) (ea : AddrReg) (size : Nat) : Prop where
  clean : ea.poison = none
  aligned : ea.val.toNat % size = 0
  mapped : s.translate w k special ea.val size = .ok (locationOf s w k special ea.val size)
  unwatched : t.suppress = true ∨ s.watchHit w (locationOf s w k special ea.val size) size rd wr = none

/-- Consecutive registers of a thread as one little-endian number, and their poison. -/
def registersValue (s : State) (t : Thread) (n cnt : Nat) : Nat :=
  ((List.range cnt).map fun i => (t.reg s (n + i)).val.toNat * 2 ^ (32 * i)).sum

def registersPoison (s : State) (t : Thread) (n cnt : Nat) : Poison :=
  ((List.range cnt).map fun i => (t.reg s (n + i)).poison).foldr Poison.join none

/-- The state with accesses put in flight, in the order of the threads that issued them. -/
def State.withFlights (s : State) (fs : List Flight) : State := { s with flights := s.flights ++ fs, nextId := s.nextId + fs.length }

/-- No two threads of a workgroup have the same number (R29). -/
def Wg.numbered (w : Wg) : Prop := (w.threads.map fun t => t.tid).Nodup

/-- The number that the access of a thread gets. -/
def flightNumber (s : State) (r : Run) (w : Wg) (t : Thread) : Nat := s.nextId + (r.acting w).findIdx fun v => v.tid = t.tid

/-- A memory instruction of thread registers `d` on puts one access of each thread that executes it in flight (R216-R218, R222):
`flight` gives it, its number last; nothing else happens but to the threads themselves. -/
def IssuesAccess (i : Instr) (d cnt : Nat) (x : BitVec 8) (refused : BitVec 8) (can : State → Wg → Thread → Prop)
    (flight : State → Run → Wg → Thread → Nat → Flight) (base : State → Wg → Thread → Nat → Thread) : Prop :=
  CompletesBeyond i
    (fun s r w => w.numbered ∧ ∀ t ∈ r.acting w, canName w t d cnt ∧ canRead w t x 1 ∧ t.memHint &&& refused = 0#8 ∧ can s w t)
    (fun s r w => s.withFlights ((r.acting w).map fun t => flight s r w t (flightNumber s r w t)))
    (fun _ _ _ _ => []) (fun s r w t => base s w t (flightNumber s r w t))

/-! ### Events -/

/-- An event takes place and leaves `t`, in which every stalled run may try again (R50). -/
def Happens (e : Instr) (s t : State) : Prop := exec e s = .next t.retried

/-- A workgroup is the only one of its number. -/
def State.only (s : State) (w : Wg) : Prop := (s.wgs.filter fun v => v.uid = w.uid) = [w]

/-- A workgroup and a thread of it are the only ones of their numbers. -/
def State.sole (s : State) (w : Wg) (t : Thread) : Prop := s.only w ∧ (w.threads.filter fun v => v.tid = t.tid) = [t]

/-- An access of a thread in flight is next (R89, R222, R223, R226, R309): no access is done and not yet counted, it is the oldest of its
class of its thread, nothing before it holds it back, the calendars' slots serve it, and no thread of its workgroup waits in `WAIT`. -/
structure Flight.isNext (s : State) (f : Flight) (w : Wg) (t : Thread) : Prop where
  sole : s.sole w t
  wg : f.wg = w.uid
  tid : f.tid = some t.tid
  single : (s.flights.filter fun g => g.id = f.id) = [f]
  oldest : (s.flights.find? fun g => decide (g.wg = f.wg) && decide (g.tid = f.tid) && decide (g.cls.isLoad = f.cls.isLoad)) = some f
  undone : ∀ g ∈ s.flights, g.done = false
  may : s.mayPerform f = true
  served : s.flightServed w f = true
  unwaited : ∀ x ∈ w.threads, ∀ k on, x.place = .waiting k on → on.code ≠ 1

/-- What is left when an access has been performed in `s`: it is no longer in flight, its thread has its counter lowered and,
after an acquire, goes on with an L1 that keeps what its core owns (R225). -/
def State.performed (s : State) (f : Flight) (w : Wg) (t : Thread) (upd : Thread → Thread) : State :=
  let gone : State := { s with flights := s.flights.filter fun g => g.id ≠ f.id }
  ((if f.acquire then gone.dropUnowned w.core else gone).onThread w.uid t.tid fun x =>
    { upd x with cnt := x.cnt.add f.cls (-1), block := if x.block = .acquire f.id then .none else x.block }).advanceFree

/-- No access of a workgroup is in flight and not performed. -/
def State.noneInFlight (s : State) (w : Wg) : Prop := ∀ f ∈ s.flights, f.wg = w.uid → f.done = true

/-- The line of the address of a cache form (R219): none where it would miss, fail a check or fall in a window. -/
def lineOf (s : State) (w : Wg) (t : Thread) (x : BitVec 8) (a k : BitVec 4) : Option Nat :=
  let ea := operandAddress s w t x a 8 k.toNat
  if ea.poison ≠ none ∨ 2 ^ 56 ≤ ea.val.toNat then none
  else match s.translate w .r false ea.val 1 with
    | .ok (.mem b) => some (b / 128 * 128)
    | _ => none

/-- The effects of the threads that execute, one after the other. -/
def Run.inTurn (r : Run) (w : Wg) (s : State) (f : State → Thread → State) : State := (r.acting w).foldl f s

/-- The state that a thread's effect finds: after those of the threads before it. -/
def Run.before (r : Run) (w : Wg) (s : State) (f : State → Thread → State) (t : Thread) : State :=
  ((r.acting w).takeWhile fun v => decide (v.tid ≠ t.tid)).foldl f s

/-- The acquire of a group that executes (R225): its core discards every word of its L1 that it does not own. -/
def State.acquired (s : State) (r : Run) (w : Wg) : State := if r.acting w = [] then s else s.dropUnowned w.core

/-- A uniform instruction with effects beyond the workgroup, which lead from `s` to `beyond s r w`. -/
def CompletesUniformBeyond (i : Instr) (can : State → Run → Wg → Prop) (beyond : State → Run → Wg → State)
    (after : State → Run → Wg → Wg) : Prop :=
  ∀ s r w, SmoothAll s r w → can s r w →
    ∃ u, exec i s = .next u ∧ Beside (beyond s r w) u r w ∧ RunBecame s u r w (after s r w) ∧ MovesOn (beyond s r w) u r true

/-- A transaction barrier record (R250). -/
structure TBarrier where
  pending : Nat
  expected : Nat
  phase : Bool
  bytes : Nat
deriving DecidableEq, Repr

/-- The record at an address. -/
def State.tbarrier (s : State) (a : Nat) : TBarrier :=
  let word := leNat (Memory.bytes s.mem a 4)
  ⟨word % 65536, word / 65536 % 32768, decide (word / 2 ^ 31 = 1), leNat (Memory.bytes s.mem (a + 4) 4)⟩

/-- The test after an arrival or a byte update (R251). -/
def TBarrier.tested (b : TBarrier) : TBarrier :=
  if b.pending = 0 ∧ b.bytes = 0 then { b with pending := b.expected, phase := !b.phase } else b

/-- A hint sets one kind of pending state of every thread of the group and changes nothing else; it is followed by another word of
its block (R46, R71), and the run moves on. -/
def SetsHint (i : Instr) (f : Hints → Hints) : Prop :=
  ∀ s r w, s.issuer = some (r, w) →
    (∀ t ∈ r.hinted w, t.block = .none ∧ t.owes = false ∧ (t.suppress = true ∨ s.comparatorAt r w.launch r.pc = none)) →
    r.hinted w ≠ [] → r.idx + 1 < r.words.length →
    ∃ u w', exec i s = .next u ∧ Beside s u r w ∧ MovesOn s u r r.hintsUniform ∧ u.wg? w.uid = some w' ∧ w'.control = w.control ∧
      ∀ tid t, w.thread? tid = some t → w'.thread? tid = some (if t ∈ r.hinted w then { t with hints := f t.hints } else t)

/-! ### Commands of threads and of the vamp -/

/-- The issue of an instruction: the state, workgroup and run it finds. -/
def issueOf (s : State) (r : Run) (w : Wg) (i : Instr) : Who := ⟨s, w, r, wordOf i, r.pc⟩

/-- A command that a thread (its register field below 0x80) or the vamp (from 0x80 on) hands to an engine (R253, R394): `plan` is what
its checks give, `hand` gives it to the engine, `more` are the counters after it, `room` says that they have room. -/
def HandsOver {α : Type} (i : Instr) (sc : BitVec 8) (a : BitVec 4) (size : Nat)
    (plan : State → Run → Wg → Option Thread → Except FaultInfo (State × α)) (can : State → Wg → Nat → Thread → Prop)
    (ucan : State → Wg → Prop) (room : Counters → Prop) (more : Counters → Counters) (hand : State → α → State) : Prop :=
  let reads := fun (s : State) (r : Run) (w : Wg) (u : State) => match (issueOf s r w i).readAt u (addressOf w a).val size with
    | .ok x => x.1
    | .error _ => u
  (sc.toNat < 0x80 → CompletesBeyond i
    (fun s r w => s.noneInFlight w ∧ ∀ t ∈ r.acting w, can s w (r.acting w).length t ∧ room t.cnt ∧ ∃ q, plan s r w (some t) = .ok q)
    (fun s r w => r.inTurn w s fun u t => match plan s r w (some t) with
      | .ok q => hand (reads s r w u) q.2
      | .error _ => u)
    (fun _ _ _ _ => []) (fun _ _ _ t => { t with cnt := more t.cnt })) ∧
  (0x80 ≤ sc.toNat → sc.toNat < 0xC0 → CompletesUniformBeyond i
    (fun s r w => s.noneInFlight w ∧ ucan s w ∧ room w.common ∧ ∃ q, plan s r w none = .ok q)
    (fun s r w => match plan s r w none with
      | .ok q => hand q.1 q.2
      | .error _ => s)
    (fun _ _ w => { w with common := more w.common }))

/-! ### Copies (R243-R255) -/

/-- What a copy's plain reads of the two records at an address register give: the state after, the source's and the destination's. -/
def recordsRead (s : State) (w : Wg) (a : BitVec 4) : State × List (Byte × Poison) × List (Byte × Poison) :=
  let va := (addressOf w a).val
  let x := s.readLoc w false (locationOf s w .r false va 128) 128
  let y := x.1.readLoc w false (locationOf s w .r false (va + 128) 128) 128
  (y.1, x.2, y.2)

/-- The state after those reads, made in another state at the places they have in `s`. -/
def recordsTouched (s : State) (w : Wg) (a : BitVec 4) (u : State) : State :=
  let go := fun (u : State) (va : DWord) => (u.readLoc w false (locationOf s w .r false va 128) 128).1
  go (go u (addressOf w a).val) ((addressOf w a).val + 128)

/-- The layout records a copy finds. -/
def sourceRecord (s : State) (w : Wg) (a : BitVec 4) : LRec := layoutOf ((recordsRead s w a).2.1.map fun b => b.1)
def destRecord (s : State) (w : Wg) (a : BitVec 4) : LRec := layoutOf ((recordsRead s w a).2.2.map fun b => b.1)

/-- Registers of a copy's form that follow its coordinates (R253). -/
def afterCoordinates (form : CopyForm) (dst : LRec) : Nat :=
  match form with
  | .g => 8
  | .s => 8
  | .mc => 1
  | .fill => if dst.fmt = 12 then 2 else 1
  | _ => 0

/-- Registers a copy reads (R254): none where the dims fail; the coordinates, in mode 1 both origins, then those of its form. -/
def registerCount (s : State) (w : Wg) (form : CopyForm) (a : BitVec 4) (dual : Bool) : Nat :=
  let bad := fun r : LRec => decide (r.dims = 0) || decide (8 < r.dims) || (r.isNi8 && decide (r.dims = 8))
  let src := sourceRecord s w a
  let dst := destRecord s w a
  if bad dst ∨ (form ≠ .fill ∧ (bad src ∨ src.dims ≠ dst.dims)) then 0
  else (if form = .fill then dst.dims else src.dims) * (if dual then 2 else 1) + afterCoordinates form dst

/-- The copy that an issue hands to the engine (R254, R255): its records, its origins, mask, multicast word and pattern from its
registers `reg`, with the poison of those that follow its coordinates (R374), its stamp area, and, where a check of R247 fails, the reason
with which it completes at once. -/
def copyIssued (s : State) (w : Wg) (form : CopyForm) (a fs : BitVec 4) (c : BitVec 3) (dual : Bool) (pc : Nat) (tid : Option Nat)
    (reg : Nat → Reg) : CopyOp :=
  let src := sourceRecord s w a
  let dst := destRecord s w a
  let n := registerCount s w form a dual
  let d := if form = .fill then dst.dims else src.dims
  let word := fun i => if i < n then (reg i).val else 0#32
  let origin := fun k => ((List.range n).drop k |>.take d).map fun i => (word i).toInt
  let rest := ((List.range n).drop (if dual then 2 * d else d)).map word
  let zeros := List.replicate d (0 : Int)
  let x : CopyOp :=
    { id := 0, wg := some w.uid, tid := tid, queue := none, gang := some w.gang, launch := some w.launch, quad := w.quad
      tenant := s.tagOf w, world := s.worldOf w, form := form, src := src, dst := dst
      sorg := if form = .fill then zeros else origin 0
      dorg := if form = .fill then origin 0 else if dual then origin d else zeros
      mask := rest, mc := rest.headD 0#32, fill := rest, col := c.toNat, fs := if fs = 0xF#4 then none else some fs.toNat
      stampPa := if dst.stamp = 0#64 then none else match locationOf s w .w false dst.stamp 16 with
        | .mem b => some b
        | _ => none
      pc := pc, patBad := (List.range n).foldl (fun (p : Poison) i => p.join (reg i).poison) none
      stage := .moving, slot := none, missed := none, hit := none, next := 0, dropped := 0, status := 0, reason := 0, info := 0 }
  if s.copyReason x = 0 then x else { x with stage := .landing, status := 1, reason := s.copyReason x, fs := none }

/-- What a copy finds when nothing is wrong with its operands (R255): an aligned, clean address of two readable, clean records; `limit`
registers, of which it reads clean coordinates; a stamp area it may write (R248); a descriptor slot that is bound to it. -/
structure CopyOperands (s : State) (w : Wg) (form : CopyForm) (a fs : BitVec 4) (dual : Bool) (first limit : Nat) (reg : Nat → Reg) : Prop where
  address : (addressOf w a).poison = none ∧ (addressOf w a).val.toNat % 128 = 0
  mapped : ∀ va ∈ [(addressOf w a).val, (addressOf w a).val + 128], (va.toNat / 2 ^ 56 = 0 ∨ va.toNat / 2 ^ 56 = 0xFE) ∧
    s.translate w .r false va 128 = .ok (locationOf s w .r false va 128)
  clean : (form ≠ .fill → ∀ b ∈ (recordsRead s w a).2.1, b.2 = none) ∧ ∀ b ∈ (recordsRead s w a).2.2, b.2 = none
  registers : ∀ i < registerCount s w form a dual, first + i < limit
  coordinates : ∀ i < registerCount s w form a dual - afterCoordinates form (destRecord s w a), (reg i).poison = none
  stamp : (destRecord s w a).stamp = 0#64 ∨ ((destRecord s w a).stamp.toNat % 16 = 0 ∧ (destRecord s w a).stamp.toNat / 2 ^ 56 ≠ 0xFD ∧
    ∃ b, s.translate w .w false (destRecord s w a).stamp 16 = .ok (.mem b) ∧ regionOf b ≠ 2)
  slot : fs ≠ 0xF#4 → s.checkTag (s.tagOf w) 9 (w.quad * 15 + fs.toNat) = true

/-- Nothing holds the issue of `n` copies back (R89, R223, R242): no access of the workgroup to the records is in flight, the calendars
let them be read now (R309), and the scoreboard has room. -/
structure CopyRoom (s : State) (w : Wg) (a : BitVec 4) (n : Nat) : Prop where
  apart : ∀ f ∈ s.flights, f.wg = w.uid → f.done = false →
    ∀ va ∈ [(addressOf w a).val, (addressOf w a).val + 128], f.loc.meets f.size (locationOf s w .r false va 128) 128 = false
  entries : n ≤ s.scoreFree w.quad
  open' : ∀ va ∈ [(addressOf w a).val, (addressOf w a).val + 128], s.locServed w (locationOf s w .r false va 128) = true

/-- Counters that have room for a copy and its follow-on pass, and those counters after it: a copy that fails a check has no pass. -/
def Counters.takeCopy (n : Counters) (fs : BitVec 4) : Prop := n.copies < 255 ∧ (fs ≠ 0xF#4 → n.matrix < 255)

def Counters.withCopy (n : Counters) (c : BitVec 3) (x : CopyOp) : Counters :=
  { n with
    copies := n.copies + 1, copyCol := n.copyCol.set c.toNat (n.copyCol.getD c.toNat 0 + 1)
    matrix := n.matrix + if x.fs.isSome then 1 else 0 }

/-- A uniform instruction that answers with a status word in common register `d` (R208): status, value, and the poison of its
sources. -/
def GivesStatus (i : Instr) (d : BitVec 6) (srcs : List (BitVec 8)) (can : State → Run → Wg → Prop)
    (answer : State → Run → Wg → Nat × Nat) (beyond : State → Run → Wg → State) : Prop :=
  CompletesUniformBeyond i (fun s r w => d.toNat < w.commons.length ∧ (∀ f ∈ srcs, canReadUniform w r f) ∧ can s r w) beyond
    fun s r w => withCommon w d.toNat
      ⟨BitVec.ofNat 32 ((answer s r w).1 + (answer s r w).2 % 65536 * 256),
        (srcs.map fun f => (uniformOperand w r f).poison).foldl Poison.join none⟩

/-- The value of a source of a uniform instruction. -/
def usource (w : Wg) (r : Run) (f : BitVec 8) : Nat := (uniformOperand w r f).val.toNat

/-- The poison of two sources. -/
def upoison (w : Wg) (r : Run) (a b : BitVec 8) : Poison := (uniformOperand w r a).poison.join (uniformOperand w r b).poison

/-! ### Commands of queues, and units -/

/-- `c` is the command of a queue that may begin (R291): the first that has not begun, behind no `WAITQ` that waits, its predecessor
complete if its flag asks for it; its fields are legal and its completion area is its owner's (R292). -/
structure Queue.begins (s : State) (q : Queue) (c : Cmd) : Prop where
  known : s.queue? q.q = some q
  reached : s.cmdOut c = false
  first : (q.cmds.find? fun d => !d.begun) = some c
  unwaited : ∀ d ∈ q.cmds, d.begun = true → d.type ≠ 5
  after : c.after = true → ∀ d ∈ q.cmds, (d.idx + 1) % 2 ^ 32 ≠ c.idx
  legal : c.badField = none
  area : c.done ≠ 0 → s.owned q.owner 2#3 c.done 16 = true

/-- The contents of a unit are cleared, as before its tag changes (R238, R265, R328): `n` frames for kind 6. -/
def State.cleared (s : State) (kind id n : Nat) : Prop :=
  (kind = 2 → ∀ i, i < 2 ^ 17 → Memory.read s.mem (2 ^ 52 + id * 2 ^ 17 + i) = 0) ∧
  (kind = 3 → ∀ i, i < 2 ^ 15 → Table.get 0#36 s.acc (id * 2 ^ 15 + i) = 0) ∧
  (kind = 4 → ∀ i, i < 2 ^ 16 → Memory.read s.mem (2 ^ 53 + id * 2 ^ 16 + i) = 0) ∧
  (kind = 5 → ∀ i, i < 128 → s.tlbGet (id / 16) (16 * i + id % 16) = none) ∧
  (kind = 6 → ∀ i, i < 65536 * n → Memory.read s.mem (id * 65536 + i) = 0) ∧
  (kind = 9 → ∀ k, k < 8 → Table.get 0#32 s.slots (id / 15 * 128 + id % 15 * 8 + k) = 0)

/-- A terminator raises no `ILLEGAL` for its word (R64, R66, R82): its scope, condition and source hold claimed values. -/
def endLegal (i : Instr) : Prop :=
  let source := fun f : BitVec 8 => f.toNat ≤ 0xF0 ∧ f.toNat ≠ 0xEF
  match i with
  | .barSync s _ => s.toNat < 5
  | .barArrive s _ => s.toNat < 5
  | .barWait s _ => s.toNat < 5
  | .mwait _ x _ c _ => c.toNat < 3 ∧ source x
  | .brx a => source a
  | .ret a => source a
  | .tbarWait _ x _ _ => source x
  | _ => True

/-- Firmware's writes reach `n` bytes from `a` on: none lies in HBM beside an ABSENT die (R383). -/
def State.writable (s : State) (a n : Nat) : Prop :=
  ∀ i, i < n → regionOf (a + i) = 0 → (s.die? ((a + i) / 65536 / 6291456)).endp ≠ .absent

/-- What a command is, but for what a `WAITQ` in progress has seen. -/
def Cmd.seen (c : Cmd) : Nat × List Byte × Bool := (c.idx, c.bytes, c.begun)

/-- Nothing that a pre-emption saved still waits to go back to a quad of a die. -/
structure State.NothingOwed (s : State) (die : Nat) : Prop where
  distinct : (s.gangs.map fun g => g.uid).Nodup
  back : ∀ g ∈ s.gangs, g.die = die → g.status = .placed → g.savedCopies = [] ∧ g.savedOps = []

/-- The configuration lists its entries by rising address, as every write to it leaves them. -/
def State.cfgSorted (s : State) : Prop := List.Pairwise (· < ·) (s.cfg.map fun e => e.1)

/-! ### Words that no entry claims (R64) -/

/-- The issue of a word as one that no entry claims raises `ILLEGAL` in the threads `ts` that issue it: at a hint those it issues for, of
a uniform instruction every thread of the run, else those whose guard holds. That is a fault of class system: the workgroup ends, all its
threads exit, and the tenant gets a record of it (R337, R339, R340). -/
def EndsIllegal (word : Word) : Prop :=
  ∀ (s : State) (r : Run) (w : Wg) (ts : List Thread), s.only w → w.status = .resident → s.barriers = [] → ts ≠ [] →
    (∀ t ∈ ts, t.tid < 2048) →
    (if word.extractLsb' 26 6 = 0x3F#6 then ts = r.hinted w ∧ s.issuer = some (r, w) ∧
        ∀ t ∈ ts, t.block = .none ∧ t.owes = false ∧ (t.suppress = true ∨ s.comparatorAt r w.launch r.pc = none)
      else if uniformWord word = true then ts = r.everyone w ∧ SmoothAll s r w
      else ts = r.acting w ∧ Smooth s r w) →
    ∃ u v x, exec (.unclaimedEncoding word) s = .next u ∧ u.wg? w.uid = some v ∧ v.status = .finished x false ∧ x.ended = 1 ∧
      x.cause = 0x01 ∧ x.fpc = BitVec.ofNat 32 (4 * r.pc) ∧ x.finfo = word ∧ (∀ t ∈ v.threads, t.place = .exited) ∧
      (∀ q ∈ u.runs, q.wg ≠ w.uid) ∧ u.mem = s.mem ∧
      ∀ y, s.tenant? (s.tagOf w) = some y → ∃ z f, u.tenant? (s.tagOf w) = some z ∧ f ∈ z.pendFaults ∧ f.cause = 0x01 ∧ f.cls = 2 ∧
        f.fpc = BitVec.ofNat 32 (4 * r.pc) ∧ f.finfo = word

end Sys2Proof.Machine
end

