-- ==== Sys2Proof/Certificates/Slice0/Obligations.lean ====
section
/-! DEFINITION. The statements about the model, each a proposition of its own. -/

open Sys2Proof Sys2Proof.Machine

/-! ### Integer instructions (R113-R122, R172) -/

/-- R114, R115, R118, R121, R172: add, subtract, minimum, maximum, multiply, absolute difference; the forms that also read the destination. -/
def Obligations.IntegerArithmeticCompletes : Prop :=
  (∀ d a b,
    FromTwo (.iadd d a b) d a b (fun x y => x + y) ∧
    FromTwo (.isub d a b) d a b (fun x y => x - y) ∧
    FromTwo (.iaddsS d a b) d a b (fun x y => if 2147483647 < x.toInt + y.toInt then 0x7FFFFFFF#32
      else if x.toInt + y.toInt < -2147483648 then 0x80000000#32 else x + y) ∧
    FromTwo (.isubsS d a b) d a b (fun x y => if 2147483647 < x.toInt - y.toInt then 0x7FFFFFFF#32
      else if x.toInt - y.toInt < -2147483648 then 0x80000000#32 else x - y) ∧
    FromTwo (.iminS d a b) d a b (fun x y => if x.toInt ≤ y.toInt then x else y) ∧
    FromTwo (.iminU d a b) d a b (fun x y => if x.toNat ≤ y.toNat then x else y) ∧
    FromTwo (.imaxS d a b) d a b (fun x y => if y.toInt ≤ x.toInt then x else y) ∧
    FromTwo (.imaxU d a b) d a b (fun x y => if y.toNat ≤ x.toNat then x else y) ∧
    FromTwo (.imul d a b) d a b (fun x y => x * y) ∧
    FromTwo (.imulhS d a b) d a b (fun x y => BitVec.ofInt 32 (x.toInt * y.toInt / 4294967296)) ∧
    FromTwo (.imulhU d a b) d a b (fun x y => BitVec.ofNat 32 (x.toNat * y.toNat / 4294967296)) ∧
    FromTwo (.iabsd d a b) d a b (fun x y => BitVec.ofNat 32 (x.toInt - y.toInt).natAbs)) ∧
  (∀ d a b,
    FromThree (.imac d a b) d a b (fun v x y => v + x * y) ∧
    FromThree (.idot4S d a b) d a b (fun v x y => v + BitVec.ofInt 32
      ((x.extractLsb' 0 8).toInt * (y.extractLsb' 0 8).toInt + (x.extractLsb' 8 8).toInt * (y.extractLsb' 8 8).toInt +
        (x.extractLsb' 16 8).toInt * (y.extractLsb' 16 8).toInt + (x.extractLsb' 24 8).toInt * (y.extractLsb' 24 8).toInt)) ∧
    FromThree (.idot4U d a b) d a b (fun v x y => v + BitVec.ofNat 32
      ((x.extractLsb' 0 8).toNat * (y.extractLsb' 0 8).toNat + (x.extractLsb' 8 8).toNat * (y.extractLsb' 8 8).toNat +
        (x.extractLsb' 16 8).toNat * (y.extractLsb' 16 8).toNat + (x.extractLsb' 24 8).toNat * (y.extractLsb' 24 8).toNat)) ∧
    FromThree (.fshr d a b) d a b (fun v x y => ((x ++ v) >>> (y.toNat % 32)).setWidth 32) ∧
    FromThree (.bfi d a b) d a b fieldInsert ∧
    FromThree (.packn d a b) d a b packNibble) ∧
  ∀ (d : BitVec 7) (a b : BitVec 8),
    (∀ p ∈ [(0#3, Instr.iadd d a b), (1#3, .isub d a b), (2#3, .iaddsS d a b), (3#3, .isubsS d a b), (4#3, .iminS d a b),
      (5#3, .iminU d a b), (6#3, .imaxS d a b), (7#3, .imaxU d a b)], decodeWord (0x01#6 ++ d ++ a ++ b ++ p.1) = .ok p.2) ∧
    (∀ p ∈ [(0#3, Instr.imul d a b), (1#3, .imulhS d a b), (2#3, .imulhU d a b), (3#3, .imac d a b), (4#3, .idot4S d a b),
      (5#3, .idot4U d a b), (6#3, .iabsd d a b)], decodeWord (0x02#6 ++ d ++ a ++ b ++ p.1) = .ok p.2) ∧
    (∃ e, decodeWord (0x02#6 ++ d ++ a ++ b ++ 7#3) = .error e) ∧ EndsIllegal (0x02#6 ++ d ++ a ++ b ++ 7#3)

/-- R116-R119: logic and shifts by a register; the immediate forms. -/
def Obligations.LogicAndShiftsComplete : Prop :=
  (∀ d a b,
    FromTwo (.and d a b) d a b (fun x y => x &&& y) ∧
    FromTwo (.or d a b) d a b (fun x y => x ||| y) ∧
    FromTwo (.xor d a b) d a b (fun x y => x ^^^ y) ∧
    FromTwo (.andn d a b) d a b (fun x y => x &&& ~~~y) ∧
    FromTwo (.orn d a b) d a b (fun x y => x ||| ~~~y) ∧
    FromTwo (.xnor d a b) d a b (fun x y => ~~~(x ^^^ y)) ∧
    FromTwo (.shl d a b) d a b (fun x y => x <<< (y.toNat % 32)) ∧
    FromTwo (.shr d a b) d a b (fun x y => x >>> (y.toNat % 32)) ∧
    FromTwo (.sar d a b) d a b (fun x y => x.sshiftRight (y.toNat % 32)) ∧
    FromTwo (.rol d a b) d a b (fun x y => x <<< (y.toNat % 32) ||| x >>> (32 - y.toNat % 32)) ∧
    FromTwo (.ror d a b) d a b (fun x y => x >>> (y.toNat % 32) ||| x <<< (32 - y.toNat % 32))) ∧
  (∀ d a,
    (∀ i : BitVec 11, FromOne (.iaddi d a i) d a (fun x => x + i.signExtend 32) ∧
      FromOne (.andi d a i) d a (fun x => x &&& i.signExtend 32) ∧
      FromOne (.ori d a i) d a (fun x => x ||| i.signExtend 32) ∧
      FromOne (.xori d a i) d a (fun x => x ^^^ i.signExtend 32)) ∧
    (∀ n : BitVec 5, FromOne (.shli d a n) d a (fun x => x <<< n.toNat) ∧
      FromOne (.shri d a n) d a (fun x => x >>> n.toNat) ∧
      FromOne (.sari d a n) d a (fun x => x.sshiftRight n.toNat) ∧
      FromOne (.roli d a n) d a (fun x => x <<< n.toNat ||| x >>> (32 - n.toNat)) ∧
      FromOne (.rori d a n) d a (fun x => x >>> n.toNat ||| x <<< (32 - n.toNat)))) ∧
  (∀ (d : BitVec 7) (a b : BitVec 8),
    (∀ p ∈ [(0#3, Instr.and d a b), (1#3, .or d a b), (2#3, .xor d a b), (3#3, .andn d a b), (4#3, .orn d a b), (5#3, .xnor d a b)],
      decodeWord (0x03#6 ++ d ++ a ++ b ++ p.1) = .ok p.2) ∧
    ∀ fn ∈ [6#3, 7#3], (∃ e, decodeWord (0x03#6 ++ d ++ a ++ b ++ fn) = .error e) ∧ EndsIllegal (0x03#6 ++ d ++ a ++ b ++ fn)) ∧
  ∀ (d : BitVec 7) (a : BitVec 8) (n : BitVec 5),
    (∀ p ∈ [(0#3, Instr.shli d a n), (1#3, .shri d a n), (2#3, .sari d a n), (3#3, .roli d a n), (4#3, .rori d a n)],
      decodeWord (0x0A#6 ++ d ++ a ++ p.1 ++ 0#3 ++ n) = .ok p.2) ∧
    ∀ (k z : BitVec 3), 5 ≤ k.toNat ∨ z ≠ 0#3 →
      (∃ e, decodeWord (0x0A#6 ++ d ++ a ++ k ++ z ++ n) = .error e) ∧ EndsIllegal (0x0A#6 ++ d ++ a ++ k ++ z ++ n)

/-- R120, R122, R163, R172: bit counts, fields, byte permutes, sign and class of an FP32 pattern, packing. -/
def Obligations.BitFormsComplete : Prop :=
  ∀ d a b,
    FromOne (.popc d a) d a (fun x => BitVec.ofNat 32 (popCount x)) ∧
    FromOne (.clz d a) d a (fun x => BitVec.ofNat 32 (leadingZeros x)) ∧
    FromOne (.ctz d a) d a (fun x => BitVec.ofNat 32 (trailingZeros x)) ∧
    FromOne (.brev d a) d a reverseBits ∧
    FromTwo (.bfxS d a b) d a b fieldS ∧
    FromTwo (.bfxU d a b) d a b fieldU ∧
    FromTwo (.permb d a b) d a b permuteBytes ∧
    FromOne (.fneg d a) d a (fun x => x ^^^ 0x80000000#32) ∧
    FromOne (.fabs d a) d a (fun x => x &&& 0x7FFFFFFF#32) ∧
    FromTwo (.fcopys d a b) d a b (fun x y => y &&& 0x80000000#32 ||| x &&& 0x7FFFFFFF#32) ∧
    FromOne (.fclass d a) d a (fun x => BitVec.ofNat 32 (fpClass x.toNat)) ∧
    FromTwo (.unpknS d a b) d a b (fun x y => ((x >>> (4 * (y.toNat % 8))).extractLsb' 0 4).signExtend 32) ∧
    FromTwo (.unpknU d a b) d a b (fun x y => ((x >>> (4 * (y.toNat % 8))).extractLsb' 0 4).setWidth 32) ∧
    FromTwo (.packh d a b) d a b (fun x y => y.extractLsb' 0 16 ++ x.extractLsb' 0 16)

/-- R120, R121, R122, R172: what the bits of a count, a field, a byte permute and a packed nibble are. R133, R135, R140, R141, R155-R171: the
values of bit patterns, rounding, and what every floating-point result, comparison, class and conversion is; the functions of R159 but
`FRINT` on the special operands of R160 and on examples. That a NaN term comes before infinities of both signs is the model's choice
(log 106), of which nothing is said here. -/
def Obligations.BitFieldValues : Prop :=
  (∀ x : Word, popCount x = ((List.range 32).filter fun i => x.getLsbD i).length) ∧
  (∀ x : Word, (x = 0#32 → leadingZeros x = 32 ∧ trailingZeros x = 32) ∧
    (x ≠ 0#32 → leadingZeros x < 32 ∧ x.getLsbD (31 - leadingZeros x) = true ∧
      (∀ i, 31 - leadingZeros x < i → x.getLsbD i = false) ∧ trailingZeros x < 32 ∧
      x.getLsbD (trailingZeros x) = true ∧ ∀ i, i < trailingZeros x → x.getLsbD i = false)) ∧
  (∀ (x : Word) (j : Nat), j < 32 → (reverseBits x).getLsbD j = x.getLsbD (31 - j)) ∧
  (∀ (v x y : Word) (j : Nat), j < 32 →
    let pos := y.toNat % 32
    let len := if y.toNat / 256 % 32 = 0 then 32 else y.toNat / 256 % 32
    let top := min (pos + len) 32 - 1
    (fieldU x y).getLsbD j = (decide (j ≤ top - pos) && x.getLsbD (pos + j)) ∧
    (fieldS x y).getLsbD j = x.getLsbD (if j ≤ top - pos then pos + j else top) ∧
    (fieldInsert v x y).getLsbD j = (if pos ≤ j ∧ j ≤ top then x.getLsbD (j - pos) else v.getLsbD j)) ∧
  (∀ (x y : Word) (i : Nat), i < 4 →
    let pick := (y >>> (4 * i)).toNat % 16
    let byte := (x >>> (8 * (pick % 4))).setWidth 8
    (permuteBytes x y >>> (8 * i)).setWidth 8 = if pick < 4 then byte else if pick < 8 then 0x00#8 else if pick < 12 then 0xFF#8
      else if byte.msb then 0xFF#8 else 0x00#8) ∧
  (∀ (v x y : Word) (j : Nat), j < 8 →
    (packNibble v x y >>> (4 * j)).setWidth 4 = if j = y.toNat % 8 then
      (if 7 < x.toInt then 7#4 else if x.toInt < -8 then 8#4 else x.setWidth 4) else (v >>> (4 * j)).setWidth 4) ∧
  PatternsHaveValues ∧ RoundsToMultiple ∧ RoundsToFormat ∧ ArithmeticIsExact ∧ PartsAndProducts ∧ FunctionsOfSpecials ∧ ComparisonsOrder ∧
  ConversionsConvert ∧ ResultsOfExamples ∧ ClassesOfPatterns

/-- R123-R125: an integer comparison into a predicate, alone or combined with the old value; predicate logic; a select reads both sources. -/
def Obligations.PredicateFormsComplete : Prop :=
  (∀ p c a b, c.toNat < 10 →
    let holds := fun (x y : Word) => match c.toNat with
      | 0 => decide (x = y)
      | 1 => decide (x ≠ y)
      | 2 => decide (x.toInt < y.toInt)
      | 3 => decide (x.toInt ≤ y.toInt)
      | 4 => decide (y.toInt < x.toInt)
      | 5 => decide (y.toInt ≤ x.toInt)
      | 6 => decide (x.toNat < y.toNat)
      | 7 => decide (x.toNat ≤ y.toNat)
      | 8 => decide (y.toNat < x.toNat)
      | _ => decide (y.toNat ≤ x.toNat)
    let both := fun (s : State) (w : Wg) (t : Thread) => (operand s w t a).poison.join (operand s w t b).poison
    WritesPredicate (.icmp p c a b) p [a, b] (fun s w t => ⟨holds (operand s w t a).val (operand s w t b).val, both s w t⟩) ∧
    WritesPredicate (.icmpAnd p c a b) p [a, b] (fun s w t =>
      ⟨(predicate t p).val && holds (operand s w t a).val (operand s w t b).val, (predicate t p).poison.join (both s w t)⟩) ∧
    WritesPredicate (.icmpOr p c a b) p [a, b] (fun s w t =>
      ⟨(predicate t p).val || holds (operand s w t a).val (operand s w t b).val, (predicate t p).poison.join (both s w t)⟩)) ∧
  (∀ d a b : BitVec 3,
    let both := fun t : Thread => (predicate t a).poison.join (predicate t b).poison
    WritesPredicate (.pand d a b) d [] (fun _ _ t => ⟨(predicate t a).val && (predicate t b).val, both t⟩) ∧
    WritesPredicate (.por d a b) d [] (fun _ _ t => ⟨(predicate t a).val || (predicate t b).val, both t⟩) ∧
    WritesPredicate (.pxor d a b) d [] (fun _ _ t => ⟨(predicate t a).val != (predicate t b).val, both t⟩) ∧
    WritesPredicate (.pnot d a) d [] (fun _ _ t => ⟨!(predicate t a).val, (predicate t a).poison⟩) ∧
    ∀ x, WritesPredicate (.psetnz d x) d [x] (fun s w t => ⟨decide ((operand s w t x).val ≠ 0#32), (operand s w t x).poison⟩)) ∧
  (∀ d a b p, WritesWord (.sel d a b p) d [a, b] fun s w t =>
    ⟨if (predicate t p).val then (operand s w t a).val else (operand s w t b).val,
      (predicate t p).poison.join ((operand s w t a).poison.join (operand s w t b).poison)⟩)

/-! ### Floating point (R152-R171) -/

/-- R156, R157, R159, R161, R162, R164: FP32 results of two operands and of one: `.fadd`, `.fsub`, `.fmul`, `.fdiv`, `.fscale`, `.fmin`,
`.fmax`, `.fminm`, `.fmaxm`, `.frcp`, `.fsqrt`, `.frsq`, `.fexp2`, `.flog2`, `.fsinpi`, `.fcospi`, `.frint`, `.fgetexp`, `.fgetman`. -/
def Obligations.FloatArithmeticCompletes : Prop := FloatForms WritesFloat

/-- R158, R165, R166: the fused forms, the packed pairs, each half an operation of its own, and the packed dot product: `.fmac`, `.fmsc`,
`.fnmac`, `.fnmsc`, `.hadd2`, `.hmul2`, `.hmac2`, `.hmax2`, `.hmin2F16`, `.hmin2Bf16`, `.hsub2F16`, `.hsub2Bf16`, `.hdot2F16`,
`.hdot2Bf16`. -/
def Obligations.FloatFusedAndPackedComplete : Prop := PackedForms WritesFloat

/-- R167: FP64 results in register pairs: `.dadd`, `.dsub`, `.dmul`, `.ddiv`, `.dmin`, `.dmax`, `.dfmac`, `.dsqrt`. -/
def Obligations.DoubleArithmeticCompletes : Prop := DoubleForms WritesFloat

/-- R168: a floating-point comparison into a predicate, alone or combined with the old value. -/
def Obligations.FloatCompareCompletes : Prop :=
  ∀ p c a b (wide : BitVec 1), c.toNat < 14 →
    let cnt := if wide = 0#1 then 1 else 2
    let completes := fun (i : Instr) (combine : Bool → Bool → Bool) (old : Poison → Poison) =>
      let poison := fun (s : State) (w : Wg) (t : Thread) => (old (predicate t p).poison).join (comparePoison s w t a b wide)
      Completes i (fun s _ w t => canRead w t a cnt ∧ canRead w t b cnt ∧
          (poison s w t = none → (compareResult s w t c a b wide).2.bits &&& t.fen = 0#5))
        (fun _ _ _ _ => [])
        (fun s _ w t =>
          withPredicate (if poison s w t = none then { t with fflags := t.fflags ||| (compareResult s w t c a b wide).2.bits } else t) p
            ⟨combine (predicate t p).val (compareResult s w t c a b wide).1, poison s w t⟩)
    completes (.fcmp p c a b wide) (fun _ x => x) (fun _ => none) ∧
    completes (.fcmpAnd p c a b wide) (fun o x => o && x) id ∧
    completes (.fcmpOr p c a b wide) (fun o x => o || x) id

/-- R169, R170: a conversion writes its result, its flags accrue, and where `%mode`.cvtcount is 1 its numeric event is counted in the
launch (R149). That a poisoned one counts none is the model's choice (log 91), as is that the saturation field of an exact conversion does
nothing (log 70). -/
def Obligations.ConvertCompletes : Prop :=
  ∀ d a (code : BitVec 8) (sat : BitVec 1) (rnd : BitVec 2), cvtCodeOk code.toNat (sat ++ rnd).toNat = true →
    let cnt := cvtSrcRegs code.toNat
    let out := cvtDstRegs code.toNat
    let poison := fun (s : State) (w : Wg) (t : Thread) => convertPoison s w t d a code
    let result := fun (s : State) (w : Wg) (t : Thread) => convertResult s w t d a code sat rnd
    let counts := fun (s : State) (w : Wg) (t : Thread) =>
      if t.mode.getLsbD 3 = true ∧ poison s w t = none then (result s w t).event else none
    let can := fun (s : State) (w : Wg) (t : Thread) => canName w t d.toNat out ∧ canRead w t a cnt ∧
      (poison s w t = none → (result s w t).flags.bits &&& t.fen = 0#5)
    let wrote := fun (s : State) (_ : Run) (w : Wg) (t : Thread) => (List.range out).map fun k =>
      (d.toNat + k, (⟨BitVec.ofNat 32 ((result s w t).bits / 2 ^ (32 * k)), poison s w t⟩ : Reg))
    let then' := fun (s : State) (_ : Run) (w : Wg) (t : Thread) =>
      if poison s w t = none then { t with fflags := t.fflags ||| (result s w t).flags.bits } else t
    CompletesBeyond (.cvt d a code sat rnd) (fun s r w => ∀ t ∈ r.acting w, can s w t)
      (fun s r w => r.inTurn w s fun u t => match counts s w t with
        | some e => u.onLaunch w.launch fun l =>
          let k := (t.mode.extractLsb' 4 6).toNat * 4 + (match e with | .sat => 0 | .flush => 1 | .nan => 2 | .ovf => 3)
          { l with num := Table.set 0 l.num k (min (Table.get 0 l.num k + 1) (2 ^ 64 - 1)) }
        | none => u) wrote then'

/-! ### Special registers and counters of threads (R126-R128, R353-R355) -/

/-- R127, R128: the special registers of a thread are read and written. R355, R150: a tenant counter, a stall counter, a numeric counter is read. -/
def Obligations.SpecialRegistersComplete : Prop :=
  (∀ (d : BitVec 7) (id : BitVec 10), id.toNat ≤ 0x19 →
     Completes (.srd d id)
       (fun s _ w t => canName w t d.toNat 1 ∧ (id.toNat = 0x0E → s.unlogged w))
       (fun s r w t => [(d.toNat, ⟨special s r w t id.toNat, none⟩)])
       (fun s _ w t => if id.toNat = 0x0E then
         { t with clkh := BitVec.ofNat 32 ((if w.core < 384 then s.die0 else s.die1).cycles / 2 ^ 32) } else t)) ∧
  (∀ (d : BitVec 7) (id : BitVec 10), id.toNat = 0x15 ∨ id.toNat = 0x16 ∨ id.toNat = 0x18 →
     Completes (.swr d id)
       (fun s _ w t => canName w t d.toNat 1 ∧ (t.reg s d.toNat).poison = none)
       (fun _ _ _ _ => [])
       (fun s _ _ t =>
         let x := (t.reg s d.toNat).val
         if id.toNat = 0x15 then { t with fflags := t.fflags &&& ~~~(x.extractLsb' 0 5) }
         else if id.toNat = 0x16 then { t with fen := x.extractLsb' 0 5 }
         else { t with mode := x.extractLsb' 0 10 })) ∧
  (∀ (n : BitVec 8),
     let value := fun (s : State) (w : Wg) => if n.toNat < 8 then
         (((s.tenant? (s.tagOf w)).bind fun t => t.ctrs[n.toNat]?).elim 0#64 fun c => c.value).toNat
       else w.stalls.getD (n.toNat - 0x10) 0
     let low := fun (v : Nat) => (⟨BitVec.ofNat 32 v, none⟩ : Reg)
     (n.toNat < 8 ∨ 0x10 ≤ n.toNat ∧ n.toNat < 0x20 →
       (∀ d : BitVec 7,
         Completes (.cntrdLo d n) (fun _ _ w t => canName w t d.toNat 1) (fun s _ w _ => [(d.toNat, low (value s w))])
           (fun s _ w t => { t with shadowId := n.toNat, shadowWord := BitVec.ofNat 32 (value s w / 2 ^ 32) }) ∧
         Completes (.cntrdHi d n) (fun _ _ w t => canName w t d.toNat 1)
           (fun s _ w t => [(d.toNat, if t.shadowId = n.toNat then ⟨t.shadowWord, none⟩ else low (value s w / 2 ^ 32))])
           (fun _ _ _ t => t)) ∧
       ∀ d : BitVec 6,
         Completes (.cntrd d n) (fun _ _ w t => canName w t (2 * d.toNat) 2)
           (fun s _ w _ => [(2 * d.toNat, low (value s w)), (2 * d.toNat + 1, low (value s w / 2 ^ 32))]) (fun _ _ _ t => t)) ∧
     (n.toNat < 64 → ∀ (d : BitVec 6) (a : BitVec 8),
       let count := fun (s : State) (w : Wg) (t : Thread) =>
         (s.launch? w.launch).elim 0 fun l => Table.get 0 l.num (n.toNat * 4 + (operand s w t a).val.toNat % 4)
       Completes (.numrd d n a) (fun _ _ w t => canName w t (2 * d.toNat) 2 ∧ canRead w t a 1)
         (fun s _ w t => [(2 * d.toNat, ⟨BitVec.ofNat 32 (count s w t), (operand s w t a).poison⟩),
           (2 * d.toNat + 1, ⟨BitVec.ofNat 32 (count s w t / 2 ^ 32), (operand s w t a).poison⟩)]) (fun _ _ _ t => t)))

/-! ### Control (R75, R176-R188, R342) -/

/-- R48: after `NOP` the same instruction issues for the next group that holds a thread, then the next instruction for the first one; when
there is none the block ends and every thread still in it waits, ready, at the word after the block. That a step issues for the head run's
group is how the model orders what the device does at once (log 3). Every other instruction that does not end the block moves its run on in
the same way: the completion statements say so through `MovesOn`. -/
def Obligations.IssueOrder : Prop :=
  ∀ s r w, Smooth s r w →
    ∃ u, exec .nop s = .next u ∧
      match r.nextGroup (r.grp + 1), r.nextGroup 0 with
      | some g, _ => { r with grp := g, stall := none } ∈ u.runs
      | none, some g =>
        if r.idx + 1 < r.words.length then { r with idx := r.idx + 1, grp := g, stall := none } ∈ u.runs
        else (∀ q ∈ u.runs, q.core ≠ r.core ∨ q.port ≠ r.port) ∧
          ∀ t ∈ r.everyone w, ∃ t', u.thread? w.uid t.tid = some t' ∧ t'.place = .waiting (r.key + r.words.length) .ready
      | none, none => ∀ q ∈ u.runs, q.core ≠ r.core ∨ q.port ≠ r.port

/-- R36, R176-R178: `YIELD` and `SLEEP` park the thread at the next word; `EXIT` ends it (with no barrier in use, whose phase an exit may complete, R187). R12, R81, R342: `NOP`, `UBLK` at its key, and `BRK` outside a debug launch (or for a thread just released at it) do nothing but issue. -/
def Obligations.ParkingFormsComplete : Prop :=
  (Goes .exit (fun s _ _ _ => s.barriers = []) (fun _ _ _ _ => .exited) (fun _ _ _ _ => []) (fun _ _ _ t => t) ∧
  Goes .yield (fun _ _ _ _ => True) (fun _ r _ _ => .waiting (r.pc + 1) .ready) (fun _ _ _ _ => []) (fun _ _ _ t => t) ∧
  ∀ n : BitVec 20,
    Goes (.sleep n) (fun _ _ _ _ => True)
      (fun s r w _ => .waiting (r.pc + 1) (if n = 0#20 then .ready
        else .sleep ((if w.core < 384 then s.die0 else s.die1).cycles + n.toNat)))
      (fun _ _ _ _ => []) (fun _ _ _ t => t)) ∧
  (Completes .nop (fun _ _ _ _ => True) (fun _ _ _ _ => []) (fun _ _ _ t => t) ∧
  Completes .ublk (fun _ _ _ _ => True) (fun _ _ _ _ => []) (fun _ _ _ t => t) ∧
  ∀ c, Completes (.brk c) (fun s _ w t => (∀ l, s.launch? w.launch = some l → l.debug = false) ∨ t.suppress = true)
    (fun _ _ _ _ => []) (fun _ _ _ t => t))

/-- R179-R181: each thread goes to its own target, a word offset below 2^24. -/
def Obligations.BranchesComplete : Prop :=
  (∀ (p : BitVec 3) (n : BitVec 1) (d : BitVec 22),
    let target := fun (r : Run) (t : Thread) =>
      if (predicate t p).val != decide (n = 1#1) then (r.pc : Int) + d.toInt else (r.pc : Int) + 1
    Goes (.bra p n d)
      (fun s r w t => s.unlogged w ∧ (predicate t p).poison = none ∧ 0 ≤ target r t ∧ target r t < 16777216)
      (fun _ r _ t => .waiting (target r t).toNat .ready) (fun _ _ _ _ => []) (fun _ _ _ t => t)) ∧
  (∀ a : BitVec 8, a.toNat ≤ 0xF0 → a.toNat ≠ 0xEF →
    let can := fun (s : State) (_ : Run) (w : Wg) (t : Thread) => s.unlogged w ∧ canRead w t a 1 ∧
      (operand s w t a).poison = none ∧ (operand s w t a).val.toNat < 16777216
    let place := fun (s : State) (_ : Run) (w : Wg) (t : Thread) => Place.waiting (operand s w t a).val.toNat .ready
    Goes (.brx a) can place (fun _ _ _ _ => []) (fun _ _ _ t => t) ∧
    Goes (.ret a) can place (fun _ _ _ _ => []) (fun _ _ _ t => t)) ∧
  ∀ (l : BitVec 7) (d : BitVec 19),
    Goes (.call l d)
      (fun s r w t => s.unlogged w ∧ canName w t l.toNat 1 ∧ 0 ≤ (r.pc : Int) + d.toInt ∧ (r.pc : Int) + d.toInt < 16777216)
      (fun _ r _ _ => .waiting ((r.pc : Int) + d.toInt).toNat .ready)
      (fun _ r _ _ => [(l.toNat, ⟨BitVec.ofNat 32 (r.pc + 1), none⟩)]) (fun _ _ _ t => t)

/-- R183: `WAIT` parks the thread at the next word, ready when every counter is at or below its threshold (the common ones
too in a uniform block), else with reason 1. -/
def Obligations.WaitCompletes : Prop :=
  ∀ l s c m x : BitVec 5,
    let met := fun (r : Run) (w : Wg) (t : Thread) =>
      meetsAll t.cnt l s c m x ∧ (r.uniform = true → meetsAll w.common l s c m x)
    ∀ st r w, Smooth st r w →
      ∃ u, exec (.wait l s c m x) st = .next u ∧ Beside st u r w ∧ GroupBecame st u r w (fun _ => []) (fun t => t) ∧
        ∀ t ∈ r.group w, r.alone w t → t.guard.val = true →
          (met r w t → u.placeOf r w t.tid = some (.waiting (r.pc + 1) .ready)) ∧
          (¬ met r w t → ∃ on, u.placeOf r w t.tid = some (.waiting (r.pc + 1) on) ∧ on.code = 1)

/-- R342, R79: inside a handler `TRET.NEXT` drops the saved hints and returns to the word after the faulting one, `TRET.RETRY` to that word,
where the hints saved for it are pending again; a thread whose guard is false goes on behind it (R75). Outside a handler both are
`ILLEGAL`. -/
def Obligations.TrapReturnCompletes : Prop :=
  (∀ s r w, Smooth s r w → (∀ t ∈ r.group w, t.guard.val = true → t.inTrap = true) →
    let goes := fun (u : State) (key : Thread → Nat) => ∀ t ∈ r.group w, r.alone w t →
      u.placeOf r w t.tid = some (.waiting (if t.guard.val = true then key t else r.pc + 1) .ready)
    (∃ u, exec .tretNext s = .next u ∧ Beside s u r w ∧ goes u (fun t => t.fpc.toNat / 4 + 1) ∧
      GroupDid s u r w fun t t' => Became s u t t' [] { t with inTrap := false } ∧ t'.saved = none ∧ t'.resume = false) ∧
    ∃ u, exec .tretRetry s = .next u ∧ Beside s u r w ∧ goes u (fun t => t.fpc.toNat / 4) ∧ GroupDid s u r w (Returned s u)) ∧
  ∀ s r w, Smooth s r w → s.only w → w.status = .resident → s.barriers = [] → r.acting w ≠ [] →
    (∀ t ∈ r.acting w, t.inTrap = false) →
    ∀ p ∈ [(Instr.tretNext, 0x00600000#32), (.tretRetry, 0x00600001#32)],
      ∃ u v x, exec p.1 s = .next u ∧ u.wg? w.uid = some v ∧ v.status = .finished x false ∧ x.cause = 0x01 ∧
        x.fpc = BitVec.ofNat 32 (4 * r.pc) ∧ x.finfo = p.2

/-! ### Uniform instructions (R182, R189-R195, R129-R131) -/

/-- R189, R190: scalar arithmetic on common registers. -/
def Obligations.ScalarArithmeticCompletes : Prop :=
  ∀ d a b,
    UniformTwo (.cadd d a b) d a b (fun x y => x + y) ∧
    UniformTwo (.csub d a b) d a b (fun x y => x - y) ∧
    UniformTwo (.cmul d a b) d a b (fun x y => x * y) ∧
    UniformTwo (.cand d a b) d a b (fun x y => x &&& y) ∧
    UniformTwo (.cor d a b) d a b (fun x y => x ||| y) ∧
    UniformTwo (.cxor d a b) d a b (fun x y => x ^^^ y) ∧
    UniformTwo (.cshl d a b) d a b (fun x y => x <<< (y.toNat % 32)) ∧
    UniformTwo (.cshr d a b) d a b (fun x y => x >>> (y.toNat % 32)) ∧
    UniformTwo (.csar d a b) d a b (fun x y => x.sshiftRight (y.toNat % 32)) ∧
    UniformTwo (.cminS d a b) d a b (fun x y => if x.toInt ≤ y.toInt then x else y) ∧
    UniformTwo (.cmaxS d a b) d a b (fun x y => if y.toInt ≤ x.toInt then x else y) ∧
    UniformTwo (.cminU d a b) d a b (fun x y => if x.toNat ≤ y.toNat then x else y) ∧
    UniformTwo (.cmaxU d a b) d a b (fun x y => if y.toNat ≤ x.toNat then x else y) ∧
    UniformTwo (.csltS d a b) d a b (fun x y => if x.toInt < y.toInt then 1#32 else 0#32) ∧
    UniformTwo (.csltU d a b) d a b (fun x y => if x.toNat < y.toNat then 1#32 else 0#32) ∧
    UniformTwo (.cseq d a b) d a b (fun x y => if x = y then 1#32 else 0#32) ∧
    ∀ i : BitVec 12, CompletesUniform (.caddi d a i) (fun _ r w => d.toNat < w.commons.length ∧ canReadUniform w r a)
      (fun _ r w => withCommon w d.toNat ⟨(uniformOperand w r a).val + i.signExtend 32, (uniformOperand w r a).poison⟩) ∧
      decodeWord (0x29#6 ++ d ++ a ++ i) = .ok (.caddi d a i)

/-- R191: address arithmetic, and moves between address registers and pairs of common registers. -/
def Obligations.AddressArithmeticCompletes : Prop :=
  ∀ d a : BitVec 4,
    (∀ x : BitVec 8, CompletesUniform (.aadd d a x) (fun _ _ _ => True) fun _ _ w =>
      withAddr w d ⟨(addressOf w a).val + x.signExtend 64, (addressOf w a).poison⟩) ∧
    (∀ (x : BitVec 8) (k : BitVec 6), CompletesUniform (.aadds d a x k) (fun _ _ _ => True) fun _ _ w =>
      withAddr w d ⟨(addressOf w a).val + x.signExtend 64 <<< k.toNat, (addressOf w a).poison⟩) ∧
    ∀ n : BitVec 6,
      let pair := fun (_ : State) (_ : Run) (w : Wg) => n.toNat % 2 = 0 ∧ n.toNat + 1 < w.commons.length
      CompletesUniform (.afromc d n) pair (fun _ _ w => withAddr w d
        ⟨(w.creg (n.toNat + 1)).val ++ (w.creg n.toNat).val, (w.creg n.toNat).poison.join (w.creg (n.toNat + 1)).poison⟩) ∧
      CompletesUniform (.atoc a n) pair (fun _ _ w => withCommon
        (withCommon w n.toNat ⟨(addressOf w a).val.setWidth 32, (addressOf w a).poison⟩) (n.toNat + 1)
        ⟨((addressOf w a).val >>> 32).setWidth 32, (addressOf w a).poison⟩)

/-! ### Faults of class user (R88, R143, R339, R342) -/

/-- R342: `TRAP` takes the fault `USER_TRAP` with its number in `%finfo`. -/
def Obligations.TrapEntersHandler : Prop :=
  ∀ n : BitVec 8, EntersHandler (.trap n) (fun _ _ _ _ => True) 0x06 (fun _ _ _ _ => n.setWidth 32) (fun _ _ _ t => t)

/-- R143, R168, R170: a floating-point instruction that raises an enabled flag takes the fault `FP`: the destination is not written, the
flags accrue, and `%finfo` names the destination, a predicate as one, and every flag raised. This is so of every instruction that raises
flags; of a conversion it is said where no numeric event is counted. -/
def Obligations.FloatFlagsTrap : Prop :=
  FloatForms TrapsFloat ∧ PackedForms TrapsFloat ∧ DoubleForms TrapsFloat ∧
  (∀ p c a b (wide : BitVec 1), c.toNat < 14 →
    let cnt := if wide = 0#1 then 1 else 2
    ∀ row ∈ [(Instr.fcmp p c a b wide, false), (.fcmpAnd p c a b wide, true), (.fcmpOr p c a b wide, true)],
      EntersHandler row.1
        (fun s _ w t => canRead w t a cnt ∧ canRead w t b cnt ∧ comparePoison s w t a b wide = none ∧
          (row.2 = true → (predicate t p).poison = none) ∧ (compareResult s w t c a b wide).2.bits &&& t.fen ≠ 0#5) 0x05
        (fun s _ w t => BitVec.ofNat 32 (p.toNat + (compareResult s w t c a b wide).2.bits.toNat * 2 ^ 7 + 2 ^ 12))
        (fun s _ w t => { t with fflags := t.fflags ||| (compareResult s w t c a b wide).2.bits })) ∧
  ∀ d a (code : BitVec 8) (sat : BitVec 1) (rnd : BitVec 2), cvtCodeOk code.toNat (sat ++ rnd).toNat = true →
    EntersHandler (.cvt d a code sat rnd)
      (fun s _ w t => canName w t d.toNat (cvtDstRegs code.toNat) ∧ canRead w t a (cvtSrcRegs code.toNat) ∧
        convertPoison s w t d a code = none ∧ (convertResult s w t d a code sat rnd).flags.bits &&& t.fen ≠ 0#5 ∧
        (t.mode.getLsbD 3 = false ∨ (convertResult s w t d a code sat rnd).event = none)) 0x05
      (fun s _ w t => BitVec.ofNat 32 (d.toNat + (convertResult s w t d a code sat rnd).flags.bits.toNat * 2 ^ 7))
      (fun s _ w t => { t with fflags := t.fflags ||| (convertResult s w t d a code sat rnd).flags.bits })

/-- R194, R195: `WRED` combines the participants' values in a fixed tree over `%tid` and writes one common register. -/
def Obligations.ReductionCompletes : Prop :=
  ∀ (d : BitVec 6) (a : BitVec 8) (rop : BitVec 4) (p : BitVec 3) (n : BitVec 1), rop.toNat < 12 → (rop = 11#4 → a = 0#8) →
    let takes := fun (t : Thread) => (predicate t p).val != decide (n = 1#1)
    let leaf := fun (s : State) (r : Run) (w : Wg) (j : Nat) => match (r.everyone w).find? fun t => t.tid = j with
      | some t => if takes t then some (if rop = 11#4 then ⟨1#32, none⟩ else operand s w t a) else none
      | none => none
    CompletesUniform (.wred d a rop p n)
      (fun _ r w => d.toNat < w.commons.length ∧ ∀ t ∈ r.everyone w, (predicate t p).poison = none ∧
        canRead w { t with pending := if takes t = true ∧ rop ≠ 11#4 then t.pending else [] } a 1)
      fun s r w => withCommon w d.toNat (canonical rop ((treeOf (reduction rop).1 11 (leaf s r w)).getD ⟨(reduction rop).2, none⟩))

/-- R182: `BRU` sends every thread of the run to one key. -/
def Obligations.UniformBranchCompletes : Prop :=
  ∀ (c : BitVec 6) (t : BitVec 3) (d : BitVec 17), t.toNat < 7 → (t = 0#3 → c = 0#6) →
    let taken := fun (v : Word) => if t = 0#3 then True else if t = 1#3 then v.toInt = 0 else if t = 2#3 then v.toInt ≠ 0
      else if t = 3#3 then v.toInt < 0 else if t = 4#3 then 0 ≤ v.toInt else if t = 5#3 then 0 < v.toInt else v.toInt ≤ 0
    ∀ s r w (k : Nat), SmoothAll s r w → s.unlogged w → (t ≠ 0#3 → c.toNat < w.commons.length ∧ (w.creg c.toNat).poison = none) →
      (taken (w.creg c.toNat).val → (k : Int) = (r.pc : Int) + d.toInt) → (¬ taken (w.creg c.toNat).val → k = r.pc + 1) → k < 16777216 →
      ∃ u, exec (.bru c t d) s = .next u ∧ Beside s u r w ∧ RunBecame s u r w w ∧
        ∀ x ∈ r.everyone w, (∀ y ∈ w.threads, y.tid = x.tid → y = x) → (∀ p ∈ r.parked, p.tid ≠ x.tid) →
          u.placeOf r w x.tid = some (.waiting k .ready)

/-- R129-R131: `REGQ.GET` and the refusals of `REGQ.SET` and `REGQ.XFER` write a status and change nothing else; `REGQ.XFER`
moves budget to another rank in one step. `REGQ.SET` gives the workgroup a quota its core and its gang's context room have space for:
every thread keeps its registers below both quotas, and those above the old one are zero; without space it is refused with status 2, and
it stalls while an operation it waits for is outstanding. -/
def Obligations.QuotaFormsComplete : Prop :=
  (∀ d : BitVec 6,
    let word := fun (st q b : Nat) => (⟨BitVec.ofNat 32 (st + q * 256 + b * 65536), none⟩ : Reg)
    let result := fun (st : Nat) (w : Wg) => withCommon w d.toNat (word st w.quota w.budget)
    let value := fun (w : Wg) (r : Run) (a : BitVec 8) => (uniformOperand w r a).val.toNat
    let source := fun (w : Wg) (r : Run) (a : BitVec 8) => canReadUniform w r a ∧ (uniformOperand w r a).poison = none
    CompletesUniform (.regqGet d) (fun _ _ w => d.toNat < w.commons.length) (fun _ _ w => result 0 w) ∧
    (∀ a : BitVec 8,
      let bad := fun (q : Nat) => q < 4 ∨ 128 < q ∨ q % 4 ≠ 0
      CompletesUniform (.regqSet d a) (fun _ r w => d.toNat < w.commons.length ∧ source w r a ∧ bad (value w r a))
        (fun _ _ w => result 1 w) ∧
      CompletesUniform (.regqSet d a)
        (fun _ r w => d.toNat < w.commons.length ∧ source w r a ∧ ¬ bad (value w r a) ∧ w.budget < value w r a)
        (fun _ _ w => result 3 w) ∧
      CompletesUniform (.regqSet d a)
        (fun s r w => d.toNat < w.commons.length ∧ source w r a ∧ ¬ bad (value w r a) ∧ value w r a ≤ w.budget ∧
          (472 * 1024 < s.coreUse w.core w.uid (value w r a) ∨ w.quota < value w r a ∧ s.growRoom w (value w r a) = none))
        (fun _ _ w => result 2 w) ∧
      ∀ s r w, SmoothAll s r w → d.toNat < w.commons.length → source w r a → ¬ bad (value w r a) → value w r a ≤ w.budget →
        s.coreUse w.core w.uid (value w r a) ≤ 472 * 1024 → (w.quota < value w r a → (s.growRoom w (value w r a)).isSome) →
        let some' := fun (f : Counters → Nat) => f w.common ≠ 0 ∨ ∃ t ∈ w.threads, f t.cnt ≠ 0
        some' Counters.loads ∨ some' Counters.stores ∨ some' Counters.copies →
          ∃ u n, exec (.regqSet d a) s = .next u ∧ { r with stall := some n } ∈ u.runs ∧ u.wgs = s.wgs ∧ u.mem = s.mem ∧
            (n = 2 ↔ some' Counters.loads) ∧ (n = 3 ↔ ¬ some' Counters.loads ∧ some' Counters.stores) ∧ (n = 2 ∨ n = 3 ∨ n = 4)) ∧
    ∀ a b : BitVec 8,
      let sources := fun (w : Wg) (r : Run) => d.toNat < w.commons.length ∧ source w r a ∧ source w r b

      let bad := fun (s : State) (r : Run) (w : Wg) => 3 < value w r a ∨ value w r a = w.rank ∨
        s.rankOf w (value w r a) = none ∨ value w r b = 0 ∨ value w r b % 4 ≠ 0
      CompletesUniform (.regqXfer d a b) (fun s r w => sources w r ∧ bad s r w) (fun _ _ w => result 1 w) ∧
      ∀ s r w v, SmoothAll s r w → sources w r → ¬ bad s r w → s.rankOf w (value w r a) = some v → s.wg? v.uid = some v →
        v.uid ≠ w.uid →
        if w.budget < w.quota + value w r b ∨ 128 < v.budget + value w r b then
          ∃ u, exec (.regqXfer d a b) s = .next u ∧ Beside s u r w ∧ RunBecame s u r w (result 3 w)
        else
          ∃ u, exec (.regqXfer d a b) s = .next u ∧
            Beside (s.onWg v.uid fun v => { v with budget := v.budget + value w r b }) u r w ∧
            RunBecame s u r w (withCommon { w with budget := w.budget - value w r b } d.toNat
              (word 0 w.quota (w.budget - value w r b)))) ∧
  (∀ (d : BitVec 6) (a : BitVec 8) s r w q, SmoothAll s r w → d.toNat < w.commons.length → canReadUniform w r a →
    (uniformOperand w r a) = ⟨BitVec.ofNat 32 q, none⟩ → 4 ≤ q → q ≤ 128 → q % 4 = 0 → q ≤ w.budget →
    s.coreUse w.core w.uid q ≤ 472 * 1024 → (w.quota < q → (s.growRoom w q).isSome) →
    w.common.loads = 0 → w.common.stores = 0 → w.common.copies = 0 →
    (∀ t ∈ w.threads, t.cnt.loads = 0 ∧ t.cnt.stores = 0 ∧ t.cnt.copies = 0 ∧ t.within w.quota) →
    ∃ u w', exec (.regqSet d a) s = .next u ∧ u.wg? w.uid = some w' ∧ w'.quota = q ∧
      w'.control = (withCommon { w with quota := q } d.toNat ⟨BitVec.ofNat 32 (q * 256 + w.budget * 65536), none⟩).control ∧
      u.mem = s.mem ∧ (∀ v, v ≠ w.uid → u.wg? v = s.wg? v) ∧
      ∀ tid t, w.thread? tid = some t → ∃ t', w'.thread? tid = some t' ∧ t'.control = t.control ∧
        (∀ n, n < q → n < w.quota → t.holds n → t'.reg u n = t.reg s n) ∧
        (q ≠ w.quota → ∀ n, w.quota ≤ n → n < q → n ∉ deadNames t.hints → t'.reg u n = ⟨0, none⟩))

/-! ### Barriers (R185-R187) -/

/-- R187: `SYNC` and `ARRIVE` park the thread with reason 2 until its release is complete and its arrival counted; `WAIT` parks
it until the phase of its last arrival completes, or lets it go on at once and acquires. R187, R226: an arrival is counted once every
load, store and copy of the thread, and every common store and copy, is complete, and the thread has not arrived in the current phase; the
arrival that completes the phase of a workgroup's barrier starts the next phase and lets every thread that waits for it go on. -/
def Obligations.BarrierFormsComplete : Prop :=
  (∀ (sc : BitVec 3) (i : BitVec 6), sc.toNat < 5 →
    let parkedWaiting := fun (r : Run) => ∀ p ∈ r.parked, ∃ k on, p.place = .waiting k on
    let opened := fun (s : State) (r : Run) (w : Wg) => if r.acting w = [] then s else s.openBarrier w sc.toNat i.toNat
    let arrives := fun (ins : Instr) (k : BarKind) => GoesBeyond ins (fun _ r _ => parkedWaiting r) opened
      fun _ r _ _ => .waiting (r.pc + 1) (.barrier sc.toNat i.toNat k true 0)
    arrives (.barSync sc i) .sync ∧ arrives (.barArrive sc i) .arrive ∧
    let awaits := fun (s : State) (w : Wg) (t : Thread) => (s.barrierAt w sc.toNat i.toNat).filter fun b =>
      b.arrived.contains (w.uid, t.tid)
    GoesBeyond (.barWait sc i) (fun _ r w => ∀ t ∈ r.acting w, t.cnt.loads = 0)
      (fun s r w => if (r.acting w).all fun t => (awaits s w t).isSome then s else s.dropUnowned w.core)
      fun s r w t => match awaits s w t with
        | some b => .waiting (r.pc + 1) (.barrier sc.toNat i.toNat .wait false b.phase)
        | none => .waiting (r.pc + 1) .ready) ∧
  (∀ s w t key sc i k ph b, s.sole w t →
    t.place = .waiting key (.barrier sc i k true ph) → s.barrierAt w sc i = some b →
    t.cnt.loads = 0 → t.cnt.stores = 0 → t.cnt.copies = 0 → w.common.stores = 0 → w.common.copies = 0 →
    (w.uid, t.tid) ∉ b.arrived →
    let now := fun (x : Barrier) => x.scope = sc ∧ x.inst = b.inst ∧ x.id = i
    let after := { s with barriers := s.barriers.map fun x => if now x then { x with arrived := x.arrived ++ [(w.uid, t.tid)] } else x }
    let moved := after.onThread w.uid t.tid fun t =>
      { t with place := .waiting key (if k = .arrive then .ready else .barrier sc i k false b.phase) }
    (∀ x ∈ moved.barriers, moved.phaseComplete x = false) →
      exec (.barrierArrival w.uid t.tid) s = .next moved.advanceFree.retried) ∧
  (∀ s w t key i k ph b, s.sole w t → s.barriers = [b] → b.scope = 0 → s.barrierAt w 0 i = some b → s.isGuarded w = false →
    t.place = .waiting key (.barrier 0 i k true ph) →
    t.cnt.loads = 0 → t.cnt.stores = 0 → t.cnt.copies = 0 → w.common.stores = 0 → w.common.copies = 0 →
    (w.uid, t.tid) ∉ b.arrived → (∀ v ∈ w.threads, v.tid ≠ t.tid → v.live = true → (w.uid, v.tid) ∈ b.arrived) →
    ∃ u, exec (.barrierArrival w.uid t.tid) s = .next u ∧ u.barriers = [{ b with phase := b.phase + 1, arrived := [] }] ∧
      u.mem = s.mem ∧ (k ≠ .arrive → u.l1 = (s.dropUnowned w.core).l1) ∧
      ∀ tid v, w.thread? tid = some v → ∃ v', u.thread? w.uid tid = some v' ∧
        v' = if v.tid = t.tid then { v with place := .waiting key .ready } else match v.place with
          | .waiting q (.barrier 0 j _ false p) => if j = i ∧ p = b.phase then { v with place := .waiting q .ready } else v
          | _ => v)

/-! ### Memory (R77, R215-R226) -/

/-- R216-R218, R222: `LD`, `ST`, `ATOM` and `RED` put one access of each thread in flight; a load and an atomic make their
destinations wait for the data, and an acquire holds its thread. -/
def Obligations.LoadsAndStoresIssue : Prop :=
  ∀ (d : BitVec 7) (x : BitVec 8) (a k : BitVec 4),
    let awaits := fun (t : Thread) (cnt id : Nat) => { t with
      cnt := { t.cnt with loads := t.cnt.loads + 1 }, pending := t.pending ++ (List.range cnt).map (d.toNat + ·)
      block := if t.memHint.getLsbD 3 then .acquire id else t.block }
    let regs := fun (size : Nat) => (size + 3) / 4
    let parts := fun (size : Nat) => (List.range ((size + 3) / 4)).map fun j => 4 * j
    (∀ z : BitVec 3, z.toNat < 7 →
      let size := [1, 2, 4, 8, 16, 1, 2].getD z.toNat 0
      let ea := fun (s : State) (w : Wg) (t : Thread) => operandAddress s w t x a size k.toNat
      IssuesAccess (.ld d x a z k) d.toNat (regs size) x 0x10#8
        (fun s w t => Reaches s w t .r false true false (ea s w t) size ∧ t.cnt.loads < 255 ∧
          s.scoreStall w.quad (locationOf s w .r false (ea s w t).val size) size = none)
        (fun s r w t id =>
          { id := id, wg := w.uid, tid := some t.tid, acc := .load (decide (5 ≤ z.toNat)), va := (ea s w t).val
            loc := locationOf s w .r false (ea s w t).val size, size := size, dst := d.toNat, data := [], poison := none, colour := 0
            acquire := t.memHint.getLsbD 3, release := false, pc := r.pc, left := parts size, lane := none, done := false })
        (fun _ _ t id => awaits t (regs size) id)) ∧
    (∀ z : BitVec 3, z.toNat < 5 →
      let size := [1, 2, 4, 8, 16].getD z.toNat 0
      let ea := fun (s : State) (w : Wg) (t : Thread) => operandAddress s w t x a size k.toNat
      let loc := fun (s : State) (w : Wg) (t : Thread) => locationOf s w .w false (ea s w t).val size
      let colour := fun (t : Thread) => (t.memHint.extractLsb' 0 3).toNat
      IssuesAccess (.st d x a z k) d.toNat (regs size) x 0x08#8
        (fun s w t => Reaches s w t .w false false true (ea s w t) size ∧ t.cnt.stores < 255 ∧
          s.scoreStall w.quad (loc s w t) size = none ∧
          (registersPoison s t d.toNat (regs size) = none ∨ ∀ b, loc s w t = .mem b → regionOf b ≠ 2))
        (fun s r w t id =>
          { id := id, wg := w.uid, tid := some t.tid, acc := .store, va := (ea s w t).val, loc := loc s w t, size := size, dst := 0
            data := leBytes (registersValue s t d.toNat (regs size)) size, poison := registersPoison s t d.toNat (regs size)
            colour := colour t, acquire := false, release := t.memHint.getLsbD 4, pc := r.pc, left := parts size, lane := none, done := false })
        (fun _ _ t _ => { t with cnt := { t.cnt with
          stores := t.cnt.stores + 1, storeCol := t.cnt.storeCol.set (colour t) (t.cnt.storeCol.getD (colour t) 0 + 1) } })) ∧
    ∀ z : BitVec 1,
      let size := if z = 0#1 then 4 else 8
      let ea := fun (s : State) (w : Wg) (t : Thread) => operandAddress s w t x a size 0
      let can := fun (s : State) (w : Wg) (t : Thread) => Reaches s w t .a true true true (ea s w t) size ∧
        s.scoreStall w.quad (locationOf s w .a true (ea s w t).val size) size = none
      let flight := fun (acc : Access) (dst cnt : Nat) (acquire : Bool) (s : State) (r : Run) (w : Wg) (t : Thread) (id : Nat) =>
        ({ id := id, wg := w.uid, tid := some t.tid, acc := acc, va := (ea s w t).val
           loc := locationOf s w .a true (ea s w t).val size, size := size, dst := dst
           data := leBytes (registersValue s t d.toNat cnt) (4 * cnt), poison := registersPoison s t d.toNat cnt
           colour := 0, acquire := acquire && t.memHint.getLsbD 3, release := t.memHint.getLsbD 4, pc := r.pc, left := [0]
           lane := none, done := false } : Flight)
      (k.toNat < 13 → (k.toNat < 10 ∨ size = 4) →
        let cnt := if k.toNat = 9 then 2 * regs size else regs size
        IssuesAccess (.atom d x a z k) d.toNat cnt x 0#8 (fun s w t => can s w t ∧ t.cnt.loads < 255)
          (flight (.atom k.toNat) d.toNat cnt true) (fun _ _ t id => awaits t (regs size) id)) ∧
      (k.toNat < 13 → k.toNat ≠ 8 → k.toNat ≠ 9 → (k.toNat < 10 ∨ size = 4) →
        IssuesAccess (.red d x a z k) d.toNat (regs size) x 0x08#8 (fun s w t => can s w t ∧ t.cnt.stores < 255)
          (flight (.red k.toNat) 0 (regs size) false) (fun _ _ t _ => { t with cnt := { t.cnt with
            stores := t.cnt.stores + 1, storeCol := t.cnt.storeCol.set 0 (t.cnt.storeCol.getD 0 0 + 1) } }))

/-- R89, R216-R218, R222, R224, R225: an access that is next is performed, a plain one of 8 or 16 bytes word by word in an order that is
not promised: a load gives its registers the bytes of its location, a store and a `RED` change it, an atomic does both at once; with the
last word the counter of the thread falls. R206, R360: what its home does not take of a store is gone with it. R107: a store to a frame
word may wait for the end of the block. R389: one that needs a lane to another device takes it first. R384: one that its DETACHING die has
cancelled is performed or dropped, which is not promised (log 29), and gives nothing. -/
def Obligations.AccessesPerformed : Prop :=
  ∀ (s : State) (w : Wg) (t : Thread) (f : Flight), f.isNext s w t →
    let event := match f.acc with
      | .load _ => Instr.loadComplete f.id
      | .store => Instr.storeComplete f.id
      | _ => Instr.atomicPerform f.id
    let ready := match f.acc with
      | .atom _ => s.twinHeard w f = true ∧ s.unlogged w
      | .red _ => s.twinHeard w f = true
      | _ => True
    let gives := fun (u : State) (bs : List (Byte × Poison)) => u.performed f w t fun x => x.deliverRegs f.dst (regsOf false bs)
    let part := fun (act : Nat → State → Prop) => f.left ≠ [] → ∃ o ∈ f.left, ∃ u, act o u
    let rest := fun (u : State) (o : Nat) => (u.onFlight f.id fun g => { g with left := g.left.erase o }).advanceFree
    ready →
    (s.isCancelled w f = true →
      ∃ v, (v = s ∨ v = (s.performRest w f).countLate (w.core / 384)) ∧ Happens event s (v.performed f w t id)) ∧
    (s.isCancelled w f = false → ∀ l, s.lanesFirst w f = some l → Happens event s (s.onFlight f.id fun g => { g with lane := some l })) ∧
    (s.isCancelled w f = false → s.lanesFirst w f = none →
      (∀ sext, f.acc = .load sext → part fun o u =>
        let read := s.readLoc w f.acquire (f.loc.plus o) (min 4 f.size)
        let word := regsOf sext (read.2.map fun b => (b.1, f.poison.join b.2))
        u = (if f.left = [o] then read.1.performed f w t fun x => x.deliverPart f o true word
          else rest (read.1.onThread w.uid t.tid fun x => x.deliverPart f o false word) o) ∧
        Happens event s u) ∧
      (f.acc = .store → part fun o u =>
        u = (if s.frameDelays w f o = true then s
          else if f.left = [o] ∨ s.discards w f o = true then (s.performStore w f o).performed f w t id
          else rest (s.performStore w f o) o) ∧
        Happens event s u) ∧
      (∀ op, f.acc = .red op → Happens event s ((s.performAtom w f op false).1.performed f w t id)) ∧
      ∀ op, f.acc = .atom op →
        let both := s.performAtom w f op true
        Happens event s (gives both.1 both.2))

/-- R107, R206, R216-R218, R221, R224: what is read and written at a location: bank bytes and this die's memory at their home, a store word
by word, an atomic whole; a read of memory of which the core's L1 holds no word gives what memory holds. -/
def Obligations.AccessesReachTheirBytes : Prop :=
  ∀ (s : State) (w : Wg) (f : Flight) (a : Nat), Memory.wf s.mem = true → f.loc = .mem a → f.data.length = f.size →
    (∀ home n, regionOf a = 4 ∨ (regionOf a = 0 ∧ s.homeOf w.quad (s.tagOf w) .r a n = .here a ∧ w.held = [] ∧
        ∀ e ∈ s.l1, e.core = w.core → e.addr + 4 ≤ a ∨ a + n ≤ e.addr) →
      (s.readLoc w home (.mem a) n).2 = (List.range n).map (fun i => (Memory.read s.mem (a + i), s.poisonAt (a + i))) ∧
      (s.readLoc w home (.mem a) n).1.mem = s.mem ∧ (regionOf a = 4 → (s.readLoc w home (.mem a) n).1 = s)) ∧
    (∀ o, o < f.size → o % 4 = 0 → (regionOf a = 4 ∧ regionOf (a + o) = 4 ∨ s.isGuarded w = false ∧
        regionOf (a + o) = 0 ∧ s.homeOf w.quad (s.tagOf w) .w (a + o) (min 4 (f.size - o)) = .here (a + o)) →
      ∀ b, Memory.read (s.performStore w f o).mem b =
        if a + o ≤ b ∧ b < a + min (o + 4) f.size then f.data.getD (b - a) 0 else Memory.read s.mem b) ∧
    (∀ op back, regionOf a = 4 ∨ (regionOf a = 0 ∧ s.homeOf w.quad (s.tagOf w) .a a f.size = .here a) → w.twin = none →
      f.size = 4 ∨ f.size = 8 →
      let m := BitVec.ofNat (8 * f.size) (leNat (Memory.bytes s.mem a f.size))
      let x := BitVec.ofNat (8 * f.size) (leNat f.data)
      let new := if op = 0 then m + x else if op = 1 then (if m.toInt ≤ x.toInt then m else x)
        else if op = 2 then (if m.toNat ≤ x.toNat then m else x) else if op = 3 then (if x.toInt ≤ m.toInt then m else x)
        else if op = 4 then (if x.toNat ≤ m.toNat then m else x) else if op = 5 then m &&& x else if op = 6 then m ||| x
        else if op = 7 then m ^^^ x else x
      op < 9 → (s.performAtom w f op back).2.map (fun b => b.1) = Memory.bytes s.mem a f.size ∧
        ∀ b, Memory.read (s.performAtom w f op back).1.mem b =
          if a ≤ b ∧ b < a + f.size then (leBytes new.toNat f.size).getD (b - a) 0 else Memory.read s.mem b)

/-- R219: the cache forms act on the line of each thread's address, or do nothing. -/
def Obligations.CacheFormsComplete : Prop :=
  ∀ (x : BitVec 8) (a k : BitVec 4),
    let lines := fun (i : Instr) (act : State → Wg → State → Nat → State) =>
      CompletesBeyond i (fun _ r w => ∀ t ∈ r.acting w, canRead w t x 1 ∧ t.memHint &&& 0x18#8 = 0#8)
        (fun s r w => r.inTurn w s fun u t => match lineOf s w t x a k with
          | some l => act s w u l
          | none => u) (fun _ _ _ _ => []) (fun _ _ _ t => t)
    lines (.pfetch x a k) (fun s w u l => if regionOf l = 0 ∧ s.sliceAnswers (s.latch w.quad) l then
      (List.range 32).foldl (fun u i => u.fillL1 w.core (l + 4 * i)) u else u) ∧
    lines (.cinval x a k) (fun _ w u l => { u with l1 := u.l1.filter fun e => decide (e.core ≠ w.core ∨ e.addr / 128 * 128 ≠ l) }) ∧
    lines (.pfetchL2 x a k) (fun _ _ u _ => u)

/-- R225, R226, R233: a fence completes when what it waits for is: stores and copies of the masked colours, loads; an acquire
discards the words of the core's L1 that it does not own. -/
def Obligations.FencesComplete : Prop :=
  let clear := fun (c : Counters) (m : BitVec 8) =>
    ∀ j < 8, m.getLsbD j = true → c.storeCol.getD j 0 = 0 ∧ c.copyCol.getD j 0 = 0
  let fences := fun (i : Instr) (m : BitVec 8) (loads : Bool) (beyond : State → Run → Wg → State) =>
    CompletesBeyond i
      (fun _ r w => clear w.common m ∧ ∀ t ∈ r.acting w, clear t.cnt m ∧ (loads = true → t.cnt.loads = 0)) beyond
      (fun _ _ _ _ => []) (fun _ _ _ t => t)
  ∀ m : BitVec 8,
    fences (.fenceRel m) m false (fun s _ _ => s) ∧ fences .fenceAcq 0#8 true (fun s r w => s.acquired r w) ∧
    fences (.fenceFull m) m true (fun s r w => s.acquired r w)

/-- R234, R235: `MWAIT` lets the thread go on, as an acquire, where its condition holds for the bytes at the address now, and else
parks it with reason 4 until a write, or a look at the location, meets the condition. -/
def Obligations.MonitorsComplete : Prop :=
  let holds := fun (c : Nat) (m x : DWord) => if c = 0 then decide (x.toNat ≤ m.toNat) else if c = 1 then decide (m ≠ x) else decide (m = x)
  (∀ (d : BitVec 6) (x : BitVec 8) (a k : BitVec 4) (c : BitVec 3), c.toNat < 3 → x.toNat ≤ 0xF0 → x.toNat ≠ 0xEF →
    let ea := fun (s : State) (w : Wg) (t : Thread) => operandAddress s w t x a 8 k.toNat
    let at' := fun (s : State) (w : Wg) (t : Thread) => match locationOf s w .r true (ea s w t).val 8 with
      | .mem b => b
      | _ => 0
    let want := fun (s : State) (t : Thread) => (pairValue s t (2 * d.toNat)).1
    let met := fun (s : State) (w : Wg) (t : Thread) => holds c.toNat (s.monitorRead w (at' s w t)) (want s t)
    GoesBeyond (.mwait d x a c k)
      (fun s r w => s.noneInFlight w ∧ s.unlogged w ∧ ∀ t ∈ r.acting w, canName w t (2 * d.toNat) 2 ∧ canRead w t x 1 ∧
        t.memHint &&& 0x10#8 = 0#8 ∧ Reaches s w t .r true true false (ea s w t) 8 ∧
        locationOf s w .r true (ea s w t).val 8 = .mem (at' s w t))
      (fun s r w => if ∀ t ∈ r.acting w, met s w t = false then s else s.dropUnowned w.core)
      fun s r w t => .waiting (r.pc + 1)
        (if met s w t then .ready else .monitor (s.monitorAt w (at' s w t)) c.toNat (want s t) none)) ∧
  (∀ (s : State) (w : Wg) (b : Nat), regionOf b = 4 ∨ s.homeOf w.quad (s.tagOf w) .r b 8 = .here b →
    s.monitorRead w b = BitVec.ofNat 64 (leNat (Memory.bytes s.mem b 8)) ∧ s.monitorAt w b = b) ∧
  ∀ (s : State) (w : Wg) (t : Thread) (key a c : Nat) (x : DWord), s.sole w t → s.unlogged w →
    let woken := (s.onThread w.uid t.tid fun t => { t with place := .waiting key .ready }).dropUnowned w.core
    (∀ v, t.place = .waiting key (.monitor a c x (some v)) → Happens (.monitorWake w.uid t.tid) s woken) ∧
    (w.status ≠ .preempted → t.place = .waiting key (.monitor a c x none) →
      (holds c (s.monitorRead w a) x = true → Happens (.monitorPoll w.uid t.tid) s woken.advanceFree) ∧
      (holds c (s.monitorRead w a) x = false → Happens (.monitorPoll w.uid t.tid) s s.advanceFree))

/-- R250, R251, R261: the transaction barrier forms: a record is set up, an arrival counts and gives the phase before it, a wait
parks the thread with reason 3 while the phase is the old one, a test gives whether it has changed. That a record changes, and its old phase
is read, in the issuing step and in ascending `%tid` is the model's choice (log 50). -/
def Obligations.TransactionBarriersComplete : Prop :=
  (∀ (d : BitVec 7) (x : BitVec 8) (a k : BitVec 4),
    let ea := fun (s : State) (w : Wg) (t : Thread) => operandAddress s w t x a 16 k.toNat
    let rec' := fun (kind : AccKind) (s : State) (w : Wg) (t : Thread) => match locationOf s w kind true (ea s w t).val 16 with
      | .mem b => b
      | _ => 0
    let can := fun (kind : AccKind) (rd wr release : Bool) (s : State) (w : Wg) (t : Thread) => canName w t d.toNat 1 ∧
      canRead w t x 1 ∧ t.memHint &&& 0xF8#8 = 0#8 ∧ (ea s w t).val.toNat / 2 ^ 56 = 0xFE ∧
      Reaches s w t kind true rd wr (ea s w t) 16 ∧ locationOf s w kind true (ea s w t).val 16 = .mem (rec' kind s w t) ∧
      s.noneInFlight w ∧ t.cnt.loads < 255 ∧ t.cnt.stores < 255 ∧
      (release = true → t.cnt.loads = 0 ∧ t.cnt.stores = 0 ∧ t.cnt.copies = 0 ∧ w.common.stores = 0 ∧ w.common.copies = 0)
    let issues := fun (i : Instr) (can : State → Wg → Thread → Prop) (act : State → Run → Wg → State → Thread → State)
        (written : State → Run → Wg → Thread → List (Nat × Reg)) =>
      CompletesBeyond i (fun s r w => w.numbered ∧ ∀ t ∈ r.acting w, can s w t) (fun s r w => r.inTurn w s (act s r w)) written
        (fun _ _ _ t => t)
    let value := fun (s : State) (t : Thread) => t.reg s d.toNat
    let init := fun (s : State) (_ : Run) (w : Wg) (u : State) (t : Thread) =>
      let n := (value s t).val.toNat % 32768
      u.perform (rec' .w s w t) (leBytes (n + n * 65536) 16) (value s t).poison (w.core + 1)
    let arrive := fun (bytes : State → Thread → Reg) (s : State) (_ : Run) (w : Wg) (u : State) (t : Thread) =>
      u.tbarAdd (rec' .a s w t) true (bytes s t).val.toNat ((bytes s t).poison.join (u.poisonOf (rec' .a s w t) 8)) (w.core + 1)
    issues (.tbarInit d x a k) (fun s w t => can .w false true false s w t ∧
        ((value s t).poison = none → 0 < (value s t).val.toNat ∧ (value s t).val.toNat < 32768))
      init (fun _ _ _ _ => []) ∧
    issues (.tbarArrive d x a k) (can .a true true true) (arrive fun _ _ => ⟨0, none⟩)
      (fun s r w t =>
        let u := r.before w s (arrive (fun _ _ => ⟨0, none⟩) s r w) t
        [(d.toNat, ⟨if (u.tbarrier (rec' .a s w t)).phase then 1#32 else 0#32, u.poisonOf (rec' .a s w t) 8⟩)]) ∧
    issues (.tbarExpect d x a k) (fun s w t => can .a true true true s w t ∧
        ((value s t).poison = none → (value s t).val.toNat ≤ 2 ^ 24)) (arrive value)
      (fun _ _ _ _ => []) ∧
    (let changed := fun (s : State) (w : Wg) (t : Thread) =>
      decide ((s.tbarrier (rec' .r s w t)).phase ≠ (value s t).val.getLsbD 0)
    (x.toNat ≤ 0xF0 → x.toNat ≠ 0xEF → GoesBeyond (.tbarWait d x a k) (fun s r w => ∀ t ∈ r.acting w, can .r true false false s w t)
      (fun s r w => if ∀ t ∈ r.acting w, changed s w t = false then s else s.dropUnowned w.core)
      (fun s r w t => .waiting (r.pc + 1) (if changed s w t then .ready else .tbar (rec' .r s w t) ((value s t).val.getLsbD 0)))) ∧
    CompletesBeyond (.tbarTest d x a k) (fun s r w => s.unlogged w ∧ ∀ t ∈ r.acting w, can .r true false false s w t)
      (fun s r w => if ∀ t ∈ r.acting w, changed s w t = false then s else s.dropUnowned w.core)
      (fun s _ w t => [(d.toNat, ⟨if changed s w t then 1#32 else 0#32, (value s t).poison.join (s.poisonOf (rec' .r s w t) 4)⟩)])
      (fun _ _ _ t => t))) ∧
  ∀ (s : State) (a : Nat) (arrive : Bool) (n : Int) (p : Poison) (storer : Nat), Memory.wf s.mem = true →
    let b := s.tbarrier a
    (s.tbarAdd a arrive n p storer).tbarrier a = TBarrier.tested { b with
      pending := if arrive then (b.pending + 65535) % 65536 else b.pending, bytes := ((b.bytes + n) % 4294967296).toNat } ∧
    ∀ c, c < a ∨ a + 8 ≤ c → Memory.read (s.tbarAdd a arrive n p storer).mem c = Memory.read s.mem c

/-- R192, R193, R309: `CLD` brings words of memory to common registers when no store of the workgroup to them is in flight and a slot of the
calendars serves it, `CST` puts a store of common registers in flight. That `CLD` reads all its words in the issuing step, where R224 lets
a read of several words tear, is the model's choice (log 50). -/
def Obligations.CommonMemoryCompletes : Prop :=
  ∀ (d : BitVec 6) (a : BitVec 4) (z : BitVec 2) (i : BitVec 14),
    let size := 4 * 2 ^ z.toNat
    let cnt := 2 ^ z.toNat
    let ea := fun (w : Wg) => (⟨(addressOf w a).val + BitVec.ofNat 64 (4 * i.toNat), (addressOf w a).poison⟩ : AddrReg)
    let can := fun (kind : AccKind) (s : State) (w : Wg) => d.toNat % cnt = 0 ∧ d.toNat + cnt ≤ w.commons.length ∧
      (ea w).poison = none ∧ (ea w).val.toNat % size = 0 ∧
      s.translate w kind false (ea w).val size = .ok (locationOf s w kind false (ea w).val size) ∧
      s.scoreStall w.quad (locationOf s w kind false (ea w).val size) size = none
    (z.toNat < 3 →
      let read := fun (s : State) (w : Wg) => s.readLoc w false (locationOf s w .r false (ea w).val size) size
      CompletesUniformBeyond (.cld d a z i)
        (fun s _ w => can .r s w ∧ s.noneInFlight w ∧ s.locServed w (locationOf s w .r false (ea w).val size) = true ∧ ∀ b, locationOf s w .r false (ea w).val size = .mem b → regionOf b ≠ 1)
        (fun s _ w => (read s w).1) (fun s _ w => w.setCommons d.toNat (regsOf false (read s w).2))) ∧
    (z.toNat < 2 →
      let loc := fun (s : State) (w : Wg) => locationOf s w .w false (ea w).val size
      let regs := fun (w : Wg) => (List.range cnt).map fun j => w.creg (d.toNat + j)
      let poison := fun (w : Wg) => ((regs w).map fun r => r.poison).foldr Poison.join none
      CompletesUniformBeyond (.cst d a z i)
        (fun s _ w => can .w s w ∧ w.common.stores < 255 ∧
          (poison w = none ∨ ∀ b, loc s w = .mem b → regionOf b ≠ 2))
        (fun s r w => s.withFlights
          [{ id := s.nextId, wg := w.uid, tid := none, acc := .store, va := (ea w).val, loc := loc s w, size := size, dst := 0
             data := (regs w).flatMap fun r => leBytes r.val.toNat 4, poison := poison w, colour := 0, acquire := false
             release := false, pc := r.pc, left := (List.range cnt).map fun j => 4 * j, lane := none, done := false }])
        (fun _ _ w => { w with common := { w.common with
          stores := w.common.stores + 1, storeCol := w.common.storeCol.set 0 (w.common.storeCol.getD 0 0 + 1) } }))

/-- R71-R76: each hint sets its kind of pending state. -/
def Obligations.HintsComplete : Prop :=
  (∀ i, SetsHint (.hintImms i) fun h => { h with lit := i.signExtend 32, litSet := true }) ∧
  (∀ i, SetsHint (.hintImmh i) fun h => { h with lit := i ++ h.lit.extractLsb' 0 16, litSet := true }) ∧
  (∀ i, SetsHint (.hintImml i) fun h => { h with lit := h.lit.extractLsb' 16 16 ++ i, litSet := true }) ∧
  (∀ n p, SetsHint (.hintPred n p) fun h => { h with pred := some (p, decide (n = 1#1)) }) ∧
  (∀ n k r q c, k ≠ 3#2 → SetsHint (.hintMem n k r q c) fun h => { h with mem := some (n ++ k ++ r ++ q ++ c) }) ∧
  (∀ s f r, SetsHint (.hintRnd s f r) fun h => { h with rnd := some (s ++ f ++ r) }) ∧
  (∀ d, SetsHint (.hintDisp d) fun h => { h with disp := some d }) ∧
  (∀ b m, SetsHint (.hintDead b m) fun h => { h with dead := some (b, m) }) ∧
  (∀ n : BitVec 12, n.toNat ≤ 2048 → SetsHint (.hintSchedFill n) fun h => { h with sched := some (false, n.setWidth 16) }) ∧
  ∀ n, SetsHint (.hintSchedAge n) fun h => { h with sched := some (true, n) }

/-- R127, R128, R355: a group's writes to what its threads share leave one of the written values: `%tvec` of the workgroup, the
selection and the value of a tenant's counter. -/
def Obligations.SharedWritesComplete : Prop :=
  ∀ (s : State) (r : Run) (w : Wg), Smooth s r w → r.acting w ≠ [] →
    let only := fun (u : State) (w1 : Wg) => ∃ w', u.wg? w.uid = some w' ∧ w'.control = w1.control ∧
      ∀ tid t, w.thread? tid = some t → ∃ t', w'.thread? tid = some t' ∧
        if t ∈ r.group w then Became s u t t' [] t else Stayed s u t t'
    (∀ d : BitVec 7, (∀ t ∈ r.acting w, canName w t d.toNat 1 ∧ (t.reg s d.toNat).poison = none) →
      ∃ u, exec (.swr d 0x17#10) s = .next u ∧ Beside s u r w ∧ MovesOn s u r false ∧
        ∃ t ∈ r.acting w, only u { w with tvec := (t.reg s d.toNat).val &&& 0x03FFFFFD#32 }) ∧
    ∀ (n : BitVec 8) (ten : Tenant) (c : Ctr), n.toNat < 8 → s.tenant? (s.tagOf w) = some ten → ten.ctrs[n.toNat]? = some c →
      let becomes := fun (u : State) (p : Ctr → Prop) => Beside s u r w ∧ MovesOn s u r false ∧ only u w ∧ ∃ ten' c', u.tenant? (s.tagOf w) = some ten' ∧
        ten'.ctrs[n.toNat]? = some c' ∧ p c' ∧ ∀ k, k ≠ n.toNat →
          (ten'.ctrs[k]?).map (fun x => (x.event, x.period)) = (ten.ctrs[k]?).map fun x => (x.event, x.period)
      (∀ a : BitVec 8,
        let v := fun (t : Thread) => (operand s w t a).val
        (∀ t ∈ r.acting w, canRead w t a 1 ∧ (v t).toNat % 256 ≤ 32 ∧ (v t).toNat / 2 ^ 24 = 0 ∧
          ((v t).toNat % 256 = 32 ∨ (v t).toNat / 256 % 65536 = 0)) →
        ∃ u, exec (.cntsel n a) s = .next u ∧
          ∃ t ∈ r.acting w, becomes u fun c' => c'.event = (v t).toNat % 256 ∧ c'.period = (v t).toNat / 256 % 65536) ∧
      (c.event ≠ 1 → c.event ≠ 2 → ∃ u, exec (.cntz n) s = .next u ∧ becomes u fun c' => c' = { c with value := 0#64 })

/-! ### Engines (R243-R287, R393-R396) -/

/-- R243-R255: a copy of a thread or of the vamp goes to the copy engine with its two layout records as the issue reads them and the
registers it names, and the issuer counts it; one that fails a check of R247 completes with that reason.
R260: `CRESUME` lets a suspended copy of the tenant go on, `CCANCEL` ends it with status CANCELLED, also one of the workgroup's own; each
answers with a status in the register after its operand, which a poisoned operand poisons (R374). -/
def Obligations.CopiesIssue : Prop :=
  (∀ (a : BitVec 4) (sc : BitVec 8) (fs : BitVec 4) (c : BitVec 3) (m : BitVec 2), m.toNat < 2 →
    ∀ p ∈ [(Instr.copyT a sc fs c m, CopyForm.t), (.copyG a sc fs c m, .g), (.copyS a sc fs c m, .s), (.copyMc a sc fs c m, .mc),
      (.copyWb a sc fs c m, .wb)] ++ (if m = 0#2 then [(Instr.copyFill a sc fs c, CopyForm.fill)] else []),
    let dual := decide (m = 1#2)
    (sc.toNat < 0x80 →
      let reg := fun (s : State) (t : Thread) (i : Nat) => t.reg s (sc.toNat + i)
      let copy := fun (s : State) (r : Run) (w : Wg) (t : Thread) => copyIssued s w p.2 a fs c dual r.pc (some t.tid) (reg s t)
      CompletesBeyond p.1
        (fun s r w => CopyRoom s w a (r.acting w).length ∧ ∀ t ∈ r.acting w, t.memHint &&& 0x18#8 = 0#8 ∧ t.cnt.takeCopy fs ∧
          CopyOperands s w p.2 a fs dual sc.toNat w.quota (reg s t) ∧ ∀ i < 24, sc.toNat + i ∉ t.pending)
        (fun s r w => r.inTurn w s fun u t => (recordsTouched s w a u).installCopy (copy s r w t)) (fun _ _ _ _ => [])
        fun s r w t => { t with cnt := t.cnt.withCopy c (copy s r w t) }) ∧
    (0x80 ≤ sc.toNat → sc.toNat < 0xC0 →
      let reg := fun (w : Wg) (i : Nat) => w.creg (sc.toNat - 0x80 + i)
      let copy := fun (s : State) (r : Run) (w : Wg) => copyIssued s w p.2 a fs c dual r.pc none (reg w)
      CompletesUniformBeyond p.1
        (fun s r w => CopyRoom s w a 1 ∧ (∀ t ∈ r.everyone w, t.memHint &&& 0x18#8 = 0#8) ∧ w.common.takeCopy fs ∧
          CopyOperands s w p.2 a fs dual (sc.toNat - 0x80) w.commons.length (reg w))
        (fun s r w => (recordsTouched s w a s).installCopy (copy s r w))
        fun s r w => { w with common := w.common.withCopy c (copy s r w) })) ∧
  (∀ sc : BitVec 8, 0x80 ≤ sc.toNat → sc.toNat < 0xC0 →
    let n := sc.toNat - 0x80
    let found := fun (s : State) (w : Wg) =>
      let v := (w.creg n).val.toNat
      if v / 1024 ≠ 0 then (Except.error 7 : Except Nat CopyOp) else if 191 < v % 256 then .error 6
      else match s.copies.find? fun c => decide (c.quad = v % 256) && decide (c.slot = some (v / 256 % 4)) with
        | none => .error 6
        | some c => if c.tenant = s.tagOf w then .ok c else .error 1
    let forms := fun (i : Instr) (can : State → Wg → CopyOp → Prop) (act : State → CopyOp → State) =>
      CompletesUniformBeyond i
        (fun s _ w => n + 1 < w.commons.length ∧ s.isWave w = true ∧ ∀ c, found s w = .ok c → can s w c)
        (fun s _ w => match found s w with
          | .ok c => act s c
          | .error _ => s)
        (fun s _ w => withCommon w (n + 1) ⟨match found s w with
          | .ok _ => 0#32
          | .error st => BitVec.ofNat 32 st, (w.creg n).poison⟩)
    forms (.cresume sc) (fun _ _ _ => True) (fun s c => s.onCopy c.id fun c => if c.stage = .suspended then { c with stage := .moving } else c) ∧
    forms (.ccancel sc) (fun s w c => (∀ i ∈ s.inbound, i.copy ≠ c.id) ∧ c.wg ≠ some w.uid ∧
        ∀ v, c.wg.bind s.wg? = some v → v.twin ≠ some w.uid)
      (fun s c =>
        let ending := s.toLanding c c.next 3 0 0
        ((ending.copy? c.id).map fun d => (ending.tellTwin d).landCopy d).getD ending) ∧
    ∀ s r w c, SmoothAll s r w → n + 1 < w.commons.length → s.isWave w = true → found s w = .ok c →
      (s.copies.filter fun d => d.id = c.id) = [c] → (∀ i ∈ s.inbound, i.copy ≠ c.id) → c.wg = some w.uid →
      ∃ u w', exec (.ccancel sc) s = .next u ∧ u.wg? w.uid = some w' ∧ w'.creg (n + 1) = ⟨0#32, (w.creg n).poison⟩ ∧
        (∀ k, k ≠ n + 1 → w'.creg k = w.creg k) ∧ ∀ d ∈ u.copies, d.id = c.id → d.stage = .finished ∧ d.status = 3 ∧ d.slot = none)

/-- R262-R287: `MDESC` fills a descriptor slot, `MSTAT` reads one or the state of the engine; the other forms give the matrix engine an
operation of the workgroup's, which counts it. -/
def Obligations.MatrixFormsComplete : Prop :=
  let bound := fun (s : State) (w : Wg) (k : Nat) => k < 15 ∧ s.checkTag (s.tagOf w) 9 (w.quad * 15 + k) = true
  let commons := fun (w : Wg) (n : Nat) => (List.range 8).map fun k => (w.creg (n + k)).val
  let clean := fun (w : Wg) (n : Nat) => n + 8 ≤ w.commons.length ∧ ∀ k < 8, (w.creg (n + k)).poison = none
  let enqueues := fun (i : Instr) (can : State → Wg → Prop) (op : State → Wg → MatOp) =>
    CompletesUniformBeyond i
      (fun s _ w => can s w ∧ w.common.matrix < 255 ∧ s.reservations w.quad < 16 ∧ s.scoreFull (op s w) = false)
      (fun s _ w => s.enqueueOp (op s w)) (fun _ _ w => { w with common := { w.common with matrix := w.common.matrix + 1 } })
  let op := fun (w : Wg) (kind : MatKind) (words : List Word) => newOp (some w.uid) none w.gang w.quad kind words
  (∀ (c : BitVec 6) (k : BitVec 4), CompletesUniformBeyond (.mdesc c k) (fun s _ w => bound s w k.toNat ∧ clean w c.toNat)
    (fun s _ w => { s with slots := (List.range 8).foldl (fun t j =>
      Table.set 0#32 t (w.quad * 128 + k.toNat * 8 + j) (w.creg (c.toNat + j)).val) s.slots }) (fun _ _ w => w)) ∧
  (∀ k : BitVec 4, enqueues (.mma k) (fun s w => bound s w k.toNat) fun s w =>
    op w .pass ((List.range 8).map fun j => Table.get 0#32 s.slots (w.quad * 128 + k.toNat * 8 + j))) ∧
  (∀ c : BitVec 6,
    enqueues (.accrd c) (fun _ w => clean w c.toNat) (fun _ w => op w .accrd (commons w c.toNat)) ∧
    enqueues (.accwr c) (fun _ w => clean w c.toNat) (fun _ w => op w .accwr (commons w c.toNat)) ∧
    enqueues (.accscl c) (fun _ w => clean w c.toNat) (fun _ w => op w .accscl (commons w c.toNat)) ∧
    enqueues (.accz c) (fun _ w => clean w c.toNat) (fun _ w => op w .accz (commons w c.toNat))) ∧
  (∀ (a : BitVec 4) (m : BitVec 8), m ≠ 0#8 →
    let segs := (List.range 8).filter fun i => m.getLsbD i
    let off := fun (w : Wg) => (addressOf w a).val.toNat % 2 ^ 21
    enqueues (.wbinv a m)
      (fun s w => (∀ i ∈ segs, i < s.gangSegs w.gang) ∧ (a ≠ 0#4 → (addressOf w a).poison = none ∧
        (addressOf w a).val.toNat / 2 ^ 56 = 0xFE ∧ (addressOf w a).val.toNat % 2 ^ 56 < 2 ^ 21 ∧ off w % 128 = 0 ∧
        off w + 65536 * segs.length ≤ 2 ^ 21 ∧
        ∀ b, off w / 2 ^ 17 ≤ b → b ≤ (off w + 65536 * segs.length - 1) / 2 ^ 17 → s.bankOk w.quad (s.tagOf w) (some w.gang) b = true))
      (fun _ w => { op w .wbinv [] with mask := m.toNat, src := if a = 0#4 then none else some (off w) })) ∧
  ∀ (c : BitVec 6) (sel : BitVec 8),
    (sel.toNat < 15 → CompletesUniform (.mstat c sel) (fun _ _ w => c.toNat + 8 ≤ w.commons.length)
      fun s _ w => w.setCommons c.toNat ((List.range 8).map fun j =>
        ⟨if s.checkTag (s.tagOf w) 9 (w.quad * 15 + sel.toNat) then Table.get 0#32 s.slots (w.quad * 128 + sel.toNat * 8 + j) else 0#32, none⟩)) ∧
    (sel.toNat = 16 → CompletesUniform (.mstat c sel) (fun _ _ w => c.toNat + 2 ≤ w.commons.length)
      fun s _ w => w.setCommons c.toNat
        [⟨BitVec.ofNat 32 ((s.matops.filter fun o => decide (o.gang = w.gang) && !o.done).length + s.reservations w.quad * 256), none⟩,
          ⟨BitVec.ofNat 32 ((List.range 15).map fun k => if s.checkTag (s.tagOf w) 9 (w.quad * 15 + k) then 2 ^ k else 0).sum, none⟩])

/-- R393, R394: a collective contributes with its descriptor as it stands in memory, and the issuer counts it. -/
def Obligations.CollectivesIssue : Prop :=
  ∀ (a : BitVec 4) (sc : BitVec 8) (c : BitVec 3),
    ∀ p ∈ [(Instr.collAr a sc c, 0), (.collRs a sc c, 1), (.collAg a sc c, 2), (.collBc a sc c, 3)],
    let plan := fun (s : State) (r : Run) (w : Wg) (t : Option Thread) => (issueOf s r w p.1).collPlan p.2 a sc c t
    HandsOver p.1 sc a 64 plan (fun _ w _ t => canName w t sc.toNat 1)
      (fun _ w => sc.toNat - 0x80 < w.commons.length) (fun n => n.colls < 255)
      (fun n => { n with colls := n.colls + 1 }) (fun u x => u.installColl x) ∧
    ∀ s r w t u x, plan s r w t = .ok (u, x) →
      x.fn = p.2 ∧ x.wg = w.uid ∧ x.tid = t.map (fun t => t.tid) ∧ x.col = c.toNat ∧
      (x.stage = .sent ∨ ∃ reason, x.stage = .failed reason ∧ 0 < reason ∧ reason < 6) ∧
      ∀ b, s.translate w .r false (addressOf w a).val 64 = .ok (.mem b) → regionOf b = 4 →
        let field := fun (o n : Nat) => leNat (Memory.bytes s.mem (b + o) n)
        x.count = field 24 4 ∧ x.ranks = field 28 2 ∧ x.op = field 30 1 ∧ x.scope = field 31 1 % 8 ∧ x.cid = field 32 1 % 64 ∧
        x.root = field 34 2

/-! ### Instructions of the runtime, of debugging and of the supervisor (R208-R213, R300, R329, R334, R348, R349, R371) -/

/-- R208-R213: the translation buffer's instructions, tag queries, and the release of threads held by a fault of class runtime.
R329, R334: `RACK` closes a recall whose debt is paid or answers what is owed; one that closes seizes what is owed, unit by unit, and
stalls meanwhile; `LOSSRD` reads the loss records and the area of saved contents. The model's choices: one that closes a recall that still
owes its own core answers 0 and leaves that core to be seized as at the deadline (log 83); `KILL` posts a record of its kind (log 74);
`FRESUME` checks no more of the threads it releases than R213 lists (log 12); of a quad above 191 and a reserved selection `TBINV` answers 6 (log 105). -/
def Obligations.BindingFormsComplete : Prop :=
  (∀ (d : BitVec 6) (a b : BitVec 8),
    let quad := fun (w : Wg) (r : Run) => usource w r b
    (0x80 ≤ a.toNat → a.toNat < 0xC0 →
      let c := fun (w : Wg) (k : Nat) => w.creg (a.toNat - 0x80 + k)
      let entry := fun (s : State) (w : Wg) => imageEntry (s.tagOf w) (c w 0).val (c w 1).val (c w 2).val (c w 3).val
      let way := fun (w : Wg) => (c w 1).val.toNat / 2 ^ 15 % 16
      let bad := fun (w : Wg) => imageReserved (c w 1).val (c w 3).val
      let status := fun (s : State) (r : Run) (w : Wg) => s.tbldStatus (s.tagOf w) (quad w r) (way w) (entry s w) (bad w)
      let put := fun (s : State) (r : Run) (w : Wg) => s.tbldPut (quad w r) (way w) (entry s w)
      CompletesUniformBeyond (.tbld d a b)
        (fun s r w => d.toNat < w.commons.length ∧ a.toNat - 0x80 + 4 ≤ w.commons.length ∧ (a.toNat - 0x80) % 4 = 0 ∧
          canReadUniform w r b ∧ s.isWave w = true ∧ ∀ k < 4, (c w k).poison = none)
        (fun s r w => if status s r w = 0 then (put s r w).1 else s)
        (fun s r w => withCommon w d.toNat
          ⟨BitVec.ofNat 32 (status s r w + (if status s r w = 0 then (put s r w).2 else 0) % 65536 * 256), (uniformOperand w r b).poison⟩)) ∧
    (let targets := fun (s : State) (r : Run) (w : Wg) => s.tbinv (s.tagOf w) (usource w r a) (quad w r)
    GivesStatus (.tbinv d a b) d [a, b]
      (fun s r w => s.isWave w = true ∧ ∀ e ∈ (targets s r w).2, s.usesEntry (quad w r) e.2 = false)
      (fun s r w => ((targets s r w).1, (targets s r w).2.length))
      (fun s r w => (targets s r w).2.foldl (fun u e => u.tlbSetAt (quad w r) e.1 none) s) ∧
    ∀ s r w, SmoothAll s r w → d.toNat < w.commons.length → canReadUniform w r a → canReadUniform w r b → s.isWave w = true →
      (∃ e ∈ (targets s r w).2, s.usesEntry (quad w r) e.2 = true) →
      exec (.tbinv d a b) s = .next (((targets s r w).2.foldl (fun u e =>
        u.tlbSetAt (quad w r) e.1 (some { e.2 with leaving := true })) s).stallRun r 2)) ∧
    (let image := fun (s : State) (r : Run) (w : Wg) =>
      let i := usource w r a
      if 191 < quad w r ∨ 2047 < i then ([0, 0, 0, 0], 6)
      else if s.tagGet 5 (quad w r * 16 + i % 16) ≠ s.tagOf w then ([0, 0, 0, 0], 2)
      else match s.tlbGet (quad w r) i with
        | some e => (e.image (i % 16), 0)
        | none => ([0, 0, 0, 0], 1)
    CompletesUniform (.tbq d a b)
      (fun _ r w => d.toNat % 4 = 0 ∧ d.toNat + 4 ≤ w.commons.length ∧ canReadUniform w r a ∧ canReadUniform w r b)
      (fun s r w => w.setCommons d.toNat ((image s r w).1.mapIdx fun k v =>
        ⟨BitVec.ofNat 32 (v + if k = 3 then (image s r w).2 * 2 ^ 24 else 0), upoison w r a b⟩))) ∧
    CompletesUniform (.tagq d a b) (fun _ r w => d.toNat < w.commons.length ∧ canReadUniform w r a ∧ canReadUniform w r b)
      (fun s r w => withCommon w d.toNat ⟨
        if maxId (usource w r a) ≤ usource w r b then 0x06000000#32
        else if tagShown (s.tagOf w) (s.tagGet (usource w r a) (usource w r b)) then (s.tagGet (usource w r a) (usource w r b)).setWidth 32
        else 0x09000000#32, upoison w r a b⟩) ∧
    (let mode := fun (w : Wg) (r : Run) => usource w r a / 2 ^ 14 % 4
    let target := fun (s : State) (r : Run) (w : Wg) => s.wgAt (usource w r a % 1024) (usource w r a / 1024 % 16)
    GivesStatus (.fresume d a b) d [a, b]
      (fun s r w => s.isWave w = true ∧ (mode w r = 3 ∨ 65536 ≤ usource w r a)) (fun _ _ _ => (7, 0)) (fun s _ _ => s) ∧
    GivesStatus (.fresume d a b) d [a, b]
      (fun s r w => s.isWave w = true ∧ mode w r ≠ 3 ∧ usource w r a < 65536 ∧ (767 < usource w r a % 1024 ∨ target s r w = none))
      (fun _ _ _ => (6, 0)) (fun s _ _ => s) ∧
    ∀ v : Wg,
      let held := fun (w : Wg) (r : Run) => v.threads.filter fun t =>
        decide (t.place = .held .runtime) && (decide (usource w r b = 2 ^ 32 - 1) || decide (t.fpc = (uniformOperand w r b).val))
      let can := fun (s : State) (r : Run) (w : Wg) => s.isWave w = true ∧ mode w r ≠ 3 ∧ usource w r a < 65536 ∧
        usource w r a % 1024 ≤ 767 ∧ target s r w = some v
      let mine := fun (s : State) (w : Wg) => s.tagGet 1 v.core = s.tagOf w ∧ s.tagOf v = s.tagOf w
      GivesStatus (.fresume d a b) d [a, b] (fun s r w => can s r w ∧ v.core = usource w r a % 1024 ∧ ¬ mine s w) (fun _ _ _ => (1, 0)) (fun s _ _ => s) ∧
      GivesStatus (.fresume d a b) d [a, b] (fun s r w => can s r w ∧ v.core = usource w r a % 1024 ∧ mine s w ∧ held w r = [])
        (fun _ _ _ => (8, 0)) (fun s _ _ => s) ∧
      GivesStatus (.fresume d a b) d [a, b]
        (fun s r w => can s r w ∧ v.core = usource w r a % 1024 ∧ mine s w ∧ held w r ≠ [] ∧ v.uid ≠ w.uid ∧ mode w r < 2)
        (fun _ r w => (0, (held w r).length))
        (fun s r w => (held w r).foldl (fun u t =>
          if mode w r = 0 then (u.onThread v.uid t.tid fun y => { y with suppress := y.suppress || decide (t.fcause = 7#32 ∨ t.fcause = 8#32) }).resumeAt
            v.uid t.tid (t.fpc.toNat / 4) true (issueOf s r w (.fresume d a b)).sched
          else u.resumeAt v.uid t.tid (t.fpc.toNat / 4 + 1) false (issueOf s r w (.fresume d a b)).sched) s) ∧
      ∀ t0 : Thread, GivesStatus (.fresume d a b) d [a, b]
        (fun s r w => can s r w ∧ v.core = usource w r a % 1024 ∧ mine s w ∧ (held w r).head? = some t0 ∧ v.uid ≠ w.uid ∧ mode w r = 2 ∧
          s.barriers = [])
        (fun _ r w => (0, (held w r).length))
        (fun s r w => (s.postRecords v .system t0.fcause.toNat t0.fpc t0.finfo t0.faddr ((held w r).map fun t => t.tid)).terminate v.uid 3
          t0.fcause.toNat t0.fpc t0.finfo))) ∧
  (∀ (d : BitVec 6) (a b : BitVec 8),
    let named := fun (s : State) (r : Run) (w : Wg) => (s.tenant? (s.tagOf w)).bind fun t =>
      t.recalls.find? fun x => decide (x.seq % 2 ^ 32 = usource w r a) && !x.closing
    let others := fun (s : State) (w : Wg) (t : Tenant) (x : Recall) => (s.choosable t x).filter fun i => ¬ (x.kind = 1 ∧ i = w.core)
    GivesStatus (.rack d a b) d [a, b] (fun s r w => s.isWave w = true ∧ 1 < usource w r b) (fun _ _ _ => (7, 0)) (fun s _ _ => s) ∧
    GivesStatus (.rack d a b) d [a, b] (fun s r w => s.isWave w = true ∧ usource w r b ≤ 1 ∧ named s r w = none) (fun _ _ _ => (6, 0))
      (fun s _ _ => s) ∧
    (∀ x : Recall,
      GivesStatus (.rack d a b) d [a, b]
        (fun s r w => s.isWave w = true ∧ usource w r b = 0 ∧ named s r w = some x ∧ x.owed ≠ 0)
        (fun _ _ _ => (11, min x.owed 65535)) (fun s _ _ => s) ∧
      GivesStatus (.rack d a b) d [a, b]
        (fun s r w => s.isWave w = true ∧ usource w r b ≤ 1 ∧ named s r w = some x ∧
          (x.owed = 0 ∨ usource w r b = 1 ∧ ∀ t, s.tenant? (s.tagOf w) = some t → s.choosable t x = []))
        (fun _ _ _ => (0, 0)) (fun s _ w => s.closeRecall (s.tagOf w) x) ∧
      GivesStatus (.rack d a b) d [a, b]
        (fun s r w => s.isWave w = true ∧ usource w r b = 1 ∧ named s r w = some x ∧ x.owed ≠ 0 ∧ x.kind = 1 ∧
          ∀ t, s.tenant? (s.tagOf w) = some t → s.choosable t x ≠ [] ∧ others s w t x = [])
        (fun _ _ _ => (0, 0))
        (fun s _ w => s.onRecall (s.tagOf w) x.seq fun y => { y with deadline := min y.deadline s.ns, closing := true }) ∧
      ∀ s r w t id, SmoothAll s r w → d.toNat < w.commons.length → canReadUniform w r a → canReadUniform w r b → s.isWave w = true →
        usource w r b = 1 → named s r w = some x → x.owed ≠ 0 → s.tenant? (s.tagOf w) = some t →
        s.nextOf x (others s w t x) = some id →
        exec (.rack d a b) s = .next ((s.seizeFor t x id).stallRun r 2)) ∧
    (let k := fun (w : Wg) (r : Run) => usource w r a
    let id := fun (w : Wg) (r : Run) => usource w r b
    let span := fun (s : State) (w : Wg) (r : Run) => s.unitSpan (k w r) (id w r) none
    let owned := fun (s : State) (w : Wg) (r : Run) => s.checkTag (s.tagOf w) (k w r) (id w r) = true
    let busy := fun (s : State) (w : Wg) (r : Run) => k w r = 1 ∧ id w r = w.core ∨
      2 ≤ k w r ∧ k w r ≤ 4 ∧ s.inUse (k w r) (id w r) = true ∨ s.unitLive (k w r) (span s w r).1 = false
    let refused := fun (can : State → Wg → Run → Prop) (st : Nat) =>
      GivesStatus (.relinq d a b) d [a, b] (fun s r w => s.isWave w = true ∧ can s w r) (fun _ _ _ => (st, 0)) (fun s _ _ => s)
    refused (fun _ w r => k w r = 0 ∨ 9 < k w r ∨ maxId (k w r) ≤ id w r) 6 ∧
    refused (fun s w r => id w r < maxId (k w r) ∧ ¬ owned s w r) 1 ∧
    GivesStatus (.relinq d a b) d [a, b] (fun s r w => s.isWave w = true ∧ id w r < maxId (k w r) ∧ owned s w r ∧ busy s w r)
      (fun _ _ _ => (12, 0)) (fun s r w => s.unquiet (k w r) (span s w r).1 (span s w r).2) ∧
    GivesStatus (.relinq d a b) d [a, b]
      (fun s r w => s.isWave w = true ∧ id w r < maxId (k w r) ∧ owned s w r ∧ ¬ busy s w r ∧
        s.unitQuiet (k w r) (span s w r).1 (span s w r).2 = true)
      (fun s r w => (0, if k w r = 6 then extentValue (span s w r).2 else 0))
      (fun s r w => (s.toHolding (Tag.part (s.tagOf w)) (k w r) (span s w r).1 (span s w r).2).credit (s.tagOf w) (k w r) (span s w r).1
        (span s w r).2) ∧
    ∀ (s : State) (t : Tag) (part k id : Nat), 1 ≤ k → k ≤ 9 → k ≠ 6 → id < maxId k → Table.wf unboundTag s.tags = true →
      let u := (s.toHolding part k id 1).credit t k id 1
      u.tagGet k id = Tag.make part 0xFFF (Table.get 0#8 s.seizures (k * 2 ^ 32 + id)).toNat ∧ u.cleared k id 1) ∧
    let regs := fun (_ : State) (r : Run) (w : Wg) => d.toNat % 4 = 0 ∧ d.toNat + 8 ≤ w.commons.length ∧ canReadUniform w r a ∧
      canReadUniform w r b
    let eight := fun (r : Run) (w : Wg) (ws : List Word) => w.setCommons d.toNat (ws.map fun x => ⟨x, upoison w r a b⟩)
    let error := fun (st : Nat) => BitVec.ofNat 32 (st * 2 ^ 24) :: List.replicate 7 0#32
    ∀ t : Tenant,
      let can := fun (s : State) (r : Run) (w : Wg) => s.isWave w = true ∧ regs s r w ∧ s.tenant? (s.tagOf w) = some t
      let at' := fun (w : Wg) (r : Run) => t.losses[t.losses.length - (t.lossSeq - usource w r a)]?
      let kept := fun (w : Wg) (r : Run) => usource w r a < t.lossSeq ∧ t.lossSeq - usource w r a ≤ 256
      (∀ x : LossRec, CompletesUniform (.lossrd d a b) (fun s r w => can s r w ∧ usource w r b = 0 ∧ kept w r ∧ at' w r = some x)
        fun _ r w => eight r w [BitVec.ofNat 32 (x.kind + x.reason * 16), x.id, x.time.setWidth 32, (x.time >>> 32).setWidth 32,
          x.addr.setWidth 32, (x.addr >>> 32).setWidth 32, x.bytes.setWidth 32, (x.bytes >>> 32).setWidth 32]) ∧
      CompletesUniform (.lossrd d a b) (fun s r w => can s r w ∧ usource w r b = 0 ∧ ¬ kept w r) (fun _ r w => eight r w (error 13)) ∧
      CompletesUniform (.lossrd d a b) (fun s r w => can s r w ∧ usource w r b = 1)
        (fun _ r w => eight r w [BitVec.ofNat 32 t.lossSeq, BitVec.ofNat 32 (t.lossSeq - 256), BitVec.ofNat 32 t.areaOff,
          BitVec.ofNat 32 t.rsize, 0, 0, 0, 0]) ∧
      CompletesUniform (.lossrd d a b)
        (fun s r w => can s r w ∧ (2 < usource w r b ∨ usource w r b = 2 ∧ t.areaOff < usource w r a)) (fun _ r w => eight r w (error 7)) ∧
      CompletesUniformBeyond (.lossrd d a b) (fun s r w => can s r w ∧ usource w r b = 2 ∧ usource w r a ≤ t.areaOff)
        (fun s r w => (s.moveMem ((t.rbase + usource w r a) * 65536) (t.rbase * 65536) ((t.areaOff - usource w r a) * 65536)).onTenant
          (s.tagOf w) fun t => { t with areaOff := t.areaOff - usource w r a })
        (fun _ r w => eight r w (List.replicate 8 0#32)))

/-- R344-R349: the debug forms of a workgroup of a debug launch. -/
def Obligations.DebugFormsComplete : Prop :=
  ∀ (d : BitVec 6) (a b : BitVec 8),
    let dbg := fun (s : State) (w : Wg) => s.isDebug w = true
    let a' := fun (r : Run) (w : Wg) => usource w r a
    let b' := fun (r : Run) (w : Wg) => usource w r b
    (∀ (l : Launch) (k : Nat), GivesStatus (.dbpset d a b) d [a, b]
      (fun s r w => dbg s w ∧ s.launch? (b' r w) = some l ∧ l.tenant = s.tagOf w ∧ l.debug = true ∧ a' r w < 2 ^ 26 ∧ a' r w % 4 = 0 ∧
        s.comparators[k]? = some none ∧ ∀ j < k, ∃ c, s.comparators[j]? = some (some c))
      (fun _ _ _ => (0, k)) (fun s r w => { s with comparators := s.comparators.set k (some ⟨l.id, a' r w⟩) })) ∧
    GivesStatus (.dbpset d a b) d [a, b] (fun s r w => dbg s w ∧ s.launch? (b' r w) = none) (fun _ _ _ => (6, 0)) (fun s _ _ => s) ∧
    (∀ c : Comparator, GivesStatus (.dbpclr d a) d [a]
      (fun s r w => dbg s w ∧ a' r w < 16 ∧ s.comparators[a' r w]? = some (some c) ∧ ∀ l, s.launch? c.launch = some l → l.tenant = s.tagOf w)
      (fun _ _ _ => (0, 0)) (fun s r w => { s with comparators := s.comparators.set (a' r w) none })) ∧
    GivesStatus (.dbpclr d a) d [a] (fun s r w => dbg s w ∧ 15 < a' r w) (fun _ _ _ => (6, 0)) (fun s _ _ => s) ∧
    (let e := fun (s : State) (r : Run) (w : Wg) => if b' r w / 256 % 2 ^ 21 = 0 then (none : Option Watch)
      else some ⟨a' r w % 2 ^ 21, b' r w / 256 % 2 ^ 21, decide (a' r w / 2 ^ 24 % 2 = 1), decide (a' r w / 2 ^ 25 % 2 = 1), s.tagOf w⟩
    let at' := fun (r : Run) (w : Wg) => b' r w % 256 * 8 + a' r w / 2 ^ 21 % 8
    GivesStatus (.dwset d a b) d [a, b]
      (fun s r w => dbg s w ∧ b' r w % 256 < 192 ∧ a' r w < 2 ^ 26 ∧ b' r w < 2 ^ 29 ∧
        a' r w % 2 ^ 21 + b' r w / 256 % 2 ^ 21 ≤ 2 ^ 21 ∧
        ∀ p, Table.get none s.watches (at' r w) = some p → p.tenant = s.tagOf w)
      (fun _ _ _ => (0, 0)) (fun s r w => { s with watches := Table.set none s.watches (at' r w) (e s r w) })) ∧
    (let target := fun (s : State) (r : Run) (w : Wg) =>
      if 2 ^ 14 ≤ a' r w then (Except.error 7 : Except Nat Wg) else if 767 < a' r w % 1024 then .error 6
      else match s.wgAt (a' r w % 1024) (a' r w / 1024) with
        | none => .error 6
        | some v => if s.tagOf v ≠ s.tagOf w ∨ s.isDebug v = false then .error 1 else if v.uid = w.uid then .error 12 else .ok v
    let targets := fun (i : Instr) (srcs : List (BitVec 8)) (can : State → Run → Wg → Wg → Prop) (answer : State → Wg → Nat × Nat)
        (act : State → Run → Wg → Wg → State) =>
      (∀ st : Nat, GivesStatus i d srcs (fun s r w => dbg s w ∧ target s r w = .error st) (fun _ _ _ => (st, 0)) (fun s _ _ => s)) ∧
      ∀ v : Wg, GivesStatus i d srcs (fun s r w => dbg s w ∧ target s r w = .ok v ∧ can s r w v) (fun s _ _ => answer s v)
        (fun s r w => act s r w v)
    let held := fun (v : Wg) => v.threads.filter fun t => decide (t.place = .held .debug)
    targets (.dhalt d a) [a] (fun _ _ _ v => v.dbg = DebugState.running) (fun _ _ => (0, 0))
      (fun s _ _ v => s.onWg v.uid fun x => { x with dbg := .settling }) ∧
    targets (.dhalt d a) [a] (fun _ _ _ v => v.dbg ≠ DebugState.running) (fun _ _ => (0, 0)) (fun s _ _ _ => s) ∧
    targets (.dstat d a) [a] (fun _ _ _ _ => True)
      (fun _ v => (0, (if v.dbg = DebugState.running then 0 else if v.dbg = DebugState.settling then 1 else 2) + (held v).length * 4)) (fun s _ _ _ => s) ∧
    targets (.dresume d a b) [a, b] (fun _ r w _ => b' r w ≤ 1) (fun _ v => (0, (held v).length))
      (fun s r w v =>
        let u := (held v).foldl (fun u t =>
          (u.onThread v.uid t.tid fun y => { y with suppress := y.suppress || decide (t.fcause = 7#32 ∨ t.fcause = 8#32) }).resumeAt
            v.uid t.tid (t.fpc.toNat / 4) true (issueOf s r w (.dresume d a b)).sched) s
        if b' r w = 0 then u.onWg v.uid fun x => { x with dbg := .running } else u) ∧
    targets (.trace d a b) [a, b] (fun s r w v => b' r w ≤ 1 ∧ ∃ l, s.launch? v.launch = some l ∧ l.record = true) (fun _ _ => (0, 0))
      (fun s r w v => s.onWg v.uid fun x => { x with trace := decide (b' r w = 1) }) ∧
    (∀ e : Stepping, GivesStatus (.dstep d a b) d [a, b]
      (fun s r w => dbg s w ∧ (issueOf s r w (.dstep d a b)).underWay = some e ∧ s.stepRunning e = false ∧ e.wg ≠ w.uid)
      (fun s _ _ => (0, (s.endStep e).2)) (fun s _ _ => (s.endStep e).1)) ∧
    (∀ st : Nat, GivesStatus (.dstep d a b) d [a, b]
      (fun s r w => dbg s w ∧ (issueOf s r w (.dstep d a b)).underWay = none ∧ target s r w = .error st) (fun _ _ _ => (st, 0)) (fun s _ _ => s)) ∧
    (∀ v : Wg, GivesStatus (.dstep d a b) d [a, b]
      (fun s r w => dbg s w ∧ (issueOf s r w (.dstep d a b)).underWay = none ∧ target s r w = .ok v ∧ v.dbg ≠ .settled)
      (fun _ _ _ => (12, 0)) (fun s _ _ => s)) ∧
    (∀ s r w v t key ws, SmoothAll s r w → r.port < 2 → dbg s w → d.toNat < w.commons.length → canReadUniform w r a → canReadUniform w r b →
      (issueOf s r w (.dstep d a b)).underWay = none → target s r w = .ok v → s.wg? v.uid = some v → v.dbg = .settled →
      b' r w < v.nthr → v.thread? (b' r w) = some t →
      (t.place = .waiting key .ready ∨ t.place = .held .debug ∧ key = t.fpc.toNat / 4) → s.stepWords v key 256 = .ok ws →
      uniformWord (ws.getLastD 0#32) = false → ws.getLastD 0#32 ≠ 0x00400000#32 →
      ∃ u q t', exec (.dstep d a b) s = .next u ∧ { r with stall := some 2 } ∈ u.runs ∧ u.mem = s.mem ∧
        q ∈ u.runs ∧ q.core = v.core ∧ 2 ≤ q.port ∧ q.wg = v.uid ∧ q.key = key ∧ q.groups = [[t.tid]] ∧ q.words = ws ∧ q.idx = 0 ∧
        q.stall = none ∧ (⟨r.core, r.port, w.uid, v.uid, t.tid⟩ : Stepping) ∈ u.stepping ∧
        u.thread? v.uid t.tid = some t' ∧ t'.place = .running ∧
        (t.isHeld = true → t'.hints = t.saved.getD Hints.none ∧
          t'.suppress = (t.suppress || decide (t.fcause = 7#32 ∨ t.fcause = 8#32))) ∧
        (t.isHeld = false → t'.hints = t.hints ∧ t'.suppress = t.suppress)) ∧
    let image := fun (s : State) (r : Run) (w : Wg) => match target s r w with
      | .error st => (List.replicate 11 0#32, st, 0)
      | .ok (v : Wg) => if v.dbg = DebugState.settled then s.dpcrd v (b' r w) else (List.replicate 11 0#32, 12, 0)
    CompletesUniform (.dpcrd d a b)
      (fun s r w => dbg s w ∧ d.toNat % 4 = 0 ∧ d.toNat + 12 ≤ w.commons.length ∧ canReadUniform w r a ∧ canReadUniform w r b)
      (fun s r w => w.setCommons d.toNat (((image s r w).1 ++
        [BitVec.ofNat 32 ((image s r w).2.1 + (image s r w).2.2 % 65536 * 256)]).map fun x => ⟨x, upoison w r a b⟩)))

/-- R371, R372: a configuration register is read by those that may, and written by partition 0's supervisor; a calendar word is written once
it has come into effect. R366: the write of a locked register raises `LOCKED`, which ends the workgroup, and changes no register. -/
def Obligations.ConfigurationFormsComplete : Prop :=
  ∀ (d : BitVec 6) (a b : BitVec 8),
    let place := fun (w : Wg) (r : Run) => cfgWhere (usource w r a)
    (d.toNat % 2 = 0 →
      let read := fun (s : State) (r : Run) (w : Wg) => match place w r with
        | none => (0#32, 6#32)
        | some (blk, i) => if s.mayRead (s.tagOf w) blk i then (s.cfgRead blk i, 0#32) else (0#32, 9#32)
      CompletesUniform (.cfgr d a) (fun _ r w => d.toNat + 2 ≤ w.commons.length ∧ canReadUniform w r a)
        fun s r w => withCommon (withCommon w d.toNat ⟨(read s r w).1, (uniformOperand w r a).poison⟩) (d.toNat + 1)
          ⟨(read s r w).2, (uniformOperand w r a).poison⟩) ∧
    let writes := fun (can : State → Run → Wg → Prop) (status : State → Run → Wg → Nat) (beyond : State → Run → Wg → State) =>
      CompletesUniformBeyond (.cfgw d a b)
        (fun s r w => d.toNat < w.commons.length ∧ canReadUniform w r a ∧ canReadUniform w r b ∧ (uniformOperand w r b).poison = none ∧
          s.tagOf w &&& 0xFFFF00#24 = 0#24 ∧ can s r w) beyond
        (fun s r w => withCommon w d.toNat ⟨BitVec.ofNat 32 (status s r w), (uniformOperand w r a).poison⟩)
    writes (fun _ r w => place w r = none) (fun _ _ _ => 6) (fun s _ _ => s) ∧
    ∀ blk i : Nat,
      writes (fun _ r w => place w r = some (blk, i) ∧ cfgReadOnly blk i = true) (fun _ _ _ => 7) (fun s _ _ => s) ∧
      writes (fun s r w => place w r = some (blk, i) ∧ cfgReadOnly blk i = false ∧ s.cfgLocked blk = false ∧
          cfgRevokes (usource w r a) (uniformOperand w r b).val = none ∧
          (blk = 2 → s.calOk (i / 256) (i / 64 % 4) (i % 64) (uniformOperand w r b).val = false ∨
            s.cfgGet (usource w r a) = (uniformOperand w r b).val ∧
              Table.get 0x10101010#32 s.calActive (usource w r a) = (uniformOperand w r b).val))
        (fun s r w => (s.cfgWrite blk i (uniformOperand w r b).val).2) (fun s r w => (s.cfgWrite blk i (uniformOperand w r b).val).1) ∧
      ∀ s r w, SmoothAll s r w → s.only w → w.status = .resident → s.barriers = [] → r.everyone w ≠ [] →
        (∀ t ∈ r.everyone w, t.tid < 2048) → d.toNat < w.commons.length → canReadUniform w r a → canReadUniform w r b →
        (uniformOperand w r b).poison = none → s.tagOf w &&& 0xFFFF00#24 = 0#24 → place w r = some (blk, i) → cfgReadOnly blk i = false →
        s.cfgLocked blk = true →
        ∃ u v x, exec (.cfgw d a b) s = .next u ∧ u.wg? w.uid = some v ∧ v.status = .finished x false ∧ x.ended = 1 ∧ x.cause = 0x0F ∧
          x.fpc = BitVec.ofNat 32 (4 * r.pc) ∧ x.finfo = (uniformOperand w r a).val ∧ u.cfg = s.cfg ∧ u.mem = s.mem

/-- R298, R300, R301: `LNCH.POOL` appends a continuation record to a pool, `LNCH.GO` a command to a ring, each for the vamp or for
one thread of the group, and answers in the register after its operands. A queue whose control block or ring lies beside an ABSENT die
is left alone (log 108): that case is not stated. -/
def Obligations.LaunchFormsComplete : Prop :=
  ∀ (a : BitVec 4) (sc : BitVec 8), sc.toNat < 0xC0 →
    let released := fun (w : Wg) => w.common.stores = 0 ∧ w.common.copies = 0 ∧
      ∀ t ∈ w.threads, t.cnt.loads = 0 ∧ t.cnt.stores = 0 ∧ t.cnt.copies = 0
    let can := fun (s : State) (w : Wg) => released w ∧ w.twin = none ∧ s.unlogged w ∧ (addressOf w a).poison = none
    let regs := fun (s : State) (w : Wg) (o : Option Thread) (k : Nat) => match o with
      | some t => t.reg s (sc.toNat + k)
      | none => w.creg (sc.toNat - 0x80 + k)
    let completes := fun (i : Instr) (count : Nat) (can : State → Run → Wg → Option Thread → Prop)
        (beyond : State → Run → Wg → Option Thread → State) (result : State → Run → Wg → Option Thread → Reg) =>
      (0x80 ≤ sc.toNat → CompletesUniformBeyond i
        (fun s r w => sc.toNat - 0x80 + count ≤ w.commons.length ∧ can s r w none) (fun s r w => beyond s r w none)
        (fun s r w => withCommon w (sc.toNat - 0x80 + count - 1) (result s r w none))) ∧
      (sc.toNat < 0x80 → ∀ t, CompletesBeyond i
        (fun s r w => r.acting w = [t] ∧ w.numbered ∧ sc.toNat + count ≤ w.quota ∧ t.pending = [] ∧ can s r w (some t))
        (fun s r w => beyond s r w (some t)) (fun s r w _ => [(sc.toNat + count - 1, result s r w (some t))]) (fun _ _ _ t => t))
    let tid := fun (o : Option Thread) => o.map fun t => t.tid
    (let loc := fun (s : State) (w : Wg) => locationOf s w .a true (addressOf w a).val 32
    let desc := fun (s : State) (r : Run) (w : Wg) => (issueOf s r w (.lnchPool a sc)).poolDesc (loc s w)
    let slot := fun (s : State) (r : Run) (w : Wg) => (desc s r w).vbase + BitVec.ofNat 64 (16 * (desc s r w).count)
    let at' := fun (s : State) (r : Run) (w : Wg) => locationOf s w .w false (slot s r w) 16
    let answers := fun (ok : State → Run → Wg → Option Thread → Prop) (word : State → Run → Wg → Nat)
        (beyond : State → Run → Wg → Option Thread → State) =>
      completes (.lnchPool a sc) 4
        (fun s r w o => can s w ∧ (addressOf w a).val.toNat / 2 ^ 56 = 0 ∧ (addressOf w a).val.toNat % 32 = 0 ∧
          s.translate w .a true (addressOf w a).val 32 = .ok (loc s w) ∧ (∀ k < 3, (regs s w o k).poison = none) ∧ ok s r w o)
        beyond (fun s r w _ => ⟨BitVec.ofNat 32 (word s r w), (desc s r w).poison⟩)
    answers (fun s _ w o => 2 ^ 24 ≤ (regs s w o 0).val.toNat) (fun _ _ _ => 7) (fun s _ _ _ => s) ∧
    answers (fun s r w o => (regs s w o 0).val.toNat < 2 ^ 24 ∧ (desc s r w).capacity ≤ (desc s r w).count) (fun _ _ _ => 10)
      (fun s _ _ _ => s) ∧
    ∀ b c : Nat, answers
      (fun s r w o => (regs s w o 0).val.toNat < 2 ^ 24 ∧ (desc s r w).count < (desc s r w).capacity ∧ loc s w = .mem b ∧
        s.translate w .w false (slot s r w) 16 = .ok (at' s r w) ∧ at' s r w = .mem c)
      (fun s r w => (desc s r w).count * 256)
      (fun s r w o =>
        let x := issueOf s r w (.lnchPool a sc)
        x.storeNow (x.storeNow s (tid o) ((addressOf w a).val + 20) (.mem (b + 20)) (leBytes ((desc s r w).count + 1) 4)) (tid o)
          (slot s r w) (.mem c)
          ((((List.range 3).map fun k => (regs s w o k).val).flatMap fun v => leBytes v.toNat 4) ++ leBytes 0 4))) ∧
    (let bytes := fun (s : State) (w : Wg) => s.readLoc w false (locationOf s w .r false (addressOf w a).val 64) 64
    let submitted := fun (s : State) (w : Wg) (o : Option Thread) =>
      (if o.isSome then s else (bytes s w).1).submit (s.tagOf w) (regs s w o 0).val.toNat (bytes s w).2
    completes (.lnchGo a sc) 2
      (fun s _ w o => can s w ∧ (regs s w o 0).poison = none ∧ (addressOf w a).val.toNat % 64 = 0 ∧
        s.translate w .r false (addressOf w a).val 64 = .ok (locationOf s w .r false (addressOf w a).val 64))
      (fun s _ w o => (submitted s w o).1) (fun s _ w o => ⟨BitVec.ofNat 32 (submitted s w o).2, none⟩)) ∧
    ∀ (s : State) (tag : Tag) (q : Queue) (bs : List (Byte × Poison)), s.queue? q.q = some q → q.q < 2 ^ 16 →
      let ring := leNat (Memory.bytes s.mem q.qcb 8)
      let lg := leNat (Memory.bytes s.mem (q.qcb + 8) 1)
      let wr := leNat (Memory.bytes s.mem (q.qcb + 12) 4)
      let rd := leNat (Memory.bytes s.mem (q.qcb + 16) 4)
      (q.owner ≠ tag → s.submit tag q.q bs = (s, 1)) ∧
      (q.owner = tag → s.queueOut q = false → lg < 4 ∨ 16 < lg ∨ ring % 64 ≠ 0 → s.submit tag q.q bs = (s, 7)) ∧
      (q.owner = tag → s.queueOut q = false → 4 ≤ lg → lg ≤ 16 → ring % 64 = 0 → 2 ^ lg ≤ (wr + 2 ^ 32 - rd) % 2 ^ 32 → s.submit tag q.q bs = (s, 10)) ∧
      (q.owner = tag → s.queueOut q = false → 4 ≤ lg → lg ≤ 16 → ring % 64 = 0 → (wr + 2 ^ 32 - rd) % 2 ^ 32 < 2 ^ lg →
        s.submit tag q.q bs = ((s.perform (ring + 64 * (wr % 2 ^ lg)) (bs.map fun b => b.1)
          ((bs.map fun b => b.2).foldl Poison.join none) 0).writeNat (q.qcb + 12) 4 (wr + 1), 0))

/-! ### Events of threads and workgroups (R41-R48, R58, R178, R310, R346, R351, R352, R378, R379) -/

/-- R42, R310: of the candidates of the tenant that a free port takes, one that 31 others have passed by goes first, then one that is full
or old enough; the lowest key, then age, then slot decide. -/
def Obligations.SelectionOrder : Prop :=
  (∀ cs c, selectOf cs = some c → c ∈ cs ∧
    if ∃ d ∈ cs, 31 ≤ d.passes then
      ∀ d ∈ cs, d.passes < c.passes ∨ d.passes = c.passes ∧ (c.key < d.key ∨ c.key = d.key ∧ c.slot ≤ d.slot)
    else
      let full := fun (d : Candidate) => d.fill ≤ d.ready ∨ d.ageLimit ≤ d.age
      ((∃ d ∈ cs, full d) → full c) ∧ ∀ d ∈ cs, (full c → full d) →
        c.key < d.key ∨ c.key = d.key ∧ (d.age < c.age ∨ d.age = c.age ∧ c.slot ≤ d.slot)) ∧
  (∀ cs, cs ≠ [] → (selectOf cs).isSome) ∧
  ∀ (s : State) (core : Nat) (cs : List Candidate) (t : Tag), s.portTenant core cs = some t → (∃ c ∈ cs, c.tag = t) ∧
    ∀ c ∈ cs, s.deficitOf core c.tag < s.deficitOf core t ∨
      s.deficitOf core c.tag = s.deficitOf core t ∧ t.toNat ≤ c.tag.toNat

/-- R41-R46, R310: the selector takes ready threads into a run and a round of a port's shares begins; R178: a sleeper wakes; R346: a halted
workgroup settles; R58: one that is over retires with its exit record; R351: a core cycle counts. How far time goes on with a cycle that
belongs to no die's clock is a free value (log 4), and what a cycle of the model stands for its choice (log 71). -/
def Obligations.ThreadEventsComplete : Prop :=
  (∀ (s : State) (core port : Nat) (tag : Tag) (c : Candidate) (w : Wg) (ws : List Word), s.portFree core port = true →
    s.portTenant core (s.candidates core) = some tag → selectOf ((s.candidates core).filter fun c => c.tag = tag) = some c →
    s.only w → c.wg = w.uid → s.fetchBlock w c.key = .ok ws → s.fetchWaits w c.key true 64 = false →
    let tids := ((s.entriesAt w c.key).flatMap w.readyIn).map fun t => t.tid
    ∃ u w', exec (.runSelect core port) s = .next u ∧ u.wg? w.uid = some w' ∧
      { core := core, port := port, wg := w.uid, key := c.key, uniform := decide (ws.head? = some ublkWord), groups := groupsOf tids
        words := ws, idx := 0, grp := 0, stall := none, parked := [], armed := s.comparators } ∈ u.runs ∧ u.mem = s.mem ∧
      ∀ tid t, w.thread? tid = some t → ∃ t', w'.thread? tid = some t' ∧ t'.control = t.control ∧
        t'.place = if tid ∈ tids then .running else t.place) ∧
  (∀ (s : State) (w : Wg) (t : Thread) (k till : Nat), s.sole w t → t.place = .waiting k (.sleep till) →
    let now := (if w.core < 384 then s.die0 else s.die1).cycles
    (till ≤ now → Happens (.sleepExpiry w.uid t.tid) s (s.onThread w.uid t.tid fun t => { t with place := .waiting k .ready })) ∧
    (now < till → Happens (.sleepExpiry w.uid t.tid) s s)) ∧
  (∀ (s : State) (w : Wg), s.only w → w.quiet = true →
    (w.dbg = .settling → (∀ r ∈ s.runs, r.wg ≠ w.uid) →
      Happens (.workgroupSettled w.uid) s (s.onWg w.uid fun w => { w with dbg := .settled })) ∧
    ((∀ t ∈ w.threads, t.place = .exited) → s.barriers = [] → w.twin = none → s.isGuarded w = false →
      ∀ x, w.status = .resident ∧ x = ⟨0, 0, 0, 0, []⟩ ∨ w.status = .finished x false →
        ∃ u, exec (.workgroupRetire w.uid) s = .next u ∧ u.wg? w.uid = some { w with status := .finished x true } ∧
          (∀ l, s.launch? w.launch = some l → l.exits = 0 → u.mem = s.mem) ∧
          (∀ l, s.launch? w.launch = some l → l.exits ≠ 0 → s.writable (l.exits + 128 * w.num) 1 →
            u.mem = Memory.writeAll s.mem (l.exits + 128 * w.num) (exitBytes w.num x w.stalls)) ∧
          (∀ l, s.launch? w.launch = some l → ¬ s.writable (l.exits + 128 * w.num) 1 → u.mem = s.mem) ∧
          ∀ g, s.gang? w.gang = some g → (∀ v ∈ s.wgs, v.gang = w.gang → v.uid ≠ w.uid → ∃ y, v.status = .finished y true) →
            u.gang? w.gang = some { g with status := .retired, room := [], banks := 0, accs := 0, segs := 0 })) ∧
  (∀ (s : State) (die : Nat), die < 2 →
    (s.dieRuns die = false → Happens (.coreCycle die) s { s with ns := s.ns + 1 + Config.tick s.freeCtr, freeCtr := s.freeCtr + 1 }) ∧
    (s.dieRuns die = true → s.logPend = [] → ∃ u, exec (.coreCycle die) s = .next u ∧ u.mem = s.mem ∧ s.ns < u.ns ∧
      (u.die? die) = { s.die? die with cycles := (s.die? die).cycles + 1 } ∧ u.die? (1 - die) = s.die? (1 - die) ∧
      ∀ w, s.only w → w.isResident = true → w.core / 384 = die → u.wg? w.uid = some (if w.issuing then { w with issuing := false }
        else { w with stalls := w.stalls.set (s.stallOf w) (min (w.stalls.getD (s.stallOf w) 0 + 1) (2 ^ 48 - 1)) }))) ∧
  ∀ (s : State) (core : Nat), ∃ u, exec (.runPortRound core) s = .next u ∧ u.mem = s.mem ∧ u.wgs = s.wgs ∧
    (∀ c t, c ≠ core → u.deficitOf c t = s.deficitOf c t) ∧
    let tags := ((s.wgs.filter fun w => decide (w.core = core) && w.isResident).map s.tagOf).eraseDups
    let share := fun t : Tag => (s.cfgGet (0x01000000 + 8 * Tag.part t)).toNat / 256 % 256
    ∀ t : Tag, u.deficitOf core t = if t ∈ tags then
        min (s.deficitOf core t + (2048 * share t / (tags.map share).sum : Nat)) (2 * (2048 * share t / (tags.map share).sum : Nat))
      else 0

/-- R377-R379: a guarded workgroup that is rolled back, with its twin if it has one that goes on, stands as just after its boundary;
twins compare the stores they held. That counters and arrivals are zero after a rollback is log 73 (DEDUCED), that a workgroup whose twin
has ended goes on alone log 78 (DEDUCED), and that a silent error advances the number of CW3's error records log 94 (DESIGN CHOICE). -/
def Obligations.GuardEventsComplete : Prop :=
  (∀ (s : State) (w : Wg) (x : Shadow), s.only w → w.status = .rollingBack → w.shadow = some x → w.quiet = true →
    (s.paired w = false ∨ ∃ q, w.twin = some q.uid ∧ q.uid ≠ w.uid ∧ s.only q ∧ q.mayRollBack = true) →
    (x.threads.map fun t => t.tid).Nodup →
    ∃ u w', exec (.guardRollback w.uid) s = .next u ∧ u.wg? w.uid = some w' ∧ w'.status = .resident ∧ w'.quota = x.quota ∧
      w'.commons = x.commons ∧ w'.addrs = x.addrs ∧ w'.tvec = x.tvec ∧ w'.held = [] ∧
      (∀ b ∈ u.barriers, b.scope = 0 → b.inst = w.uid → b ∈ x.barriers ∨ (b.phase = 0 ∧ b.arrived = [])) ∧
      ∀ t ∈ x.threads, ∃ t', w'.thread? t.tid = some t' ∧ t'.bank = t.bank ∧ t'.preds = t.preds ∧ t'.fflags = t.fflags ∧ t'.cnt = (match t.place with
          | .exited => t.cnt
          | _ => Counters.zero) ∧
        ∀ k on, t.place = .waiting k on → t'.place = .waiting k .ready) ∧
  ∀ (s : State) (p q : Wg), s.only p → s.only q → p.uid ≠ q.uid → p.twin = some q.uid → p.primary = true → p.status = .resident →
    q.status = .resident → (∀ t ∈ p.threads, t.place = .exited) → (∀ t ∈ q.threads, t.place = .exited) → p.quiet = true →
    q.quiet = true → p.agreed = false → s.barriers = [] →
    let sign := fun (w : Wg) => (w.held.map fun h =>
      (Config.sha256Low (leBytes h.addr 8 ++ h.data ++ leBytes h.mask.toNat 4)).toNat).sum % 2 ^ 64
    (sign p = sign q → ∃ u p' q', exec (.twinSignatureExchange p.uid) s = .next u ∧ u.wg? p.uid = some p' ∧ u.wg? q.uid = some q' ∧
      p'.held = [] ∧ q'.held = [] ∧ p'.agreed = true ∧ q'.agreed = true ∧ u.mem = (p.held.foldl (fun s h => s.performHeld p h) s).mem) ∧
    (sign p ≠ sign q → p.mismatched = false → q.mismatched = false →
      ∃ u p' q', exec (.twinSignatureExchange p.uid) s = .next u ∧ u.wg? p.uid = some p' ∧ u.wg? q.uid = some q' ∧ u.mem = s.mem ∧
        p'.status = .rollingBack ∧ q'.status = .rollingBack ∧ p'.mismatched = true ∧ q'.mismatched = true) ∧
    (sign p ≠ sign q → p.mismatched = true →
      ∃ u p' q' x y, exec (.twinSignatureExchange p.uid) s = .next u ∧ u.wg? p.uid = some p' ∧ u.wg? q.uid = some q' ∧ u.mem = s.mem ∧
        p'.status = .finished x false ∧ q'.status = .finished y false ∧ x.ended = 1 ∧ y.ended = 1 ∧ x.cause = 9 ∧ y.cause = 9 ∧
        u.outbox = s.outbox ++ [.silentError p.launch p.num] ∧ u.errSeq = s.errSeq + 1)

/-! ### Events of the engines (R239, R249, R258, R259, R274-R277, R395, R396) -/

/-- R239, R249, R258, R259: a copy moves its elements, lands, hands on its follow-on pass, ends with its scoreboard entries free; one
that misses translation is suspended with a record; a write that reaches a bank is checked against the bank's tag. R274-R277: a segment
is granted by priority and then age, its sums are added when it ends, an operation that completes frees its entries. R395, R396: a
contribution counts in its phase, which it may complete or fail; its destination receives the result. That `MCDROP` saturates is the
model's choice (log 107). -/
def Obligations.EngineEventsComplete : Prop :=
  (∀ (s : State) (c : CopyOp), s.copy? c.id = some c →
    let landed := ∀ i ∈ s.inbound, i.copy ≠ c.id
    let ended := fun (u : State) => (∀ e ∈ u.score, e.op ≠ c.id) ∧ ∀ d ∈ u.copies, d.id = c.id → d.stage = .finished ∧ d.slot = none
    (∀ s1 n, c.stage = .moving → c.form ≠ .mc → s.mayMove c = true →
      s.moveElems c c.next (c.shape.boxSize - c.next) = (s1, n, none) →
      Happens (.copyComplete c.id) s (s1.toLanding c n 0 0 0).advanceFree) ∧
    (c.stage = .landing → landed → s.awaitsTwin c = false → c.fs = none → ∃ u, exec (.copyComplete c.id) s = .next u ∧ ended u) ∧
    (∀ k, c.fs = some k → c.status = 0 →
      (c.stage = .landing → landed → s.awaitsTwin c = false → ∃ u, exec (.copyComplete c.id) s = .next u ∧ ∀ d ∈ u.copies, d.id = c.id → d.stage = .following) ∧
      (c.stage = .following → s.reservations c.quad < 16 → 0 < s.scoreFree c.quad →
        ∃ u o, exec (.followOnEnqueue c.id) s = .next u ∧ o ∈ u.matops ∧ o.kind = .pass ∧ o.quad = c.quad ∧ o.wg = c.wg ∧ o.tid = c.tid ∧
          (s.checkTag c.tenant 9 (c.quad * 15 + k) = true →
            o.words = (List.range 8).map fun j => Table.get 0#32 s.slots (c.quad * 128 + k * 8 + j)) ∧
          ∀ d ∈ u.copies, d.id = c.id → d.stage = .finished)) ∧
    ∀ s1 k va slot, c.form ≠ .mc → s.mayMove c = true → s.runCopy c = (s1, some (k, va)) → c.slot = none →
      s1.freeSlot c.quad = some slot →
      ∃ u d, exec (.copySuspend c.id) s = .next u ∧ u.copy? c.id = some d ∧ d.stage = .suspended ∧ d.slot = some slot ∧
        d.missed = some (k.code, va) ∧
        ∀ x, s1.tenant? c.tenant = some x → ∃ y r, u.tenant? c.tenant = some y ∧ y.pendFaults = x.pendFaults ++ [r] ∧ r.cause = 0x0D ∧
          r.finfo = BitVec.ofNat 32 (9 + k.code * 16 + slot * 64) ∧ r.addr = BitVec.ofNat 64 va) ∧
  (∀ (s : State) (i : Inbound), (s.inbound.find? fun j => decide (j.id = i.id)) = some i → i.mask.length = i.data.length →
    s.inboundServed i = true →
    (s.checkTag i.tag 2 i.bank = true → Memory.wf s.mem = true → ∃ u, exec (.bankInboundWrite i.id) s = .next u ∧
      ∀ b, let a := 2 ^ 52 + i.bank * 2 ^ 17 + i.off
        let old := Memory.read s.mem b
        Memory.read u.mem b = if a ≤ b ∧ b < a + i.data.length then
          (old &&& ~~~(i.mask.getD (b - a) 0)) ||| (i.data.getD (b - a) 0 &&& i.mask.getD (b - a) 0) else old) ∧
    (s.checkTag i.tag 2 i.bank = false → ∃ u, exec (.bankInboundWrite i.id) s = .next u ∧ u.mem = s.mem ∧
      (u.cfgGet (0x0B000000 + i.bank)).toNat = min ((s.cfgGet (0x0B000000 + i.bank)).toNat + 1) 0xFFFFFFFF)) ∧
  (∀ (s : State) (quad : Nat) (o : MatOp), (∀ p ∈ s.matops, p.quad = quad → p.granted = false) → s.arbitrate quad = some o →
    (∃ before after, s.matops = before ++ o :: after ∧ o.quad = quad ∧ s.eligible o = true ∧
      (∀ p ∈ before, p.quad = quad → s.eligible p = true → s.opPrio o < s.opPrio p) ∧
      ∀ p ∈ after, p.quad = quad → s.eligible p = true → s.opPrio o ≤ s.opPrio p) ∧
    ∃ u, exec (.segmentGrant quad) s = .next u ∧ u.mem = s.mem ∧ u.acc = s.acc ∧
      u.matops = s.matops.map fun p => if p.id = o.id then { p with granted := true } else p) ∧
  (∀ (s : State) (quad : Nat) (o : MatOp), (s.matops.find? fun p => decide (p.quad = quad ∧ p.granted = true)) = some o →
    let k := o.kdone + min 64 (o.steps - o.kdone)
    ∃ u, exec (.segmentEnd quad) s = .next u ∧ u.mem = s.mem ∧ u.acc = (s.runSegment o).acc ∧
      (∀ p ∈ u.matops, p.id = o.id → p.granted = false ∧ p.kdone = k ∧ p.ended = decide (o.steps ≤ k)) ∧
      (o.steps ≤ k → ∀ e ∈ u.score, e.op ≠ o.id)) ∧
  (∀ (s : State) (o : MatOp), s.matop? o.id = some o → s.mayComplete o = true →
    let after := if o.reason = 0 then s.transfer o else s
    ∃ u, exec (.matrixOpComplete o.id) s = .next u ∧ u.acc = after.acc ∧ u.mem = (after.matRecord o).mem ∧
      (∀ e ∈ u.score, e.op ≠ o.id) ∧ ∀ p ∈ u.matops, p.id = o.id → p.done = true) ∧
  (∀ (s : State) (c : Contribution), s.coll? c.id = some c → s.mayCount c = true → (s.colls.map fun d => d.id).Nodup →
    let counted := s.onColl c.id fun c => { c with stage := .counted }
    let phase := s.phaseOf c ++ [{ c with stage := .counted }]
    let full := ∀ r, r < c.ranks → ∃ d ∈ phase, d.rank = r
    ((∃ d ∈ s.phaseOf c, d.agrees c = false) → ∃ u, exec (.collContribution c.id) s = .next u ∧
      ∀ d ∈ phase, ∃ e ∈ u.colls, e.id = d.id ∧ e.stage = .failed 6) ∧
    ((∀ d ∈ s.phaseOf c, d.agrees c = true) →
      (¬ full → c.scope ≠ 4 → Happens (.collContribution c.id) s counted.advanceFree) ∧
      (full → ∃ u, exec (.collContribution c.id) s = .next u ∧
        ∀ d ∈ phase, ∃ e ∈ u.colls, e.id = d.id ∧ e.stage = .result (collResult d (counted.sources c (counted.phaseOf c)))))) ∧
  ∀ (s : State) (c : Contribution), s.coll? c.id = some c →
    (∀ r, c.stage = .failed r → Happens (.collectiveComplete c.id) s (s.sealColl c r)) ∧
    ∀ a n bs, c.stage = .result bs → c.dst = [(a, n)] → regionOf a = 4 → bs.length = n → c.stampPa = none → Memory.wf s.mem = true →
      ∃ u, exec (.collectiveComplete c.id) s = .next u ∧ ∀ b, Memory.read u.mem b =
        if a ≤ b ∧ b < a + n then (bs.getD (b - a) (0, none)).1 else Memory.read s.mem b

/-! ### Events of queues and commands (R288-R302) -/

/-- R288-R302: a queue is created, its privileged fields rewritten, it is mapped into a slot or found tampered, leaves its slot, and its
next command is taken; a command that begins starts a launch, a pool launch or a copy, signals, waits; a launch that is over leaves the
device; a token bucket ticks. That a queue or command beside an ABSENT die waits, and a request to create one there is BUSY, is the model's
choice (log 108). -/
def Obligations.QueueEventsComplete : Prop :=
  let privileged := fun (r : QueueReq) => leBytes r.owner.toNat 4 ++
    [BitVec.ofNat 8 r.pcap, BitVec.ofNat 8 r.world, BitVec.ofNat 8 r.bucket] ++ List.replicate 121 0#8
  let legal := fun (r : QueueReq) => r.q < 65536 ∧ r.pcap < 32 ∧ r.world < 16 ∧ r.bucket < 16 ∧ r.qcb < 0xC000000000
  let holds := fun (q : Queue) (r : QueueReq) => q.owner = r.owner ∧ q.pcap = r.pcap ∧ q.world = r.world ∧ q.bucket = r.bucket
  (∀ (s : State) (r : QueueReq), Memory.wf s.mem = true → legal r →
    (r.qcb % 256 = 0 → s.mayNameQueue r = true → s.owned r.owner 3#3 r.qcb 256 = true → s.queue? r.q = none → s.writable r.qcb 256 →
      ∃ u q, exec (.queueCreate r) s = .next u ∧ u.queue? r.q = some q ∧ holds q r ∧ q.qcb = r.qcb ∧ q.qstate = 0 ∧ q.slot = none ∧
        q.cmds = [] ∧ Memory.bytes u.mem (r.qcb + 128) 128 = privileged r ∧ Memory.read u.mem (r.qcb + 9) = 0#8 ∧
        u.outbox = s.outbox ++ [.status 0]) ∧
    (r.qcb % 256 = 0 → s.mayNameQueue r = true → s.owned r.owner 3#3 r.qcb 256 = true → s.queue? r.q ≠ none ∨ s.hbmOut r.qcb = true →
      Happens (.queueCreate r) s (s.tell (.status 12))) ∧
    ∀ x, s.queue? r.q = some x → r.hyper = true → s.writable x.qcb 256 →
      ∃ u q, exec (.qcbShadowWrite r) s = .next u ∧ u.queue? r.q = some q ∧ holds q r ∧ q.qcb = x.qcb ∧
        q.qstate = (if r.clear = true ∧ x.qstate = 3 then 0 else x.qstate) ∧ Memory.bytes u.mem (x.qcb + 128) 128 = privileged r ∧
        u.outbox = s.outbox ++ [.status 0]) ∧
  (∀ (s : State) (x : Queue), s.queue? x.q = some x → Memory.wf s.mem = true → s.writable x.qcb 256 → s.queueOut x = false →
    let ring := leNat (Memory.bytes s.mem x.qcb 8)
    let lg := leNat (Memory.bytes s.mem (x.qcb + 8) 1)
    (∀ k, x.slot = none → s.partValid (Tag.part x.owner) = true → x.qstate = 0 → 0 < s.waitingCmds x → x.dry = false →
      0 < s.bucketLevel x.bucket → s.slotFor x = some k →
      s.owned x.owner 3#3 x.qcb 256 = true → 4 ≤ lg → lg ≤ 16 → ring % 64 = 0 → s.owned x.owner 1#3 ring (64 * 2 ^ lg) = true →
      (Memory.bytes s.mem (x.qcb + 128) 128 = x.shadowBytes → x.owner ≠ unboundTag →
        ∃ u y, exec (.queueMap x.q) s = .next u ∧ u.queue? x.q = some y ∧ y.slot = some k ∧ y.qstate = 1 ∧
          Memory.read u.mem (x.qcb + 9) = 1#8 ∧ u.tagGet 8 k = x.owner) ∧
      (Memory.bytes s.mem (x.qcb + 128) 128 ≠ x.shadowBytes →
        ∃ u y, exec (.queueMap x.q) s = .next u ∧ u.queue? x.q = some y ∧ y.slot = none ∧ y.qstate = 3 ∧
          Memory.read u.mem (x.qcb + 9) = 3#8 ∧ u.outbox = s.outbox ++ [.tamper x.q])) ∧
    (∀ c ∈ x.cmds, c.begun = true) →
      (∀ k st, x.slot = some k → x.leaving = some st →
        ∃ u y, exec (.queueUnmap x.q) s = .next u ∧ u.queue? x.q = some y ∧ y.slot = none ∧ y.qstate = st ∧ y.leaving = none ∧
          y.cmds.map Cmd.seen = x.cmds.map Cmd.seen) ∧
      (∀ k, x.slot = some k → x.leaving = none → 0 < s.waitingCmds x →
        let rd := leNat (Memory.bytes s.mem (x.qcb + 16) 4)
        ∃ u y, exec (.commandTake x.q) s = .next u ∧ u.queue? x.q = some y ∧
          y.cmds.map Cmd.seen = x.cmds.map Cmd.seen ++ [(rd, Memory.bytes s.mem (ring + 64 * (rd % 2 ^ lg)) 64, false)] ∧
          Memory.bytes u.mem (x.qcb + 16) 4 = leBytes (rd + 1) 4)) ∧
  (∀ (s : State) (x : Queue) (c : Cmd), x.begins s c →
    let payload := Memory.bytes s.mem c.payload 128
    let starts := fun (e : Instr) (l : Launch) => s.launchBad x l payload = none →
      ∃ u, exec e s = .next u ∧ u.mem = s.mem ∧ u.launchSeq = (s.launchSeq + 1) % 2 ^ 32 ∧
        u.launches = s.launches ++ [{ l with id := u.launchSeq }] ∧
        ((u.gangs.drop s.gangs.length).filter fun g => !g.isTwin).map (fun g => (g.num, g.die, g.status)) =
          (List.range ((l.nwg + l.wpg - 1) / l.wpg)).map (fun k => (k, k % 2, GangStatus.never)) ∧
        ∀ y, u.queue? x.q = some y → y.cmds.all (fun d => decide (d.idx ≠ c.idx) || d.begun) = true
    (c.type = 1 → s.owned x.owner 1#3 c.payload 128 = true →
      starts (.launch x.q) (launchFrom x c.idx payload) ∧
      ∀ st info, s.launchBad x (launchFrom x c.idx payload) payload = some (st, info) →
        Happens (.launch x.q) s (s.completeCmd x.q c.idx 0 st 0 info)) ∧
    (∀ rs, c.type = 2 → s.owned x.owner 1#3 c.payload 128 = true → s.poolRecords x.owner c.pool = .ok rs →
      starts (.launchPool x.q) ((launchFrom x c.idx payload).ofPool (binned rs))) ∧
    (∀ s1 op, c.type = 3 → s.queueWaits c.quad x.owner c.payload = false → s.queueCopy x c = some (s1, op) → 0 < s.scoreFree c.quad →
      Happens (.copyq x.q) s ((s1.markBegun x.q c.idx).installCopy op)) ∧
    (c.type = 4 → (∀ d ∈ x.cmds, d.begun = true → d.type ≠ 4) → x.cmds.head? = some c → s.owned x.owner 3#3 c.payload 8 = true →
      Happens (.signalq x.q) s (((s.markBegun x.q c.idx).writeNat c.payload 8 (leNat (Memory.bytes s.mem c.payload 8) + 1)).completeCmd x.q
        c.idx 0 0 0 0)) ∧
    (c.type = 5 → s.owned x.owner 1#3 c.payload 8 = true →
      let v := leNat (Memory.bytes s.mem c.payload 8)
      (c.value ≤ v → Happens (.waitq x.q) s (s.completeCmd x.q c.idx 0 0 0 0)) ∧
      (v < c.value → Happens (.waitq x.q) s (s.markBegun x.q c.idx)))) ∧
  (∀ (s : State) (x : Queue) (c : Cmd), s.queue? x.q = some x → (x.cmds.find? fun d => d.begun && decide (d.type = 5)) = some c →
    let v := leNat (Memory.bytes s.mem c.payload 8)
    (c.met = true ∨ (s.hbmOut c.payload = false ∧ c.value ≤ v) → Happens (.waitqComplete x.q) s (s.completeCmd x.q c.idx 0 0 0 0)) ∧
    (c.met = false → v < c.value → Happens (.waitqComplete x.q) s s)) ∧
  (∀ (s : State) (l : Launch), s.launch? l.id = some l → s.launchOver l = true →
    let account := if l.account = 0 then s
      else s.writeOut l.account ((List.range 256).flatMap fun k => leBytes (Table.get 0 l.num k) 8)
    let ends := match l.queue with
      | some q => account.completeCmd q l.cmd l.id (s.launchStatus l).1 0 (s.launchStatus l).2
      | none => account
    ∃ u, exec (.launchComplete l.id) s = .next u ∧ u.mem = ends.mem ∧ u.launch? l.id = none ∧ (∀ w ∈ u.wgs, w.launch ≠ l.id) ∧
      (∀ g ∈ u.gangs, g.launch ≠ l.id) ∧ ∀ k, k ≠ l.id → u.launch? k = s.launch? k) ∧
  ∀ (s : State) (p : Nat),
    let depth := ((s.cfgGet (0x01000000 + 8 * p + 5)).toNat : Int)
    let rate := ((s.cfgGet (0x01000000 + 8 * p + 4)).toNat / 512 % 256 : Int)
    let level := max (min (Table.get 0 s.buckets p + rate) depth - s.bucketQuads p) (-depth)
    (0 < level → ∃ u, exec (.bucketTick p) s = .next u ∧ u.buckets = Table.set 0 s.buckets p level ∧ u.mem = s.mem ∧
      ∀ x, s.queue? x.q = some x → x.bucket = p → (s.queues.filter fun y => y.q = x.q) = [x] →
        u.queue? x.q = some { x with dry := x.dry && !(decide (0 < rate) && decide (depth ≤ 4 * level)) }) ∧
    (level ≤ 0 → ∃ u, exec (.bucketTick p) s = .next u ∧ u.buckets = Table.set 0 s.buckets p level ∧
      ∀ x, s.queue? x.q = some x → x.bucket = p → (s.queues.filter fun y => y.q = x.q) = [x] → ∃ y, u.queue? x.q = some y ∧ y.dry = true ∧
        ((∀ c ∈ x.cmds, c.begun = true) → y.slot = none ∧ (x.slot ≠ none ∨ x.qstate ≤ 2 → y.qstate = 2)))

/-! ### Events of distributors, gangs and launches (R303-R316, R365) -/

/-- R303-R316: a gang is placed with its workgroups ready at their first keys, or comes back from its saved image, or persistent gangs of
lower priority make room for it; gangs are stolen, wait for a quad, are pre-empted, saved; calendars and time slices change; a watchdog
ends its launch. The clock of the calendars is log 64 (DEDUCED), network cycles as core cycles log 80 (DEDUCED), what counts as a protected
context and its epoch log 17 (DEDUCED), what a context's image holds log 72 (DESIGN CHOICE). -/
def Obligations.GangEventsComplete : Prop :=
  (∀ (s : State) (die : Nat) (l : Launch) (g : Gang) (p : Spot), s.NothingOwed die → s.choosePlace die = some (l, g, p, none) →
    s.gang? g.uid = some g →
    let placed := fun (u : State) => (∃ h, u.gang? g.uid = some h ∧ h.status = .placed ∧ h.quad = p.quad ∧ h.bank0 = p.bank0 ∧
      h.acc0 = p.acc0 ∧ h.seg0 = p.seg0 ∧ h.accs = l.acc ∧ h.segs = l.wbuf ∧ h.banks = if l.guarded then 2 * l.banks else l.banks) ∧
      (l.world < 16 → s.cfgSorted → u.latch p.quad = l.world)
    (g.status = .never → (∀ w ∈ s.wgs, w.uid < s.nextId) →
      ∃ u, exec (.gangPlace die) s = .next u ∧ placed u ∧ ∀ k core, p.cores[k]? = some core →
        ∃ w, w ∈ u.wgs ∧ w.gang = g.uid ∧ w.launch = l.id ∧ w.rank = k ∧ w.num = g.num * l.wpg + k ∧ w.core = core ∧
          w.status = .resident ∧ w.quota = l.regs ∧ w.budget = l.regs ∧ w.commons = List.replicate l.commons ⟨0, none⟩ ∧
          addressOf w 1#4 = ⟨l.args, none⟩ ∧ w.threads.map (fun t => t.tid) = List.range (l.threadsOf w.num) ∧
          ∀ t ∈ w.threads, t.control = (startThread t.tid l.regs none).control ∧
            ∃ key, (l.startKeys w.num)[t.tid]? = some key ∧ t.place = .waiting key .ready) ∧
    (g.status = .saved → (s.wgs.map fun w => w.uid).Nodup →
      ∃ u, exec (.gangPlace die) s = .next u ∧ placed u ∧ ∀ w ∈ s.wgs, w.gang = g.uid → w.status = .preempted →
        ∃ v, u.wg? w.uid = some v ∧ v.status = .resident ∧ v.core ∈ p.cores ∧ v.quota = w.quota ∧ v.commons = w.commons ∧
          v.addrs = w.addrs ∧ v.threads.map (fun t => (t.tid, t.control, t.bank)) = w.threads.map fun t => (t.tid, t.control, t.bank))) ∧
  (∀ (s : State) (die : Nat) (vs : List Gang), s.NothingOwed die → s.choosePlace die = none → s.choosePreempt die = some vs →
    (∃ l g, s.nextGang l die = some g ∧ ∀ v ∈ vs, ∃ m, s.launch? v.launch = some m ∧ m.persistent = true ∧ l.prio < m.prio) ∧
    ∃ u, exec (.gangPlace die) s = .next u ∧ ∀ v ∈ vs, ∃ h, u.gang? v.uid = some h ∧ h.status = .draining) ∧
  (∀ (s : State) (die : Nat) (l : Launch), die < 2 → s.choosePlace die = none → s.die0.endp = .attached → s.die1.endp = .attached →
    (s.launchOrder.find? fun l => (s.shareOf l (1 - die)).any fun g => decide (g.status = .never)) = some l →
    let never := (s.shareOf l (1 - die)).filter fun g => decide (g.status = .never)
    let taken := (never.drop (never.length - min 8 (never.length / 2))).map fun g => g.num
    Happens (.workSteal die) s
      { s with gangs := s.gangs.map fun g => if g.launch = l.id ∧ g.num ∈ taken then
          { g with die := if g.isTwin then 1 - die else die, waitSince := none } else g }) ∧
  (∀ (s : State) (die : Nat) (l : Launch) (g : Gang) (t q : Nat), s.launchOrder = [l] → s.nextGang l die = some g → g.waitSince = some t →
    t + 2000000 ≤ s.ns → (∀ r ∈ s.reserved, r.2 ≠ g.uid + 1) → s.bestQuad l g = some q →
    Happens (.placementReservation die) s { s with reserved := Table.set 0 s.reserved q (g.uid + 1) } ∧
    q / 96 = g.die ∧ Table.get 0 s.reserved q = 0 ∧ s.latch q = l.world ∧ ∃ n, s.mustRetire l g q = some n ∧
      ∀ r m, r / 96 = g.die → Table.get 0 s.reserved r = 0 → s.latch r = l.world → s.mustRetire l g r = some m → n < m ∨ n = m ∧ q ≤ r) ∧
  (∀ (s : State) (die cls : Nat), die < 2 → cls < 4 →
    let period := if cls = 0 ∨ cls = 1 then 16384 else if cls = 2 then 2048 else 256
    let word := fun i => 0x02000000 + 256 * die + 64 * cls + i
    (s.die? die).cycles % period = 0 → Table.wf 0x10101010#32 s.calActive = true →
      ∃ u, exec (.calendarWrap die cls) s = .next u ∧ u.mem = s.mem ∧ u.cfg = s.cfg ∧
        ∀ a, Table.get 0x10101010#32 u.calActive a =
          if word 0 ≤ a ∧ a < word 64 then s.cfgGet a else Table.get 0x10101010#32 s.calActive a) ∧
  (∀ (s : State) (g : Gang), s.gang? g.uid = some g → s.waveGang g = true → Happens (.preempt g.uid) s s) ∧
  (∀ (s : State) (g : Gang), s.gang? g.uid = some g → g.status = .placed → s.waveGang g = false → s.twinGang g = none → s.barriers = [] →
    ∃ u, exec (.preempt g.uid) s = .next u ∧ u.gang? g.uid = some { g with status := .draining } ∧ u.mem = s.mem ∧
      (∀ r ∈ u.runs, r.uniform = false → ∀ w, u.wg? r.wg = some w → w.gang ≠ g.uid) ∧
      ∀ r w t, s.runs.filter (fun q => decide (q.wg = w.uid)) = [r] → w.gang = g.uid → r.uniform = false → r.parked = [] → s.sole w t →
        t ∈ r.everyone w → ∃ x k, u.thread? w.uid t.tid = some x ∧ x.place = .waiting k .ready ∧ r.key ≤ k ∧ k ≤ r.pc + 1 ∧
          x.control = t.control) ∧
  (∀ (s : State) (g : Gang), s.gang? g.uid = some g → g.status = .draining → s.drained g.uid = true → s.twinGang g = none →
    Memory.wf s.mem = true →
    let lo := 2 ^ 52 + (g.quad * 16 + g.bank0) * 2 ^ 17
    let epoch := Table.get 0 s.epochs (4 * g.uid)
    ∃ u h, exec (.preemptSave g.uid) s = .next u ∧ u.gang? g.uid = some h ∧ h.status = .saved ∧ h.banks = 0 ∧ h.accs = 0 ∧
      h.segs = 0 ∧ (∀ i b, (i, b) ∈ h.savedBanks ↔ i < g.banks * 2 ^ 17 ∧ b ≠ 0 ∧ Memory.read s.mem (lo + i) = b) ∧
      (∀ w, s.only w → w.gang = g.uid → w.status = .resident → ∃ v, u.wg? w.uid = some v ∧ v.status = .preempted ∧
        v.commons = w.commons ∧ v.addrs = w.addrs ∧ v.quota = w.quota) ∧
      (s.gangWorld g = 0 → u.mem = s.mem) ∧
      (s.gangWorld g ≠ 0 → h.sealedEpoch = some epoch ∧ u.epochs = Table.set 0 s.epochs (4 * g.uid) ((epoch + 1) % 2 ^ 64) ∧
        ∀ i, i < g.banks * 2 ^ 17 → Memory.read u.mem (lo + i) = 0)) ∧
  (∀ (s : State) (quad entry : Nat) (e : Word), quad < 192 → Table.wf 0 s.slice = true → (s.sliceList quad)[entry]? = some e →
    entry = s.sliceDue (s.sliceList quad) → entry ≠ Table.get 0 s.slice quad ∨ s.foreignOn quad ≠ [] →
    ∃ u, exec (.timeSliceBoundary quad entry) s = .next u ∧
      (∀ q, Table.get 0 u.slice q = if q < 192 ∧ s.sliceList q = s.sliceList quad then entry else Table.get 0 s.slice q) ∧
      ∀ g, s.gang? g.uid = some g → g.quad < 192 → s.sliceList g.quad = s.sliceList quad → g.status = .placed →
        Tag.part (s.gangTag g.uid) ≠ (e.extractLsb' 0 4).toNat → ∃ h, u.gang? g.uid = some h ∧ h.status = .draining) ∧
  ∀ (s : State) (l : Launch) (t : Nat), s.launch? l.id = some l → l.startNs = some t → l.wave = false → l.ended = 0 →
    t + 1000 * l.tlimit ≤ s.ns → s.barriers = [] →
    ∃ u k, exec (.watchdogExpiry l.id) s = .next u ∧ u.launch? l.id = some k ∧ k.ended = 2 ∧
      ∀ w, s.only w → w.launch = l.id → w.status = .resident → ∃ v x, u.wg? w.uid = some v ∧ v.status = .finished x false ∧
        x.ended = 2 ∧ x.cause = 0x0E ∧ ∀ y ∈ v.threads, y.place = .exited

/-! ### Events of tenants and holdings (R318-R336) -/

/-- R318-R336: units move between the pool, a partition's holding and a tenant, cleared; a tenant is created with a new tag, recalled from,
and destroyed; a recall past its deadline takes what is owed, a seizure anything; a runtime wave starts; remote ownership is given and
taken back. Each request is answered with a status, where the management session it comes over is open (R322). -/
def Obligations.TenantEventsComplete : Prop :=
  let told := fun (s u : State) (ms : List HostMsg) => u.outbox = s.outbox ++ ms
  let oneUnit := fun (k id : Nat) => 1 ≤ k ∧ k ≤ 9 ∧ k ≠ 6 ∧ id < maxId k
  let loose := fun (s : State) => Table.wf unboundTag s.tags = true ∧ Table.wf 0#8 s.seizures = true
  let held := fun (s : State) (part k id more : Nat) => Tag.make part 0xFFF ((Table.get 0#8 s.seizures (k * 2 ^ 32 + id)).toNat + more)
  let freed := fun (s : State) (u : Res) => s.unquiet u.kind (s.unitSpan u.kind u.id u.z).1 (s.unitSpan u.kind u.id u.z).2
  (∀ s : State, (∀ part, s.managed part = false → (∀ b t, Happens (.bind b ⟨part, t⟩) s s) ∧
      (∀ r : CreateReq, r.part = part → Happens (.create r) s s) ∧
      ∀ e : ExportReq, e.part = part → Happens (.exportEntry e) s s ∧ Happens (.unexportEntry e) s s) ∧
    (s.managed 0 = false → ∀ u : Res, (∀ part, Happens (.grant u part) s s) ∧ Happens (.revoke u) s s ∧ ∀ t, Happens (.seize t u) s s) ∧
    ∀ hyper part, s.managed (if hyper = true then 0 else part) = false → (∀ t, Happens (.destroy ⟨hyper, part, t⟩) s s) ∧
      ∀ r : RecallReq, r.hyper = hyper → r.part = part → Happens (.recallUnits r) s s) ∧
  (∀ (s : State) (k id part : Nat), oneUnit k id → loose s →
    (s.managed 0 = true → s.grantStatus ⟨k, id, none⟩ part = 0 → s.unitQuiet k id 1 = true →
      ∃ u, exec (.grant ⟨k, id, none⟩ part) s = .next u ∧ u.tagGet k id = held s part k id 0 ∧ u.cleared k id 1 ∧ told s u [.status 0]) ∧
    (s.managed 0 = true → s.partValid 0 = true → s.inHolding 0 k id 1 = false → Tag.num (s.tagGet k id) = 0xFFF → s.unitLive k id = true →
      s.unitQuiet k id 1 = true →
      ∃ u, exec (.revoke ⟨k, id, none⟩) s = .next u ∧ u.tagGet k id = held s 0 k id 0 ∧ u.cleared k id 1 ∧ told s u [.status 0]) ∧
    ∀ t world rwx, s.managed (Tag.part t) = true → s.partValid (Tag.part t) = true → s.tenantLives t = true → s.bindStatus ⟨⟨k, id, none⟩, world, rwx⟩ (Tag.part t) = 0 →
      s.unitQuiet k id 1 = true →
      ∃ u, exec (.bind ⟨⟨k, id, none⟩, world, rwx⟩ ⟨Tag.part t, t⟩) s = .next u ∧ u.tagGet k id = t ∧ u.cleared k id 1 ∧
        told s u [.status 0]) ∧
  (∀ (s : State) (b : BindReq) (part : Nat) (t : Tag), s.managed part = true → s.partValid part = false ∨ Tag.part t ≠ part →
    Happens (.bind b ⟨part, t⟩) s ((freed s b.res).tell (.status 1))) ∧
  (∀ (s : State) (u : Res) (part : Nat), s.managed 0 = true → s.grantStatus u part ≠ 0 →
    Happens (.grant u part) s ((freed s u).tell (.status (s.grantStatus u part)))) ∧
  (∀ (s : State) (f world : Nat) (rwx : BitVec 3) (t : Tag), f < maxId 6 → Table.wf 0x000FFF00#32 s.fot = true →
    (s.fotGet f).getLsbD 31 = false → s.managed (Tag.part t) = true → s.partValid (Tag.part t) = true → s.tenantLives t = true →
    s.bindStatus ⟨⟨6, f, none⟩, world, rwx⟩ (Tag.part t) = 0 → s.unitQuiet 6 f 1 = true →
    ∃ u, exec (.bind ⟨⟨6, f, none⟩, world, rwx⟩ ⟨Tag.part t, t⟩) s = .next u ∧
      u.fotGet f = BitVec.ofNat 32 (t.toNat + world * 2 ^ 24 + rwx.toNat * 2 ^ 28) ∧ u.cleared 6 f 1 ∧ told s u [.status 0]) ∧
  (∀ (s : State) (r : CreateReq) (n : Nat), s.managed r.part = true → s.createStatus r = 0 → (∀ b ∈ r.binds, s.bindQuiet b = true) → s.freeNumber r.part = some n →
    let tag := Tag.make r.part n ((Table.get 0#8 s.gens (r.part * 4096 + n)).toNat + 1)
    let field := fun (o k : Nat) => leNat ((r.desc.drop o).take k)
    ∃ u x, exec (.create r) s = .next u ∧ u.tenant? tag = some x ∧ x.code.toNat = field 0 8 ∧ x.core = field 12 2 ∧ x.faults = field 16 8 ∧
      x.recallRing = field 24 8 ∧ x.notice = field 32 8 ∧ x.rbase = field 40 4 ∧ x.rsize = field 44 4 ∧ x.args.toNat = field 48 8 ∧
      x.faultSeq = 0 ∧ x.recalls = [] ∧ x.losses = [] ∧ (∀ b ∈ r.binds, b.res.kind ≠ 6 → u.tagGet b.res.kind b.res.id = tag) ∧
      told s u [.created tag, .status 0]) ∧
  (∀ (s : State) (x : Tenant), s.tenant? x.tag = some x →
    (∀ r : RecallReq, r.tenant = x.tag → s.managed (if r.hyper = true then 0 else r.part) = true → s.recallStatus r = 0 → Happens (.recallUnits r) s
      ((s.onTenant x.tag fun t => { t with waiting := t.waiting ++ [r] }).tell (.status 0))) ∧
    (∀ r rest, x.waiting = r :: rest → x.recalls.length < 16 → Memory.wf s.mem = true → s.writable x.recallRing 1024 →
      s.writable x.notice 64 →
      x.recallRing + 1024 ≤ x.notice ∨ x.notice + 64 ≤ x.recallRing →
      let seq := x.recallSeq + 1
      let till := s.ns + if r.interval = 0 then 2000000 else max r.interval 50000
      ∃ u y, exec (.recallPost x.tag) s = .next u ∧ u.tenant? x.tag = some y ∧ y.recallSeq = seq ∧ y.waiting = rest ∧
        y.recalls = x.recalls ++ [⟨seq, r.kind, r.ids, s.owedAtPost r, if r.hyper then 1 else 0, till, [], [], false, none, false⟩] ∧
        Memory.bytes u.mem (x.recallRing + 64 * (seq % 16)) 32 =
          leBytes r.kind 1 ++ leBytes (if r.ids = [] then 0 else 1) 1 ++ leBytes r.ids.length 1 ++ leBytes (if r.hyper then 1 else 0) 1 ++
            leBytes (if r.ids = [] then r.count else 0) 4 ++ leBytes seq 8 ++ leBytes s.ns 8 ++ leBytes till 8 ∧
        Memory.bytes u.mem (x.notice + 16) 8 = leBytes (leNat (Memory.bytes s.mem (x.notice + 16) 8) + 1) 8) ∧
    (∀ k id, oneUnit k id → loose s → s.managed 0 = true → s.partValid 0 = true → x.notice + 64 ≤ 2 ^ 52 → s.checkTag x.tag k id = true → s.unitLive k id = true → s.unitQuiet k id 1 = true →
      ∃ u y r, exec (.seize x.tag ⟨k, id, none⟩) s = .next u ∧ u.tagGet k id = held s (Tag.part x.tag) k id 1 ∧ u.cleared k id 1 ∧
        told s u [.status 0] ∧ u.tenant? x.tag = some y ∧ y.lossSeq = x.lossSeq + 1 ∧ y.losses.getLast? = some r ∧ r.kind = k ∧
        r.id = BitVec.ofNat 32 id ∧ (r.reason = 3 ∨ r.reason = 4) ∧ r.time = BitVec.ofNat 64 s.ns) ∧
    (∀ r, (x.recalls.find? fun q => decide (q.seq = r.seq)) = some r → r.deadline ≤ s.ns →
      (s.choosable x r = [] → Happens (.recallDeadline x.tag r.seq) s (s.closeRecall x.tag r)) ∧
      (∀ id, s.nextSeize x r = some id → oneUnit r.kind id → s.unitQuiet r.kind id 1 = true →
        let saved := r.late || r.chosen.any fun c => decide (c.1 = id) && c.2
        Happens (.recallDeadline x.tag r.seq) s ((s.seizeUnit x.tag r.kind id 1 saved).onRecall x.tag r.seq fun r =>
          { r with owed := r.owed - 1, taken := r.taken ++ [id], chosen := none }))) ∧
    (x.wave = none → s.checkTag x.tag 1 x.core = true → (s.die? (x.core / 384)).endp = .attached →
      s.launch? ((s.launchSeq + 1) % 2 ^ 32) = none →
      ∃ u l y, exec (.runtimeWavePlace x.tag) s = .next u ∧ u.launch? u.launchSeq = some l ∧ u.tenant? x.tag = some y ∧
        y.wave = some u.launchSeq ∧ l.wave = true ∧ l.tenant = x.tag ∧ l.code = x.code ∧ l.args = x.args ∧ l.threads = x.threads ∧
        l.regs = x.regs ∧ l.commons = x.commons ∧ l.nwg = 1) ∧
    (∀ hyper part, s.managed (if hyper = true then 0 else part) = true → s.mayAsk hyper part x.tag = false → Happens (.destroy ⟨hyper, part, x.tag⟩) s (s.tell (.status 1))) ∧
    (∀ hyper part, s.managed (if hyper = true then 0 else part) = true → s.mayAsk hyper part x.tag = true → (∀ l ∈ s.launches, l.tenant ≠ x.tag) → (∀ q ∈ s.queues, q.owner ≠ x.tag) →
      s.tenantQuiet x.tag = true → (∀ k id, (k, id) ∈ s.allUnits x.tag → s.unitLive k id = true) →
      ∃ u, exec (.destroy ⟨hyper, part, x.tag⟩) s = .next u ∧ u.tenant? x.tag = none ∧ told s u [.status 0])) ∧
  ∀ (s : State) (e : ExportReq), s.managed e.part = true → s.partValid e.part = true →
    let entry : RemoteOwn := ⟨e.frame, e.z, e.tenant, e.rwx, e.dev⟩
    (e.dev < 1024 → s.exportable e = true → s.underCeiling e.frame e.rwx = true → entry ∉ s.remoteOwn → s.remoteOwn.length < 16384 →
      Happens (.exportEntry e) s (({ s with remoteOwn := s.remoteOwn ++ [entry] } : State).tell (.status 0))) ∧
    (e.frame < 12582912 → e.dev < 1024 → Tag.part (s.tagGet 6 e.frame) = e.part → entry ∈ s.remoteOwn →
      Happens (.unexportEntry e) s (({ s with remoteOwn := s.remoteOwn.filter fun r => decide (r ≠ entry) } : State).tell (.status 0)))

/-! ### Events of other devices, links and pods (R206, R335, R384-R391) -/

/-- R206, R335, R390: a remote request passes the remote checks and is served, or is answered REFUSED or ABSENT; a refusal of an access of
this device poisons what it would have read; a late answer is counted. R387, R388: packets pass on over a link that is up, wait where
the channel is stopped. R385, R391: a device that stays without a route is answered ABSENT; a pod that does not join ends. What other devices answer and do is log 8
(DESIGN CHOICE), the marks at which STOP and GO are sent log 33, and ABSENT from a frozen device log 37 (DEDUCED). -/
def Obligations.RemoteEventsComplete : Prop :=
  let running := fun (s : State) => s.island = .forward ∨ s.island = .joined ∨ s.island = .fencing
  (∀ (s : State) (r : RemoteReq), running s →
    let size := match r.op with
      | .write data => data.length
      | _ => r.size
    let kind := match r.op with
      | .read => AccKind.r
      | .write _ => .w
      | .atomic .. => .a
    let present := (s.die? (r.off / 65536 / 6291456)).endp = .attached
    let passes := s.remotePasses r.dev r.tag r.off size kind = true ∧ (r.world = 0 ∨ s.keySlots[r.world]? = some .active)
    (¬ present → Happens (.remoteRequest r) s (s.tell (.answer r.dev 2 []))) ∧
    (present → ¬ passes → Happens (.remoteRequest r) s (s.tell (.answer r.dev 1 []))) ∧
    (present → passes → s.frozen ≠ none → Happens (.remoteRequest r) s (s.tell (.answer r.dev 2 []))) ∧
    (present → passes → s.frozen = none → s.sliceAnswers r.world r.off = false → r.op = .read → ∃ bs : List Byte, bs.length = r.size ∧
      Happens (.remoteRequest r) s (s.tell (.answer r.dev 0 (bs.map fun b => (b, some 0xA00#12)))).advanceFree) ∧
    (present → passes → s.frozen = none → s.sliceAnswers r.world r.off = true →
      (r.op = .read → Happens (.remoteRequest r) s (s.tell (.answer r.dev 0
        ((List.range r.size).map fun i => (Memory.read s.mem (r.off + i), Poison.join r.poison (s.poisonAt (r.off + i))))))) ∧
      ∀ data, r.op = .write data → Memory.wf s.mem = true → ∃ u, exec (.remoteRequest r) s = .next u ∧
        u.outbox = s.outbox ++ [.answer r.dev 0 []] ∧
        ∀ b, Memory.read u.mem b = if r.off ≤ b ∧ b < r.off + data.length then data.getD (b - r.off) 0 else Memory.read s.mem b)) ∧
  (∀ (s : State) (f : Flight) (w : Wg) (t : Thread) (a : Nat) (absent : Bool), f.isNext s w t → f.loc = .mem a → regionOf a = 1 →
    s.logsBefore w f = false →
    s.homeOf w.quad (s.tagOf w) .a a f.size ≠ .here (a % 2 ^ 40) →
    (s.isCancelled w f = true → Happens (.remoteRefusal f.id absent) s ((s.countLate (w.core / 384)).performed f w t id)) ∧
    (∀ sext, s.isCancelled w f = false → f.acc = .load sext → Happens (.remoteRefusal f.id absent) s (s.performed f w t fun x =>
      x.deliverRegs f.dst (regsOf sext ((s.freeBytes 0 f.size).map fun b => (b, some poisonRemote))))) ∧
    (s.isCancelled w f = false → f.acc = .store → Happens (.remoteRefusal f.id absent) s ((s.refuseStore w f .w a).performed f w t id))) ∧
  (∀ (s : State) (die : Nat), die < 2 → (s.die? die).endp ≠ .attached → ∃ u, exec (.lateAnswer die) s = .next u ∧ u.mem = s.mem ∧
    u.wgs = s.wgs ∧ (u.cfgGet (0x0A000006 + die)).toNat = min ((s.cfgGet (0x0A000006 + die)).toNat + 1) 0xFFFFFFFF) ∧
  (∀ (s : State) (p : Packet), running s → p.target ≠ Config.devNumber.toNat →
    let ways := if s.routesLoaded then (Config.route p.target).filter fun l => s.linkUp.getD l false else []
    (3 ≤ p.hops ∨ ways = [] → Happens (.linkPacket p) s ((s.tell (.answer p.target 2 [])).sendStop p.link p.vc)) ∧
    (p.hops < 3 → ways ≠ [] → ∃ l ∈ ways, (∀ k ∈ ways, p.fill.getD l 0 < p.fill.getD k 0 ∨ p.fill.getD l 0 = p.fill.getD k 0 ∧ l ≤ k) ∧
      ((l, p.vc) ∉ s.stopped → Happens (.linkPacket p) s ((s.tell (.forwarded p.target l p.poison)).sendStop p.link p.vc)) ∧
      ((l, p.vc) ∈ s.stopped → Happens (.linkPacket p) s
        (({ s with buffered := s.buffered ++ [(l, p)] } : State).sendStop p.link p.vc)))) ∧
  (∀ s : State, let flits := fun x : Nat × Nat => ((s.buffered.filter fun b => decide (b.2.link = x.1 ∧ b.2.vc = x.2)).map fun b => b.2.flits).sum
    (∀ link vc, s.sendStop link vc = if Config.highMark ≤ flits (link, vc) ∧ (link, vc) ∉ s.stopsSent then
        { s with stopsSent := s.stopsSent ++ [(link, vc)], outbox := s.outbox ++ [.flow link vc true] } else s) ∧
    s.sendGos = { s with
      stopsSent := s.stopsSent.filter fun x => decide (Config.lowMark < flits x)
      outbox := s.outbox ++ (s.stopsSent.filter fun x => decide (flits x ≤ Config.lowMark)).map fun x => .flow x.1 x.2 false }) ∧
  (∀ (s : State) (link vc : Nat), link < 18 → vc < 4 →
    ((link, vc) ∉ s.stopped → Happens (.flowStop link vc) s { s with stopped := s.stopped ++ [(link, vc)] }) ∧
    let mine := fun b : Nat × Packet => decide (b.1 = link ∧ b.2.vc = vc)
    Happens (.flowGo link vc) s ({ s with
      stopped := s.stopped.filter fun x => decide (x ≠ (link, vc))
      buffered := s.buffered.filter fun b => !mine b
      outbox := s.outbox ++ (s.buffered.filter mine).map fun b => HostMsg.forwarded b.2.target b.1 b.2.poison } : State).sendGos) ∧
  (∀ (s : State) (link : Nat), link < s.linkUp.length → ∃ u, exec (.linkDown link) s = .next u ∧ u.linkUp = s.linkUp.set link false ∧
    (∀ x ∈ u.stopped, x.1 ≠ link) ∧ (∀ x ∈ u.stopsSent, x.1 ≠ link) ∧ (∀ b ∈ u.buffered, b.1 ≠ link) ∧ ∀ d, d < 1024 → s.linksTo d = [link] → (d, s.ns) ∈ u.lostRoutes) ∧
  (∀ (s : State) (dev since : Nat), (dev, since) ∈ s.lostRoutes → since + 20000 ≤ s.ns → ∃ u, exec (.routeLossTimeout dev) s = .next u ∧
    dev ∈ u.absentDevs ∧ (∀ r ∈ u.lostRoutes, r.1 ≠ dev) ∧ u.mem = s.mem) ∧
  ∀ (s : State) (podid : Word), podid ≠ 0#32 →
    (∀ dev poddevs, (∀ r ∈ s.podRegs, r.podid ≠ podid) →
      Happens (.podidRegister podid dev poddevs) s { s with podRegs := s.podRegs ++ [⟨podid, poddevs, [dev], s.ns⟩] }) ∧
    ∀ r, (s.podRegs.find? fun r => decide (r.podid = podid)) = some r →
      (∀ dev, dev ∉ r.devs → Happens (.podidRegister podid dev r.poddevs) s
        { s with podRegs := s.podRegs.map fun x => if x.podid = podid then { x with devs := x.devs ++ [dev] } else x }) ∧
      (r.devs.length < r.poddevs → r.since + 100000000 ≤ s.ns → ∃ u, exec (.podJoinTimeout podid) s = .next u ∧
        (∀ x ∈ u.podRegs, x.podid ≠ podid) ∧
        ∀ l, s.launch? l.id = some l → l.podid = podid → l.ended = 0 → ∃ k, u.launch? l.id = some k ∧ k.ended ≠ 0)

/-! ### Events of worlds, keys and attestation (R308, R359-R369) -/

/-- R359-R369: a quad changes its world only idle and leaves nothing behind; a world is activated and revoked; a protected context is handed
over once, at its epoch; the lock register closes and opens; calendars stay within quotas; quotes answer with the measurement. That an
activation needs a quote answered over partition 0's session and a session key agreed since is how the model reads R402's first steps
(log 109). -/
def Obligations.WorldEventsComplete : Prop :=
  (∀ (s : State) (quad world : Nat), quad < 192 → world < 16 → s.latch quad ≠ world → s.quadEmpty quad = true →
    Table.get 0 s.reserved quad = 0 →
    (s.die? (quad / 96)).endp = .attached → s.cfgSorted → ∃ u, exec (.worldLatchChange quad world) s = .next u ∧ u.latch quad = world ∧
      (∀ b, b < 16 → u.cleared 2 (quad * 16 + b) 1 ∧ u.cleared 5 (quad * 16 + b) 1) ∧ (∀ b, b < 4 → u.cleared 3 (quad * 4 + b) 1) ∧
      (∀ b, b < 8 → u.cleared 4 (quad * 8 + b) 1) ∧ (∀ b, b < 15 → u.cleared 9 (quad * 15 + b) 1) ∧
      (∀ x ∈ u.l1, x.core / 4 ≠ quad) ∧ ∀ q, q ≠ quad → u.latch q = s.latch q) ∧
  (∀ (s : State) (world : Nat), 1 ≤ world → world < 16 →
    (∀ rest, s.agenda = .agreeKey world :: rest → s.managed 0 = true → s.quoted = true → world ∉ s.agreed →
      ∃ u, step s = .next u ∧ u.agreed = s.agreed ++ [world] ∧ u.keySlots = s.keySlots ∧ u.mem = s.mem) ∧
    (s.managed 0 = false → Happens (.worldActivate world) s s) ∧
    (s.managed 0 = true → (s.cfgGet 0x0D000000).getLsbD world = false ∨ s.keySlots[world]? ≠ some .empty ∨ world ∉ s.agreed →
      Happens (.worldActivate world) s (s.tell .failed)) ∧
    (s.managed 0 = true → world ∈ s.agreed → s.keySlots[world]? = some .empty → (s.cfgGet 0x0D000000).getLsbD world = true →
      ∃ u, exec (.worldActivate world) s = .next u ∧ u.keySlots = s.keySlots.set world .active ∧ world ∉ u.agreed ∧
        u.outbox = s.outbox ++ [.activated world] ∧ world ∉ u.revoked ∧
        (world ∉ s.revoked → u.mem = s.mem) ∧
        (world ∈ s.revoked → ∀ f i, f ∈ s.worldFrames world → i < 65536 → Memory.read u.mem (f * 65536 + i) = 0)) ∧
    (s.keySlots[world]? = some .active → ∃ u, exec (.worldRevoke world) s = .next u ∧
      u.keySlots = s.keySlots.set world .revoking ∧
      ∀ g, s.gang? g.uid = some g → s.latch g.quad = world → g.status = .placed → ∃ h, u.gang? g.uid = some h ∧ h.status = .draining) ∧
    (s.keySlots[world]? = some .revoking →
      (∀ g ∈ s.gangs, s.latch g.quad = world → g.status ≠ .placed ∧ g.status ≠ .draining) →
      ∃ u, exec (.worldRevoke world) s = .next u ∧ u.keySlots = s.keySlots.set world .empty ∧ world ∈ u.revoked ∧
        (∀ x ∈ u.l1, regionOf x.addr ≠ 0 ∨ s.frameWorld x.addr ≠ world) ∧ u.mem = s.mem ∧ ∀ c ∈ u.sealedCtxs, c.world ≠ world)) ∧
  (∀ (s : State) (g : Gang), s.gang? g.uid = some g → s.gangWorld g ≠ 0 → s.waveGang g = false →
    (g.status = .placed → Happens (.handoverPrepare (.gang g.uid)) s (s.beginPreempt g.uid)) ∧
    (g.status = .draining → s.drained g.uid = true →
      let epoch := Table.get 0 s.epochs (4 * g.uid)
      Happens (.handoverPrepare (.gang g.uid)) s (s.onGang g.uid fun x => { x with sealedEpoch := some epoch }) ∧
      (g.sealedEpoch = some epoch → ∃ u h, exec (.handoverCommit (.gang g.uid)) s = .next u ∧ u.gang? g.uid = some h ∧
        h.status = .saved ∧ h.moved = true ∧ h.sealedEpoch = some epoch ∧ u.epochs = Table.set 0 s.epochs (4 * g.uid) ((epoch + 1) % 2 ^ 64)))) ∧
  (∀ (s : State) (c : Ctx) (w : Nat), (∀ g, c ≠ .gang g) → s.ctxWorld c = some w →
    let epoch := Table.get 0 s.epochs (ctxKey w c)
    (s.hasKey w = true → (c = .world w → s.worldGangs w = []) →
      let kept := s.setLeaving (fun _ t => s.mapsCtx c t) true
      (kept.ctxStill c w = false → Happens (.handoverPrepare c) s kept) ∧
      (kept.ctxStill c w = true →
        ∃ u x, exec (.handoverPrepare c) s = .next u ∧ u.mem = s.mem ∧ u.tlb = kept.tlb ∧ x ∈ u.sealedCtxs ∧ x.ctx = c ∧ x.world = w ∧
          x.epoch = epoch ∧ (∀ y, y ∈ x.cells ↔ y ∈ s.mem ∧ regionOf y.1 = 0 ∧ y.1 / 65536 ∈ s.ctxFrames c) ∧
          ∀ g, g ∈ x.gangs ↔ c = .world w ∧ g ∈ s.gangs ∧ s.gangWorld g = w ∧ g.status = .saved)) ∧
    (s.ctxStill c w = false → Happens (.handoverCommit c) s s) ∧
    ∀ x, s.sealedAt c epoch = some x → s.ctxStill c w = true →
      ∃ u, exec (.handoverCommit c) s = .next u ∧ u.epochs = Table.set 0 s.epochs (ctxKey w c) ((epoch + 1) % 2 ^ 64) ∧
        (∀ f i, f ∈ s.ctxFrames c → i < 65536 → Memory.read u.mem (f * 65536 + i) = 0) ∧
        ∀ g, s.gang? g.uid = some g → (∃ h ∈ x.gangs, h.uid = g.uid) → ∃ h, u.gang? g.uid = some h ∧ h.moved = true) ∧
  (∀ (s : State) (i : SealedImage),
    let key := ctxKey i.world i.ctx
    let good := 1 ≤ i.world ∧ s.hasKey i.world = true ∧ i.epoch + 1 = Table.get 0 s.epochs key ∧ (key, i.epoch) ∉ s.consumed ∧
      (∀ u g, i.ctx = .gang u → s.gang? u = some g → s.gangWorld g = i.world ∧ g.sealedEpoch = some i.epoch) ∧
      ∀ x, (∀ g, i.ctx ≠ .gang g) → (s.sealedCtxs.find? fun x => decide (x.ctx = i.ctx)) = some x → x.world = i.world ∧ x.epoch = i.epoch
    let used : State := { s with consumed := s.consumed ++ [(key, i.epoch)] }
    (∀ g, good → i.ctx = .gang g → Happens (.imageAccept i) s (used.onGang g fun x => { x with moved := false })) ∧
    (good → (∀ g, i.ctx ≠ .gang g) → s.sealedAt i.ctx i.epoch = none → Happens (.imageAccept i) s used) ∧
    (∀ x, good → (∀ g, i.ctx ≠ .gang g) → s.sealedAt i.ctx i.epoch = some x → (x.cells.map fun y => y.1).Nodup → Memory.wf s.mem = true →
      ∃ u, exec (.imageAccept i) s = .next u ∧ u.consumed = used.consumed ∧ (∀ y ∈ x.cells, Memory.read u.mem y.1 = y.2) ∧
        ∀ g h, s.gang? g.uid = some g → (x.gangs.find? fun h => decide (h.uid = g.uid)) = some h → u.gang? g.uid = some h) ∧
    (¬ good → Happens (.imageAccept i) s (s.tell .failed))) ∧
  (∀ (s : State) (nonce : List Byte), s.answersQuotes = false → Happens (.quoteRequest nonce) s s) ∧
  (∀ (s : State) (nonce : List Byte), s.island = .forward ∨ s.island = .joined ∨ s.island = .fencing → s.quoting = true →
    (∃ x ∈ s.sessions, x.management = true) → nonce.length = 32 →
    ∃ bs, Happens (.quoteRequest nonce) s (({ s with quoted := s.quoted || s.managed 0 } : State).tell (.quote bs)) ∧ bs.length = 192 ∧ bs.take 32 = nonce ∧
      ((Config.measurement s.imageSlot).length = 32 → (bs.drop 32).take 32 = Config.measurement s.imageSlot) ∧
      (bs.drop 96).take 4 = leBytes (s.cfgGet 0x0D000000).toNat 4 ∧ (bs.drop 100).take 4 = leBytes (s.cfgGet 0x05000000).toNat 4) ∧
  (∀ (s : State) (x : Word),
    let old := s.cfgGet 0x05000000
    let writes := fun (y : Word) (st : Nat) => Happens (.lockctlWrite x) s ((s.cfgSet 0x05000000 y).tell (.status st))
    let answers := fun (st : Nat) => Happens (.lockctlWrite x) s (s.tell (.status st))
    (x.extractLsb' 1 15 ≠ 0#15 → answers 7) ∧
    (x.extractLsb' 1 15 = 0#15 →
      (x.getLsbD 0 = true → old.getLsbD 0 = false →
        writes (BitVec.ofNat 32 (min ((old.extractLsb' 16 16).toNat + 1) 0xFFFF * 65536 + 1)) 0) ∧
      (x.getLsbD 0 = false → old.getLsbD 0 = true →
        (s.guestWork = true → answers 12) ∧ (s.guestWork = false → writes (old &&& 0xFFFF0000#32) 0)) ∧
      (x.getLsbD 0 = old.getLsbD 0 → answers 0))) ∧
  ∀ (s : State) (die cls idx : Nat) (x : Word), die < 2 → cls < 4 → idx < 64 →
    let a := 0x02000000 + 256 * die + 64 * cls + idx
    (s.calOk die cls idx x = true → Happens (.calWrite die cls idx x) s ((s.cfgSet a x).tell (.status 0))) ∧
    (s.calOk die cls idx x = false → Happens (.calWrite die cls idx x) s (s.tell (.status 7)))

/-! ### Events of the island, its dies and the host port (R350, R380-R386, R392, R397-R404) -/

/-- R380-R386, R401: supply, resets, boot and bring-up of the island; a die joins, detaches and is ABSENT. R350, R368, R392: freeze with
its read-out, and thaw. R404: the limits step. R397, R398: sessions and windows open and close. R400: the firmware's mailboxes. Here the
model chooses or infers: a heartbeat loss is a warm reset that ends launches (log 27); the ends of the limits (log 31); what windows and
sessions do at their ends (logs 35, 36); one error number for a session's close (log 94); FENCING through all six steps of a warm reset
(log 110); which happenings of bring-up are told (logs 7, 24-26, 38). -/
def Obligations.DeviceEventsComplete : Prop :=
  (∀ (s : State) (a b : Bool),
    let good := fun (s : State) (signed : Bool) (slot : Nat) => signed = true ∧ s.fused ≤ Config.imageVersion slot
    let up := fun (s : State) (first : Prop) (u : State) => u.island = .forward ∧ u.routesLoaded = true ∧ u.linkUp.length = 18 ∧
      u.mem = s.mem ∧ (first → u.imageSlot = 0) ∧ (¬ first → u.imageSlot = 1) ∧ u.die0.stage = .bringUp ∧ u.die1.stage = .bringUp
    let safe := fun (s : State) (u : State) => u.island = .safe ∧ u.routesLoaded = false ∧ u.linkUp = List.replicate 18 false ∧ u.mem = s.mem
    let boots := fun (u : State) => u.island = .boot ∧ u.booting = some (a, b) ∧ u.routesLoaded = false ∧
      u.linkUp = List.replicate 18 false ∧ u.stopped = [] ∧ u.stopsSent = [] ∧ u.buffered = [] ∧ u.lostRoutes = [] ∧
      u.absentDevs = [] ∧ u.quoting = false ∧ u.mem = s.mem
    (s.island = .off → ∃ u, exec (.islandSupplyGood a b) s = .next u ∧ boots u) ∧
    (∀ c d, s.island = .boot → s.booting = some (c, d) ∨ (s.booting = none ∧ c = a ∧ d = b) →
      ∃ u, exec (.islandSupplyGood a b) s = .next u ∧ u.booting = none ∧ (good s c 0 ∨ good s d 1 → up s (good s c 0) u) ∧
        (¬ (good s c 0 ∨ good s d 1) → safe s u)) ∧
    (s.island ≠ .off → s.die0.endp = .absent → s.die1.endp = .absent → ∃ u, exec (.islandReset a b) s = .next u ∧
      u.outbox = s.outbox ++ [.status 0] ∧ boots u) ∧
    (s.island ≠ .off → s.die0.endp ≠ .absent ∨ s.die1.endp ≠ .absent → Happens (.islandReset a b) s (s.tell (.status 12)))) ∧
  (∀ s : State,
    let cold := { State.reset with agenda := s.agenda, outbox := s.outbox, freeCtr := s.freeCtr, nextId := s.nextId, fused := s.fused }
    Happens .coldReset s cold ∧ Happens .islandSupplyLoss s { cold with island := .off }) ∧
  (∀ (s : State) (die : Nat), die < 2 →
    (s.island = .forward ∨ s.island = .joined ∨ s.island = .fencing → (s.die? die).endp = .absent →
      ∃ u, exec (.dieJoin die) s = .next u ∧ (u.die? die).endp = .attached ∧ (u.die? die).stage = .none ∧
        u.die? (1 - die) = s.die? (1 - die) ∧ ((∀ x ∈ s.tenants, x.owedLoss = 0) → u.mem = s.mem) ∧
        (u.quoting = (s.quoting || decide ((s.die? (1 - die)).stage ≠ .bringUp))) ∧
        u.island = if (s.die? (1 - die)).endp = .detaching ∨ (s.die? (1 - die)).stage = .resetting then .fencing else .joined) ∧
    (∀ rest, s.agenda = .dieFails die :: rest → (s.die? die).stage ≠ .none → (s.die? die).endp = .absent →
      ∃ u, step s = .next u ∧ (u.die? die).stage = .none ∧ (u.die? die).endp = .absent ∧ u.outbox = s.outbox ++ [.dieFailed die] ∧
        u.mem = s.mem) ∧
    ((s.die? die).endp = .attached → ∀ e ∈ [Instr.dieWarmReset die, .heartbeatTimeout die] ++
        (if 10 ≤ (s.die? die).hot then [Instr.overtempReset die] else []),
      ∃ u, exec e s = .next u ∧ (u.die? die).endp = .detaching ∧ (u.die? die).since = s.ns ∧
        (s.island = .forward ∨ s.island = .joined ∨ s.island = .fencing → u.island = .fencing) ∧
        ∀ l g, s.launch? l.id = some l → l.ended = 0 → g ∈ s.gangs → g.launch = l.id → g.quad / 96 = die → g.status = .placed →
          (∃ k, u.launch? l.id = some k ∧ k.ended = 4) ∧ ((s.colls.map fun c => c.id).Nodup →
            ∀ c ∈ s.colls, c.launch = l.id → c.stage = .counted → ∃ d ∈ u.colls, d.id = c.id ∧ d.stage = .failed 0x0D)) ∧
    ((s.die? die).endp = .detaching → s.cancelled die = true ∨ (s.die? die).since + 100000 ≤ s.ns →
      ∃ u, exec (.detachComplete die) s = .next u ∧ (u.die? die).endp = .absent ∧ (u.die? die).cycles = 0 ∧
        (u.die? die).stage = .resetting ∧ (s.island = .forward ∨ s.island = .joined ∨ s.island = .fencing → u.island = .fencing) ∧
        (∀ x ∈ u.l1, x.core / 384 ≠ die) ∧ (∀ e ∈ u.score, e.quad / 96 ≠ die) ∧
        ∀ o ∈ u.matops, o.quad / 96 = die → o.done = true)) ∧
  (∀ s : State, (s.managed 0 = false → Happens .freeze s s) ∧ (s.managed 0 = true → s.frozen = none → ∃ qs : List Readout,
      Happens .freeze s (({ s with frozen := some s.ns } : State).tell (.readout qs)) ∧
      ∀ q, q < 192 → (s.die? (q / 96)).endp ≠ .absent → ∃ r ∈ qs, r.quad = q ∧
        (s.latch q ≠ 0 → (s.cfgGet 0x0D000000).getLsbD 16 = false → r = ⟨q, [], [], [], [], [], [], []⟩) ∧
        (s.latch q = 0 ∨ (s.cfgGet 0x0D000000).getLsbD 16 = true →
          (∀ w, w ∈ r.wgs ↔ w ∈ s.wgs ∧ w.isResident = true ∧ w.core / 4 = q) ∧ (∀ e, e ∈ r.entries ↔ e ∈ s.entries ∧ e.core / 4 = q) ∧
          (∀ c, c ∈ r.copies ↔ c ∈ s.copies ∧ c.quad = q) ∧ ∀ o, o ∈ r.matops ↔ o ∈ s.matops ∧ o.quad = q)) ∧
    ∀ t, s.frozen = some t → Happens .thaw s { s with
      frozen := none
      launches := s.launches.map fun l => { l with startNs := l.startNs.map fun x => x + (s.ns - t) }
      tenants := s.tenants.map fun x => { x with recalls := x.recalls.map fun r => { r with deadline := r.deadline + (s.ns - t) } } }) ∧
  (∀ (s : State) (watts t0 t1 ti th : Nat), s.cfgSorted → ∃ u, exec (.clockControlTick watts t0 t1 ti th) s = .next u ∧ u.mem = s.mem ∧
    let cap := (s.cfgGet 0x0A000000).toNat % 4096
    u.powerLimit = (if cap < watts then max (s.powerLimit - 25) 400 else if 100 * watts < 95 * cap then min (s.powerLimit + 25) 850
      else s.powerLimit) ∧
    (∀ die, die < 2 → let t := if die = 0 then t0 else t1
      (u.die? die).thermal = (if 100 ≤ t then (s.die? die).thermal - 25 else if t < 95 then min ((s.die? die).thermal + 25) 850
        else (s.die? die).thermal) ∧ (u.die? die).hot = (if 110 ≤ t then (s.die? die).hot + 1 else 0)) ∧
    u.cfgGet 0x0A000004 = BitVec.ofNat 32 (t0 % 256 + t1 % 256 * 256 + ti % 256 * 65536 + th % 256 * 16777216)) ∧
  (∀ (s : State) (sess part : Nat) (management : Bool),
    let running := s.island = .forward ∨ s.island = .joined ∨ s.island = .fencing
    let room := (s.sessions.filter fun x => decide (x.part = part) && decide (x.management = management)).length <
      if management then 1 else 64
    (running ∨ (s.island = .safe ∧ management = true) → s.partValid part = true → (∀ x ∈ s.sessions, x.id ≠ sess) → room →
      Happens (.sessionOpen sess part management) s
        (({ s with sessions := s.sessions ++ [⟨sess, part, management⟩] } : State).tell (.status 0))) ∧
    (s.island = .safe → Happens (.sessionOpen sess part false) s s ∧
      ∀ win size tag, Happens (.apertureWindowBind win sess size tag) s s) ∧
    (∀ win size tag, running → win < 1024 → size ≤ 2 ^ 40 → (s.tenant? tag).isSome = true → (∀ w ∈ s.windows, w.1 ≠ win) →
      ⟨sess, Tag.part tag, false⟩ ∈ s.sessions → Happens (.apertureWindowBind win sess size tag) s
        (({ s with windows := s.windows ++ [(win, ⟨tag, size, sess⟩)] } : State).tell (.status 0)))) ∧
  (∀ (s : State) (win : Nat),
    let running := s.island = .forward ∨ s.island = .joined ∨ s.island = .fencing
    (¬ running → Happens (.apertureWindowUnbind win) s s) ∧
    (running → (s.fenceWindow win).windowUsed win = true →
      Happens (.apertureWindowUnbind win) s ((s.fenceWindow win).tryAgain (.unbind win))) ∧
    (running → (s.fenceWindow win).windowUsed win = false → ∃ u, exec (.apertureWindowUnbind win) s = .next u ∧
      u.outbox = s.outbox ++ [.status 0] ∧ (∀ w ∈ u.windows, w.1 ≠ win) ∧ u.mem = s.mem ∧
      ∀ k e, (k, some e) ∈ u.tlb → ¬ (regionOf e.pa = 2 ∧ e.pa / 2 ^ 40 % 1024 = win))) ∧
  (∀ (s : State) (sess : Nat), ((∀ x ∈ s.sessions, x.id ≠ sess) → Happens (.sessionClose sess) s s) ∧
    ((∃ x ∈ s.sessions, x.id = sess) → (∀ w ∈ s.windows, w.2.sess ≠ sess) →
      Happens (.sessionClose sess) s { s.countInteg 17 with
        errSeq := s.errSeq + 1, sessions := s.sessions.filter fun x => decide (x.id ≠ sess) }) ∧
    ((∃ x ∈ s.sessions, x.id = sess) → ∃ u, exec (.sessionClose sess) s = .next u ∧ u.errSeq = s.errSeq + 1 ∧ u.mem = s.mem ∧
      ∀ f ∈ s.flights, ∀ a sext win, f.done = false → f.acc = .load sext → f.loc = .mem a → regionOf a = 2 →
        a / 2 ^ 40 % 1024 = win.1 → win ∈ s.windows → win.2.sess = sess →
        { f with poison := some (BitVec.ofNat 12 (0xC00 + s.errSeq % 256)) } ∈ u.flights)) ∧
  (∀ (s : State) (a b : Nat), a < 8 → b < 8 → a ≠ b →
    let box := fun u : State => u.mail.filter fun m => decide (m.sender = a ∧ m.receiver = b)
    let others := fun u : State => u.mail.filter fun m => !decide (m.sender = a ∧ m.receiver = b)
    (∀ msg rest, s.agenda = .sendMail a b msg :: rest → msg.length = 64 →
      ∃ u, step s = .next u ∧ box u = box s ++ [⟨a, b, msg⟩] ∧ others u = others s ∧ u.mem = s.mem) ∧
    ∀ m ms rest, s.agenda = .takeMail a b :: rest → box s = m :: ms →
      ∃ u, step s = .next u ∧ box u = ms ∧ others u = others s ∧ u.mem = s.mem) ∧
  ∀ (s : State) (e : HopError), e.hop < 9 →
    let counts := fun (u : State) (i : Nat) =>
      (u.cfgGet (0x09000000 + i)).toNat = min ((s.cfgGet (0x09000000 + i)).toNat + 1) 0xFFFFFFFF
    (e.fixed = true → ∃ u, exec (.softError e) s = .next u ∧ counts u (2 * e.hop) ∧ u.mem = s.mem ∧ u.memPoison = s.memPoison) ∧
    (e.fixed = false → ∃ u, exec (.softError e) s = .next u ∧ counts u (2 * e.hop + 1) ∧ (e.hop ≠ 6 → u.mem = s.mem) ∧
      u.errSeq = s.errSeq + 1 ∧
      (e.hop ∈ [1, 3, 4, 5] → u.poisonAt e.idx = some (BitVec.ofNat 12 ((e.hop + 1) * 256 + s.errSeq % 256))))

/-! ### Events of the record writers (R321, R340, R347, R354, R358, R371) -/

/-- R321, R340: the oldest record waiting for a tenant goes to its fault ring while there is room, and the notice counts it; R347: a debug
record goes to its partition's mailbox frame; R354: a PC sample replaces the counter's value; R358: a scan reports cycles that stand as
they stood at the last, each set of nodes once; R371: a bank's counter is cleared. -/
def Obligations.RecordEventsComplete : Prop :=
  let image := fun (r : FaultRec) => leBytes r.cause 1 ++ leBytes (r.cls + 4 * r.chunk) 1 ++ leBytes r.slot 1 ++ [0#8] ++ leBytes r.core 2 ++
    leBytes r.quad 2 ++ leBytes r.launch 4 ++ leBytes r.fpc.toNat 4 ++ leBytes r.finfo.toNat 4 ++ leBytes r.tag.toNat 4 ++
    leBytes r.addr.toNat 8 ++ leBytes r.mask.toNat 32
  (∀ (s : State) (x : Tenant) (r : FaultRec) (rest : List FaultRec), s.tenant? x.tag = some x → x.pendFaults = r :: rest →
    (s.hbmOut x.faults = true ∨ s.hbmOut x.notice = true → Happens (.faultRecordWrite x.tag) s s) ∧
    (Memory.wf s.mem = true → s.writable x.faults 4096 → s.writable x.notice 64 →
    let unread := (x.faultSeq % 2 ^ 32 + 2 ^ 32 - leNat (Memory.bytes s.mem (x.notice + 48) 4)) % 2 ^ 32
    (unread < 64 → x.faults + 4096 ≤ x.notice ∨ x.notice + 64 ≤ x.faults →
      ∃ u y, exec (.faultRecordWrite x.tag) s = .next u ∧ u.tenant? x.tag = some y ∧ y.pendFaults = rest ∧ y.faultSeq = x.faultSeq + 1 ∧
        Memory.bytes u.mem (x.faults + 64 * (x.faultSeq % 64)) 64 = image r ∧
        Memory.bytes u.mem x.notice 8 = leBytes (leNat (Memory.bytes s.mem x.notice 8) + 1) 8) ∧
    (64 ≤ unread → Happens (.faultRecordWrite x.tag) s s))) ∧
  (∀ (s : State) (part : Nat) (r : FaultRec) (rest : List (Nat × FaultRec)), takePart part s.pendDebug = some (r, rest) →
    s.mailboxOf r.tag ≠ none → Memory.wf s.mem = true →
    let base := ((s.cfgGet (0x04000000 + part)).extractLsb' 0 24).toNat * 65536
    s.writable base 2048 →
    let n := leNat (Memory.bytes s.mem (base + 0x10) 4)
    let unread := (n + 2 ^ 32 - leNat (Memory.bytes s.mem (base + 0x14) 4)) % 2 ^ 32
    (unread < 31 → ∃ u, exec (.debugRecordWrite part) s = .next u ∧ u.pendDebug = rest ∧
      Memory.bytes u.mem (base + 0x40 + 64 * (n % 31)) 64 = image r ∧ Memory.bytes u.mem (base + 0x10) 4 = leBytes (n + 1) 4 ∧
      Memory.bytes u.mem (base + 0x18) 40 = List.replicate 40 0#8 ∧
      Memory.bytes u.mem base 8 = leBytes (leNat (Memory.bytes s.mem base 8) + 1) 8) ∧
    (31 ≤ unread → Happens (.debugRecordWrite part) s s)) ∧
  (∀ (s : State) (x : Tenant) (c : Ctr) (k core slot tid : Nat) (w : Wg) (t : Thread), s.tenant? x.tag = some x → x.ctrs[k]? = some c →
    c.event = 0x20 → nextTriple (s.sampled x.tag) c.last = some (core, slot, tid) → s.wgAt core slot = some w → w.thread? tid = some t →
    w.slot < 16 → w.core < 1024 → t.tid < 2048 → s.stallOf w < 16 →
    ∃ u y d, exec (.pcSample x.tag k) s = .next u ∧ u.mem = s.mem ∧ u.wgs = s.wgs ∧ u.tenant? x.tag = some y ∧ y.ctrs[k]? = some d ∧
      d.sample = c.sample + 1 ∧ d.last = some (core, slot, tid) ∧
      (d.value.extractLsb' 0 24).toNat = s.standsAt w t / 4 % 2 ^ 24 ∧ (d.value.extractLsb' 54 10).toNat = c.sample % 1024) ∧
  (∀ s : State, ∃ u, exec .deadlockScan s = .next u ∧ u.mem = s.mem ∧ u.wgs = s.wgs ∧
    u.lastScan = s.waitNodes.map s.noteOf ∧
    let stands := fun c => c ∈ s.cycles (s.deadlocked s.waitNodes.length s.waitNodes) ∧ ∀ n ∈ c, s.noteOf n ∈ s.lastScan
    (∀ c, stands c → s.nodeIds c ∈ u.scanReported ∨ ∃ d, stands d ∧ s.nodeIds d ∈ u.scanReported ∧ s.nodeIds d ∉ s.scanReported ∧
      ∃ n ∈ s.nodeIds d, n ∈ s.nodeIds c) ∧
    ((∀ c, stands c → s.nodeIds c ∈ s.scanReported) → u.tenants = s.tenants ∧
      u.scanReported = s.scanReported.filter fun c => c.all fun n => (s.wg? n.1).isSome)) ∧
  ∀ (s : State) (bank : Nat), bank < 3072 → s.cfgSorted →
    ∃ u, exec (.mcdropClear bank) s = .next u ∧ u.cfgGet (0x0B000000 + bank) = 0#32 ∧
      ∀ a, a ≠ 0x0B000000 + bank → u.cfgGet a = s.cfgGet a

/-! ### The device as a whole -/

/-- R65: the word of an instruction decodes to that instruction, with every operand at every value, also from the bytes of memory it
stands in (R3, R62). -/
def Obligations.DecodeEncodeAgree : Prop :=
  ∀ (i : Instr) (w : Word), encode i = some w →
    decodeWord w = .ok i ∧ ∀ rest, decodeBytes (bytesOfWord w ++ rest) = .ok (i, rest)

/-- A word of every format of R65 and one of `SHIFTI`, written out from the tables of the manual, decodes to the instruction it stands
for; words that no entry claims do not (R64). -/
def Obligations.SampleWordsDecode : Prop :=
  (∀ p ∈ [(0x04200F80#32, Instr.iadd 4 1 0xF0), (0x14303F85#32, .bfxU 6 7 0xF0), (0x2D102600#32, .icmp 2 2 4 0xC0),
      (0x40201782#32, .fmul 4 2 0xF0), (0xA4282FFF#32, .caddi 2 0x82 0xFFF), (0x8455FFFA#32, .bru 5 2 0x1FFFA), (0x8C480070#32, .call 9 0x70),
      (0x94001800#32, .barSync 0 3), (0x64402923#32, .ld 8 5 2 2 3), (0x780FF800#32, .fenceFull 0xFF), (0xB4803100#32, .wred 8 3 1 0 0),
      (0xFC404040#32, .hintImmh 0x4040), (0x182837FF#32, .iaddi 5 6 0x7FF), (0x282C1A11#32, .sari 5 0x83 17),
      (0x81FFFFFE#32, .bra 3 1 0x3FFFFE), (0x93E2190A#32, .wait 31 2 3 4 5), (0xA0881C51#32, .csub 8 0x81 0xC5),
      (0xA8CBE091#32, .aadds 3 2 0xF8 9), (0xAC854123#32, .cld 8 5 1 0x123), (0xD400382B#32, .cntsel 7 5),
      (0xC0843DA1#32, .copyG 2 0x10 15 3 1), (0xC8049000#32, .mdesc 4 9), (0xBA0E0800#32, .swr 7 0x10),
      (0xC4202992#32, .tbarArrive 4 5 3 2)],
    decodeWord p.1 = .ok p.2) ∧
  ∀ w ∈ [0x3C000000#32, 0x08000007#32, 0xFFFFFFFF#32], ∃ e, decodeWord w = .error e

/-- R24, R25, R202, R317, R364, R367, R368, R371: what a cold reset leaves. That memory lists nothing is the model's choice (log 2), that
the island boots with both dies absent its reading (log 1). -/
def Obligations.ResetState : Prop :=
  let s := State.reset
  s.MemoryOk ∧ s.island = .boot ∧ s.die0.endp = .absent ∧ s.die1.endp = .absent ∧ s.wgs = [] ∧ s.runs = [] ∧ s.launches = [] ∧
  s.gangs = [] ∧ s.frozen = none ∧
  (∀ k id, s.tagGet k id = 0x0FFF00#24) ∧ (∀ n, Table.get 0 s.gens n = 0) ∧ (∀ q i, s.tlbGet q i = none) ∧
  (∀ p, p < 16 → s.cfgGet (0x01000000 + 8 * p) = if p = 0 then 0x00010101#32 else 0x00010100#32) ∧
  (∀ p w, p < 16 → 1 ≤ w → w < 8 → s.cfgGet (0x01000000 + 8 * p + w) = 0#32) ∧
  (∀ i, i < 768 → s.cfgGet (0x03000000 + i) = 0#32) ∧ s.cfgGet 0x05000000 = 0#32 ∧ s.cfgGet 0x0D000000 = 0#32 ∧
  (∀ w, w < 16 → s.hasKey w = decide (w = 0))

/-- A step issues the word the head run stands at: the instruction it decodes to, else the unclaimed encoding (R64). An event in the
agenda that needs no run takes place. This is how the model orders what the device does at once (log 3). -/
def Obligations.StepRunsDecodedInstruction : Prop :=
  (∀ (s : State) (r : Run) (word : Word), s.agenda = [] ∨ s.agenda.head? = some .own → s.runs.head? = some r → r.stall = none →
    s.dieRuns (r.core / 384) = true → r.words[r.idx]? = some word →
    let t : State := { s with agenda := s.agenda.tail }
    (∀ i, decodeWord word = .ok i → step s = exec i t) ∧
    ∀ e, decodeWord word = .error e → step s = exec (.unclaimedEncoding word) t) ∧
  (∀ (s : State) (i : Instr) (rest : List Todo), s.agenda = .event i :: rest → encode i = none → (∀ w, i ≠ .unclaimedEncoding w) →
    s.frozen = none ∨ ofDies i = false → step s = exec i { s with agenda := rest }) ∧
  ∀ (s : State) (nbits n : Nat), let t := s.withFetchWord nbits n
    ∃ r, t.runs.head? = some r ∧ r.words[r.idx]? = some (BitVec.ofNat 32 (n % 2 ^ nbits)) ∧ r.stall = none ∧
      t.dieRuns (r.core / 384) = true ∧ t.agenda = .own :: s.agenda ∧ t.mem = s.mem

/-- R35, R46, R47, R82: the words of a block are those fetched from its key on, at most 64, up to a terminator, to the word before a
`UBLK`, or to the word before one that is not fetched; hints that would stand alone at the end are left out. R62: a word is the four
bytes of memory at its address, low byte first. That a fetch returns what memory holds now is the model's choice (log 89); R63 does not
promise it. -/
def Obligations.BlockFetch : Prop :=
  ∀ (s : State) (w : Wg) (key : Nat),
    let hint := fun k => ∃ x, s.fetch w (key + k) = .ok x ∧ x.extractLsb' 26 6 = 0x3F#6
    let ends := fun x : Word => let op := (x.extractLsb' 26 6).toNat
      (op = 0 ∧ (x.extractLsb' 20 6).toNat ∈ [1, 2, 3, 5, 6] ∨ 0x1F ≤ op ∧ op ≤ 0x25 ∨ op = 0x31 ∧ x.extractLsb' 4 3 = 3#3) ∧
        ∃ i, decodeWord x = .ok i ∧ endLegal i
    (∀ n e, n < 64 → (∀ k, k < n → hint k) → s.fetch w (key + n) = .error e → s.fetchBlock w key = .error e) ∧
    ((∀ k, k < 64 → hint k) → ∃ f, s.fetchBlock w key = .error f ∧ f.cause = 1) ∧
    (∀ ws, s.fetchBlock w key = .ok ws → 1 ≤ ws.length ∧ ws.length ≤ 64 ∧
      (∀ k x, ws[k]? = some x → s.fetch w (key + k) = .ok x ∧ (1 ≤ k → x ≠ 0x00400000#32) ∧ (k + 1 < ws.length → ¬ ends x)) ∧
      ((∃ x, ws.getLast? = some x ∧ ends x) ∨ s.fetch w (key + ws.length) = .ok 0x00400000#32 ∨
        ∃ n, ws.length ≤ n ∧ (n = 64 ∨ ∃ e, s.fetch w (key + n) = .error e) ∧ (∀ k, ws.length ≤ k → k < n → hint k) ∧ ¬ hint (ws.length - 1))) ∧
    ∀ (l : Launch) (a : Nat), s.launchOf w = some l → s.translate w .x false (codeAddr l key) 4 = .ok (.mem a) →
      ∀ b, s.codeHome w a = some b → ∃ x, s.fetch w key = .ok x ∧ ∀ i, i < 4 → x.extractLsb' (8 * i) 8 = Memory.read s.mem (b + i)

/-- R64, R84: a word that no entry claims raises `ILLEGAL` in the threads that issue it, and as a fault of class system ends the
workgroup: every thread exits, its cause, position and word stand in the exit information and in a record of the tenant (R339). -/
def Obligations.UnclaimedEncodingEndsWorkgroup : Prop :=
  ∀ word : Word, EndsIllegal word

/-- Every step keeps memory in its canonical form. -/
def Obligations.MemoryStaysCanonical : Prop :=
  ∀ s t : State, s.MemoryOk → step s = .next t → t.MemoryOk

/-- Every step answers a next state, where the workgroup of a run that may issue exists: ordinary data stops nothing. -/
def Obligations.StepAnswers : Prop :=
  ∀ s : State, (s.headWord.isSome = true → s.issuer.isSome = true) → ∃ t, step s = .next t
end

