-- ==== Sys2Proof/Laws/Window.lean ====
section
/-! SUPPORT. Registers through the forwarding window (R108): what a read sees after a write, an eviction, a block's end and
a `HINT.DEAD`. -/

namespace Sys2Proof.Laws

open Sys2Proof.Machine

/-- A register as a read sees it that is not dead. -/
def look (t : Thread) (n : Nat) : Reg := (winFind n t.win).getD (t.bank.getD n ⟨0, none⟩)

/-- The registers of a thread that are dead. -/
def deadRegs (t : Thread) : List Nat := t.dead.map (·.1)

theorem reg_of_not_dead {s : State} {t : Thread} {n : Nat} (h : ∀ p ∈ t.dead, p.1 ≠ n) : t.reg s n = look t n := by
  have hd : (t.dead.find? fun d => d.1 = n) = none := by
    rw [List.find?_eq_none]; intro d hd; simpa using h d hd
  unfold Thread.reg look
  rw [hd]
  cases winFind n t.win <;> rfl

/-- What a window entry covers. -/
theorem winFind_cons (n : Nat) (e : WinEntry) (es : List WinEntry) :
    winFind n (e :: es) = if e.reg ≤ n ∧ n < e.reg + e.vals.length then e.vals[n - e.reg]? else winFind n es := rfl

theorem winFind_append (n : Nat) (a b : List WinEntry) :
    winFind n (a ++ b) = (winFind n a).orElse fun _ => winFind n b := by
  induction a with
  | nil => rfl
  | cons e es ih =>
    rw [List.cons_append, winFind_cons, winFind_cons]
    split
    · rename_i h
      have : n - e.reg < e.vals.length := by omega
      rw [List.getElem?_eq_getElem this]; rfl
    · exact ih

/-! ### The bank -/

theorem bankSet_getD (t : Thread) (n m : Nat) (x : Reg) :
    (t.bankSet n x).bank.getD m ⟨0, none⟩ = if m = n then x else t.bank.getD m ⟨0, none⟩ := by
  unfold Thread.bankSet
  simp only [List.getD_eq_getElem?_getD, List.getElem?_set, List.length_append, List.length_replicate]
  by_cases h : n = m
  · subst h
    rw [if_pos rfl, if_pos (by omega), if_pos rfl]; rfl
  · rw [if_neg h, if_neg (fun h' => h h'.symm), List.getElem?_append]
    split
    · rfl
    · rename_i hm
      rw [List.getElem?_replicate, List.getElem?_eq_none (by omega : t.bank.length ≤ m)]
      split <;> rfl

theorem bankSet_win (t : Thread) (n : Nat) (x : Reg) : (t.bankSet n x).win = t.win := rfl

theorem bankSet_control (t : Thread) (n : Nat) (x : Reg) : (t.bankSet n x).control = t.control := rfl

theorem bankSet_dead (t : Thread) (n : Nat) (x : Reg) : (t.bankSet n x).dead = t.dead.filter fun d => d.1 ≠ n := rfl

/-- A bank write is seen unless the window holds the register. -/
theorem look_bankSet (t : Thread) (n m : Nat) (x : Reg) :
    look (t.bankSet n x) m = (winFind m t.win).getD (if m = n then x else t.bank.getD m ⟨0, none⟩) := by
  unfold look; rw [bankSet_win, bankSet_getD]

/-- What does not touch a thread's place, hints or the rest when only registers move. -/
structure SameBut (t u : Thread) : Prop where
  tid : u.tid = t.tid
  control : u.control = t.control
  place : u.place = t.place
  spilled : u.spilled = t.spilled
  hints : u.hints = t.hints
  saved : u.saved = t.saved
  resume : u.resume = t.resume
  suppress : u.suppress = t.suppress

theorem SameBut.refl (t : Thread) : SameBut t t := ⟨rfl, rfl, rfl, rfl, rfl, rfl, rfl, rfl⟩

theorem SameBut.trans {a b c : Thread} (h : SameBut a b) (k : SameBut b c) : SameBut a c :=
  ⟨k.tid.trans h.tid, k.control.trans h.control, k.place.trans h.place, k.spilled.trans h.spilled, k.hints.trans h.hints,
    k.saved.trans h.saved, k.resume.trans h.resume, k.suppress.trans h.suppress⟩

theorem bankSet_same (t : Thread) (n : Nat) (x : Reg) : SameBut t (t.bankSet n x) := ⟨rfl, rfl, rfl, rfl, rfl, rfl, rfl, rfl⟩

theorem bankSetAll_same (vals : List Reg) (t : Thread) (n : Nat) : SameBut t (t.bankSetAll n vals) := by
  induction vals generalizing t n with
  | nil => exact SameBut.refl t
  | cons x xs ih => exact (bankSet_same t n x).trans (ih _ _)

theorem bankSetAll_win (vals : List Reg) (t : Thread) (n : Nat) : (t.bankSetAll n vals).win = t.win := by
  induction vals generalizing t n with
  | nil => rfl
  | cons x xs ih => exact (ih _ _).trans rfl

theorem bankSetAll_getD (vals : List Reg) (t : Thread) (n m : Nat) :
    (t.bankSetAll n vals).bank.getD m ⟨0, none⟩ =
      if n ≤ m ∧ m < n + vals.length then vals.getD (m - n) ⟨0, none⟩ else t.bank.getD m ⟨0, none⟩ := by
  induction vals generalizing t n with
  | nil => rw [if_neg (by simp only [List.length_nil]; omega)]; rfl
  | cons x xs ih =>
    unfold Thread.bankSetAll
    rw [ih, bankSet_getD]
    by_cases h : n + 1 ≤ m ∧ m < n + 1 + xs.length
    · have h2 : n ≤ m ∧ m < n + (x :: xs).length := by simp only [List.length_cons]; omega
      rw [if_pos h, if_pos h2]
      have h3 : m - n = (m - (n + 1)) + 1 := by omega
      rw [h3]; rfl
    · rw [if_neg h]
      by_cases hm : m = n
      · subst hm
        have h2 : m ≤ m ∧ m < m + (x :: xs).length := by simp only [List.length_cons]; omega
        rw [if_pos rfl, if_pos h2, Nat.sub_self]; rfl
      · have h2 : ¬ (n ≤ m ∧ m < n + (x :: xs).length) := by simp only [List.length_cons]; omega
        rw [if_neg hm, if_neg h2]

theorem bankSetAll_dead (vals : List Reg) (t : Thread) (n : Nat) :
    (t.bankSetAll n vals).dead ⊆ t.dead ∧
      ∀ d ∈ (t.bankSetAll n vals).dead, ¬ (n ≤ d.1 ∧ d.1 < n + vals.length) := by
  induction vals generalizing t n with
  | nil => exact ⟨fun _ h => h, fun d _ h => by simp only [List.length_nil] at h; omega⟩
  | cons x xs ih =>
    obtain ⟨h1, h2⟩ := ih (t.bankSet n x) (n + 1)
    have h3 : (t.bankSetAll n (x :: xs)).dead ⊆ (t.bankSet n x).dead := h1
    refine ⟨fun d hd => (List.mem_filter.mp (h3 hd)).1, fun d hd hr => ?_⟩
    have h4 := h2 d hd
    have h5 : d.1 ≠ n := by simpa using (List.mem_filter.mp (h3 hd)).2
    simp only [List.length_cons] at hr
    omega

/-! ### The end of a block (R48) -/

theorem foldr_bankSetAll (w : List WinEntry) (t : Thread) :
    (∀ m, (w.foldr (fun e u => u.bankSetAll e.reg e.vals) t).bank.getD m ⟨0, none⟩ =
      (winFind m w).getD (t.bank.getD m ⟨0, none⟩)) ∧
    SameBut t (w.foldr (fun e u => u.bankSetAll e.reg e.vals) t) ∧
    (w.foldr (fun e u => u.bankSetAll e.reg e.vals) t).dead ⊆ t.dead ∧
    (∀ d ∈ (w.foldr (fun e u => u.bankSetAll e.reg e.vals) t).dead, winFind d.1 w = none) := by
  induction w with
  | nil => exact ⟨fun _ => rfl, SameBut.refl t, fun _ h => h, fun _ _ => rfl⟩
  | cons e es ih =>
    obtain ⟨h1, h2, h3, h4⟩ := ih
    refine ⟨fun m => ?_, h2.trans (bankSetAll_same _ _ _), fun d hd => h3 ((bankSetAll_dead _ _ _).1 hd), fun d hd => ?_⟩
    · rw [List.foldr_cons, bankSetAll_getD, winFind_cons, h1]
      by_cases h : e.reg ≤ m ∧ m < e.reg + e.vals.length
      · have h' : m - e.reg < e.vals.length := by omega
        rw [if_pos h, if_pos h, List.getD_eq_getElem?_getD, List.getElem?_eq_getElem h']; rfl
      · rw [if_neg h, if_neg h]
    · rw [winFind_cons, if_neg ((bankSetAll_dead _ _ _).2 d hd)]
      exact h4 d ((bankSetAll_dead _ _ _).1 hd)

theorem look_flush (t : Thread) (n : Nat) : look t.flush n = look t n := (foldr_bankSetAll t.win t).1 n

theorem flush_same (t : Thread) : SameBut t t.flush :=
  let h := (foldr_bankSetAll t.win t).2.1
  ⟨h.tid, by
    have := h.control
    simp only [Thread.control, Thread.flush] at this ⊢
    exact this, h.place, h.spilled, h.hints, h.saved, h.resume, h.suppress⟩

theorem flush_dead (t : Thread) : t.flush.dead ⊆ t.dead := (foldr_bankSetAll t.win t).2.2.1

theorem endBlock_tid (t : Thread) : t.endBlock.tid = t.tid := by
  unfold Thread.endBlock; split <;> exact (flush_same t).tid

theorem endBlock_control (t : Thread) : t.endBlock.control = t.control := by
  unfold Thread.endBlock; split <;> exact (flush_same t).control

theorem endBlock_place (t : Thread) : t.endBlock.place = t.place := by
  unfold Thread.endBlock; split <;> exact (flush_same t).place

theorem endBlock_dead (t : Thread) : t.endBlock.dead ⊆ t.dead := by
  unfold Thread.endBlock; split <;> exact flush_dead t

theorem look_endBlock (t : Thread) (n : Nat) : look t.endBlock n = look t n := by
  unfold Thread.endBlock; split <;> exact look_flush t n

theorem endBlock_hints (t : Thread) : t.endBlock.hints = Hints.none ∨ t.resume = true := by
  unfold Thread.endBlock; split
  · rename_i h; exact .inr h
  · exact .inl rfl

/-! ### A result enters the window (R85, R108) -/

theorem evict_fold (e : WinEntry) (younger : List WinEntry) (is : List Nat) (t : Thread)
    :
    let go := fun (u : Thread) (i : Nat) =>
      if (winFind (e.reg + i) younger).isSome then u else u.bankSet (e.reg + i) (e.vals.getD i ⟨0, none⟩)
    (∀ m, (winFind m younger).isNone → (is.foldl go t).bank.getD m ⟨0, none⟩ =
      if e.reg ≤ m ∧ m - e.reg ∈ is then e.vals.getD (m - e.reg) ⟨0, none⟩ else t.bank.getD m ⟨0, none⟩) ∧
    SameBut t (is.foldl go t) ∧ (is.foldl go t).dead ⊆ t.dead := by
  intro go
  induction is using List.reverseRecOn with
  | nil => exact ⟨fun m _ => by simp, SameBut.refl t, fun _ h => h⟩
  | append_singleton is i ih =>
    obtain ⟨h1, h2, h3⟩ := ih
    rw [List.foldl_append]
    show (∀ m, _ → (go (is.foldl go t) i).bank.getD m _ = _) ∧ SameBut t (go (is.foldl go t) i) ∧ (go (is.foldl go t) i).dead ⊆ _
    by_cases hy : (winFind (e.reg + i) younger).isSome = true
    · have : go (is.foldl go t) i = is.foldl go t := if_pos hy
      rw [this]
      refine ⟨fun m hm => ?_, h2, h3⟩
      rw [h1 m hm]
      by_cases hmi : e.reg ≤ m ∧ m - e.reg = i
      · have : m = e.reg + i := by omega
        rw [this] at hm; rw [Option.isNone_iff_eq_none] at hm; rw [hm] at hy; cases hy
      · simp only [List.mem_append, List.mem_singleton]
        by_cases hin : e.reg ≤ m ∧ m - e.reg ∈ is
        · rw [if_pos hin, if_pos ⟨hin.1, .inl hin.2⟩]
        · rw [if_neg hin, if_neg (by rintro ⟨a, b | b⟩; exacts [hin ⟨a, b⟩, hmi ⟨a, b⟩])]
    · have : go (is.foldl go t) i = (is.foldl go t).bankSet (e.reg + i) (e.vals.getD i ⟨0, none⟩) := if_neg hy
      rw [this]
      refine ⟨fun m hm => ?_, h2.trans (bankSet_same _ _ _), fun d hd => h3 (List.mem_filter.mp hd).1⟩
      rw [bankSet_getD, h1 m hm]
      simp only [List.mem_append, List.mem_singleton]
      by_cases hmi : m = e.reg + i
      · rw [if_pos hmi, if_pos ⟨by omega, .inr (by omega)⟩]
        have : m - e.reg = i := by omega
        rw [this]
      · rw [if_neg hmi]
        by_cases hin : e.reg ≤ m ∧ m - e.reg ∈ is
        · rw [if_pos hin, if_pos ⟨hin.1, .inl hin.2⟩]
        · rw [if_neg hin, if_neg (by rintro ⟨a, b | b⟩; exacts [hin ⟨a, b⟩, hmi (by omega)])]

theorem evict_spec (t : Thread) :
    (∀ n, look t.evict n = look t n) ∧ SameBut t t.evict ∧ t.evict.dead ⊆ t.dead := by
  unfold Thread.evict
  split
  · exact ⟨fun _ => rfl, SameBut.refl t, fun _ h => h⟩
  · rename_i e younger hr
    have hw : t.win = younger.reverse ++ [e] := by
      have := congrArg List.reverse hr
      simpa using this
    -- the entries left, youngest first
    have key : ∀ n, winFind n t.win = (winFind n younger.reverse).orElse fun _ => winFind n [e] := fun n => by
      rw [hw, winFind_append]
    have hmem : ∀ n (w : List WinEntry), (winFind n w).isSome = w.any fun x => decide (x.reg ≤ n) && decide (n < x.reg + x.vals.length) := by
      intro n w
      induction w with
      | nil => rfl
      | cons x xs ih =>
        rw [winFind_cons, List.any_cons]
        split
        · rename_i h
          have : n - x.reg < x.vals.length := by omega
          rw [List.getElem?_eq_getElem this]; simp [h.1, h.2]
        · rename_i h
          rw [ih]
          have : (decide (x.reg ≤ n) && decide (n < x.reg + x.vals.length)) = false := by
            simp only [Bool.and_eq_false_iff, decide_eq_false_iff_not]; omega
          rw [this, Bool.false_or]
    have hany : ∀ n, (winFind n younger).isNone = (winFind n younger.reverse).isNone := fun n => by
      have h1 := hmem n younger
      have h2 := hmem n younger.reverse
      rw [List.any_reverse] at h2
      have h3 : (winFind n younger).isSome = (winFind n younger.reverse).isSome := h1.trans h2.symm
      cases ha : winFind n younger <;> cases hb : winFind n younger.reverse <;> simp_all
    obtain ⟨h1, h2, h3⟩ := evict_fold e younger (List.range e.vals.length) t
    refine ⟨fun n => ?_, ⟨h2.tid, by simpa only [Thread.control] using h2.control, h2.place, h2.spilled, h2.hints, h2.saved,
      h2.resume, h2.suppress⟩, h3⟩
    have hl : ∀ u : Thread, look { u with win := younger.reverse } n =
        (winFind n younger.reverse).getD (u.bank.getD n ⟨0, none⟩) := fun _ => rfl
    rw [hl]
    unfold look
    rw [key n]
    cases hy : winFind n younger.reverse with
    | some x => rfl
    | none =>
      have hn : (winFind n younger).isNone = true := by rw [hany, hy]; rfl
      have := h1 n hn
      simp only [Option.getD_none]
      rw [this]; simp only [List.mem_range]
      show _ = ((winFind n [e]).getD _)
      rw [winFind_cons]
      by_cases hc : e.reg ≤ n ∧ n < e.reg + e.vals.length
      · have hlt : n - e.reg < e.vals.length := by omega
        rw [if_pos hc, if_pos ⟨hc.1, hlt⟩, List.getD_eq_getElem?_getD, List.getElem?_eq_getElem hlt]; rfl
      · rw [if_neg hc, if_neg (fun h => hc ⟨h.1, by omega⟩)]; rfl

/-- What a read sees after a result of one or more words enters the window. -/
theorem write_spec (t : Thread) (n : Nat) (vals : List Reg) :
    (∀ m, look (t.write n vals) m = if n ≤ m ∧ m < n + vals.length then vals.getD (m - n) ⟨0, none⟩ else look t m) ∧
    SameBut t (t.write n vals) ∧
    (∀ d ∈ (t.write n vals).dead, d ∈ t.dead ∧ ¬ (n ≤ d.1 ∧ d.1 < n + vals.length)) := by
  let t1 : Thread := { t with
    win := ⟨n, vals⟩ :: t.win
    dead := t.dead.filter fun d => !(decide (n ≤ d.1) && decide (d.1 < n + vals.length)) }
  have hw : t.write n vals = if 8 < t1.win.length then t1.evict else t1 := rfl
  have h1 : ∀ m, look t1 m = if n ≤ m ∧ m < n + vals.length then vals.getD (m - n) ⟨0, none⟩ else look t m := fun m => by
    show (winFind m (⟨n, vals⟩ :: t.win)).getD _ = _
    rw [winFind_cons]
    show (if n ≤ m ∧ m < n + vals.length then vals[m - n]? else winFind m t.win).getD _ = _
    by_cases h : n ≤ m ∧ m < n + vals.length
    · have : m - n < vals.length := by omega
      rw [if_pos h, if_pos h]; simp only [List.getD_eq_getElem?_getD, List.getElem?_eq_getElem this, Option.getD_some]
    · rw [if_neg h, if_neg h]; rfl
  have h2 : ∀ d ∈ t1.dead, d ∈ t.dead ∧ ¬ (n ≤ d.1 ∧ d.1 < n + vals.length) := fun d hd => by
    have := List.mem_filter.mp hd
    refine ⟨this.1, fun h => ?_⟩
    have h3 := this.2
    simp [h.1, h.2] at h3
  have h0 : SameBut t t1 := ⟨rfl, rfl, rfl, rfl, rfl, rfl, rfl, rfl⟩
  rw [hw]
  split
  · obtain ⟨e1, e2, e3⟩ := evict_spec t1
    exact ⟨fun m => (e1 m).trans (h1 m), h0.trans e2, fun d hd => h2 d (e3 hd)⟩
  · exact ⟨h1, h0, h2⟩

/-! ### `HINT.DEAD` (R76) -/

/-- An entry that has lost its only register is empty, and finds nothing. -/
theorem winFind_without (n m : Nat) (e : WinEntry) :
    winFind m (e.without n) =
      if e.reg ≤ n ∧ n < e.reg + e.vals.length then
        winFind m ((List.range e.vals.length).filterMap fun i =>
          if e.reg + i = n then none else some (⟨e.reg + i, [e.vals.getD i ⟨0, none⟩]⟩ : WinEntry))
      else winFind m [e] := by
  unfold WinEntry.without
  split
  · split
    · rename_i h
      rw [h]
      show (if e.reg ≤ m ∧ m < e.reg + 0 then _ else _) = _
      rw [if_neg (by omega)]
    · rfl
  · rfl

theorem winFind_drop (n m : Nat) (h : m ≠ n) (w : List WinEntry) :
    winFind m (w.flatMap (WinEntry.without n)) = winFind m w := by
  induction w with
  | nil => rfl
  | cons e es ih =>
    rw [List.flatMap_cons, winFind_append, ih, winFind_cons, winFind_without]
    split
    · have hone : ∀ (k : Nat), k ≤ e.vals.length → winFind m ((List.range k).filterMap fun i =>
          if e.reg + i = n then none else some (⟨e.reg + i, [e.vals.getD i ⟨0, none⟩]⟩ : WinEntry)) =
          if e.reg ≤ m ∧ m < e.reg + k then e.vals[m - e.reg]? else none := by
        intro k hk
        induction k with
        | zero => rw [if_neg (by omega)]; rfl
        | succ k ihk =>
          rw [List.range_succ, List.filterMap_append, winFind_append, ihk (by omega)]
          by_cases hc : e.reg ≤ m ∧ m < e.reg + k
          · have hlt : m - e.reg < e.vals.length := by omega
            rw [if_pos hc, if_pos ⟨hc.1, by omega⟩, List.getElem?_eq_getElem hlt]; rfl
          · rw [if_neg hc]
            by_cases hm : m = e.reg + k
            · have hlt : m - e.reg < e.vals.length := by omega
              rw [if_pos ⟨by omega, by omega⟩]
              have hn : ¬ e.reg + k = n := fun hh => h (hm.trans hh)
              have hk' : k < e.vals.length := by omega
              have hs : m - e.reg = k := by omega
              have hg : (e.reg + k ≤ m ∧ m < e.reg + k + 1) := by omega
              have hz : m - (e.reg + k) = 0 := by omega
              simp [hn, winFind, hg, hz, hs, hk']
            · rw [if_neg (by omega)]
              by_cases hn : e.reg + k = n
              · simp [hn, winFind]
              · have hg : ¬ (e.reg + k ≤ m ∧ m < e.reg + k + 1) := by omega
                simp only [List.filterMap_cons, hn, if_false, List.filterMap_nil, Option.orElse_none, winFind_cons, List.length_singleton]
                rw [if_neg hg]; rfl
      rw [hone _ (Nat.le_refl _)]
      split
      · rename_i hc
        have hlt : m - e.reg < e.vals.length := by omega
        rw [List.getElem?_eq_getElem hlt]; rfl
      · rfl
    · rw [winFind_cons]
      split
      · rename_i hc
        have hlt : m - e.reg < e.vals.length := by omega
        rw [List.getElem?_eq_getElem hlt]; rfl
      · rfl

theorem kill_spec (q : Nat) (t : Thread) (n : Nat) :
    (∀ m, m ≠ n → look (t.kill q n) m = look t m) ∧ SameBut t (t.kill q n) ∧
    (∀ d ∈ (t.kill q n).dead, d ∈ t.dead ∨ d.1 = n) := by
  unfold Thread.kill
  split
  · exact ⟨fun _ _ => rfl, SameBut.refl t, fun d hd => .inl hd⟩
  · split
    · exact ⟨fun _ _ => rfl, SameBut.refl t, fun d hd => .inl hd⟩
    · refine ⟨fun m hm => ?_, ⟨rfl, rfl, rfl, rfl, rfl, rfl, rfl, rfl⟩, fun d hd => ?_⟩
      · unfold look
        exact congrArg (fun x : Option Reg => x.getD _) (winFind_drop n m hm t.win)
      · rcases List.mem_cons.mp hd with h | h
        · exact .inr (congrArg Prod.fst h)
        · exact .inl (List.mem_filter.mp h).1

theorem kills_spec (q : Nat) (ns : List Nat) (t : Thread) :
    (∀ m, m ∉ ns → look (ns.foldl (Thread.kill q) t) m = look t m) ∧ SameBut t (ns.foldl (Thread.kill q) t) ∧
    (∀ d ∈ (ns.foldl (Thread.kill q) t).dead, d ∈ t.dead ∨ d.1 ∈ ns) := by
  induction ns generalizing t with
  | nil => exact ⟨fun _ _ => rfl, SameBut.refl t, fun d hd => .inl hd⟩
  | cons n ns ih =>
    obtain ⟨k1, k2, k3⟩ := kill_spec q t n
    obtain ⟨i1, i2, i3⟩ := ih (t.kill q n)
    refine ⟨fun m hm => ?_, k2.trans i2, fun d hd => ?_⟩
    · rw [List.mem_cons, not_or] at hm
      exact (i1 m hm.2).trans (k1 m hm.1)
    · rcases i3 d hd with h | h
      · rcases k3 d h with h | h
        · exact .inl h
        · exact .inr (List.mem_cons.mpr (.inl h))
      · exact .inr (List.mem_cons.mpr (.inr h))

/-- A thread for which the target of its hints has issued. -/
theorem issued_spec (q : Nat) (t : Thread) :
    (∀ m, m ∉ deadNames t.hints → look (t.issued q) m = look t m) ∧ (t.issued q).tid = t.tid ∧
    (t.issued q).control = t.control ∧ (t.issued q).place = t.place ∧ (t.issued q).hints = Hints.none ∧
    (t.issued q).resume = t.resume ∧ (∀ d ∈ (t.issued q).dead, d ∈ t.dead ∨ d.1 ∈ deadNames t.hints) := by
  obtain ⟨h1, h2, h3⟩ := kills_spec q (deadNames t.hints) t
  refine ⟨fun m hm => h1 m hm, h2.tid, ?_, h2.place, rfl, h2.resume, h3⟩
  have := h2.control
  simp only [Thread.control, Thread.issued] at this ⊢
  exact this

end Sys2Proof.Laws
end

