-- ==== Sys2Proof/Laws/Issue.lean ====
section
/-! SUPPORT. The issue of one instruction (R12, R48, R52, R84): what moving a run on and counting the issue leave alone, and
what a group that executes an instruction without a fault becomes. -/

namespace Sys2Proof.Laws

open Sys2Proof.Machine

/-! ### Looking up a workgroup and a thread after an update -/

theorem find_map {α : Type} {f : α → α} {p : α → Bool} (l : List α) (h : ∀ x ∈ l, p (f x) = p x) :
    (l.map f).find? p = (l.find? p).map f := by
  induction l with
  | nil => rfl
  | cons x xs ih =>
    rw [List.map_cons, List.find?_cons, List.find?_cons, h x (List.mem_cons_self ..)]
    cases p x with
    | true => rfl
    | false => exact ih fun y hy => h y (List.mem_cons_of_mem _ hy)

theorem wg_onWg (s : State) (uid v : Nat) (f : Wg → Wg) (h : ∀ w : Wg, (f w).uid = w.uid) :
    (s.onWg uid f).wg? v = (s.wg? v).map fun w => if w.uid = uid then f w else w := by
  unfold State.wg? State.onWg
  apply find_map
  intro w _
  by_cases hw : w.uid = uid
  · simp only [if_pos hw, h]
  · simp only [if_neg hw]

theorem wg_uid {s : State} {uid : Nat} {w : Wg} (h : s.wg? uid = some w) : w.uid = uid := by
  have := List.find?_some h
  simpa using this

theorem wg_onWg_same {s : State} {uid : Nat} {w : Wg} {f : Wg → Wg} (h : ∀ w : Wg, (f w).uid = w.uid)
    (hw : s.wg? uid = some w) : (s.onWg uid f).wg? uid = some (f w) := by
  rw [wg_onWg s uid uid f h, hw, Option.map_some, if_pos (wg_uid hw)]

theorem wg_onWg_other {s : State} {uid v : Nat} {f : Wg → Wg} (h : ∀ w : Wg, (f w).uid = w.uid) (hv : v ≠ uid) :
    (s.onWg uid f).wg? v = s.wg? v := by
  rw [wg_onWg s uid v f h]
  cases hw : s.wg? v with
  | none => rfl
  | some w => rw [Option.map_some, if_neg (by rw [wg_uid hw]; exact hv)]

theorem thread_tid {w : Wg} {tid : Nat} {t : Thread} (h : w.thread? tid = some t) : t.tid = tid := by
  have := List.find?_some h
  simpa using this

theorem thread_mem {w : Wg} {tid : Nat} {t : Thread} (h : w.thread? tid = some t) : t ∈ w.threads :=
  List.mem_of_find?_eq_some h

theorem thread_map (w : Wg) (f : Thread → Thread) (h : ∀ t, (f t).tid = t.tid) (tid : Nat) :
    ({ w with threads := w.threads.map f } : Wg).thread? tid = (w.thread? tid).map f :=
  find_map _ fun t _ => by simp only [h]

/-! ### What moves on without changing registers -/

/-- A thread that only moved, its results perhaps written to the bank. -/
structure ThreadSlid (t t' : Thread) : Prop where
  tid : t'.tid = t.tid
  control : t'.control = t.control
  look : ∀ n, look t' n = look t n
  dead : t'.dead ⊆ t.dead
  hints : t'.hints = t.hints ∨ t'.hints = Hints.none ∨ t.resume = true
  resume : t.resume = false → t'.resume = false

theorem ThreadSlid.refl (t : Thread) : ThreadSlid t t := ⟨rfl, rfl, fun _ => rfl, fun _ h => h, .inl rfl, id⟩

theorem ThreadSlid.trans {a b c : Thread} (h : ThreadSlid a b) (k : ThreadSlid b c) : ThreadSlid a c := by
  refine ⟨k.tid.trans h.tid, k.control.trans h.control, fun n => (k.look n).trans (h.look n), fun d hd => h.dead (k.dead hd), ?_,
    fun hr => k.resume (h.resume hr)⟩
  by_cases hr : a.resume = true
  · exact .inr (.inr hr)
  · have hb : b.resume = false := h.resume (by simpa using hr)
    rcases k.hints with e | e | e
    · rw [e]; exact h.hints
    · exact .inr (.inl e)
    · rw [hb] at e; cases e

structure WgSlid (w w' : Wg) : Prop where
  uid : w'.uid = w.uid
  control : w'.control = w.control
  threads : ∀ tid t, w.thread? tid = some t → ∃ t', w'.thread? tid = some t' ∧ ThreadSlid t t'
  gone : ∀ tid, w.thread? tid = none → w'.thread? tid = none

theorem WgSlid.refl (w : Wg) : WgSlid w w := ⟨rfl, rfl, fun _ t h => ⟨t, h, ThreadSlid.refl t⟩, fun _ h => h⟩

theorem WgSlid.trans {a b c : Wg} (h : WgSlid a b) (k : WgSlid b c) : WgSlid a c := by
  refine ⟨k.uid.trans h.uid, k.control.trans h.control, fun tid t ht => ?_, fun tid ht => k.gone tid (h.gone tid ht)⟩
  obtain ⟨t1, h1, s1⟩ := h.threads tid t ht
  obtain ⟨t2, h2, s2⟩ := k.threads tid t1 h1
  exact ⟨t2, h2, s1.trans s2⟩

theorem wgSlid_map (w : Wg) (f : Thread → Thread) (h : ∀ t, ThreadSlid t (f t)) :
    WgSlid w { w with threads := w.threads.map f } :=
  ⟨rfl, rfl, fun tid t ht => ⟨f t, by rw [thread_map w f (fun t => (h t).tid), ht]; rfl, h t⟩,
    fun tid ht => by rw [thread_map w f (fun t => (h t).tid), ht]; rfl⟩

/-- The counters a wait reads are those of the thread before. -/
theorem WgSlid.cnt {w w' : Wg} (h : WgSlid w w') (tid : Nat) :
    (w'.thread? tid).map (fun t => t.cnt) = (w.thread? tid).map fun t => t.cnt := by
  cases ht : w.thread? tid with
  | none => rw [h.gone tid ht]
  | some t =>
    obtain ⟨t', h1, h2⟩ := h.threads tid t ht
    rw [h1]
    exact congrArg some (congrArg Thread.cnt h2.control : t'.control.cnt = t.control.cnt)

/-- A state that moved a run of the workgroup `uid` on port `port` of core `core` and nothing else that a statement
speaks of. -/
structure Slid (s u : State) (core port uid : Nat) : Prop where
  elsewhere : u.elsewhere = s.elsewhere
  tenants : u.tenants.map Tenant.quiet = s.tenants.map Tenant.quiet
  runs : ∀ q : Run, q.core ≠ core ∨ q.port ≠ port → (q ∈ u.runs ↔ q ∈ s.runs)
  others : ∀ v, v ≠ uid → u.wg? v = s.wg? v
  own : ∀ w, s.wg? uid = some w → ∃ w', u.wg? uid = some w' ∧ WgSlid w w'
  gone : s.wg? uid = none → u.wg? uid = none

theorem Slid.refl (s : State) (core port uid : Nat) : Slid s s core port uid :=
  ⟨rfl, rfl, fun _ _ => Iff.rfl, fun _ _ => rfl, fun w h => ⟨w, h, WgSlid.refl w⟩, id⟩

theorem Slid.trans {a b c : State} {core port uid : Nat} (h : Slid a b core port uid) (k : Slid b c core port uid) :
    Slid a c core port uid := by
  refine ⟨k.elsewhere.trans h.elsewhere, k.tenants.trans h.tenants, fun q hq => (k.runs q hq).trans (h.runs q hq),
    fun v hv => (k.others v hv).trans (h.others v hv), fun w hw => ?_, fun hn => k.gone (h.gone hn)⟩
  obtain ⟨w1, h1, s1⟩ := h.own w hw
  obtain ⟨w2, h2, s2⟩ := k.own w1 h1
  exact ⟨w2, h2, s1.trans s2⟩

theorem slid_onWg (s : State) (core port uid : Nat) (f : Wg → Wg) (hu : ∀ w : Wg, (f w).uid = w.uid)
    (h : ∀ w, WgSlid w (f w)) : Slid s (s.onWg uid f) core port uid :=
  ⟨rfl, rfl, fun _ _ => Iff.rfl, fun _ hv => wg_onWg_other hu hv, fun w hw => ⟨f w, wg_onWg_same hu hw, h w⟩,
    fun hn => by rw [wg_onWg s uid uid f hu, hn]; rfl⟩

theorem slid_count (s : State) (core port uid : Nat) (t : Tag) (e n : Nat) : Slid s (s.count t e n) core port uid := by
  refine ⟨rfl, ?_, fun _ _ => Iff.rfl, fun _ _ => rfl, fun w h => ⟨w, h, WgSlid.refl w⟩, id⟩
  show (List.map _ (List.map _ s.tenants)) = _
  rw [List.map_map]
  apply List.map_congr_left
  intro x _
  show Tenant.quiet (if x.tag = t then _ else x) = Tenant.quiet x
  split <;> rfl

theorem slid_advanceFree (s : State) (core port uid : Nat) : Slid s s.advanceFree core port uid :=
  ⟨rfl, rfl, fun _ _ => Iff.rfl, fun _ _ => rfl, fun w h => ⟨w, h, WgSlid.refl w⟩, id⟩

theorem slid_issuedOne (s : State) (w : Wg) (core port : Nat) : Slid s (s.issuedOne w) core port w.uid := by
  have h1 := slid_count s core port w.uid (s.tagOf w) 0x01 1
  have h2 := slid_onWg (s.count (s.tagOf w) 0x01 1) core port w.uid (fun v => { v with issuing := true }) (fun _ => rfl)
    fun v => ⟨rfl, rfl, fun _ t ht => ⟨t, ht, ThreadSlid.refl t⟩, fun _ h => h⟩
  refine (h1.trans h2).trans ?_
  exact ⟨rfl, rfl, fun _ _ => Iff.rfl, fun _ _ => rfl, fun v h => ⟨v, h, WgSlid.refl v⟩, id⟩

theorem slid_runs (s : State) (core port uid : Nat) (rs : List Run)
    (h : ∀ q : Run, q.core ≠ core ∨ q.port ≠ port → (q ∈ rs ↔ q ∈ s.runs)) :
    Slid s { s with runs := rs } core port uid :=
  ⟨rfl, rfl, h, fun _ _ => rfl, fun w hw => ⟨w, hw, WgSlid.refl w⟩, id⟩

theorem slid_entries (s : State) (core port uid : Nat) (es : List Entry) : Slid s { s with entries := es } core port uid :=
  ⟨rfl, rfl, fun _ _ => Iff.rfl, fun _ _ => rfl, fun w hw => ⟨w, hw, WgSlid.refl w⟩, id⟩

theorem slid_onThread (s : State) (core port uid tid : Nat) (f : Thread → Thread) (h : ∀ t, ThreadSlid t (f t)) :
    Slid s (s.onThread uid tid f) core port uid := by
  refine slid_onWg s core port uid _ (fun _ => rfl) fun w => wgSlid_map w _ fun t => ?_
  split
  · exact h t
  · exact ThreadSlid.refl t

theorem threadSlid_place (t : Thread) (p : Place) (b : Bool) : ThreadSlid t { t with place := p, spilled := b } :=
  ⟨rfl, rfl, fun _ => rfl, fun _ h => h, .inl rfl, id⟩

theorem slid_arrive (s : State) (core port uid tid key : Nat) (on : WaitOn) (sched : Option (Bool × BitVec 16)) :
    Slid s (s.arrive uid tid key on sched) core port uid := by
  unfold State.arrive
  split
  · exact Slid.refl _ _ _ _
  · dsimp only
    split
    · exact (slid_entries s core port uid _).trans (slid_onThread _ core port uid tid _ fun t => threadSlid_place t _ _)
    · split
      · exact (slid_entries s core port uid _).trans (slid_onThread _ core port uid tid _ fun t => threadSlid_place t _ _)
      · exact (slid_count s core port uid _ _ _).trans (slid_onThread _ core port uid tid _ fun t => threadSlid_place t _ _)

theorem slid_foldl {α : Type} (core port uid : Nat) (f : State → α → State) (l : List α) (s : State)
    (h : ∀ s, ∀ x ∈ l, Slid s (f s x) core port uid) : Slid s (l.foldl f s) core port uid := by
  induction l generalizing s with
  | nil => exact Slid.refl _ _ _ _
  | cons x xs ih =>
    exact (h s x (List.mem_cons_self ..)).trans (ih (f s x) fun s y hy => h s y (List.mem_cons_of_mem _ hy))

theorem threadSlid_endBlock (t : Thread) : ThreadSlid t t.endBlock := by
  refine ⟨endBlock_tid t, endBlock_control t, look_endBlock t, endBlock_dead t, ?_, ?_⟩
  · rcases endBlock_hints t with h | h
    · exact .inr (.inl h)
    · exact .inr (.inr h)
  · intro h
    unfold Thread.endBlock
    rw [if_neg (by rw [h]; decide)]
    exact (flush_same t).resume.trans h

theorem Slid.barriers {s u : State} {core port uid : Nat} (h : Slid s u core port uid) : u.barriers = s.barriers := by
  show u.elsewhere.barriers = s.elsewhere.barriers
  rw [h.elsewhere]

/-- A parking goes to its place and no more, if its workgroup is still there. -/
def Settles (s : State) (uid : Nat) (p : Parking) : Prop :=
  (∃ k on, p.place = .waiting k on ∧ ∀ w, s.wg? uid = some w → s.waitOver w p.tid on = false) ∨
    (p.place = .exited ∧ s.barriers = [])

theorem settles_of {s : State} {uid : Nat} {w : Wg} {p : Parking} (hw : s.wg? uid = some w) (h : p.settles s w) : Settles s uid p := by
  rcases h with ⟨k, on, h1, h2⟩ | h
  · exact .inl ⟨k, on, h1, fun v hv => by rw [hw] at hv; cases hv; exact h2⟩
  · exact .inr h

/-- A thread that waits for nothing settles. -/
theorem settles_ready (s : State) (uid tid key : Nat) (sc : Option (Bool × BitVec 16)) :
    Settles s uid ⟨tid, .waiting key .ready, sc⟩ := .inl ⟨key, .ready, rfl, fun _ _ => rfl⟩

/-- Whether a wait is over depends on the thread's counters, the workgroup's own registers and what lies beyond workgroups. -/
theorem waitOver_congr {s u : State} {w w' : Wg} {tid : Nat} (he : u.elsewhere = s.elsewhere) (hu : w'.uid = w.uid)
    (hc : w'.control = w.control) (ht : (w'.thread? tid).map (fun t => t.cnt) = (w.thread? tid).map fun t => t.cnt) (on : WaitOn) :
    u.waitOver w' tid on = s.waitOver w tid on := by
  have e1 : ∀ sc, u.barrierInst w' sc = s.barrierInst w sc := fun sc => by
    have a : u.barrierInst w' sc = u.elsewhere.barrierInst w'.control sc := rfl
    have b : s.barrierInst w sc = s.elsewhere.barrierInst w.control sc := rfl
    rw [a, b, he, hc]
  have e2 : ∀ sc id, u.barrierAt w' sc id = s.barrierAt w sc id := fun sc id => by
    unfold State.barrierAt
    rw [e1, show u.barriers = s.barriers by have h := congrArg State.barriers he; exact h]
  unfold State.waitOver
  cases on with
  | counters nl ns nc nm nx uni a =>
    dsimp only
    rw [show w'.common = w.common by have h := congrArg Wg.common hc; exact h]
    cases h1 : w.thread? tid with
    | none =>
      rw [h1] at ht
      cases h2 : w'.thread? tid with
      | none => rfl
      | some t' => rw [h2] at ht; cases ht
    | some t =>
      rw [h1] at ht
      cases h2 : w'.thread? tid with
      | none => rw [h2] at ht; cases ht
      | some t' =>
        rw [h2] at ht
        have := Option.some.inj ht
        simp only [Option.any_some]
        rw [show t'.cnt = t.cnt from this]
  | barrier sc id _ x ph => cases x <;> simp only [e2]
  | _ => rfl

theorem Slid.settles {s u : State} {core port uid : Nat} (h : Slid s u core port uid) {p : Parking} (hp : Settles s uid p) :
    Settles u uid p := by
  rcases hp with ⟨k, on, h1, h2⟩ | ⟨h1, h2⟩
  · refine .inl ⟨k, on, h1, fun w' hw' => ?_⟩
    cases hw : s.wg? uid with
    | none => rw [h.gone hw] at hw'; cases hw'
    | some w =>
      obtain ⟨v, hv, sl⟩ := h.own w hw
      rw [hv] at hw'
      cases hw'
      rw [waitOver_congr h.elsewhere sl.uid sl.control (sl.cnt p.tid), h2 w hw]
  · exact .inr ⟨h1, h.barriers.trans h2⟩

theorem park_waiting {uid : Nat} {s : State} {p : Parking} {k : Nat} {on : WaitOn} (h : p.place = .waiting k on)
    (ho : ∀ w, s.wg? uid = some w → s.waitOver w p.tid on = false) : s.park uid p = s.arrive uid p.tid k on p.sched := by
  unfold State.park
  rw [h]
  dsimp only
  cases hw : s.wg? uid with
  | none => unfold State.arrive; rw [hw]
  | some w => dsimp only; rw [ho w hw]; rfl

theorem park_exited {uid : Nat} {s : State} {p : Parking} (h : p.place = .exited) (hb : s.barriers = []) :
    s.park uid p = s.onThread uid p.tid fun t => { t with place := .exited } := by
  unfold State.park State.settleBarriers
  rw [h]
  show (s.barriers.foldl _ _) = _
  rw [hb]; rfl

theorem slid_park (s : State) (core port uid : Nat) (p : Parking) (h : Settles s uid p) : Slid s (s.park uid p) core port uid := by
  rcases h with ⟨k, on, hk, ho⟩ | ⟨hx, hb⟩
  · rw [park_waiting hk ho]; exact slid_arrive ..
  · rw [park_exited hx hb]
    exact slid_onThread s core port uid p.tid _ fun t => threadSlid_place t _ _

theorem slid_parks (core port uid : Nat) (l : List Parking) (s : State) (h : ∀ p ∈ l, Settles s uid p) :
    Slid s (l.foldl (fun s p => s.park uid p) s) core port uid := by
  induction l generalizing s with
  | nil => exact Slid.refl _ _ _ _
  | cons p ps ih =>
    have h1 := slid_park s core port uid p (h p (List.mem_cons_self ..))
    exact h1.trans (ih _ fun q hq => h1.settles (h q (List.mem_cons_of_mem _ hq)))

/-- The results of the threads of an ending run are written. -/
theorem slid_endBlocks (s : State) (core port uid : Nat) (c : Thread → Bool) :
    Slid s (s.onWg uid fun w => { w with threads := w.threads.map fun t => if c t then t.endBlock else t }) core port uid := by
  refine slid_onWg s core port uid _ (fun _ => rfl) fun w => wgSlid_map w (fun t => _) fun t => ?_
  split
  · exact threadSlid_endBlock t
  · exact ThreadSlid.refl t

/-- The end of a block whose threads go to their places and no more (R48). -/
theorem slid_endRun (s : State) (r : Run) (core port : Nat) (h : ∀ p ∈ r.parked, Settles s r.wg p) :
    Slid s (s.endRun r) core port r.wg := by
  unfold State.endRun
  dsimp only
  refine Slid.trans ?_ (slid_foldl core port r.wg _ _ _ fun s tid _ => slid_arrive ..)
  have h1 := slid_endBlocks s core port r.wg fun t =>
    decide (r.groups.flatten.contains t.tid = true ∨ r.parked.any (fun p => p.tid = t.tid) = true)
  simp only [decide_eq_true_eq] at h1
  exact h1.trans (slid_parks core port r.wg r.parked _ fun p hp => h1.settles (h p hp))

theorem mem_enqueueRun (rs : List Run) (r q : Run) : q ∈ enqueueRun rs r ↔ q ∈ rs ∨ q = r := by
  unfold enqueueRun
  split
  · simp only [List.mem_append, List.mem_filter, List.mem_singleton, decide_eq_true_eq]
    by_cases h : q.stall = none
    · simp only [h, and_true, ne_eq, not_true, and_false, or_false]
    · simp only [h, and_false, ne_eq, not_false_eq_true, and_true, false_or]; exact or_comm
  · simp only [List.mem_append, List.mem_singleton]

theorem mem_dropRun (s : State) (r q : Run) (h : q.core ≠ r.core ∨ q.port ≠ r.port) : q ∈ (s.dropRun r).runs ↔ q ∈ s.runs := by
  unfold State.dropRun
  rw [List.mem_filter]
  refine ⟨fun h => h.1, fun hq => ⟨hq, ?_⟩⟩
  rcases h with h | h <;> simp [h]

/-- Moving a run on, or ending its block. -/
theorem slid_advance (s : State) (core port uid : Nat) (whole : Bool)
    (h : ∀ r, (s.runs.find? fun x => decide (x.core = core) && decide (x.port = port)) = some r →
      r.wg = uid ∧ ∀ p ∈ r.parked, Settles s uid p) :
    Slid s (s.advance core port whole) core port uid := by
  unfold State.advance
  split
  · exact Slid.refl _ _ _ _
  · rename_i r hr
    have hcp : r.core = core ∧ r.port = port := by
      have := List.find?_some hr
      simpa using this
    obtain ⟨hw, hp⟩ := h r hr
    dsimp only
    have h0 : Slid s (s.dropRun r) core port uid := slid_runs s core port uid _ fun q hq =>
      mem_dropRun s r q (by rw [hcp.1, hcp.2]; exact hq)
    have hen : ∀ r' : Run, r'.core = core → r'.port = port →
        Slid s { s.dropRun r with runs := enqueueRun (s.dropRun r).runs r' } core port uid := fun r' hc hp' =>
      h0.trans (slid_runs _ core port uid _ fun q hq => by
        rw [mem_enqueueRun]
        refine ⟨fun h => h.elim id fun e => ?_, .inl⟩
        subst e; exact (hq.elim (fun h => h hc) (fun h => h hp')).elim)
    split
    · exact hen _ hcp.1 hcp.2
    · split
      · exact hen _ hcp.1 hcp.2
      · subst hw
        exact h0.trans (slid_endRun _ r core port fun p h => h0.settles (hp p h))

/-! ### The group that issues -/

theorem issuer_spec {s : State} {r : Run} {w : Wg} (h : s.issuer = some (r, w)) :
    (∃ rest, s.runs = r :: rest) ∧ s.wg? r.wg = some w ∧ w.uid = r.wg := by
  unfold State.issuer at h
  split at h
  · cases h
  · rename_i r' rest hr
    cases hw : s.wg? r'.wg with
    | none => rw [hw] at h; cases h
    | some v =>
      rw [hw] at h
      simp only [Option.map_some, Option.some.injEq, Prod.mk.injEq] at h
      obtain ⟨rfl, rfl⟩ := h
      exact ⟨⟨rest, hr⟩, hw, wg_uid hw⟩

theorem mem_group {r : Run} {w : Wg} {t : Thread} (h : t ∈ w.threads) :
    t ∈ r.group w ↔ (r.groups.getD r.grp []).contains t.tid = true := by
  unfold Run.group
  rw [List.mem_filter]
  exact ⟨fun h => h.2, fun k => ⟨h, k⟩⟩

theorem find_filter_tid (g : List Nat) (w : Wg) (tid : Nat) :
    ((w.threads.filter fun t => g.contains t.tid).find? fun t => t.tid = tid) =
      if g.contains tid then w.thread? tid else none := by
  unfold Wg.thread?
  induction w.threads with
  | nil => simp
  | cons t ts ih =>
    rw [List.filter_cons, List.find?_cons]
    by_cases ht : t.tid = tid
    · subst ht
      by_cases hg : g.contains t.tid = true
      · simp only [hg, if_true, List.find?_cons, decide_true]
      · simp only [hg] at ih ⊢
        simpa using ih
    · split
      · simp only [List.find?_cons, ht, decide_false]; exact ih
      · simp only [ht, decide_false]; exact ih

/-- The act of a thread of the group, found by its `%tid`. -/
theorem find_act {r : Run} {w : Wg} (F : Thread → Act) {tid : Nat} {t : Thread} (ht : w.thread? tid = some t) :
    (((r.group w).map fun t => (t.tid, F t)).find? fun a => a.1 = t.tid) =
      if t ∈ r.group w then some (t.tid, F t) else none := by
  rw [List.find?_map]
  have h := find_filter_tid (r.groups.getD r.grp []) w t.tid
  have h2 : w.thread? t.tid = some t := by rw [thread_tid ht]; exact ht
  rw [h2] at h
  have h3 : ((r.group w).find? ((fun a : Nat × Act => decide (a.1 = t.tid)) ∘ fun t => (t.tid, F t))) =
      if (r.groups.getD r.grp []).contains t.tid then some t else none := h
  rw [h3]
  by_cases hg : (r.groups.getD r.grp []).contains t.tid = true
  · rw [if_pos hg, if_pos ((mem_group (thread_mem ht)).mpr hg)]; rfl
  · rw [if_neg hg, if_neg (fun h => hg ((mem_group (thread_mem ht)).mp h))]; rfl

/-- What a thread of the group does when nothing faults: its guard decides (R12). -/
def okAct (x : Who) (ends : Bool) (f : Thread → Thread) (pl : Thread → Option Place) (po : Thread → List (State → State))
    (t : Thread) : Act :=
  if t.guard.val = true then .ok (f t) (pl t) (po t) else skipAct x ends t

/-- The operands of an instruction are all in order for a thread (orders 3 to 6 of R84), and no register it names waits for a
load (R112). -/
structure Ready (fm : Form) (x : Who) (t : Thread) : Prop where
  check : fm.check x false t = none
  pending : ∀ o ∈ fm.ops, ∀ n ∈ o.vnames, n ∉ t.pending

theorem operates_guard {s : State} {r : Run} {w : Wg} (hs : Smooth s r w) {fm : Form} {x : Who} (hx : x.s = s ∧ x.w = w ∧ x.r = r ∧ x.pc = r.pc)
    {t : Thread} (ht : t ∈ r.group w) (hr : t.guard.val = true → Ready fm x t) : fm.operates x t = t.guard.val := by
  unfold Form.operates
  have h1 : (t.suppress || (x.s.comparatorAt x.r x.w.launch x.pc).isNone) = true := by
    rw [hx.1, hx.2.1, hx.2.2.1, hx.2.2.2]
    rcases hs.armed t ht with h | h <;> simp [h]
  have h2 : t.guard.poison.isNone = true := by rw [hs.clean t ht]; rfl
  rw [h1, h2]
  cases hg : t.guard.val with
  | false => rfl
  | true => rw [(hr hg).check]; rfl

theorem act_ok {s : State} {r : Run} {w : Wg} (hs : Smooth s r w) {fm : Form} {x : Who}
    (hx : x.s = s ∧ x.w = w ∧ x.r = r ∧ x.pc = r.pc) {ends : Bool} {op : Who → Thread → Act} {f : Thread → Thread}
    {pl : Thread → Option Place} {po : Thread → List (State → State)} {t : Thread} (ht : t ∈ r.group w)
    (hr : t.guard.val = true → Ready fm x t) (ho : t.guard.val = true → op x t = .ok (f t) (pl t) (po t))
    (hle : (ends && fm.claimed && fm.ops.all Opnd.legal) = ends) : fm.act x ends op t = okAct x ends f pl po t := by
  unfold Form.act okAct
  have h1 : (if t.suppress then none else x.s.comparatorAt x.r x.w.launch x.pc) = none := by
    rw [hx.1, hx.2.1, hx.2.2.1, hx.2.2.2]
    rcases hs.armed t ht with h | h
    · rw [h]; rfl
    · rw [h]; split <;> rfl
  have h2 := hs.clean t ht
  rw [h1]
  dsimp only
  rw [h2]
  cases hg : t.guard.val with
  | false => simp [hle]
  | true => simp [(hr hg).check, ho hg]

/-- The acts of the issuing group when nothing faults. -/
def okActs (x : Who) (ends : Bool) (f : Thread → Thread) (pl : Thread → Option Place) (po : Thread → List (State → State))
    (r : Run) (w : Wg) : List (Nat × Act) := (r.group w).map fun t => (t.tid, okAct x ends f pl po t)

/-- A thread after its act. -/
def actThread (q : Nat) (acts : List (Nat × Act)) (t : Thread) : Thread :=
  match acts.find? fun a => a.1 = t.tid with
  | some (_, .ok t' _ _) => t'.issued q
  | some (_, .fault _ t') => t'
  | some (_, .trap _ t' _) => t'
  | none => t

/-- The state with the threads of the group as the issue leaves them, before anything beyond the threads. -/
def marked (s : State) (w : Wg) (acts : List (Nat × Act)) : State :=
  s.onWg w.uid fun v => { v with threads := v.threads.map (actThread v.quota acts) }

/-- What the issue does beyond the threads, in order of `%tid`. -/
def posted (s : State) (acts : List (Nat × Act)) : State :=
  acts.foldl (fun (s : State) (a : Nat × Act) => match a.2 with
    | .ok _ _ post => post.foldl (fun (s : State) p => p s) s
    | .trap _ _ post => post.foldl (fun (s : State) p => p s) s
    | .fault _ _ => s) s

/-- The threads that go through the terminator of the block. -/
def parkings (acts : List (Nat × Act)) : List Parking :=
  acts.filterMap fun a => match a.2 with
    | .ok t (some p) _ => some (⟨a.1, p, t.hints.sched⟩ : Parking)
    | _ => none

/-- The issuing run with them taken out of its groups. -/
def parkedRun (acts : List (Nat × Act)) (r : Run) : Run :=
  { r with groups := r.groups.map (·.filter fun t => !((parkings acts).any fun p => p.tid = t))
           parked := r.parked ++ parkings acts }

theorem raise_nil (s : State) (uniform : Bool) (uid pc : Nat) : s.raise uniform uid pc [] = s := by
  unfold State.raise
  split
  · rfl
  · rfl

theorem okActs_bad {β : Type} (g : Nat × Act → Option β) (hg : ∀ n t p l, g (n, .ok t p l) = none) (x : Who) (ends : Bool)
    (f : Thread → Thread) (pl : Thread → Option Place) (po : Thread → List (State → State)) (r : Run) (w : Wg) :
    (okActs x ends f pl po r w).filterMap g = [] := by
  rw [List.filterMap_eq_nil_iff]
  intro a ha
  obtain ⟨t, _, rfl⟩ := List.mem_map.mp ha
  unfold okAct skipAct
  split <;> exact hg _ _ _ _

theorem applyActs_ok (s : State) (x : Who) (ends : Bool) (f : Thread → Thread) (pl : Thread → Option Place)
    (po : Thread → List (State → State)) (r : Run) (w : Wg) :
    s.applyActs x (okActs x ends f pl po r w) =
      (((({ posted (marked s x.w (okActs x ends f pl po r w)) (okActs x ends f pl po r w) with
          runs := (posted (marked s x.w (okActs x ends f pl po r w)) (okActs x ends f pl po r w)).runs.map fun q =>
            if q.core = x.r.core ∧ q.port = x.r.port then parkedRun (okActs x ends f pl po r w) q else q } : State).issuedOne x.w).count
        (s.tagOf x.w) 0x02 (okActs x ends f pl po r w).length).advanceFree) := by
  unfold State.applyActs
  dsimp only
  rw [okActs_bad (β := Nat × FaultInfo) _ (fun _ _ _ _ => rfl), List.map_nil, raise_nil]
  rfl

/-- What comes after the effects beyond the threads moves only the run on. -/
theorem slid_rest (s : State) (x : Who) (acts : List (Nat × Act)) (n : Nat)
    (hr : ∃ q rest, s.runs = q :: rest ∧ q.core = x.r.core ∧ q.port = x.r.port ∧ q.wg = x.w.uid ∧
      ∀ p ∈ q.parked, Settles s x.w.uid p)
    (hp : ∀ p ∈ parkings acts, Settles s x.w.uid p) (t : Tag) :
    Slid s ((((({ s with runs := s.runs.map fun q =>
      if q.core = x.r.core ∧ q.port = x.r.port then parkedRun acts q else q } : State).issuedOne x.w).count t 0x02 n).advanceFree).advance
        x.r.core x.r.port false) x.r.core x.r.port x.w.uid := by
  obtain ⟨q, rest, hq, hc, hpt, hwg, hpk⟩ := hr
  have hsl : Slid s (((({ s with runs := s.runs.map fun q =>
      if q.core = x.r.core ∧ q.port = x.r.port then parkedRun acts q else q } : State).issuedOne x.w).count t 0x02 n).advanceFree)
      x.r.core x.r.port x.w.uid := by
    refine ((slid_runs s _ _ _ _ fun q' hq' => ?_).trans (slid_issuedOne _ _ _ _)).trans
      ((slid_count _ _ _ _ _ _ _).trans (slid_advanceFree _ _ _ _))
    rw [List.mem_map]
    constructor
    · rintro ⟨a, ha, hae⟩
      split at hae
      · rename_i hcp
        subst hae
        exact (hq'.elim (fun h => h hcp.1) (fun h => h hcp.2)).elim
      · exact hae ▸ ha
    · intro ha
      refine ⟨q', ha, if_neg fun hcp => ?_⟩
      exact hq'.elim (fun h => h hcp.1) (fun h => h hcp.2)
  refine hsl.trans (slid_advance _ _ _ _ _ fun r' hr' => ?_)
  · have e : ((((({ s with runs := s.runs.map fun q =>
        if q.core = x.r.core ∧ q.port = x.r.port then parkedRun acts q else q } : State).issuedOne x.w).count t 0x02 n).advanceFree)).runs =
        parkedRun acts q :: rest.map fun q => if q.core = x.r.core ∧ q.port = x.r.port then parkedRun acts q else q := by
      show (s.runs.map _) = _
      rw [hq, List.map_cons, if_pos ⟨hc, hpt⟩]
    rw [e, List.find?_cons_of_pos (by simp [parkedRun, hc, hpt])] at hr'
    cases hr'
    refine ⟨hwg, fun p hp' => hsl.settles ?_⟩
    rcases List.mem_append.mp hp' with h | h
    · exact hpk p h
    · exact hp p h

/-- A thread whose guard is false: its group issues, so the results before grow older (R108). -/
def skipped (x : Who) (t : Thread) : Thread := if givesResult x.word then t.write 0 [] else t

theorem okAct_ok (x : Who) (ends : Bool) (f : Thread → Thread) (pl : Thread → Option Place) (po : Thread → List (State → State))
    (t : Thread) : okAct x ends f pl po t = .ok (if t.guard.val = true then f t else skipped x t)
      (if t.guard.val = true then pl t else if ends then some (.waiting (x.pc + 1) .ready) else none)
      (if t.guard.val = true then po t else []) := by
  unfold okAct skipAct
  split <;> rfl

theorem parkings_settle {x : Who} {ends : Bool} {f : Thread → Thread} {pl : Thread → Option Place}
    {po : Thread → List (State → State)} {r : Run} {w : Wg} {b : State} {uid : Nat}
    (hpl : ∀ t ∈ r.group w, t.guard.val = true → ∀ p, pl t = some p → Settles b uid ⟨t.tid, p, none⟩) :
    ∀ p ∈ parkings (okActs x ends f pl po r w), Settles b uid p := by
  intro p hp
  obtain ⟨a, ha, hae⟩ := List.mem_filterMap.mp hp
  obtain ⟨t, htg, rfl⟩ := List.mem_map.mp ha
  dsimp only at hae
  rw [okAct_ok] at hae
  by_cases hg : t.guard.val = true
  · simp only [hg, if_true] at hae
    cases hq : pl t with
    | none => rw [hq] at hae; cases hae
    | some q =>
      rw [hq] at hae
      cases hae
      exact hpl t htg hg q hq
  · simp only [hg] at hae
    cases ends with
    | false => cases hae
    | true => cases hae; exact settles_ready ..

theorem actThread_ok {x : Who} {ends : Bool} {f : Thread → Thread} {pl : Thread → Option Place}
    {po : Thread → List (State → State)} {r : Run} {w : Wg} (q : Nat) {tid : Nat} {t : Thread} (ht : w.thread? tid = some t) :
    actThread q (okActs x ends f pl po r w) t =
      if t ∈ r.group w then (if t.guard.val = true then f t else skipped x t).issued q else t := by
  unfold actThread okActs
  rw [find_act _ ht]
  by_cases h : t ∈ r.group w
  · rw [if_pos h, if_pos h, okAct_ok]
  · rw [if_neg h, if_neg h]

theorem skipped_same (x : Who) (t : Thread) : (skipped x t).tid = t.tid := by
  unfold skipped
  split
  · exact (write_spec t 0 []).2.1.tid
  · rfl

theorem actThread_tid {x : Who} {ends : Bool} {f : Thread → Thread} {pl : Thread → Option Place}
    {po : Thread → List (State → State)} {r : Run} {w : Wg} (hf : ∀ t, (f t).tid = t.tid) (q : Nat) (t : Thread) :
    (actThread q (okActs x ends f pl po r w) t).tid = t.tid := by
  unfold actThread
  cases ha : (okActs x ends f pl po r w).find? fun a => a.1 = t.tid with
  | none => rfl
  | some a =>
    obtain ⟨t0, _, rfl⟩ := List.mem_map.mp (List.mem_of_find?_eq_some ha)
    have h1 : t0.tid = t.tid := by simpa using List.find?_some ha
    rw [okAct_ok]
    show (Thread.issued q _).tid = _
    rw [(issued_spec q _).2.1]
    split
    · exact (hf t0).trans h1
    · exact (skipped_same x t0).trans h1

/-- The threads that are not in the group are as they were. -/
theorem actThread_apart {x : Who} {ends : Bool} {f : Thread → Thread} {pl : Thread → Option Place}
    {po : Thread → List (State → State)} {r : Run} {w : Wg} (q : Nat) {t : Thread} (h : (r.groups.getD r.grp []).contains t.tid = false) :
    actThread q (okActs x ends f pl po r w) t = t := by
  unfold actThread
  cases ha : (okActs x ends f pl po r w).find? fun a => a.1 = t.tid with
  | none => rfl
  | some a =>
    obtain ⟨t0, h0, rfl⟩ := List.mem_map.mp (List.mem_of_find?_eq_some ha)
    have h1 : t0.tid = t.tid := by simpa using List.find?_some ha
    have h2 := (List.mem_filter.mp h0).2
    rw [h1, h] at h2
    cases h2

/-- The threads after the issue, before anything beyond them. -/
theorem marked_wg {s : State} {w : Wg} (hw : s.wg? w.uid = some w) (acts : List (Nat × Act)) :
    (marked s w acts).wg? w.uid = some { w with threads := w.threads.map (actThread w.quota acts) } :=
  wg_onWg_same (fun _ => rfl) hw

theorem marked_other {s : State} {w : Wg} (acts : List (Nat × Act)) {v : Nat} (hv : v ≠ w.uid) :
    (marked s w acts).wg? v = s.wg? v := wg_onWg_other (fun _ => rfl) hv

/-! ### Where a terminator sends its threads -/

theorem thread?_onThread (s : State) (uid tid v n : Nat) (f : Thread → Thread) (hf : ∀ t, (f t).tid = t.tid) :
    (s.onThread uid tid f).thread? v n = (s.thread? v n).map fun t => if v = uid ∧ n = tid then f t else t := by
  unfold State.thread? State.onThread
  rw [wg_onWg s uid v (fun w => w.onThread tid f) (fun _ => rfl)]
  cases hw : s.wg? v with
  | none => rfl
  | some w =>
    rw [Option.map_some, Option.bind_some, Option.bind_some]
    have hu := wg_uid hw
    by_cases hv : w.uid = uid
    · rw [if_pos hv]
      unfold Wg.onThread
      rw [thread_map w _ (fun t => by split <;> simp [hf])]
      cases ht : w.thread? n with
      | none => rfl
      | some t =>
        have := thread_tid ht
        simp only [Option.map_some]
        by_cases h : t.tid = tid
        · rw [if_pos h, if_pos ⟨by omega, by omega⟩]
        · rw [if_neg h, if_neg (by rintro ⟨_, h2⟩; omega)]
    · rw [if_neg hv]
      cases ht : w.thread? n with
      | none => rfl
      | some t => rw [Option.map_some, if_neg (by rintro ⟨h, _⟩; omega)]

theorem count_wgs (s : State) (t : Tag) (e n : Nat) : (s.count t e n).wgs = s.wgs := rfl

/-- An arrival places its thread and no other. -/
theorem arrive_thread (s : State) (uid tid key : Nat) (on : WaitOn) (sched : Option (Bool × BitVec 16)) (v n : Nat)
    {t : Thread} (ht : s.thread? v n = some t) :
    ∃ b, (s.arrive uid tid key on sched).thread? v n =
      some (if v = uid ∧ n = tid then { t with place := .waiting key on, spilled := b } else t) := by
  unfold State.arrive
  cases hw : s.wg? uid with
  | none =>
    refine ⟨false, ?_⟩
    dsimp only
    rw [if_neg]
    · exact ht
    · rintro ⟨rfl, _⟩
      unfold State.thread? at ht
      rw [hw] at ht; cases ht
  | some w =>
    dsimp only
    split
    · refine ⟨false, ?_⟩
      refine (thread?_onThread _ uid tid v n _ (by intro; rfl)).trans ?_
      show (s.thread? v n).map _ = _
      rw [ht]; rfl
    · split
      · refine ⟨false, ?_⟩
        refine (thread?_onThread _ uid tid v n _ (by intro; rfl)).trans ?_
        show (s.thread? v n).map _ = _
        rw [ht]; rfl
      · refine ⟨true, ?_⟩
        refine (thread?_onThread _ uid tid v n _ (by intro; rfl)).trans ?_
        show (s.thread? v n).map _ = _
        rw [ht]; rfl

theorem arrive_runs (s : State) (uid tid key : Nat) (on : WaitOn) (sched : Option (Bool × BitVec 16)) :
    (s.arrive uid tid key on sched).runs = s.runs := by
  unfold State.arrive
  split
  · rfl
  · dsimp only
    split
    · rfl
    · split <;> rfl

/-- After arrivals of other threads a thread is where it was. -/
theorem arrives_other {α : Type} (l : List α) (uid : Nat) (tid key : α → Nat) (on : α → WaitOn)
    (sched : α → Option (Bool × BitVec 16)) (s : State) (v n : Nat) {t : Thread} (ht : s.thread? v n = some t)
    (h : ∀ x ∈ l, tid x ≠ n) :
    (l.foldl (fun s x => s.arrive uid (tid x) (key x) (on x) (sched x)) s).thread? v n = some t := by
  induction l generalizing s with
  | nil => exact ht
  | cons x xs ih =>
    obtain ⟨b, hb⟩ := arrive_thread s uid (tid x) (key x) (on x) (sched x) v n ht
    rw [if_neg (by rintro ⟨_, h2⟩; exact h x (List.mem_cons_self ..) h2.symm)] at hb
    exact ih _ hb fun y hy => h y (List.mem_cons_of_mem _ hy)

theorem arrives_runs {α : Type} (l : List α) (f : State → α → State) (hf : ∀ s x, x ∈ l → (f s x).runs = s.runs) (s : State) :
    (l.foldl f s).runs = s.runs := by
  induction l generalizing s with
  | nil => rfl
  | cons x xs ih => exact (ih (fun s y hy => hf s y (List.mem_cons_of_mem _ hy)) _).trans (hf s x (List.mem_cons_self ..))

/-- Arrivals of parked threads: each is where its parking says. -/
theorem parked_places (l : List Parking) (uid : Nat) (s : State) (hp : ∀ p ∈ l, Settles s uid p) (p : Parking)
    (hmem : p ∈ l ∨ ∃ t, s.thread? uid p.tid = some t ∧ t.place = p.place) (huniq : ∀ p' ∈ l, p'.tid = p.tid → p' = p)
    (ht : ∃ t, s.thread? uid p.tid = some t) :
    ∃ t, (l.foldl (fun s p => s.park uid p) s).thread? uid p.tid = some t ∧ t.place = p.place := by
  induction l generalizing s with
  | nil =>
    rcases hmem with h | h
    · cases h
    · exact h
  | cons x xs ih =>
    obtain ⟨t, ht⟩ := ht
    rw [List.foldl_cons]
    have hb : ∃ b, (s.park uid x).thread? uid p.tid =
        some (if p.tid = x.tid then { t with place := x.place, spilled := b } else t) := by
      rcases hp x (List.mem_cons_self ..) with ⟨k, on, hx, ho⟩ | ⟨hx, hs⟩
      · rw [park_waiting hx ho, hx]
        obtain ⟨b, hb⟩ := arrive_thread s uid x.tid k on x.sched uid p.tid ht
        refine ⟨b, hb.trans ?_⟩
        simp only [true_and]
      · rw [park_exited hx hs, hx]
        refine ⟨t.spilled, (thread?_onThread s uid x.tid uid p.tid _ (by intro; rfl)).trans ?_⟩
        rw [ht, Option.map_some]
        simp only [true_and]
    obtain ⟨b, hb⟩ := hb
    have hsl := slid_park s 0 0 uid x (hp x (List.mem_cons_self ..))
    refine ih _ (fun y hy => hsl.settles (hp y (List.mem_cons_of_mem _ hy))) ?_
      (fun y hy => huniq y (List.mem_cons_of_mem _ hy)) ⟨_, hb⟩
    by_cases hxp : x.tid = p.tid
    · have := huniq x (List.mem_cons_self ..) hxp
      subst this
      right
      rw [if_pos rfl] at hb
      exact ⟨_, hb, rfl⟩
    · rw [if_neg fun h => hxp h.symm] at hb
      rcases hmem with h | ⟨t0, h0, h1⟩
      · rcases List.mem_cons.mp h with h | h
        · exact absurd (by rw [h]) hxp
        · exact .inl h
      · rw [ht] at h0; cases h0
        exact .inr ⟨t, hb, h1⟩

theorem parks_runs (uid : Nat) (l : List Parking) (s : State) (hp : ∀ p ∈ l, Settles s uid p) :
    (l.foldl (fun s p => s.park uid p) s).runs = s.runs := by
  induction l generalizing s with
  | nil => rfl
  | cons x xs ih =>
    have hx := hp x (List.mem_cons_self ..)
    refine (ih _ fun y hy => (slid_park s 0 0 uid x hx).settles (hp y (List.mem_cons_of_mem _ hy))).trans ?_
    rcases hx with ⟨k, on, hk, ho⟩ | ⟨he, hb⟩
    · rw [park_waiting hk ho]; exact arrive_runs ..
    · rw [park_exited he hb]; rfl

theorem find_parked {l : List Parking} {p : Parking} (hp : p ∈ l) (huniq : ∀ p' ∈ l, p'.tid = p.tid → p' = p) :
    (l.find? fun q => q.tid = p.tid) = some p := by
  cases h : l.find? fun q => q.tid = p.tid with
  | none =>
    rw [List.find?_eq_none] at h
    have := h p hp
    simp at this
  | some q =>
    have h1 : q.tid = p.tid := by simpa using List.find?_some h
    rw [huniq q (List.mem_of_find?_eq_some h) h1]

theorem endBlock_thread (s : State) (uid n : Nat) (c : Thread → Bool) {t : Thread} (ht : s.thread? uid n = some t) :
    ∃ t', (s.onWg uid fun w => { w with threads := w.threads.map fun t => if c t then t.endBlock else t }).thread? uid n = some t' ∧
      t'.place = t.place := by
  unfold State.thread? at ht ⊢
  cases hw : s.wg? uid with
  | none => rw [hw] at ht; cases ht
  | some w =>
    rw [hw, Option.bind_some] at ht
    rw [wg_onWg_same (by intro; rfl) hw, Option.bind_some]
    rw [thread_map w _ (fun t => by split <;> simp [endBlock_tid]), ht]
    refine ⟨_, rfl, ?_⟩
    dsimp only
    split
    · exact endBlock_place t
    · rfl

/-- A thread that went through the terminator: its run sends it where its parking says. -/
theorem advance_place {s : State} {q r : Run} {w : Wg} {rest : List Run} {whole : Bool} (hq : s.runs = q :: rest) (hc : q.core = r.core)
    (hp : q.port = r.port) (hwg : q.wg = w.uid) (hpk : ∀ p ∈ q.parked, Settles s w.uid p) {p : Parking}
    (hmem : p ∈ q.parked) (huniq : ∀ p' ∈ q.parked, p'.tid = p.tid → p' = p) (hgone : p.tid ∉ q.groups.flatten)
    (ht : ∃ t, s.thread? w.uid p.tid = some t) :
    (s.advance r.core r.port whole).placeOf r w p.tid = some p.place := by
  have hfind : (s.runs.find? fun x => decide (x.core = r.core) && decide (x.port = r.port)) = some q := by
    rw [hq, List.find?_cons_of_pos (by simp [hc, hp])]
  have hnone : ((s.dropRun q).runs.find? fun x => decide (x.core = r.core) && decide (x.port = r.port)) = none := by
    rw [List.find?_eq_none]
    intro x hx
    have := (List.mem_filter.mp hx).2
    rw [← hc, ← hp]
    simp only [Bool.not_eq_true', Bool.and_eq_false_iff, decide_eq_false_iff_not] at this
    simp only [Bool.and_eq_true, decide_eq_true_eq, not_and]
    intro h1 h2
    exact this.elim (fun h => h h1) (fun h => h h2)
  have hen : ∀ q' : Run, q'.core = r.core → q'.port = r.port → q'.parked = q.parked → q'.stall = none →
      ({ s.dropRun q with runs := enqueueRun (s.dropRun q).runs q' } : State).placeOf r w p.tid = some p.place := by
    intro q' h1 h2 h3 h4
    unfold State.placeOf
    have : ((enqueueRun (s.dropRun q).runs q').find? fun x => decide (x.core = r.core) && decide (x.port = r.port)) = some q' := by
      unfold enqueueRun
      rw [if_pos h4, List.append_assoc, List.find?_append]
      have h5 : (((s.dropRun q).runs.filter fun x => x.stall = none).find? fun x =>
          decide (x.core = r.core) && decide (x.port = r.port)) = none := by
        rw [List.find?_eq_none] at hnone ⊢
        intro x hx
        exact hnone x (List.mem_filter.mp hx).1
      rw [h5, List.singleton_append, List.find?_cons_of_pos (by simp [h1, h2])]
      rfl
    rw [this]
    dsimp only
    rw [h3, find_parked hmem huniq]
  unfold State.advance
  rw [hfind]
  dsimp only
  split
  · exact hen _ hc hp rfl rfl
  · split
    · exact hen _ hc hp rfl rfl
    · -- the block ends
      have h1 := slid_endBlocks (s.dropRun q) 0 0 w.uid fun t =>
        decide (q.groups.flatten.contains t.tid = true ∨ q.parked.any (fun p => p.tid = t.tid) = true)
      simp only [decide_eq_true_eq] at h1
      have hpk1 := fun p hp => h1.settles (show Settles (s.dropRun q) w.uid p from hpk p hp)
      have hruns : ((s.dropRun q).endRun q).runs = (s.dropRun q).runs := by
        unfold State.endRun
        dsimp only
        rw [arrives_runs _ _ (fun s x _ => arrive_runs ..), hwg]
        exact parks_runs w.uid q.parked _ hpk1
      unfold State.placeOf
      rw [hruns, hnone]
      dsimp only
      obtain ⟨t, ht⟩ := ht
      unfold State.endRun
      dsimp only
      rw [hwg]
      obtain ⟨t1, ht1, _⟩ := endBlock_thread (s.dropRun q) w.uid p.tid
        (fun t => decide (q.groups.flatten.contains t.tid = true ∨ (q.parked.any fun p => p.tid = t.tid) = true)) (t := t) ht
      simp only [decide_eq_true_eq] at ht1
      have h2 := parked_places q.parked w.uid _ hpk1 p (.inl hmem) huniq ⟨t1, ht1⟩
      obtain ⟨t2, h3, h4⟩ := h2
      have h5 := arrives_other q.groups.flatten w.uid id (fun _ => q.endKey) (fun _ => .ready) (fun _ => none) _ w.uid p.tid h3
        fun x hx he => hgone (he ▸ hx)
      have h6 : ∀ (l : List Nat) (s : State), l.foldl (fun s x => s.arrive w.uid (id x) q.endKey .ready none) s =
          l.foldl (fun s tid => s.arrive w.uid tid q.endKey .ready none) s := fun _ _ => rfl
      rw [h6] at h5
      refine (congrArg (Option.map fun t : Thread => t.place) h5).trans ?_
      rw [Option.map_some, h4]

/-! ### How the run moves on -/

theorem arrive_found {s : State} {uid tid key : Nat} {on : WaitOn} {sched : Option (Bool × BitVec 16)} {v n : Nat} {t' : Thread}
    (h : (s.arrive uid tid key on sched).thread? v n = some t') : ∃ t, s.thread? v n = some t := by
  cases ht : s.thread? v n with
  | some t => exact ⟨t, rfl⟩
  | none =>
    exfalso
    have hn : (s.arrive uid tid key on sched).thread? v n = none := by
      unfold State.arrive
      split
      · exact ht
      · dsimp only
        split
        · refine (thread?_onThread _ uid tid v n _ (by intro; rfl)).trans ?_
          show (s.thread? v n).map _ = _
          rw [ht]; rfl
        · split
          · refine (thread?_onThread _ uid tid v n _ (by intro; rfl)).trans ?_
            show (s.thread? v n).map _ = _
            rw [ht]; rfl
          · refine (thread?_onThread _ uid tid v n _ (by intro; rfl)).trans ?_
            show (s.thread? v n).map _ = _
            rw [ht]; rfl
    rw [hn] at h; cases h

/-- Threads that arrive, ready, at one key are there in the end. -/
theorem arrives_place (l : List Nat) (uid key : Nat) (s : State) {n : Nat} (hn : n ∈ l) {t' : Thread}
    (h : (l.foldl (fun (s : State) x => s.arrive uid x key .ready none) s).thread? uid n = some t') :
    t'.place = .waiting key .ready := by
  induction l generalizing s with
  | nil => cases hn
  | cons x xs ih =>
    rw [List.foldl_cons] at h
    by_cases hx : n ∈ xs
    · exact ih _ hx h
    · have hxn : n = x := (List.mem_cons.mp hn).resolve_right hx
      have hfound : ∀ (l : List Nat) (s : State), (l.foldl (fun (s : State) x => s.arrive uid x key .ready none) s).thread? uid n = some t' →
          ∃ t, s.thread? uid n = some t := by
        intro l
        induction l with
        | nil => exact fun s h => ⟨_, h⟩
        | cons y ys ihy => exact fun s h => let ⟨_, h1⟩ := ihy _ h; arrive_found h1
      obtain ⟨t1, h1⟩ := hfound xs _ h
      obtain ⟨t0, h0⟩ := arrive_found h1
      obtain ⟨b, hb⟩ := arrive_thread s uid x key .ready none uid n h0
      rw [if_pos ⟨rfl, hxn⟩] at hb
      have h2 := arrives_other xs uid id (fun _ => key) (fun _ => .ready) (fun _ => none) _ uid n hb fun y hy he => hx (he ▸ hy)
      have h3 : some t' = some _ := h.symm.trans h2
      rw [Option.some.inj h3]

/-- The run moves on as `MovesOn` says. -/
theorem advance_moves {s v : State} {q r : Run} {rest : List Run} {whole : Bool} (hs : s.runs.head? = some q) (hq : v.runs = q :: rest)
    (hc : q.core = r.core) (hp : q.port = r.port) (hpk : ∀ p ∈ q.parked, Settles v q.wg p) :
    MovesOn s (v.advance r.core r.port whole) r whole := by
  have hfirst : ∀ x : State, x.runs.head? = some q →
      (x.runs.find? fun y => decide (y.core = r.core) && decide (y.port = r.port)) = some q := by
    intro x hx
    obtain ⟨ys, hy⟩ := List.head?_eq_some_iff.mp hx
    rw [hy, List.find?_cons_of_pos (by simp [hc, hp])]
  intro q' hq'
  rw [hfirst s hs] at hq'
  cases hq'
  have hfind := hfirst v (by rw [hq]; rfl)
  have hout : ∀ x ∈ (v.dropRun q).runs, x.core ≠ r.core ∨ x.port ≠ r.port := by
    intro x hx
    have := (List.mem_filter.mp hx).2
    rw [hc, hp] at this
    simp only [Bool.not_eq_true', Bool.and_eq_false_iff, decide_eq_false_iff_not] at this
    exact this
  have honly : ∀ n : Run, n.core = r.core → n.port = r.port → n.stall = none →
      n ∈ enqueueRun (v.dropRun q).runs n ∧
        ∀ p ∈ enqueueRun (v.dropRun q).runs n, p.core = r.core → p.port = r.port → p = n := by
    intro n _ _ h3
    unfold enqueueRun
    rw [if_pos h3]
    refine ⟨by simp, fun p hp h1 h2 => ?_⟩
    simp only [List.append_assoc, List.mem_append, List.mem_filter, List.mem_singleton, List.mem_cons, List.not_mem_nil,
      or_false] at hp
    rcases hp with h | h | h
    · exact ((hout p h.1).elim (fun k => k h1) fun k => k h2).elim
    · exact h
    · exact ((hout p h.1).elim (fun k => k h1) fun k => k h2).elim
  unfold State.advance
  rw [hfind]
  dsimp only
  generalize (if whole then none else q.nextGroup (q.grp + 1)) = g1
  generalize (if q.idx + 1 < q.words.length then q.nextGroup 0 else none) = g2
  cases g1 with
  | some g => exact honly _ hc hp rfl
  | none =>
    cases g2 with
    | some g => exact honly _ hc hp rfl
    | none =>
      have h1 := slid_endBlocks (v.dropRun q) 0 0 q.wg fun t =>
        decide (q.groups.flatten.contains t.tid = true ∨ q.parked.any (fun p => p.tid = t.tid) = true)
      simp only [decide_eq_true_eq] at h1
      have hpk1 := fun p hp => h1.settles (show Settles (v.dropRun q) q.wg p from hpk p hp)
      have hruns : ((v.dropRun q).endRun q).runs = (v.dropRun q).runs := by
        unfold State.endRun
        dsimp only
        rw [arrives_runs _ _ (fun s x _ => arrive_runs ..)]
        exact parks_runs q.wg q.parked _ hpk1
      refine ⟨fun p hp' => hout p (hruns ▸ hp'), fun tid ht t h => ?_⟩
      exact arrives_place _ _ _ _ ht h

/-! ### The issue -/

theorem heldBack_none {ts : List Thread} (h : ∀ t ∈ ts, t.block = .none ∧ t.owes = false) : heldBack ts = none := by
  unfold heldBack
  rw [if_neg, if_neg]
  · simp only [List.any_eq_true, not_exists, not_and]
    intro t ht
    simp [(h t ht).2]
  · simp only [List.any_eq_true, not_exists, not_and]
    intro t ht
    simp [(h t ht).1]

theorem issuer_wg {s : State} {r : Run} {w : Wg} (hs : Smooth s r w) : s.wg? w.uid = some w := by
  obtain ⟨_, hw, huid⟩ := issuer_spec hs.issuer
  rw [huid]; exact hw

/-- Nothing goes anywhere that neither ends the block nor is sent. -/
theorem noParkings {x : Who} {ends : Bool} {f : Thread → Thread} {pl : Thread → Option Place} {po : Thread → List (State → State)}
    {r : Run} {w : Wg} (he : ends = false) (hp : ∀ t, pl t = none) : parkings (okActs x ends f pl po r w) = [] := by
  unfold parkings okActs
  rw [List.filterMap_eq_nil_iff]
  intro a ha
  obtain ⟨t, _, rfl⟩ := List.mem_map.mp ha
  rw [okAct_ok, hp, he]
  simp

/-- Where nothing faults no access waits for a translation entry under removal. -/
theorem tbStall_ok (x : Who) (ends : Bool) (f : Thread → Thread) (pl : Thread → Option Place) (po : Thread → List (State → State))
    (r : Run) (w : Wg) : tbStall (okActs x ends f pl po r w) = none := by
  unfold tbStall
  rw [if_neg]
  simp only [List.any_eq_true, not_exists, not_and]
  intro a ha
  obtain ⟨t, _, rfl⟩ := List.mem_map.mp ha
  rw [okAct_ok]
  exact Bool.false_ne_true

/-- An instruction whose operands are in order, that waits for nothing and faults for no thread, is issued: what follows
the effects beyond the threads only moves the run on. -/
theorem issueThread_next {word : Word} {fm : Form} {ends : Bool} {stall : Who → List Thread → Option Nat}
    {op : Who → Thread → Act} {s : State} {r : Run} {w : Wg} (hs : Smooth s r w) (f : Thread → Thread)
    (pl : Thread → Option Place) (po : Thread → List (State → State))
    (hready : ∀ t ∈ r.group w, t.guard.val = true → Ready fm ⟨s, w, r, word, r.pc⟩ t)
    (hstall : stall ⟨s, w, r, word, r.pc⟩ ((r.group w).filter fun t => t.guard.val) = none)
    (hop : ∀ t ∈ r.group w, t.guard.val = true → op ⟨s, w, r, word, r.pc⟩ t = .ok (f t) (pl t) (po t))
    (hle : (ends && fm.claimed && fm.ops.all Opnd.legal) = ends)
    (hpl : ∀ t ∈ r.group w, t.guard.val = true → ∀ p, pl t = some p → Settles (posted (marked s w (okActs ⟨s, w, r, word, r.pc⟩ ends f pl po r w))
      (okActs ⟨s, w, r, word, r.pc⟩ ends f pl po r w)) w.uid ⟨t.tid, p, none⟩)
    (hpark : ∀ p ∈ r.parked, Settles (posted (marked s w (okActs ⟨s, w, r, word, r.pc⟩ ends f pl po r w))
      (okActs ⟨s, w, r, word, r.pc⟩ ends f pl po r w)) w.uid p)
    (hruns : (posted (marked s w (okActs ⟨s, w, r, word, r.pc⟩ ends f pl po r w)) (okActs ⟨s, w, r, word, r.pc⟩ ends f pl po r w)).runs =
      s.runs) :
    ∃ u, issueThread word fm ends stall op s = .next u ∧
      Slid (posted (marked s w (okActs ⟨s, w, r, word, r.pc⟩ ends f pl po r w)) (okActs ⟨s, w, r, word, r.pc⟩ ends f pl po r w)) u
        r.core r.port w.uid ∧
      (∀ t ∈ r.group w, r.alone w t → ∀ p,
        (if t.guard.val = true then pl t else if ends then some (.waiting (r.pc + 1) .ready) else none) = some p →
        (∃ t', (posted (marked s w (okActs ⟨s, w, r, word, r.pc⟩ ends f pl po r w))
          (okActs ⟨s, w, r, word, r.pc⟩ ends f pl po r w)).thread? w.uid t.tid = some t') →
        u.placeOf r w t.tid = some p) ∧
      (parkings (okActs ⟨s, w, r, word, r.pc⟩ ends f pl po r w) = [] → MovesOn s u r false) := by
  obtain ⟨⟨rest, hrest⟩, hwg, huid⟩ := issuer_spec hs.issuer
  have hact : (r.group w).map (fun t => (t.tid, fm.act ⟨s, w, r, word, r.pc⟩ ends op t)) =
      okActs ⟨s, w, r, word, r.pc⟩ ends f pl po r w :=
    List.map_congr_left fun t ht => by
      rw [act_ok hs (x := ⟨s, w, r, word, r.pc⟩) ⟨rfl, rfl, rfl, rfl⟩ ht (hready t ht) (hop t ht) hle]
  have hacting : (r.group w).filter (fm.operates ⟨s, w, r, word, r.pc⟩) = (r.group w).filter fun t => t.guard.val :=
    List.filter_congr fun t ht => operates_guard hs ⟨rfl, rfl, rfl, rfl⟩ ht (hready t ht)
  have hblock : heldBack (r.group w) = none := heldBack_none hs.free
  have hpend : pendingStall fm ((r.group w).filter fun t => t.guard.val) = none := by
    unfold pendingStall
    rw [if_neg]
    simp only [List.any_eq_true, List.mem_filter, not_exists, not_and, and_imp]
    intro t ht hg o ho n hn hc
    exact (hready t ht hg).pending o ho n hn (by simpa using hc)
  have heq : issueThread word fm ends stall op s =
      .next ((s.applyActs ⟨s, w, r, word, r.pc⟩ (okActs ⟨s, w, r, word, r.pc⟩ ends f pl po r w)).advance r.core r.port false) := by
    unfold issueThread
    rw [hs.issuer]
    dsimp only
    have e1 : (w.threads.filter fun t => (r.groups.getD r.grp []).contains t.tid) = r.group w := rfl
    have e2 : r.key + r.idx = r.pc := rfl
    rw [e1, e2, hblock]
    dsimp only
    rw [hacting, hpend, hact]
    dsimp only [Option.orElse]
    rw [hstall, tbStall_ok]
  have hmoved := ((slid_runs (posted (marked s w (okActs ⟨s, w, r, word, r.pc⟩ ends f pl po r w))
      (okActs ⟨s, w, r, word, r.pc⟩ ends f pl po r w)) r.core r.port w.uid
      ((posted (marked s w (okActs ⟨s, w, r, word, r.pc⟩ ends f pl po r w)) (okActs ⟨s, w, r, word, r.pc⟩ ends f pl po r w)).runs.map fun q =>
        if q.core = r.core ∧ q.port = r.port then parkedRun (okActs ⟨s, w, r, word, r.pc⟩ ends f pl po r w) q else q)
      (fun q' hq' => by
        rw [List.mem_map]
        constructor
        · rintro ⟨a, ha, hae⟩
          split at hae
          · rename_i hcp
            subst hae
            exact (hq'.elim (fun h => h hcp.1) (fun h => h hcp.2)).elim
          · exact hae ▸ ha
        · intro ha
          refine ⟨q', ha, if_neg fun hcp => ?_⟩
          exact hq'.elim (fun h => h hcp.1) (fun h => h hcp.2))).trans (slid_issuedOne _ w r.core r.port)).trans
    ((slid_count _ r.core r.port w.uid (s.tagOf w) 0x02 (okActs ⟨s, w, r, word, r.pc⟩ ends f pl po r w).length).trans
      (slid_advanceFree _ r.core r.port w.uid))
  refine ⟨_, heq, ?_, ?_, fun hno => ?_⟩
  rotate_right
  · rw [applyActs_ok]
    have hsame : ∀ q : Run, parkedRun (okActs ⟨s, w, r, word, r.pc⟩ ends f pl po r w) q = q := by
      intro q
      unfold parkedRun
      rw [hno]
      simp
    refine advance_moves (q := r) (rest := rest) (by rw [hrest]; rfl) ?_ rfl rfl fun p hp => ?_
    · show List.map _ _ = _
      rw [hruns, hrest]
      refine (List.map_congr_left (g := id) fun q _ => ?_).trans (List.map_id _)
      dsimp only
      rw [hsame]
      split <;> rfl
    · rw [← huid]
      exact hmoved.settles (hpark p hp)
  · rw [applyActs_ok]
    exact slid_rest _ ⟨s, w, r, word, r.pc⟩ _ _ ⟨r, rest, hruns.trans hrest, rfl, rfl, huid.symm, hpark⟩ (parkings_settle hpl) _
  · intro t ht hal p hp hth
    rw [applyActs_ok]
    have hq : ∃ q, q = (⟨t.tid, p, (if t.guard.val = true then f t else skipped ⟨s, w, r, word, r.pc⟩ t).hints.sched⟩ : Parking) :=
      ⟨_, rfl⟩
    obtain ⟨q, hqe⟩ := hq
    have hact : ∀ t' ∈ r.group w, t'.tid = t.tid → ∀ p', p' ∈ parkings [(t'.tid, okAct ⟨s, w, r, word, r.pc⟩ ends f pl po t')] → p' = q := by
      intro t' ht' he p' hp'
      have := hal.1 t' ht' he
      subst this
      rw [hqe]
      simp only [parkings, List.filterMap_cons, List.filterMap_nil, okAct_ok] at hp'
      rw [hp] at hp'
      simpa using hp'
    have hmemq : q ∈ parkings (okActs ⟨s, w, r, word, r.pc⟩ ends f pl po r w) := by
      refine List.mem_filterMap.mpr ⟨_, List.mem_map.mpr ⟨t, ht, rfl⟩, ?_⟩
      dsimp only
      rw [okAct_ok, hqe, hp]
    have huniq : ∀ p' ∈ (parkedRun (okActs ⟨s, w, r, word, r.pc⟩ ends f pl po r w) r).parked, p'.tid = q.tid → p' = q := by
      intro p' hp' he
      rw [hqe] at he
      rcases List.mem_append.mp hp' with h | h
      · exact absurd he (hal.2 p' h)
      · obtain ⟨a, ha, hae⟩ := List.mem_filterMap.mp h
        obtain ⟨t', ht', rfl⟩ := List.mem_map.mp ha
        have h1 : p' ∈ parkings [(t'.tid, okAct ⟨s, w, r, word, r.pc⟩ ends f pl po t')] :=
          List.mem_filterMap.mpr ⟨_, List.mem_singleton.mpr rfl, hae⟩
        have h2 : p'.tid = t'.tid := by
          dsimp only at hae
          rw [okAct_ok] at hae
          dsimp only at hae
          split at hae
          · cases Option.some.inj hae; rfl
          · cases hae
        exact hact t' ht' (h2.symm.trans he) p' h1
    have hgone : q.tid ∉ (parkedRun (okActs ⟨s, w, r, word, r.pc⟩ ends f pl po r w) r).groups.flatten := by
      intro hmem
      obtain ⟨g, hg, hx⟩ := List.mem_flatten.mp hmem
      obtain ⟨g0, _, rfl⟩ := List.mem_map.mp hg
      have := (List.mem_filter.mp hx).2
      rw [Bool.not_eq_true', List.any_eq_false] at this
      exact this q hmemq (decide_eq_true rfl)
    have hplq : q.place = p := by rw [hqe]
    have htidq : q.tid = t.tid := by rw [hqe]
    rw [← hplq, ← htidq]
    refine advance_place (q := parkedRun (okActs ⟨s, w, r, word, r.pc⟩ ends f pl po r w) r) (rest := _)
      (by show List.map _ _ = _; rw [hruns, hrest, List.map_cons, if_pos ⟨rfl, rfl⟩]) rfl rfl huid.symm ?_
      (List.mem_append_right _ hmemq) huniq hgone ?_
    · intro p' hp'
      refine hmoved.settles ?_
      rcases List.mem_append.mp hp' with h | h
      · exact hpark p' h
      · exact parkings_settle hpl p' h
    · obtain ⟨t', ht'⟩ := hth
      rw [htidq]
      have hsl : ∀ (a b : State), Slid a b r.core r.port w.uid → (∃ t', a.thread? w.uid t.tid = some t') →
          ∃ t', b.thread? w.uid t.tid = some t' := by
        rintro a b hab ⟨t', h1⟩
        unfold State.thread? at h1 ⊢
        cases hw : a.wg? w.uid with
        | none => rw [hw] at h1; cases h1
        | some v =>
          rw [hw] at h1
          obtain ⟨v', hv', sv⟩ := hab.own v hw
          obtain ⟨t2, h2, _⟩ := sv.threads t.tid t' h1
          exact ⟨t2, by rw [hv']; exact h2⟩
      exact hsl _ _ hmoved ⟨t', ht'⟩

/-! ### What the group became -/

/-- What an operation did to one thread: the registers it wrote and the rest. -/
structure Did (t t2 : Thread) (written : List (Nat × Reg)) (base : Thread) : Prop where
  tid : t2.tid = t.tid
  hints : t2.hints = t.hints
  resume : t2.resume = t.resume
  control : t2.control = base.control
  wrote : ∀ p ∈ written, look t2 p.1 = p.2
  other : ∀ n, (∀ p ∈ written, p.1 ≠ n) → look t2 n = look t n
  dead : ∀ d ∈ t2.dead, (∀ q ∈ written, q.1 ≠ d.1) ∧ d ∈ t.dead

theorem Did.nothing (t : Thread) : Did t t [] t :=
  ⟨rfl, rfl, rfl, rfl, fun _ h => (List.not_mem_nil h).elim, fun _ _ => rfl, fun _ h => ⟨fun _ h => (List.not_mem_nil h).elim, h⟩⟩

/-- A thread whose guard is false changes nothing. -/
theorem did_skipped (x : Who) (t : Thread) : Did t (skipped x t) [] t := by
  unfold skipped
  split
  · obtain ⟨w1, w2, w3⟩ := write_spec t 0 []
    exact ⟨w2.tid, w2.hints, w2.resume, w2.control, fun _ h => (List.not_mem_nil h).elim,
      fun m _ => by rw [w1, if_neg (by simp)], fun d hd => ⟨fun _ h => (List.not_mem_nil h).elim, (w3 d hd).1⟩⟩
  · exact Did.nothing t

/-- Parkings beside the group settle after the issue as before it. -/
theorem settles_marked {s : State} {r : Run} {w : Wg} (hw : s.wg? w.uid = some w) {x : Who} {ends : Bool} {f : Thread → Thread}
    {pl : Thread → Option Place} {po : Thread → List (State → State)} (hf : ∀ t, (f t).tid = t.tid) {p : Parking}
    (hp : p.settles s w) (ha : p.tid ∉ r.groups.flatten) : Settles (marked s w (okActs x ends f pl po r w)) w.uid p := by
  refine settles_of (marked_wg hw _) ?_
  rcases hp with ⟨k, on, h1, h2⟩ | h
  · refine .inl ⟨k, on, h1, ?_⟩
    rw [← h2]
    refine waitOver_congr (s := s) (w := w) (u := marked s w (okActs x ends f pl po r w))
      (w' := { w with threads := w.threads.map (actThread w.quota (okActs x ends f pl po r w)) }) (tid := p.tid) rfl rfl rfl ?_ on
    rw [thread_map w _ (fun t => actThread_tid hf w.quota t)]
    cases ht : w.thread? p.tid with
    | none => rfl
    | some t =>
      rw [Option.map_some, actThread_apart]
      rw [thread_tid ht]
      cases hc : (r.groups.getD r.grp []).contains p.tid with
      | false => rfl
      | true =>
        exfalso
        apply ha
        rw [List.mem_flatten]
        by_cases hlt : r.grp < r.groups.length
        · refine ⟨r.groups[r.grp], List.getElem_mem hlt, ?_⟩
          rw [List.getD_eq_getElem?_getD, List.getElem?_eq_getElem hlt] at hc
          simpa using hc
        · rw [List.getD_eq_getElem?_getD, List.getElem?_eq_none (by omega)] at hc
          cases hc
  · exact .inr h

/-- A change of the rest of a thread alone. -/
theorem Did.rest {t t2 : Thread} (h1 : t2.tid = t.tid) (h2 : t2.hints = t.hints) (h3 : t2.resume = t.resume)
    (h4 : t2.win = t.win) (h5 : t2.bank = t.bank) (h6 : t2.dead = t.dead) : Did t t2 [] t2 :=
  ⟨h1, h2, h3, rfl, fun _ h => (List.not_mem_nil h).elim, fun _ _ => by unfold look; rw [h4, h5],
    fun _ h => ⟨fun _ h => (List.not_mem_nil h).elim, h6 ▸ h⟩⟩

/-- One register written. -/
theorem did_write1 {t : Thread} (base : Thread) (n : Nat) (x : Reg) (h1 : base.tid = t.tid) (h2 : base.hints = t.hints)
    (h3 : base.resume = t.resume) (h4 : base.win = t.win) (h5 : base.bank = t.bank) (h6 : base.dead = t.dead) :
    Did t (base.write n [x]) [(n, x)] base := by
  obtain ⟨w1, w2, w3⟩ := write_spec base n [x]
  have hl : ∀ m, look base m = look t m := fun m => by unfold look; rw [h4, h5]
  refine ⟨w2.tid.trans h1, w2.hints.trans h2, w2.resume.trans h3, w2.control, fun p hp => ?_, fun m hm => ?_, fun d hd => ?_⟩
  · rw [List.mem_singleton.mp hp, w1, if_pos ⟨Nat.le_refl _, Nat.lt_add_of_pos_right (by simp)⟩, Nat.sub_self]; rfl
  · rw [w1, if_neg (by have := hm (n, x) (List.mem_singleton.mpr rfl); simp only [List.length_singleton]; simp only at this; omega), hl]
  · obtain ⟨a, b⟩ := w3 d hd
    refine ⟨fun q hq => ?_, h6 ▸ a⟩
    rw [List.mem_singleton.mp hq]
    simp only [List.length_singleton] at b
    show n ≠ d.1
    omega

/-- A pair of registers written. -/
theorem did_write2 {t : Thread} (base : Thread) (n : Nat) (x y : Reg) (h1 : base.tid = t.tid) (h2 : base.hints = t.hints)
    (h3 : base.resume = t.resume) (h4 : base.win = t.win) (h5 : base.bank = t.bank) (h6 : base.dead = t.dead) :
    Did t (base.write n [x, y]) [(n, x), (n + 1, y)] base := by
  obtain ⟨w1, w2, w3⟩ := write_spec base n [x, y]
  have hl : ∀ m, look base m = look t m := fun m => by unfold look; rw [h4, h5]
  have hlen : ([x, y] : List Reg).length = 2 := rfl
  refine ⟨w2.tid.trans h1, w2.hints.trans h2, w2.resume.trans h3, w2.control, fun p hp => ?_, fun m hm => ?_, fun d hd => ?_⟩
  · rcases List.mem_cons.mp hp with e | e
    · rw [e, w1, if_pos (by rw [hlen]; show n ≤ n ∧ n < n + 2; omega)]; simp
    · rw [List.mem_singleton.mp e, w1, if_pos (by rw [hlen]; show n ≤ n + 1 ∧ n + 1 < n + 2; omega)]; simp
  · have a := hm (n, x) (List.mem_cons_self ..)
    have b := hm (n + 1, y) (List.mem_cons_of_mem _ (List.mem_cons_self ..))
    rw [w1, if_neg (by rw [hlen]; simp only at a b; omega), hl]
  · obtain ⟨a, b⟩ := w3 d hd
    rw [hlen] at b
    refine ⟨fun q hq => ?_, h6 ▸ a⟩
    rcases List.mem_cons.mp hq with e | e
    · rw [e]; show n ≠ d.1; omega
    · rw [List.mem_singleton.mp e]; show n + 1 ≠ d.1; omega

/-- A thread after an issue: its hints are used up, and no register changed but those they call dead (R71, R76). -/
structure Issued (t t' : Thread) : Prop where
  look : ∀ m, m ∉ deadNames t.hints → look t' m = look t m
  tid : t'.tid = t.tid
  control : t'.control = t.control
  hints : t'.hints = Hints.none
  resume : t'.resume = t.resume
  dead : ∀ d ∈ t'.dead, d ∈ t.dead ∨ d.1 ∈ deadNames t.hints

theorem issued_issued (q : Nat) (t : Thread) : Issued t (t.issued q) := by
  obtain ⟨i1, i2, i3, _, i5, i6, i7⟩ := issued_spec q t
  exact ⟨i1, i2, i3, i5, i6, i7⟩

theorem issuedAt_issued (word : Word) (q : Nat) (t : Thread) : Issued t (t.issuedAt word q) := by
  unfold Thread.issuedAt
  split
  · exact ⟨fun _ _ => rfl, rfl, rfl, rfl, rfl, fun _ h => .inl h⟩
  · exact issued_issued q t

theorem became_of {s u : State} {t t2 t3 t' : Thread} {wr : List (Nat × Reg)} {base : Thread} (hd : Did t t2 wr base)
    (hi : Issued t2 t3) (hl : ThreadSlid t3 t') : Became s u t t' wr base := by
  obtain ⟨i1, i2, i3, i5, i6, i7⟩ := hi
  rw [hd.hints] at i1 i7
  have hdead : ∀ p ∈ t'.dead, p.1 ∈ deadNames t.hints ∨ ((∀ q ∈ wr, q.1 ≠ p.1) ∧ p ∈ t.dead) := fun p hp => by
    rcases i7 p (hl.dead hp) with h | h
    · exact .inr (hd.dead p h)
    · exact .inl h
  refine ⟨(hl.tid.trans i2).trans hd.tid, (hl.control.trans i3).trans hd.control, fun p hp hn => ?_, fun p hp => ?_,
    fun n hn hh => ?_, fun hr => ?_⟩
  · rw [reg_of_not_dead, hl.look, i1 _ hn, hd.wrote p hp]
    intro d hd' he
    rcases hdead d hd' with h | h
    · exact hn (he ▸ h)
    · exact h.1 p hp he.symm
  · rcases hdead p hp with h | h
    · exact .inl h
    · exact .inr ⟨h.1, p, h.2, rfl⟩
  · rw [reg_of_not_dead, hl.look, i1 _ hh.2, hd.other n hn, reg_of_not_dead hh.1]
    intro d hd' he
    rcases hdead d hd' with h | h
    · exact hh.2 (he ▸ h)
    · exact hh.1 d h.2 he
  · rcases hl.hints with h | h | h
    · exact h.trans i5
    · exact h
    · rw [i6, hd.resume, hr] at h; cases h

theorem stayed_of {s u : State} {t t' : Thread} (hl : ThreadSlid t t') : Stayed s u t t' := by
  refine ⟨hl.tid, hl.control, fun n hn => ?_, fun p hp => ⟨p, hl.dead hp, rfl⟩, hl.hints⟩
  rw [reg_of_not_dead fun p hp => hn p (hl.dead hp), hl.look, reg_of_not_dead hn]

theorem posted_nil (s : State) (x : Who) (ends : Bool) (f : Thread → Thread) (pl : Thread → Option Place) (r : Run) (w : Wg) :
    posted s (okActs x ends f pl (fun _ => []) r w) = s := by
  unfold posted okActs
  rw [List.foldl_map]
  generalize r.group w = ts
  induction ts generalizing s with
  | nil => rfl
  | cons t ts ih =>
    rw [List.foldl_cons, okAct_ok]
    simp only [ite_self, List.foldl_nil]
    exact ih s

/-- What the group became when the effects beyond the threads, from `s1` to `s2`, touch no thread. -/
theorem groupBecame_of {s u : State} {r : Run} {w : Wg} (hs : Smooth s r w) {x : Who} {ends : Bool} {f : Thread → Thread}
    {pl : Thread → Option Place} {po : Thread → List (State → State)} {wr : Thread → List (Nat × Reg)} {base : Thread → Thread}
    (hf : ∀ t, (f t).tid = t.tid) (hdid : ∀ t ∈ r.group w, t.guard.val = true → Did t (f t) (wr t) (base t))
    (hwg : (posted (marked s w (okActs x ends f pl po r w)) (okActs x ends f pl po r w)).wg? w.uid =
      (marked s w (okActs x ends f pl po r w)).wg? w.uid)
    (hl : Slid (posted (marked s w (okActs x ends f pl po r w)) (okActs x ends f pl po r w)) u r.core r.port w.uid) :
    GroupBecame s u r w wr base := by
  obtain ⟨_, hw, huid⟩ := issuer_spec hs.issuer
  rw [← huid] at hw
  rw [marked_wg hw] at hwg
  obtain ⟨w', hw', sl⟩ := hl.own _ hwg
  refine ⟨w', hw', sl.control, fun tid t ht => ?_⟩
  have ht1 : ({ w with threads := w.threads.map (actThread w.quota (okActs x ends f pl po r w)) } : Wg).thread? tid =
      some (actThread w.quota (okActs x ends f pl po r w) t) := by
    rw [thread_map w _ (actThread_tid hf w.quota), ht]; rfl
  obtain ⟨t', ht', tl⟩ := sl.threads tid _ ht1
  refine ⟨t', ht', ?_⟩
  rw [actThread_ok w.quota ht] at tl
  split
  · rename_i hg
    rw [if_pos hg] at tl
    split
    · rename_i hv
      rw [if_pos hv] at tl
      exact became_of (hdid t hg hv) (issued_issued ..) tl
    · rename_i hv
      rw [if_neg hv] at tl
      exact became_of (did_skipped x t) (issued_issued ..) tl
  · rename_i hg
    rw [if_neg hg] at tl
    exact stayed_of tl

theorem beside_of {s u : State} {r : Run} {w : Wg} {acts : List (Nat × Act)}
    (hl : Slid (marked s w acts) u r.core r.port w.uid) : Beside s u r w :=
  ⟨hl.elsewhere, hl.tenants, hl.runs, fun v hv => (hl.others v hv).trans (marked_other acts hv)⟩

/-- An instruction whose effects are on the threads of the group alone completes. -/
theorem completes_of {word : Word} {fm : Form} {ends : Bool} {stall : Who → List Thread → Option Nat}
    {op : Who → Thread → Act} {s : State} {r : Run} {w : Wg} (hs : Smooth s r w) {f : Thread → Thread}
    {pl : Thread → Option Place} {wr : Thread → List (Nat × Reg)} {base : Thread → Thread}
    (hready : ∀ t ∈ r.group w, t.guard.val = true → Ready fm ⟨s, w, r, word, r.pc⟩ t)
    (hstall : stall ⟨s, w, r, word, r.pc⟩ ((r.group w).filter fun t => t.guard.val) = none)
    (hop : ∀ t ∈ r.group w, t.guard.val = true → op ⟨s, w, r, word, r.pc⟩ t = .ok (f t) (pl t) [])
    (hle : (ends && fm.claimed && fm.ops.all Opnd.legal) = ends)
    (hpl : ∀ t ∈ r.group w, t.guard.val = true → ∀ p, pl t = some p →
      Settles (marked s w (okActs ⟨s, w, r, word, r.pc⟩ ends f pl (fun _ => []) r w)) w.uid ⟨t.tid, p, none⟩)
    (hf : ∀ t, (f t).tid = t.tid) (hdid : ∀ t ∈ r.group w, t.guard.val = true → Did t (f t) (wr t) (base t)) :
    ∃ u, issueThread word fm ends stall op s = .next u ∧ Beside s u r w ∧ GroupBecame s u r w wr base ∧
      (ends = false → (∀ t, pl t = none) → MovesOn s u r false) := by
  have hw := issuer_wg hs
  have hn := posted_nil (marked s w (okActs ⟨s, w, r, word, r.pc⟩ ends f pl (fun _ => []) r w)) ⟨s, w, r, word, r.pc⟩ ends f pl r w
  obtain ⟨u, hu, hl, _, hm⟩ := issueThread_next hs f pl (fun _ => []) hready hstall hop hle (by rw [hn]; exact hpl)
    (by rw [hn]; exact fun p hp => settles_marked hw hf (hs.parked p hp).1 (hs.parked p hp).2) (by rw [hn]; rfl)
  refine ⟨u, hu, ?_, groupBecame_of hs hf hdid (by rw [hn]) hl, fun he hp => hm (noParkings he hp)⟩
  rw [hn] at hl
  exact beside_of hl

/-- The same for one that ends no block: the run moves on. -/
theorem completes_next {word : Word} {fm : Form} {stall : Who → List Thread → Option Nat} {op : Who → Thread → Act} {s : State} {r : Run}
    {w : Wg} (hs : Smooth s r w) {f : Thread → Thread} {wr : Thread → List (Nat × Reg)} {base : Thread → Thread}
    (hready : ∀ t ∈ r.group w, t.guard.val = true → Ready fm ⟨s, w, r, word, r.pc⟩ t)
    (hstall : stall ⟨s, w, r, word, r.pc⟩ ((r.group w).filter fun t => t.guard.val) = none)
    (hop : ∀ t ∈ r.group w, t.guard.val = true → op ⟨s, w, r, word, r.pc⟩ t = .ok (f t) none [])
    (hf : ∀ t, (f t).tid = t.tid) (hdid : ∀ t ∈ r.group w, t.guard.val = true → Did t (f t) (wr t) (base t)) :
    ∃ u, issueThread word fm false stall op s = .next u ∧ Beside s u r w ∧ GroupBecame s u r w wr base ∧ MovesOn s u r false := by
  obtain ⟨u, h1, h2, h3, h4⟩ := completes_of (ends := false) hs (pl := fun _ => none) hready hstall hop rfl (fun _ _ _ _ h => by cases h) hf hdid
  exact ⟨u, h1, h2, h3, h4 rfl fun _ => rfl⟩

/-- Effects beyond the threads that leave the state as it is. -/
theorem posted_same {s : State} {x : Who} {ends : Bool} {f : Thread → Thread} {pl : Thread → Option Place}
    {po : Thread → List (State → State)} {r : Run} {w : Wg}
    (h : ∀ t ∈ r.group w, t.guard.val = true → ∀ p ∈ po t, p s = s) : posted s (okActs x ends f pl po r w) = s := by
  unfold posted okActs
  rw [List.foldl_map]
  generalize r.group w = ts at h
  induction ts with
  | nil => rfl
  | cons t ts ih =>
    rw [List.foldl_cons, okAct_ok]
    have hl : ∀ l : List (State → State), (∀ p ∈ l, p s = s) → l.foldl (fun (s : State) p => p s) s = s := by
      intro l hl
      induction l with
      | nil => rfl
      | cons p ps ihp =>
        rw [List.foldl_cons, hl p (List.mem_cons_self ..)]
        exact ihp fun q hq => hl q (List.mem_cons_of_mem _ hq)
    have e : (if t.guard.val = true then po t else []).foldl (fun (s : State) p => p s) s = s := by
      split
      · rename_i hg; exact hl _ (h t (List.mem_cons_self ..) hg)
      · rfl
    show ts.foldl _ ((if t.guard.val = true then po t else []).foldl (fun (s : State) p => p s) s) = s
    rw [e]
    exact ih fun t' ht' => h t' (List.mem_cons_of_mem _ ht')

/-- The same for an instruction whose effects beyond the threads are none in this state. -/
theorem completes_post {word : Word} {fm : Form} {ends : Bool} {stall : Who → List Thread → Option Nat}
    {op : Who → Thread → Act} {s : State} {r : Run} {w : Wg} (hs : Smooth s r w) {f : Thread → Thread}
    {pl : Thread → Option Place} {po : Thread → List (State → State)} {wr : Thread → List (Nat × Reg)} {base : Thread → Thread}
    (hready : ∀ t ∈ r.group w, t.guard.val = true → Ready fm ⟨s, w, r, word, r.pc⟩ t)
    (hstall : stall ⟨s, w, r, word, r.pc⟩ ((r.group w).filter fun t => t.guard.val) = none)
    (hop : ∀ t ∈ r.group w, t.guard.val = true → op ⟨s, w, r, word, r.pc⟩ t = .ok (f t) (pl t) (po t))
    (hle : (ends && fm.claimed && fm.ops.all Opnd.legal) = ends)
    (hpl : ∀ t ∈ r.group w, t.guard.val = true → ∀ p, pl t = some p →
      Settles (marked s w (okActs ⟨s, w, r, word, r.pc⟩ ends f pl po r w)) w.uid ⟨t.tid, p, none⟩)
    (hf : ∀ t, (f t).tid = t.tid) (hdid : ∀ t ∈ r.group w, t.guard.val = true → Did t (f t) (wr t) (base t))
    (hpo : ∀ acts, ∀ t ∈ r.group w, t.guard.val = true → ∀ p ∈ po t, p (marked s w acts) = marked s w acts) :
    ∃ u, issueThread word fm ends stall op s = .next u ∧ Beside s u r w ∧ GroupBecame s u r w wr base ∧
      (ends = false → (∀ t, pl t = none) → MovesOn s u r false) := by
  have hw := issuer_wg hs
  have hn := posted_same (x := ⟨s, w, r, word, r.pc⟩) (ends := ends) (f := f) (pl := pl)
    (hpo (okActs ⟨s, w, r, word, r.pc⟩ ends f pl po r w))
  obtain ⟨u, hu, hl, _, hm⟩ := issueThread_next hs f pl po hready hstall hop hle (by rw [hn]; exact hpl)
    (by rw [hn]; exact fun p hp => settles_marked hw hf (hs.parked p hp).1 (hs.parked p hp).2) (by rw [hn]; rfl)
  refine ⟨u, hu, ?_, groupBecame_of hs hf hdid (by rw [hn]) hl, fun he hp => hm (noParkings he hp)⟩
  rw [hn] at hl
  exact beside_of hl

theorem marked_thread {s : State} {w : Wg} (hw : s.wg? w.uid = some w) {acts : List (Nat × Act)}
    (hf : ∀ q t, (actThread q acts t).tid = t.tid) {tid : Nat} {t : Thread} (ht : w.thread? tid = some t) :
    (marked s w acts).thread? w.uid tid = some (actThread w.quota acts t) := by
  unfold State.thread?
  rw [marked_wg hw, Option.bind_some, thread_map w _ (hf w.quota), ht]; rfl

theorem group_thread {r : Run} {w : Wg} {t : Thread} (ht : t ∈ r.group w) (hal : r.alone w t) : w.thread? t.tid = some t := by
  have hm := (List.mem_filter.mp ht).1
  cases h : w.thread? t.tid with
  | none =>
    unfold Wg.thread? at h
    rw [List.find?_eq_none] at h
    have := h t hm
    simp at this
  | some t' =>
    have h1 := thread_tid h
    rw [hal.1 t' ((mem_group (thread_mem h)).mpr (by rw [h1]; exact (mem_group hm).mp ht)) h1]

/-- A terminator whose effects are on the threads of the group alone, given what it does beyond them leaves the state as it
is. -/
theorem goes_of {word : Word} {fm : Form} {stall : Who → List Thread → Option Nat}
    {op : Who → Thread → Act} {s : State} {r : Run} {w : Wg} (hs : Smooth s r w) {f : Thread → Thread}
    {pl : Thread → Place} {po : Thread → List (State → State)} {wr : Thread → List (Nat × Reg)} {base : Thread → Thread}
    (hready : ∀ t ∈ r.group w, t.guard.val = true → Ready fm ⟨s, w, r, word, r.pc⟩ t)
    (hstall : stall ⟨s, w, r, word, r.pc⟩ ((r.group w).filter fun t => t.guard.val) = none)
    (hop : ∀ t ∈ r.group w, t.guard.val = true → op ⟨s, w, r, word, r.pc⟩ t = .ok (f t) (some (pl t)) (po t))
    (hle : (fm.claimed && fm.ops.all Opnd.legal) = true)
    (hpl : ∀ t ∈ r.group w, t.guard.val = true →
      Settles (marked s w (okActs ⟨s, w, r, word, r.pc⟩ true f (fun t => some (pl t)) po r w)) w.uid ⟨t.tid, pl t, none⟩)
    (hf : ∀ t, (f t).tid = t.tid) (hdid : ∀ t ∈ r.group w, t.guard.val = true → Did t (f t) (wr t) (base t))
    (hpo : ∀ acts, ∀ t ∈ r.group w, t.guard.val = true → ∀ p ∈ po t, p (marked s w acts) = marked s w acts) :
    ∃ u, issueThread word fm true stall op s = .next u ∧ Beside s u r w ∧ GroupBecame s u r w wr base ∧
      ∀ t ∈ r.group w, r.alone w t →
        u.placeOf r w t.tid = some (if t.guard.val = true then pl t else .waiting (r.pc + 1) .ready) := by
  have hn := posted_same (x := ⟨s, w, r, word, r.pc⟩) (ends := true) (f := f) (pl := fun t => some (pl t))
    (hpo (okActs ⟨s, w, r, word, r.pc⟩ true f (fun t => some (pl t)) po r w))
  obtain ⟨u, hu, hl, hpc, _⟩ := issueThread_next (ends := true) hs f (fun t => some (pl t)) po hready hstall hop
    (by rw [Bool.true_and]; exact hle) (by rw [hn]; intro t ht hg p h; cases h; exact hpl t ht hg)
    (by rw [hn]; exact fun p hp => settles_marked (issuer_wg hs) hf (hs.parked p hp).1 (hs.parked p hp).2) (by rw [hn]; rfl)
  have hw := issuer_wg hs
  refine ⟨u, hu, ?_, groupBecame_of hs hf hdid (by rw [hn]) hl, fun t ht hal => ?_⟩
  · rw [hn] at hl
    exact beside_of hl
  · refine hpc t ht hal _ (by split <;> rfl) ?_
    rw [hn]
    exact ⟨_, marked_thread hw (fun q t => actThread_tid hf q t) (group_thread ht hal)⟩

/-- A launch that keeps no log has none written, and nothing waits for an entry of it (R356, R357). -/
theorem unlogged_entry {s : State} {w : Wg} (h : s.unlogged w) (tid kind pc value : Nat) : s.logEntry w tid kind pc value = s := by
  unfold State.logEntry State.launchOf
  cases hl : s.launch? w.launch with
  | none => rfl
  | some l => dsimp only; rw [if_pos (.inl (by rw [h l hl]; decide))]

theorem unlogged_stall {s : State} {w : Wg} (h : s.unlogged w) (ts : List Thread) : s.logStall w ts = none := by
  have h1 : ∀ tid, s.logsAtom w tid = false := fun tid => by
    unfold State.logsAtom State.launchOf
    cases hl : s.launch? w.launch with
    | none => rfl
    | some l => simp [h l hl]
  unfold State.logStall
  simp [h1]

theorem unlogged_marked {s : State} {w : Wg} (h : s.unlogged w) (acts : List (Nat × Act)) : (marked s w acts).unlogged w := h

/-- An instruction completes whose effects beyond the threads lead, but for runs and workgroups, to the state `b`; they may also
touch threads of the group, which then are as if the operation itself had done it. -/
theorem completes_beyond {word : Word} {fm : Form} {ends : Bool} {stall : Who → List Thread → Option Nat}
    {op : Who → Thread → Act} {s b : State} {r : Run} {w : Wg} (hs : Smooth s r w) {f : Thread → Thread}
    {pl : Thread → Option Place} {po : Thread → List (State → State)} {wr : Thread → List (Nat × Reg)} {base : Thread → Thread}
    (hready : ∀ t ∈ r.group w, t.guard.val = true → Ready fm ⟨s, w, r, word, r.pc⟩ t)
    (hstall : stall ⟨s, w, r, word, r.pc⟩ ((r.group w).filter fun t => t.guard.val) = none)
    (hop : ∀ t ∈ r.group w, t.guard.val = true → op ⟨s, w, r, word, r.pc⟩ t = .ok (f t) (pl t) (po t))
    (hle : (ends && fm.claimed && fm.ops.all Opnd.legal) = ends)
    (hpl : ∀ t ∈ r.group w, t.guard.val = true → ∀ p, pl t = some p → Settles (posted (marked s w
      (okActs ⟨s, w, r, word, r.pc⟩ ends f pl po r w)) (okActs ⟨s, w, r, word, r.pc⟩ ends f pl po r w)) w.uid ⟨t.tid, p, none⟩)
    (hpark : ∀ p ∈ r.parked, Settles (posted (marked s w (okActs ⟨s, w, r, word, r.pc⟩ ends f pl po r w))
      (okActs ⟨s, w, r, word, r.pc⟩ ends f pl po r w)) w.uid p)
    (hb : let v := posted (marked s w (okActs ⟨s, w, r, word, r.pc⟩ ends f pl po r w)) (okActs ⟨s, w, r, word, r.pc⟩ ends f pl po r w)
      v.elsewhere = b.elsewhere ∧ v.tenants.map Tenant.quiet = b.tenants.map Tenant.quiet ∧ v.runs = s.runs ∧ b.runs = s.runs ∧
      (∀ uid, uid ≠ w.uid → v.wg? uid = b.wg? uid) ∧
      ∃ w1, v.wg? w.uid = some w1 ∧ w1.control = w.control ∧ ∀ tid t, w.thread? tid = some t → ∃ t1, w1.thread? tid = some t1 ∧
        if t ∈ r.group w then
          if t.guard.val = true then ∃ t2 q, t1 = Thread.issued q t2 ∧ Did t t2 (wr t) (base t)
          else ∃ q, t1 = Thread.issued q (skipped ⟨s, w, r, word, r.pc⟩ t)
        else t1 = t) :
    ∃ u, issueThread word fm ends stall op s = .next u ∧ Beside b u r w ∧ GroupBecame s u r w wr base ∧
      (∀ t ∈ r.group w, r.alone w t → ∀ p,
        (if t.guard.val = true then pl t else if ends then some (.waiting (r.pc + 1) .ready) else none) = some p →
        u.placeOf r w t.tid = some p) ∧ (ends = false → (∀ t, pl t = none) → MovesOn b u r false) := by
  obtain ⟨b1, b2, b3, b4, b5, w1, h1, h2, h3⟩ := hb
  obtain ⟨u, hu, hl, hpc, hm⟩ := issueThread_next hs f pl po hready hstall hop hle hpl hpark b3
  refine ⟨u, hu, ⟨hl.elsewhere.trans b1, hl.tenants.trans b2, fun q hq => ?_, fun v hv => (hl.others v hv).trans (b5 v hv)⟩, ?_, ?_,
    fun he hp q h => hm (noParkings he hp) q (by rw [← b4]; exact h)⟩
  · rw [hl.runs q hq, b3, b4]
  · obtain ⟨w', hw', sl⟩ := hl.own _ h1
    refine ⟨w', hw', sl.control.trans h2, fun tid t ht => ?_⟩
    obtain ⟨t1, ht1, hc⟩ := h3 tid t ht
    obtain ⟨t', ht', tl⟩ := sl.threads tid _ ht1
    refine ⟨t', ht', ?_⟩
    split
    · rename_i hg
      rw [if_pos hg] at hc
      split
      · rename_i hv
        rw [if_pos hv] at hc
        obtain ⟨t2, q, rfl, hd⟩ := hc
        exact became_of hd (issued_issued ..) tl
      · rename_i hv
        rw [if_neg hv] at hc
        obtain ⟨q, rfl⟩ := hc
        exact became_of (did_skipped _ t) (issued_issued ..) tl
    · rename_i hg
      rw [if_neg hg] at hc
      subst hc
      exact stayed_of tl
  · intro t ht hal p hp
    refine hpc t ht hal p hp ?_
    obtain ⟨t1, ht1, _⟩ := h3 t.tid t (group_thread ht hal)
    exact ⟨t1, by unfold State.thread?; rw [h1, Option.bind_some]; exact ht1⟩

/-! ### Uniform instructions -/

/-- The checks of a uniform instruction that its thread passes. -/
structure ReadyAll (fm : Form) (x : Who) (t : Thread) : Prop where
  check : fm.check x true t = none

theorem mem_everyone {r : Run} {w : Wg} {t : Thread} (h : t ∈ w.threads) :
    t ∈ r.everyone w ↔ r.groups.flatten.contains t.tid = true := by
  unfold Run.everyone
  rw [List.mem_filter]
  exact ⟨fun h => h.2, fun k => ⟨h, k⟩⟩

/-- The workgroup after its run's threads have issued. -/
def issuedAll (word : Word) (r : Run) (w : Wg) : Wg :=
  { w with threads := w.threads.map fun t => if r.groups.flatten.contains t.tid then t.issuedAt word w.quota else t }

theorem issuedAll_thread (word : Word) (r : Run) (w : Wg) (tid : Nat) : (issuedAll word r w).thread? tid =
    (w.thread? tid).map fun t => if r.groups.flatten.contains t.tid then t.issuedAt word w.quota else t := by
  unfold issuedAll
  exact thread_map w _ (fun t => by split <;> simp [(issuedAt_issued word w.quota t).tid]) tid

/-- A uniform instruction that waits for nothing and faults for no thread issues once for every group. -/
theorem issueUniform_next {word : Word} {fm : Form} {wait : Who → Option (Nat × State)} {op : Who → UAct} {s s' : State} {r : Run}
    {w : Wg} (hs : SmoothAll s r w) (hready : ∀ t ∈ r.everyone w, fm.check ⟨s, w, r, word, r.pc⟩ true t = none)
    (hwait : wait ⟨s, w, r, word, r.pc⟩ = none) (hop : op ⟨s, w, r, word, r.pc⟩ = .ok s') (hruns : s'.runs = s.runs) :
    ∃ u, issueUniformThen word fm wait op s = .next u ∧ Slid (s'.onWg w.uid (issuedAll word r)) u r.core r.port w.uid ∧
      MovesOn s u r true := by
  obtain ⟨⟨rest, hrest⟩, hwg, huid⟩ := issuer_spec hs.issuer
  have hblock : heldBack (r.everyone w) = none := heldBack_none hs.free
  have hfire : ∀ t ∈ r.everyone w, (if t.suppress = true then none else s.comparatorAt r w.launch r.pc) = none := by
    intro t ht
    rcases hs.armed t ht with h | h
    · rw [h]; rfl
    · rw [h]; split <;> rfl
  refine ⟨(((s'.onWg w.uid (issuedAll word r)).issuedOne w).advanceFree).advance r.core r.port true, ?_, ?_, ?_⟩
  rotate_right
  · exact advance_moves (rest := rest) (by rw [hrest]; rfl) (hruns.trans hrest) rfl rfl fun p hp => by rw [hs.parked] at hp; cases hp
  · unfold issueUniformThen
    rw [hs.issuer]
    dsimp only
    have e1 : (w.threads.filter fun t => r.groups.flatten.contains t.tid) = r.everyone w := rfl
    rw [e1, hblock]
    dsimp only
    split
    · rename_i h
      exfalso
      rcases h with h | h
      · apply h
        rw [List.isEmpty_iff, List.filterMap_eq_nil_iff]
        intro t ht
        have := hfire t ht
        unfold Run.pc at this
        rw [this]
      · apply h
        rw [List.isEmpty_iff, List.filterMap_eq_nil_iff]
        intro t ht
        rw [show fm.check ⟨s, w, r, word, r.key + r.idx⟩ true t = none from hready t (List.mem_filter.mp ht).1]; rfl
    rw [show wait ⟨s, w, r, word, r.key + r.idx⟩ = none from hwait, show op ⟨s, w, r, word, r.key + r.idx⟩ = .ok s' from hop]
    rfl
  · refine ((slid_issuedOne _ w _ _).trans (slid_advanceFree _ _ _ _)).trans (slid_advance _ _ _ _ _ fun r' hr' => ?_)
    have e : (((s'.onWg w.uid (issuedAll word r)).issuedOne w).advanceFree).runs = r :: rest := hruns.trans hrest
    rw [e, List.find?_cons_of_pos (by simp)] at hr'
    cases hr'
    exact ⟨huid.symm, fun p hp => by rw [hs.parked] at hp; cases hp⟩

/-- What the run became when the instruction changed only the workgroup's own registers. -/
theorem runBecame_of {s s' u : State} {r : Run} {w after : Wg} {word : Word} (hwg : s'.wg? w.uid = some after)
    (hthreads : after.threads = w.threads) (hl : Slid (s'.onWg w.uid (issuedAll word r)) u r.core r.port w.uid) :
    RunBecame s u r w after := by
  obtain ⟨w', hw', sl⟩ := hl.own _ (wg_onWg_same (f := issuedAll word r) (by intro; rfl) hwg)
  refine ⟨w', hw', sl.control.trans rfl, fun tid t ht => ?_⟩
  have ht1 := issuedAll_thread word r after tid
  rw [show after.thread? tid = w.thread? tid from congrArg (List.find? _) hthreads, ht, Option.map_some] at ht1
  obtain ⟨t', ht', tl⟩ := sl.threads tid _ ht1
  refine ⟨t', ht', ?_⟩
  by_cases h : t ∈ r.everyone w
  · rw [if_pos h]
    rw [if_pos ((mem_everyone (thread_mem ht)).mp h)] at tl
    exact became_of (Did.nothing t) (issuedAt_issued ..) tl
  · rw [if_neg h]
    rw [if_neg fun k => h ((mem_everyone (thread_mem ht)).mpr k)] at tl
    exact stayed_of tl

/-- A uniform instruction that changes only registers of its workgroup completes. -/
theorem completesUniform_of {word : Word} {fm : Form} {wait : Who → Option (Nat × State)} {op : Who → UAct} {s : State} {r : Run}
    {w : Wg} (hs : SmoothAll s r w) {f : Wg → Wg} (hf : ∀ v, (f v).uid = v.uid ∧ (f v).threads = v.threads)
    (hready : ∀ t ∈ r.everyone w, fm.check ⟨s, w, r, word, r.pc⟩ true t = none) (hwait : wait ⟨s, w, r, word, r.pc⟩ = none)
    (hop : op ⟨s, w, r, word, r.pc⟩ = .ok (s.onWg w.uid f)) :
    ∃ u, issueUniformThen word fm wait op s = .next u ∧ Beside s u r w ∧ RunBecame s u r w (f w) ∧ MovesOn s u r true := by
  obtain ⟨_, hw, huid⟩ := issuer_spec hs.issuer
  rw [← huid] at hw
  obtain ⟨u, hu, hl, hm⟩ := issueUniform_next hs hready hwait hop rfl
  refine ⟨u, hu, ⟨hl.elsewhere, hl.tenants, hl.runs, fun v hv => ?_⟩,
    runBecame_of (wg_onWg_same (fun v => (hf v).1) hw) (hf w).2 hl, hm⟩
  refine (hl.others v hv).trans ((wg_onWg_other (by intro; rfl) hv).trans (wg_onWg_other (fun v => (hf v).1) hv))

end Sys2Proof.Laws
end

