-- ==== Sys2Proof/Laws/Operand.lean ====
section
/-! SUPPORT. Operand fields: the value a field reads (R66-R69), and when the checks of R84 pass. -/

namespace Sys2Proof.Laws

open Sys2Proof.Machine

theorem inline_eq (n : Nat) (h1 : 0xE0 ≤ n) (h2 : n < 0xEF) : inlineConst n = inlineTable.getD (n - 0xE0) 0 := by
  obtain ⟨k, rfl⟩ : ∃ k, n = 0xE0 + k := ⟨n - 0xE0, by omega⟩
  have hk : k < 15 := by omega
  rw [Nat.add_sub_cancel_left]
  interval_cases k <;> rfl

theorem int_operand (x : Who) (t : Thread) (f : BitVec 8) : x.int t f = operand x.s x.w t f := by
  unfold Who.int operand
  dsimp only
  split
  · rfl
  · split
    · rfl
    · split
      · rfl
      · split
        · rename_i h3 h4
          rw [inline_eq _ (by omega) h4]
        · rfl

/-- One operand field in order for a thread: orders 3 and 5 of R84, the literal, and no load awaited. -/
structure Fit (w : Wg) (t : Thread) (o : Opnd) : Prop where
  legal : o.legal = true
  literal : o.usesLiteral = true → t.hints.litSet = true
  quota : o.overQuota w.quota w.commons.length = none
  pending : ∀ n ∈ o.vnames, n ∉ t.pending

theorem fit_v {w : Wg} {t : Thread} {n cnt : Nat} (h : canName w t n cnt) : Fit w t (.v n cnt) := by
  obtain ⟨h1, h2, h3⟩ := h
  refine ⟨by simpa [Opnd.legal] using h1, fun h => Bool.noConfusion h, if_neg (Nat.not_le.mpr h2), fun m hm => ?_⟩
  obtain ⟨i, hi, rfl⟩ := List.mem_map.mp hm
  exact h3 i (List.mem_range.mp hi)

theorem fit_src {w : Wg} {t : Thread} {f : BitVec 8} {cnt : Nat} (h : canRead w t f cnt) : Fit w t (.src f cnt) := by
  obtain ⟨h1, h2, h3, h4, h5⟩ := h
  refine ⟨?_, fun h => ?_, ?_, fun m hm => ?_⟩
  · unfold Opnd.legal srcLegal
    dsimp only
    split
    · rename_i h; simpa using (h3 h).1
    · split
      · rename_i ha hb; simpa using (h4 (by omega) hb).1
      · simp [h1, h2]
  · apply h5
    have : f = 0xF0#8 := by simpa [Opnd.usesLiteral] using h
    rw [this]; rfl
  · unfold Opnd.overQuota
    dsimp only
    split
    · rename_i h; exact if_neg (by have := (h3 h).2.1; omega)
    · split
      · rename_i ha hb; exact if_neg (by have := (h4 (by omega) hb).2; omega)
      · rfl
  · unfold Opnd.vnames at hm
    dsimp only at hm
    split at hm
    · rename_i h
      obtain ⟨i, hi, rfl⟩ := List.mem_map.mp hm
      exact (h3 h).2.2 i (List.mem_range.mp hi)
    · cases hm

theorem firstSome_none {α β : Type} {f : α → Option β} {l : List α} (h : ∀ x ∈ l, f x = none) : firstSome f l = none := by
  induction l with
  | nil => rfl
  | cons x xs ih =>
    unfold firstSome
    rw [h x (List.mem_cons_self ..)]
    exact ih fun y hy => h y (List.mem_cons_of_mem _ hy)

/-- The `HINT.MEM` bits a memory form refuses are not pending (R76). -/
def memOk (fm : Form) (t : Thread) : Prop := ∀ b h, fm.mem = some b → t.hints.mem = some h → h &&& b = 0#8

theorem ready_of {fm : Form} {x : Who} {t : Thread} (hc : fm.claimed = true) (hr : fm.rights x = none) (hm : memOk fm t)
    (ho : ∀ o ∈ fm.ops, Fit x.w t o) : Ready fm x t := by
  refine ⟨?_, fun o h => (ho o h).pending⟩
  unfold Form.check
  have h1 : fm.ops.all Opnd.legal = true := List.all_eq_true.mpr fun o h => (ho o h).legal
  have h2 : ¬ (fm.ops.any Opnd.usesLiteral = true ∧ ¬ t.hints.litSet = true) := fun ⟨a, b⟩ => by
    obtain ⟨o, h, hl⟩ := List.any_eq_true.mp a
    exact b ((ho o h).literal hl)
  have h3 : (match fm.mem, t.hints.mem with
      | some refused, some h => (h &&& refused ≠ 0#8 : Bool)
      | _, _ => false) = false := by
    split
    · rename_i b h hb hh; simp [hm b h hb hh]
    · rfl
  have h4 : firstSome (Opnd.overQuota x.w.quota x.w.commons.length) fm.ops = none := firstSome_none fun o h => (ho o h).quota
  dsimp only
  rw [if_neg, if_neg (by simp), h4, hr]
  rintro (h | h | h | h | h)
  · exact h hc
  · exact h h1
  · exact Bool.noConfusion (h3.symm.trans h)
  · exact Bool.noConfusion h.1
  · exact h2 h

theorem ready_plain {ops : List Opnd} {x : Who} {t : Thread} (ho : ∀ o ∈ ops, Fit x.w t o) : Ready (.plain ops) x t :=
  ready_of rfl rfl (fun _ _ h => by cases h) ho

/-! ### Uniform instructions -/

/-- One operand field in order for a uniform instruction. -/
structure FitAll (w : Wg) (t : Thread) (o : Opnd) : Prop where
  legal : o.legal = true
  literal : o.usesLiteral = true → t.hints.litSet = true
  quota : o.overQuota w.quota w.commons.length = none

theorem fitAll_c {w : Wg} {t : Thread} {n cnt info : Nat} (h : n % cnt = 0) (hn : n + cnt ≤ w.commons.length) :
    FitAll w t (.c n cnt info) :=
  ⟨by simpa [Opnd.legal] using h, fun h => Bool.noConfusion h, if_neg (by omega)⟩

theorem fitAll_src {w : Wg} {t : Thread} {f : BitVec 8} {cnt : Nat} (h : Fit w t (.src f cnt)) : FitAll w t (.src f cnt) :=
  ⟨h.legal, h.literal, h.quota⟩

theorem fitAll_usrc {w : Wg} {r : Run} {t : Thread} {f : BitVec 8} (h : canReadUniform w r f) (ht : t ∈ r.everyone w) :
    FitAll w t (.usrc f 1) := by
  obtain ⟨h1, h2, h3, h4, h5⟩ := h
  refine ⟨?_, fun h => ?_, ?_⟩
  · unfold Opnd.legal srcLegal
    dsimp only
    have hm : ∀ n : Nat, n % 1 = 0 := fun n => Nat.mod_one n
    simp only [hm, h1, decide_true, Bool.true_and, if_true]
    split
    · rfl
    · split
      · rfl
      · simp [h2, h3]
  · have : f = 0xF0#8 := by simpa [Opnd.usesLiteral] using h
    exact (h5 (by rw [this]; rfl)).2 t ht
  · unfold Opnd.overQuota
    dsimp only
    split
    · rename_i ha; exact if_neg (by have := h4 ha.2; omega)
    · rfl

theorem uint_operand {x : Who} {f : BitVec 8} (h : canReadUniform x.w x.r f) : x.uint f = uniformOperand x.w x.r f := by
  obtain ⟨h1, h2, h3, h4, h5⟩ := h
  unfold Who.uint uniformOperand
  dsimp only
  rw [if_neg (by omega)]
  split
  · rfl
  · split
    · rfl
    · split
      · rename_i a b c
        rw [inline_eq _ (by omega) c]
      · have hf := h5 (by omega)
        cases hg : x.r.groups.flatten with
        | nil => exact absurd hg hf.1
        | cons a b =>
          dsimp only [List.headD]
          cases x.w.thread? a <;> rfl

theorem check_all {fm : Form} {x : Who} {t : Thread} (hu : x.r.uniform = true) (hp : t.hints.pred = none) (hc : fm.claimed = true)
    (hr : fm.rights x = none) (hm : memOk fm t) (ho : ∀ o ∈ fm.ops, FitAll x.w t o) : fm.check x true t = none := by
  unfold Form.check
  have h1 : fm.ops.all Opnd.legal = true := List.all_eq_true.mpr fun o h => (ho o h).legal
  have h2 : ¬ (fm.ops.any Opnd.usesLiteral = true ∧ ¬ t.hints.litSet = true) := fun ⟨a, b⟩ => by
    obtain ⟨o, h, hl⟩ := List.any_eq_true.mp a
    exact b ((ho o h).literal hl)
  have h3 : (match fm.mem, t.hints.mem with
      | some refused, some h => (h &&& refused ≠ 0#8 : Bool)
      | _, _ => false) = false := by
    split
    · rename_i b h hb hh; simp [hm b h hb hh]
    · rfl
  have h4 : firstSome (Opnd.overQuota x.w.quota x.w.commons.length) fm.ops = none := firstSome_none fun o h => (ho o h).quota
  dsimp only
  rw [if_neg, if_neg (by simp [hu]), h4, hr]
  rintro (h | h | h | h | h)
  · exact h hc
  · exact h h1
  · exact Bool.noConfusion (h3.symm.trans h)
  · rw [hp] at h; exact Bool.noConfusion h.2
  · exact h2 h

theorem check_plain {s : State} {r : Run} {w : Wg} (hs : SmoothAll s r w) {ops : List Opnd} {word : Word}
    (ho : ∀ t ∈ r.everyone w, ∀ o ∈ ops, FitAll w t o) :
    ∀ t ∈ r.everyone w, (Form.plain ops).check ⟨s, w, r, word, r.pc⟩ true t = none := fun t ht =>
  check_all hs.uniform (hs.unguarded t ht) rfl rfl (fun _ _ h => by cases h) (ho t ht)

end Sys2Proof.Laws
end

