-- ==== Sys2Proof/Laws/Forms.lean ====
section
/-! SUPPORT. What the shared forms of thread instructions do when nothing faults: an integer result, a predicate result, a
floating-point result, a terminator, a hint. -/

namespace Sys2Proof.Laws

open Sys2Proof.Machine

/-- One register result from sources of one register each. -/
theorem writesWord_of {i : Instr} {d : BitVec 7} {srcs : List (BitVec 8)} {value : State → Wg → Thread → Reg}
    {op : Who → Thread → Act} {word : Word}
    (he : ∀ s, exec i s = issueThread word (.plain (.v d.toNat 1 :: srcs.map fun f => .src f 1)) false noStall op s)
    (hop : ∀ x t, op x t = .ok (t.write d.toNat [value x.s x.w t]) none []) : WritesWord i d srcs value := by
  intro s r w hs hcan
  rw [he]
  refine completes_next hs (f := fun t => t.write d.toNat [value s w t]) ?_ rfl
    (fun t _ _ => hop _ t) (fun t => (write_spec t _ _).2.1.tid)
    fun t _ _ => did_write1 t _ _ rfl rfl rfl rfl rfl rfl
  intro t ht hg
  obtain ⟨h1, h2⟩ := hcan t ht hg
  refine ready_plain fun o ho => ?_
  rcases List.mem_cons.mp ho with rfl | ho
  · exact fit_v h1
  · obtain ⟨f, hf, rfl⟩ := List.mem_map.mp ho
    exact fit_src (h2 f hf)

theorem join_none (p : Poison) : Poison.join none p = p := by cases p <;> rfl

theorem none_join (p : Poison) : Poison.join p none = p := by cases p <;> rfl

theorem alu1_spec {i : Instr} {d : BitVec 7} {a : BitVec 8} {f : Word → Word} (he : ∀ s, exec i s = alu1 i d a f s) :
    FromOne i d a f :=
  writesWord_of (op := aluOp d.toNat [a] false fun x t => f (x.int t a).val) he fun x t => by
    simp only [aluOp, List.foldl_cons, List.foldl_nil, int_operand, Bool.false_eq_true, if_false, join_none]

theorem alu2_spec {i : Instr} {d : BitVec 7} {a b : BitVec 8} {f : Word → Word → Word}
    (he : ∀ s, exec i s = alu2 i d a b f s) : FromTwo i d a b f :=
  writesWord_of (op := aluOp d.toNat [a, b] false fun x t => f (x.int t a).val (x.int t b).val) he fun x t => by
    simp only [aluOp, List.foldl_cons, List.foldl_nil, int_operand, Bool.false_eq_true, if_false, join_none]

theorem alu3_spec {i : Instr} {d : BitVec 7} {a b : BitVec 8} {f : Word → Word → Word → Word}
    (he : ∀ s, exec i s = alu3 i d a b f s) : FromThree i d a b f :=
  writesWord_of (op := aluOp d.toNat [a, b] true fun x t => f (t.reg x.s d.toNat).val (x.int t a).val (x.int t b).val) he
    fun x t => by
      simp only [aluOp, List.foldl_cons, List.foldl_nil, int_operand, if_true]

/-- The same result said another way. -/
theorem FromOne.congr {i : Instr} {d : BitVec 7} {a : BitVec 8} {f g : Word → Word} (h : FromOne i d a f)
    (e : ∀ x, f x = g x) : FromOne i d a g := (funext e : f = g) ▸ h

theorem FromTwo.congr {i : Instr} {d : BitVec 7} {a b : BitVec 8} {f g : Word → Word → Word} (h : FromTwo i d a b f)
    (e : ∀ x y, f x y = g x y) : FromTwo i d a b g := (funext fun x => funext (e x) : f = g) ▸ h

theorem FromThree.congr {i : Instr} {d : BitVec 7} {a b : BitVec 8} {f g : Word → Word → Word → Word} (h : FromThree i d a b f)
    (e : ∀ v x y, f v x y = g v x y) : FromThree i d a b g :=
  (funext fun v => funext fun x => funext (e v x) : f = g) ▸ h

theorem pred_predicate (t : Thread) (n : BitVec 3) : t.pred n.toNat = predicate t n := by
  unfold Thread.pred predicate
  by_cases h : n = 0#3
  · rw [if_pos h, if_pos (by rw [h]; rfl)]
  · rw [if_neg h, if_neg (fun h' : n.toNat = 0 => h (BitVec.eq_of_toNat_eq h'))]

theorem setPred_withPredicate (t : Thread) (n : BitVec 3) (p : Pred) : t.setPred n.toNat p = withPredicate t n p := by
  unfold Thread.setPred withPredicate
  by_cases h : n = 0#3
  · rw [if_pos h, if_pos (by rw [h]; rfl)]
  · rw [if_neg h, if_neg (fun h' : n.toNat = 0 => h (BitVec.eq_of_toNat_eq h'))]

theorem did_withPredicate (t : Thread) (n : BitVec 3) (p : Pred) : Did t (withPredicate t n p) [] (withPredicate t n p) := by
  unfold withPredicate
  split
  · exact Did.nothing t
  · exact Did.rest rfl rfl rfl rfl rfl rfl

/-- A predicate result. -/
theorem writesPredicate_of {i : Instr} {p : BitVec 3} {srcs : List (BitVec 8)} {value : State → Wg → Thread → Pred}
    {fm : Form} {op : Who → Thread → Act} {word : Word} (he : ∀ s, exec i s = issueThread word fm false noStall op s)
    (hops : fm.ops = srcs.map fun f => .src f 1) (hc : fm.claimed = true) (hm : fm.mem = none) (hr : ∀ x, fm.rights x = none)
    (hop : ∀ x t, op x t = .ok (t.setPred p.toNat (value x.s x.w t)) none []) : WritesPredicate i p srcs value := by
  intro s r w hs hcan
  rw [he]
  refine completes_next hs (f := fun t => t.setPred p.toNat (value s w t)) ?_ rfl
    (fun t _ _ => hop _ t) (fun t => by unfold Thread.setPred; split <;> rfl)
    fun t _ _ => by rw [setPred_withPredicate]; exact did_withPredicate ..
  intro t ht hg
  refine ready_of hc (hr _) (fun b h hb => by rw [hm] at hb; cases hb) fun o ho => ?_
  rw [hops] at ho
  obtain ⟨f, hf, rfl⟩ := List.mem_map.mp ho
  exact fit_src (hcan t ht hg f hf)

/-! ### Floating-point results -/

theorem packed_operand (x : Who) (t : Thread) (f : BitVec 8) (fmt : Fmt) : x.packed t f fmt = operandPacked x.s x.w t fmt f := by
  unfold Who.packed operandPacked
  dsimp only
  split
  · rename_i h; rw [inline_eq _ h.1 h.2]
  · exact int_operand x t f

theorem fp64_operand (x : Who) (t : Thread) (f : BitVec 8) : x.fp64 t f = operandDouble x.s x.w t f := by
  unfold Who.fp64 operandDouble
  simp only [int_operand]

theorem vregs_pair (x : Who) (t : Thread) (n : Nat) :
    (x.vregs t n 2).1 = (pairValue x.s t n).1.toNat ∧ (x.vregs t n 2).2 = (pairValue x.s t n).2 := by
  have e : List.range 2 = [0, 1] := rfl
  unfold Who.vregs pairValue
  rw [e]
  simp only [List.foldr_cons, List.foldr_nil, Nat.add_zero, Nat.mul_zero, none_join]
  refine ⟨?_, trivial⟩
  rw [BitVec.toNat_append, ← Nat.shiftLeft_add_eq_or_of_lt (BitVec.isLt _), Nat.shiftLeft_eq]
  omega

theorem fpFinish_clean (d cnt : Nat) (o : FpOut) (t : Thread) (h : o.flags.bits &&& t.fen = 0#5) :
    fpFinish d cnt none o t = .ok (({ t with fflags := t.fflags ||| o.flags.bits } : Thread).write d
      ((List.range cnt).map fun k => ⟨BitVec.ofNat 32 (o.bits / 2 ^ (32 * k)), none⟩)) none [] := by
  unfold fpFinish
  simp [h]

theorem fpFinish_poison (d cnt : Nat) (q : BitVec 12) (o : FpOut) (t : Thread) :
    fpFinish d cnt (some q) o t = .ok (t.write d
      ((List.range cnt).map fun k => ⟨BitVec.ofNat 32 (o.bits / 2 ^ (32 * k)), some q⟩)) none [] := rfl

/-- A floating-point result of one or two registers. -/
theorem writesFloat_of {i : Instr} {d : BitVec 7} {cnt : Nat} {srcs : List (BitVec 8)} {poison : State → Wg → Thread → Poison}
    {out : State → Wg → Thread → FpOut} {word : Word} {ops : List Opnd} {op : Who → Thread → Act} (hcnt : cnt = 1 ∨ cnt = 2)
    (he : ∀ s, exec i s = issueThread word (.plain ops) false noStall op s)
    (hops : ops = .v d.toNat cnt :: srcs.map fun f => .src f cnt)
    (hop : ∀ x t, op x t = fpFinish d.toNat cnt (poison x.s x.w t) (out x.s x.w t) t) :
    WritesFloat i d cnt srcs poison out := by
  intro s r w hs hcan
  rw [he]
  refine completes_next hs (f := fun t => (if poison s w t = none then
      ({ t with fflags := t.fflags ||| (out s w t).flags.bits } : Thread) else t).write d.toNat
        ((List.range cnt).map fun k => ⟨BitVec.ofNat 32 ((out s w t).bits / 2 ^ (32 * k)), poison s w t⟩))
    ?_ rfl (fun t ht hg => ?_) (fun t => ?_) fun t _ _ => ?_
  · intro t ht hg
    obtain ⟨h1, h2, _⟩ := hcan t ht hg
    rw [hops]
    refine ready_plain fun o ho => ?_
    rcases List.mem_cons.mp ho with rfl | ho
    · exact fit_v h1
    · obtain ⟨f, hf, rfl⟩ := List.mem_map.mp ho
      exact fit_src (h2 f hf)
  · obtain ⟨_, _, h3⟩ := hcan t ht hg
    rw [hop]
    show fpFinish _ _ (poison s w t) (out s w t) t = _
    cases hp : poison s w t with
    | none => rw [fpFinish_clean _ _ _ _ (h3 hp), if_pos rfl]
    | some q => rw [fpFinish_poison, if_neg (by simp)]
  · rw [(write_spec _ _ _).2.1.tid]; split <;> rfl
  · have e1 : List.range 1 = [0] := rfl
    have e2 : List.range 2 = [0, 1] := rfl
    rcases hcnt with rfl | rfl
    · rw [e1]
      simp only [List.map_cons, List.map_nil, Nat.add_zero]
      split
      · exact did_write1 _ _ _ rfl rfl rfl rfl rfl rfl
      · exact did_write1 _ _ _ rfl rfl rfl rfl rfl rfl
    · rw [e2]
      simp only [List.map_cons, List.map_nil, Nat.add_zero]
      split
      · exact did_write2 _ _ _ _ rfl rfl rfl rfl rfl rfl
      · exact did_write2 _ _ _ _ rfl rfl rfl rfl rfl rfl

theorem fpOne_spec {i : Instr} {d : BitVec 7} {a : BitVec 8} {hinted : Bool} {f : FpEnv → Nat → FpOut}
    (he : ∀ s, exec i s = fpOne i d a hinted f s) : FloatOne WritesFloat i d a hinted f :=
  writesFloat_of (.inl rfl) (fun s => (he s).trans rfl) rfl fun x t => by
    simp only [int_operand, Bool.false_eq_true, if_false, none_join]

theorem fpBin_spec {i : Instr} {d : BitVec 7} {a b : BitVec 8} {hinted : Bool} {f : FpEnv → Nat → Nat → FpOut}
    (he : ∀ s, exec i s = fpBin i d a b hinted f s) : FloatTwo WritesFloat i d a b hinted f :=
  writesFloat_of (.inl rfl) (fun s => (he s).trans rfl) rfl fun x t => by
    simp only [int_operand, Bool.false_eq_true, if_false, none_join]

/-- Results that read the destination. -/
theorem fpThree_spec {i : Instr} {d : BitVec 7} {a b : BitVec 8} {f : FpEnv → Nat → Nat → Nat → FpOut}
    (he : ∀ s, exec i s = fp32Form i d a (some b) true true none (fun e c x y => f e x y c) s) : FloatThree WritesFloat i d a b f :=
  writesFloat_of (.inl rfl) (fun s => (he s).trans rfl) rfl fun x t => by
    simp only [int_operand, if_true]

theorem h2Form_spec {i : Instr} {d : BitVec 7} {a b : BitVec 8} {fmt : Fmt} {hinted : Bool} {f : FpEnv → Nat → Nat → FpOut}
    (he : ∀ s, exec i s = h2Form i d a b fmt false hinted (fun e c x y => packed (fun x y _ => f e x y) x y c) s) :
    PackedTwo WritesFloat i d a b fmt hinted f :=
  writesFloat_of (.inl rfl) (fun s => (he s).trans rfl) rfl fun x t => by
    simp only [packed_operand, Bool.false_eq_true, if_false, none_join]; rfl

theorem h2Form3_spec {i : Instr} {d : BitVec 7} {a b : BitVec 8} {fmt : Fmt} {f : FpEnv → Nat → Nat → Nat → FpOut}
    (he : ∀ s, exec i s = h2Form i d a b fmt true true (fun e c x y => f e x y c) s) : PackedThree WritesFloat i d a b fmt f :=
  writesFloat_of (.inl rfl) (fun s => (he s).trans rfl) rfl fun x t => by
    simp only [packed_operand, if_true]

theorem dBin_spec {i : Instr} {d : BitVec 6} {a b : BitVec 8} {hinted : Bool} {f : FpEnv → Nat → Nat → FpOut}
    (he : ∀ s, exec i s = dBin i d a b hinted f s) : DoubleTwo WritesFloat i d a b hinted f :=
  writesFloat_of (.inr rfl) (fun s => (he s).trans rfl) rfl fun x t => by
    simp only [fp64_operand, Bool.false_eq_true, if_false, none_join]; rfl

end Sys2Proof.Laws
end

