-- ==== Sys2Proof/Laws/Table.lean ====
section
/-! SUPPORT. Sparse tables and memory: read after write, a write leaves every other place alone, and every operation keeps
the canonical form. -/

namespace Sys2Proof.Laws

open Sys2Proof.Machine

section Tables

variable {α : Type} [DecidableEq α] {d : α}

theorem get_set_other (t : Table α) (n m : Nat) (x : α) (h : m ≠ n) : Table.get d (Table.set d t n x) m = Table.get d t m := by
  induction t with
  | nil => by_cases hx : x = d <;> simp [Table.set, Table.get, hx, h]
  | cons c r ih =>
    obtain ⟨k, v⟩ := c
    simp only [Table.set]
    split
    · by_cases hx : x = d <;> simp [Table.get, hx, h]
    · split
      · subst_vars
        by_cases hx : x = d <;> simp [Table.get, hx, h]
      · simp [Table.get, ih]

theorem wfFrom_mono {t : Table α} {lo lo' : Nat} (h : lo' ≤ lo) (hw : Table.wfFrom d lo t = true) :
    Table.wfFrom d lo' t = true := by
  cases t with
  | nil => rfl
  | cons c r =>
    simp only [Table.wfFrom, Bool.and_eq_true, decide_eq_true_eq] at *
    exact ⟨⟨by omega, hw.1.2⟩, hw.2⟩

theorem wfFrom_set {t : Table α} {lo n : Nat} (x : α) (h : lo ≤ n) (hw : Table.wfFrom d lo t = true) :
    Table.wfFrom d lo (Table.set d t n x) = true := by
  induction t generalizing lo with
  | nil => by_cases hx : x = d <;> simp [Table.set, Table.wfFrom, hx, h]
  | cons c r ih =>
    obtain ⟨k, v⟩ := c
    simp only [Table.wfFrom, Bool.and_eq_true, decide_eq_true_eq] at hw
    simp only [Table.set]
    split
    · by_cases hx : x = d <;> simp [Table.wfFrom, hx, h, hw] <;> omega
    · split
      · subst_vars
        by_cases hx : x = d
        · simp only [hx, if_true]
          exact wfFrom_mono (by omega) hw.2
        · simp [Table.wfFrom, hx, hw]
      · simp only [Table.wfFrom, Bool.and_eq_true, decide_eq_true_eq]
        exact ⟨hw.1, ih (by omega) hw.2⟩

/-- A write keeps the canonical form. -/
theorem wf_set {t : Table α} (n : Nat) (x : α) (hw : Table.wf d t = true) : Table.wf d (Table.set d t n x) = true :=
  wfFrom_set x (Nat.zero_le n) hw

theorem get_of_lt {t : Table α} {lo n : Nat} (h : n < lo) (hw : Table.wfFrom d lo t = true) : Table.get d t n = d := by
  induction t generalizing lo with
  | nil => rfl
  | cons c r ih =>
    obtain ⟨k, v⟩ := c
    simp only [Table.wfFrom, Bool.and_eq_true, decide_eq_true_eq] at hw
    have hk : n ≠ k := by omega
    simp [Table.get, hk, ih (lo := k + 1) (by omega) hw.2]

theorem get_setFrom_same {t : Table α} {lo n : Nat} (x : α) (hw : Table.wfFrom d lo t = true) :
    Table.get d (Table.set d t n x) n = x := by
  induction t generalizing lo with
  | nil => by_cases hx : x = d <;> simp [Table.set, Table.get, hx]
  | cons c r ih =>
    obtain ⟨k, v⟩ := c
    simp only [Table.wfFrom, Bool.and_eq_true, decide_eq_true_eq] at hw
    simp only [Table.set]
    split
    · by_cases hx : x = d
      · have hk : n ≠ k := by omega
        simp [Table.get, hx, hk, get_of_lt (lo := k + 1) (n := n) (by omega) hw.2]
      · simp [Table.get, hx]
    · split
      · subst_vars
        by_cases hx : x = d
        · simp [hx, get_of_lt (lo := k + 1) (n := k) (by omega) hw.2]
        · simp [Table.get, hx]
      · next h1 h2 => simp [Table.get, h2, ih hw.2]

/-- Read after write, of a canonical table. -/
theorem get_set_same {t : Table α} (n : Nat) (x : α) (hw : Table.wf d t = true) : Table.get d (Table.set d t n x) n = x :=
  get_setFrom_same x hw

theorem wfFrom_filter {t : Table α} {lo : Nat} (p : Nat × α → Bool) (hw : Table.wfFrom d lo t = true) :
    Table.wfFrom d lo (t.filter p) = true := by
  induction t generalizing lo with
  | nil => rfl
  | cons c r ih =>
    obtain ⟨k, v⟩ := c
    simp only [Table.wfFrom, Bool.and_eq_true, decide_eq_true_eq] at hw
    by_cases hp : p (k, v) = true
    · simp [List.filter_cons, hp, Table.wfFrom, hw.1.1, hw.1.2, ih hw.2]
    · simp only [List.filter_cons, hp]
      exact wfFrom_mono (lo := k + 1) (by omega) (ih hw.2)

/-- Dropping entries keeps the canonical form. -/
theorem wf_filter {t : Table α} (p : Nat × α → Bool) (hw : Table.wf d t = true) : Table.wf d (t.filter p) = true :=
  wfFrom_filter p hw

theorem wf_putArea {t : Table α} (lo n : Nat) (cs : List (Nat × α)) (hw : Table.wf d t = true) :
    Table.wf d (putArea d t lo n cs) = true := by
  unfold putArea
  have : ∀ (u : Table α), Table.wf d u = true → Table.wf d (cs.foldl (fun t c => Table.set d t (lo + c.1) c.2) u) = true := by
    induction cs with
    | nil => exact fun u h => h
    | cons c r ih => exact fun u h => ih _ (wf_set _ _ h)
  exact this _ (wf_filter _ hw)

end Tables

/-! ### Memory -/

theorem read_write_same {m : List Host.Cell} (a : Nat) (b : Byte) (h : Memory.wf m = true) :
    Memory.read (Memory.write m a b) a = b := get_set_same a b h

theorem read_write_other (m : List Host.Cell) (a c : Nat) (b : Byte) (h : c ≠ a) :
    Memory.read (Memory.write m a b) c = Memory.read m c := get_set_other m a c b h

theorem wf_write {m : List Host.Cell} (a : Nat) (b : Byte) (h : Memory.wf m = true) : Memory.wf (Memory.write m a b) = true :=
  wf_set a b h

theorem wf_writeAll {m : List Host.Cell} (a : Nat) (bs : List Byte) (h : Memory.wf m = true) :
    Memory.wf (Memory.writeAll m a bs) = true := by
  induction bs generalizing m a with
  | nil => exact h
  | cons b bs ih => exact ih _ (wf_write _ _ h)

theorem wf_clear {m : List Host.Cell} (a n : Nat) (h : Memory.wf m = true) : Memory.wf (Memory.clear m a n) = true :=
  wf_filter _ h

theorem wf_restoreArea {m : List Host.Cell} (a n : Nat) (cs : List (Nat × Byte)) (h : Memory.wf m = true) :
    Memory.wf (restoreArea m a n cs) = true := by
  unfold restoreArea
  have : ∀ (u : List Host.Cell), Memory.wf u = true → Memory.wf (cs.foldl (fun m c => Memory.write m c.1 c.2) u) = true := by
    induction cs with
    | nil => exact fun u h => h
    | cons c r ih => exact fun u h => ih _ (wf_write _ _ h)
  exact this _ (wf_clear _ _ h)

/-- Bytes written lie where they were written. -/
theorem read_writeAll_other (m : List Host.Cell) (a c : Nat) (bs : List Byte) (h : c < a ∨ a + bs.length ≤ c) :
    Memory.read (Memory.writeAll m a bs) c = Memory.read m c := by
  induction bs generalizing m a with
  | nil => rfl
  | cons b bs ih =>
    simp only [List.length_cons] at h
    rw [Memory.writeAll, ih _ _ (by omega), read_write_other _ _ _ _ (by omega)]

theorem read_writeAll_same (m : List Host.Cell) (a i : Nat) (bs : List Byte) (h : i < bs.length) (hw : Memory.wf m = true) :
    Memory.read (Memory.writeAll m a bs) (a + i) = bs.getD i 0 := by
  induction bs generalizing m a i with
  | nil => simp at h
  | cons b bs ih =>
    rw [Memory.writeAll]
    cases i with
    | zero => rw [read_writeAll_other _ _ _ _ (by omega)]; exact read_write_same _ _ hw
    | succ i =>
      have := ih (Memory.write m a b) (a + 1) i (by simpa using h) (wf_write _ _ hw)
      rw [show a + (i + 1) = a + 1 + i by omega, this]; rfl

end Sys2Proof.Laws
end

