-- ==== Sys2Proof/Laws/Keep.lean ====
section
/-! SUPPORT. What the named operations do to memory: most leave it as it is (`…_mem`), the others keep its canonical form
(`…_wf`). One lemma per operation that answers a state, in the order of their definitions; then issuing, which keeps the form
when the operation issued does. -/

namespace Sys2Proof.Laws

open Sys2Proof.Machine

theorem foldl_mem {β : Type} (f : State → β → State) (l : List β) (s : State) (h : ∀ s b, (f s b).mem = s.mem) :
    (l.foldl f s).mem = s.mem := by
  induction l generalizing s with
  | nil => rfl
  | cons b l ih => rw [List.foldl_cons, ih, h]

theorem foldl_wf {β : Type} (f : State → β → State) (l : List β) (s : State)
    (h : ∀ s b, Memory.wf s.mem = true → Memory.wf (f s b).mem = true) (hs : Memory.wf s.mem = true) :
    Memory.wf (l.foldl f s).mem = true := by
  induction l generalizing s with
  | nil => exact hs
  | cons b l ih => exact ih _ (h _ _ hs)

theorem onWg_mem (s : State) (uid : Nat) (f : Wg → Wg) :
    (State.onWg s uid f).mem = s.mem :=
  rfl

theorem onThread_mem (s : State) (uid : Nat) (tid : Nat) (f : Thread → Thread) :
    (State.onThread s uid tid f).mem = s.mem :=
  rfl

theorem onLaunch_mem (s : State) (l : Nat) (f : Launch → Launch) :
    (State.onLaunch s l f).mem = s.mem :=
  rfl

theorem onGang_mem (s : State) (g : Nat) (f : Gang → Gang) :
    (State.onGang s g f).mem = s.mem :=
  rfl

theorem onTenant_mem (s : State) (t : Tag) (f : Tenant → Tenant) :
    (State.onTenant s t f).mem = s.mem :=
  rfl

theorem onFlight_mem (s : State) (i : Nat) (f : Flight → Flight) :
    (State.onFlight s i f).mem = s.mem :=
  rfl

theorem onCopy_mem (s : State) (i : Nat) (f : CopyOp → CopyOp) :
    (State.onCopy s i f).mem = s.mem :=
  rfl

theorem onMatop_mem (s : State) (i : Nat) (f : MatOp → MatOp) :
    (State.onMatop s i f).mem = s.mem :=
  rfl

theorem onColl_mem (s : State) (i : Nat) (f : Contribution → Contribution) :
    (State.onColl s i f).mem = s.mem :=
  rfl

theorem onQueue_mem (s : State) (q : Nat) (f : Queue → Queue) :
    (State.onQueue s q f).mem = s.mem :=
  rfl

theorem cfgSet_mem (s : State) (a : Nat) (x : Word) :
    (State.cfgSet s a x).mem = s.mem :=
  rfl

theorem fotSet_mem (s : State) (f : Nat) (x : Word) :
    (State.fotSet s f x).mem = s.mem :=
  rfl

theorem extSet_mem (s : State) (i : Nat) (k : Nat) (x : Word) :
    (State.extSet s i k x).mem = s.mem :=
  rfl

theorem tagSet_mem (s : State) (kind : Nat) (id : Nat) (t : Tag) :
    (State.tagSet s kind id t).mem = s.mem :=
  rfl

theorem count_mem (s : State) (t : Tag) (event : Nat) (amount : Nat) :
    (State.count s t event amount).mem = s.mem :=
  rfl

theorem issuedOne_mem (s : State) (w : Wg) :
    (State.issuedOne s w).mem = s.mem :=
  rfl

theorem countNum_mem (s : State) (l : Nat) (tid : Nat) (e : Option NumEvent) :
    (State.countNum s l tid e).mem = s.mem := by
  unfold State.countNum
  (repeat' split) <;> simp_all [onLaunch_mem]

theorem advanceFree_mem (s : State) :
    (State.advanceFree s).mem = s.mem :=
  rfl

theorem perform_wf (s : State) (a : Nat) (data : List Byte) (p : Poison) (storer : Nat) (hwf : Memory.wf s.mem = true) :
    Memory.wf (State.perform s a data p storer).mem = true :=
  wf_writeAll _ _ hwf

theorem writeOut_wf (s : State) (a : Nat) (data : List Byte) (hwf : Memory.wf s.mem = true) :
    Memory.wf (State.writeOut s a data).mem = true := by
  unfold State.writeOut
  (repeat' split) <;> simp_all [perform_wf]

theorem forgetRange_mem (s : State) (a : Nat) (n : Nat) :
    (State.forgetRange s a n).mem = s.mem :=
  rfl

theorem clearMem_wf (s : State) (a : Nat) (n : Nat) (hwf : Memory.wf s.mem = true) :
    Memory.wf (State.clearMem s a n).mem = true :=
  wf_clear _ _ hwf

theorem writeNat_wf (s : State) (a : Nat) (n : Nat) (x : Nat) (hwf : Memory.wf s.mem = true) :
    Memory.wf (State.writeNat s a n x).mem = true := by
  unfold State.writeNat
  simp_all [writeOut_wf]

theorem dropUnowned_mem (s : State) (core : Nat) :
    (State.dropUnowned s core).mem = s.mem :=
  rfl

theorem tlbSetAt_mem (s : State) (quad : Nat) (index : Nat) (e : Option TEntry) :
    (State.tlbSetAt s quad index e).mem = s.mem :=
  rfl

theorem arrive_mem (s : State) (uid : Nat) (tid : Nat) (key : Nat) (on : WaitOn) (sched : Option (Bool × BitVec 16)) :
    (State.arrive s uid tid key on sched).mem = s.mem := by
  simp only [State.arrive]
  grind [foldl_mem, count_mem, onThread_mem]

theorem unspillOne_mem (s : State) (core : Nat) :
    (State.unspillOne s core).mem = s.mem := by
  unfold State.unspillOne
  (repeat' split) <;> simp_all [onWg_mem]

theorem unspill_mem (s : State) (core : Nat) (k0 : Nat) :
    (State.unspill s core k0).mem = s.mem := by
  induction k0 generalizing s core with
  | zero => simp_all [State.unspill]
  | succ n ih => simp only [State.unspill] at *; (repeat' split) <;> simp_all [unspillOne_mem]

theorem leaveEntries_mem (s : State) (w : Wg) (tids : List Nat) :
    (State.leaveEntries s w tids).mem = s.mem := by
  unfold State.leaveEntries
  simp_all [onWg_mem, unspill_mem]

theorem postFault_mem (s : State) (r : FaultRec) :
    (State.postFault s r).mem = s.mem :=
  rfl

theorem postDebug_mem (s : State) (r : FaultRec) :
    (State.postDebug s r).mem = s.mem := by
  unfold State.postDebug
  (repeat' split) <;> simp_all [postFault_mem]

theorem postRecords_mem (s : State) (w : Wg) (cls : FaultClass) (cause : Nat) (fpc : Word) (finfo : Word) (addr : DWord) (tids
    : List Nat) :
    (State.postRecords s w cls cause fpc finfo addr tids).mem = s.mem := by
  grind [State.postRecords, foldl_mem, postDebug_mem, postFault_mem]

theorem bumpStamp_wf (s : State) (a : Nat) (status : Nat) (info : Nat) (hwf : Memory.wf s.mem = true) :
    Memory.wf (State.bumpStamp s a status info).mem = true := by
  unfold State.bumpStamp
  simp_all [writeNat_wf]

theorem stampStatus_wf (s : State) (a : Nat) (status : Nat) (info : Nat) (hwf : Memory.wf s.mem = true) :
    Memory.wf (State.stampStatus s a status info).mem = true := by
  unfold State.stampStatus
  simp_all [writeNat_wf]

theorem bumpNotice_wf (s : State) (t : Tenant) (o : Nat) (hwf : Memory.wf s.mem = true) :
    Memory.wf (State.bumpNotice s t o).mem = true := by
  unfold State.bumpNotice
  simp_all [bumpStamp_wf]

theorem addLoss_wf (s : State) (tag : Tag) (r : LossRec) (hwf : Memory.wf s.mem = true) :
    Memory.wf (State.addLoss s tag r).mem = true := by
  unfold State.addLoss
  (repeat' split) <;> simp_all [bumpNotice_wf, onTenant_mem]

theorem payLosses_wf (s : State) (hwf : Memory.wf s.mem = true) :
    Memory.wf (State.payLosses s).mem = true := by
  unfold State.payLosses
  refine foldl_wf _ _ _ (fun s t hs => ?_) hwf
  split
  · exact hs
  · exact foldl_wf _ _ _ (fun s b hs => bumpNotice_wf _ _ _ hs) hs

theorem refusedWrite_wf (s : State) (w : Wg) (tid : Option Nat) (pc : Nat) (k : AccKind) (a : Nat) (va : DWord) (hwf :
    Memory.wf s.mem = true) :
    Memory.wf (State.refusedWrite s w tid pc k a va).mem = true := by
  unfold State.refusedWrite
  (repeat' split) <;> simp_all [addLoss_wf, postFault_mem]

theorem keylessWrite_mem (s : State) (w : Wg) (va : DWord) :
    (State.keylessWrite s w va).mem = s.mem :=
  rfl

theorem storeAt_wf (s : State) (w : Wg) (tid : Option Nat) (pc : Nat) (a : Nat) (va : DWord) (data : List Byte) (p : Poison)
    (hwf : Memory.wf s.mem = true) :
    Memory.wf (State.storeAt s w tid pc a va data p).mem = true := by
  unfold State.storeAt
  (repeat' split) <;> simp_all [keylessWrite_mem, perform_wf, refusedWrite_wf]

theorem noticeWrite_mem (s : State) (a : Nat) (n : Nat) :
    (State.noticeWrite s a n).mem = s.mem :=
  rfl

theorem performHeld_wf (s : State) (w : Wg) (h : HeldSector) (hwf : Memory.wf s.mem = true) :
    Memory.wf (State.performHeld s w h).mem = true := by
  have put : ∀ (b : Nat) (bad : Bool) (s : State), Memory.wf s.mem = true → Memory.wf ((List.range 32).foldl
      (fun (s : State) i => if h.mask.getLsbD i ∧ (h.poison.getD i none).isSome = bad then
        s.perform (b + i) [h.data.getD i 0] (h.poison.getD i none) (w.core + 1) else s) s).mem = true := fun b bad s hs => by
    refine foldl_wf _ _ _ (fun s i hs => ?_) hs
    split
    · exact perform_wf _ _ _ _ _ hs
    · exact hs
  unfold State.performHeld
  dsimp only
  (repeat' split) <;> first | exact hwf | exact put _ _ _ (put _ _ _ hwf) | exact refusedWrite_wf _ _ _ _ _ _ _ hwf

theorem boundary_wf (s : State) (uid : Nat) (mine : Bool) (hwf : Memory.wf s.mem = true) :
    Memory.wf (State.boundary s uid mine).mem = true := by
  grind [State.boundary, foldl_mem, foldl_wf, onWg_mem, performHeld_wf]

theorem completePhase_mem (s : State) (b : Barrier) :
    (State.completePhase s b).mem = s.mem := by
  unfold State.completePhase
  rw [foldl_mem _ _ _ fun s b => dropUnowned_mem _ _]

theorem settleBarriers_wf (s : State) (hwf : Memory.wf s.mem = true) :
    Memory.wf (State.settleBarriers s).mem = true := by
  grind [State.settleBarriers, foldl_mem, foldl_wf, boundary_wf, completePhase_mem]

theorem terminate_wf (s : State) (uid : Nat) (ended : Nat) (cause : Nat) (fpc : Word) (finfo : Word) (hwf : Memory.wf s.mem =
    true) :
    Memory.wf (State.terminate s uid ended cause fpc finfo).mem = true := by
  unfold State.terminate
  (repeat' split) <;> simp_all [leaveEntries_mem, onWg_mem, settleBarriers_wf]

theorem beginRollback_mem (s : State) (uid : Nat) :
    (State.beginRollback s uid).mem = s.mem := by
  unfold State.beginRollback
  (repeat' split) <;> simp_all [leaveEntries_mem, onWg_mem]

theorem systemFault_wf (s : State) (w : Wg) (cause : Nat) (fpc : Word) (finfo : Word) (hwf : Memory.wf s.mem = true) :
    Memory.wf (State.systemFault s w cause fpc finfo).mem = true := by
  grind [State.systemFault, foldl_mem, foldl_wf, beginRollback_mem, onWg_mem, terminate_wf]

theorem deliver_mem (s : State) (uid : Nat) (tid : Nat) (cls : FaultClass) :
    (State.deliver s uid tid cls).mem = s.mem := by
  unfold State.deliver
  (repeat' split) <;> simp_all [arrive_mem, onThread_mem]

theorem postChunks_mem (s : State) (w : Wg) (cls : FaultClass) (cause : Nat) (fpc : Word) (fs : List (Nat × FaultInfo)) :
    (State.postChunks s w cls cause fpc fs).mem = s.mem := by
  grind [State.postChunks, foldl_mem, postRecords_mem]

theorem raise_wf (s : State) (uniform : Bool) (uid : Nat) (pc : Nat) (fs : List (Nat × Word × FaultInfo)) (hwf : Memory.wf
    s.mem = true) :
    Memory.wf (State.raise s uniform uid pc fs).mem = true := by
  grind [State.raise, foldl_mem, foldl_wf, count_mem, deliver_mem, onWg_mem, postChunks_mem, systemFault_wf]

theorem raiseFetch_wf (s : State) (uid : Nat) (pc : Nat) (fs : List (Nat × Word × FaultInfo)) (hwf : Memory.wf s.mem = true) :
    Memory.wf (State.raiseFetch s uid pc fs).mem = true := by
  unfold State.raiseFetch
  simp_all [onWg_mem, raise_wf]

theorem resumeAt_mem (s : State) (uid : Nat) (tid : Nat) (key : Nat) (retry : Bool) (sched : Option (Bool × BitVec 16)) :
    (State.resumeAt s uid tid key retry sched).mem = s.mem := by
  unfold State.resumeAt
  (repeat' split) <;> simp_all [arrive_mem, onThread_mem]

theorem counter_mem (s : State) (uid : Nat) (tid : Option Nat) (k : CntClass) (d : Int) :
    (State.counter s uid tid k d).mem = s.mem := by
  unfold State.counter
  (repeat' split) <;> simp_all [onThread_mem, onWg_mem]

theorem wakeWaits_mem (s : State) (uid : Nat) :
    (State.wakeWaits s uid).mem = s.mem := by
  grind [State.wakeWaits, foldl_mem, dropUnowned_mem, onWg_mem]

theorem complete_mem (s : State) (uid : Nat) (tid : Option Nat) (k : CntClass) :
    (State.complete s uid tid k).mem = s.mem := by
  unfold State.complete
  simp_all [counter_mem, wakeWaits_mem]

theorem fresh_mem (s : State) :
    (State.fresh s).2.mem = s.mem :=
  rfl

theorem park_wf (s : State) (uid : Nat) (p : Parking) (hwf : Memory.wf s.mem = true) :
    Memory.wf (State.park s uid p).mem = true := by
  unfold State.park
  (repeat' split) <;> simp_all [arrive_mem, dropUnowned_mem, onThread_mem, settleBarriers_wf]

theorem endRun_wf (s : State) (r : Run) (hwf : Memory.wf s.mem = true) :
    Memory.wf (State.endRun s r).mem = true := by
  unfold State.endRun
  simp_all [foldl_mem, foldl_wf, arrive_mem, onWg_mem, park_wf]

theorem dropRun_mem (s : State) (r : Run) :
    (State.dropRun s r).mem = s.mem :=
  rfl

theorem advance_wf (s : State) (core : Nat) (port : Nat) (whole : Bool) (hwf : Memory.wf s.mem = true) :
    Memory.wf (State.advance s core port whole).mem = true := by
  unfold State.advance
  (repeat' split) <;> simp_all [dropRun_mem, endRun_wf]

theorem stallRun_mem (s : State) (r : Run) (reason : Nat) :
    (State.stallRun s r reason).mem = s.mem :=
  rfl

theorem putEntry_wf (s : State) (l : Launch) (e : LogEntry) (hwf : Memory.wf s.mem = true) :
    Memory.wf (State.putEntry s l e).mem = true := by
  grind [State.putEntry, foldl_mem, foldl_wf, writeNat_wf]

theorem spoilLog_wf (s : State) (l : Launch) (hwf : Memory.wf s.mem = true) :
    Memory.wf (State.spoilLog s l).mem = true := by
  grind [State.spoilLog, foldl_mem, foldl_wf, writeNat_wf]

theorem logEntry_wf (s : State) (w : Wg) (tid : Nat) (kind : Nat) (pc : Nat) (value : Nat) (hwf : Memory.wf s.mem = true) :
    Memory.wf (State.logEntry s w tid kind pc value).mem = true := by
  unfold State.logEntry
  split
  · exact hwf
  · split
    · exact hwf
    · dsimp only
      (repeat' split)
      · exact hwf
      · exact spoilLog_wf _ _ hwf
      · exact putEntry_wf _ _ _ hwf

theorem flushLog_wf (s : State) (k0 : List LogEntry) (k1 : List LogEntry) (hwf : Memory.wf s.mem = true) :
    Memory.wf (State.flushLog s k0 k1).mem = true := by
  induction k0 generalizing s k1 with
  | nil => simp_all [State.flushLog]
  | cons p ps ih => simp only [State.flushLog] at *; (repeat' split) <;> simp_all [onThread_mem, putEntry_wf]

theorem openBarrier_mem (s : State) (w : Wg) (scope : Nat) (id : Nat) :
    (State.openBarrier s w scope id).mem = s.mem := by
  unfold State.openBarrier
  (repeat' split) <;> simp_all

theorem put_mem (x : Who) (s : State) (n : Nat) (vals : List Reg) :
    (Who.put x s n vals).mem = s.mem :=
  rfl

theorem fillL1_mem (s : State) (core : Nat) (a : Nat) :
    (State.fillL1 s core a).mem = s.mem :=
  rfl

theorem loadLocal_mem (s : State) (core : Nat) (atHome : Bool) (a : Nat) (n : Nat) :
    (State.loadLocal s core atHome a n).1.mem = s.mem := by
  grind [State.loadLocal, foldl_mem, fillL1_mem]

theorem readLoc_mem (s : State) (w : Wg) (atHome : Bool) (loc : Loc) (n : Nat) :
    (State.readLoc s w atHome loc n).1.mem = s.mem := by
  simp only [State.readLoc]
  grind [foldl_mem, count_mem, loadLocal_mem]

theorem storeReg_mem (s : State) (uid : Nat) (word : Nat) (lo : Nat) (bs : List Byte) (p : Poison) (during : Bool) :
    (State.storeReg s uid word lo bs p during).mem = s.mem := by
  unfold State.storeReg
  (repeat' split) <;> simp_all [onThread_mem]

theorem storeFrame_mem (s : State) (uid : Nat) (off : Nat) (bs : List Byte) (p : Poison) (during : Bool) :
    (State.storeFrame s uid off bs p during).mem = s.mem := by
  unfold State.storeFrame
  (repeat' split) <;> simp_all [foldl_mem, storeReg_mem]

theorem holdStore_wf (s : State) (uid : Nat) (pc : Nat) (a : Nat) (va : DWord) (bs : List Byte) (p : Poison) (fs : List (Nat ×
    Word)) (hwf : Memory.wf s.mem = true) :
    Memory.wf (State.holdStore s uid pc a va bs p fs).mem = true := by
  grind [State.holdStore, foldl_mem, foldl_wf, onWg_mem, raise_wf]

theorem launchFlight_mem (s : State) (f : Nat → Flight) :
    (State.launchFlight s f).mem = s.mem := by
  grind [State.launchFlight, foldl_mem, fresh_mem, onThread_mem]

theorem drain_mem (s : State) (uid : Nat) (tid : Option Nat) (load : Bool) (k0 : Nat) :
    (State.drain s uid tid load k0).mem = s.mem := by
  induction k0 generalizing s uid tid load with
  | zero => simp_all [State.drain]
  | succ n ih => simp only [State.drain] at *; grind [foldl_mem, complete_mem]

theorem finishFlight_mem (s : State) (f : Flight) (core : Nat) :
    (State.finishFlight s f core).mem = s.mem := by
  unfold State.finishFlight
  (repeat' split) <;> simp_all [advanceFree_mem, drain_mem, dropUnowned_mem, onFlight_mem, onThread_mem]

theorem refuseStore_wf (s : State) (w : Wg) (f : Flight) (k : AccKind) (a : Nat) (hwf : Memory.wf s.mem = true) :
    Memory.wf (State.refuseStore s w f k a).mem = true := by
  unfold State.refuseStore
  simp_all [refusedWrite_wf]

theorem refuseKeyless_mem (s : State) (w : Wg) (f : Flight) :
    (State.refuseKeyless s w f).mem = s.mem :=
  rfl

theorem performStore_wf (s : State) (w : Wg) (f : Flight) (o : Nat) (hwf : Memory.wf s.mem = true) :
    Memory.wf (State.performStore s w f o).mem = true := by
  unfold State.performStore
  (repeat' split) <;> simp_all [holdStore_wf, perform_wf, storeAt_wf, storeFrame_mem]

theorem partDone_mem (s : State) (f : Flight) (o : Nat) (all : Bool) (core : Nat) :
    (State.partDone s f o all core).mem = s.mem := by
  unfold State.partDone
  (repeat' split) <;> simp_all [advanceFree_mem, finishFlight_mem, onFlight_mem]

theorem atomAt_wf (s : State) (op : Nat) (size : Nat) (data : List Byte) (p : Poison) (storer : Nat) (b : Nat) (hwf : Memory.wf
    s.mem = true) :
    Memory.wf (State.atomAt s op size data p storer b).1.mem = true :=
  wf_writeAll _ _ hwf

theorem performAtom_wf (s : State) (w : Wg) (f : Flight) (op : Nat) (back : Bool) (hwf : Memory.wf s.mem = true) :
    Memory.wf (State.performAtom s w f op back).1.mem = true := by
  grind [State.performAtom, foldl_mem, foldl_wf, atomAt_wf, onWg_mem, refuseKeyless_mem, refuseStore_wf]

theorem performRest_wf (s : State) (w : Wg) (f : Flight) (hwf : Memory.wf s.mem = true) :
    Memory.wf (State.performRest s w f).mem = true := by
  unfold State.performRest
  split
  · exact hwf
  · exact foldl_wf _ _ _ (fun s o hs => performStore_wf _ _ _ _ hs) hwf
  · exact performAtom_wf _ _ _ _ _ hwf
  · exact performAtom_wf _ _ _ _ _ hwf

theorem countLate_mem (s : State) (die : Nat) :
    (State.countLate s die).mem = s.mem :=
  rfl

theorem cancelFlight_wf (s : State) (w : Wg) (f : Flight) (hwf : Memory.wf s.mem = true) :
    Memory.wf (State.cancelFlight s w f).mem = true := by
  unfold State.cancelFlight
  rw [finishFlight_mem]
  split
  · rw [countLate_mem]; exact performRest_wf _ _ _ hwf
  · exact hwf

theorem wakeMonitor_wf (s : State) (w : Wg) (tid : Nat) (key : Nat) (v : DWord) (hwf : Memory.wf s.mem = true) :
    Memory.wf (State.wakeMonitor s w tid key v).mem = true := by
  unfold State.wakeMonitor
  simp_all [dropUnowned_mem, logEntry_wf, onThread_mem]

theorem tbarAdd_wf (s : State) (a : Nat) (arrive : Bool) (bytes : Int) (p : Poison) (storer : Nat) (hwf : Memory.wf s.mem =
    true) :
    Memory.wf (State.tbarAdd s a arrive bytes p storer).mem = true :=
  wf_writeAll _ _ hwf

theorem tbldPut_mem (s : State) (q : Nat) (way : Nat) (e : TEntry) :
    (State.tbldPut s q way e).1.mem = s.mem := by
  grind [State.tbldPut, foldl_mem, tlbSetAt_mem]

theorem releaseAt_mem (s : State) (uid : Nat) (t : Thread) (sched : Option (Bool × BitVec 16)) :
    (State.releaseAt s uid t sched).mem = s.mem := by
  unfold State.releaseAt
  simp_all [onThread_mem, resumeAt_mem]

theorem onCtr_mem (s : State) (tag : Tag) (i : Nat) (f : Ctr → Ctr) :
    (State.onCtr s tag i f).mem = s.mem :=
  rfl

theorem beginStep_mem (s : State) (w : Wg) (t : Thread) (key : Nat) (words : List Word) (x : Who) :
    (State.beginStep s w t key words x).mem = s.mem := by
  unfold State.beginStep
  simp_all [leaveEntries_mem, onThread_mem]

theorem endStep_mem (s : State) (e : Stepping) :
    (State.endStep s e).1.mem = s.mem := by
  unfold State.endStep
  (repeat' split) <;> simp_all [onWg_mem]

theorem passOver_mem (s : State) (core : Nat) (c : Candidate) (others : List Candidate) :
    (State.passOver s core c others).mem = s.mem :=
  rfl

theorem takeCandidate_wf (s : State) (core : Nat) (port : Nat) (c : Candidate) (others : List Candidate) (hwf : Memory.wf s.mem
    = true) :
    Memory.wf (State.takeCandidate s core port c others).mem = true := by
  unfold State.takeCandidate
  (repeat' split) <;> simp_all [count_mem, leaveEntries_mem, onWg_mem, passOver_mem, raiseFetch_wf]

theorem countArrival_wf (s : State) (w : Wg) (tid : Nat) (b : Barrier) (k : BarKind) (hwf : Memory.wf s.mem = true) :
    Memory.wf (State.countArrival s w tid b k).mem = true := by
  unfold State.countArrival
  (repeat' split) <;> simp_all [onThread_mem, settleBarriers_wf]

theorem restoreShadow_wf (s : State) (w : Wg) (x : Shadow) (hwf : Memory.wf s.mem = true) :
    Memory.wf (State.restoreShadow s w x).mem = true := by
  unfold State.restoreShadow
  split
  next lo n hp =>
  refine foldl_wf _ _ _ (fun s t hs => ?_) (wf_restoreArea _ _ _ (wf_restoreArea _ _ _ hwf))
  split
  · simpa [arrive_mem] using hs
  · exact hs

theorem twinsAgree_wf (s : State) (p : Wg) (q : Wg) (hwf : Memory.wf s.mem = true) :
    Memory.wf (State.twinsAgree s p q).mem = true := by
  grind [State.twinsAgree, foldl_mem, foldl_wf, boundary_wf, completePhase_mem, onWg_mem]

theorem twinsDiffer_wf (s : State) (p : Wg) (q : Wg) (hwf : Memory.wf s.mem = true) :
    Memory.wf (State.twinsDiffer s p q).mem = true := by
  unfold State.twinsDiffer
  (repeat' split) <;> simp_all [beginRollback_mem, count_mem, onWg_mem, postRecords_mem, terminate_wf]

theorem writeExit_wf (s : State) (w : Wg) (x : ExitInfo) (hwf : Memory.wf s.mem = true) :
    Memory.wf (State.writeExit s w x).mem = true := by
  unfold State.writeExit
  (repeat' split) <;> simp_all [writeOut_wf]

theorem retireGang_wf (s : State) (gid : Nat) (hwf : Memory.wf s.mem = true) :
    Memory.wf (State.retireGang s gid).mem = true := by
  grind [State.retireGang, foldl_mem, foldl_wf, onGang_mem, settleBarriers_wf]

theorem retireWg_wf (s : State) (w : Wg) (x : ExitInfo) (hwf : Memory.wf s.mem = true) :
    Memory.wf (State.retireWg s w x).mem = true := by
  unfold State.retireWg
  simp_all [onWg_mem, retireGang_wf, writeExit_wf]

theorem wgCycle_mem (s : State) (w : Wg) :
    (State.wgCycle s w).mem = s.mem := by
  unfold State.wgCycle
  (repeat' split) <;> simp_all [count_mem, onWg_mem]

theorem onDie_mem (s : State) (d : Nat) (f : Die → Die) :
    (State.onDie s d f).mem = s.mem := by
  unfold State.onDie
  (repeat' split) <;> simp_all

theorem engineFail_mem (s : State) (engine : Nat) (quad : Nat) (launch : Nat) (tag : Tag) (status : Nat) (reason : Nat) :
    (State.engineFail s engine quad launch tag status reason).mem = s.mem :=
  rfl

theorem commandFail_mem (s : State) (tag : Tag) (q : Nat) (launch : Nat) (status : Nat) :
    (State.commandFail s tag q launch status).mem = s.mem :=
  rfl

theorem lostWrite_wf (s : State) (tag : Tag) (quad : Nat) (launch : Nat) (k : AccKind) (a : Nat) (va : DWord) (hwf : Memory.wf
    s.mem = true) :
    Memory.wf (State.lostWrite s tag quad launch k a va).mem = true := by
  unfold State.lostWrite
  (repeat' split) <;> simp_all [addLoss_wf, postFault_mem]

theorem setQState_wf (s : State) (q : Queue) (st : Nat) (hwf : Memory.wf s.mem = true) :
    Memory.wf (State.setQState s q st).mem = true := by
  unfold State.setQState
  simp_all [onQueue_mem, writeNat_wf]

theorem completeCmd_wf (s : State) (qn : Nat) (idx : Nat) (launch : Nat) (status : Nat) (reason : Nat) (info : Nat) (hwf :
    Memory.wf s.mem = true) :
    Memory.wf (State.completeCmd s qn idx launch status reason info).mem = true := by
  unfold State.completeCmd
  (repeat' split) <;> simp_all [bumpStamp_wf, commandFail_mem, onQueue_mem]

theorem engineRead_mem (s : State) (quad : Nat) (tag : Tag) (a : Nat) (n : Nat) :
    (State.engineRead s quad tag a n).1.mem = s.mem := by
  unfold State.engineRead
  (repeat' split) <;> simp_all [advanceFree_mem]

theorem engineWrite_wf (s : State) (quad : Nat) (launch : Nat) (tag : Tag) (engine : Nat) (a : Nat) (va : Nat) (data : List
    Byte) (mask : List Byte) (p : Poison) (hwf : Memory.wf s.mem = true) :
    Memory.wf (State.engineWrite s quad launch tag engine a va data mask p).mem = true := by
  unfold State.engineWrite
  (repeat' split) <;> simp_all [engineFail_mem, lostWrite_wf, perform_wf]

theorem readPieces_mem (s : State) (c : CopyOp) (k0 : List Piece) (res : State × Nat × Poison) (e : (State.readPieces s c k0) =
    .ok res) :
    res.1.mem = s.mem := by
  induction k0 generalizing s res with
  | nil => simp only [State.readPieces, Except.ok.injEq] at e; subst e; rfl
  | cons p ps ih =>
    simp only [State.readPieces] at e
    split at e
    · simp at e
    · next a ha =>
      split at e
      · simp at e
      · next s2 v' q' h2 =>
        simp only [Except.ok.injEq] at e; subst e
        have h3 := ih _ _ h2
        have h4 := engineRead_mem s c.quad c.tenant a p.size
        simp only [h4] at h3
        exact h3

theorem sendInbound_mem (s : State) (c : CopyOp) (bit : Option Nat) (bank : Nat) (off : Nat) (data : List Byte) (mask : List
    Byte) (p : Poison) :
    (State.sendInbound s c bit bank off data mask p).mem = s.mem :=
  rfl

theorem dropAt_mem (s : State) (bank : Nat) :
    (State.dropAt s bank).mem = s.mem :=
  rfl

theorem writePiece_wf (s : State) (c : CopyOp) (v : Nat) (q : Poison) (p : Piece) (res : State) (e : (State.writePiece s c v q
    p) = .ok res) (hwf : Memory.wf s.mem = true) :
    Memory.wf res.mem = true := by
  grind [State.writePiece, foldl_mem, foldl_wf, engineWrite_wf, sendInbound_mem]

theorem writePieces_wf (s : State) (c : CopyOp) (v : Nat) (q : Poison) (k0 : List Piece) (res : State) (e : (State.writePieces
    s c v q k0) = .ok res) (hwf : Memory.wf s.mem = true) :
    Memory.wf res.mem = true := by
  induction k0 generalizing s c v q res with
  | nil => simp_all [State.writePieces]
  | cons p ps ih => simp only [State.writePieces] at *; grind [foldl_mem, foldl_wf, writePiece_wf]

theorem moveElem_wf (s : State) (c : CopyOp) (i : Nat) (res : State) (e : (State.moveElem s c i) = .ok res) (hwf : Memory.wf
    s.mem = true) :
    Memory.wf res.mem = true := by
  unfold State.moveElem at e
  split at e
  next x el ps hel =>
  split at e
  · simp only [Except.ok.injEq] at e; subst e; exact hwf
  · exact writePieces_wf _ _ _ _ _ _ e hwf
  · split at e
    · simp at e
    · next s1 h1 =>
      simp only [Except.ok.injEq] at e; subst e
      rw [onCopy_mem]; exact writePieces_wf _ _ _ _ _ _ h1 hwf
  · split at e
    · simp at e
    · next s1 v q h1 =>
      have hm := readPieces_mem _ _ _ _ h1
      dsimp only at e
      split at e
      · simp at e
      · next s2 h2 =>
        simp only [Except.ok.injEq] at e; subst e
        rw [onCopy_mem, countNum_mem]
        refine writePieces_wf _ _ _ _ _ _ h2 ?_
        rw [hm]; exact hwf

theorem moveElems_wf (s : State) (c : CopyOp) (i : Nat) (k0 : Nat) (hwf : Memory.wf s.mem = true) :
    Memory.wf (State.moveElems s c i k0).1.mem = true := by
  induction k0 generalizing s i with
  | zero => exact hwf
  | succ n ih =>
    unfold State.moveElems
    split
    · exact hwf
    · next s1 h1 => exact ih _ _ (moveElem_wf _ _ _ _ h1 hwf)

theorem enterTargets_mem (s : State) (c : CopyOp) :
    (State.enterTargets s c).1.mem = s.mem := by
  unfold State.enterTargets
  (repeat' split) <;> simp_all

theorem toLanding_mem (s : State) (c : CopyOp) (next : Nat) (status : Nat) (reason : Nat) (info : Nat) :
    (State.toLanding s c next status reason info).mem = s.mem :=
  rfl

theorem runCopy_wf (s : State) (c : CopyOp) (hwf : Memory.wf s.mem = true) :
    Memory.wf (State.runCopy s c).1.mem = true := by
  unfold State.runCopy
  split
  next s1 nxt hh h1 =>
  have hm : Memory.wf s1.mem = true := by
    have := moveElems_wf s c c.next (c.shape.boxSize - c.next) hwf
    rw [h1] at this; exact this
  (repeat' split) <;> first | exact hm | (simp only [toLanding_mem, dropAt_mem]; exact hm)

theorem tbarLand_wf (s : State) (c : CopyOp) (quad : Nat) (bank : Nat) (off : Nat) (hwf : Memory.wf s.mem = true) :
    Memory.wf (State.tbarLand s c quad bank off).mem = true := by
  unfold State.tbarLand
  (repeat' split) <;> simp_all [tbarAdd_wf, perform_wf]

theorem landTbars_wf (s : State) (c : CopyOp) (hwf : Memory.wf s.mem = true) :
    Memory.wf (State.landTbars s c).mem = true := by
  grind [State.landTbars, foldl_mem, foldl_wf, dropAt_mem, onCopy_mem, tbarLand_wf]

theorem engineStamp_wf (s : State) (quad : Nat) (launch : Nat) (tag : Tag) (engine : Nat) (wg : Option Nat) (a : Nat) (st :
    Nat) (info : Nat) (hwf : Memory.wf s.mem = true) :
    Memory.wf (State.engineStamp s quad launch tag engine wg a st info).mem = true := by
  unfold State.engineStamp
  (repeat' split) <;> simp_all [bumpStamp_wf, engineFail_mem, lostWrite_wf]

theorem drainCopies_mem (s : State) (uid : Nat) (tid : Option Nat) (k0 : Nat) :
    (State.drainCopies s uid tid k0).mem = s.mem := by
  induction k0 generalizing s uid tid with
  | zero => simp_all [State.drainCopies]
  | succ n ih => simp only [State.drainCopies] at *; (repeat' split) <;> simp_all [complete_mem]

theorem drainMatrix_mem (s : State) (uid : Nat) (tid : Option Nat) (k0 : Nat) :
    (State.drainMatrix s uid tid k0).mem = s.mem := by
  induction k0 generalizing s uid tid with
  | zero => simp_all [State.drainMatrix]
  | succ n ih => simp only [State.drainMatrix] at *; (repeat' split) <;> simp_all [complete_mem]

theorem tellTwin_mem (s : State) (c : CopyOp) :
    (State.tellTwin s c).mem = s.mem := by
  unfold State.tellTwin
  (repeat' split) <;> simp_all [onWg_mem]

theorem sealCopy_wf (s : State) (id : Nat) (hwf : Memory.wf s.mem = true) :
    Memory.wf (State.sealCopy s id).mem = true := by
  unfold State.sealCopy
  (repeat' split) <;> simp_all [complete_mem, completeCmd_wf, count_mem, drainCopies_mem, drainMatrix_mem,
      engineFail_mem, engineStamp_wf, onCopy_mem]

theorem landCopy_wf (s : State) (c : CopyOp) (hwf : Memory.wf s.mem = true) :
    Memory.wf (State.landCopy s c).mem = true := by
  grind [State.landCopy, foldl_mem, foldl_wf, landTbars_wf, onCopy_mem, sealCopy_wf]

theorem readAt_mem (x : Who) (s : State) (va : DWord) (n : Nat) (res : State × List PByte) (e : (Who.readAt x s va n) = .ok res) :
    res.1.mem = s.mem := by
  grind [Who.readAt, foldl_mem, readLoc_mem]

theorem readRecords_mem (x : Who) (ab : BitVec 4) (res : State × List PByte × List PByte) (e : (Who.readRecords x ab) = .ok res) :
    res.1.mem = x.s.mem := by
  simp only [Who.readRecords] at e
  split at e
  · simp at e
  · split at e
    · simp at e
    · split at e
      · simp at e
      · split at e
        · simp at e
        · next s1 b1 h1 =>
          split at e
          · simp at e
          · next s2 b2 h2 =>
            have hm := readAt_mem _ _ _ _ _ h1
            simp only [Except.ok.injEq] at e
            subst e
            split at h2
            · simp at h2
            · rw [readAt_mem _ _ _ _ _ h2, hm]

theorem copyPlan_mem (x : Who) (form : CopyForm) (ab : BitVec 4) (sc : BitVec 8) (fs : BitVec 4) (col : BitVec 3) (dual : Bool)
    (t : Option Thread) (res : State × CopyOp) (e : (Who.copyPlan x form ab sc fs col dual t) = .ok res) :
    res.1.mem = x.s.mem := by
  simp only [Who.copyPlan] at e
  split at e
  · simp at e
  · next s1 b1 b2 h1 =>
    have hm := readRecords_mem _ _ _ h1
    (repeat' split at e) <;> first | (simp at e; done) | (simp only [Except.ok.injEq] at e; subst e; exact hm)

theorem afterRecords_mem (x : Who) (ab : BitVec 4) (s : State) :
    (Who.afterRecords x ab s).mem = s.mem := by
  have h : ∀ (s : State) va, (match x.readAt s va 128 with | .ok (s1, _) => s1 | .error _ => s).mem = s.mem := fun s va => by
    split
    · next s1 b h1 => exact readAt_mem _ _ _ _ _ h1
    · rfl
  unfold Who.afterRecords
  exact (h _ _).trans (h _ _)

theorem installCopy_mem (s : State) (c : CopyOp) :
    (State.installCopy s c).mem = s.mem :=
  rfl

theorem enqueueOp_mem (s : State) (o : MatOp) :
    (State.enqueueOp s o).mem = s.mem :=
  rfl

theorem accSet_mem (s : State) (k : Nat) (v : BitVec 36) (p : Poison) :
    (State.accSet s k v p).mem = s.mem :=
  rfl

theorem stepElem_mem (s : State) (o : MatOp) (g : Nat) (i : Nat) (j : Nat) :
    (State.stepElem s o g i j).mem = s.mem := by
  unfold State.stepElem
  (repeat' split) <;> simp_all [accSet_mem, countNum_mem]

theorem stepGroup_mem (s : State) (o : MatOp) (g : Nat) :
    (State.stepGroup s o g).mem = s.mem := by
  unfold State.stepGroup
  simp_all [foldl_mem, stepElem_mem]

theorem runSegment_mem (s : State) (o : MatOp) :
    (State.runSegment s o).mem = s.mem := by
  unfold State.runSegment
  simp_all [foldl_mem, stepGroup_mem]

theorem accrdElem_wf (s0 : State) (s : State) (o : MatOp) (r : Nat) (c : Nat) (hwf : Memory.wf s.mem = true) :
    Memory.wf (State.accrdElem s0 s o r c).mem = true := by
  simp only [State.accrdElem, countNum_mem]
  exact perform_wf _ _ _ _ _ hwf

theorem accwrElem_mem (s : State) (o : MatOp) (r : Nat) (c : Nat) :
    (State.accwrElem s o r c).mem = s.mem :=
  rfl

theorem accsclElem_mem (s : State) (o : MatOp) (r : Nat) (c : Nat) :
    (State.accsclElem s o r c).mem = s.mem := by
  unfold State.accsclElem
  (repeat' split) <;> simp_all [accSet_mem, countNum_mem]

theorem acczElem_mem (s : State) (o : MatOp) (r : Nat) (c : Nat) :
    (State.acczElem s o r c).mem = s.mem :=
  rfl

theorem region_wf (s : State) (o : MatOp) (f : State → Nat → Nat → State) (hf : ∀ s r c, Memory.wf s.mem = true → Memory.wf (f
    s r c).mem = true) (hwf : Memory.wf s.mem = true) :
    Memory.wf (State.region s o f).mem = true := by
  unfold State.region
  exact foldl_wf _ _ _ (fun s r hs => foldl_wf _ _ _ (fun s c hs => hf s r c hs) hs) hwf

theorem copyArea_wf (s : State) (src : Nat) (dst : Nat) (hwf : Memory.wf s.mem = true) :
    Memory.wf (State.copyArea s src dst).mem = true := by
  simp only [State.copyArea]
  generalize s.readMem src 65536 = bs
  exact wf_writeAll _ _ hwf

theorem fillSegment_wf (s : State) (o : MatOp) (seg : Nat) (j : Nat) (hwf : Memory.wf s.mem = true) :
    Memory.wf (State.fillSegment s o seg j).mem = true := by
  unfold State.fillSegment
  split
  · exact wf_clear _ _ hwf
  · exact copyArea_wf _ _ _ hwf

theorem transfer_wf (s : State) (o : MatOp) (hwf : Memory.wf s.mem = true) :
    Memory.wf (State.transfer s o).mem = true := by
  unfold State.transfer
  split
  · exact hwf
  · exact region_wf _ _ _ (fun u r c hs => accrdElem_wf _ _ _ _ _ hs) hwf
  · exact region_wf _ _ _ (fun u r c hs => by rw [accwrElem_mem]; exact hs) hwf
  · exact region_wf _ _ _ (fun u r c hs => by rw [accsclElem_mem]; exact hs) hwf
  · exact region_wf _ _ _ (fun u r c hs => by rw [acczElem_mem]; exact hs) hwf
  · exact foldl_wf _ _ _ (fun s b hs => fillSegment_wf _ _ _ _ hs) hwf

theorem matRecord_wf (s : State) (o : MatOp) (hwf : Memory.wf s.mem = true) :
    Memory.wf (State.matRecord s o).mem = true := by
  unfold State.matRecord
  (repeat' split) <;> simp_all [bumpStamp_wf, engineFail_mem, tbarAdd_wf]

theorem enqueue_mem (x : Who) (o : MatOp) :
    (Who.enqueue x o).mem = x.s.mem :=
  rfl

theorem collPlan_mem (x : Who) (fn : Nat) (ab : BitVec 4) (sc : BitVec 8) (col : BitVec 3) (t : Option Thread) (res : State ×
    Contribution) (e : (Who.collPlan x fn ab sc col t) = .ok res) :
    res.1.mem = x.s.mem := by
  simp only [Who.collPlan] at e
  split at e
  · simp at e
  · split at e
    · simp at e
    · split at e
      · simp at e
      · next s1 b1 h1 =>
        have hm := readAt_mem _ _ _ _ _ h1
        (repeat' split at e) <;> first | (simp at e; done) | (simp only [Except.ok.injEq] at e; subst e; exact hm)

theorem installColl_mem (s : State) (c : Contribution) :
    (State.installColl s c).mem = s.mem :=
  rfl

theorem endPhase_mem (s : State) (ph : List Contribution) (f : Contribution → CollStage) :
    (State.endPhase s ph f).mem = s.mem := by
  grind [State.endPhase, foldl_mem, onColl_mem]

theorem settlePhase_mem (s : State) (c : Contribution) :
    (State.settlePhase s c).mem = s.mem := by
  grind [State.settlePhase, foldl_mem, endPhase_mem]

theorem drainColls_mem (s : State) (uid : Nat) (tid : Option Nat) (k0 : Nat) :
    (State.drainColls s uid tid k0).mem = s.mem := by
  induction k0 generalizing s uid tid with
  | zero => simp_all [State.drainColls]
  | succ n ih => simp only [State.drainColls] at *; (repeat' split) <;> simp_all [complete_mem]

theorem writePhys_wf (s : State) (c : Contribution) (k0 : List (Nat × Nat)) (k1 : List (Byte × Poison)) (hwf : Memory.wf s.mem
    = true) :
    Memory.wf (State.writePhys s c k0 k1).mem = true := by
  induction k0 generalizing s c k1 with
  | nil => simp_all [State.writePhys]
  | cons p ps ih => simp only [State.writePhys] at *; grind [foldl_mem, foldl_wf, engineWrite_wf]

theorem sealColl_wf (s : State) (c : Contribution) (reason : Nat) (hwf : Memory.wf s.mem = true) :
    Memory.wf (State.sealColl s c reason).mem = true := by
  unfold State.sealColl
  (repeat' split) <;> simp_all [drainColls_mem, engineFail_mem, engineStamp_wf, onColl_mem]

theorem failPhases_mem (s : State) (lost : Contribution → Bool) :
    (State.failPhases s lost).mem = s.mem := by
  unfold State.failPhases
  simp_all [endPhase_mem]

theorem clearQuad_wf (s : State) (quad : Nat) (hwf : Memory.wf s.mem = true) :
    Memory.wf (State.clearQuad s quad).mem = true := by
  unfold State.clearQuad
  simp_all [clearMem_wf]

theorem relatch_wf (s : State) (quad : Nat) (world : Nat) (hwf : Memory.wf s.mem = true) :
    Memory.wf (State.relatch s quad world).mem = true := by
  unfold State.relatch
  (repeat' split) <;> simp_all [cfgSet_mem, clearQuad_wf]

theorem startThreads_mem (s : State) (uid : Nat) (keys : List Nat) :
    (State.startThreads s uid keys).mem = s.mem := by
  unfold State.startThreads
  simp_all [foldl_mem, arrive_mem]

theorem renewShadow_mem (s : State) (uid : Nat) :
    (State.renewShadow s uid).mem = s.mem := by
  unfold State.renewShadow
  (repeat' split) <;> simp_all [onWg_mem]

theorem placeNew_mem (s : State) (l : Launch) (g : Gang) (p : Spot) (twins : List Nat) :
    (State.placeNew s l g p twins).mem = s.mem := by
  grind [State.placeNew, foldl_mem, fresh_mem, onGang_mem, onWg_mem, renewShadow_mem, startThreads_mem]

theorem cutRun_wf (s : State) (r : Run) (hwf : Memory.wf s.mem = true) :
    Memory.wf (State.cutRun s r).mem = true := by
  unfold State.cutRun
  simp_all [foldl_mem, foldl_wf, arrive_mem, dropRun_mem, onWg_mem, park_wf]

theorem cutRuns_wf (s : State) (gid : Nat) (all : Bool) (hwf : Memory.wf s.mem = true) :
    Memory.wf (State.cutRuns s gid all).mem = true := by
  unfold State.cutRuns
  simp_all [foldl_wf, cutRun_wf]

theorem beginPreempt_wf (s : State) (gid : Nat) (hwf : Memory.wf s.mem = true) :
    Memory.wf (State.beginPreempt s gid).mem = true := by
  grind [State.beginPreempt, foldl_mem, foldl_wf, count_mem, cutRuns_wf, onGang_mem]

theorem saveWg_mem (s : State) (w : Wg) :
    (State.saveWg s w).mem = s.mem := by
  unfold State.saveWg
  simp_all [onWg_mem, unspill_mem]

theorem saveGang_mem (s : State) (g : Gang) :
    (State.saveGang s g).mem = s.mem := by
  grind [State.saveGang, foldl_mem, onGang_mem, saveWg_mem]

theorem bumpEpoch_mem (s : State) (world : Nat) (c : Ctx) :
    (State.bumpEpoch s world c).mem = s.mem :=
  rfl

theorem clearUnits_wf (s : State) (g : Gang) (hwf : Memory.wf s.mem = true) :
    Memory.wf (State.clearUnits s g).mem = true := by
  unfold State.clearUnits
  simp_all [clearMem_wf]

theorem commitSave_wf (s : State) (g : Gang) (hwf : Memory.wf s.mem = true) :
    Memory.wf (State.commitSave s g).mem = true := by
  grind [State.commitSave, foldl_mem, foldl_wf, bumpEpoch_mem, clearUnits_wf, saveGang_mem]

theorem restoreWg_mem (s : State) (old : Gang) (new : Gang) (w : Wg) (core : Nat) :
    (State.restoreWg s old new w core).mem = s.mem := by
  unfold State.restoreWg
  (repeat' split) <;> simp_all [dropUnowned_mem, onWg_mem, unspill_mem]

theorem restoreCopy_mem (s : State) (c : CopyOp) (res : State) (e : (State.restoreCopy s c) = some res) :
    res.mem = s.mem := by
  simp only [State.restoreCopy] at e
  split at e
  · simp at e
  · split at e
    · simp only [Option.some.injEq] at e; subst e; rfl
    · obtain ⟨k, -, rfl⟩ := Option.map_eq_some_iff.mp e; rfl

theorem restoreOp_mem (s : State) (o : MatOp) (res : State) (e : (State.restoreOp s o) = some res) :
    res.mem = s.mem := by
  unfold State.restoreOp at e
  split at e
  · simp at e
  · simp only [Option.some.injEq] at e; subst e; rfl

theorem handNext_mem (s : State) (g : Gang) (res : State) (e : (State.handNext s g) = some res) :
    res.mem = s.mem := by
  have copy : ∀ c f, (s.restoreCopy c).map (fun s => s.onGang g.uid f) = some res → res.mem = s.mem := fun c f h => by
    obtain ⟨s1, h1, rfl⟩ := Option.map_eq_some_iff.mp h
    exact (onGang_mem _ _ _).trans (restoreCopy_mem _ _ _ h1)
  have op : ∀ o f, (s.restoreOp o).map (fun s => s.onGang g.uid f) = some res → res.mem = s.mem := fun o f h => by
    obtain ⟨s1, h1, rfl⟩ := Option.map_eq_some_iff.mp h
    exact (onGang_mem _ _ _).trans (restoreOp_mem _ _ _ h1)
  unfold State.handNext at e
  (repeat' split at e) <;> first | exact copy _ _ e | exact op _ _ e | simp at e

theorem handBack_mem (s : State) (gid : Nat) (n : Nat) :
    (State.handBack s gid n).mem = s.mem := by
  induction n generalizing s with
  | zero => rfl
  | succ n ih =>
    unfold State.handBack
    split
    · next s1 h1 =>
      obtain ⟨g, -, hg⟩ := Option.bind_eq_some_iff.mp h1
      rw [ih, handNext_mem _ _ _ hg]
    · rfl

theorem placeSaved_wf (s : State) (l : Launch) (g : Gang) (p : Spot) (hwf : Memory.wf s.mem = true) :
    Memory.wf (State.placeSaved s l g p).mem = true := by
  unfold State.placeSaved
  dsimp only
  rw [handBack_mem, foldl_mem _ _ _ (fun s b => restoreWg_mem _ _ _ _ _)]
  exact wf_putArea _ _ _ (wf_putArea _ _ _ hwf)

theorem placeOne_wf (s : State) (l : Launch) (g : Gang) (p : Spot) (twins : List Nat) (hwf : Memory.wf s.mem = true) :
    Memory.wf (State.placeOne s l g p twins).mem = true := by
  unfold State.placeOne
  dsimp only
  split
  · exact placeSaved_wf _ _ _ _ (relatch_wf _ _ _ hwf)
  · rw [placeNew_mem]; exact relatch_wf _ _ _ hwf

theorem place_wf (s : State) (l : Launch) (g : Gang) (p : Spot) (t : Option (Gang × Spot)) (hwf : Memory.wf s.mem = true) :
    Memory.wf (State.place s l g p t).mem = true := by
  unfold State.place
  dsimp only
  rw [onLaunch_mem]
  split <;> simp_all [placeOne_wf]

theorem withoutGangs_mem (s : State) (retired : Bool) (gs : List Gang) :
    (State.withoutGangs s retired gs).mem = s.mem :=
  rfl

theorem markWaiting_mem (s : State) (die : Nat) :
    (State.markWaiting s die).mem = s.mem := by
  grind [State.markWaiting, foldl_mem, onGang_mem]

theorem switchSlice_wf (s : State) (quad : Nat) (entry : Nat) (hwf : Memory.wf s.mem = true) :
    Memory.wf (State.switchSlice s quad entry).mem = true := by
  unfold State.switchSlice
  simp_all [foldl_wf, beginPreempt_wf]

theorem postWatchdog_mem (s : State) (w : Wg) :
    (State.postWatchdog s w).mem = s.mem := by
  unfold State.postWatchdog
  simp_all [foldl_mem, postRecords_mem]

theorem cancelOps_mem (s : State) (l : Nat) :
    (State.cancelOps s l).mem = s.mem := by
  unfold State.cancelOps
  rw [foldl_mem _ _ _ fun s b => by rw [drainColls_mem, onColl_mem], foldl_mem _ _ _ fun s b => toLanding_mem _ _ _ _ _ _]

theorem stopWg_wf (s : State) (w : Wg) (ended : Nat) (cause : Nat) (hwf : Memory.wf s.mem = true) :
    Memory.wf (State.stopWg s w ended cause).mem = true := by
  unfold State.stopWg
  (repeat' split) <;> simp_all [onWg_mem, postWatchdog_mem, terminate_wf]

theorem exitUnplaced_wf (s : State) (l : Launch) (num : Nat) (ended : Nat) (cause : Nat) (hwf : Memory.wf s.mem = true) :
    Memory.wf (State.exitUnplaced s l num ended cause).mem = true := by
  unfold State.exitUnplaced
  (repeat' split) <;> simp_all [writeOut_wf]

theorem stopSaved_mem (s : State) (lid : Nat) :
    (State.stopSaved s lid).mem = s.mem :=
  rfl

theorem stopLaunch_wf (s : State) (lid : Nat) (ended : Nat) (cause : Nat) (hwf : Memory.wf s.mem = true) :
    Memory.wf (State.stopLaunch s lid ended cause).mem = true := by
  grind [State.stopLaunch, foldl_mem, foldl_wf, cancelOps_mem, exitUnplaced_wf, onLaunch_mem, stopSaved_mem, stopWg_wf]

theorem tell_mem (s : State) (m : HostMsg) :
    (State.tell s m).mem = s.mem :=
  rfl

theorem mapQueue_wf (s : State) (q : Queue) (k : Nat) (hwf : Memory.wf s.mem = true) :
    Memory.wf (State.mapQueue s q k).mem = true := by
  unfold State.mapQueue
  (repeat' split) <;> simp_all [commandFail_mem, onQueue_mem, setQState_wf, tagSet_mem, tell_mem]

theorem unmapQueue_wf (s : State) (q : Queue) (st : Nat) (hwf : Memory.wf s.mem = true) :
    Memory.wf (State.unmapQueue s q st).mem = true := by
  unfold State.unmapQueue
  (repeat' split) <;> simp_all [onQueue_mem, setQState_wf, tagSet_mem]

theorem leaveSlot_wf (s : State) (q : Queue) (st : Nat) (hwf : Memory.wf s.mem = true) :
    Memory.wf (State.leaveSlot s q st).mem = true := by
  unfold State.leaveSlot
  (repeat' split) <;> simp_all [onQueue_mem, unmapQueue_wf]

theorem markBegun_mem (s : State) (q : Nat) (idx : Nat) :
    (State.markBegun s q idx).mem = s.mem :=
  rfl

theorem startLaunch_mem (s : State) (l : Launch) :
    (State.startLaunch s l).mem = s.mem :=
  rfl

theorem tryLaunch_wf (s : State) (q : Queue) (idx : Nat) (l : Launch) (b : List Byte) (hwf : Memory.wf s.mem = true) :
    Memory.wf (State.tryLaunch s q idx l b).mem = true := by
  unfold State.tryLaunch
  (repeat' split) <;> simp_all [completeCmd_wf, markBegun_mem, startLaunch_mem]

theorem queueRecord_mem (s : State) (quad : Nat) (tag : Tag) (va : Nat) (res : State × LRec × Poison) (e : (State.queueRecord s
    quad tag va) = some res) :
    res.1.mem = s.mem := by
  grind [State.queueRecord, foldl_mem, engineRead_mem]

theorem queueCopy_mem (s : State) (q : Queue) (c : Cmd) (res : State × CopyOp) (e : (State.queueCopy s q c) = some res) :
    res.1.mem = s.mem := by
  simp only [State.queueCopy] at e
  split at e
  · simp at e
  · next s1 src p1 h1 =>
    have m1 := queueRecord_mem _ _ _ _ _ h1
    split at e
    · simp at e
    · next s2 dst p2 h2 =>
      have m2 := queueRecord_mem _ _ _ _ _ h2
      split at e
      · simp at e
      · split at e
        · simp at e
        · simp only [Option.some.injEq] at e; subst e
          exact m2.trans m1

theorem signal_wf (s : State) (q : Queue) (c : Cmd) (hwf : Memory.wf s.mem = true) :
    Memory.wf (State.signal s q c).mem = true := by
  unfold State.signal
  (repeat' split) <;> simp_all [completeCmd_wf, writeNat_wf]

theorem forgetLaunch_mem (s : State) (l : Launch) :
    (State.forgetLaunch s l).mem = s.mem :=
  rfl

theorem finishLaunch_wf (s : State) (l : Launch) (hwf : Memory.wf s.mem = true) :
    Memory.wf (State.finishLaunch s l).mem = true := by
  unfold State.finishLaunch
  (repeat' split) <;> simp_all [completeCmd_wf, forgetLaunch_mem, writeOut_wf]

theorem dryQueue_wf (s : State) (q : Queue) (hwf : Memory.wf s.mem = true) :
    Memory.wf (State.dryQueue s q).mem = true := by
  unfold State.dryQueue
  (repeat' split) <;> simp_all [leaveSlot_wf, onQueue_mem, setQState_wf]

theorem storeNow_wf (x : Who) (s : State) (tid : Option Nat) (va : DWord) (loc : Loc) (data : List Byte) (hwf : Memory.wf s.mem
    = true) :
    Memory.wf (Who.storeNow x s tid va loc data).mem = true := by
  unfold Who.storeNow
  simp_all [foldl_wf, performStore_wf]

theorem doAppend_wf (x : Who) (ab : BitVec 4) (loc : Loc) (d : PoolDesc) (i : Nat) (tid : Option Nat) (r : EngineRegs) (rec :
    Option Loc) (s : State) (hwf : Memory.wf s.mem = true) :
    Memory.wf (Who.doAppend x ab loc d i tid r rec s).mem = true := by
  simp only [Who.doAppend]
  grind [foldl_mem, foldl_wf, logEntry_wf, storeNow_wf]

theorem handOver_mem (x : Who) (tid : Option Nat) (v : Reg) (s : State) :
    (Who.handOver x tid v s).mem = s.mem := by
  unfold Who.handOver
  (repeat' split) <;> simp_all [onWg_mem]

theorem dropTwin_mem (x : Who) (tid : Option Nat) (s : State) :
    (Who.dropTwin x tid s).mem = s.mem :=
  rfl

theorem putStatus_mem (s : State) (uid : Nat) (tid : Nat) (n : Nat) (r : Reg) :
    (State.putStatus s uid tid n r).mem = s.mem :=
  rfl

theorem goCmd_mem (x : Who) (ab : BitVec 4) (r : EngineRegs) (res : State × List PByte) (e : (Who.goCmd x ab r) = .ok res) :
    res.1.mem = x.s.mem := by
  grind [Who.goCmd, foldl_mem, readAt_mem]

theorem submit_wf (s : State) (tag : Tag) (q : Nat) (bs : List PByte) (hwf : Memory.wf s.mem = true) :
    Memory.wf (State.submit s tag q bs).1.mem = true := by
  unfold State.submit
  (repeat' split) <;> simp_all [advanceFree_mem, perform_wf, writeNat_wf]

theorem tryAgain_mem (s : State) (r : Request) :
    (State.tryAgain s r).mem = s.mem :=
  rfl

theorem shootFrames_mem (s : State) (base : Nat) (n : Nat) :
    (State.shootFrames s base n).mem = s.mem :=
  rfl

theorem clearWay_mem (s : State) (way : Nat) :
    (State.clearWay s way).mem = s.mem :=
  rfl

theorem clearUnit_wf (s : State) (kind : Nat) (base : Nat) (n : Nat) (hwf : Memory.wf s.mem = true) :
    Memory.wf (State.clearUnit s kind base n).mem = true := by
  unfold State.clearUnit
  (repeat' split) <;> simp_all [clearMem_wf, clearWay_mem, noticeWrite_mem, shootFrames_mem]

theorem dropExtent_mem (s : State) (base : Nat) :
    (State.dropExtent s base).mem = s.mem := by
  unfold State.dropExtent
  (repeat' split) <;> simp_all [extSet_mem]

theorem pruneReserved_mem (s : State) (quad : Nat) :
    (State.pruneReserved s quad).mem = s.mem := by
  unfold State.pruneReserved
  (repeat' split) <;> simp_all

theorem retag_mem (s : State) (kind : Nat) (base : Nat) (t : Tag) :
    (State.retag s kind base t).mem = s.mem := by
  unfold State.retag
  (repeat' split) <;> simp_all [pruneReserved_mem, tagSet_mem]

theorem toHolding_wf (s : State) (part : Nat) (kind : Nat) (base : Nat) (n : Nat) (hwf : Memory.wf s.mem = true) :
    Memory.wf (State.toHolding s part kind base n).mem = true := by
  unfold State.toHolding
  (repeat' split) <;> simp_all [foldl_wf, clearUnit_wf, dropExtent_mem, fotSet_mem, retag_mem]

theorem bindUnit_wf (s : State) (t : Tag) (kind : Nat) (base : Nat) (n : Nat) (world : Nat) (rwx : BitVec 3) (hwf : Memory.wf
    s.mem = true) :
    Memory.wf (State.bindUnit s t kind base n world rwx).mem = true := by
  grind [State.bindUnit, foldl_mem, foldl_wf, clearUnit_wf, extSet_mem, fotSet_mem, retag_mem]

theorem markQuieting_mem (s : State) (kind : Nat) (base : Nat) :
    (State.markQuieting s kind base).mem = s.mem :=
  rfl

theorem setLeaving_mem (s : State) (p : Nat → TEntry → Bool) (b : Bool) :
    (State.setLeaving s p b).mem = s.mem :=
  rfl

theorem unquiet_mem (s : State) (kind : Nat) (base : Nat) (n : Nat) :
    (State.unquiet s kind base n).mem = s.mem := by
  unfold State.unquiet
  (repeat' split) <;> rfl

theorem quietUnit_wf (s : State) (kind : Nat) (base : Nat) (n : Nat) (hwf : Memory.wf s.mem = true) :
    Memory.wf (State.quietUnit s kind base n).mem = true := by
  unfold State.quietUnit
  (repeat' split) <;> simp_all [foldl_wf, beginPreempt_wf, leaveSlot_wf, markQuieting_mem, onQueue_mem, setLeaving_mem]

theorem bindOne_wf (s : State) (b : BindReq) (t : Tag) (hwf : Memory.wf s.mem = true) :
    Memory.wf (State.bindOne s b t).mem = true := by
  unfold State.bindOne
  (repeat' split) <;> simp_all [bindUnit_wf]

theorem bindCalm_wf (s : State) (b : BindReq) (hwf : Memory.wf s.mem = true) :
    Memory.wf (State.bindCalm s b).mem = true := by
  unfold State.bindCalm
  simp_all [quietUnit_wf]

theorem startWave_wf (s : State) (t : Tenant) (hwf : Memory.wf s.mem = true) :
    Memory.wf (State.startWave s t).mem = true := by
  grind [State.startWave, foldl_mem, foldl_wf, onTenant_mem, place_wf, startLaunch_mem]

theorem createTenant_wf (s : State) (r : CreateReq) (num : Nat) (hwf : Memory.wf s.mem = true) :
    Memory.wf (State.createTenant s r num).mem = true := by
  grind [State.createTenant, foldl_mem, foldl_wf, bindOne_wf, startWave_wf, tell_mem, writeNat_wf]

theorem postRecall_wf (s : State) (t : Tenant) (r : RecallReq) (rest : List RecallReq) (hwf : Memory.wf s.mem = true) :
    Memory.wf (State.postRecall s t r rest).mem = true := by
  unfold State.postRecall
  (repeat' split) <;> simp_all [bumpNotice_wf, onTenant_mem, writeOut_wf]

theorem onRecall_mem (s : State) (t : Tag) (seq : Nat) (f : Recall → Recall) :
    (State.onRecall s t seq f).mem = s.mem :=
  rfl

theorem credit_mem (s : State) (t : Tag) (kind : Nat) (base : Nat) (n : Nat) :
    (State.credit s t kind base n).mem = s.mem := by
  grind [State.credit, foldl_mem, onRecall_mem]

theorem dropChosen_mem (s : State) (r : Recall) :
    (State.dropChosen s r).mem = s.mem := by
  unfold State.dropChosen
  (repeat' split) <;> simp_all [unquiet_mem]

theorem closeRecall_mem (s : State) (t : Tag) (r : Recall) :
    (State.closeRecall s t r).mem = s.mem := by
  unfold State.closeRecall
  simp_all [dropChosen_mem, onTenant_mem, tell_mem]

theorem moveMem_wf (s : State) (src : Nat) (dst : Nat) (n : Nat) (hwf : Memory.wf s.mem = true) :
    Memory.wf (State.moveMem s src dst n).mem = true :=
  wf_putArea _ _ _ hwf

theorem saveUnit_wf (s : State) (kind : Nat) (base : Nat) (n : Nat) (dst : Nat) (hwf : Memory.wf s.mem = true) :
    Memory.wf (State.saveUnit s kind base n dst).mem = true := by
  unfold State.saveUnit
  split
  · exact moveMem_wf _ _ _ _ hwf
  · dsimp only; rw [noticeWrite_mem, forgetRange_mem]; exact wf_putArea _ _ _ hwf
  · exact moveMem_wf _ _ _ _ hwf
  · exact moveMem_wf _ _ _ _ hwf
  · exact perform_wf _ _ _ _ _ hwf
  · exact hwf

theorem bumpSeizures_mem (s : State) (kind : Nat) (base : Nat) (n : Nat) :
    (State.bumpSeizures s kind base n).mem = s.mem := by
  unfold State.bumpSeizures
  simp_all [foldl_mem]

theorem seizeUnit_wf (s : State) (t : Tag) (kind : Nat) (id : Nat) (reason : Nat) (late : Bool) (hwf : Memory.wf s.mem = true) :
    Memory.wf (State.seizeUnit s t kind id reason late).mem = true := by
  grind [State.seizeUnit, foldl_mem, foldl_wf, addLoss_wf, bumpSeizures_mem, onTenant_mem, saveUnit_wf, shootFrames_mem,
      toHolding_wf]

theorem seizeFor_wf (s : State) (x : Tenant) (r : Recall) (id : Nat) (hwf : Memory.wf s.mem = true) :
    Memory.wf (State.seizeFor s x r id).mem = true := by
  unfold State.seizeFor
  (repeat' split) <;> simp_all [dropChosen_mem, onRecall_mem, quietUnit_wf, seizeUnit_wf]

theorem stepRecall_wf (s : State) (x : Tenant) (r : Recall) (hwf : Memory.wf s.mem = true) :
    Memory.wf (State.stepRecall s x r).mem = true := by
  unfold State.stepRecall
  (repeat' split) <;> simp_all [closeRecall_mem, onRecall_mem, seizeFor_wf]

theorem rackClose_mem (x : Who) (t : Tenant) (r : Recall) :
    (Who.rackClose x t r).mem = x.s.mem := by
  unfold Who.rackClose
  (repeat' split) <;> simp_all [closeRecall_mem, onRecall_mem]

theorem lossrd_wf (s : State) (tag : Tag) (x : Nat) (op : Nat) (hwf : Memory.wf s.mem = true) :
    Memory.wf (State.lossrd s tag x op).1.mem = true := by
  unfold State.lossrd
  (repeat' split) <;> simp_all [moveMem_wf, onTenant_mem]

theorem beginDestroy_wf (s : State) (t : Tag) (hwf : Memory.wf s.mem = true) :
    Memory.wf (State.beginDestroy s t).mem = true := by
  grind [State.beginDestroy, foldl_mem, foldl_wf, onQueue_mem, stopLaunch_wf, unmapQueue_wf]

theorem finishDestroy_wf (s : State) (t : Tag) (hwf : Memory.wf s.mem = true) :
    Memory.wf (State.finishDestroy s t).mem = true := by
  unfold State.finishDestroy
  simp_all [foldl_wf, toHolding_wf]

theorem writeFault_wf (s : State) (t : Tenant) (r : FaultRec) (rest : List FaultRec) (hwf : Memory.wf s.mem = true) :
    Memory.wf (State.writeFault s t r rest).mem = true := by
  unfold State.writeFault
  simp_all [bumpNotice_wf, onTenant_mem, writeOut_wf]

theorem writeDebug_wf (s : State) (part : Nat) (r : FaultRec) (hwf : Memory.wf s.mem = true) :
    Memory.wf (State.writeDebug s part r).mem = true := by
  grind [State.writeDebug, foldl_mem, foldl_wf, bumpStamp_wf, writeNat_wf, writeOut_wf]

theorem reportCycle_mem (s : State) (c : List WaitNode) :
    (State.reportCycle s c).mem = s.mem := by
  grind [State.reportCycle, foldl_mem, postFault_mem]

theorem setKey_mem (s : State) (world : Nat) (k : KeySlot) :
    (State.setKey s world k).mem = s.mem :=
  rfl

theorem activate_wf (s : State) (world : Nat) (hwf : Memory.wf s.mem = true) :
    Memory.wf (State.activate s world).mem = true := by
  unfold State.activate
  (repeat' split) <;> simp_all [foldl_wf, clearMem_wf, setKey_mem]

theorem beginRevoke_wf (s : State) (world : Nat) (hwf : Memory.wf s.mem = true) :
    Memory.wf (State.beginRevoke s world).mem = true := by
  unfold State.beginRevoke
  simp_all [foldl_wf, beginPreempt_wf, setKey_mem]

theorem finishRevoke_mem (s : State) (world : Nat) :
    (State.finishRevoke s world).mem = s.mem :=
  rfl

theorem prepareFrames_wf (s : State) (c : Ctx) (w : Nat) (hwf : Memory.wf s.mem = true) :
    Memory.wf (State.prepareFrames s c w).mem = true := by
  have h1 : Memory.wf (((s.ctxGangs c w).foldl (fun (s : State) g => s.beginPreempt g.uid) s).setLeaving
      (fun _ t => s.mapsCtx c t) true).mem = true := by
    rw [setLeaving_mem]
    exact foldl_wf _ _ _ (fun s g hs => beginPreempt_wf _ _ hs) hwf
  unfold State.prepareFrames
  dsimp only
  split <;> exact h1

theorem leaveCtx_wf (s : State) (x : SealedCtx) (hwf : Memory.wf s.mem = true) :
    Memory.wf (State.leaveCtx s x).mem = true := by
  unfold State.leaveCtx
  exact foldl_wf _ _ _ (fun s f hs => by rw [noticeWrite_mem]; exact clearMem_wf _ _ _ hs) hwf

theorem openFrames_wf (s : State) (i : SealedImage) (hwf : Memory.wf s.mem = true) :
    Memory.wf (State.openFrames s i).mem = true := by
  unfold State.openFrames
  split
  · exact hwf
  · exact hwf
  · next x _ _ =>
    generalize x.cells = cs
    have : ∀ m : List Host.Cell, Memory.wf m = true → Memory.wf (cs.foldl (fun m c => Memory.write m c.1 c.2) m) = true := by
      induction cs with
      | nil => exact fun _ h => h
      | cons c cs ih => exact fun m h => ih _ (wf_write _ _ h)
    exact this _ hwf

theorem writeLockctl_mem (s : State) (x : Word) :
    (State.writeLockctl s x).1.mem = s.mem := by
  grind [State.writeLockctl, foldl_mem, cfgSet_mem]

theorem writeCal_mem (s : State) (die : Nat) (cls : Nat) (idx : Nat) (x : Word) :
    (State.writeCal s die cls idx x).1.mem = s.mem := by
  unfold State.writeCal
  (repeat' split) <;> simp_all [cfgSet_mem]

theorem countInteg_mem (s : State) (i : Nat) :
    (State.countInteg s i).mem = s.mem :=
  rfl

theorem poisonStore_mem (s : State) (uid : Nat) (idx : Nat) (p : BitVec 12) :
    (State.poisonStore s uid idx p).mem = s.mem := by
  unfold State.poisonStore
  (repeat' split) <;> simp_all [onThread_mem, onWg_mem]

theorem poisonPacket_mem (s : State) (id : Nat) (p : BitVec 12) :
    (State.poisonPacket s id p).mem = s.mem :=
  rfl

theorem poisonTransit_mem (s : State) (num : Nat) (p : BitVec 12) :
    (State.poisonTransit s num p).mem = s.mem :=
  rfl

theorem lostRequest_mem (s : State) (f : Flight) (p : BitVec 12) :
    (State.lostRequest s f p).mem = s.mem := by
  unfold State.lostRequest
  (repeat' split) <;> simp_all [finishFlight_mem, onFlight_mem, onThread_mem]

theorem lostElement_mem (s : State) (c : CopyOp) (p : BitVec 12) :
    (State.lostElement s c p).mem = s.mem := by
  unfold State.lostElement
  (repeat' split) <;> simp_all [advanceFree_mem, onCopy_mem, poisonPacket_mem]

theorem lostPacket_mem (s : State) (id : Nat) (p : BitVec 12) :
    (State.lostPacket s id p).mem = s.mem := by
  unfold State.lostPacket
  (repeat' split) <;> simp_all [lostElement_mem, poisonPacket_mem]

theorem poisonAtHop_mem (s : State) (e : HopError) (p : BitVec 12) :
    (State.poisonAtHop s e p).mem = s.mem := by
  unfold State.poisonAtHop
  (repeat' split) <;> simp_all [lostPacket_mem, lostRequest_mem, poisonPacket_mem, poisonStore_mem, poisonTransit_mem]

theorem unmapPart_wf (s : State) (part : Nat) (hwf : Memory.wf s.mem = true) :
    Memory.wf (State.unmapPart s part).mem = true := by
  unfold State.unmapPart
  (repeat' split) <;> simp_all [foldl_wf, leaveSlot_wf]

theorem cfgWrite_wf (s : State) (b : Nat) (i : Nat) (x : Word) (hwf : Memory.wf s.mem = true) :
    Memory.wf (State.cfgWrite s b i x).1.mem = true := by
  simp only [State.cfgWrite]
  grind [foldl_mem, foldl_wf, cfgSet_mem, unmapPart_wf, writeCal_mem, writeLockctl_mem]

theorem settleIsland_mem (s : State) :
    (State.settleIsland s).mem = s.mem := by
  unfold State.settleIsland
  (repeat' split) <;> simp_all

theorem bringUp_mem (s : State) (slot0 : Bool) (slot1 : Bool) :
    (State.bringUp s slot0 slot1).mem = s.mem := by
  unfold State.bringUp
  (repeat' split) <;> simp_all [advanceFree_mem]

theorem coldStart_wf (s : State) (hwf : Memory.wf s.mem = true) :
    Memory.wf (State.coldStart s).mem = true :=
  rfl

theorem boot_mem (s : State) (slot0 : Bool) (slot1 : Bool) :
    (State.boot s slot0 slot1).mem = s.mem :=
  rfl

theorem reachQuotes_mem (s : State) :
    (State.reachQuotes s).mem = s.mem :=
  rfl

theorem beginDetach_wf (s : State) (die : Nat) (hwf : Memory.wf s.mem = true) :
    Memory.wf (State.beginDetach s die).mem = true := by
  unfold State.beginDetach
  simp_all [failPhases_mem, foldl_wf, onDie_mem, settleIsland_mem, stopLaunch_wf]

theorem detach_wf (s : State) (die : Nat) (hwf : Memory.wf s.mem = true) :
    Memory.wf (State.detach s die).mem = true := by
  unfold State.detach
  (repeat' split) <;> simp_all [beginDetach_wf]

theorem dropRequests_wf (s : State) (die : Nat) (hwf : Memory.wf s.mem = true) :
    Memory.wf (State.dropRequests s die).mem = true := by
  grind [State.dropRequests, foldl_mem, foldl_wf, drainMatrix_mem, finishFlight_mem, onCopy_mem, sealCopy_wf]

theorem clearDie_wf (s : State) (die : Nat) (hwf : Memory.wf s.mem = true) :
    Memory.wf (State.clearDie s die).mem = true := by
  unfold State.clearDie
  simp_all [clearMem_wf]

theorem finishDetach_wf (s : State) (die : Nat) (hwf : Memory.wf s.mem = true) :
    Memory.wf (State.finishDetach s die).mem = true := by
  grind [State.finishDetach, foldl_mem, foldl_wf, addLoss_wf, clearDie_wf, dropRequests_wf, failPhases_mem, onDie_mem,
      settleIsland_mem]

theorem forward_mem (s : State) (p : Packet) :
    (State.forward s p).mem = s.mem := by
  unfold State.forward
  (repeat' split) <;> simp_all [tell_mem]

theorem sendStop_mem (s : State) (link : Nat) (vc : Nat) :
    (State.sendStop s link vc).mem = s.mem := by
  unfold State.sendStop
  (repeat' split) <;> simp_all [tell_mem]

theorem sendGos_mem (s : State) :
    (State.sendGos s).mem = s.mem := by
  unfold State.sendGos
  exact foldl_mem _ _ _ fun s x => tell_mem _ _

theorem foreignWrite_mem (s : State) (r : RemoteReq) :
    (State.foreignWrite s r).mem = s.mem :=
  rfl

theorem serveRemote_wf (s : State) (r : RemoteReq) (hwf : Memory.wf s.mem = true) :
    Memory.wf (State.serveRemote s r).mem = true := by
  grind [State.serveRemote, foldl_mem, foldl_wf, advanceFree_mem, atomAt_wf, foreignWrite_mem, perform_wf, tell_mem]

theorem podFail_wf (s : State) (podid : Word) (code : Nat) (hwf : Memory.wf s.mem = true) :
    Memory.wf (State.podFail s podid code).mem = true := by
  unfold State.podFail
  simp_all [foldl_wf, onLaunch_mem, stopLaunch_wf]

theorem fenceWindow_mem (s : State) (win : Nat) :
    (State.fenceWindow s win).mem = s.mem :=
  rfl

theorem unmapWindow_mem (s : State) (win : Nat) :
    (State.unmapWindow s win).mem = s.mem :=
  rfl

theorem poisonReads_mem (s : State) (wins : List Nat) (p : BitVec 12) :
    (State.poisonReads s wins p).mem = s.mem :=
  rfl

theorem endSession_mem (s : State) (sess : Nat) :
    (State.endSession s sess).mem = s.mem := by
  have h1 : ((s.windowsOf sess).foldl (fun (s : State) w => s.fenceWindow w) s).mem = s.mem :=
    foldl_mem _ _ _ fun s w => fenceWindow_mem s w
  unfold State.endSession
  dsimp only
  split
  · rw [tryAgain_mem]; exact h1
  · exact (foldl_mem (fun (s : State) w => s.unmapWindow w) _ _ fun s w => unmapWindow_mem s w).trans h1

theorem closeSession_mem (s : State) (sess : Nat) (p : BitVec 12) :
    (State.closeSession s sess p).mem = s.mem := by
  unfold State.closeSession
  rw [endSession_mem, poisonReads_mem]

theorem failSession_mem (s : State) (sess : Nat) :
    (State.failSession s sess).mem = s.mem :=
  closeSession_mem _ _ _

theorem placeFor_mem (s : State) (tag : Tag) (wave : Bool) (debug : Bool) (w : Word) :
    (State.placeFor s tag wave debug w).mem = s.mem :=
  rfl

theorem placeWord_mem (s : State) (w : Word) :
    (State.placeWord s w).mem = s.mem :=
  rfl

theorem withFetchWord_mem (s : State) (nbits : Nat) (w : Nat) :
    (State.withFetchWord s nbits w).mem = s.mem :=
  rfl


/-! ### Issuing -/

/-- The effects of an act beyond its thread keep memory canonical. -/
def actKeeps (a : Act) : Prop :=
  match a with
  | .fault _ _ => True
  | .trap _ _ post => ∀ p ∈ post, ∀ s : State, Memory.wf s.mem = true → Memory.wf (p s).mem = true
  | .ok _ _ post => ∀ p ∈ post, ∀ s : State, Memory.wf s.mem = true → Memory.wf (p s).mem = true

/-- A uniform instruction keeps memory canonical. -/
def uactKeeps (a : UAct) : Prop :=
  match a with
  | .fault _ => True
  | .ok s => Memory.wf s.mem = true
  | .park s _ => Memory.wf s.mem = true

theorem posts_wf (post : List (State → State)) (s : State)
    (hp : ∀ p ∈ post, ∀ s : State, Memory.wf s.mem = true → Memory.wf (p s).mem = true) (hwf : Memory.wf s.mem = true) :
    Memory.wf (post.foldl (fun (s : State) p => p s) s).mem = true := by
  induction post generalizing s with
  | nil => exact hwf
  | cons p ps ih => exact ih _ (fun q hq => hp q (List.mem_cons_of_mem _ hq)) (hp p (List.mem_cons_self ..) s hwf)

theorem applyActs_wf (s : State) (x : Who) (acts : List (Nat × Act)) (ha : ∀ a ∈ acts, actKeeps a.2)
    (hwf : Memory.wf s.mem = true) : Memory.wf (s.applyActs x acts).mem = true := by
  have h2 : ∀ s1 : State, Memory.wf s1.mem = true → Memory.wf (acts.foldl (fun (s : State) (a : Nat × Act) => match a.2 with
      | .ok _ _ post => post.foldl (fun (s : State) p => p s) s
      | .trap _ _ post => post.foldl (fun (s : State) p => p s) s
      | .fault _ _ => s) s1).mem = true := by
    induction acts with
    | nil => exact fun s1 h => h
    | cons a as ih =>
      intro s1 h
      have hk := ha a (List.mem_cons_self ..)
      refine ih (fun b hb => ha b (List.mem_cons_of_mem _ hb)) _ ?_
      dsimp only
      cases h3 : a.2 with
      | fault f t => exact h
      | trap f t post => rw [h3] at hk; exact posts_wf post s1 hk h
      | ok t p post => rw [h3] at hk; exact posts_wf post s1 hk h
  simp only [State.applyActs, advanceFree_mem, count_mem, issuedOne_mem]
  refine raise_wf _ _ _ _ _ ?_
  exact h2 _ hwf

theorem formAct_keeps (fm : Form) (x : Who) (ends : Bool) (op : Who → Thread → Act) (t : Thread) (h : actKeeps (op x t)) :
    actKeeps (fm.act x ends op t) := by
  unfold Form.act
  dsimp only
  (repeat' split) <;> first | exact h | exact trivial | (intro p hp; simp at hp)

/-- A thread instruction whose effects keep memory canonical does. -/
theorem issueThread_wf {word : Word} {fm : Form} {ends : Bool} {stall : Who → List Thread → Option Nat}
    {op : Who → Thread → Act} {s t : State} (h : ∀ x u, Memory.wf x.s.mem = true → actKeeps (op x u))
    (e : issueThread word fm ends stall op s = .next t) (hwf : Memory.wf s.mem = true) : Memory.wf t.mem = true := by
  unfold issueThread at e
  split at e
  · simp at e
  · next r w hi =>
    dsimp only at e
    have key : ∀ n, Memory.wf (s.stallRun r n).mem = true := fun n => by rw [stallRun_mem]; exact hwf
    split at e
    · simp only [Host.Outcome.next.injEq] at e; subst e; exact key _
    · split at e
      · simp only [Host.Outcome.next.injEq] at e; subst e; exact key _
      · simp only [Host.Outcome.next.injEq] at e; subst e
        refine advance_wf _ _ _ _ (applyActs_wf _ _ _ ?_ hwf)
        intro a ha
        obtain ⟨u, -, rfl⟩ := List.mem_map.mp ha
        exact formAct_keeps _ _ _ _ _ (h _ _ hwf)

/-- A uniform instruction whose effects keep memory canonical does. -/
theorem issueUniformThen_wf {word : Word} {fm : Form} {wait : Who → Option (Nat × State)} {op : Who → UAct} {s t : State}
    (hw : ∀ x n s', wait x = some (n, s') → Memory.wf x.s.mem = true → Memory.wf s'.mem = true)
    (h : ∀ x, Memory.wf x.s.mem = true → uactKeeps (op x))
    (e : issueUniformThen word fm wait op s = .next t) (hwf : Memory.wf s.mem = true) : Memory.wf t.mem = true := by
  unfold issueUniformThen at e
  split at e
  · simp at e
  · next r w hi =>
    dsimp only at e
    split at e
    · simp only [Host.Outcome.next.injEq] at e; subst e; rw [stallRun_mem]; exact hwf
    · split at e
      · simp only [Host.Outcome.next.injEq] at e; subst e
        exact advance_wf _ _ _ _ (by rw [advanceFree_mem]; exact raise_wf _ _ _ _ _ hwf)
      · split at e
        · next n s' hx =>
          simp only [Host.Outcome.next.injEq] at e; subst e
          rw [stallRun_mem]; exact hw _ _ _ hx hwf
        · have ho := h ⟨s, w, r, word, r.key + r.idx⟩ hwf
          split at e
          · split at e
            · simp only [Host.Outcome.next.injEq] at e; subst e; rw [stallRun_mem]; exact hwf
            · simp only [Host.Outcome.next.injEq] at e; subst e
              exact advance_wf _ _ _ _ (by rw [advanceFree_mem]; exact raise_wf _ _ _ _ _ hwf)
          · next s' hx =>
            rw [hx] at ho
            simp only [Host.Outcome.next.injEq] at e; subst e
            exact advance_wf _ _ _ _ (by rw [advanceFree_mem, issuedOne_mem]; exact ho)
          · next s' key hx =>
            rw [hx] at ho
            simp only [Host.Outcome.next.injEq] at e; subst e
            refine advance_wf _ _ _ _ ?_
            rw [advanceFree_mem]
            simp only [issuedOne_mem]; exact ho

theorem issueUniform_wf {word : Word} {fm : Form} {stall : Who → Option Nat} {op : Who → UAct} {s t : State}
    (h : ∀ x, Memory.wf x.s.mem = true → uactKeeps (op x))
    (e : issueUniform word fm stall op s = .next t) (hwf : Memory.wf s.mem = true) : Memory.wf t.mem = true := by
  refine issueUniformThen_wf (fun x n s' hx hs => ?_) h e hwf
  cases hq : stall x with
  | none => simp [hq] at hx
  | some k => simp [hq] at hx; rw [← hx.2]; exact hs

theorem issueHintWord_wf {word : Word} {c : Bool} {f : Hints → Hints} {s t : State}
    (e : issueHintWord word c f s = .next t) (hwf : Memory.wf s.mem = true) : Memory.wf t.mem = true := by
  unfold issueHintWord at e
  split at e
  · simp at e
  · dsimp only at e
    split at e
    · simp only [Host.Outcome.next.injEq] at e; subst e; rw [stallRun_mem]; exact hwf
    · simp only [Host.Outcome.next.injEq] at e; subst e
      refine advance_wf _ _ _ _ ?_
      rw [advanceFree_mem]
      have h : ∀ (u : State) (v : Wg), Memory.wf u.mem = true → Memory.wf (u.issuedOne v).mem = true := fun u v hu => by
        rw [issuedOne_mem]; exact hu
      split
      · exact h _ _ (raise_wf _ _ _ _ _ hwf)
      · rw [count_mem]; exact h _ _ (raise_wf _ _ _ _ _ hwf)

theorem done_wf {s t : State} (e : done s = .next t) (hwf : Memory.wf s.mem = true) : Memory.wf t.mem = true := by
  simp only [done, Host.Outcome.next.injEq] at e; subst e; exact hwf

/-! ### Operations of thread instructions -/

theorem noPost_keeps (t : Thread) (p : Option Place) : actKeeps (.ok t p []) := fun _ h => absurd h List.not_mem_nil

theorem fault_keeps (f : FaultInfo) (t : Thread) : actKeeps (.fault f t) := trivial

theorem post_keeps (t : Thread) (p : Option Place) (f : State → State)
    (h : ∀ s : State, Memory.wf s.mem = true → Memory.wf (f s).mem = true) : actKeeps (.ok t p [f]) := by
  intro q hq
  rw [List.mem_singleton.mp hq]; exact h

theorem posts2_keeps (t : Thread) (p : Option Place) (f g : State → State)
    (h : ∀ s : State, Memory.wf s.mem = true → Memory.wf (f s).mem = true)
    (h' : ∀ s : State, Memory.wf s.mem = true → Memory.wf (g s).mem = true) : actKeeps (.ok t p [f, g]) := by
  intro q hq
  rcases List.mem_cons.mp hq with rfl | hq
  · exact h
  · rw [List.mem_singleton.mp hq]; exact h'

theorem aluOp_keeps (d : Nat) (ss : List (BitVec 8)) (b : Bool) (f : Who → Thread → Word) (x : Who) (t : Thread) :
    actKeeps (aluOp d ss b f x t) := noPost_keeps _ _

theorem predOp_keeps (d : Nat) (f : Who → Thread → Pred) (x : Who) (t : Thread) : actKeeps (predOp d f x t) := noPost_keeps _ _

theorem fpFinish_keeps (d cnt : Nat) (p : Poison) (o : FpOut) (t : Thread) : actKeeps (fpFinish d cnt p o t) := by
  unfold fpFinish
  dsimp only
  (repeat' split) <;> first | exact noPost_keeps _ _ | exact fault_keeps _ _

theorem acquirePost_wf (x : Who) (s : State) (hwf : Memory.wf s.mem = true) : Memory.wf (acquirePost x s).mem = true := hwf

theorem traceEntry_wf (x : Who) (tid key : Nat) (p : State → State) (hp : p ∈ traceEntry x tid key) (s : State)
    (hwf : Memory.wf s.mem = true) : Memory.wf (p s).mem = true := by
  unfold traceEntry at hp
  split at hp
  · rw [List.mem_singleton.mp hp]; exact logEntry_wf _ _ _ _ _ _ hwf
  · exact absurd hp List.not_mem_nil

theorem goTo_keeps (x : Who) (t : Thread) (k : Int) : actKeeps (goTo x t k) := by
  unfold goTo
  split
  · exact fault_keeps _ _
  · exact fun p hp s hs => traceEntry_wf x t.tid _ p hp s hs

end Sys2Proof.Laws
end

