-- ==== Sys2Proof/Laws/KeepExec.lean ====
section
/-! SUPPORT. Every meaning keeps the canonical form of memory: one lemma per meaning, then the dispatch. -/

namespace Sys2Proof.Laws

open Sys2Proof.Machine

theorem alu1_wf {i : Instr} {d : BitVec 7} {a : BitVec 8} {f : Word → Word} {st : State} {res : State}
    (e : alu1 i d a f st = .next res)
    (hwf : Memory.wf st.mem = true) : Memory.wf res.mem = true :=
  issueThread_wf (fun _ _ _ => noPost_keeps _ _) e hwf

theorem alu2_wf {i : Instr} {d : BitVec 7} {a : BitVec 8} {b : BitVec 8} {f : Word → Word → Word} {st : State}
    {res : State} (e : alu2 i d a b f st = .next res)
    (hwf : Memory.wf st.mem = true) : Memory.wf res.mem = true :=
  issueThread_wf (fun _ _ _ => noPost_keeps _ _) e hwf

theorem alu3_wf {i : Instr} {d : BitVec 7} {a : BitVec 8} {b : BitVec 8} {f : Word → Word → Word → Word} {st : State}
    {res : State} (e : alu3 i d a b f st = .next res)
    (hwf : Memory.wf st.mem = true) : Memory.wf res.mem = true :=
  issueThread_wf (fun _ _ _ => noPost_keeps _ _) e hwf

theorem execIadd_wf {d : BitVec 7} {a : BitVec 8} {b : BitVec 8} {st : State} {res : State}
    (e : execIadd d a b st = .next res)
    (hwf : Memory.wf st.mem = true) : Memory.wf res.mem = true :=
  issueThread_wf (fun _ _ _ => noPost_keeps _ _) e hwf

theorem execIsub_wf {d : BitVec 7} {a : BitVec 8} {b : BitVec 8} {st : State} {res : State}
    (e : execIsub d a b st = .next res)
    (hwf : Memory.wf st.mem = true) : Memory.wf res.mem = true :=
  issueThread_wf (fun _ _ _ => noPost_keeps _ _) e hwf

theorem execIaddsS_wf {d : BitVec 7} {a : BitVec 8} {b : BitVec 8} {st : State} {res : State}
    (e : execIaddsS d a b st = .next res)
    (hwf : Memory.wf st.mem = true) : Memory.wf res.mem = true :=
  issueThread_wf (fun _ _ _ => noPost_keeps _ _) e hwf

theorem execIsubsS_wf {d : BitVec 7} {a : BitVec 8} {b : BitVec 8} {st : State} {res : State}
    (e : execIsubsS d a b st = .next res)
    (hwf : Memory.wf st.mem = true) : Memory.wf res.mem = true :=
  issueThread_wf (fun _ _ _ => noPost_keeps _ _) e hwf

theorem execIminS_wf {d : BitVec 7} {a : BitVec 8} {b : BitVec 8} {st : State} {res : State}
    (e : execIminS d a b st = .next res)
    (hwf : Memory.wf st.mem = true) : Memory.wf res.mem = true :=
  issueThread_wf (fun _ _ _ => noPost_keeps _ _) e hwf

theorem execIminU_wf {d : BitVec 7} {a : BitVec 8} {b : BitVec 8} {st : State} {res : State}
    (e : execIminU d a b st = .next res)
    (hwf : Memory.wf st.mem = true) : Memory.wf res.mem = true :=
  issueThread_wf (fun _ _ _ => noPost_keeps _ _) e hwf

theorem execImaxS_wf {d : BitVec 7} {a : BitVec 8} {b : BitVec 8} {st : State} {res : State}
    (e : execImaxS d a b st = .next res)
    (hwf : Memory.wf st.mem = true) : Memory.wf res.mem = true :=
  issueThread_wf (fun _ _ _ => noPost_keeps _ _) e hwf

theorem execImaxU_wf {d : BitVec 7} {a : BitVec 8} {b : BitVec 8} {st : State} {res : State}
    (e : execImaxU d a b st = .next res)
    (hwf : Memory.wf st.mem = true) : Memory.wf res.mem = true :=
  issueThread_wf (fun _ _ _ => noPost_keeps _ _) e hwf

theorem execImul_wf {d : BitVec 7} {a : BitVec 8} {b : BitVec 8} {st : State} {res : State}
    (e : execImul d a b st = .next res)
    (hwf : Memory.wf st.mem = true) : Memory.wf res.mem = true :=
  issueThread_wf (fun _ _ _ => noPost_keeps _ _) e hwf

theorem execImulhS_wf {d : BitVec 7} {a : BitVec 8} {b : BitVec 8} {st : State} {res : State}
    (e : execImulhS d a b st = .next res)
    (hwf : Memory.wf st.mem = true) : Memory.wf res.mem = true :=
  issueThread_wf (fun _ _ _ => noPost_keeps _ _) e hwf

theorem execImulhU_wf {d : BitVec 7} {a : BitVec 8} {b : BitVec 8} {st : State} {res : State}
    (e : execImulhU d a b st = .next res)
    (hwf : Memory.wf st.mem = true) : Memory.wf res.mem = true :=
  issueThread_wf (fun _ _ _ => noPost_keeps _ _) e hwf

theorem execImac_wf {d : BitVec 7} {a : BitVec 8} {b : BitVec 8} {st : State} {res : State}
    (e : execImac d a b st = .next res)
    (hwf : Memory.wf st.mem = true) : Memory.wf res.mem = true :=
  issueThread_wf (fun _ _ _ => noPost_keeps _ _) e hwf

theorem execIdot4S_wf {d : BitVec 7} {a : BitVec 8} {b : BitVec 8} {st : State} {res : State}
    (e : execIdot4S d a b st = .next res)
    (hwf : Memory.wf st.mem = true) : Memory.wf res.mem = true :=
  issueThread_wf (fun _ _ _ => noPost_keeps _ _) e hwf

theorem execIdot4U_wf {d : BitVec 7} {a : BitVec 8} {b : BitVec 8} {st : State} {res : State}
    (e : execIdot4U d a b st = .next res)
    (hwf : Memory.wf st.mem = true) : Memory.wf res.mem = true :=
  issueThread_wf (fun _ _ _ => noPost_keeps _ _) e hwf

theorem execIabsd_wf {d : BitVec 7} {a : BitVec 8} {b : BitVec 8} {st : State} {res : State}
    (e : execIabsd d a b st = .next res)
    (hwf : Memory.wf st.mem = true) : Memory.wf res.mem = true :=
  issueThread_wf (fun _ _ _ => noPost_keeps _ _) e hwf

theorem execAnd_wf {d : BitVec 7} {a : BitVec 8} {b : BitVec 8} {st : State} {res : State} (e : execAnd d a b st = .next res)
    (hwf : Memory.wf st.mem = true) : Memory.wf res.mem = true :=
  issueThread_wf (fun _ _ _ => noPost_keeps _ _) e hwf

theorem execOr_wf {d : BitVec 7} {a : BitVec 8} {b : BitVec 8} {st : State} {res : State} (e : execOr d a b st = .next res)
    (hwf : Memory.wf st.mem = true) : Memory.wf res.mem = true :=
  issueThread_wf (fun _ _ _ => noPost_keeps _ _) e hwf

theorem execXor_wf {d : BitVec 7} {a : BitVec 8} {b : BitVec 8} {st : State} {res : State} (e : execXor d a b st = .next res)
    (hwf : Memory.wf st.mem = true) : Memory.wf res.mem = true :=
  issueThread_wf (fun _ _ _ => noPost_keeps _ _) e hwf

theorem execAndn_wf {d : BitVec 7} {a : BitVec 8} {b : BitVec 8} {st : State} {res : State}
    (e : execAndn d a b st = .next res)
    (hwf : Memory.wf st.mem = true) : Memory.wf res.mem = true :=
  issueThread_wf (fun _ _ _ => noPost_keeps _ _) e hwf

theorem execOrn_wf {d : BitVec 7} {a : BitVec 8} {b : BitVec 8} {st : State} {res : State} (e : execOrn d a b st = .next res)
    (hwf : Memory.wf st.mem = true) : Memory.wf res.mem = true :=
  issueThread_wf (fun _ _ _ => noPost_keeps _ _) e hwf

theorem execXnor_wf {d : BitVec 7} {a : BitVec 8} {b : BitVec 8} {st : State} {res : State}
    (e : execXnor d a b st = .next res)
    (hwf : Memory.wf st.mem = true) : Memory.wf res.mem = true :=
  issueThread_wf (fun _ _ _ => noPost_keeps _ _) e hwf

theorem execShl_wf {d : BitVec 7} {a : BitVec 8} {b : BitVec 8} {st : State} {res : State} (e : execShl d a b st = .next res)
    (hwf : Memory.wf st.mem = true) : Memory.wf res.mem = true :=
  issueThread_wf (fun _ _ _ => noPost_keeps _ _) e hwf

theorem execShr_wf {d : BitVec 7} {a : BitVec 8} {b : BitVec 8} {st : State} {res : State} (e : execShr d a b st = .next res)
    (hwf : Memory.wf st.mem = true) : Memory.wf res.mem = true :=
  issueThread_wf (fun _ _ _ => noPost_keeps _ _) e hwf

theorem execSar_wf {d : BitVec 7} {a : BitVec 8} {b : BitVec 8} {st : State} {res : State} (e : execSar d a b st = .next res)
    (hwf : Memory.wf st.mem = true) : Memory.wf res.mem = true :=
  issueThread_wf (fun _ _ _ => noPost_keeps _ _) e hwf

theorem execRol_wf {d : BitVec 7} {a : BitVec 8} {b : BitVec 8} {st : State} {res : State} (e : execRol d a b st = .next res)
    (hwf : Memory.wf st.mem = true) : Memory.wf res.mem = true :=
  issueThread_wf (fun _ _ _ => noPost_keeps _ _) e hwf

theorem execRor_wf {d : BitVec 7} {a : BitVec 8} {b : BitVec 8} {st : State} {res : State} (e : execRor d a b st = .next res)
    (hwf : Memory.wf st.mem = true) : Memory.wf res.mem = true :=
  issueThread_wf (fun _ _ _ => noPost_keeps _ _) e hwf

theorem execFshr_wf {d : BitVec 7} {a : BitVec 8} {b : BitVec 8} {st : State} {res : State}
    (e : execFshr d a b st = .next res)
    (hwf : Memory.wf st.mem = true) : Memory.wf res.mem = true :=
  issueThread_wf (fun _ _ _ => noPost_keeps _ _) e hwf

theorem execPopc_wf {d : BitVec 7} {a : BitVec 8} {st : State} {res : State} (e : execPopc d a st = .next res)
    (hwf : Memory.wf st.mem = true) : Memory.wf res.mem = true :=
  issueThread_wf (fun _ _ _ => noPost_keeps _ _) e hwf

theorem execClz_wf {d : BitVec 7} {a : BitVec 8} {st : State} {res : State} (e : execClz d a st = .next res)
    (hwf : Memory.wf st.mem = true) : Memory.wf res.mem = true :=
  issueThread_wf (fun _ _ _ => noPost_keeps _ _) e hwf

theorem execCtz_wf {d : BitVec 7} {a : BitVec 8} {st : State} {res : State} (e : execCtz d a st = .next res)
    (hwf : Memory.wf st.mem = true) : Memory.wf res.mem = true :=
  issueThread_wf (fun _ _ _ => noPost_keeps _ _) e hwf

theorem execBrev_wf {d : BitVec 7} {a : BitVec 8} {st : State} {res : State} (e : execBrev d a st = .next res)
    (hwf : Memory.wf st.mem = true) : Memory.wf res.mem = true :=
  issueThread_wf (fun _ _ _ => noPost_keeps _ _) e hwf

theorem execBfxS_wf {d : BitVec 7} {a : BitVec 8} {b : BitVec 8} {st : State} {res : State}
    (e : execBfxS d a b st = .next res)
    (hwf : Memory.wf st.mem = true) : Memory.wf res.mem = true :=
  issueThread_wf (fun _ _ _ => noPost_keeps _ _) e hwf

theorem execBfxU_wf {d : BitVec 7} {a : BitVec 8} {b : BitVec 8} {st : State} {res : State}
    (e : execBfxU d a b st = .next res)
    (hwf : Memory.wf st.mem = true) : Memory.wf res.mem = true :=
  issueThread_wf (fun _ _ _ => noPost_keeps _ _) e hwf

theorem execBfi_wf {d : BitVec 7} {a : BitVec 8} {b : BitVec 8} {st : State} {res : State} (e : execBfi d a b st = .next res)
    (hwf : Memory.wf st.mem = true) : Memory.wf res.mem = true :=
  issueThread_wf (fun _ _ _ => noPost_keeps _ _) e hwf

theorem execPermb_wf {d : BitVec 7} {a : BitVec 8} {b : BitVec 8} {st : State} {res : State}
    (e : execPermb d a b st = .next res)
    (hwf : Memory.wf st.mem = true) : Memory.wf res.mem = true :=
  issueThread_wf (fun _ _ _ => noPost_keeps _ _) e hwf

theorem execIaddi_wf {d : BitVec 7} {a : BitVec 8} {i : BitVec 11} {st : State} {res : State}
    (e : execIaddi d a i st = .next res)
    (hwf : Memory.wf st.mem = true) : Memory.wf res.mem = true :=
  issueThread_wf (fun _ _ _ => noPost_keeps _ _) e hwf

theorem execAndi_wf {d : BitVec 7} {a : BitVec 8} {i : BitVec 11} {st : State} {res : State}
    (e : execAndi d a i st = .next res)
    (hwf : Memory.wf st.mem = true) : Memory.wf res.mem = true :=
  issueThread_wf (fun _ _ _ => noPost_keeps _ _) e hwf

theorem execOri_wf {d : BitVec 7} {a : BitVec 8} {i : BitVec 11} {st : State} {res : State}
    (e : execOri d a i st = .next res)
    (hwf : Memory.wf st.mem = true) : Memory.wf res.mem = true :=
  issueThread_wf (fun _ _ _ => noPost_keeps _ _) e hwf

theorem execXori_wf {d : BitVec 7} {a : BitVec 8} {i : BitVec 11} {st : State} {res : State}
    (e : execXori d a i st = .next res)
    (hwf : Memory.wf st.mem = true) : Memory.wf res.mem = true :=
  issueThread_wf (fun _ _ _ => noPost_keeps _ _) e hwf

theorem execShli_wf {d : BitVec 7} {a : BitVec 8} {n : BitVec 5} {st : State} {res : State}
    (e : execShli d a n st = .next res)
    (hwf : Memory.wf st.mem = true) : Memory.wf res.mem = true :=
  issueThread_wf (fun _ _ _ => noPost_keeps _ _) e hwf

theorem execShri_wf {d : BitVec 7} {a : BitVec 8} {n : BitVec 5} {st : State} {res : State}
    (e : execShri d a n st = .next res)
    (hwf : Memory.wf st.mem = true) : Memory.wf res.mem = true :=
  issueThread_wf (fun _ _ _ => noPost_keeps _ _) e hwf

theorem execSari_wf {d : BitVec 7} {a : BitVec 8} {n : BitVec 5} {st : State} {res : State}
    (e : execSari d a n st = .next res)
    (hwf : Memory.wf st.mem = true) : Memory.wf res.mem = true :=
  issueThread_wf (fun _ _ _ => noPost_keeps _ _) e hwf

theorem execRoli_wf {d : BitVec 7} {a : BitVec 8} {n : BitVec 5} {st : State} {res : State}
    (e : execRoli d a n st = .next res)
    (hwf : Memory.wf st.mem = true) : Memory.wf res.mem = true :=
  issueThread_wf (fun _ _ _ => noPost_keeps _ _) e hwf

theorem execRori_wf {d : BitVec 7} {a : BitVec 8} {n : BitVec 5} {st : State} {res : State}
    (e : execRori d a n st = .next res)
    (hwf : Memory.wf st.mem = true) : Memory.wf res.mem = true :=
  issueThread_wf (fun _ _ _ => noPost_keeps _ _) e hwf

theorem icmpForm_wf {i : Instr} {p : BitVec 3} {c : BitVec 4} {a : BitVec 8} {b : BitVec 8} {m : Combine} {st : State}
    {res : State} (e : icmpForm i p c a b m st = .next res)
    (hwf : Memory.wf st.mem = true) : Memory.wf res.mem = true :=
  issueThread_wf (fun _ _ _ => noPost_keeps _ _) e hwf

theorem execIcmp_wf {p : BitVec 3} {c : BitVec 4} {a : BitVec 8} {b : BitVec 8} {st : State} {res : State}
    (e : execIcmp p c a b st = .next res)
    (hwf : Memory.wf st.mem = true) : Memory.wf res.mem = true :=
  issueThread_wf (fun _ _ _ => noPost_keeps _ _) e hwf

theorem execIcmpAnd_wf {p : BitVec 3} {c : BitVec 4} {a : BitVec 8} {b : BitVec 8} {st : State} {res : State}
    (e : execIcmpAnd p c a b st = .next res)
    (hwf : Memory.wf st.mem = true) : Memory.wf res.mem = true :=
  issueThread_wf (fun _ _ _ => noPost_keeps _ _) e hwf

theorem execIcmpOr_wf {p : BitVec 3} {c : BitVec 4} {a : BitVec 8} {b : BitVec 8} {st : State} {res : State}
    (e : execIcmpOr p c a b st = .next res)
    (hwf : Memory.wf st.mem = true) : Memory.wf res.mem = true :=
  issueThread_wf (fun _ _ _ => noPost_keeps _ _) e hwf

theorem plogForm_wf {i : Instr} {d : BitVec 3} {f : Thread → Pred} {st : State} {res : State}
    (e : plogForm i d f st = .next res)
    (hwf : Memory.wf st.mem = true) : Memory.wf res.mem = true :=
  issueThread_wf (fun _ _ _ => noPost_keeps _ _) e hwf

theorem execPand_wf {d : BitVec 3} {a : BitVec 3} {b : BitVec 3} {st : State} {res : State}
    (e : execPand d a b st = .next res)
    (hwf : Memory.wf st.mem = true) : Memory.wf res.mem = true :=
  issueThread_wf (fun _ _ _ => noPost_keeps _ _) e hwf

theorem execPor_wf {d : BitVec 3} {a : BitVec 3} {b : BitVec 3} {st : State} {res : State} (e : execPor d a b st = .next res)
    (hwf : Memory.wf st.mem = true) : Memory.wf res.mem = true :=
  issueThread_wf (fun _ _ _ => noPost_keeps _ _) e hwf

theorem execPxor_wf {d : BitVec 3} {a : BitVec 3} {b : BitVec 3} {st : State} {res : State}
    (e : execPxor d a b st = .next res)
    (hwf : Memory.wf st.mem = true) : Memory.wf res.mem = true :=
  issueThread_wf (fun _ _ _ => noPost_keeps _ _) e hwf

theorem execPnot_wf {d : BitVec 3} {a : BitVec 3} {st : State} {res : State} (e : execPnot d a st = .next res)
    (hwf : Memory.wf st.mem = true) : Memory.wf res.mem = true :=
  issueThread_wf (fun _ _ _ => noPost_keeps _ _) e hwf

theorem execPsetnz_wf {d : BitVec 3} {a : BitVec 8} {st : State} {res : State} (e : execPsetnz d a st = .next res)
    (hwf : Memory.wf st.mem = true) : Memory.wf res.mem = true :=
  issueThread_wf (fun _ _ _ => noPost_keeps _ _) e hwf

theorem execSel_wf {d : BitVec 7} {a : BitVec 8} {b : BitVec 8} {p : BitVec 3} {st : State} {res : State}
    (e : execSel d a b p st = .next res)
    (hwf : Memory.wf st.mem = true) : Memory.wf res.mem = true :=
  issueThread_wf (fun _ _ _ => noPost_keeps _ _) e hwf

theorem execPackn_wf {d : BitVec 7} {a : BitVec 8} {b : BitVec 8} {st : State} {res : State}
    (e : execPackn d a b st = .next res)
    (hwf : Memory.wf st.mem = true) : Memory.wf res.mem = true :=
  issueThread_wf (fun _ _ _ => noPost_keeps _ _) e hwf

theorem execUnpknS_wf {d : BitVec 7} {a : BitVec 8} {b : BitVec 8} {st : State} {res : State}
    (e : execUnpknS d a b st = .next res)
    (hwf : Memory.wf st.mem = true) : Memory.wf res.mem = true :=
  issueThread_wf (fun _ _ _ => noPost_keeps _ _) e hwf

theorem execUnpknU_wf {d : BitVec 7} {a : BitVec 8} {b : BitVec 8} {st : State} {res : State}
    (e : execUnpknU d a b st = .next res)
    (hwf : Memory.wf st.mem = true) : Memory.wf res.mem = true := by
  unfold execUnpknU at e
  refine issueThread_wf (fun x u hx => ?_) e hwf
  dsimp only
  first | trivial | (intro p hp; simp at hp; done)

theorem execPackh_wf {d : BitVec 7} {a : BitVec 8} {b : BitVec 8} {st : State} {res : State}
    (e : execPackh d a b st = .next res)
    (hwf : Memory.wf st.mem = true) : Memory.wf res.mem = true := by
  unfold execPackh at e
  refine issueThread_wf (fun x u hx => ?_) e hwf
  dsimp only
  first | trivial | (intro p hp; simp at hp; done)

theorem fp32Form_wf {i : Instr} {d : BitVec 7} {a : BitVec 8} {b : Option (BitVec 8)} {readsD : Bool} {hinted : Bool}
    {pk : Option Fmt} {f : FpEnv → Nat → Nat → Nat → FpOut} {st : State} {res : State}
    (e : fp32Form i d a b readsD hinted pk f st = .next res)
    (hwf : Memory.wf st.mem = true) : Memory.wf res.mem = true := by
  unfold fp32Form at e
  refine issueThread_wf (fun x u hx => ?_) e hwf
  (repeat' split) <;> first | exact noPost_keeps _ _ | exact fault_keeps _ _ | exact aluOp_keeps _ _ _ _ _ _ | exact predOp_keeps _ _ _ _ | exact fpFinish_keeps _ _ _ _ _

theorem fpBin_wf {i : Instr} {d : BitVec 7} {a : BitVec 8} {b : BitVec 8} {hinted : Bool}
    {f : FpEnv → Nat → Nat → FpOut} {st : State} {res : State} (e : fpBin i d a b hinted f st = .next res)
    (hwf : Memory.wf st.mem = true) : Memory.wf res.mem = true := by
  unfold fpBin at e
  refine issueThread_wf (fun x u hx => ?_) e hwf
  (repeat' split) <;> first | exact noPost_keeps _ _ | exact fault_keeps _ _ | exact aluOp_keeps _ _ _ _ _ _ | exact predOp_keeps _ _ _ _ | exact fpFinish_keeps _ _ _ _ _

theorem fpOne_wf {i : Instr} {d : BitVec 7} {a : BitVec 8} {hinted : Bool} {f : FpEnv → Nat → FpOut} {st : State}
    {res : State} (e : fpOne i d a hinted f st = .next res)
    (hwf : Memory.wf st.mem = true) : Memory.wf res.mem = true := by
  unfold fpOne at e
  refine issueThread_wf (fun x u hx => ?_) e hwf
  (repeat' split) <;> first | exact noPost_keeps _ _ | exact fault_keeps _ _ | exact aluOp_keeps _ _ _ _ _ _ | exact predOp_keeps _ _ _ _ | exact fpFinish_keeps _ _ _ _ _

theorem execFadd_wf {d : BitVec 7} {a : BitVec 8} {b : BitVec 8} {st : State} {res : State}
    (e : execFadd d a b st = .next res)
    (hwf : Memory.wf st.mem = true) : Memory.wf res.mem = true := by
  unfold execFadd at e
  refine issueThread_wf (fun x u hx => ?_) e hwf
  (repeat' split) <;> first | exact noPost_keeps _ _ | exact fault_keeps _ _ | exact aluOp_keeps _ _ _ _ _ _ | exact predOp_keeps _ _ _ _ | exact fpFinish_keeps _ _ _ _ _

theorem execFsub_wf {d : BitVec 7} {a : BitVec 8} {b : BitVec 8} {st : State} {res : State}
    (e : execFsub d a b st = .next res)
    (hwf : Memory.wf st.mem = true) : Memory.wf res.mem = true := by
  unfold execFsub at e
  refine issueThread_wf (fun x u hx => ?_) e hwf
  (repeat' split) <;> first | exact noPost_keeps _ _ | exact fault_keeps _ _ | exact aluOp_keeps _ _ _ _ _ _ | exact predOp_keeps _ _ _ _ | exact fpFinish_keeps _ _ _ _ _

theorem execFmul_wf {d : BitVec 7} {a : BitVec 8} {b : BitVec 8} {st : State} {res : State}
    (e : execFmul d a b st = .next res)
    (hwf : Memory.wf st.mem = true) : Memory.wf res.mem = true := by
  unfold execFmul at e
  refine issueThread_wf (fun x u hx => ?_) e hwf
  (repeat' split) <;> first | exact noPost_keeps _ _ | exact fault_keeps _ _ | exact aluOp_keeps _ _ _ _ _ _ | exact predOp_keeps _ _ _ _ | exact fpFinish_keeps _ _ _ _ _

theorem execFmin_wf {d : BitVec 7} {a : BitVec 8} {b : BitVec 8} {st : State} {res : State}
    (e : execFmin d a b st = .next res)
    (hwf : Memory.wf st.mem = true) : Memory.wf res.mem = true := by
  unfold execFmin at e
  refine issueThread_wf (fun x u hx => ?_) e hwf
  (repeat' split) <;> first | exact noPost_keeps _ _ | exact fault_keeps _ _ | exact aluOp_keeps _ _ _ _ _ _ | exact predOp_keeps _ _ _ _ | exact fpFinish_keeps _ _ _ _ _

theorem execFmax_wf {d : BitVec 7} {a : BitVec 8} {b : BitVec 8} {st : State} {res : State}
    (e : execFmax d a b st = .next res)
    (hwf : Memory.wf st.mem = true) : Memory.wf res.mem = true := by
  unfold execFmax at e
  refine issueThread_wf (fun x u hx => ?_) e hwf
  (repeat' split) <;> first | exact noPost_keeps _ _ | exact fault_keeps _ _ | exact aluOp_keeps _ _ _ _ _ _ | exact predOp_keeps _ _ _ _ | exact fpFinish_keeps _ _ _ _ _

theorem execFminm_wf {d : BitVec 7} {a : BitVec 8} {b : BitVec 8} {st : State} {res : State}
    (e : execFminm d a b st = .next res)
    (hwf : Memory.wf st.mem = true) : Memory.wf res.mem = true := by
  unfold execFminm at e
  refine issueThread_wf (fun x u hx => ?_) e hwf
  (repeat' split) <;> first | exact noPost_keeps _ _ | exact fault_keeps _ _ | exact aluOp_keeps _ _ _ _ _ _ | exact predOp_keeps _ _ _ _ | exact fpFinish_keeps _ _ _ _ _

theorem execFmaxm_wf {d : BitVec 7} {a : BitVec 8} {b : BitVec 8} {st : State} {res : State}
    (e : execFmaxm d a b st = .next res)
    (hwf : Memory.wf st.mem = true) : Memory.wf res.mem = true := by
  unfold execFmaxm at e
  refine issueThread_wf (fun x u hx => ?_) e hwf
  (repeat' split) <;> first | exact noPost_keeps _ _ | exact fault_keeps _ _ | exact aluOp_keeps _ _ _ _ _ _ | exact predOp_keeps _ _ _ _ | exact fpFinish_keeps _ _ _ _ _

theorem execFcopys_wf {d : BitVec 7} {a : BitVec 8} {b : BitVec 8} {st : State} {res : State}
    (e : execFcopys d a b st = .next res)
    (hwf : Memory.wf st.mem = true) : Memory.wf res.mem = true := by
  unfold execFcopys at e
  refine issueThread_wf (fun x u hx => ?_) e hwf
  dsimp only
  first | trivial | (intro p hp; simp at hp; done)

theorem fmaForm_wf {i : Instr} {d : BitVec 7} {a : BitVec 8} {b : BitVec 8} {np : Bool} {na : Bool} {st : State}
    {res : State} (e : fmaForm i d a b np na st = .next res)
    (hwf : Memory.wf st.mem = true) : Memory.wf res.mem = true := by
  unfold fmaForm at e
  refine issueThread_wf (fun x u hx => ?_) e hwf
  (repeat' split) <;> first | exact noPost_keeps _ _ | exact fault_keeps _ _ | exact aluOp_keeps _ _ _ _ _ _ | exact predOp_keeps _ _ _ _ | exact fpFinish_keeps _ _ _ _ _

theorem execFmac_wf {d : BitVec 7} {a : BitVec 8} {b : BitVec 8} {st : State} {res : State}
    (e : execFmac d a b st = .next res)
    (hwf : Memory.wf st.mem = true) : Memory.wf res.mem = true := by
  unfold execFmac at e
  refine issueThread_wf (fun x u hx => ?_) e hwf
  (repeat' split) <;> first | exact noPost_keeps _ _ | exact fault_keeps _ _ | exact aluOp_keeps _ _ _ _ _ _ | exact predOp_keeps _ _ _ _ | exact fpFinish_keeps _ _ _ _ _

theorem execFmsc_wf {d : BitVec 7} {a : BitVec 8} {b : BitVec 8} {st : State} {res : State}
    (e : execFmsc d a b st = .next res)
    (hwf : Memory.wf st.mem = true) : Memory.wf res.mem = true := by
  unfold execFmsc at e
  refine issueThread_wf (fun x u hx => ?_) e hwf
  (repeat' split) <;> first | exact noPost_keeps _ _ | exact fault_keeps _ _ | exact aluOp_keeps _ _ _ _ _ _ | exact predOp_keeps _ _ _ _ | exact fpFinish_keeps _ _ _ _ _

theorem execFnmac_wf {d : BitVec 7} {a : BitVec 8} {b : BitVec 8} {st : State} {res : State}
    (e : execFnmac d a b st = .next res)
    (hwf : Memory.wf st.mem = true) : Memory.wf res.mem = true := by
  unfold execFnmac at e
  refine issueThread_wf (fun x u hx => ?_) e hwf
  (repeat' split) <;> first | exact noPost_keeps _ _ | exact fault_keeps _ _ | exact aluOp_keeps _ _ _ _ _ _ | exact predOp_keeps _ _ _ _ | exact fpFinish_keeps _ _ _ _ _

theorem execFnmsc_wf {d : BitVec 7} {a : BitVec 8} {b : BitVec 8} {st : State} {res : State}
    (e : execFnmsc d a b st = .next res)
    (hwf : Memory.wf st.mem = true) : Memory.wf res.mem = true := by
  unfold execFnmsc at e
  refine issueThread_wf (fun x u hx => ?_) e hwf
  (repeat' split) <;> first | exact noPost_keeps _ _ | exact fault_keeps _ _ | exact aluOp_keeps _ _ _ _ _ _ | exact predOp_keeps _ _ _ _ | exact fpFinish_keeps _ _ _ _ _

theorem execFrcp_wf {d : BitVec 7} {a : BitVec 8} {st : State} {res : State} (e : execFrcp d a st = .next res)
    (hwf : Memory.wf st.mem = true) : Memory.wf res.mem = true := by
  unfold execFrcp at e
  refine issueThread_wf (fun x u hx => ?_) e hwf
  (repeat' split) <;> first | exact noPost_keeps _ _ | exact fault_keeps _ _ | exact aluOp_keeps _ _ _ _ _ _ | exact predOp_keeps _ _ _ _ | exact fpFinish_keeps _ _ _ _ _

theorem execFsqrt_wf {d : BitVec 7} {a : BitVec 8} {st : State} {res : State} (e : execFsqrt d a st = .next res)
    (hwf : Memory.wf st.mem = true) : Memory.wf res.mem = true := by
  unfold execFsqrt at e
  refine issueThread_wf (fun x u hx => ?_) e hwf
  (repeat' split) <;> first | exact noPost_keeps _ _ | exact fault_keeps _ _ | exact aluOp_keeps _ _ _ _ _ _ | exact predOp_keeps _ _ _ _ | exact fpFinish_keeps _ _ _ _ _

theorem execFrsq_wf {d : BitVec 7} {a : BitVec 8} {st : State} {res : State} (e : execFrsq d a st = .next res)
    (hwf : Memory.wf st.mem = true) : Memory.wf res.mem = true := by
  unfold execFrsq at e
  refine issueThread_wf (fun x u hx => ?_) e hwf
  (repeat' split) <;> first | exact noPost_keeps _ _ | exact fault_keeps _ _ | exact aluOp_keeps _ _ _ _ _ _ | exact predOp_keeps _ _ _ _ | exact fpFinish_keeps _ _ _ _ _

theorem execFexp2_wf {d : BitVec 7} {a : BitVec 8} {st : State} {res : State} (e : execFexp2 d a st = .next res)
    (hwf : Memory.wf st.mem = true) : Memory.wf res.mem = true := by
  unfold execFexp2 at e
  refine issueThread_wf (fun x u hx => ?_) e hwf
  (repeat' split) <;> first | exact noPost_keeps _ _ | exact fault_keeps _ _ | exact aluOp_keeps _ _ _ _ _ _ | exact predOp_keeps _ _ _ _ | exact fpFinish_keeps _ _ _ _ _

theorem execFlog2_wf {d : BitVec 7} {a : BitVec 8} {st : State} {res : State} (e : execFlog2 d a st = .next res)
    (hwf : Memory.wf st.mem = true) : Memory.wf res.mem = true := by
  unfold execFlog2 at e
  refine issueThread_wf (fun x u hx => ?_) e hwf
  (repeat' split) <;> first | exact noPost_keeps _ _ | exact fault_keeps _ _ | exact aluOp_keeps _ _ _ _ _ _ | exact predOp_keeps _ _ _ _ | exact fpFinish_keeps _ _ _ _ _

theorem execFsinpi_wf {d : BitVec 7} {a : BitVec 8} {st : State} {res : State} (e : execFsinpi d a st = .next res)
    (hwf : Memory.wf st.mem = true) : Memory.wf res.mem = true := by
  unfold execFsinpi at e
  refine issueThread_wf (fun x u hx => ?_) e hwf
  (repeat' split) <;> first | exact noPost_keeps _ _ | exact fault_keeps _ _ | exact aluOp_keeps _ _ _ _ _ _ | exact predOp_keeps _ _ _ _ | exact fpFinish_keeps _ _ _ _ _

theorem execFcospi_wf {d : BitVec 7} {a : BitVec 8} {st : State} {res : State} (e : execFcospi d a st = .next res)
    (hwf : Memory.wf st.mem = true) : Memory.wf res.mem = true := by
  unfold execFcospi at e
  refine issueThread_wf (fun x u hx => ?_) e hwf
  (repeat' split) <;> first | exact noPost_keeps _ _ | exact fault_keeps _ _ | exact aluOp_keeps _ _ _ _ _ _ | exact predOp_keeps _ _ _ _ | exact fpFinish_keeps _ _ _ _ _

theorem execFrint_wf {d : BitVec 7} {a : BitVec 8} {st : State} {res : State} (e : execFrint d a st = .next res)
    (hwf : Memory.wf st.mem = true) : Memory.wf res.mem = true := by
  unfold execFrint at e
  refine issueThread_wf (fun x u hx => ?_) e hwf
  (repeat' split) <;> first | exact noPost_keeps _ _ | exact fault_keeps _ _ | exact aluOp_keeps _ _ _ _ _ _ | exact predOp_keeps _ _ _ _ | exact fpFinish_keeps _ _ _ _ _

theorem execFdiv_wf {d : BitVec 7} {a : BitVec 8} {b : BitVec 8} {st : State} {res : State}
    (e : execFdiv d a b st = .next res)
    (hwf : Memory.wf st.mem = true) : Memory.wf res.mem = true := by
  unfold execFdiv at e
  refine issueThread_wf (fun x u hx => ?_) e hwf
  (repeat' split) <;> first | exact noPost_keeps _ _ | exact fault_keeps _ _ | exact aluOp_keeps _ _ _ _ _ _ | exact predOp_keeps _ _ _ _ | exact fpFinish_keeps _ _ _ _ _

theorem execFclass_wf {d : BitVec 7} {a : BitVec 8} {st : State} {res : State} (e : execFclass d a st = .next res)
    (hwf : Memory.wf st.mem = true) : Memory.wf res.mem = true := by
  unfold execFclass at e
  refine issueThread_wf (fun x u hx => ?_) e hwf
  dsimp only
  first | trivial | (intro p hp; simp at hp; done)

theorem execFneg_wf {d : BitVec 7} {a : BitVec 8} {st : State} {res : State} (e : execFneg d a st = .next res)
    (hwf : Memory.wf st.mem = true) : Memory.wf res.mem = true := by
  unfold execFneg at e
  refine issueThread_wf (fun x u hx => ?_) e hwf
  dsimp only
  first | trivial | (intro p hp; simp at hp; done)

theorem execFabs_wf {d : BitVec 7} {a : BitVec 8} {st : State} {res : State} (e : execFabs d a st = .next res)
    (hwf : Memory.wf st.mem = true) : Memory.wf res.mem = true := by
  unfold execFabs at e
  refine issueThread_wf (fun x u hx => ?_) e hwf
  dsimp only
  first | trivial | (intro p hp; simp at hp; done)

theorem execFscale_wf {d : BitVec 7} {a : BitVec 8} {b : BitVec 8} {st : State} {res : State}
    (e : execFscale d a b st = .next res)
    (hwf : Memory.wf st.mem = true) : Memory.wf res.mem = true := by
  unfold execFscale at e
  refine issueThread_wf (fun x u hx => ?_) e hwf
  (repeat' split) <;> first | exact noPost_keeps _ _ | exact fault_keeps _ _ | exact aluOp_keeps _ _ _ _ _ _ | exact predOp_keeps _ _ _ _ | exact fpFinish_keeps _ _ _ _ _

theorem execFgetexp_wf {d : BitVec 7} {a : BitVec 8} {st : State} {res : State} (e : execFgetexp d a st = .next res)
    (hwf : Memory.wf st.mem = true) : Memory.wf res.mem = true := by
  unfold execFgetexp at e
  refine issueThread_wf (fun x u hx => ?_) e hwf
  (repeat' split) <;> first | exact noPost_keeps _ _ | exact fault_keeps _ _ | exact aluOp_keeps _ _ _ _ _ _ | exact predOp_keeps _ _ _ _ | exact fpFinish_keeps _ _ _ _ _

theorem execFgetman_wf {d : BitVec 7} {a : BitVec 8} {st : State} {res : State} (e : execFgetman d a st = .next res)
    (hwf : Memory.wf st.mem = true) : Memory.wf res.mem = true := by
  unfold execFgetman at e
  refine issueThread_wf (fun x u hx => ?_) e hwf
  (repeat' split) <;> first | exact noPost_keeps _ _ | exact fault_keeps _ _ | exact aluOp_keeps _ _ _ _ _ _ | exact predOp_keeps _ _ _ _ | exact fpFinish_keeps _ _ _ _ _

theorem h2Form_wf {i : Instr} {d : BitVec 7} {a : BitVec 8} {b : BitVec 8} {fmt : Fmt} {readsD : Bool} {hinted : Bool}
    {f : FpEnv → Nat → Nat → Nat → FpOut} {st : State} {res : State} (e : h2Form i d a b fmt readsD hinted f st = .next res)
    (hwf : Memory.wf st.mem = true) : Memory.wf res.mem = true := by
  unfold h2Form at e
  refine issueThread_wf (fun x u hx => ?_) e hwf
  (repeat' split) <;> first | exact noPost_keeps _ _ | exact fault_keeps _ _ | exact aluOp_keeps _ _ _ _ _ _ | exact predOp_keeps _ _ _ _ | exact fpFinish_keeps _ _ _ _ _

theorem execHadd2_wf {d : BitVec 7} {a : BitVec 8} {b : BitVec 8} {t : BitVec 1} {st : State} {res : State}
    (e : execHadd2 d a b t st = .next res)
    (hwf : Memory.wf st.mem = true) : Memory.wf res.mem = true := by
  unfold execHadd2 at e
  refine issueThread_wf (fun x u hx => ?_) e hwf
  (repeat' split) <;> first | exact noPost_keeps _ _ | exact fault_keeps _ _ | exact aluOp_keeps _ _ _ _ _ _ | exact predOp_keeps _ _ _ _ | exact fpFinish_keeps _ _ _ _ _

theorem execHmul2_wf {d : BitVec 7} {a : BitVec 8} {b : BitVec 8} {t : BitVec 1} {st : State} {res : State}
    (e : execHmul2 d a b t st = .next res)
    (hwf : Memory.wf st.mem = true) : Memory.wf res.mem = true := by
  unfold execHmul2 at e
  refine issueThread_wf (fun x u hx => ?_) e hwf
  (repeat' split) <;> first | exact noPost_keeps _ _ | exact fault_keeps _ _ | exact aluOp_keeps _ _ _ _ _ _ | exact predOp_keeps _ _ _ _ | exact fpFinish_keeps _ _ _ _ _

theorem execHmac2_wf {d : BitVec 7} {a : BitVec 8} {b : BitVec 8} {t : BitVec 1} {st : State} {res : State}
    (e : execHmac2 d a b t st = .next res)
    (hwf : Memory.wf st.mem = true) : Memory.wf res.mem = true := by
  unfold execHmac2 at e
  refine issueThread_wf (fun x u hx => ?_) e hwf
  (repeat' split) <;> first | exact noPost_keeps _ _ | exact fault_keeps _ _ | exact aluOp_keeps _ _ _ _ _ _ | exact predOp_keeps _ _ _ _ | exact fpFinish_keeps _ _ _ _ _

theorem execHmax2_wf {d : BitVec 7} {a : BitVec 8} {b : BitVec 8} {t : BitVec 1} {st : State} {res : State}
    (e : execHmax2 d a b t st = .next res)
    (hwf : Memory.wf st.mem = true) : Memory.wf res.mem = true := by
  unfold execHmax2 at e
  refine issueThread_wf (fun x u hx => ?_) e hwf
  (repeat' split) <;> first | exact noPost_keeps _ _ | exact fault_keeps _ _ | exact aluOp_keeps _ _ _ _ _ _ | exact predOp_keeps _ _ _ _ | exact fpFinish_keeps _ _ _ _ _

theorem hmin2Form_wf {i : Instr} {d : BitVec 7} {a : BitVec 8} {b : BitVec 8} {fmt : Fmt} {st : State} {res : State}
    (e : hmin2Form i d a b fmt st = .next res)
    (hwf : Memory.wf st.mem = true) : Memory.wf res.mem = true :=
  h2Form_wf e hwf

theorem hsub2Form_wf {i : Instr} {d : BitVec 7} {a : BitVec 8} {b : BitVec 8} {fmt : Fmt} {st : State} {res : State}
    (e : hsub2Form i d a b fmt st = .next res)
    (hwf : Memory.wf st.mem = true) : Memory.wf res.mem = true :=
  h2Form_wf e hwf

theorem hdot2Form_wf {i : Instr} {d : BitVec 7} {a : BitVec 8} {b : BitVec 8} {fmt : Fmt} {st : State} {res : State}
    (e : hdot2Form i d a b fmt st = .next res)
    (hwf : Memory.wf st.mem = true) : Memory.wf res.mem = true :=
  h2Form_wf e hwf

theorem execHmin2F16_wf {d : BitVec 7} {a : BitVec 8} {b : BitVec 8} {st : State} {res : State}
    (e : execHmin2F16 d a b st = .next res)
    (hwf : Memory.wf st.mem = true) : Memory.wf res.mem = true := by
  unfold execHmin2F16 at e
  refine issueThread_wf (fun x u hx => ?_) e hwf
  (repeat' split) <;> first | exact noPost_keeps _ _ | exact fault_keeps _ _ | exact aluOp_keeps _ _ _ _ _ _ | exact predOp_keeps _ _ _ _ | exact fpFinish_keeps _ _ _ _ _

theorem execHmin2Bf16_wf {d : BitVec 7} {a : BitVec 8} {b : BitVec 8} {st : State} {res : State}
    (e : execHmin2Bf16 d a b st = .next res)
    (hwf : Memory.wf st.mem = true) : Memory.wf res.mem = true := by
  unfold execHmin2Bf16 at e
  refine issueThread_wf (fun x u hx => ?_) e hwf
  (repeat' split) <;> first | exact noPost_keeps _ _ | exact fault_keeps _ _ | exact aluOp_keeps _ _ _ _ _ _ | exact predOp_keeps _ _ _ _ | exact fpFinish_keeps _ _ _ _ _

theorem execHsub2F16_wf {d : BitVec 7} {a : BitVec 8} {b : BitVec 8} {st : State} {res : State}
    (e : execHsub2F16 d a b st = .next res)
    (hwf : Memory.wf st.mem = true) : Memory.wf res.mem = true := by
  unfold execHsub2F16 at e
  refine issueThread_wf (fun x u hx => ?_) e hwf
  (repeat' split) <;> first | exact noPost_keeps _ _ | exact fault_keeps _ _ | exact aluOp_keeps _ _ _ _ _ _ | exact predOp_keeps _ _ _ _ | exact fpFinish_keeps _ _ _ _ _

theorem execHsub2Bf16_wf {d : BitVec 7} {a : BitVec 8} {b : BitVec 8} {st : State} {res : State}
    (e : execHsub2Bf16 d a b st = .next res)
    (hwf : Memory.wf st.mem = true) : Memory.wf res.mem = true := by
  unfold execHsub2Bf16 at e
  refine issueThread_wf (fun x u hx => ?_) e hwf
  (repeat' split) <;> first | exact noPost_keeps _ _ | exact fault_keeps _ _ | exact aluOp_keeps _ _ _ _ _ _ | exact predOp_keeps _ _ _ _ | exact fpFinish_keeps _ _ _ _ _

theorem execHdot2F16_wf {d : BitVec 7} {a : BitVec 8} {b : BitVec 8} {st : State} {res : State}
    (e : execHdot2F16 d a b st = .next res)
    (hwf : Memory.wf st.mem = true) : Memory.wf res.mem = true := by
  unfold execHdot2F16 at e
  refine issueThread_wf (fun x u hx => ?_) e hwf
  (repeat' split) <;> first | exact noPost_keeps _ _ | exact fault_keeps _ _ | exact aluOp_keeps _ _ _ _ _ _ | exact predOp_keeps _ _ _ _ | exact fpFinish_keeps _ _ _ _ _

theorem execHdot2Bf16_wf {d : BitVec 7} {a : BitVec 8} {b : BitVec 8} {st : State} {res : State}
    (e : execHdot2Bf16 d a b st = .next res)
    (hwf : Memory.wf st.mem = true) : Memory.wf res.mem = true := by
  unfold execHdot2Bf16 at e
  refine issueThread_wf (fun x u hx => ?_) e hwf
  (repeat' split) <;> first | exact noPost_keeps _ _ | exact fault_keeps _ _ | exact aluOp_keeps _ _ _ _ _ _ | exact predOp_keeps _ _ _ _ | exact fpFinish_keeps _ _ _ _ _

theorem fp64Form_wf {i : Instr} {d : BitVec 7} {a : BitVec 8} {b : Option (BitVec 8)} {readsD : Bool} {hinted : Bool}
    {f : FpEnv → Nat → Nat → Nat → FpOut} {st : State} {res : State} (e : fp64Form i d a b readsD hinted f st = .next res)
    (hwf : Memory.wf st.mem = true) : Memory.wf res.mem = true := by
  unfold fp64Form at e
  refine issueThread_wf (fun x u hx => ?_) e hwf
  (repeat' split) <;> first | exact noPost_keeps _ _ | exact fault_keeps _ _ | exact aluOp_keeps _ _ _ _ _ _ | exact predOp_keeps _ _ _ _ | exact fpFinish_keeps _ _ _ _ _

theorem dBin_wf {i : Instr} {d : BitVec 6} {a : BitVec 8} {b : BitVec 8} {hinted : Bool} {f : FpEnv → Nat → Nat → FpOut}
    {st : State} {res : State} (e : dBin i d a b hinted f st = .next res)
    (hwf : Memory.wf st.mem = true) : Memory.wf res.mem = true := by
  unfold dBin at e
  refine issueThread_wf (fun x u hx => ?_) e hwf
  (repeat' split) <;> first | exact noPost_keeps _ _ | exact fault_keeps _ _ | exact aluOp_keeps _ _ _ _ _ _ | exact predOp_keeps _ _ _ _ | exact fpFinish_keeps _ _ _ _ _

theorem execDadd_wf {d : BitVec 6} {a : BitVec 8} {b : BitVec 8} {st : State} {res : State}
    (e : execDadd d a b st = .next res)
    (hwf : Memory.wf st.mem = true) : Memory.wf res.mem = true := by
  unfold execDadd at e
  refine issueThread_wf (fun x u hx => ?_) e hwf
  (repeat' split) <;> first | exact noPost_keeps _ _ | exact fault_keeps _ _ | exact aluOp_keeps _ _ _ _ _ _ | exact predOp_keeps _ _ _ _ | exact fpFinish_keeps _ _ _ _ _

theorem execDsub_wf {d : BitVec 6} {a : BitVec 8} {b : BitVec 8} {st : State} {res : State}
    (e : execDsub d a b st = .next res)
    (hwf : Memory.wf st.mem = true) : Memory.wf res.mem = true := by
  unfold execDsub at e
  refine issueThread_wf (fun x u hx => ?_) e hwf
  (repeat' split) <;> first | exact noPost_keeps _ _ | exact fault_keeps _ _ | exact aluOp_keeps _ _ _ _ _ _ | exact predOp_keeps _ _ _ _ | exact fpFinish_keeps _ _ _ _ _

theorem execDmul_wf {d : BitVec 6} {a : BitVec 8} {b : BitVec 8} {st : State} {res : State}
    (e : execDmul d a b st = .next res)
    (hwf : Memory.wf st.mem = true) : Memory.wf res.mem = true := by
  unfold execDmul at e
  refine issueThread_wf (fun x u hx => ?_) e hwf
  (repeat' split) <;> first | exact noPost_keeps _ _ | exact fault_keeps _ _ | exact aluOp_keeps _ _ _ _ _ _ | exact predOp_keeps _ _ _ _ | exact fpFinish_keeps _ _ _ _ _

theorem execDfmac_wf {d : BitVec 6} {a : BitVec 8} {b : BitVec 8} {st : State} {res : State}
    (e : execDfmac d a b st = .next res)
    (hwf : Memory.wf st.mem = true) : Memory.wf res.mem = true := by
  unfold execDfmac at e
  refine issueThread_wf (fun x u hx => ?_) e hwf
  (repeat' split) <;> first | exact noPost_keeps _ _ | exact fault_keeps _ _ | exact aluOp_keeps _ _ _ _ _ _ | exact predOp_keeps _ _ _ _ | exact fpFinish_keeps _ _ _ _ _

theorem execDmin_wf {d : BitVec 6} {a : BitVec 8} {b : BitVec 8} {st : State} {res : State}
    (e : execDmin d a b st = .next res)
    (hwf : Memory.wf st.mem = true) : Memory.wf res.mem = true := by
  unfold execDmin at e
  refine issueThread_wf (fun x u hx => ?_) e hwf
  (repeat' split) <;> first | exact noPost_keeps _ _ | exact fault_keeps _ _ | exact aluOp_keeps _ _ _ _ _ _ | exact predOp_keeps _ _ _ _ | exact fpFinish_keeps _ _ _ _ _

theorem execDmax_wf {d : BitVec 6} {a : BitVec 8} {b : BitVec 8} {st : State} {res : State}
    (e : execDmax d a b st = .next res)
    (hwf : Memory.wf st.mem = true) : Memory.wf res.mem = true := by
  unfold execDmax at e
  refine issueThread_wf (fun x u hx => ?_) e hwf
  (repeat' split) <;> first | exact noPost_keeps _ _ | exact fault_keeps _ _ | exact aluOp_keeps _ _ _ _ _ _ | exact predOp_keeps _ _ _ _ | exact fpFinish_keeps _ _ _ _ _

theorem execDdiv_wf {d : BitVec 6} {a : BitVec 8} {b : BitVec 8} {st : State} {res : State}
    (e : execDdiv d a b st = .next res)
    (hwf : Memory.wf st.mem = true) : Memory.wf res.mem = true := by
  unfold execDdiv at e
  refine issueThread_wf (fun x u hx => ?_) e hwf
  (repeat' split) <;> first | exact noPost_keeps _ _ | exact fault_keeps _ _ | exact aluOp_keeps _ _ _ _ _ _ | exact predOp_keeps _ _ _ _ | exact fpFinish_keeps _ _ _ _ _

theorem execDsqrt_wf {d : BitVec 6} {a : BitVec 8} {st : State} {res : State} (e : execDsqrt d a st = .next res)
    (hwf : Memory.wf st.mem = true) : Memory.wf res.mem = true := by
  unfold execDsqrt at e
  refine issueThread_wf (fun x u hx => ?_) e hwf
  (repeat' split) <;> first | exact noPost_keeps _ _ | exact fault_keeps _ _ | exact aluOp_keeps _ _ _ _ _ _ | exact predOp_keeps _ _ _ _ | exact fpFinish_keeps _ _ _ _ _

theorem fcmpForm_wf {i : Instr} {p : BitVec 3} {c : BitVec 4} {a : BitVec 8} {b : BitVec 8} {w : BitVec 1} {m : Combine}
    {st : State} {res : State} (e : fcmpForm i p c a b w m st = .next res)
    (hwf : Memory.wf st.mem = true) : Memory.wf res.mem = true := by
  unfold fcmpForm at e
  refine issueThread_wf (fun x u hx => ?_) e hwf
  dsimp only
  (repeat' split) <;> first | trivial | (intro p hp; simp at hp; done)

theorem execFcmp_wf {p : BitVec 3} {c : BitVec 4} {a : BitVec 8} {b : BitVec 8} {w : BitVec 1} {st : State}
    {res : State} (e : execFcmp p c a b w st = .next res)
    (hwf : Memory.wf st.mem = true) : Memory.wf res.mem = true := by
  unfold execFcmp at e
  refine issueThread_wf (fun x u hx => ?_) e hwf
  dsimp only
  (repeat' split) <;> first | trivial | (intro p hp; simp at hp; done)

theorem execFcmpAnd_wf {p : BitVec 3} {c : BitVec 4} {a : BitVec 8} {b : BitVec 8} {w : BitVec 1} {st : State}
    {res : State} (e : execFcmpAnd p c a b w st = .next res)
    (hwf : Memory.wf st.mem = true) : Memory.wf res.mem = true := by
  unfold execFcmpAnd at e
  refine issueThread_wf (fun x u hx => ?_) e hwf
  dsimp only
  (repeat' split) <;> first | trivial | (intro p hp; simp at hp; done)

theorem execFcmpOr_wf {p : BitVec 3} {c : BitVec 4} {a : BitVec 8} {b : BitVec 8} {w : BitVec 1} {st : State}
    {res : State} (e : execFcmpOr p c a b w st = .next res)
    (hwf : Memory.wf st.mem = true) : Memory.wf res.mem = true := by
  unfold execFcmpOr at e
  refine issueThread_wf (fun x u hx => ?_) e hwf
  dsimp only
  (repeat' split) <;> first | trivial | (intro p hp; simp at hp; done)

theorem execCvt_wf {d : BitVec 7} {a : BitVec 8} {code : BitVec 8} {s : BitVec 1} {r : BitVec 2} {st : State}
    {res : State} (e : execCvt d a code s r st = .next res)
    (hwf : Memory.wf st.mem = true) : Memory.wf res.mem = true := by
  have hp (c : Prop) [Decidable c] (ev : Option NumEvent) (l k : Nat) (p : State → State)
      (hp : p ∈ (if c then [fun s : State => s.countNum l k ev] else [])) (s : State) (hs : Memory.wf s.mem = true) :
      Memory.wf (p s).mem = true := by
    split at hp
    · rw [List.mem_singleton.mp hp, countNum_mem]; exact hs
    · exact absurd hp List.not_mem_nil
  unfold execCvt at e
  refine issueThread_wf (fun x u hx => ?_) e hwf
  dsimp only
  split <;> exact fun p h s hs => hp _ _ _ _ p h s hs

theorem parkForm_wf {i : Instr} {place : Who → Place} {st : State} {res : State} (e : parkForm i place st = .next res)
    (hwf : Memory.wf st.mem = true) : Memory.wf res.mem = true := by
  unfold parkForm at e
  refine issueThread_wf (fun x u hx => ?_) e hwf
  exact noPost_keeps _ _

theorem execNop_wf  {st : State} {res : State} (e : execNop  st = .next res)
    (hwf : Memory.wf st.mem = true) : Memory.wf res.mem = true := by
  unfold execNop at e
  refine issueThread_wf (fun x u hx => ?_) e hwf
  exact noPost_keeps _ _

theorem execExit_wf  {st : State} {res : State} (e : execExit  st = .next res)
    (hwf : Memory.wf st.mem = true) : Memory.wf res.mem = true := by
  unfold execExit at e
  refine issueThread_wf (fun x u hx => ?_) e hwf
  dsimp only
  first | trivial | (intro p hp; simp at hp; done)

theorem execYield_wf  {st : State} {res : State} (e : execYield  st = .next res)
    (hwf : Memory.wf st.mem = true) : Memory.wf res.mem = true := by
  unfold execYield at e
  refine issueThread_wf (fun x u hx => ?_) e hwf
  dsimp only
  first | trivial | (intro p hp; simp at hp; done)

theorem execSleep_wf {n : BitVec 20} {st : State} {res : State} (e : execSleep n st = .next res)
    (hwf : Memory.wf st.mem = true) : Memory.wf res.mem = true := by
  unfold execSleep at e
  refine issueThread_wf (fun x u hx => ?_) e hwf
  dsimp only
  (repeat' split) <;> first | trivial | (intro p hp; simp at hp; done)

theorem execUblk_wf  {st : State} {res : State} (e : execUblk  st = .next res)
    (hwf : Memory.wf st.mem = true) : Memory.wf res.mem = true := by
  unfold execUblk at e
  refine issueThread_wf (fun x u hx => ?_) e hwf
  exact noPost_keeps _ _

theorem execTrap_wf {n : BitVec 8} {st : State} {res : State} (e : execTrap n st = .next res)
    (hwf : Memory.wf st.mem = true) : Memory.wf res.mem = true := by
  unfold execTrap at e
  refine issueThread_wf (fun x u hx => ?_) e hwf
  first | exact noPost_keeps _ _ | exact fault_keeps _ _

theorem tretForm_wf {i : Instr} {retry : Bool} {st : State} {res : State} (e : tretForm i retry st = .next res)
    (hwf : Memory.wf st.mem = true) : Memory.wf res.mem = true := by
  unfold tretForm at e
  refine issueThread_wf (fun x u hx => ?_) e hwf
  dsimp only
  (repeat' split) <;> first | trivial | (intro p hp; simp at hp; done)

theorem execTretNext_wf  {st : State} {res : State} (e : execTretNext  st = .next res)
    (hwf : Memory.wf st.mem = true) : Memory.wf res.mem = true := by
  unfold execTretNext at e
  refine issueThread_wf (fun x u hx => ?_) e hwf
  dsimp only
  (repeat' split) <;> first | trivial | (intro p hp; simp at hp; done)

theorem execTretRetry_wf  {st : State} {res : State} (e : execTretRetry  st = .next res)
    (hwf : Memory.wf st.mem = true) : Memory.wf res.mem = true := by
  unfold execTretRetry at e
  refine issueThread_wf (fun x u hx => ?_) e hwf
  dsimp only
  (repeat' split) <;> first | trivial | (intro p hp; simp at hp; done)

theorem execBrk_wf {c : BitVec 8} {st : State} {res : State} (e : execBrk c st = .next res)
    (hwf : Memory.wf st.mem = true) : Memory.wf res.mem = true := by
  unfold execBrk at e
  refine issueThread_wf (fun x u hx => ?_) e hwf
  (repeat' split) <;> first | exact noPost_keeps _ _ | exact fault_keeps _ _

theorem execBra_wf {p : BitVec 3} {n : BitVec 1} {d : BitVec 22} {st : State} {res : State}
    (e : execBra p n d st = .next res)
    (hwf : Memory.wf st.mem = true) : Memory.wf res.mem = true := by
  unfold execBra at e
  refine issueThread_wf (fun x u hx => ?_) e hwf
  dsimp only
  (repeat' split) <;> first | exact noPost_keeps _ _ | exact fault_keeps _ _ | exact aluOp_keeps _ _ _ _ _ _ | exact predOp_keeps _ _ _ _ | exact fpFinish_keeps _ _ _ _ _ | exact goTo_keeps _ _ _

theorem brxForm_wf {i : Instr} {a : BitVec 8} {st : State} {res : State} (e : brxForm i a st = .next res)
    (hwf : Memory.wf st.mem = true) : Memory.wf res.mem = true := by
  unfold brxForm at e
  refine issueThread_wf (fun x u hx => ?_) e hwf
  dsimp only
  (repeat' split) <;> first | exact noPost_keeps _ _ | exact fault_keeps _ _ | exact aluOp_keeps _ _ _ _ _ _ | exact predOp_keeps _ _ _ _ | exact fpFinish_keeps _ _ _ _ _ | exact goTo_keeps _ _ _

theorem execBrx_wf {a : BitVec 8} {st : State} {res : State} (e : execBrx a st = .next res)
    (hwf : Memory.wf st.mem = true) : Memory.wf res.mem = true := by
  unfold execBrx at e
  refine issueThread_wf (fun x u hx => ?_) e hwf
  dsimp only
  (repeat' split) <;> first | exact noPost_keeps _ _ | exact fault_keeps _ _ | exact aluOp_keeps _ _ _ _ _ _ | exact predOp_keeps _ _ _ _ | exact fpFinish_keeps _ _ _ _ _ | exact goTo_keeps _ _ _

theorem execRet_wf {a : BitVec 8} {st : State} {res : State} (e : execRet a st = .next res)
    (hwf : Memory.wf st.mem = true) : Memory.wf res.mem = true := by
  unfold execRet at e
  refine issueThread_wf (fun x u hx => ?_) e hwf
  dsimp only
  (repeat' split) <;> first | exact noPost_keeps _ _ | exact fault_keeps _ _ | exact aluOp_keeps _ _ _ _ _ _ | exact predOp_keeps _ _ _ _ | exact fpFinish_keeps _ _ _ _ _ | exact goTo_keeps _ _ _

theorem execCall_wf {l : BitVec 7} {d : BitVec 19} {st : State} {res : State} (e : execCall l d st = .next res)
    (hwf : Memory.wf st.mem = true) : Memory.wf res.mem = true := by
  unfold execCall at e
  refine issueThread_wf (fun x u hx => ?_) e hwf
  (repeat' split) <;> first | exact noPost_keeps _ _ | exact fault_keeps _ _ | exact aluOp_keeps _ _ _ _ _ _ | exact predOp_keeps _ _ _ _ | exact fpFinish_keeps _ _ _ _ _ | exact goTo_keeps _ _ _

theorem execWait_wf {l : BitVec 5} {s : BitVec 5} {c : BitVec 5} {m : BitVec 5} {x : BitVec 5} {st : State}
    {res : State} (e : execWait l s c m x st = .next res)
    (hwf : Memory.wf st.mem = true) : Memory.wf res.mem = true := by
  unfold execWait at e
  refine issueThread_wf (fun x u hx => ?_) e hwf
  dsimp only
  split <;> exact noPost_keeps _ _

theorem arriveForm_wf {i : Instr} {s : BitVec 3} {id : BitVec 6} {k : BarKind} {st : State} {res : State}
    (e : arriveForm i s id k st = .next res)
    (hwf : Memory.wf st.mem = true) : Memory.wf res.mem = true := by
  unfold arriveForm barForm at e
  refine issueThread_wf (fun x u hx => ?_) e hwf
  exact post_keeps _ _ _ fun s hs => by rw [openBarrier_mem]; exact hs

theorem execBarSync_wf {s : BitVec 3} {i : BitVec 6} {st : State} {res : State} (e : execBarSync s i st = .next res)
    (hwf : Memory.wf st.mem = true) : Memory.wf res.mem = true :=
  arriveForm_wf e hwf

theorem execBarArrive_wf {s : BitVec 3} {i : BitVec 6} {st : State} {res : State} (e : execBarArrive s i st = .next res)
    (hwf : Memory.wf st.mem = true) : Memory.wf res.mem = true :=
  arriveForm_wf e hwf

theorem execBarWait_wf {s : BitVec 3} {i : BitVec 6} {st : State} {res : State} (e : execBarWait s i st = .next res)
    (hwf : Memory.wf st.mem = true) : Memory.wf res.mem = true := by
  unfold execBarWait barForm at e
  refine issueThread_wf (fun x u hx => ?_) e hwf
  (repeat' split) <;> first | exact noPost_keeps _ _ | exact post_keeps _ _ _ fun s hs => hs

theorem execSrd_wf {r : BitVec 7} {i : BitVec 10} {st : State} {res : State} (e : execSrd r i st = .next res)
    (hwf : Memory.wf st.mem = true) : Memory.wf res.mem = true := by
  unfold execSrd at e
  refine issueThread_wf (fun x u hx => ?_) e hwf
  dsimp only
  (repeat' split) <;> first | trivial | (intro p hp s hs; grind [foldl_mem, foldl_wf, logEntry_wf])

theorem execSwr_wf {r : BitVec 7} {i : BitVec 10} {st : State} {res : State} (e : execSwr r i st = .next res)
    (hwf : Memory.wf st.mem = true) : Memory.wf res.mem = true := by
  unfold execSwr at e
  refine issueThread_wf (fun x u hx => ?_) e hwf
  dsimp only
  (repeat' split) <;> first | trivial | (intro p hp s hs; grind [foldl_mem, foldl_wf, onWg_mem])

theorem execHintImms_wf {i : BitVec 22} {st : State} {res : State} (e : execHintImms i st = .next res)
    (hwf : Memory.wf st.mem = true) : Memory.wf res.mem = true := by
  unfold execHintImms issueHint at e
  exact issueHintWord_wf e hwf

theorem execHintImmh_wf {i : BitVec 16} {st : State} {res : State} (e : execHintImmh i st = .next res)
    (hwf : Memory.wf st.mem = true) : Memory.wf res.mem = true := by
  unfold execHintImmh issueHint at e
  exact issueHintWord_wf e hwf

theorem execHintImml_wf {i : BitVec 16} {st : State} {res : State} (e : execHintImml i st = .next res)
    (hwf : Memory.wf st.mem = true) : Memory.wf res.mem = true := by
  unfold execHintImml issueHint at e
  exact issueHintWord_wf e hwf

theorem execHintPred_wf {n : BitVec 1} {p : BitVec 3} {st : State} {res : State} (e : execHintPred n p st = .next res)
    (hwf : Memory.wf st.mem = true) : Memory.wf res.mem = true := by
  unfold execHintPred issueHint at e
  exact issueHintWord_wf e hwf

theorem execHintMem_wf {n : BitVec 1} {k : BitVec 2} {r : BitVec 1} {q : BitVec 1} {c : BitVec 3} {st : State}
    {res : State} (e : execHintMem n k r q c st = .next res)
    (hwf : Memory.wf st.mem = true) : Memory.wf res.mem = true := by
  unfold execHintMem issueHint at e
  exact issueHintWord_wf e hwf

theorem execHintRnd_wf {s : BitVec 1} {f : BitVec 1} {r : BitVec 2} {st : State} {res : State}
    (e : execHintRnd s f r st = .next res)
    (hwf : Memory.wf st.mem = true) : Memory.wf res.mem = true := by
  unfold execHintRnd issueHint at e
  exact issueHintWord_wf e hwf

theorem execHintDisp_wf {d : BitVec 22} {st : State} {res : State} (e : execHintDisp d st = .next res)
    (hwf : Memory.wf st.mem = true) : Memory.wf res.mem = true := by
  unfold execHintDisp issueHint at e
  exact issueHintWord_wf e hwf

theorem execHintDead_wf {b : BitVec 6} {m : BitVec 16} {st : State} {res : State} (e : execHintDead b m st = .next res)
    (hwf : Memory.wf st.mem = true) : Memory.wf res.mem = true := by
  unfold execHintDead issueHint at e
  exact issueHintWord_wf e hwf

theorem execHintSchedFill_wf {n : BitVec 12} {st : State} {res : State} (e : execHintSchedFill n st = .next res)
    (hwf : Memory.wf st.mem = true) : Memory.wf res.mem = true := by
  unfold execHintSchedFill issueHint at e
  exact issueHintWord_wf e hwf

theorem execHintSchedAge_wf {n : BitVec 16} {st : State} {res : State} (e : execHintSchedAge n st = .next res)
    (hwf : Memory.wf st.mem = true) : Memory.wf res.mem = true := by
  unfold execHintSchedAge issueHint at e
  exact issueHintWord_wf e hwf

theorem execBru_wf {c : BitVec 6} {t : BitVec 3} {d : BitVec 17} {st : State} {res : State}
    (e : execBru c t d st = .next res)
    (hwf : Memory.wf st.mem = true) : Memory.wf res.mem = true := by
  unfold execBru at e
  refine issueUniform_wf (fun x hx => ?_) e hwf
  dsimp only
  split
  · trivial
  · split
    · trivial
    · next k hk =>
      exact posts_wf _ _ (fun p hp s hs => traceEntry_wf x _ k p hp s hs) hx

theorem calu_wf {i : Instr} {d : BitVec 6} {a : BitVec 8} {b : BitVec 8} {f : Word → Word → Word} {st : State}
    {res : State} (e : calu i d a b f st = .next res)
    (hwf : Memory.wf st.mem = true) : Memory.wf res.mem = true := by
  unfold calu at e
  refine issueUniform_wf (fun x hx => ?_) e hwf
  dsimp only
  trivial

theorem execCadd_wf {d : BitVec 6} {a : BitVec 8} {b : BitVec 8} {st : State} {res : State}
    (e : execCadd d a b st = .next res)
    (hwf : Memory.wf st.mem = true) : Memory.wf res.mem = true := by
  unfold execCadd at e
  refine issueUniform_wf (fun x hx => ?_) e hwf
  dsimp only
  trivial

theorem execCsub_wf {d : BitVec 6} {a : BitVec 8} {b : BitVec 8} {st : State} {res : State}
    (e : execCsub d a b st = .next res)
    (hwf : Memory.wf st.mem = true) : Memory.wf res.mem = true := by
  unfold execCsub at e
  refine issueUniform_wf (fun x hx => ?_) e hwf
  dsimp only
  trivial

theorem execCmul_wf {d : BitVec 6} {a : BitVec 8} {b : BitVec 8} {st : State} {res : State}
    (e : execCmul d a b st = .next res)
    (hwf : Memory.wf st.mem = true) : Memory.wf res.mem = true := by
  unfold execCmul at e
  refine issueUniform_wf (fun x hx => ?_) e hwf
  dsimp only
  trivial

theorem execCand_wf {d : BitVec 6} {a : BitVec 8} {b : BitVec 8} {st : State} {res : State}
    (e : execCand d a b st = .next res)
    (hwf : Memory.wf st.mem = true) : Memory.wf res.mem = true := by
  unfold execCand at e
  refine issueUniform_wf (fun x hx => ?_) e hwf
  dsimp only
  trivial

theorem execCor_wf {d : BitVec 6} {a : BitVec 8} {b : BitVec 8} {st : State} {res : State} (e : execCor d a b st = .next res)
    (hwf : Memory.wf st.mem = true) : Memory.wf res.mem = true := by
  unfold execCor at e
  refine issueUniform_wf (fun x hx => ?_) e hwf
  dsimp only
  trivial

theorem execCxor_wf {d : BitVec 6} {a : BitVec 8} {b : BitVec 8} {st : State} {res : State}
    (e : execCxor d a b st = .next res)
    (hwf : Memory.wf st.mem = true) : Memory.wf res.mem = true := by
  unfold execCxor at e
  refine issueUniform_wf (fun x hx => ?_) e hwf
  dsimp only
  trivial

theorem execCshl_wf {d : BitVec 6} {a : BitVec 8} {b : BitVec 8} {st : State} {res : State}
    (e : execCshl d a b st = .next res)
    (hwf : Memory.wf st.mem = true) : Memory.wf res.mem = true := by
  unfold execCshl at e
  refine issueUniform_wf (fun x hx => ?_) e hwf
  dsimp only
  trivial

theorem execCshr_wf {d : BitVec 6} {a : BitVec 8} {b : BitVec 8} {st : State} {res : State}
    (e : execCshr d a b st = .next res)
    (hwf : Memory.wf st.mem = true) : Memory.wf res.mem = true := by
  unfold execCshr at e
  refine issueUniform_wf (fun x hx => ?_) e hwf
  dsimp only
  trivial

theorem execCsar_wf {d : BitVec 6} {a : BitVec 8} {b : BitVec 8} {st : State} {res : State}
    (e : execCsar d a b st = .next res)
    (hwf : Memory.wf st.mem = true) : Memory.wf res.mem = true := by
  unfold execCsar at e
  refine issueUniform_wf (fun x hx => ?_) e hwf
  dsimp only
  trivial

theorem execCminS_wf {d : BitVec 6} {a : BitVec 8} {b : BitVec 8} {st : State} {res : State}
    (e : execCminS d a b st = .next res)
    (hwf : Memory.wf st.mem = true) : Memory.wf res.mem = true := by
  unfold execCminS at e
  refine issueUniform_wf (fun x hx => ?_) e hwf
  dsimp only
  (repeat' split) <;> trivial

theorem execCmaxS_wf {d : BitVec 6} {a : BitVec 8} {b : BitVec 8} {st : State} {res : State}
    (e : execCmaxS d a b st = .next res)
    (hwf : Memory.wf st.mem = true) : Memory.wf res.mem = true := by
  unfold execCmaxS at e
  refine issueUniform_wf (fun x hx => ?_) e hwf
  dsimp only
  (repeat' split) <;> trivial

theorem execCminU_wf {d : BitVec 6} {a : BitVec 8} {b : BitVec 8} {st : State} {res : State}
    (e : execCminU d a b st = .next res)
    (hwf : Memory.wf st.mem = true) : Memory.wf res.mem = true := by
  unfold execCminU at e
  refine issueUniform_wf (fun x hx => ?_) e hwf
  dsimp only
  (repeat' split) <;> trivial

theorem execCmaxU_wf {d : BitVec 6} {a : BitVec 8} {b : BitVec 8} {st : State} {res : State}
    (e : execCmaxU d a b st = .next res)
    (hwf : Memory.wf st.mem = true) : Memory.wf res.mem = true := by
  unfold execCmaxU at e
  refine issueUniform_wf (fun x hx => ?_) e hwf
  dsimp only
  (repeat' split) <;> trivial

theorem execCsltS_wf {d : BitVec 6} {a : BitVec 8} {b : BitVec 8} {st : State} {res : State}
    (e : execCsltS d a b st = .next res)
    (hwf : Memory.wf st.mem = true) : Memory.wf res.mem = true := by
  unfold execCsltS at e
  refine issueUniform_wf (fun x hx => ?_) e hwf
  dsimp only
  trivial

theorem execCsltU_wf {d : BitVec 6} {a : BitVec 8} {b : BitVec 8} {st : State} {res : State}
    (e : execCsltU d a b st = .next res)
    (hwf : Memory.wf st.mem = true) : Memory.wf res.mem = true := by
  unfold execCsltU at e
  refine issueUniform_wf (fun x hx => ?_) e hwf
  dsimp only
  trivial

theorem execCseq_wf {d : BitVec 6} {a : BitVec 8} {b : BitVec 8} {st : State} {res : State}
    (e : execCseq d a b st = .next res)
    (hwf : Memory.wf st.mem = true) : Memory.wf res.mem = true := by
  unfold execCseq at e
  refine issueUniform_wf (fun x hx => ?_) e hwf
  dsimp only
  trivial

theorem execCaddi_wf {d : BitVec 6} {a : BitVec 8} {i : BitVec 12} {st : State} {res : State}
    (e : execCaddi d a i st = .next res)
    (hwf : Memory.wf st.mem = true) : Memory.wf res.mem = true := by
  unfold execCaddi at e
  refine issueUniform_wf (fun x hx => ?_) e hwf
  dsimp only
  trivial

theorem execAadd_wf {d : BitVec 4} {a : BitVec 4} {s : BitVec 8} {st : State} {res : State}
    (e : execAadd d a s st = .next res)
    (hwf : Memory.wf st.mem = true) : Memory.wf res.mem = true := by
  unfold execAadd at e
  refine issueUniform_wf (fun x hx => ?_) e hwf
  exact hx

theorem execAadds_wf {d : BitVec 4} {a : BitVec 4} {s : BitVec 8} {k : BitVec 6} {st : State} {res : State}
    (e : execAadds d a s k st = .next res)
    (hwf : Memory.wf st.mem = true) : Memory.wf res.mem = true := by
  unfold execAadds at e
  refine issueUniform_wf (fun x hx => ?_) e hwf
  exact hx

theorem execAfromc_wf {d : BitVec 4} {n : BitVec 6} {st : State} {res : State} (e : execAfromc d n st = .next res)
    (hwf : Memory.wf st.mem = true) : Memory.wf res.mem = true := by
  unfold execAfromc at e
  refine issueUniform_wf (fun x hx => ?_) e hwf
  dsimp only
  trivial

theorem execAtoc_wf {a : BitVec 4} {n : BitVec 6} {st : State} {res : State} (e : execAtoc a n st = .next res)
    (hwf : Memory.wf st.mem = true) : Memory.wf res.mem = true := by
  unfold execAtoc at e
  refine issueUniform_wf (fun x hx => ?_) e hwf
  dsimp only
  trivial

theorem execWred_wf {d : BitVec 6} {a : BitVec 8} {r : BitVec 4} {p : BitVec 3} {n : BitVec 1} {st : State}
    {res : State} (e : execWred d a r p n st = .next res)
    (hwf : Memory.wf st.mem = true) : Memory.wf res.mem = true := by
  unfold execWred at e
  refine issueUniform_wf (fun x hx => ?_) e hwf
  dsimp only
  (repeat' split) <;> trivial

theorem execRegqSet_wf {d : BitVec 6} {a : BitVec 8} {st : State} {res : State} (e : execRegqSet d a st = .next res)
    (hwf : Memory.wf st.mem = true) : Memory.wf res.mem = true := by
  unfold execRegqSet at e
  refine issueUniform_wf (fun x hx => ?_) e hwf
  dsimp only
  (repeat' split) <;> trivial

theorem execRegqXfer_wf {d : BitVec 6} {a : BitVec 8} {b : BitVec 8} {st : State} {res : State}
    (e : execRegqXfer d a b st = .next res)
    (hwf : Memory.wf st.mem = true) : Memory.wf res.mem = true := by
  unfold execRegqXfer at e
  refine issueUniform_wf (fun x hx => ?_) e hwf
  dsimp only
  (repeat' split) <;> trivial

theorem execRegqGet_wf {d : BitVec 6} {st : State} {res : State} (e : execRegqGet d st = .next res)
    (hwf : Memory.wf st.mem = true) : Memory.wf res.mem = true := by
  unfold execRegqGet at e
  refine issueUniform_wf (fun x hx => ?_) e hwf
  exact hx

theorem execLd_wf {t : BitVec 7} {x : BitVec 8} {a : BitVec 4} {z : BitVec 3} {k : BitVec 4} {st : State} {res : State}
    (e : execLd t x a z k st = .next res)
    (hwf : Memory.wf st.mem = true) : Memory.wf res.mem = true := by
  unfold execLd at e
  refine issueThread_wf (fun x u hx => ?_) e hwf
  dsimp only
  (repeat' split) <;> first | trivial | (intro p hp s hs; grind [foldl_mem, foldl_wf, count_mem, launchFlight_mem])

theorem execSt_wf {t : BitVec 7} {x : BitVec 8} {a : BitVec 4} {z : BitVec 3} {k : BitVec 4} {st : State} {res : State}
    (e : execSt t x a z k st = .next res)
    (hwf : Memory.wf st.mem = true) : Memory.wf res.mem = true := by
  unfold execSt at e
  refine issueThread_wf (fun x u hx => ?_) e hwf
  dsimp only
  (repeat' split) <;> first | trivial | (intro p hp s hs; grind [foldl_mem, foldl_wf, count_mem, holdStore_wf, launchFlight_mem])

theorem execAtom_wf {t : BitVec 7} {x : BitVec 8} {a : BitVec 4} {z : BitVec 1} {k : BitVec 4} {st : State}
    {res : State} (e : execAtom t x a z k st = .next res)
    (hwf : Memory.wf st.mem = true) : Memory.wf res.mem = true := by
  unfold execAtom at e
  refine issueThread_wf (fun x u hx => ?_) e hwf
  dsimp only
  split
  · exact fault_keeps _ _
  · exact post_keeps _ _ _ fun s hs => by rw [launchFlight_mem]; exact hs

theorem execRed_wf {t : BitVec 7} {x : BitVec 8} {a : BitVec 4} {z : BitVec 1} {k : BitVec 4} {st : State} {res : State}
    (e : execRed t x a z k st = .next res)
    (hwf : Memory.wf st.mem = true) : Memory.wf res.mem = true := by
  unfold execRed at e
  refine issueThread_wf (fun x u hx => ?_) e hwf
  dsimp only
  split
  · exact fault_keeps _ _
  · exact post_keeps _ _ _ fun s hs => by rw [launchFlight_mem]; exact hs

theorem carry_wf {s : State} {w : Wg} {f : Flight} {act : Answer} {res : State} (e : s.carry w f act = .next res)
    (h : act = .next res → Memory.wf res.mem = true) (hwf : Memory.wf s.mem = true) : Memory.wf res.mem = true := by
  unfold State.carry at e
  split at e
  · exact done_wf e (cancelFlight_wf _ _ _ hwf)
  · split at e
    · exact done_wf e (by rw [onFlight_mem]; exact hwf)
    · exact h e

theorem execLoadComplete_wf {id : Nat} {s : State} {res : State} (e : execLoadComplete id s = .next res)
    (hwf : Memory.wf s.mem = true) : Memory.wf res.mem = true := by
  unfold execLoadComplete at e
  split at e
  · exact done_wf e hwf
  · next f _ =>
    split at e
    · exact done_wf e hwf
    · next w _ =>
      split at e
      · split at e
        · refine carry_wf e (fun e => ?_) hwf
          have h1 : Memory.wf (s.readLoc w f.acquire (f.loc.plus (s.partOf f)) (min 4 f.size)).1.mem = true := by
            rw [readLoc_mem]; exact hwf
          dsimp only at e
          generalize s.readLoc w f.acquire (f.loc.plus (s.partOf f)) (min 4 f.size) = x at h1 e
          refine done_wf e ?_
          rw [partDone_mem]
          cases f.tid <;> exact h1
        · exact done_wf e hwf
      · exact done_wf e hwf

theorem execStoreComplete_wf {id : Nat} {s : State} {res : State} (e : execStoreComplete id s = .next res)
    (hwf : Memory.wf s.mem = true) : Memory.wf res.mem = true := by
  unfold execStoreComplete at e
  (repeat' split at e) <;> first
    | exact done_wf e hwf
    | (refine carry_wf e (fun e => done_wf e ?_) hwf; rw [partDone_mem]; exact performStore_wf _ _ _ _ hwf)

theorem execAtomicPerform_wf {id : Nat} {s : State} {res : State} (e : execAtomicPerform id s = .next res)
    (hwf : Memory.wf s.mem = true) : Memory.wf res.mem = true := by
  unfold execAtomicPerform at e
  split at e
  · exact done_wf e hwf
  · next f _ =>
    split at e
    · exact done_wf e hwf
    · next w _ =>
      split at e
      · split at e
        · refine carry_wf e (fun e => done_wf e ?_) hwf
          rw [finishFlight_mem, onThread_mem]
          exact logEntry_wf _ _ _ _ _ _ (performAtom_wf _ _ _ _ _ hwf)
        · refine carry_wf e (fun e => done_wf e ?_) hwf
          rw [finishFlight_mem]
          exact performAtom_wf _ _ _ _ _ hwf
        · exact done_wf e hwf
      · exact done_wf e hwf

theorem execRemoteRefusal_wf {id : Nat} {_absent : Bool} {s : State} {res : State}
    (e : execRemoteRefusal id _absent s = .next res)
    (hwf : Memory.wf s.mem = true) : Memory.wf res.mem = true := by
  unfold execRemoteRefusal at e
  split at e
  · exact done_wf e hwf
  · next f _ =>
    split at e
    · split at e
      · dsimp only at e
        split at e
        · exact done_wf e (by rw [finishFlight_mem, countLate_mem]; exact hwf)
        · refine done_wf e ?_
          rw [finishFlight_mem]
          cases f.acc <;> dsimp only
          · exact hwf
          · exact refuseStore_wf _ _ _ _ _ hwf
          · rw [onThread_mem]; exact logEntry_wf _ _ _ _ _ _ hwf
          · exact refuseStore_wf _ _ _ _ _ hwf
      · exact done_wf e hwf
    · exact done_wf e hwf

theorem execPfetch_wf {x : BitVec 8} {a : BitVec 4} {k : BitVec 4} {st : State} {res : State}
    (e : execPfetch x a k st = .next res)
    (hwf : Memory.wf st.mem = true) : Memory.wf res.mem = true := by
  unfold execPfetch at e; unfold cacheForm at e
  refine issueThread_wf (fun x u hx => ?_) e hwf
  dsimp only
  (repeat' split) <;> first | trivial | (intro p hp s hs; grind [foldl_mem, foldl_wf, fillL1_mem])

theorem execCinval_wf {x : BitVec 8} {a : BitVec 4} {k : BitVec 4} {st : State} {res : State}
    (e : execCinval x a k st = .next res)
    (hwf : Memory.wf st.mem = true) : Memory.wf res.mem = true := by
  unfold execCinval at e; unfold cacheForm at e
  refine issueThread_wf (fun x u hx => ?_) e hwf
  dsimp only
  (repeat' split) <;> first | trivial | (intro p hp s hs; grind [foldl_mem, foldl_wf])

theorem execPfetchL2_wf {x : BitVec 8} {a : BitVec 4} {k : BitVec 4} {st : State} {res : State}
    (e : execPfetchL2 x a k st = .next res)
    (hwf : Memory.wf st.mem = true) : Memory.wf res.mem = true := by
  unfold execPfetchL2 at e; unfold cacheForm at e
  refine issueThread_wf (fun x u hx => ?_) e hwf
  dsimp only
  (repeat' split) <;> first | trivial | (intro p hp s hs; grind [foldl_mem, foldl_wf])

theorem execFenceRel_wf {m : BitVec 8} {st : State} {res : State} (e : execFenceRel m st = .next res)
    (hwf : Memory.wf st.mem = true) : Memory.wf res.mem = true := by
  unfold execFenceRel at e
  refine issueThread_wf (fun x u hx => ?_) e hwf
  exact noPost_keeps _ _

theorem execFenceAcq_wf  {st : State} {res : State} (e : execFenceAcq  st = .next res)
    (hwf : Memory.wf st.mem = true) : Memory.wf res.mem = true := by
  unfold execFenceAcq at e
  refine issueThread_wf (fun x u hx => ?_) e hwf
  exact post_keeps _ _ _ fun s hs => hs

theorem execFenceFull_wf {m : BitVec 8} {st : State} {res : State} (e : execFenceFull m st = .next res)
    (hwf : Memory.wf st.mem = true) : Memory.wf res.mem = true := by
  unfold execFenceFull at e
  refine issueThread_wf (fun x u hx => ?_) e hwf
  exact post_keeps _ _ _ fun s hs => hs

theorem execMwait_wf {t : BitVec 6} {x : BitVec 8} {a : BitVec 4} {c : BitVec 3} {k : BitVec 4} {st : State}
    {res : State} (e : execMwait t x a c k st = .next res)
    (hwf : Memory.wf st.mem = true) : Memory.wf res.mem = true := by
  unfold execMwait at e
  refine issueThread_wf (fun x u hx => ?_) e hwf
  dsimp only
  (repeat' split) <;> first | exact noPost_keeps _ _ | exact fault_keeps _ _ | exact aluOp_keeps _ _ _ _ _ _ | exact predOp_keeps _ _ _ _ | exact fpFinish_keeps _ _ _ _ _ | exact goTo_keeps _ _ _ | (refine posts2_keeps _ _ _ _ (fun s hs => ?_) (fun s hs => ?_) <;> grind [acquirePost_wf, foldl_mem, foldl_wf, logEntry_wf])

theorem execMonitorWake_wf {wg : Nat} {tid : Nat} {s : State} {res : State} (e : execMonitorWake wg tid s = .next res)
    (hwf : Memory.wf s.mem = true) : Memory.wf res.mem = true := by
  unfold execMonitorWake at e
  (repeat' split at e) <;> first | exact done_wf e hwf | (refine done_wf e ?_; first | exact hwf | grind [foldl_mem, foldl_wf, wakeMonitor_wf])

theorem execMonitorPoll_wf {wg : Nat} {tid : Nat} {s : State} {res : State} (e : execMonitorPoll wg tid s = .next res)
    (hwf : Memory.wf s.mem = true) : Memory.wf res.mem = true := by
  unfold execMonitorPoll at e
  dsimp only at e
  (repeat' split at e) <;> (refine done_wf e ?_; grind [foldl_mem, foldl_wf, advanceFree_mem, wakeMonitor_wf])

theorem execTbarInit_wf {t : BitVec 7} {x : BitVec 8} {a : BitVec 4} {k : BitVec 4} {st : State} {res : State}
    (e : execTbarInit t x a k st = .next res)
    (hwf : Memory.wf st.mem = true) : Memory.wf res.mem = true := by
  unfold execTbarInit at e
  refine issueThread_wf (fun x u hx => ?_) e hwf
  dsimp only
  (repeat' split) <;> first | trivial | (intro p hp s hs; grind [foldl_mem, foldl_wf, perform_wf])

theorem execTbarArrive_wf {t : BitVec 7} {x : BitVec 8} {a : BitVec 4} {k : BitVec 4} {st : State} {res : State}
    (e : execTbarArrive t x a k st = .next res)
    (hwf : Memory.wf st.mem = true) : Memory.wf res.mem = true := by
  unfold execTbarArrive at e
  refine issueThread_wf (fun x u hx => ?_) e hwf
  dsimp only
  (repeat' split) <;> first | trivial | (intro p hp s hs; grind [foldl_mem, foldl_wf, onThread_mem, tbarAdd_wf])

theorem execTbarExpect_wf {t : BitVec 7} {x : BitVec 8} {a : BitVec 4} {k : BitVec 4} {st : State} {res : State}
    (e : execTbarExpect t x a k st = .next res)
    (hwf : Memory.wf st.mem = true) : Memory.wf res.mem = true := by
  unfold execTbarExpect at e
  refine issueThread_wf (fun x u hx => ?_) e hwf
  dsimp only
  (repeat' split) <;> first | trivial | (intro p hp s hs; grind [foldl_mem, foldl_wf, tbarAdd_wf])

theorem execTbarWait_wf {t : BitVec 7} {x : BitVec 8} {a : BitVec 4} {k : BitVec 4} {st : State} {res : State}
    (e : execTbarWait t x a k st = .next res)
    (hwf : Memory.wf st.mem = true) : Memory.wf res.mem = true := by
  unfold execTbarWait at e
  refine issueThread_wf (fun x u hx => ?_) e hwf
  dsimp only
  split
  · split
    · exact post_keeps _ _ _ fun s hs => hs
    · exact noPost_keeps _ _
  · exact fault_keeps _ _
  · exact fault_keeps _ _

theorem execTbarTest_wf {t : BitVec 7} {x : BitVec 8} {a : BitVec 4} {k : BitVec 4} {st : State} {res : State}
    (e : execTbarTest t x a k st = .next res)
    (hwf : Memory.wf st.mem = true) : Memory.wf res.mem = true := by
  unfold execTbarTest at e
  refine issueThread_wf (fun x u hx => ?_) e hwf
  dsimp only
  (repeat' split) <;> first | trivial | (intro p hp s hs; grind [foldl_mem, foldl_wf, dropUnowned_mem, logEntry_wf])

theorem execCld_wf {d : BitVec 6} {a : BitVec 4} {z : BitVec 2} {i : BitVec 14} {st : State} {res : State}
    (e : execCld d a z i st = .next res)
    (hwf : Memory.wf st.mem = true) : Memory.wf res.mem = true := by
  unfold execCld at e
  refine issueUniform_wf (fun x hx => ?_) e hwf
  dsimp only
  (repeat' split) <;> first | trivial | (simp only [uactKeeps]; grind [foldl_mem, foldl_wf, put_mem, readLoc_mem])

theorem execCst_wf {d : BitVec 6} {a : BitVec 4} {z : BitVec 2} {i : BitVec 14} {st : State} {res : State}
    (e : execCst d a z i st = .next res)
    (hwf : Memory.wf st.mem = true) : Memory.wf res.mem = true := by
  unfold execCst at e
  refine issueUniform_wf (fun x hx => ?_) e hwf
  dsimp only
  (repeat' split) <;> trivial

theorem execTbld_wf {d : BitVec 6} {a : BitVec 8} {b : BitVec 8} {st : State} {res : State}
    (e : execTbld d a b st = .next res)
    (hwf : Memory.wf st.mem = true) : Memory.wf res.mem = true := by
  unfold execTbld at e
  refine issueUniform_wf (fun x hx => ?_) e hwf
  simp only [uactKeeps, put_mem]
  split
  · rw [tbldPut_mem]; exact hx
  · exact hx

theorem execTbinv_wf {d : BitVec 6} {a : BitVec 8} {b : BitVec 8} {st : State} {res : State}
    (e : execTbinv d a b st = .next res)
    (hwf : Memory.wf st.mem = true) : Memory.wf res.mem = true := by
  unfold execTbinv at e
  refine issueUniformThen_wf (fun x n s1 hq hx => ?_) (fun x hx => ?_) e hwf
  · grind [foldl_mem, foldl_wf, put_mem, tlbSetAt_mem]
  · dsimp only
    first | trivial | (simp only [uactKeeps]; grind [foldl_mem, foldl_wf, put_mem, tlbSetAt_mem])

theorem execTbq_wf {d : BitVec 6} {a : BitVec 8} {b : BitVec 8} {st : State} {res : State} (e : execTbq d a b st = .next res)
    (hwf : Memory.wf st.mem = true) : Memory.wf res.mem = true := by
  unfold execTbq at e
  refine issueUniform_wf (fun x hx => ?_) e hwf
  dsimp only
  (repeat' split) <;> trivial

theorem execTagq_wf {d : BitVec 6} {a : BitVec 8} {b : BitVec 8} {st : State} {res : State}
    (e : execTagq d a b st = .next res)
    (hwf : Memory.wf st.mem = true) : Memory.wf res.mem = true := by
  unfold execTagq at e
  refine issueUniform_wf (fun x hx => ?_) e hwf
  dsimp only
  (repeat' split) <;> trivial

theorem execFresume_wf {d : BitVec 6} {a : BitVec 8} {b : BitVec 8} {st : State} {res : State}
    (e : execFresume d a b st = .next res)
    (hwf : Memory.wf st.mem = true) : Memory.wf res.mem = true := by
  unfold execFresume at e; unfold statusForm at e
  refine issueUniform_wf (fun x hx => ?_) e hwf
  dsimp only
  (repeat' split) <;> first | trivial | (simp only [uactKeeps]; grind [foldl_mem, foldl_wf, postRecords_mem, put_mem, releaseAt_mem, resumeAt_mem, terminate_wf])

theorem cntForm_wf {i : Instr} {n : Nat} {cnt : Nat} {id : BitVec 8} {op : Nat → Thread → Thread} {st : State}
    {res : State} (e : cntForm i n cnt id op st = .next res)
    (hwf : Memory.wf st.mem = true) : Memory.wf res.mem = true := by
  unfold cntForm at e
  refine issueThread_wf (fun x u hx => ?_) e hwf
  exact noPost_keeps _ _

theorem execCntrdLo_wf {d : BitVec 7} {i : BitVec 8} {st : State} {res : State} (e : execCntrdLo d i st = .next res)
    (hwf : Memory.wf st.mem = true) : Memory.wf res.mem = true := by
  unfold execCntrdLo at e
  refine issueThread_wf (fun x u hx => ?_) e hwf
  dsimp only
  first | trivial | (intro p hp; simp at hp; done)

theorem execCntrdHi_wf {d : BitVec 7} {i : BitVec 8} {st : State} {res : State} (e : execCntrdHi d i st = .next res)
    (hwf : Memory.wf st.mem = true) : Memory.wf res.mem = true := by
  unfold execCntrdHi at e
  refine issueThread_wf (fun x u hx => ?_) e hwf
  dsimp only
  (repeat' split) <;> first | trivial | (intro p hp; simp at hp; done)

theorem execCntrd_wf {d : BitVec 6} {i : BitVec 8} {st : State} {res : State} (e : execCntrd d i st = .next res)
    (hwf : Memory.wf st.mem = true) : Memory.wf res.mem = true := by
  unfold execCntrd at e
  refine issueThread_wf (fun x u hx => ?_) e hwf
  dsimp only
  first | trivial | (intro p hp; simp at hp; done)

theorem execCntsel_wf {i : BitVec 8} {a : BitVec 8} {st : State} {res : State} (e : execCntsel i a st = .next res)
    (hwf : Memory.wf st.mem = true) : Memory.wf res.mem = true := by
  unfold execCntsel at e
  refine issueThread_wf (fun x u hx => ?_) e hwf
  dsimp only
  (repeat' split) <;> first | trivial | (intro p hp s hs; grind [foldl_mem, foldl_wf, onCtr_mem])

theorem execCntz_wf {i : BitVec 8} {st : State} {res : State} (e : execCntz i st = .next res)
    (hwf : Memory.wf st.mem = true) : Memory.wf res.mem = true := by
  unfold execCntz at e
  refine issueThread_wf (fun x u hx => ?_) e hwf
  exact post_keeps _ _ _ fun s hs => hs

theorem execNumrd_wf {d : BitVec 6} {i : BitVec 8} {a : BitVec 8} {st : State} {res : State}
    (e : execNumrd d i a st = .next res)
    (hwf : Memory.wf st.mem = true) : Memory.wf res.mem = true := by
  unfold execNumrd at e
  refine issueThread_wf (fun x u hx => ?_) e hwf
  dsimp only
  (repeat' split) <;> first | trivial | (intro p hp; simp at hp; done)

theorem execDbpset_wf {d : BitVec 6} {a : BitVec 8} {b : BitVec 8} {st : State} {res : State}
    (e : execDbpset d a b st = .next res)
    (hwf : Memory.wf st.mem = true) : Memory.wf res.mem = true := by
  unfold execDbpset at e; unfold statusForm at e
  refine issueUniform_wf (fun x hx => ?_) e hwf
  dsimp only
  (repeat' split) <;> trivial

theorem execDbpclr_wf {d : BitVec 6} {a : BitVec 8} {st : State} {res : State} (e : execDbpclr d a st = .next res)
    (hwf : Memory.wf st.mem = true) : Memory.wf res.mem = true := by
  unfold execDbpclr at e; unfold statusForm at e
  refine issueUniform_wf (fun x hx => ?_) e hwf
  dsimp only
  (repeat' split) <;> trivial

theorem execDhalt_wf {d : BitVec 6} {a : BitVec 8} {st : State} {res : State} (e : execDhalt d a st = .next res)
    (hwf : Memory.wf st.mem = true) : Memory.wf res.mem = true := by
  unfold execDhalt at e; unfold targetForm at e
  refine issueUniform_wf (fun x hx => ?_) e hwf
  dsimp only
  (repeat' split) <;> trivial

theorem execDresume_wf {d : BitVec 6} {a : BitVec 8} {b : BitVec 8} {st : State} {res : State}
    (e : execDresume d a b st = .next res)
    (hwf : Memory.wf st.mem = true) : Memory.wf res.mem = true := by
  unfold execDresume at e; unfold targetForm at e
  refine issueUniform_wf (fun x hx => ?_) e hwf
  dsimp only
  (repeat' split) <;> first | trivial | (simp only [uactKeeps]; grind [foldl_mem, foldl_wf, onWg_mem, put_mem, releaseAt_mem])

theorem execDwset_wf {d : BitVec 6} {a : BitVec 8} {b : BitVec 8} {st : State} {res : State}
    (e : execDwset d a b st = .next res)
    (hwf : Memory.wf st.mem = true) : Memory.wf res.mem = true := by
  unfold execDwset at e; unfold statusForm at e
  refine issueUniform_wf (fun x hx => ?_) e hwf
  dsimp only
  (repeat' split) <;> trivial

theorem execDstat_wf {d : BitVec 6} {a : BitVec 8} {st : State} {res : State} (e : execDstat d a st = .next res)
    (hwf : Memory.wf st.mem = true) : Memory.wf res.mem = true := by
  unfold execDstat at e; unfold targetForm at e
  refine issueUniform_wf (fun x hx => ?_) e hwf
  dsimp only
  (repeat' split) <;> trivial

theorem execTrace_wf {d : BitVec 6} {a : BitVec 8} {b : BitVec 8} {st : State} {res : State}
    (e : execTrace d a b st = .next res)
    (hwf : Memory.wf st.mem = true) : Memory.wf res.mem = true := by
  unfold execTrace at e; unfold targetForm at e
  refine issueUniform_wf (fun x hx => ?_) e hwf
  dsimp only
  (repeat' split) <;> trivial

theorem execDstep_wf {d : BitVec 6} {a : BitVec 8} {b : BitVec 8} {st : State} {res : State}
    (e : execDstep d a b st = .next res)
    (hwf : Memory.wf st.mem = true) : Memory.wf res.mem = true := by
  unfold execDstep at e
  refine issueUniformThen_wf (fun x n s1 hq hx => ?_) (fun x hx => ?_) e hwf
  · grind [foldl_mem, foldl_wf, beginStep_mem, endStep_mem, leaveEntries_mem, onThread_mem, put_mem, raise_wf]
  · dsimp only
    simp only [uactKeeps, put_mem]
    (repeat' split) <;> first
      | exact hx
      | (simp only [endStep_mem]; exact hx)
      | (refine raiseFetch_wf _ _ _ _ ?_; rw [onThread_mem, leaveEntries_mem]; exact hx)

theorem execDpcrd_wf {d : BitVec 6} {a : BitVec 8} {b : BitVec 8} {st : State} {res : State}
    (e : execDpcrd d a b st = .next res)
    (hwf : Memory.wf st.mem = true) : Memory.wf res.mem = true := by
  unfold execDpcrd at e
  refine issueUniform_wf (fun x hx => ?_) e hwf
  dsimp only
  (repeat' split) <;> trivial

theorem execRunSelect_wf {core : Nat} {port : Nat} {s : State} {res : State} (e : execRunSelect core port s = .next res)
    (hwf : Memory.wf s.mem = true) : Memory.wf res.mem = true := by
  unfold execRunSelect at e
  dsimp only at e
  (repeat' split at e) <;> (refine done_wf e ?_; grind [foldl_mem, foldl_wf, takeCandidate_wf])

theorem execRunPortRound_wf {core : Nat} {s : State} {res : State} (e : execRunPortRound core s = .next res)
    (hwf : Memory.wf s.mem = true) : Memory.wf res.mem = true := by
  unfold execRunPortRound at e
  exact done_wf e hwf

theorem execSleepExpiry_wf {wg : Nat} {tid : Nat} {s : State} {res : State} (e : execSleepExpiry wg tid s = .next res)
    (hwf : Memory.wf s.mem = true) : Memory.wf res.mem = true := by
  unfold execSleepExpiry at e
  (repeat' split at e) <;> exact done_wf e hwf

theorem execBarrierArrival_wf {wg : Nat} {tid : Nat} {s : State} {res : State} (e : execBarrierArrival wg tid s = .next res)
    (hwf : Memory.wf s.mem = true) : Memory.wf res.mem = true := by
  unfold execBarrierArrival at e
  (repeat' split at e) <;> first | exact done_wf e hwf | (refine done_wf e ?_; first | exact hwf | grind [foldl_mem, foldl_wf, advanceFree_mem, countArrival_wf])

theorem execGuardRollback_wf {wg : Nat} {s : State} {res : State} (e : execGuardRollback wg s = .next res)
    (hwf : Memory.wf s.mem = true) : Memory.wf res.mem = true := by
  unfold execGuardRollback at e
  dsimp only at e
  (repeat' split at e) <;> (refine done_wf e ?_; grind [foldl_mem, foldl_wf, restoreShadow_wf])

theorem execTwinSignatureExchange_wf {wg : Nat} {s : State} {res : State} (e : execTwinSignatureExchange wg s = .next res)
    (hwf : Memory.wf s.mem = true) : Memory.wf res.mem = true := by
  unfold execTwinSignatureExchange at e
  dsimp only at e
  (repeat' split at e) <;> (refine done_wf e ?_; grind [foldl_mem, foldl_wf, advanceFree_mem, twinsAgree_wf, twinsDiffer_wf])

theorem execWorkgroupRetire_wf {wg : Nat} {s : State} {res : State} (e : execWorkgroupRetire wg s = .next res)
    (hwf : Memory.wf s.mem = true) : Memory.wf res.mem = true := by
  unfold execWorkgroupRetire at e
  (repeat' split at e) <;> first | exact done_wf e hwf | (refine done_wf e ?_; first | exact hwf | grind [foldl_mem, foldl_wf, advanceFree_mem, boundary_wf, retireWg_wf])

theorem execWorkgroupSettled_wf {wg : Nat} {s : State} {res : State} (e : execWorkgroupSettled wg s = .next res)
    (hwf : Memory.wf s.mem = true) : Memory.wf res.mem = true := by
  unfold execWorkgroupSettled at e
  (repeat' split at e) <;> exact done_wf e hwf

theorem execCoreCycle_wf {die : Nat} {s : State} {res : State} (e : execCoreCycle die s = .next res)
    (hwf : Memory.wf s.mem = true) : Memory.wf res.mem = true := by
  unfold execCoreCycle at e
  (repeat' split at e) <;> first | exact done_wf e hwf | (refine done_wf e ?_; first | exact hwf | grind [foldl_mem, foldl_wf, flushLog_wf, onDie_mem, wgCycle_mem])

theorem execUnclaimedEncoding_wf {word : BitVec 32} {s : State} {res : State} (e : execUnclaimedEncoding word s = .next res)
    (hwf : Memory.wf s.mem = true) : Memory.wf res.mem = true := by
  unfold execUnclaimedEncoding at e
  split at e
  · exact issueHintWord_wf e hwf
  · split at e
    · refine issueUniform_wf (fun x hx => ?_) e hwf
      exact hx
    · refine issueThread_wf (fun x u hx => ?_) e hwf
      exact noPost_keeps _ _

theorem execCopyComplete_wf {id : Nat} {s : State} {res : State} (e : execCopyComplete id s = .next res)
    (hwf : Memory.wf s.mem = true) : Memory.wf res.mem = true := by
  unfold execCopyComplete at e
  (repeat' split at e) <;> first | exact done_wf e hwf | (refine done_wf e ?_; first | exact hwf | grind [foldl_mem, foldl_wf, advanceFree_mem, enterTargets_mem, landCopy_wf, runCopy_wf, tellTwin_mem])

theorem execCopySuspend_wf {id : Nat} {s : State} {res : State} (e : execCopySuspend id s = .next res)
    (hwf : Memory.wf s.mem = true) : Memory.wf res.mem = true := by
  unfold execCopySuspend at e
  (repeat' split at e) <;> first | exact done_wf e hwf | (refine done_wf e ?_; first | exact hwf | grind [foldl_mem, foldl_wf, advanceFree_mem, count_mem, enterTargets_mem, onCopy_mem, postFault_mem, runCopy_wf, toLanding_mem])

theorem execBankInboundWrite_wf {id : Nat} {s : State} {res : State} (e : execBankInboundWrite id s = .next res)
    (hwf : Memory.wf s.mem = true) : Memory.wf res.mem = true := by
  unfold execBankInboundWrite at e
  (repeat' split at e) <;> first | exact done_wf e hwf | (refine done_wf e ?_; first | exact hwf | grind [foldl_mem, foldl_wf, dropAt_mem, onCopy_mem, perform_wf])

theorem copyForm_wf {i : Instr} {form : CopyForm} {ab : BitVec 4} {sc : BitVec 8} {fs : BitVec 4} {col : BitVec 3}
    {mode : BitVec 2} {st : State} {res : State} (e : copyForm i form ab sc fs col mode st = .next res)
    (hwf : Memory.wf st.mem = true) : Memory.wf res.mem = true := by
  unfold copyForm at e
  dsimp only at e
  split at e
  · refine issueThread_wf (fun x u hx => ?_) e hwf
    split
    · exact fault_keeps _ _
    · exact post_keeps _ _ _ fun s hs => by rw [installCopy_mem, afterRecords_mem]; exact hs
  · refine issueUniform_wf (fun x hx => ?_) e hwf
    split
    · trivial
    · next h => simp only [uactKeeps, installCopy_mem, counter_mem]; rw [copyPlan_mem _ _ _ _ _ _ _ _ _ h]; exact hx

theorem execCopyT_wf {a : BitVec 4} {s : BitVec 8} {f : BitVec 4} {c : BitVec 3} {m : BitVec 2} {st : State}
    {res : State} (e : execCopyT a s f c m st = .next res)
    (hwf : Memory.wf st.mem = true) : Memory.wf res.mem = true :=
  copyForm_wf e hwf

theorem execCopyG_wf {a : BitVec 4} {s : BitVec 8} {f : BitVec 4} {c : BitVec 3} {m : BitVec 2} {st : State}
    {res : State} (e : execCopyG a s f c m st = .next res)
    (hwf : Memory.wf st.mem = true) : Memory.wf res.mem = true :=
  copyForm_wf e hwf

theorem execCopyS_wf {a : BitVec 4} {s : BitVec 8} {f : BitVec 4} {c : BitVec 3} {m : BitVec 2} {st : State}
    {res : State} (e : execCopyS a s f c m st = .next res)
    (hwf : Memory.wf st.mem = true) : Memory.wf res.mem = true :=
  copyForm_wf e hwf

theorem execCopyMc_wf {a : BitVec 4} {s : BitVec 8} {f : BitVec 4} {c : BitVec 3} {m : BitVec 2} {st : State}
    {res : State} (e : execCopyMc a s f c m st = .next res)
    (hwf : Memory.wf st.mem = true) : Memory.wf res.mem = true :=
  copyForm_wf e hwf

theorem execCopyWb_wf {a : BitVec 4} {s : BitVec 8} {f : BitVec 4} {c : BitVec 3} {m : BitVec 2} {st : State}
    {res : State} (e : execCopyWb a s f c m st = .next res)
    (hwf : Memory.wf st.mem = true) : Memory.wf res.mem = true :=
  copyForm_wf e hwf

theorem execCopyFill_wf {a : BitVec 4} {s : BitVec 8} {f : BitVec 4} {c : BitVec 3} {st : State} {res : State}
    (e : execCopyFill a s f c st = .next res)
    (hwf : Memory.wf st.mem = true) : Memory.wf res.mem = true :=
  copyForm_wf e hwf

theorem execCresume_wf {s : BitVec 8} {st : State} {res : State} (e : execCresume s st = .next res)
    (hwf : Memory.wf st.mem = true) : Memory.wf res.mem = true := by
  unfold execCresume at e; unfold slotForm at e
  refine issueUniform_wf (fun x hx => ?_) e hwf
  dsimp only
  (repeat' split) <;> trivial

theorem execCcancel_wf {s : BitVec 8} {st : State} {res : State} (e : execCcancel s st = .next res)
    (hwf : Memory.wf st.mem = true) : Memory.wf res.mem = true := by
  unfold execCcancel at e; unfold slotForm at e
  refine issueUniform_wf (fun x hx => ?_) e hwf
  dsimp only
  (repeat' split) <;> first
    | trivial
    | exact hx
    | (simp only [uactKeeps, put_mem]; exact landCopy_wf _ _ (by rw [tellTwin_mem, toLanding_mem]; exact hx))

theorem execSegmentGrant_wf {quad : Nat} {s : State} {res : State} (e : execSegmentGrant quad s = .next res)
    (hwf : Memory.wf s.mem = true) : Memory.wf res.mem = true := by
  unfold execSegmentGrant at e
  (repeat' split at e) <;> exact done_wf e hwf

theorem execSegmentEnd_wf {quad : Nat} {s : State} {res : State} (e : execSegmentEnd quad s = .next res)
    (hwf : Memory.wf s.mem = true) : Memory.wf res.mem = true := by
  unfold execSegmentEnd at e
  (repeat' split at e) <;> first | exact done_wf e hwf | (refine done_wf e ?_; first | exact hwf | grind [foldl_mem, foldl_wf, count_mem, onMatop_mem, runSegment_mem])

theorem execMatrixOpComplete_wf {id : Nat} {s : State} {res : State} (e : execMatrixOpComplete id s = .next res)
    (hwf : Memory.wf s.mem = true) : Memory.wf res.mem = true := by
  unfold execMatrixOpComplete at e
  (repeat' split at e) <;> first | exact done_wf e hwf | (refine done_wf e ?_; first | exact hwf | grind [foldl_mem, foldl_wf, drainMatrix_mem, matRecord_wf, onMatop_mem, transfer_wf])

theorem execFollowOnEnqueue_wf {id : Nat} {s : State} {res : State} (e : execFollowOnEnqueue id s = .next res)
    (hwf : Memory.wf s.mem = true) : Memory.wf res.mem = true := by
  unfold execFollowOnEnqueue at e
  dsimp only at e
  (repeat' split at e) <;> (refine done_wf e ?_; grind [foldl_mem, foldl_wf, enqueueOp_mem, sealCopy_wf])

theorem execMdesc_wf {c : BitVec 6} {s : BitVec 4} {st : State} {res : State} (e : execMdesc c s st = .next res)
    (hwf : Memory.wf st.mem = true) : Memory.wf res.mem = true := by
  unfold execMdesc at e
  refine issueUniform_wf (fun x hx => ?_) e hwf
  (repeat' split) <;> trivial

theorem execMma_wf {s : BitVec 4} {st : State} {res : State} (e : execMma s st = .next res)
    (hwf : Memory.wf st.mem = true) : Memory.wf res.mem = true := by
  unfold execMma at e
  refine issueUniform_wf (fun x hx => ?_) e hwf
  dsimp only
  split
  · trivial
  · simp only [uactKeeps, enqueue_mem]; exact hx

theorem accForm_wf {i : Instr} {kind : MatKind} {c : BitVec 6} {st : State} {res : State}
    (e : accForm i kind c st = .next res)
    (hwf : Memory.wf st.mem = true) : Memory.wf res.mem = true := by
  unfold accForm at e
  refine issueUniform_wf (fun x hx => ?_) e hwf
  dsimp only
  (repeat' split) <;> trivial

theorem execAccrd_wf {c : BitVec 6} {st : State} {res : State} (e : execAccrd c st = .next res)
    (hwf : Memory.wf st.mem = true) : Memory.wf res.mem = true := by
  unfold execAccrd at e
  refine issueUniform_wf (fun x hx => ?_) e hwf
  dsimp only
  (repeat' split) <;> trivial

theorem execAccwr_wf {c : BitVec 6} {st : State} {res : State} (e : execAccwr c st = .next res)
    (hwf : Memory.wf st.mem = true) : Memory.wf res.mem = true := by
  unfold execAccwr at e
  refine issueUniform_wf (fun x hx => ?_) e hwf
  dsimp only
  (repeat' split) <;> trivial

theorem execAccscl_wf {c : BitVec 6} {st : State} {res : State} (e : execAccscl c st = .next res)
    (hwf : Memory.wf st.mem = true) : Memory.wf res.mem = true := by
  unfold execAccscl at e
  refine issueUniform_wf (fun x hx => ?_) e hwf
  dsimp only
  (repeat' split) <;> trivial

theorem execAccz_wf {c : BitVec 6} {st : State} {res : State} (e : execAccz c st = .next res)
    (hwf : Memory.wf st.mem = true) : Memory.wf res.mem = true := by
  unfold execAccz at e
  refine issueUniform_wf (fun x hx => ?_) e hwf
  dsimp only
  (repeat' split) <;> trivial

theorem execWbinv_wf {a : BitVec 4} {m : BitVec 8} {st : State} {res : State} (e : execWbinv a m st = .next res)
    (hwf : Memory.wf st.mem = true) : Memory.wf res.mem = true := by
  unfold execWbinv at e
  refine issueUniform_wf (fun x hx => ?_) e hwf
  dsimp only
  (repeat' split) <;> trivial

theorem execMstat_wf {c : BitVec 6} {s : BitVec 8} {st : State} {res : State} (e : execMstat c s st = .next res)
    (hwf : Memory.wf st.mem = true) : Memory.wf res.mem = true := by
  unfold execMstat at e
  refine issueUniform_wf (fun x hx => ?_) e hwf
  exact hx

theorem collForm_wf {i : Instr} {fn : Nat} {ab : BitVec 4} {sc : BitVec 8} {col : BitVec 3} {st : State} {res : State}
    (e : collForm i fn ab sc col st = .next res)
    (hwf : Memory.wf st.mem = true) : Memory.wf res.mem = true := by
  unfold collForm at e
  dsimp only at e
  split at e
  · refine issueThread_wf (fun x u hx => ?_) e hwf
    split
    · exact fault_keeps _ _
    · refine post_keeps _ _ _ fun s hs => ?_
      split
      · next h => rw [installColl_mem, readAt_mem _ _ _ _ _ h]; exact hs
      · rw [installColl_mem]; exact hs
  · refine issueUniform_wf (fun x hx => ?_) e hwf
    split
    · trivial
    · next h => simp only [uactKeeps, installColl_mem, counter_mem]; rw [collPlan_mem _ _ _ _ _ _ _ h]; exact hx

theorem execCollAr_wf {a : BitVec 4} {s : BitVec 8} {c : BitVec 3} {st : State} {res : State}
    (e : execCollAr a s c st = .next res)
    (hwf : Memory.wf st.mem = true) : Memory.wf res.mem = true :=
  collForm_wf e hwf

theorem execCollRs_wf {a : BitVec 4} {s : BitVec 8} {c : BitVec 3} {st : State} {res : State}
    (e : execCollRs a s c st = .next res)
    (hwf : Memory.wf st.mem = true) : Memory.wf res.mem = true :=
  collForm_wf e hwf

theorem execCollAg_wf {a : BitVec 4} {s : BitVec 8} {c : BitVec 3} {st : State} {res : State}
    (e : execCollAg a s c st = .next res)
    (hwf : Memory.wf st.mem = true) : Memory.wf res.mem = true :=
  collForm_wf e hwf

theorem execCollBc_wf {a : BitVec 4} {s : BitVec 8} {c : BitVec 3} {st : State} {res : State}
    (e : execCollBc a s c st = .next res)
    (hwf : Memory.wf st.mem = true) : Memory.wf res.mem = true :=
  collForm_wf e hwf

theorem execCollContribution_wf {id : Nat} {s : State} {res : State} (e : execCollContribution id s = .next res)
    (hwf : Memory.wf s.mem = true) : Memory.wf res.mem = true := by
  unfold execCollContribution at e
  dsimp only at e
  (repeat' split at e) <;> (refine done_wf e ?_; grind [foldl_mem, foldl_wf, advanceFree_mem, endPhase_mem, onColl_mem, settlePhase_mem])

theorem execCollectiveComplete_wf {id : Nat} {s : State} {res : State} (e : execCollectiveComplete id s = .next res)
    (hwf : Memory.wf s.mem = true) : Memory.wf res.mem = true := by
  unfold execCollectiveComplete at e
  (repeat' split at e) <;> first | exact done_wf e hwf | (refine done_wf e ?_; first | exact hwf | grind [foldl_mem, foldl_wf, advanceFree_mem, sealColl_wf, settlePhase_mem, writePhys_wf])

theorem execPreempt_wf {g : Nat} {s : State} {res : State} (e : execPreempt g s = .next res)
    (hwf : Memory.wf s.mem = true) : Memory.wf res.mem = true := by
  unfold execPreempt at e
  (repeat' split at e) <;> first | exact done_wf e hwf | (refine done_wf e ?_; first | exact hwf | grind [foldl_mem, foldl_wf, beginPreempt_wf])

theorem execPreemptSave_wf {g : Nat} {s : State} {res : State} (e : execPreemptSave g s = .next res)
    (hwf : Memory.wf s.mem = true) : Memory.wf res.mem = true := by
  unfold execPreemptSave at e
  dsimp only at e
  (repeat' split at e) <;> (refine done_wf e ?_; grind [foldl_mem, foldl_wf, commitSave_wf])

theorem execGangPlace_wf {die : Nat} {s : State} {res : State} (e : execGangPlace die s = .next res)
    (hwf : Memory.wf s.mem = true) : Memory.wf res.mem = true := by
  unfold execGangPlace at e
  first | exact done_wf e hwf | (refine done_wf e ?_; first | exact hwf | grind [foldl_mem, foldl_wf, beginPreempt_wf, handBack_mem, markWaiting_mem, place_wf])

theorem execWorkSteal_wf {die : Nat} {s : State} {res : State} (e : execWorkSteal die s = .next res)
    (hwf : Memory.wf s.mem = true) : Memory.wf res.mem = true := by
  unfold execWorkSteal at e
  dsimp only at e
  (repeat' split at e) <;> (refine done_wf e ?_; grind [foldl_mem, foldl_wf])

theorem execPlacementReservation_wf {die : Nat} {s : State} {res : State} (e : execPlacementReservation die s = .next res)
    (hwf : Memory.wf s.mem = true) : Memory.wf res.mem = true := by
  unfold execPlacementReservation at e
  first | exact done_wf e hwf | (refine done_wf e ?_; first | exact hwf | grind [foldl_mem, foldl_wf, onGang_mem])

theorem execCalendarWrap_wf {die : Nat} {cls : Nat} {s : State} {res : State} (e : execCalendarWrap die cls s = .next res)
    (hwf : Memory.wf s.mem = true) : Memory.wf res.mem = true := by
  unfold execCalendarWrap at e
  dsimp only at e
  (repeat' split at e) <;> (refine done_wf e ?_; grind [foldl_mem, foldl_wf])

theorem execTimeSliceBoundary_wf {quad : Nat} {entry : Nat} {s : State} {res : State}
    (e : execTimeSliceBoundary quad entry s = .next res)
    (hwf : Memory.wf s.mem = true) : Memory.wf res.mem = true := by
  unfold execTimeSliceBoundary at e
  dsimp only at e
  (repeat' split at e) <;> (refine done_wf e ?_; grind [foldl_mem, foldl_wf, switchSlice_wf])

theorem execWatchdogExpiry_wf {l : Nat} {s : State} {res : State} (e : execWatchdogExpiry l s = .next res)
    (hwf : Memory.wf s.mem = true) : Memory.wf res.mem = true := by
  unfold execWatchdogExpiry at e
  (repeat' split at e) <;> first | exact done_wf e hwf | (refine done_wf e ?_; first | exact hwf | grind [foldl_mem, foldl_wf, stopLaunch_wf])

theorem execQueueCreate_wf {r : QueueReq} {s : State} {res : State} (e : execQueueCreate r s = .next res)
    (hwf : Memory.wf s.mem = true) : Memory.wf res.mem = true := by
  unfold execQueueCreate at e
  (repeat' split at e) <;> first | exact done_wf e hwf | (refine done_wf e ?_; first | exact hwf | grind [foldl_mem, foldl_wf, tell_mem, writeNat_wf, writeOut_wf])

theorem execQcbShadowWrite_wf {r : QueueReq} {s : State} {res : State} (e : execQcbShadowWrite r s = .next res)
    (hwf : Memory.wf s.mem = true) : Memory.wf res.mem = true := by
  unfold execQcbShadowWrite at e
  (repeat' split at e) <;> first | exact done_wf e hwf | (refine done_wf e ?_; first | exact hwf | grind [foldl_mem, foldl_wf, onQueue_mem, setQState_wf, tell_mem, writeOut_wf])

theorem execQueueMap_wf {q : Nat} {s : State} {res : State} (e : execQueueMap q s = .next res)
    (hwf : Memory.wf s.mem = true) : Memory.wf res.mem = true := by
  unfold execQueueMap at e
  (repeat' split at e) <;> first | exact done_wf e hwf | (refine done_wf e ?_; first | exact hwf | grind [foldl_mem, foldl_wf, mapQueue_wf])

theorem execQueueUnmap_wf {q : Nat} {s : State} {res : State} (e : execQueueUnmap q s = .next res)
    (hwf : Memory.wf s.mem = true) : Memory.wf res.mem = true := by
  unfold execQueueUnmap at e
  dsimp only at e
  (repeat' split at e) <;> (refine done_wf e ?_; grind [foldl_mem, foldl_wf, unmapQueue_wf])

theorem execCommandTake_wf {q : Nat} {s : State} {res : State} (e : execCommandTake q s = .next res)
    (hwf : Memory.wf s.mem = true) : Memory.wf res.mem = true := by
  unfold execCommandTake at e
  (repeat' split at e) <;> first | exact done_wf e hwf | (refine done_wf e ?_; first | exact hwf | grind [foldl_mem, foldl_wf, onQueue_mem, writeNat_wf])

theorem beginCmd_wf {qn : Nat} {takes : Nat → Bool} {run : State → Queue → Cmd → State} {s : State}
    (hrun : ∀ s q c, Memory.wf s.mem = true → Memory.wf (run s q c).mem = true) {res : State}
    (e : beginCmd qn takes run s = .next res)
    (hwf : Memory.wf s.mem = true) : Memory.wf res.mem = true := by
  unfold beginCmd at e
  (repeat' split at e) <;> first | exact done_wf e hwf | (refine done_wf e ?_; first | exact hwf | grind [foldl_mem, foldl_wf, completeCmd_wf])

theorem execLaunch_wf {q : Nat} {s : State} {res : State} (e : execLaunch q s = .next res)
    (hwf : Memory.wf s.mem = true) : Memory.wf res.mem = true := by
  unfold execLaunch at e
  refine beginCmd_wf (fun s q c hs => ?_) e hwf
  split
  · exact completeCmd_wf _ _ _ _ _ _ _ hs
  · exact tryLaunch_wf _ _ _ _ _ hs

theorem execLaunchPool_wf {q : Nat} {s : State} {res : State} (e : execLaunchPool q s = .next res)
    (hwf : Memory.wf s.mem = true) : Memory.wf res.mem = true := by
  unfold execLaunchPool at e
  refine beginCmd_wf (fun s q c hs => ?_) e hwf
  split
  · exact completeCmd_wf _ _ _ _ _ _ _ hs
  · split
    · exact completeCmd_wf _ _ _ _ _ _ _ hs
    · exact tryLaunch_wf _ _ _ _ _ hs

theorem execCopyq_wf {q : Nat} {s : State} {res : State} (e : execCopyq q s = .next res)
    (hwf : Memory.wf s.mem = true) : Memory.wf res.mem = true := by
  unfold execCopyq at e
  refine beginCmd_wf (fun s q c hs => ?_) e hwf
  split
  · exact hs
  · split
    · rw [advanceFree_mem]; exact completeCmd_wf _ _ _ _ _ _ _ hs
    · next s1 op h1 =>
      split
      · exact hs
      · rw [installCopy_mem, markBegun_mem, queueCopy_mem _ _ _ _ h1]; exact hs

theorem execSignalq_wf {q : Nat} {s : State} {res : State} (e : execSignalq q s = .next res)
    (hwf : Memory.wf s.mem = true) : Memory.wf res.mem = true := by
  have begin (st : State) (hs : Memory.wf st.mem = true) (e : execSignalq.beginSignal q st = .next res) :
      Memory.wf res.mem = true := by
    unfold execSignalq.beginSignal at e
    refine beginCmd_wf (fun s q c hs => ?_) e hs
    split
    · exact completeCmd_wf _ _ _ _ _ _ _ hs
    · exact signal_wf _ _ _ (by rw [markBegun_mem]; exact hs)
  unfold execSignalq at e
  split at e
  · split at e
    · exact begin _ hwf e
    · exact done_wf e (signal_wf _ _ _ hwf)
  · exact begin _ hwf e

theorem execWaitq_wf {q : Nat} {s : State} {res : State} (e : execWaitq q s = .next res)
    (hwf : Memory.wf s.mem = true) : Memory.wf res.mem = true := by
  unfold execWaitq at e
  refine beginCmd_wf (fun s q c hs => ?_) e hwf
  split
  · exact completeCmd_wf _ _ _ _ _ _ _ hs
  · split
    · exact completeCmd_wf _ _ _ _ _ _ _ hs
    · rw [markBegun_mem]; exact hs

theorem execWaitqComplete_wf {q : Nat} {s : State} {res : State} (e : execWaitqComplete q s = .next res)
    (hwf : Memory.wf s.mem = true) : Memory.wf res.mem = true := by
  unfold execWaitqComplete at e
  (repeat' split at e) <;> first | exact done_wf e hwf | (refine done_wf e ?_; first | exact hwf | grind [foldl_mem, foldl_wf, completeCmd_wf])

theorem execLaunchComplete_wf {l : Nat} {s : State} {res : State} (e : execLaunchComplete l s = .next res)
    (hwf : Memory.wf s.mem = true) : Memory.wf res.mem = true := by
  unfold execLaunchComplete at e
  (repeat' split at e) <;> first | exact done_wf e hwf | (refine done_wf e ?_; first | exact hwf | grind [foldl_mem, foldl_wf, finishLaunch_wf])

theorem execBucketTick_wf {p : Nat} {s : State} {res : State} (e : execBucketTick p s = .next res)
    (hwf : Memory.wf s.mem = true) : Memory.wf res.mem = true := by
  unfold execBucketTick at e
  first | exact done_wf e hwf | (refine done_wf e ?_; first | exact hwf | grind [foldl_mem, foldl_wf, dryQueue_wf, onQueue_mem])

theorem execLnchPool_wf {a : BitVec 4} {sc : BitVec 8} {st : State} {res : State} (e : execLnchPool a sc st = .next res)
    (hwf : Memory.wf st.mem = true) : Memory.wf res.mem = true := by
  unfold execLnchPool at e
  dsimp only at e
  split at e
  · refine issueThread_wf (fun x u hx => ?_) e hwf
    split
    · exact fault_keeps _ _
    · split
      · exact posts2_keeps _ _ _ _ (fun s hs => by rw [dropTwin_mem]; exact hs) (fun s hs => by rw [putStatus_mem]; exact hs)
      · intro p hp s hs
        simp only [List.mem_cons, List.not_mem_nil, or_false] at hp
        rcases hp with rfl | rfl | rfl
        · exact doAppend_wf _ _ _ _ _ _ _ _ _ hs
        · rw [handOver_mem]; exact hs
        · rw [putStatus_mem]; exact hs
  · refine issueUniform_wf (fun x hx => ?_) e hwf
    split
    · trivial
    · split
      · simp only [uactKeeps, put_mem, dropTwin_mem]; exact hx
      · simp only [uactKeeps, put_mem, handOver_mem]; exact doAppend_wf _ _ _ _ _ _ _ _ _ hx

theorem execLnchGo_wf {a : BitVec 4} {sc : BitVec 8} {st : State} {res : State} (e : execLnchGo a sc st = .next res)
    (hwf : Memory.wf st.mem = true) : Memory.wf res.mem = true := by
  unfold execLnchGo at e
  dsimp only at e
  split at e
  · refine issueThread_wf (fun x u hx => ?_) e hwf
    split
    · exact fault_keeps _ _
    · split
      · exact posts2_keeps _ _ _ _ (fun s hs => by rw [dropTwin_mem]; exact hs) (fun s hs => by rw [putStatus_mem]; exact hs)
      · exact post_keeps _ _ _ fun s hs => by
          rw [putStatus_mem, handOver_mem]; exact submit_wf _ _ _ _ hs
  · refine issueUniform_wf (fun x hx => ?_) e hwf
    split
    · trivial
    · next s1 bs h1 =>
      have hm : Memory.wf s1.mem = true := by rw [goCmd_mem _ _ _ _ h1]; exact hx
      split
      · simp only [uactKeeps, put_mem, dropTwin_mem]; exact hx
      · simp only [uactKeeps, put_mem, handOver_mem]; exact submit_wf _ _ _ _ hm

theorem replyWith_wf {s : State} {st : Nat} {res : State} (e : replyWith s st = .next res)
    (hwf : Memory.wf s.mem = true) : Memory.wf res.mem = true := by
  unfold replyWith at e
  exact done_wf e hwf

theorem giveUp_wf {s : State} {u : Res} {st : Nat} {res : State} (e : s.giveUp u st = .next res)
    (hwf : Memory.wf s.mem = true) : Memory.wf res.mem = true := by
  unfold State.giveUp at e
  exact replyWith_wf e (by rw [unquiet_mem]; exact hwf)

theorem asked_wf {s : State} {part : Nat} {act : Answer} {res : State} (e : s.asked part act = .next res)
    (h : act = .next res → Memory.wf res.mem = true) (hwf : Memory.wf s.mem = true) : Memory.wf res.mem = true := by
  unfold State.asked at e
  split at e
  · exact h e
  · exact done_wf e hwf

theorem grantFrom_wf {u : Res} {part : Nat} {s : State} {res : State} (e : s.grantFrom u part = .next res)
    (hwf : Memory.wf s.mem = true) : Memory.wf res.mem = true := by
  unfold State.grantFrom at e
  dsimp only at e
  (repeat' split at e) <;> first
    | exact giveUp_wf e hwf
    | exact replyWith_wf e (toHolding_wf _ _ _ _ _ hwf)
    | exact done_wf e (by rw [tryAgain_mem]; exact quietUnit_wf _ _ _ _ hwf)

theorem execGrant_wf {u : Res} {part : Nat} {s : State} {res : State} (e : execGrant u part s = .next res)
    (hwf : Memory.wf s.mem = true) : Memory.wf res.mem = true :=
  asked_wf e (fun e => grantFrom_wf e hwf) hwf

theorem revokeFrom_wf {u : Res} {s : State} {res : State} (e : s.revokeFrom u = .next res)
    (hwf : Memory.wf s.mem = true) : Memory.wf res.mem = true := by
  unfold State.revokeFrom at e
  dsimp only at e
  (repeat' split at e) <;> first
    | exact giveUp_wf e hwf
    | exact replyWith_wf e (toHolding_wf _ _ _ _ _ hwf)
    | exact done_wf e (by rw [tryAgain_mem]; exact quietUnit_wf _ _ _ _ hwf)

theorem execRevoke_wf {u : Res} {s : State} {res : State} (e : execRevoke u s = .next res)
    (hwf : Memory.wf s.mem = true) : Memory.wf res.mem = true :=
  asked_wf e (fun e => revokeFrom_wf e hwf) hwf

theorem bindFrom_wf {part : Nat} {b : BindReq} {t : Tag} {s : State} {res : State} (e : s.bindFrom part b t = .next res)
    (hwf : Memory.wf s.mem = true) : Memory.wf res.mem = true := by
  unfold State.bindFrom at e
  dsimp only at e
  (repeat' split at e) <;> first
    | exact giveUp_wf e hwf
    | exact done_wf e hwf
    | exact replyWith_wf e hwf
    | (refine replyWith_wf e ?_; grind [foldl_mem, foldl_wf, bindCalm_wf, bindOne_wf, tryAgain_mem])
    | (refine done_wf e ?_; grind [foldl_mem, foldl_wf, bindCalm_wf, bindOne_wf, tryAgain_mem])

theorem execBind_wf {b : BindReq} {q : BindFor} {s : State} {res : State} (e : execBind b q s = .next res)
    (hwf : Memory.wf s.mem = true) : Memory.wf res.mem = true :=
  asked_wf e (fun e => bindFrom_wf e hwf) hwf

theorem createFrom_wf {r : CreateReq} {s : State} {res : State} (e : s.createFrom r = .next res)
    (hwf : Memory.wf s.mem = true) : Memory.wf res.mem = true := by
  simp only [State.createFrom] at e
  split at e
  · exact replyWith_wf e (by rw [foldl_mem _ _ _ fun s b => unquiet_mem _ _ _ _]; exact hwf)
  · split at e
    · exact done_wf e (by rw [tryAgain_mem]; exact foldl_wf _ _ _ (fun s b hs => bindCalm_wf _ _ hs) hwf)
    · split at e
      · exact done_wf e (createTenant_wf _ _ _ hwf)
      · exact replyWith_wf e hwf

theorem execCreate_wf {r : CreateReq} {s : State} {res : State} (e : execCreate r s = .next res)
    (hwf : Memory.wf s.mem = true) : Memory.wf res.mem = true :=
  asked_wf e (fun e => createFrom_wf e hwf) hwf

theorem execRuntimeWavePlace_wf {t : Tag} {s : State} {res : State} (e : execRuntimeWavePlace t s = .next res)
    (hwf : Memory.wf s.mem = true) : Memory.wf res.mem = true := by
  unfold execRuntimeWavePlace at e
  (repeat' split at e) <;> first | exact done_wf e hwf | (refine done_wf e ?_; first | exact hwf | grind [foldl_mem, foldl_wf, startWave_wf])

theorem execRecall_wf {r : RecallReq} {s : State} {res : State} (e : execRecall r s = .next res)
    (hwf : Memory.wf s.mem = true) : Memory.wf res.mem = true := by
  unfold execRecall at e
  refine asked_wf e (fun e => ?_) hwf
  split at e
  · exact replyWith_wf e hwf
  · exact replyWith_wf e (by rw [onTenant_mem]; exact hwf)

theorem execRecallPost_wf {t : Tag} {s : State} {res : State} (e : execRecallPost t s = .next res)
    (hwf : Memory.wf s.mem = true) : Memory.wf res.mem = true := by
  unfold execRecallPost at e
  simp only [done] at e
  grind [foldl_mem, foldl_wf, postRecall_wf]

theorem execRelinq_wf {d : BitVec 6} {a : BitVec 8} {b : BitVec 8} {st : State} {res : State}
    (e : execRelinq d a b st = .next res)
    (hwf : Memory.wf st.mem = true) : Memory.wf res.mem = true := by
  unfold execRelinq at e
  refine issueUniformThen_wf (fun x n s1 hq hx => ?_) (fun x hx => ?_) e hwf
  · dsimp only at hq
    split at hq
    · simp only [Option.some.injEq, Prod.mk.injEq] at hq
      rw [← hq.2]; exact quietUnit_wf _ _ _ _ hx
    · simp at hq
  · dsimp only
    (repeat' split) <;> simp only [uactKeeps, put_mem] <;> first
      | (rw [unquiet_mem]; exact hx)
      | exact hx
      | (rw [credit_mem]; exact toHolding_wf _ _ _ _ _ hx)

theorem execRecallDeadline_wf {t : Tag} {seq : Nat} {s : State} {res : State} (e : execRecallDeadline t seq s = .next res)
    (hwf : Memory.wf s.mem = true) : Memory.wf res.mem = true := by
  unfold execRecallDeadline at e
  (repeat' split at e) <;> first | exact done_wf e hwf | (refine done_wf e ?_; first | exact hwf | grind [foldl_mem, foldl_wf, stepRecall_wf])

theorem seizeFrom_wf {t : Tag} {u : Res} {kept : Bool} {s : State} {res : State} (e : s.seizeFrom t u kept = .next res)
    (hwf : Memory.wf s.mem = true) : Memory.wf res.mem = true := by
  unfold State.seizeFrom at e
  dsimp only at e
  (repeat' split at e) <;> first
    | exact giveUp_wf e hwf
    | exact replyWith_wf e (seizeUnit_wf _ _ _ _ _ _ hwf)
    | exact done_wf e (by rw [tryAgain_mem]; exact quietUnit_wf _ _ _ _ hwf)

theorem execSeize_wf {t : Tag} {u : Res} {s : State} {res : State} (e : execSeize t u s = .next res)
    (hwf : Memory.wf s.mem = true) : Memory.wf res.mem = true :=
  asked_wf e (fun e => seizeFrom_wf e hwf) hwf

theorem execRack_wf {d : BitVec 6} {a : BitVec 8} {b : BitVec 8} {st : State} {res : State}
    (e : execRack d a b st = .next res)
    (hwf : Memory.wf st.mem = true) : Memory.wf res.mem = true := by
  unfold execRack at e
  refine issueUniformThen_wf (fun x n s1 hq hx => ?_) (fun x hx => ?_) e hwf
  · dsimp only at hq
    split at hq
    · split at hq
      · unfold Who.rackWait at hq
        split at hq
        · simp only [Option.some.injEq, Prod.mk.injEq] at hq
          rw [← hq.2]; exact seizeFor_wf _ _ _ _ hx
        · split at hq
          · simp at hq
          · simp only [Option.some.injEq, Prod.mk.injEq] at hq
            rw [← hq.2, onRecall_mem]; exact hx
      · simp at hq
    · simp at hq
  · simp only [uactKeeps, put_mem]
    (repeat' split) <;> simp only [rackClose_mem, closeRecall_mem] <;> exact hx

theorem execLossrd_wf {d : BitVec 6} {a : BitVec 8} {b : BitVec 8} {st : State} {res : State}
    (e : execLossrd d a b st = .next res)
    (hwf : Memory.wf st.mem = true) : Memory.wf res.mem = true := by
  unfold execLossrd at e
  refine issueUniform_wf (fun x hx => ?_) e hwf
  dsimp only
  first | trivial | (simp only [uactKeeps]; grind [foldl_mem, foldl_wf, lossrd_wf, put_mem])

theorem destroyFrom_wf {hyper : Bool} {part : Nat} {t : Tag} {s : State} {res : State}
    (e : s.destroyFrom hyper part t = .next res)
    (hwf : Memory.wf s.mem = true) : Memory.wf res.mem = true := by
  unfold State.destroyFrom at e
  dsimp only at e
  (repeat' split at e) <;> first
    | exact done_wf e hwf
    | exact replyWith_wf e hwf
    | (refine replyWith_wf e ?_; grind [foldl_mem, foldl_wf, beginDestroy_wf, finishDestroy_wf, tryAgain_mem])
    | (refine done_wf e ?_; grind [foldl_mem, foldl_wf, beginDestroy_wf, finishDestroy_wf, tryAgain_mem])

theorem execDestroy_wf {r : DestroyReq} {s : State} {res : State} (e : execDestroy r s = .next res)
    (hwf : Memory.wf s.mem = true) : Memory.wf res.mem = true :=
  asked_wf e (fun e => destroyFrom_wf e hwf) hwf

theorem execExportEntry_wf {e : ExportReq} {s : State} {res : State} (e : execExportEntry e s = .next res)
    (hwf : Memory.wf s.mem = true) : Memory.wf res.mem = true := by
  unfold execExportEntry at e
  (repeat' split at e) <;> exact done_wf e hwf

theorem execUnexportEntry_wf {e : ExportReq} {s : State} {res : State} (e : execUnexportEntry e s = .next res)
    (hwf : Memory.wf s.mem = true) : Memory.wf res.mem = true := by
  unfold execUnexportEntry at e
  (repeat' split at e) <;> exact done_wf e hwf

theorem execFaultRecordWrite_wf {tenant : Tag} {s : State} {res : State} (e : execFaultRecordWrite tenant s = .next res)
    (hwf : Memory.wf s.mem = true) : Memory.wf res.mem = true := by
  unfold execFaultRecordWrite at e
  split at e
  · exact done_wf e hwf
  · next t ht =>
    split at e
    · exact done_wf e hwf
    · next r rest hr =>
      split at e
      · have h := writeFault_wf s t r rest hwf
        generalize s.writeFault t r rest = s1 at e h
        exact done_wf e h
      · exact done_wf e hwf

theorem execDebugRecordWrite_wf {part : Nat} {s : State} {res : State} (e : execDebugRecordWrite part s = .next res)
    (hwf : Memory.wf s.mem = true) : Memory.wf res.mem = true := by
  unfold execDebugRecordWrite at e
  dsimp only at e
  (repeat' split at e) <;> (refine done_wf e ?_; grind [foldl_mem, foldl_wf, postFault_mem, writeDebug_wf])

theorem execPcSample_wf {tenant : Tag} {ctr : Nat} {s : State} {res : State} (e : execPcSample tenant ctr s = .next res)
    (hwf : Memory.wf s.mem = true) : Memory.wf res.mem = true := by
  unfold execPcSample at e
  (repeat' split at e) <;> exact done_wf e hwf

theorem execDeadlockScan_wf {s : State} {res : State} (e : execDeadlockScan s = .next res)
    (hwf : Memory.wf s.mem = true) : Memory.wf res.mem = true := by
  unfold execDeadlockScan at e
  first | exact done_wf e hwf | (refine done_wf e ?_; first | exact hwf | grind [foldl_mem, foldl_wf, place_wf, reportCycle_mem])

theorem execWorldLatchChange_wf {quad : Nat} {world : Nat} {s : State} {res : State}
    (e : execWorldLatchChange quad world s = .next res)
    (hwf : Memory.wf s.mem = true) : Memory.wf res.mem = true := by
  unfold execWorldLatchChange at e
  (repeat' split at e) <;> first | exact done_wf e hwf | (refine done_wf e ?_; first | exact hwf | grind [foldl_mem, foldl_wf, relatch_wf])

theorem execAgreeKey_wf {world : Nat} {s : State} {res : State} (e : execAgreeKey world s = .next res)
    (hwf : Memory.wf s.mem = true) : Memory.wf res.mem = true := by
  unfold execAgreeKey at e
  refine done_wf e ?_
  split <;> exact hwf

theorem execWorldActivate_wf {world : Nat} {s : State} {res : State} (e : execWorldActivate world s = .next res)
    (hwf : Memory.wf s.mem = true) : Memory.wf res.mem = true := by
  unfold execWorldActivate at e
  (repeat' split at e) <;> first
    | exact done_wf e hwf
    | exact done_wf e (by rw [tell_mem]; exact hwf)
    | exact done_wf e (by rw [tell_mem]; exact activate_wf _ _ hwf)

theorem execWorldRevoke_wf {world : Nat} {s : State} {res : State} (e : execWorldRevoke world s = .next res)
    (hwf : Memory.wf s.mem = true) : Memory.wf res.mem = true := by
  unfold execWorldRevoke at e
  (repeat' split at e) <;> first | exact done_wf e hwf | (refine done_wf e ?_; first | exact hwf | grind [foldl_mem, foldl_wf, beginRevoke_wf, finishRevoke_mem])

theorem execHandoverPrepare_wf {c : Ctx} {s : State} {res : State} (e : execHandoverPrepare c s = .next res)
    (hwf : Memory.wf s.mem = true) : Memory.wf res.mem = true := by
  unfold execHandoverPrepare at e
  (repeat' split at e) <;> first | exact done_wf e hwf | (refine done_wf e ?_; first | exact hwf | grind [foldl_mem, foldl_wf, beginPreempt_wf, onGang_mem, prepareFrames_wf])

theorem execHandoverCommit_wf {c : Ctx} {s : State} {res : State} (e : execHandoverCommit c s = .next res)
    (hwf : Memory.wf s.mem = true) : Memory.wf res.mem = true := by
  unfold execHandoverCommit at e
  (repeat' split at e) <;> first
    | exact done_wf e hwf
    | exact done_wf e (by rw [onGang_mem]; exact commitSave_wf _ _ hwf)
    | exact done_wf e (by rw [bumpEpoch_mem]; exact leaveCtx_wf _ _ hwf)

theorem execImageAccept_wf {img : SealedImage} {s : State} {res : State} (e : execImageAccept img s = .next res)
    (hwf : Memory.wf s.mem = true) : Memory.wf res.mem = true := by
  unfold execImageAccept at e
  (repeat' split at e) <;> first | exact done_wf e hwf | (refine done_wf e ?_; first | exact hwf | grind [foldl_mem, foldl_wf, openFrames_wf, tell_mem])

theorem execQuoteRequest_wf {nonce : List (BitVec 8)} {s : State} {res : State} (e : execQuoteRequest nonce s = .next res)
    (hwf : Memory.wf s.mem = true) : Memory.wf res.mem = true := by
  unfold execQuoteRequest at e
  (repeat' split at e) <;> exact done_wf e hwf

theorem execLockctlWrite_wf {x : BitVec 32} {s : State} {res : State} (e : execLockctlWrite x s = .next res)
    (hwf : Memory.wf s.mem = true) : Memory.wf res.mem = true := by
  unfold execLockctlWrite at e
  (repeat' split at e) <;> first | exact done_wf e hwf | (refine done_wf e ?_; first | exact hwf | grind [foldl_mem, foldl_wf, tell_mem, writeLockctl_mem])

theorem execCalWrite_wf {die : Nat} {cls : Nat} {idx : Nat} {x : BitVec 32} {s : State} {res : State}
    (e : execCalWrite die cls idx x s = .next res)
    (hwf : Memory.wf s.mem = true) : Memory.wf res.mem = true := by
  unfold execCalWrite at e
  (repeat' split at e) <;> first | exact done_wf e hwf | (refine done_wf e ?_; first | exact hwf | grind [foldl_mem, foldl_wf, tell_mem, writeCal_mem])

theorem execMcdropClear_wf {bank : Nat} {s : State} {res : State} (e : execMcdropClear bank s = .next res)
    (hwf : Memory.wf s.mem = true) : Memory.wf res.mem = true := by
  unfold execMcdropClear at e
  (repeat' split at e) <;> exact done_wf e hwf

theorem execCfgr_wf {d : BitVec 6} {a : BitVec 8} {st : State} {res : State} (e : execCfgr d a st = .next res)
    (hwf : Memory.wf st.mem = true) : Memory.wf res.mem = true := by
  unfold execCfgr at e
  refine issueUniform_wf (fun x hx => ?_) e hwf
  dsimp only
  (repeat' split) <;> trivial

theorem execCfgw_wf {d : BitVec 6} {a : BitVec 8} {b : BitVec 8} {st : State} {res : State}
    (e : execCfgw d a b st = .next res)
    (hwf : Memory.wf st.mem = true) : Memory.wf res.mem = true := by
  unfold execCfgw at e
  refine issueUniformThen_wf (fun x n s1 hq hx => ?_) (fun x hx => ?_) e hwf
  · split at hq
    · simp at hq
    · split at hq
      · split at hq
        · simp at hq
        · obtain ⟨i, -, hi⟩ := Option.map_eq_some_iff.mp hq
          simp only [Prod.mk.injEq] at hi
          rw [← hi.2]
          split
          · rw [cfgSet_mem]; exact hx
          · exact hx
      · split at hq
        · simp only [Option.some.injEq, Prod.mk.injEq] at hq; rw [← hq.2]; exact beginRevoke_wf _ _ hx
        · simp only [Option.some.injEq, Prod.mk.injEq] at hq; rw [← hq.2]; exact hx
        · simp at hq
  · have hc := fun b i y => cfgWrite_wf x.s b i y hx
    dsimp only
    (repeat' split) <;> first | trivial | (simp only [uactKeeps, put_mem]; first | exact hx | exact hc _ _ _)

theorem execColdReset_wf {s : State} {res : State} (e : execColdReset s = .next res)
    (hwf : Memory.wf s.mem = true) : Memory.wf res.mem = true := by
  unfold execColdReset at e
  first | exact done_wf e hwf | (refine done_wf e ?_; first | exact hwf | grind [foldl_mem, foldl_wf, coldStart_wf])

theorem execIslandSupplyLoss_wf {s : State} {res : State} (e : execIslandSupplyLoss s = .next res)
    (hwf : Memory.wf s.mem = true) : Memory.wf res.mem = true := by
  unfold execIslandSupplyLoss at e
  first | exact done_wf e hwf | (refine done_wf e ?_; first | exact hwf | grind [foldl_mem, foldl_wf, coldStart_wf])

theorem execIslandSupplyGood_wf {slot0 : Bool} {slot1 : Bool} {s : State} {res : State}
    (e : execIslandSupplyGood slot0 slot1 s = .next res)
    (hwf : Memory.wf s.mem = true) : Memory.wf res.mem = true := by
  unfold execIslandSupplyGood at e
  (repeat' split at e) <;> first | exact done_wf e hwf | (refine done_wf e ?_; first | exact hwf | grind [foldl_mem, foldl_wf, bringUp_mem])

theorem execIslandReset_wf {slot0 : Bool} {slot1 : Bool} {s : State} {res : State}
    (e : execIslandReset slot0 slot1 s = .next res)
    (hwf : Memory.wf s.mem = true) : Memory.wf res.mem = true := by
  unfold execIslandReset at e
  (repeat' split at e) <;> exact done_wf e hwf

theorem execDieJoin_wf {die : Nat} {s : State} {res : State} (e : execDieJoin die s = .next res)
    (hwf : Memory.wf s.mem = true) : Memory.wf res.mem = true := by
  unfold execDieJoin at e
  split at e
  · refine done_wf e (payLosses_wf _ ?_)
    rw [reachQuotes_mem, settleIsland_mem, onDie_mem]; exact hwf
  · exact done_wf e hwf

theorem execDieFails_wf {die : Nat} {s : State} {res : State} (e : execDieFails die s = .next res)
    (hwf : Memory.wf s.mem = true) : Memory.wf res.mem = true := by
  unfold execDieFails at e
  split at e
  · refine done_wf e ?_
    rw [tell_mem, reachQuotes_mem, settleIsland_mem, onDie_mem]; exact hwf
  · exact done_wf e hwf

theorem execDieWarmReset_wf {die : Nat} {s : State} {res : State} (e : execDieWarmReset die s = .next res)
    (hwf : Memory.wf s.mem = true) : Memory.wf res.mem = true := by
  unfold execDieWarmReset at e
  first | exact done_wf e hwf | (refine done_wf e ?_; first | exact hwf | grind [foldl_mem, foldl_wf, detach_wf])

theorem execHeartbeatTimeout_wf {die : Nat} {s : State} {res : State} (e : execHeartbeatTimeout die s = .next res)
    (hwf : Memory.wf s.mem = true) : Memory.wf res.mem = true := by
  unfold execHeartbeatTimeout at e
  first | exact done_wf e hwf | (refine done_wf e ?_; first | exact hwf | grind [foldl_mem, foldl_wf, detach_wf])

theorem execOvertempReset_wf {die : Nat} {s : State} {res : State} (e : execOvertempReset die s = .next res)
    (hwf : Memory.wf s.mem = true) : Memory.wf res.mem = true := by
  unfold execOvertempReset at e
  (repeat' split at e) <;> first | exact done_wf e hwf | (refine done_wf e ?_; first | exact hwf | grind [foldl_mem, foldl_wf, detach_wf])

theorem execDetachComplete_wf {die : Nat} {s : State} {res : State} (e : execDetachComplete die s = .next res)
    (hwf : Memory.wf s.mem = true) : Memory.wf res.mem = true := by
  unfold execDetachComplete at e
  (repeat' split at e) <;> first | exact done_wf e hwf | (refine done_wf e ?_; first | exact hwf | grind [foldl_mem, foldl_wf, advanceFree_mem, finishDetach_wf])

theorem execLateAnswer_wf {die : Nat} {s : State} {res : State} (e : execLateAnswer die s = .next res)
    (hwf : Memory.wf s.mem = true) : Memory.wf res.mem = true := by
  unfold execLateAnswer at e
  (repeat' split at e) <;> exact done_wf e hwf

theorem execFreeze_wf {s : State} {res : State} (e : execFreeze s = .next res)
    (hwf : Memory.wf s.mem = true) : Memory.wf res.mem = true := by
  unfold execFreeze at e
  refine done_wf e ?_
  split
  · exact hwf
  · rw [tell_mem]; exact hwf

theorem execThaw_wf {s : State} {res : State} (e : execThaw s = .next res)
    (hwf : Memory.wf s.mem = true) : Memory.wf res.mem = true := by
  unfold execThaw at e
  (repeat' split at e) <;> exact done_wf e hwf

theorem execLinkPacket_wf {p : Packet} {s : State} {res : State} (e : execLinkPacket p s = .next res)
    (hwf : Memory.wf s.mem = true) : Memory.wf res.mem = true := by
  unfold execLinkPacket at e
  (repeat' split at e) <;> first | exact done_wf e hwf | (refine done_wf e ?_; first | exact hwf | grind [foldl_mem, foldl_wf, forward_mem, sendStop_mem])

theorem execFlowStop_wf {link : Nat} {vc : Nat} {s : State} {res : State} (e : execFlowStop link vc s = .next res)
    (hwf : Memory.wf s.mem = true) : Memory.wf res.mem = true := by
  unfold execFlowStop at e
  (repeat' split at e) <;> exact done_wf e hwf

theorem execFlowGo_wf {link : Nat} {vc : Nat} {s : State} {res : State} (e : execFlowGo link vc s = .next res)
    (hwf : Memory.wf s.mem = true) : Memory.wf res.mem = true := by
  unfold execFlowGo at e
  refine done_wf e ?_
  dsimp only
  rw [sendGos_mem, foldl_mem _ _ _ fun s b => tell_mem _ _]; exact hwf

theorem execLinkDown_wf {link : Nat} {s : State} {res : State} (e : execLinkDown link s = .next res)
    (hwf : Memory.wf s.mem = true) : Memory.wf res.mem = true := by
  unfold execLinkDown at e
  first | exact done_wf e hwf | (refine done_wf e ?_; first | exact hwf | grind [foldl_mem, foldl_wf, forward_mem, sendGos_mem, sendStop_mem])

theorem execRouteLossTimeout_wf {dev : Nat} {s : State} {res : State} (e : execRouteLossTimeout dev s = .next res)
    (hwf : Memory.wf s.mem = true) : Memory.wf res.mem = true := by
  unfold execRouteLossTimeout at e
  (repeat' split at e) <;> first | exact done_wf e hwf | (refine done_wf e ?_; first | exact hwf | grind [foldl_mem, foldl_wf, failPhases_mem])

theorem execRemoteRequest_wf {r : RemoteReq} {s : State} {res : State} (e : execRemoteRequest r s = .next res)
    (hwf : Memory.wf s.mem = true) : Memory.wf res.mem = true := by
  unfold execRemoteRequest at e
  (repeat' split at e) <;> first | exact done_wf e hwf | (refine done_wf e ?_; first | exact hwf | grind [foldl_mem, foldl_wf, serveRemote_wf, tell_mem])

theorem execPodidRegister_wf {podid : BitVec 32} {dev : Nat} {poddevs : Nat} {s : State} {res : State}
    (e : execPodidRegister podid dev poddevs s = .next res)
    (hwf : Memory.wf s.mem = true) : Memory.wf res.mem = true := by
  unfold execPodidRegister at e
  (repeat' split at e) <;> first | exact done_wf e hwf | (refine done_wf e ?_; first | exact hwf | grind [foldl_mem, foldl_wf, podFail_wf])

theorem execPodJoinTimeout_wf {podid : BitVec 32} {s : State} {res : State} (e : execPodJoinTimeout podid s = .next res)
    (hwf : Memory.wf s.mem = true) : Memory.wf res.mem = true := by
  unfold execPodJoinTimeout at e
  (repeat' split at e) <;> first | exact done_wf e hwf | (refine done_wf e ?_; first | exact hwf | grind [foldl_mem, foldl_wf, podFail_wf])

theorem execSessionOpen_wf {sess : Nat} {part : Nat} {management : Bool} {s : State} {res : State}
    (e : execSessionOpen sess part management s = .next res)
    (hwf : Memory.wf s.mem = true) : Memory.wf res.mem = true := by
  unfold execSessionOpen at e
  dsimp only at e
  (repeat' split at e) <;> (refine done_wf e ?_; grind [foldl_mem, foldl_wf, tell_mem])

theorem execApertureWindowBind_wf {win : Nat} {sess : Nat} {size : Nat} {tenant : BitVec 24} {s : State} {res : State}
    (e : execApertureWindowBind win sess size tenant s = .next res)
    (hwf : Memory.wf s.mem = true) : Memory.wf res.mem = true := by
  unfold execApertureWindowBind at e
  (repeat' split at e) <;> exact done_wf e hwf

theorem unbindFrom_wf {win : Nat} {s : State} {res : State} (e : s.unbindFrom win = .next res)
    (hwf : Memory.wf s.mem = true) : Memory.wf res.mem = true := by
  unfold State.unbindFrom at e
  dsimp only at e
  split at e
  · exact done_wf e (by rw [tryAgain_mem, fenceWindow_mem]; exact hwf)
  · exact replyWith_wf e hwf

theorem execApertureWindowUnbind_wf {win : Nat} {s : State} {res : State} (e : execApertureWindowUnbind win s = .next res)
    (hwf : Memory.wf s.mem = true) : Memory.wf res.mem = true := by
  unfold execApertureWindowUnbind at e
  split at e
  · exact unbindFrom_wf e hwf
  · exact done_wf e hwf

theorem execSessionClose_wf {sess : Nat} {s : State} {res : State} (e : execSessionClose sess s = .next res)
    (hwf : Memory.wf s.mem = true) : Memory.wf res.mem = true := by
  unfold execSessionClose at e
  refine done_wf e ?_
  split
  · rw [failSession_mem]; exact hwf
  · exact hwf

theorem execSendMail_wf {sender receiver : Nat} {msg : List Byte} {s : State} {res : State}
    (e : execSendMail sender receiver msg s = .next res)
    (hwf : Memory.wf s.mem = true) : Memory.wf res.mem = true := by
  unfold execSendMail at e
  refine done_wf e ?_
  split <;> exact hwf

theorem execTakeMail_wf {sender receiver : Nat} {s : State} {res : State} (e : execTakeMail sender receiver s = .next res)
    (hwf : Memory.wf s.mem = true) : Memory.wf res.mem = true := by
  unfold execTakeMail at e
  refine done_wf e ?_
  split <;> exact hwf

theorem execSoftError_wf {e : HopError} {s : State} {res : State} (h : execSoftError e s = .next res)
    (hwf : Memory.wf s.mem = true) : Memory.wf res.mem = true := by
  unfold execSoftError at h
  (repeat' split at h) <;> first
    | exact done_wf h hwf
    | exact done_wf h (by rw [failSession_mem]; exact hwf)
    | exact done_wf h (by rw [poisonAtHop_mem]; exact hwf)

theorem execClockControlTick_wf {watts : Nat} {t0 : Nat} {t1 : Nat} {ti : Nat} {th : Nat} {s : State} {res : State}
    (e : execClockControlTick watts t0 t1 ti th s = .next res)
    (hwf : Memory.wf s.mem = true) : Memory.wf res.mem = true := by
  unfold execClockControlTick at e
  dsimp only at e
  (repeat' split at e) <;> (refine done_wf e ?_; grind [foldl_mem, foldl_wf, cfgSet_mem])

/-- Whatever an operation does, memory keeps its canonical form. -/
theorem exec_wf {i : Instr} {s res : State} (e : exec i s = .next res) (hwf : Memory.wf s.mem = true) :
    Memory.wf res.mem = true := by
  cases i with
  | nop => exact execNop_wf e hwf
  | exit => exact execExit_wf e hwf
  | yield => exact execYield_wf e hwf
  | sleep n => exact execSleep_wf e hwf
  | ublk => exact execUblk_wf e hwf
  | trap n => exact execTrap_wf e hwf
  | tretNext => exact execTretNext_wf e hwf
  | tretRetry => exact execTretRetry_wf e hwf
  | brk c => exact execBrk_wf e hwf
  | iadd d a b => exact execIadd_wf e hwf
  | isub d a b => exact execIsub_wf e hwf
  | iaddsS d a b => exact execIaddsS_wf e hwf
  | isubsS d a b => exact execIsubsS_wf e hwf
  | iminS d a b => exact execIminS_wf e hwf
  | iminU d a b => exact execIminU_wf e hwf
  | imaxS d a b => exact execImaxS_wf e hwf
  | imaxU d a b => exact execImaxU_wf e hwf
  | imul d a b => exact execImul_wf e hwf
  | imulhS d a b => exact execImulhS_wf e hwf
  | imulhU d a b => exact execImulhU_wf e hwf
  | imac d a b => exact execImac_wf e hwf
  | idot4S d a b => exact execIdot4S_wf e hwf
  | idot4U d a b => exact execIdot4U_wf e hwf
  | iabsd d a b => exact execIabsd_wf e hwf
  | and d a b => exact execAnd_wf e hwf
  | or d a b => exact execOr_wf e hwf
  | xor d a b => exact execXor_wf e hwf
  | andn d a b => exact execAndn_wf e hwf
  | orn d a b => exact execOrn_wf e hwf
  | xnor d a b => exact execXnor_wf e hwf
  | shl d a b => exact execShl_wf e hwf
  | shr d a b => exact execShr_wf e hwf
  | sar d a b => exact execSar_wf e hwf
  | rol d a b => exact execRol_wf e hwf
  | ror d a b => exact execRor_wf e hwf
  | fshr d a b => exact execFshr_wf e hwf
  | popc d a => exact execPopc_wf e hwf
  | clz d a => exact execClz_wf e hwf
  | ctz d a => exact execCtz_wf e hwf
  | brev d a => exact execBrev_wf e hwf
  | bfxS d a b => exact execBfxS_wf e hwf
  | bfxU d a b => exact execBfxU_wf e hwf
  | bfi d a b => exact execBfi_wf e hwf
  | permb d a b => exact execPermb_wf e hwf
  | iaddi d a n => exact execIaddi_wf e hwf
  | andi d a n => exact execAndi_wf e hwf
  | ori d a n => exact execOri_wf e hwf
  | xori d a n => exact execXori_wf e hwf
  | shli d a n => exact execShli_wf e hwf
  | shri d a n => exact execShri_wf e hwf
  | sari d a n => exact execSari_wf e hwf
  | roli d a n => exact execRoli_wf e hwf
  | rori d a n => exact execRori_wf e hwf
  | icmp p c a b => exact execIcmp_wf e hwf
  | icmpAnd p c a b => exact execIcmpAnd_wf e hwf
  | icmpOr p c a b => exact execIcmpOr_wf e hwf
  | fcmp p c a b w => exact execFcmp_wf e hwf
  | fcmpAnd p c a b w => exact execFcmpAnd_wf e hwf
  | fcmpOr p c a b w => exact execFcmpOr_wf e hwf
  | pand d a b => exact execPand_wf e hwf
  | por d a b => exact execPor_wf e hwf
  | pxor d a b => exact execPxor_wf e hwf
  | pnot d a => exact execPnot_wf e hwf
  | psetnz d a => exact execPsetnz_wf e hwf
  | sel d a b p => exact execSel_wf e hwf
  | fadd d a b => exact execFadd_wf e hwf
  | fsub d a b => exact execFsub_wf e hwf
  | fmul d a b => exact execFmul_wf e hwf
  | fmin d a b => exact execFmin_wf e hwf
  | fmax d a b => exact execFmax_wf e hwf
  | fminm d a b => exact execFminm_wf e hwf
  | fmaxm d a b => exact execFmaxm_wf e hwf
  | fcopys d a b => exact execFcopys_wf e hwf
  | fmac d a b => exact execFmac_wf e hwf
  | fmsc d a b => exact execFmsc_wf e hwf
  | fnmac d a b => exact execFnmac_wf e hwf
  | fnmsc d a b => exact execFnmsc_wf e hwf
  | frcp d a => exact execFrcp_wf e hwf
  | fsqrt d a => exact execFsqrt_wf e hwf
  | frsq d a => exact execFrsq_wf e hwf
  | fexp2 d a => exact execFexp2_wf e hwf
  | flog2 d a => exact execFlog2_wf e hwf
  | fsinpi d a => exact execFsinpi_wf e hwf
  | fcospi d a => exact execFcospi_wf e hwf
  | frint d a => exact execFrint_wf e hwf
  | fdiv d a b => exact execFdiv_wf e hwf
  | fclass d a => exact execFclass_wf e hwf
  | fneg d a => exact execFneg_wf e hwf
  | fabs d a => exact execFabs_wf e hwf
  | fscale d a b => exact execFscale_wf e hwf
  | fgetexp d a => exact execFgetexp_wf e hwf
  | fgetman d a => exact execFgetman_wf e hwf
  | hadd2 d a b t => exact execHadd2_wf e hwf
  | hmul2 d a b t => exact execHmul2_wf e hwf
  | hmac2 d a b t => exact execHmac2_wf e hwf
  | hmax2 d a b t => exact execHmax2_wf e hwf
  | hmin2F16 d a b => exact execHmin2F16_wf e hwf
  | hmin2Bf16 d a b => exact execHmin2Bf16_wf e hwf
  | hsub2F16 d a b => exact execHsub2F16_wf e hwf
  | hsub2Bf16 d a b => exact execHsub2Bf16_wf e hwf
  | hdot2F16 d a b => exact execHdot2F16_wf e hwf
  | hdot2Bf16 d a b => exact execHdot2Bf16_wf e hwf
  | cvt d a c s1 r => exact execCvt_wf e hwf
  | packn d a b => exact execPackn_wf e hwf
  | unpknS d a b => exact execUnpknS_wf e hwf
  | unpknU d a b => exact execUnpknU_wf e hwf
  | packh d a b => exact execPackh_wf e hwf
  | dadd d a b => exact execDadd_wf e hwf
  | dsub d a b => exact execDsub_wf e hwf
  | dmul d a b => exact execDmul_wf e hwf
  | dfmac d a b => exact execDfmac_wf e hwf
  | dmin d a b => exact execDmin_wf e hwf
  | dmax d a b => exact execDmax_wf e hwf
  | ddiv d a b => exact execDdiv_wf e hwf
  | dsqrt d a => exact execDsqrt_wf e hwf
  | ld t x a s1 k => exact execLd_wf e hwf
  | st t x a s1 k => exact execSt_wf e hwf
  | atom t x a s1 k => exact execAtom_wf e hwf
  | red t x a s1 k => exact execRed_wf e hwf
  | pfetch x a k => exact execPfetch_wf e hwf
  | cinval x a k => exact execCinval_wf e hwf
  | pfetchL2 x a k => exact execPfetchL2_wf e hwf
  | fenceRel m => exact execFenceRel_wf e hwf
  | fenceAcq => exact execFenceAcq_wf e hwf
  | fenceFull m => exact execFenceFull_wf e hwf
  | mwait t x a c k => exact execMwait_wf e hwf
  | bra p n d => exact execBra_wf e hwf
  | bru c t d => exact execBru_wf e hwf
  | brx a => exact execBrx_wf e hwf
  | ret a => exact execRet_wf e hwf
  | call l d => exact execCall_wf e hwf
  | wait l s1 c m x => exact execWait_wf e hwf
  | barSync s1 n => exact execBarSync_wf e hwf
  | barArrive s1 n => exact execBarArrive_wf e hwf
  | barWait s1 n => exact execBarWait_wf e hwf
  | cadd d a b => exact execCadd_wf e hwf
  | csub d a b => exact execCsub_wf e hwf
  | cmul d a b => exact execCmul_wf e hwf
  | cand d a b => exact execCand_wf e hwf
  | cor d a b => exact execCor_wf e hwf
  | cxor d a b => exact execCxor_wf e hwf
  | cshl d a b => exact execCshl_wf e hwf
  | cshr d a b => exact execCshr_wf e hwf
  | csar d a b => exact execCsar_wf e hwf
  | cminS d a b => exact execCminS_wf e hwf
  | cmaxS d a b => exact execCmaxS_wf e hwf
  | cminU d a b => exact execCminU_wf e hwf
  | cmaxU d a b => exact execCmaxU_wf e hwf
  | csltS d a b => exact execCsltS_wf e hwf
  | csltU d a b => exact execCsltU_wf e hwf
  | cseq d a b => exact execCseq_wf e hwf
  | caddi d a n => exact execCaddi_wf e hwf
  | aadd d a s1 => exact execAadd_wf e hwf
  | aadds d a s1 k => exact execAadds_wf e hwf
  | afromc d n => exact execAfromc_wf e hwf
  | atoc a n => exact execAtoc_wf e hwf
  | cld d a s1 n => exact execCld_wf e hwf
  | cst d a s1 n => exact execCst_wf e hwf
  | wred d a r p n => exact execWred_wf e hwf
  | srd r n => exact execSrd_wf e hwf
  | swr r n => exact execSwr_wf e hwf
  | regqSet d a => exact execRegqSet_wf e hwf
  | regqXfer d a b => exact execRegqXfer_wf e hwf
  | regqGet d => exact execRegqGet_wf e hwf
  | copyT a s1 f c m => exact execCopyT_wf e hwf
  | copyG a s1 f c m => exact execCopyG_wf e hwf
  | copyS a s1 f c m => exact execCopyS_wf e hwf
  | copyMc a s1 f c m => exact execCopyMc_wf e hwf
  | copyWb a s1 f c m => exact execCopyWb_wf e hwf
  | copyFill a s1 f c => exact execCopyFill_wf e hwf
  | cresume s1 => exact execCresume_wf e hwf
  | ccancel s1 => exact execCcancel_wf e hwf
  | tbarInit t x a k => exact execTbarInit_wf e hwf
  | tbarArrive t x a k => exact execTbarArrive_wf e hwf
  | tbarExpect t x a k => exact execTbarExpect_wf e hwf
  | tbarWait t x a k => exact execTbarWait_wf e hwf
  | tbarTest t x a k => exact execTbarTest_wf e hwf
  | mdesc c s1 => exact execMdesc_wf e hwf
  | mma s1 => exact execMma_wf e hwf
  | accrd c => exact execAccrd_wf e hwf
  | accwr c => exact execAccwr_wf e hwf
  | accscl c => exact execAccscl_wf e hwf
  | accz c => exact execAccz_wf e hwf
  | wbinv a m => exact execWbinv_wf e hwf
  | mstat c s1 => exact execMstat_wf e hwf
  | collAr a s1 c => exact execCollAr_wf e hwf
  | collRs a s1 c => exact execCollRs_wf e hwf
  | collAg a s1 c => exact execCollAg_wf e hwf
  | collBc a s1 c => exact execCollBc_wf e hwf
  | tbld d a b => exact execTbld_wf e hwf
  | tbinv d a b => exact execTbinv_wf e hwf
  | tbq d a b => exact execTbq_wf e hwf
  | tagq d a b => exact execTagq_wf e hwf
  | fresume d a b => exact execFresume_wf e hwf
  | rack d a b => exact execRack_wf e hwf
  | relinq d a b => exact execRelinq_wf e hwf
  | lossrd d a b => exact execLossrd_wf e hwf
  | cntrdLo d n => exact execCntrdLo_wf e hwf
  | cntrdHi d n => exact execCntrdHi_wf e hwf
  | cntrd d n => exact execCntrd_wf e hwf
  | cntsel n a => exact execCntsel_wf e hwf
  | cntz n => exact execCntz_wf e hwf
  | numrd d n a => exact execNumrd_wf e hwf
  | dbpset d a b => exact execDbpset_wf e hwf
  | dbpclr d a => exact execDbpclr_wf e hwf
  | dhalt d a => exact execDhalt_wf e hwf
  | dstep d a b => exact execDstep_wf e hwf
  | dresume d a b => exact execDresume_wf e hwf
  | dwset d a b => exact execDwset_wf e hwf
  | dstat d a => exact execDstat_wf e hwf
  | trace d a b => exact execTrace_wf e hwf
  | dpcrd d a b => exact execDpcrd_wf e hwf
  | lnchPool a s1 => exact execLnchPool_wf e hwf
  | lnchGo a s1 => exact execLnchGo_wf e hwf
  | cfgr d a => exact execCfgr_wf e hwf
  | cfgw d a b => exact execCfgw_wf e hwf
  | hintImms n => exact execHintImms_wf e hwf
  | hintImmh n => exact execHintImmh_wf e hwf
  | hintImml n => exact execHintImml_wf e hwf
  | hintPred n p => exact execHintPred_wf e hwf
  | hintMem n k r q c => exact execHintMem_wf e hwf
  | hintRnd s1 f r => exact execHintRnd_wf e hwf
  | hintDisp d => exact execHintDisp_wf e hwf
  | hintDead b m => exact execHintDead_wf e hwf
  | hintSchedFill n => exact execHintSchedFill_wf e hwf
  | hintSchedAge n => exact execHintSchedAge_wf e hwf
  | runSelect core port => exact execRunSelect_wf e hwf
  | sleepExpiry wg tid => exact execSleepExpiry_wf e hwf
  | loadComplete id => exact execLoadComplete_wf e hwf
  | storeComplete id => exact execStoreComplete_wf e hwf
  | atomicPerform id => exact execAtomicPerform_wf e hwf
  | monitorWake wg tid => exact execMonitorWake_wf e hwf
  | monitorPoll wg tid => exact execMonitorPoll_wf e hwf
  | barrierArrival wg tid => exact execBarrierArrival_wf e hwf
  | twinSignatureExchange wg => exact execTwinSignatureExchange_wf e hwf
  | guardRollback wg => exact execGuardRollback_wf e hwf
  | copyComplete id => exact execCopyComplete_wf e hwf
  | followOnEnqueue id => exact execFollowOnEnqueue_wf e hwf
  | copySuspend id => exact execCopySuspend_wf e hwf
  | bankInboundWrite id => exact execBankInboundWrite_wf e hwf
  | segmentGrant quad => exact execSegmentGrant_wf e hwf
  | segmentEnd quad => exact execSegmentEnd_wf e hwf
  | matrixOpComplete id => exact execMatrixOpComplete_wf e hwf
  | workgroupRetire wg => exact execWorkgroupRetire_wf e hwf
  | faultRecordWrite tenant => exact execFaultRecordWrite_wf e hwf
  | debugRecordWrite part => exact execDebugRecordWrite_wf e hwf
  | workgroupSettled wg => exact execWorkgroupSettled_wf e hwf
  | queueMap q => exact execQueueMap_wf e hwf
  | queueUnmap q => exact execQueueUnmap_wf e hwf
  | commandTake q => exact execCommandTake_wf e hwf
  | launch q => exact execLaunch_wf e hwf
  | launchPool q => exact execLaunchPool_wf e hwf
  | copyq q => exact execCopyq_wf e hwf
  | signalq q => exact execSignalq_wf e hwf
  | waitq q => exact execWaitq_wf e hwf
  | waitqComplete q => exact execWaitqComplete_wf e hwf
  | launchComplete l => exact execLaunchComplete_wf e hwf
  | bucketTick part => exact execBucketTick_wf e hwf
  | gangPlace die => exact execGangPlace_wf e hwf
  | workSteal die => exact execWorkSteal_wf e hwf
  | placementReservation die => exact execPlacementReservation_wf e hwf
  | calendarWrap die cls => exact execCalendarWrap_wf e hwf
  | runPortRound core => exact execRunPortRound_wf e hwf
  | preempt g => exact execPreempt_wf e hwf
  | preemptSave g => exact execPreemptSave_wf e hwf
  | timeSliceBoundary quad entry => exact execTimeSliceBoundary_wf e hwf
  | watchdogExpiry l => exact execWatchdogExpiry_wf e hwf
  | grant u part => exact execGrant_wf e hwf
  | revoke u => exact execRevoke_wf e hwf
  | create req => exact execCreate_wf e hwf
  | bind b q => exact execBind_wf e hwf
  | recallUnits r => exact execRecall_wf e hwf
  | recallPost tenant => exact execRecallPost_wf e hwf
  | seize tenant u => exact execSeize_wf e hwf
  | destroy r => exact execDestroy_wf e hwf
  | exportEntry e => exact execExportEntry_wf e hwf
  | unexportEntry e => exact execUnexportEntry_wf e hwf
  | recallDeadline tenant seq => exact execRecallDeadline_wf e hwf
  | runtimeWavePlace tenant => exact execRuntimeWavePlace_wf e hwf
  | remoteRequest r => exact execRemoteRequest_wf e hwf
  | remoteRefusal id absent => exact execRemoteRefusal_wf (_absent := absent) e hwf
  | lateAnswer die => exact execLateAnswer_wf e hwf
  | worldLatchChange quad world => exact execWorldLatchChange_wf e hwf
  | worldActivate world => exact execWorldActivate_wf e hwf
  | worldRevoke world => exact execWorldRevoke_wf e hwf
  | handoverPrepare g => exact execHandoverPrepare_wf e hwf
  | handoverCommit ctx => exact execHandoverCommit_wf e hwf
  | imageAccept img => exact execImageAccept_wf e hwf
  | quoteRequest nonce => exact execQuoteRequest_wf e hwf
  | lockctlWrite x => exact execLockctlWrite_wf e hwf
  | calWrite die cls idx x => exact execCalWrite_wf e hwf
  | mcdropClear bank => exact execMcdropClear_wf e hwf
  | freeze => exact execFreeze_wf e hwf
  | thaw => exact execThaw_wf e hwf
  | pcSample tenant ctr => exact execPcSample_wf e hwf
  | deadlockScan => exact execDeadlockScan_wf e hwf
  | clockControlTick watts t0 t1 ti th => exact execClockControlTick_wf e hwf
  | overtempReset die => exact execOvertempReset_wf e hwf
  | islandSupplyGood slot0 slot1 => exact execIslandSupplyGood_wf e hwf
  | islandSupplyLoss => exact execIslandSupplyLoss_wf e hwf
  | islandReset slot0 slot1 => exact execIslandReset_wf e hwf
  | dieJoin die => exact execDieJoin_wf e hwf
  | heartbeatTimeout die => exact execHeartbeatTimeout_wf e hwf
  | dieWarmReset die => exact execDieWarmReset_wf e hwf
  | detachComplete die => exact execDetachComplete_wf e hwf
  | linkPacket p => exact execLinkPacket_wf e hwf
  | flowStop link vc => exact execFlowStop_wf e hwf
  | flowGo link vc => exact execFlowGo_wf e hwf
  | routeLossTimeout dev => exact execRouteLossTimeout_wf e hwf
  | podidRegister podid dev poddevs => exact execPodidRegister_wf e hwf
  | podJoinTimeout podid => exact execPodJoinTimeout_wf e hwf
  | collContribution id => exact execCollContribution_wf e hwf
  | collectiveComplete id => exact execCollectiveComplete_wf e hwf
  | sessionClose sess => exact execSessionClose_wf e hwf
  | coldReset => exact execColdReset_wf e hwf
  | unclaimedEncoding word => exact execUnclaimedEncoding_wf e hwf
  | linkDown link => exact execLinkDown_wf e hwf
  | softError e => exact execSoftError_wf e hwf
  | queueCreate req => exact execQueueCreate_wf e hwf
  | qcbShadowWrite req => exact execQcbShadowWrite_wf e hwf
  | apertureWindowBind win sess size tenant => exact execApertureWindowBind_wf e hwf
  | apertureWindowUnbind win => exact execApertureWindowUnbind_wf e hwf
  | sessionOpen sess part management => exact execSessionOpen_wf e hwf
  | coreCycle die => exact execCoreCycle_wf e hwf

theorem ownRun_wf {o : Own} {s res : State} (e : o.run s = .next res) (hwf : Memory.wf s.mem = true) :
    Memory.wf res.mem = true := by
  cases o with
  | runSelect c p => exact execRunSelect_wf e hwf
  | sleepExpiry w t => exact execSleepExpiry_wf e hwf
  | loadComplete i => exact execLoadComplete_wf e hwf
  | storeComplete i => exact execStoreComplete_wf e hwf
  | atomicPerform i => exact execAtomicPerform_wf e hwf
  | monitorWake w t => exact execMonitorWake_wf e hwf
  | barrierArrival w t => exact execBarrierArrival_wf e hwf
  | twinSignatureExchange w => exact execTwinSignatureExchange_wf e hwf
  | guardRollback w => exact execGuardRollback_wf e hwf
  | copyComplete i => exact execCopyComplete_wf e hwf
  | followOnEnqueue i => exact execFollowOnEnqueue_wf e hwf
  | copySuspend i => exact execCopySuspend_wf e hwf
  | bankInboundWrite i => exact execBankInboundWrite_wf e hwf
  | segmentGrant q => exact execSegmentGrant_wf e hwf
  | segmentEnd q => exact execSegmentEnd_wf e hwf
  | matrixOpComplete i => exact execMatrixOpComplete_wf e hwf
  | workgroupRetire w => exact execWorkgroupRetire_wf e hwf
  | faultRecordWrite t => exact execFaultRecordWrite_wf e hwf
  | debugRecordWrite p => exact execDebugRecordWrite_wf e hwf
  | workgroupSettled w => exact execWorkgroupSettled_wf e hwf
  | queueMap q => exact execQueueMap_wf e hwf
  | queueUnmap q => exact execQueueUnmap_wf e hwf
  | commandTake q => exact execCommandTake_wf e hwf
  | launch q => exact execLaunch_wf e hwf
  | launchPool q => exact execLaunchPool_wf e hwf
  | copyq q => exact execCopyq_wf e hwf
  | signalq q => exact execSignalq_wf e hwf
  | waitq q => exact execWaitq_wf e hwf
  | waitqComplete q => exact execWaitqComplete_wf e hwf
  | launchComplete l => exact execLaunchComplete_wf e hwf
  | gangPlace d => exact execGangPlace_wf e hwf
  | workSteal d => exact execWorkSteal_wf e hwf
  | placementReservation d => exact execPlacementReservation_wf e hwf
  | preemptSave g => exact execPreemptSave_wf e hwf
  | watchdogExpiry l => exact execWatchdogExpiry_wf e hwf
  | recallPost t => exact execRecallPost_wf e hwf
  | recallDeadline t n => exact execRecallDeadline_wf e hwf
  | runtimeWavePlace t => exact execRuntimeWavePlace_wf e hwf
  | timeSliceBoundary q e => exact execTimeSliceBoundary_wf e hwf
  | calendarWrap d c => exact execCalendarWrap_wf e hwf
  | worldRevoke w => exact execWorldRevoke_wf e hwf
  | imageAccept i => exact execImageAccept_wf e hwf
  | islandSupplyGood a b => exact execIslandSupplyGood_wf e hwf
  | overtempReset d => exact execOvertempReset_wf e hwf
  | detachComplete d => exact execDetachComplete_wf e hwf
  | routeLossTimeout d => exact execRouteLossTimeout_wf e hwf
  | podidRegister p d n => exact execPodidRegister_wf e hwf
  | podJoinTimeout p => exact execPodJoinTimeout_wf e hwf
  | collContribution i => exact execCollContribution_wf e hwf
  | collectiveComplete i => exact execCollectiveComplete_wf e hwf
  | coreCycle d => exact execCoreCycle_wf e hwf

theorem requestRun_wf {r : Request} {s res : State} (e : r.run s = .next res) (hwf : Memory.wf s.mem = true) :
    Memory.wf res.mem = true := by
  cases r with
  | grant u p => exact grantFrom_wf e hwf
  | revoke u => exact revokeFrom_wf e hwf
  | create c => exact createFrom_wf e hwf
  | bind p b t => exact bindFrom_wf e hwf
  | seize t u k => exact seizeFrom_wf e hwf
  | destroy h p t => exact destroyFrom_wf e hwf
  | unbind w => exact unbindFrom_wf e hwf
  | close x => exact done_wf e (by rw [endSession_mem]; exact hwf)

end Sys2Proof.Laws
end

