-- ==== Sys2Proof/Laws/PerInstr.lean ====
section
/-! SUPPORT. The round trip, one lemma per constructor: the word an instruction is encoded as decodes to that
instruction, with every operand at every value (family `Encoding`). -/

namespace Sys2Proof.Laws

/-- An appended bit vector as a number. -/
theorem append_toNat {n m : Nat} (x : BitVec n) (y : BitVec m) : (x ++ y).toNat = x.toNat * 2 ^ m + y.toNat := by
  rw [BitVec.toNat_append, Nat.shiftLeft_eq, ← Nat.shiftLeft_eq, Nat.shiftLeft_add_eq_or_of_lt y.isLt]

/-- A field of a word equals a value exactly when the word's digits say so. -/
theorem fld_eq (w : Word) (lo n : Nat) (k : BitVec n) : fld w lo n = k ↔ w.toNat / 2 ^ lo % 2 ^ n = k.toNat := by
  rw [← BitVec.toNat_inj]; simp [fld, BitVec.extractLsb'_toNat, Nat.shiftRight_eq_div_pow]

/-- A field of a word as a number. -/
theorem fld_toNat (w : Word) (lo n : Nat) : (fld w lo n).toNat = w.toNat / 2 ^ lo % 2 ^ n := by
  simp [fld, BitVec.extractLsb'_toNat, Nat.shiftRight_eq_div_pow]

/-- A word put together from at most 32 bits keeps their value. -/
theorem mkWord_toNat {n : Nat} (x : BitVec n) (h : n ≤ 32) : (mkWord x).toNat = x.toNat := by
  have := x.isLt
  have : 2 ^ n ≤ 2 ^ 32 := Nat.pow_le_pow_right (by decide) h
  simp [mkWord]; omega

namespace Encoding

/-- Decoding the word of an instruction gives the instruction. -/
def Statement (i : Instr) : Prop := ∀ w, encode i = some w → decodeWord w = .ok i

theorem nop : Statement (.nop) := by
  intro word h; cases h; decide

theorem exit : Statement (.exit) := by
  intro word h; cases h; decide

theorem yield : Statement (.yield) := by
  intro word h; cases h; decide

theorem sleep (n : BitVec 20) : Statement (.sleep n) := by
  intro word hw
  have h : word.toNat = ((0 * 64 + 3) * 1048576 + n.toNat) := by
    cases hw; rw [mkWord_toNat _ (by decide)]; simp only [append_toNat]; rfl
  have := n.isLt
  have e : (fld word 26 6).toNat = 0 := by rw [fld_toNat]; omega
  unfold decodeWord; rw [e]
  show decodeOp00 word = _
  unfold decodeOp00
  simp only [fld_eq]
  rw [if_neg (by simp only [BitVec.toNat_ofNat]; omega), if_neg (by simp only [BitVec.toNat_ofNat]; omega), if_neg (by simp only [BitVec.toNat_ofNat]; omega), if_pos (by simp only [BitVec.toNat_ofNat]; omega)]
  rw [(fld_eq word 0 20 n).2 (by omega)]

theorem ublk : Statement (.ublk) := by
  intro word h; cases h; decide

theorem trap (n : BitVec 8) : Statement (.trap n) := by
  intro word hw
  have h : word.toNat = ((0 * 262144 + 20480) * 256 + n.toNat) := by
    cases hw; rw [mkWord_toNat _ (by decide)]; simp only [append_toNat]; rfl
  have := n.isLt
  have e : (fld word 26 6).toNat = 0 := by rw [fld_toNat]; omega
  unfold decodeWord; rw [e]
  show decodeOp00 word = _
  unfold decodeOp00
  simp only [fld_eq]
  rw [if_neg (by simp only [BitVec.toNat_ofNat]; omega), if_neg (by simp only [BitVec.toNat_ofNat]; omega), if_neg (by simp only [BitVec.toNat_ofNat]; omega), if_neg (by simp only [BitVec.toNat_ofNat]; omega), if_neg (by simp only [BitVec.toNat_ofNat]; omega), if_pos (by simp only [BitVec.toNat_ofNat]; omega)]
  rw [(fld_eq word 0 8 n).2 (by omega)]

theorem tretNext : Statement (.tretNext) := by
  intro word h; cases h; decide

theorem tretRetry : Statement (.tretRetry) := by
  intro word h; cases h; decide

theorem brk (c : BitVec 8) : Statement (.brk c) := by
  intro word hw
  have h : word.toNat = ((0 * 262144 + 28672) * 256 + c.toNat) := by
    cases hw; rw [mkWord_toNat _ (by decide)]; simp only [append_toNat]; rfl
  have := c.isLt
  have e : (fld word 26 6).toNat = 0 := by rw [fld_toNat]; omega
  unfold decodeWord; rw [e]
  show decodeOp00 word = _
  unfold decodeOp00
  simp only [fld_eq]
  rw [if_neg (by simp only [BitVec.toNat_ofNat]; omega), if_neg (by simp only [BitVec.toNat_ofNat]; omega), if_neg (by simp only [BitVec.toNat_ofNat]; omega), if_neg (by simp only [BitVec.toNat_ofNat]; omega), if_neg (by simp only [BitVec.toNat_ofNat]; omega), if_neg (by simp only [BitVec.toNat_ofNat]; omega), if_neg (by simp only [BitVec.toNat_ofNat]; omega), if_neg (by simp only [BitVec.toNat_ofNat]; omega), if_pos (by simp only [BitVec.toNat_ofNat]; omega)]
  rw [(fld_eq word 0 8 c).2 (by omega)]

theorem iadd (d : BitVec 7) (a : BitVec 8) (b : BitVec 8) : Statement (.iadd d a b) := by
  intro word hw
  have h : word.toNat = ((((1 * 128 + d.toNat) * 256 + a.toNat) * 256 + b.toNat) * 8 + 0) := by
    cases hw; rw [mkWord_toNat _ (by decide)]; simp only [append_toNat]; rfl
  have := d.isLt; have := a.isLt; have := b.isLt
  have e : (fld word 26 6).toNat = 1 := by rw [fld_toNat]; omega
  unfold decodeWord; rw [e]
  show decodeOp01 word = _
  unfold decodeOp01
  rw [(fld_eq word 0 3 0#3).2 (by simp only [BitVec.toNat_ofNat]; omega), (fld_eq word 19 7 d).2 (by omega), (fld_eq word 11 8 a).2 (by omega), (fld_eq word 3 8 b).2 (by omega)]
  rfl

theorem isub (d : BitVec 7) (a : BitVec 8) (b : BitVec 8) : Statement (.isub d a b) := by
  intro word hw
  have h : word.toNat = ((((1 * 128 + d.toNat) * 256 + a.toNat) * 256 + b.toNat) * 8 + 1) := by
    cases hw; rw [mkWord_toNat _ (by decide)]; simp only [append_toNat]; rfl
  have := d.isLt; have := a.isLt; have := b.isLt
  have e : (fld word 26 6).toNat = 1 := by rw [fld_toNat]; omega
  unfold decodeWord; rw [e]
  show decodeOp01 word = _
  unfold decodeOp01
  rw [(fld_eq word 0 3 1#3).2 (by simp only [BitVec.toNat_ofNat]; omega), (fld_eq word 19 7 d).2 (by omega), (fld_eq word 11 8 a).2 (by omega), (fld_eq word 3 8 b).2 (by omega)]
  rfl

theorem iaddsS (d : BitVec 7) (a : BitVec 8) (b : BitVec 8) : Statement (.iaddsS d a b) := by
  intro word hw
  have h : word.toNat = ((((1 * 128 + d.toNat) * 256 + a.toNat) * 256 + b.toNat) * 8 + 2) := by
    cases hw; rw [mkWord_toNat _ (by decide)]; simp only [append_toNat]; rfl
  have := d.isLt; have := a.isLt; have := b.isLt
  have e : (fld word 26 6).toNat = 1 := by rw [fld_toNat]; omega
  unfold decodeWord; rw [e]
  show decodeOp01 word = _
  unfold decodeOp01
  rw [(fld_eq word 0 3 2#3).2 (by simp only [BitVec.toNat_ofNat]; omega), (fld_eq word 19 7 d).2 (by omega), (fld_eq word 11 8 a).2 (by omega), (fld_eq word 3 8 b).2 (by omega)]
  rfl

theorem isubsS (d : BitVec 7) (a : BitVec 8) (b : BitVec 8) : Statement (.isubsS d a b) := by
  intro word hw
  have h : word.toNat = ((((1 * 128 + d.toNat) * 256 + a.toNat) * 256 + b.toNat) * 8 + 3) := by
    cases hw; rw [mkWord_toNat _ (by decide)]; simp only [append_toNat]; rfl
  have := d.isLt; have := a.isLt; have := b.isLt
  have e : (fld word 26 6).toNat = 1 := by rw [fld_toNat]; omega
  unfold decodeWord; rw [e]
  show decodeOp01 word = _
  unfold decodeOp01
  rw [(fld_eq word 0 3 3#3).2 (by simp only [BitVec.toNat_ofNat]; omega), (fld_eq word 19 7 d).2 (by omega), (fld_eq word 11 8 a).2 (by omega), (fld_eq word 3 8 b).2 (by omega)]
  rfl

theorem iminS (d : BitVec 7) (a : BitVec 8) (b : BitVec 8) : Statement (.iminS d a b) := by
  intro word hw
  have h : word.toNat = ((((1 * 128 + d.toNat) * 256 + a.toNat) * 256 + b.toNat) * 8 + 4) := by
    cases hw; rw [mkWord_toNat _ (by decide)]; simp only [append_toNat]; rfl
  have := d.isLt; have := a.isLt; have := b.isLt
  have e : (fld word 26 6).toNat = 1 := by rw [fld_toNat]; omega
  unfold decodeWord; rw [e]
  show decodeOp01 word = _
  unfold decodeOp01
  rw [(fld_eq word 0 3 4#3).2 (by simp only [BitVec.toNat_ofNat]; omega), (fld_eq word 19 7 d).2 (by omega), (fld_eq word 11 8 a).2 (by omega), (fld_eq word 3 8 b).2 (by omega)]
  rfl

theorem iminU (d : BitVec 7) (a : BitVec 8) (b : BitVec 8) : Statement (.iminU d a b) := by
  intro word hw
  have h : word.toNat = ((((1 * 128 + d.toNat) * 256 + a.toNat) * 256 + b.toNat) * 8 + 5) := by
    cases hw; rw [mkWord_toNat _ (by decide)]; simp only [append_toNat]; rfl
  have := d.isLt; have := a.isLt; have := b.isLt
  have e : (fld word 26 6).toNat = 1 := by rw [fld_toNat]; omega
  unfold decodeWord; rw [e]
  show decodeOp01 word = _
  unfold decodeOp01
  rw [(fld_eq word 0 3 5#3).2 (by simp only [BitVec.toNat_ofNat]; omega), (fld_eq word 19 7 d).2 (by omega), (fld_eq word 11 8 a).2 (by omega), (fld_eq word 3 8 b).2 (by omega)]
  rfl

theorem imaxS (d : BitVec 7) (a : BitVec 8) (b : BitVec 8) : Statement (.imaxS d a b) := by
  intro word hw
  have h : word.toNat = ((((1 * 128 + d.toNat) * 256 + a.toNat) * 256 + b.toNat) * 8 + 6) := by
    cases hw; rw [mkWord_toNat _ (by decide)]; simp only [append_toNat]; rfl
  have := d.isLt; have := a.isLt; have := b.isLt
  have e : (fld word 26 6).toNat = 1 := by rw [fld_toNat]; omega
  unfold decodeWord; rw [e]
  show decodeOp01 word = _
  unfold decodeOp01
  rw [(fld_eq word 0 3 6#3).2 (by simp only [BitVec.toNat_ofNat]; omega), (fld_eq word 19 7 d).2 (by omega), (fld_eq word 11 8 a).2 (by omega), (fld_eq word 3 8 b).2 (by omega)]
  rfl

theorem imaxU (d : BitVec 7) (a : BitVec 8) (b : BitVec 8) : Statement (.imaxU d a b) := by
  intro word hw
  have h : word.toNat = ((((1 * 128 + d.toNat) * 256 + a.toNat) * 256 + b.toNat) * 8 + 7) := by
    cases hw; rw [mkWord_toNat _ (by decide)]; simp only [append_toNat]; rfl
  have := d.isLt; have := a.isLt; have := b.isLt
  have e : (fld word 26 6).toNat = 1 := by rw [fld_toNat]; omega
  unfold decodeWord; rw [e]
  show decodeOp01 word = _
  unfold decodeOp01
  rw [(fld_eq word 0 3 7#3).2 (by simp only [BitVec.toNat_ofNat]; omega), (fld_eq word 19 7 d).2 (by omega), (fld_eq word 11 8 a).2 (by omega), (fld_eq word 3 8 b).2 (by omega)]
  rfl

theorem imul (d : BitVec 7) (a : BitVec 8) (b : BitVec 8) : Statement (.imul d a b) := by
  intro word hw
  have h : word.toNat = ((((2 * 128 + d.toNat) * 256 + a.toNat) * 256 + b.toNat) * 8 + 0) := by
    cases hw; rw [mkWord_toNat _ (by decide)]; simp only [append_toNat]; rfl
  have := d.isLt; have := a.isLt; have := b.isLt
  have e : (fld word 26 6).toNat = 2 := by rw [fld_toNat]; omega
  unfold decodeWord; rw [e]
  show decodeOp02 word = _
  unfold decodeOp02
  rw [(fld_eq word 0 3 0#3).2 (by simp only [BitVec.toNat_ofNat]; omega), (fld_eq word 19 7 d).2 (by omega), (fld_eq word 11 8 a).2 (by omega), (fld_eq word 3 8 b).2 (by omega)]
  rfl

theorem imulhS (d : BitVec 7) (a : BitVec 8) (b : BitVec 8) : Statement (.imulhS d a b) := by
  intro word hw
  have h : word.toNat = ((((2 * 128 + d.toNat) * 256 + a.toNat) * 256 + b.toNat) * 8 + 1) := by
    cases hw; rw [mkWord_toNat _ (by decide)]; simp only [append_toNat]; rfl
  have := d.isLt; have := a.isLt; have := b.isLt
  have e : (fld word 26 6).toNat = 2 := by rw [fld_toNat]; omega
  unfold decodeWord; rw [e]
  show decodeOp02 word = _
  unfold decodeOp02
  rw [(fld_eq word 0 3 1#3).2 (by simp only [BitVec.toNat_ofNat]; omega), (fld_eq word 19 7 d).2 (by omega), (fld_eq word 11 8 a).2 (by omega), (fld_eq word 3 8 b).2 (by omega)]
  rfl

theorem imulhU (d : BitVec 7) (a : BitVec 8) (b : BitVec 8) : Statement (.imulhU d a b) := by
  intro word hw
  have h : word.toNat = ((((2 * 128 + d.toNat) * 256 + a.toNat) * 256 + b.toNat) * 8 + 2) := by
    cases hw; rw [mkWord_toNat _ (by decide)]; simp only [append_toNat]; rfl
  have := d.isLt; have := a.isLt; have := b.isLt
  have e : (fld word 26 6).toNat = 2 := by rw [fld_toNat]; omega
  unfold decodeWord; rw [e]
  show decodeOp02 word = _
  unfold decodeOp02
  rw [(fld_eq word 0 3 2#3).2 (by simp only [BitVec.toNat_ofNat]; omega), (fld_eq word 19 7 d).2 (by omega), (fld_eq word 11 8 a).2 (by omega), (fld_eq word 3 8 b).2 (by omega)]
  rfl

theorem imac (d : BitVec 7) (a : BitVec 8) (b : BitVec 8) : Statement (.imac d a b) := by
  intro word hw
  have h : word.toNat = ((((2 * 128 + d.toNat) * 256 + a.toNat) * 256 + b.toNat) * 8 + 3) := by
    cases hw; rw [mkWord_toNat _ (by decide)]; simp only [append_toNat]; rfl
  have := d.isLt; have := a.isLt; have := b.isLt
  have e : (fld word 26 6).toNat = 2 := by rw [fld_toNat]; omega
  unfold decodeWord; rw [e]
  show decodeOp02 word = _
  unfold decodeOp02
  rw [(fld_eq word 0 3 3#3).2 (by simp only [BitVec.toNat_ofNat]; omega), (fld_eq word 19 7 d).2 (by omega), (fld_eq word 11 8 a).2 (by omega), (fld_eq word 3 8 b).2 (by omega)]
  rfl

theorem idot4S (d : BitVec 7) (a : BitVec 8) (b : BitVec 8) : Statement (.idot4S d a b) := by
  intro word hw
  have h : word.toNat = ((((2 * 128 + d.toNat) * 256 + a.toNat) * 256 + b.toNat) * 8 + 4) := by
    cases hw; rw [mkWord_toNat _ (by decide)]; simp only [append_toNat]; rfl
  have := d.isLt; have := a.isLt; have := b.isLt
  have e : (fld word 26 6).toNat = 2 := by rw [fld_toNat]; omega
  unfold decodeWord; rw [e]
  show decodeOp02 word = _
  unfold decodeOp02
  rw [(fld_eq word 0 3 4#3).2 (by simp only [BitVec.toNat_ofNat]; omega), (fld_eq word 19 7 d).2 (by omega), (fld_eq word 11 8 a).2 (by omega), (fld_eq word 3 8 b).2 (by omega)]
  rfl

theorem idot4U (d : BitVec 7) (a : BitVec 8) (b : BitVec 8) : Statement (.idot4U d a b) := by
  intro word hw
  have h : word.toNat = ((((2 * 128 + d.toNat) * 256 + a.toNat) * 256 + b.toNat) * 8 + 5) := by
    cases hw; rw [mkWord_toNat _ (by decide)]; simp only [append_toNat]; rfl
  have := d.isLt; have := a.isLt; have := b.isLt
  have e : (fld word 26 6).toNat = 2 := by rw [fld_toNat]; omega
  unfold decodeWord; rw [e]
  show decodeOp02 word = _
  unfold decodeOp02
  rw [(fld_eq word 0 3 5#3).2 (by simp only [BitVec.toNat_ofNat]; omega), (fld_eq word 19 7 d).2 (by omega), (fld_eq word 11 8 a).2 (by omega), (fld_eq word 3 8 b).2 (by omega)]
  rfl

theorem iabsd (d : BitVec 7) (a : BitVec 8) (b : BitVec 8) : Statement (.iabsd d a b) := by
  intro word hw
  have h : word.toNat = ((((2 * 128 + d.toNat) * 256 + a.toNat) * 256 + b.toNat) * 8 + 6) := by
    cases hw; rw [mkWord_toNat _ (by decide)]; simp only [append_toNat]; rfl
  have := d.isLt; have := a.isLt; have := b.isLt
  have e : (fld word 26 6).toNat = 2 := by rw [fld_toNat]; omega
  unfold decodeWord; rw [e]
  show decodeOp02 word = _
  unfold decodeOp02
  rw [(fld_eq word 0 3 6#3).2 (by simp only [BitVec.toNat_ofNat]; omega), (fld_eq word 19 7 d).2 (by omega), (fld_eq word 11 8 a).2 (by omega), (fld_eq word 3 8 b).2 (by omega)]
  rfl

theorem and (d : BitVec 7) (a : BitVec 8) (b : BitVec 8) : Statement (.and d a b) := by
  intro word hw
  have h : word.toNat = ((((3 * 128 + d.toNat) * 256 + a.toNat) * 256 + b.toNat) * 8 + 0) := by
    cases hw; rw [mkWord_toNat _ (by decide)]; simp only [append_toNat]; rfl
  have := d.isLt; have := a.isLt; have := b.isLt
  have e : (fld word 26 6).toNat = 3 := by rw [fld_toNat]; omega
  unfold decodeWord; rw [e]
  show decodeOp03 word = _
  unfold decodeOp03
  rw [(fld_eq word 0 3 0#3).2 (by simp only [BitVec.toNat_ofNat]; omega), (fld_eq word 19 7 d).2 (by omega), (fld_eq word 11 8 a).2 (by omega), (fld_eq word 3 8 b).2 (by omega)]
  rfl

theorem or (d : BitVec 7) (a : BitVec 8) (b : BitVec 8) : Statement (.or d a b) := by
  intro word hw
  have h : word.toNat = ((((3 * 128 + d.toNat) * 256 + a.toNat) * 256 + b.toNat) * 8 + 1) := by
    cases hw; rw [mkWord_toNat _ (by decide)]; simp only [append_toNat]; rfl
  have := d.isLt; have := a.isLt; have := b.isLt
  have e : (fld word 26 6).toNat = 3 := by rw [fld_toNat]; omega
  unfold decodeWord; rw [e]
  show decodeOp03 word = _
  unfold decodeOp03
  rw [(fld_eq word 0 3 1#3).2 (by simp only [BitVec.toNat_ofNat]; omega), (fld_eq word 19 7 d).2 (by omega), (fld_eq word 11 8 a).2 (by omega), (fld_eq word 3 8 b).2 (by omega)]
  rfl

theorem xor (d : BitVec 7) (a : BitVec 8) (b : BitVec 8) : Statement (.xor d a b) := by
  intro word hw
  have h : word.toNat = ((((3 * 128 + d.toNat) * 256 + a.toNat) * 256 + b.toNat) * 8 + 2) := by
    cases hw; rw [mkWord_toNat _ (by decide)]; simp only [append_toNat]; rfl
  have := d.isLt; have := a.isLt; have := b.isLt
  have e : (fld word 26 6).toNat = 3 := by rw [fld_toNat]; omega
  unfold decodeWord; rw [e]
  show decodeOp03 word = _
  unfold decodeOp03
  rw [(fld_eq word 0 3 2#3).2 (by simp only [BitVec.toNat_ofNat]; omega), (fld_eq word 19 7 d).2 (by omega), (fld_eq word 11 8 a).2 (by omega), (fld_eq word 3 8 b).2 (by omega)]
  rfl

theorem andn (d : BitVec 7) (a : BitVec 8) (b : BitVec 8) : Statement (.andn d a b) := by
  intro word hw
  have h : word.toNat = ((((3 * 128 + d.toNat) * 256 + a.toNat) * 256 + b.toNat) * 8 + 3) := by
    cases hw; rw [mkWord_toNat _ (by decide)]; simp only [append_toNat]; rfl
  have := d.isLt; have := a.isLt; have := b.isLt
  have e : (fld word 26 6).toNat = 3 := by rw [fld_toNat]; omega
  unfold decodeWord; rw [e]
  show decodeOp03 word = _
  unfold decodeOp03
  rw [(fld_eq word 0 3 3#3).2 (by simp only [BitVec.toNat_ofNat]; omega), (fld_eq word 19 7 d).2 (by omega), (fld_eq word 11 8 a).2 (by omega), (fld_eq word 3 8 b).2 (by omega)]
  rfl

theorem orn (d : BitVec 7) (a : BitVec 8) (b : BitVec 8) : Statement (.orn d a b) := by
  intro word hw
  have h : word.toNat = ((((3 * 128 + d.toNat) * 256 + a.toNat) * 256 + b.toNat) * 8 + 4) := by
    cases hw; rw [mkWord_toNat _ (by decide)]; simp only [append_toNat]; rfl
  have := d.isLt; have := a.isLt; have := b.isLt
  have e : (fld word 26 6).toNat = 3 := by rw [fld_toNat]; omega
  unfold decodeWord; rw [e]
  show decodeOp03 word = _
  unfold decodeOp03
  rw [(fld_eq word 0 3 4#3).2 (by simp only [BitVec.toNat_ofNat]; omega), (fld_eq word 19 7 d).2 (by omega), (fld_eq word 11 8 a).2 (by omega), (fld_eq word 3 8 b).2 (by omega)]
  rfl

theorem xnor (d : BitVec 7) (a : BitVec 8) (b : BitVec 8) : Statement (.xnor d a b) := by
  intro word hw
  have h : word.toNat = ((((3 * 128 + d.toNat) * 256 + a.toNat) * 256 + b.toNat) * 8 + 5) := by
    cases hw; rw [mkWord_toNat _ (by decide)]; simp only [append_toNat]; rfl
  have := d.isLt; have := a.isLt; have := b.isLt
  have e : (fld word 26 6).toNat = 3 := by rw [fld_toNat]; omega
  unfold decodeWord; rw [e]
  show decodeOp03 word = _
  unfold decodeOp03
  rw [(fld_eq word 0 3 5#3).2 (by simp only [BitVec.toNat_ofNat]; omega), (fld_eq word 19 7 d).2 (by omega), (fld_eq word 11 8 a).2 (by omega), (fld_eq word 3 8 b).2 (by omega)]
  rfl

theorem shl (d : BitVec 7) (a : BitVec 8) (b : BitVec 8) : Statement (.shl d a b) := by
  intro word hw
  have h : word.toNat = ((((4 * 128 + d.toNat) * 256 + a.toNat) * 256 + b.toNat) * 8 + 0) := by
    cases hw; rw [mkWord_toNat _ (by decide)]; simp only [append_toNat]; rfl
  have := d.isLt; have := a.isLt; have := b.isLt
  have e : (fld word 26 6).toNat = 4 := by rw [fld_toNat]; omega
  unfold decodeWord; rw [e]
  show decodeOp04 word = _
  unfold decodeOp04
  rw [(fld_eq word 0 3 0#3).2 (by simp only [BitVec.toNat_ofNat]; omega), (fld_eq word 19 7 d).2 (by omega), (fld_eq word 11 8 a).2 (by omega), (fld_eq word 3 8 b).2 (by omega)]
  rfl

theorem shr (d : BitVec 7) (a : BitVec 8) (b : BitVec 8) : Statement (.shr d a b) := by
  intro word hw
  have h : word.toNat = ((((4 * 128 + d.toNat) * 256 + a.toNat) * 256 + b.toNat) * 8 + 1) := by
    cases hw; rw [mkWord_toNat _ (by decide)]; simp only [append_toNat]; rfl
  have := d.isLt; have := a.isLt; have := b.isLt
  have e : (fld word 26 6).toNat = 4 := by rw [fld_toNat]; omega
  unfold decodeWord; rw [e]
  show decodeOp04 word = _
  unfold decodeOp04
  rw [(fld_eq word 0 3 1#3).2 (by simp only [BitVec.toNat_ofNat]; omega), (fld_eq word 19 7 d).2 (by omega), (fld_eq word 11 8 a).2 (by omega), (fld_eq word 3 8 b).2 (by omega)]
  rfl

theorem sar (d : BitVec 7) (a : BitVec 8) (b : BitVec 8) : Statement (.sar d a b) := by
  intro word hw
  have h : word.toNat = ((((4 * 128 + d.toNat) * 256 + a.toNat) * 256 + b.toNat) * 8 + 2) := by
    cases hw; rw [mkWord_toNat _ (by decide)]; simp only [append_toNat]; rfl
  have := d.isLt; have := a.isLt; have := b.isLt
  have e : (fld word 26 6).toNat = 4 := by rw [fld_toNat]; omega
  unfold decodeWord; rw [e]
  show decodeOp04 word = _
  unfold decodeOp04
  rw [(fld_eq word 0 3 2#3).2 (by simp only [BitVec.toNat_ofNat]; omega), (fld_eq word 19 7 d).2 (by omega), (fld_eq word 11 8 a).2 (by omega), (fld_eq word 3 8 b).2 (by omega)]
  rfl

theorem rol (d : BitVec 7) (a : BitVec 8) (b : BitVec 8) : Statement (.rol d a b) := by
  intro word hw
  have h : word.toNat = ((((4 * 128 + d.toNat) * 256 + a.toNat) * 256 + b.toNat) * 8 + 3) := by
    cases hw; rw [mkWord_toNat _ (by decide)]; simp only [append_toNat]; rfl
  have := d.isLt; have := a.isLt; have := b.isLt
  have e : (fld word 26 6).toNat = 4 := by rw [fld_toNat]; omega
  unfold decodeWord; rw [e]
  show decodeOp04 word = _
  unfold decodeOp04
  rw [(fld_eq word 0 3 3#3).2 (by simp only [BitVec.toNat_ofNat]; omega), (fld_eq word 19 7 d).2 (by omega), (fld_eq word 11 8 a).2 (by omega), (fld_eq word 3 8 b).2 (by omega)]
  rfl

theorem ror (d : BitVec 7) (a : BitVec 8) (b : BitVec 8) : Statement (.ror d a b) := by
  intro word hw
  have h : word.toNat = ((((4 * 128 + d.toNat) * 256 + a.toNat) * 256 + b.toNat) * 8 + 4) := by
    cases hw; rw [mkWord_toNat _ (by decide)]; simp only [append_toNat]; rfl
  have := d.isLt; have := a.isLt; have := b.isLt
  have e : (fld word 26 6).toNat = 4 := by rw [fld_toNat]; omega
  unfold decodeWord; rw [e]
  show decodeOp04 word = _
  unfold decodeOp04
  rw [(fld_eq word 0 3 4#3).2 (by simp only [BitVec.toNat_ofNat]; omega), (fld_eq word 19 7 d).2 (by omega), (fld_eq word 11 8 a).2 (by omega), (fld_eq word 3 8 b).2 (by omega)]
  rfl

theorem fshr (d : BitVec 7) (a : BitVec 8) (b : BitVec 8) : Statement (.fshr d a b) := by
  intro word hw
  have h : word.toNat = ((((4 * 128 + d.toNat) * 256 + a.toNat) * 256 + b.toNat) * 8 + 5) := by
    cases hw; rw [mkWord_toNat _ (by decide)]; simp only [append_toNat]; rfl
  have := d.isLt; have := a.isLt; have := b.isLt
  have e : (fld word 26 6).toNat = 4 := by rw [fld_toNat]; omega
  unfold decodeWord; rw [e]
  show decodeOp04 word = _
  unfold decodeOp04
  rw [(fld_eq word 0 3 5#3).2 (by simp only [BitVec.toNat_ofNat]; omega), (fld_eq word 19 7 d).2 (by omega), (fld_eq word 11 8 a).2 (by omega), (fld_eq word 3 8 b).2 (by omega)]
  rfl

theorem popc (d : BitVec 7) (a : BitVec 8) : Statement (.popc d a) := by
  intro word hw
  have h : word.toNat = (((5 * 128 + d.toNat) * 256 + a.toNat) * 2048 + 0) := by
    cases hw; rw [mkWord_toNat _ (by decide)]; simp only [append_toNat]; rfl
  have := d.isLt; have := a.isLt
  have e : (fld word 26 6).toNat = 5 := by rw [fld_toNat]; omega
  unfold decodeWord; rw [e]
  show decodeOp05 word = _
  unfold decodeOp05
  rw [(fld_eq word 0 11 0#11).2 (by simp only [BitVec.toNat_ofNat]; omega), (fld_eq word 19 7 d).2 (by omega), (fld_eq word 11 8 a).2 (by omega)]
  rfl

theorem clz (d : BitVec 7) (a : BitVec 8) : Statement (.clz d a) := by
  intro word hw
  have h : word.toNat = (((5 * 128 + d.toNat) * 256 + a.toNat) * 2048 + 1) := by
    cases hw; rw [mkWord_toNat _ (by decide)]; simp only [append_toNat]; rfl
  have := d.isLt; have := a.isLt
  have e : (fld word 26 6).toNat = 5 := by rw [fld_toNat]; omega
  unfold decodeWord; rw [e]
  show decodeOp05 word = _
  unfold decodeOp05
  rw [(fld_eq word 0 11 1#11).2 (by simp only [BitVec.toNat_ofNat]; omega), (fld_eq word 19 7 d).2 (by omega), (fld_eq word 11 8 a).2 (by omega)]
  rfl

theorem ctz (d : BitVec 7) (a : BitVec 8) : Statement (.ctz d a) := by
  intro word hw
  have h : word.toNat = (((5 * 128 + d.toNat) * 256 + a.toNat) * 2048 + 2) := by
    cases hw; rw [mkWord_toNat _ (by decide)]; simp only [append_toNat]; rfl
  have := d.isLt; have := a.isLt
  have e : (fld word 26 6).toNat = 5 := by rw [fld_toNat]; omega
  unfold decodeWord; rw [e]
  show decodeOp05 word = _
  unfold decodeOp05
  rw [(fld_eq word 0 11 2#11).2 (by simp only [BitVec.toNat_ofNat]; omega), (fld_eq word 19 7 d).2 (by omega), (fld_eq word 11 8 a).2 (by omega)]
  rfl

theorem brev (d : BitVec 7) (a : BitVec 8) : Statement (.brev d a) := by
  intro word hw
  have h : word.toNat = (((5 * 128 + d.toNat) * 256 + a.toNat) * 2048 + 3) := by
    cases hw; rw [mkWord_toNat _ (by decide)]; simp only [append_toNat]; rfl
  have := d.isLt; have := a.isLt
  have e : (fld word 26 6).toNat = 5 := by rw [fld_toNat]; omega
  unfold decodeWord; rw [e]
  show decodeOp05 word = _
  unfold decodeOp05
  rw [(fld_eq word 0 11 3#11).2 (by simp only [BitVec.toNat_ofNat]; omega), (fld_eq word 19 7 d).2 (by omega), (fld_eq word 11 8 a).2 (by omega)]
  rfl

theorem bfxS (d : BitVec 7) (a : BitVec 8) (b : BitVec 8) : Statement (.bfxS d a b) := by
  intro word hw
  have h : word.toNat = ((((5 * 128 + d.toNat) * 256 + a.toNat) * 256 + b.toNat) * 8 + 4) := by
    cases hw; rw [mkWord_toNat _ (by decide)]; simp only [append_toNat]; rfl
  have := d.isLt; have := a.isLt; have := b.isLt
  have e : (fld word 26 6).toNat = 5 := by rw [fld_toNat]; omega
  unfold decodeWord; rw [e]
  show decodeOp05 word = _
  unfold decodeOp05
  simp only [fld_eq]
  rw [if_neg (by simp only [BitVec.toNat_ofNat]; omega), if_neg (by simp only [BitVec.toNat_ofNat]; omega), if_neg (by simp only [BitVec.toNat_ofNat]; omega), if_neg (by simp only [BitVec.toNat_ofNat]; omega), if_pos (by simp only [BitVec.toNat_ofNat]; omega)]
  rw [(fld_eq word 19 7 d).2 (by omega), (fld_eq word 11 8 a).2 (by omega), (fld_eq word 3 8 b).2 (by omega)]

theorem bfxU (d : BitVec 7) (a : BitVec 8) (b : BitVec 8) : Statement (.bfxU d a b) := by
  intro word hw
  have h : word.toNat = ((((5 * 128 + d.toNat) * 256 + a.toNat) * 256 + b.toNat) * 8 + 5) := by
    cases hw; rw [mkWord_toNat _ (by decide)]; simp only [append_toNat]; rfl
  have := d.isLt; have := a.isLt; have := b.isLt
  have e : (fld word 26 6).toNat = 5 := by rw [fld_toNat]; omega
  unfold decodeWord; rw [e]
  show decodeOp05 word = _
  unfold decodeOp05
  simp only [fld_eq]
  rw [if_neg (by simp only [BitVec.toNat_ofNat]; omega), if_neg (by simp only [BitVec.toNat_ofNat]; omega), if_neg (by simp only [BitVec.toNat_ofNat]; omega), if_neg (by simp only [BitVec.toNat_ofNat]; omega), if_neg (by simp only [BitVec.toNat_ofNat]; omega), if_pos (by simp only [BitVec.toNat_ofNat]; omega)]
  rw [(fld_eq word 19 7 d).2 (by omega), (fld_eq word 11 8 a).2 (by omega), (fld_eq word 3 8 b).2 (by omega)]

theorem bfi (d : BitVec 7) (a : BitVec 8) (b : BitVec 8) : Statement (.bfi d a b) := by
  intro word hw
  have h : word.toNat = ((((5 * 128 + d.toNat) * 256 + a.toNat) * 256 + b.toNat) * 8 + 6) := by
    cases hw; rw [mkWord_toNat _ (by decide)]; simp only [append_toNat]; rfl
  have := d.isLt; have := a.isLt; have := b.isLt
  have e : (fld word 26 6).toNat = 5 := by rw [fld_toNat]; omega
  unfold decodeWord; rw [e]
  show decodeOp05 word = _
  unfold decodeOp05
  simp only [fld_eq]
  rw [if_neg (by simp only [BitVec.toNat_ofNat]; omega), if_neg (by simp only [BitVec.toNat_ofNat]; omega), if_neg (by simp only [BitVec.toNat_ofNat]; omega), if_neg (by simp only [BitVec.toNat_ofNat]; omega), if_neg (by simp only [BitVec.toNat_ofNat]; omega), if_neg (by simp only [BitVec.toNat_ofNat]; omega), if_pos (by simp only [BitVec.toNat_ofNat]; omega)]
  rw [(fld_eq word 19 7 d).2 (by omega), (fld_eq word 11 8 a).2 (by omega), (fld_eq word 3 8 b).2 (by omega)]

theorem permb (d : BitVec 7) (a : BitVec 8) (b : BitVec 8) : Statement (.permb d a b) := by
  intro word hw
  have h : word.toNat = ((((5 * 128 + d.toNat) * 256 + a.toNat) * 256 + b.toNat) * 8 + 7) := by
    cases hw; rw [mkWord_toNat _ (by decide)]; simp only [append_toNat]; rfl
  have := d.isLt; have := a.isLt; have := b.isLt
  have e : (fld word 26 6).toNat = 5 := by rw [fld_toNat]; omega
  unfold decodeWord; rw [e]
  show decodeOp05 word = _
  unfold decodeOp05
  simp only [fld_eq]
  rw [if_neg (by simp only [BitVec.toNat_ofNat]; omega), if_neg (by simp only [BitVec.toNat_ofNat]; omega), if_neg (by simp only [BitVec.toNat_ofNat]; omega), if_neg (by simp only [BitVec.toNat_ofNat]; omega), if_neg (by simp only [BitVec.toNat_ofNat]; omega), if_neg (by simp only [BitVec.toNat_ofNat]; omega), if_neg (by simp only [BitVec.toNat_ofNat]; omega), if_pos (by simp only [BitVec.toNat_ofNat]; omega)]
  rw [(fld_eq word 19 7 d).2 (by omega), (fld_eq word 11 8 a).2 (by omega), (fld_eq word 3 8 b).2 (by omega)]

theorem iaddi (d : BitVec 7) (a : BitVec 8) (i : BitVec 11) : Statement (.iaddi d a i) := by
  intro word hw
  have h : word.toNat = (((6 * 128 + d.toNat) * 256 + a.toNat) * 2048 + i.toNat) := by
    cases hw; rw [mkWord_toNat _ (by decide)]; simp only [append_toNat]; rfl
  have := d.isLt; have := a.isLt; have := i.isLt
  have e : (fld word 26 6).toNat = 6 := by rw [fld_toNat]; omega
  unfold decodeWord; rw [e]
  show decodeOp06 word = _
  unfold decodeOp06
  rw [(fld_eq word 19 7 d).2 (by omega), (fld_eq word 11 8 a).2 (by omega), (fld_eq word 0 11 i).2 (by omega)]

theorem andi (d : BitVec 7) (a : BitVec 8) (i : BitVec 11) : Statement (.andi d a i) := by
  intro word hw
  have h : word.toNat = (((7 * 128 + d.toNat) * 256 + a.toNat) * 2048 + i.toNat) := by
    cases hw; rw [mkWord_toNat _ (by decide)]; simp only [append_toNat]; rfl
  have := d.isLt; have := a.isLt; have := i.isLt
  have e : (fld word 26 6).toNat = 7 := by rw [fld_toNat]; omega
  unfold decodeWord; rw [e]
  show decodeOp07 word = _
  unfold decodeOp07
  rw [(fld_eq word 19 7 d).2 (by omega), (fld_eq word 11 8 a).2 (by omega), (fld_eq word 0 11 i).2 (by omega)]

theorem ori (d : BitVec 7) (a : BitVec 8) (i : BitVec 11) : Statement (.ori d a i) := by
  intro word hw
  have h : word.toNat = (((8 * 128 + d.toNat) * 256 + a.toNat) * 2048 + i.toNat) := by
    cases hw; rw [mkWord_toNat _ (by decide)]; simp only [append_toNat]; rfl
  have := d.isLt; have := a.isLt; have := i.isLt
  have e : (fld word 26 6).toNat = 8 := by rw [fld_toNat]; omega
  unfold decodeWord; rw [e]
  show decodeOp08 word = _
  unfold decodeOp08
  rw [(fld_eq word 19 7 d).2 (by omega), (fld_eq word 11 8 a).2 (by omega), (fld_eq word 0 11 i).2 (by omega)]

theorem xori (d : BitVec 7) (a : BitVec 8) (i : BitVec 11) : Statement (.xori d a i) := by
  intro word hw
  have h : word.toNat = (((9 * 128 + d.toNat) * 256 + a.toNat) * 2048 + i.toNat) := by
    cases hw; rw [mkWord_toNat _ (by decide)]; simp only [append_toNat]; rfl
  have := d.isLt; have := a.isLt; have := i.isLt
  have e : (fld word 26 6).toNat = 9 := by rw [fld_toNat]; omega
  unfold decodeWord; rw [e]
  show decodeOp09 word = _
  unfold decodeOp09
  rw [(fld_eq word 19 7 d).2 (by omega), (fld_eq word 11 8 a).2 (by omega), (fld_eq word 0 11 i).2 (by omega)]

theorem shli (d : BitVec 7) (a : BitVec 8) (n : BitVec 5) : Statement (.shli d a n) := by
  intro word hw
  have h : word.toNat = ((((10 * 128 + d.toNat) * 256 + a.toNat) * 64 + 0) * 32 + n.toNat) := by
    cases hw; rw [mkWord_toNat _ (by decide)]; simp only [append_toNat]; rfl
  have := d.isLt; have := a.isLt; have := n.isLt
  have e : (fld word 26 6).toNat = 10 := by rw [fld_toNat]; omega
  unfold decodeWord; rw [e]
  show decodeOp0A word = _
  unfold decodeOp0A
  rw [(fld_eq word 5 6 0#6).2 (by simp only [BitVec.toNat_ofNat]; omega), (fld_eq word 19 7 d).2 (by omega), (fld_eq word 11 8 a).2 (by omega), (fld_eq word 0 5 n).2 (by omega)]
  rfl

theorem shri (d : BitVec 7) (a : BitVec 8) (n : BitVec 5) : Statement (.shri d a n) := by
  intro word hw
  have h : word.toNat = ((((10 * 128 + d.toNat) * 256 + a.toNat) * 64 + 8) * 32 + n.toNat) := by
    cases hw; rw [mkWord_toNat _ (by decide)]; simp only [append_toNat]; rfl
  have := d.isLt; have := a.isLt; have := n.isLt
  have e : (fld word 26 6).toNat = 10 := by rw [fld_toNat]; omega
  unfold decodeWord; rw [e]
  show decodeOp0A word = _
  unfold decodeOp0A
  rw [(fld_eq word 5 6 8#6).2 (by simp only [BitVec.toNat_ofNat]; omega), (fld_eq word 19 7 d).2 (by omega), (fld_eq word 11 8 a).2 (by omega), (fld_eq word 0 5 n).2 (by omega)]
  rfl

theorem sari (d : BitVec 7) (a : BitVec 8) (n : BitVec 5) : Statement (.sari d a n) := by
  intro word hw
  have h : word.toNat = ((((10 * 128 + d.toNat) * 256 + a.toNat) * 64 + 16) * 32 + n.toNat) := by
    cases hw; rw [mkWord_toNat _ (by decide)]; simp only [append_toNat]; rfl
  have := d.isLt; have := a.isLt; have := n.isLt
  have e : (fld word 26 6).toNat = 10 := by rw [fld_toNat]; omega
  unfold decodeWord; rw [e]
  show decodeOp0A word = _
  unfold decodeOp0A
  rw [(fld_eq word 5 6 16#6).2 (by simp only [BitVec.toNat_ofNat]; omega), (fld_eq word 19 7 d).2 (by omega), (fld_eq word 11 8 a).2 (by omega), (fld_eq word 0 5 n).2 (by omega)]
  rfl

theorem roli (d : BitVec 7) (a : BitVec 8) (n : BitVec 5) : Statement (.roli d a n) := by
  intro word hw
  have h : word.toNat = ((((10 * 128 + d.toNat) * 256 + a.toNat) * 64 + 24) * 32 + n.toNat) := by
    cases hw; rw [mkWord_toNat _ (by decide)]; simp only [append_toNat]; rfl
  have := d.isLt; have := a.isLt; have := n.isLt
  have e : (fld word 26 6).toNat = 10 := by rw [fld_toNat]; omega
  unfold decodeWord; rw [e]
  show decodeOp0A word = _
  unfold decodeOp0A
  rw [(fld_eq word 5 6 24#6).2 (by simp only [BitVec.toNat_ofNat]; omega), (fld_eq word 19 7 d).2 (by omega), (fld_eq word 11 8 a).2 (by omega), (fld_eq word 0 5 n).2 (by omega)]
  rfl

theorem rori (d : BitVec 7) (a : BitVec 8) (n : BitVec 5) : Statement (.rori d a n) := by
  intro word hw
  have h : word.toNat = ((((10 * 128 + d.toNat) * 256 + a.toNat) * 64 + 32) * 32 + n.toNat) := by
    cases hw; rw [mkWord_toNat _ (by decide)]; simp only [append_toNat]; rfl
  have := d.isLt; have := a.isLt; have := n.isLt
  have e : (fld word 26 6).toNat = 10 := by rw [fld_toNat]; omega
  unfold decodeWord; rw [e]
  show decodeOp0A word = _
  unfold decodeOp0A
  rw [(fld_eq word 5 6 32#6).2 (by simp only [BitVec.toNat_ofNat]; omega), (fld_eq word 19 7 d).2 (by omega), (fld_eq word 11 8 a).2 (by omega), (fld_eq word 0 5 n).2 (by omega)]
  rfl

theorem icmp (p : BitVec 3) (c : BitVec 4) (a : BitVec 8) (b : BitVec 8) : Statement (.icmp p c a b) := by
  intro word hw
  have h : word.toNat = (((((11 * 8 + p.toNat) * 16 + c.toNat) * 256 + a.toNat) * 256 + b.toNat) * 8 + 0) := by
    cases hw; rw [mkWord_toNat _ (by decide)]; simp only [append_toNat]; rfl
  have := p.isLt; have := c.isLt; have := a.isLt; have := b.isLt
  have e : (fld word 26 6).toNat = 11 := by rw [fld_toNat]; omega
  unfold decodeWord; rw [e]
  show decodeOp0B word = _
  unfold decodeOp0B
  rw [(fld_eq word 0 3 0#3).2 (by simp only [BitVec.toNat_ofNat]; omega), (fld_eq word 23 3 p).2 (by omega), (fld_eq word 19 4 c).2 (by omega), (fld_eq word 11 8 a).2 (by omega), (fld_eq word 3 8 b).2 (by omega)]
  rfl

theorem icmpAnd (p : BitVec 3) (c : BitVec 4) (a : BitVec 8) (b : BitVec 8) : Statement (.icmpAnd p c a b) := by
  intro word hw
  have h : word.toNat = (((((11 * 8 + p.toNat) * 16 + c.toNat) * 256 + a.toNat) * 256 + b.toNat) * 8 + 1) := by
    cases hw; rw [mkWord_toNat _ (by decide)]; simp only [append_toNat]; rfl
  have := p.isLt; have := c.isLt; have := a.isLt; have := b.isLt
  have e : (fld word 26 6).toNat = 11 := by rw [fld_toNat]; omega
  unfold decodeWord; rw [e]
  show decodeOp0B word = _
  unfold decodeOp0B
  rw [(fld_eq word 0 3 1#3).2 (by simp only [BitVec.toNat_ofNat]; omega), (fld_eq word 23 3 p).2 (by omega), (fld_eq word 19 4 c).2 (by omega), (fld_eq word 11 8 a).2 (by omega), (fld_eq word 3 8 b).2 (by omega)]
  rfl

theorem icmpOr (p : BitVec 3) (c : BitVec 4) (a : BitVec 8) (b : BitVec 8) : Statement (.icmpOr p c a b) := by
  intro word hw
  have h : word.toNat = (((((11 * 8 + p.toNat) * 16 + c.toNat) * 256 + a.toNat) * 256 + b.toNat) * 8 + 2) := by
    cases hw; rw [mkWord_toNat _ (by decide)]; simp only [append_toNat]; rfl
  have := p.isLt; have := c.isLt; have := a.isLt; have := b.isLt
  have e : (fld word 26 6).toNat = 11 := by rw [fld_toNat]; omega
  unfold decodeWord; rw [e]
  show decodeOp0B word = _
  unfold decodeOp0B
  rw [(fld_eq word 0 3 2#3).2 (by simp only [BitVec.toNat_ofNat]; omega), (fld_eq word 23 3 p).2 (by omega), (fld_eq word 19 4 c).2 (by omega), (fld_eq word 11 8 a).2 (by omega), (fld_eq word 3 8 b).2 (by omega)]
  rfl

theorem fcmp (p : BitVec 3) (c : BitVec 4) (a : BitVec 8) (b : BitVec 8) (w : BitVec 1) : Statement (.fcmp p c a b w) := by
  intro word hw
  have h : word.toNat = ((((((12 * 8 + p.toNat) * 16 + c.toNat) * 256 + a.toNat) * 256 + b.toNat) * 2 + w.toNat) * 4 + 0) := by
    cases hw; rw [mkWord_toNat _ (by decide)]; simp only [append_toNat]; rfl
  have := p.isLt; have := c.isLt; have := a.isLt; have := b.isLt; have := w.isLt
  have e : (fld word 26 6).toNat = 12 := by rw [fld_toNat]; omega
  unfold decodeWord; rw [e]
  show decodeOp0C word = _
  unfold decodeOp0C
  rw [(fld_eq word 0 2 0#2).2 (by simp only [BitVec.toNat_ofNat]; omega), (fld_eq word 23 3 p).2 (by omega), (fld_eq word 19 4 c).2 (by omega), (fld_eq word 11 8 a).2 (by omega), (fld_eq word 3 8 b).2 (by omega), (fld_eq word 2 1 w).2 (by omega)]
  rfl

theorem fcmpAnd (p : BitVec 3) (c : BitVec 4) (a : BitVec 8) (b : BitVec 8) (w : BitVec 1) : Statement (.fcmpAnd p c a b w) := by
  intro word hw
  have h : word.toNat = ((((((12 * 8 + p.toNat) * 16 + c.toNat) * 256 + a.toNat) * 256 + b.toNat) * 2 + w.toNat) * 4 + 1) := by
    cases hw; rw [mkWord_toNat _ (by decide)]; simp only [append_toNat]; rfl
  have := p.isLt; have := c.isLt; have := a.isLt; have := b.isLt; have := w.isLt
  have e : (fld word 26 6).toNat = 12 := by rw [fld_toNat]; omega
  unfold decodeWord; rw [e]
  show decodeOp0C word = _
  unfold decodeOp0C
  rw [(fld_eq word 0 2 1#2).2 (by simp only [BitVec.toNat_ofNat]; omega), (fld_eq word 23 3 p).2 (by omega), (fld_eq word 19 4 c).2 (by omega), (fld_eq word 11 8 a).2 (by omega), (fld_eq word 3 8 b).2 (by omega), (fld_eq word 2 1 w).2 (by omega)]
  rfl

theorem fcmpOr (p : BitVec 3) (c : BitVec 4) (a : BitVec 8) (b : BitVec 8) (w : BitVec 1) : Statement (.fcmpOr p c a b w) := by
  intro word hw
  have h : word.toNat = ((((((12 * 8 + p.toNat) * 16 + c.toNat) * 256 + a.toNat) * 256 + b.toNat) * 2 + w.toNat) * 4 + 2) := by
    cases hw; rw [mkWord_toNat _ (by decide)]; simp only [append_toNat]; rfl
  have := p.isLt; have := c.isLt; have := a.isLt; have := b.isLt; have := w.isLt
  have e : (fld word 26 6).toNat = 12 := by rw [fld_toNat]; omega
  unfold decodeWord; rw [e]
  show decodeOp0C word = _
  unfold decodeOp0C
  rw [(fld_eq word 0 2 2#2).2 (by simp only [BitVec.toNat_ofNat]; omega), (fld_eq word 23 3 p).2 (by omega), (fld_eq word 19 4 c).2 (by omega), (fld_eq word 11 8 a).2 (by omega), (fld_eq word 3 8 b).2 (by omega), (fld_eq word 2 1 w).2 (by omega)]
  rfl

theorem pand (d : BitVec 3) (a : BitVec 3) (b : BitVec 3) : Statement (.pand d a b) := by
  intro word hw
  have h : word.toNat = ((((((13 * 8 + d.toNat) * 512 + 0) * 8 + a.toNat) * 32 + 0) * 8 + b.toNat) * 8 + 0) := by
    cases hw; rw [mkWord_toNat _ (by decide)]; simp only [append_toNat]; rfl
  have := d.isLt; have := a.isLt; have := b.isLt
  have e : (fld word 26 6).toNat = 13 := by rw [fld_toNat]; omega
  unfold decodeWord; rw [e]
  show decodeOp0D word = _
  unfold decodeOp0D
  simp only [fld_eq]
  rw [if_pos (by simp only [BitVec.toNat_ofNat]; omega)]
  rw [(fld_eq word 23 3 d).2 (by omega), (fld_eq word 11 3 a).2 (by omega), (fld_eq word 3 3 b).2 (by omega)]

theorem por (d : BitVec 3) (a : BitVec 3) (b : BitVec 3) : Statement (.por d a b) := by
  intro word hw
  have h : word.toNat = ((((((13 * 8 + d.toNat) * 512 + 32) * 8 + a.toNat) * 32 + 0) * 8 + b.toNat) * 8 + 0) := by
    cases hw; rw [mkWord_toNat _ (by decide)]; simp only [append_toNat]; rfl
  have := d.isLt; have := a.isLt; have := b.isLt
  have e : (fld word 26 6).toNat = 13 := by rw [fld_toNat]; omega
  unfold decodeWord; rw [e]
  show decodeOp0D word = _
  unfold decodeOp0D
  simp only [fld_eq]
  rw [if_neg (by simp only [BitVec.toNat_ofNat]; omega), if_pos (by simp only [BitVec.toNat_ofNat]; omega)]
  rw [(fld_eq word 23 3 d).2 (by omega), (fld_eq word 11 3 a).2 (by omega), (fld_eq word 3 3 b).2 (by omega)]

theorem pxor (d : BitVec 3) (a : BitVec 3) (b : BitVec 3) : Statement (.pxor d a b) := by
  intro word hw
  have h : word.toNat = ((((((13 * 8 + d.toNat) * 512 + 64) * 8 + a.toNat) * 32 + 0) * 8 + b.toNat) * 8 + 0) := by
    cases hw; rw [mkWord_toNat _ (by decide)]; simp only [append_toNat]; rfl
  have := d.isLt; have := a.isLt; have := b.isLt
  have e : (fld word 26 6).toNat = 13 := by rw [fld_toNat]; omega
  unfold decodeWord; rw [e]
  show decodeOp0D word = _
  unfold decodeOp0D
  simp only [fld_eq]
  rw [if_neg (by simp only [BitVec.toNat_ofNat]; omega), if_neg (by simp only [BitVec.toNat_ofNat]; omega), if_pos (by simp only [BitVec.toNat_ofNat]; omega)]
  rw [(fld_eq word 23 3 d).2 (by omega), (fld_eq word 11 3 a).2 (by omega), (fld_eq word 3 3 b).2 (by omega)]

theorem pnot (d : BitVec 3) (a : BitVec 3) : Statement (.pnot d a) := by
  intro word hw
  have h : word.toNat = ((((13 * 8 + d.toNat) * 512 + 96) * 8 + a.toNat) * 2048 + 0) := by
    cases hw; rw [mkWord_toNat _ (by decide)]; simp only [append_toNat]; rfl
  have := d.isLt; have := a.isLt
  have e : (fld word 26 6).toNat = 13 := by rw [fld_toNat]; omega
  unfold decodeWord; rw [e]
  show decodeOp0D word = _
  unfold decodeOp0D
  simp only [fld_eq]
  rw [if_neg (by simp only [BitVec.toNat_ofNat]; omega), if_neg (by simp only [BitVec.toNat_ofNat]; omega), if_neg (by simp only [BitVec.toNat_ofNat]; omega), if_pos (by simp only [BitVec.toNat_ofNat]; omega)]
  rw [(fld_eq word 23 3 d).2 (by omega), (fld_eq word 11 3 a).2 (by omega)]

theorem psetnz (d : BitVec 3) (a : BitVec 8) : Statement (.psetnz d a) := by
  intro word hw
  have h : word.toNat = ((((13 * 8 + d.toNat) * 16 + 4) * 256 + a.toNat) * 2048 + 0) := by
    cases hw; rw [mkWord_toNat _ (by decide)]; simp only [append_toNat]; rfl
  have := d.isLt; have := a.isLt
  have e : (fld word 26 6).toNat = 13 := by rw [fld_toNat]; omega
  unfold decodeWord; rw [e]
  show decodeOp0D word = _
  unfold decodeOp0D
  simp only [fld_eq]
  rw [if_neg (by simp only [BitVec.toNat_ofNat]; omega), if_neg (by simp only [BitVec.toNat_ofNat]; omega), if_neg (by simp only [BitVec.toNat_ofNat]; omega), if_neg (by simp only [BitVec.toNat_ofNat]; omega), if_pos (by simp only [BitVec.toNat_ofNat]; omega)]
  rw [(fld_eq word 23 3 d).2 (by omega), (fld_eq word 11 8 a).2 (by omega)]

theorem sel (d : BitVec 7) (a : BitVec 8) (b : BitVec 8) (p : BitVec 3) : Statement (.sel d a b p) := by
  intro word hw
  have h : word.toNat = ((((14 * 128 + d.toNat) * 256 + a.toNat) * 256 + b.toNat) * 8 + p.toNat) := by
    cases hw; rw [mkWord_toNat _ (by decide)]; simp only [append_toNat]; rfl
  have := d.isLt; have := a.isLt; have := b.isLt; have := p.isLt
  have e : (fld word 26 6).toNat = 14 := by rw [fld_toNat]; omega
  unfold decodeWord; rw [e]
  show decodeOp0E word = _
  unfold decodeOp0E
  rw [(fld_eq word 19 7 d).2 (by omega), (fld_eq word 11 8 a).2 (by omega), (fld_eq word 3 8 b).2 (by omega), (fld_eq word 0 3 p).2 (by omega)]

theorem fadd (d : BitVec 7) (a : BitVec 8) (b : BitVec 8) : Statement (.fadd d a b) := by
  intro word hw
  have h : word.toNat = ((((16 * 128 + d.toNat) * 256 + a.toNat) * 256 + b.toNat) * 8 + 0) := by
    cases hw; rw [mkWord_toNat _ (by decide)]; simp only [append_toNat]; rfl
  have := d.isLt; have := a.isLt; have := b.isLt
  have e : (fld word 26 6).toNat = 16 := by rw [fld_toNat]; omega
  unfold decodeWord; rw [e]
  show decodeOp10 word = _
  unfold decodeOp10
  rw [(fld_eq word 0 3 0#3).2 (by simp only [BitVec.toNat_ofNat]; omega), (fld_eq word 19 7 d).2 (by omega), (fld_eq word 11 8 a).2 (by omega), (fld_eq word 3 8 b).2 (by omega)]
  rfl

theorem fsub (d : BitVec 7) (a : BitVec 8) (b : BitVec 8) : Statement (.fsub d a b) := by
  intro word hw
  have h : word.toNat = ((((16 * 128 + d.toNat) * 256 + a.toNat) * 256 + b.toNat) * 8 + 1) := by
    cases hw; rw [mkWord_toNat _ (by decide)]; simp only [append_toNat]; rfl
  have := d.isLt; have := a.isLt; have := b.isLt
  have e : (fld word 26 6).toNat = 16 := by rw [fld_toNat]; omega
  unfold decodeWord; rw [e]
  show decodeOp10 word = _
  unfold decodeOp10
  rw [(fld_eq word 0 3 1#3).2 (by simp only [BitVec.toNat_ofNat]; omega), (fld_eq word 19 7 d).2 (by omega), (fld_eq word 11 8 a).2 (by omega), (fld_eq word 3 8 b).2 (by omega)]
  rfl

theorem fmul (d : BitVec 7) (a : BitVec 8) (b : BitVec 8) : Statement (.fmul d a b) := by
  intro word hw
  have h : word.toNat = ((((16 * 128 + d.toNat) * 256 + a.toNat) * 256 + b.toNat) * 8 + 2) := by
    cases hw; rw [mkWord_toNat _ (by decide)]; simp only [append_toNat]; rfl
  have := d.isLt; have := a.isLt; have := b.isLt
  have e : (fld word 26 6).toNat = 16 := by rw [fld_toNat]; omega
  unfold decodeWord; rw [e]
  show decodeOp10 word = _
  unfold decodeOp10
  rw [(fld_eq word 0 3 2#3).2 (by simp only [BitVec.toNat_ofNat]; omega), (fld_eq word 19 7 d).2 (by omega), (fld_eq word 11 8 a).2 (by omega), (fld_eq word 3 8 b).2 (by omega)]
  rfl

theorem fmin (d : BitVec 7) (a : BitVec 8) (b : BitVec 8) : Statement (.fmin d a b) := by
  intro word hw
  have h : word.toNat = ((((16 * 128 + d.toNat) * 256 + a.toNat) * 256 + b.toNat) * 8 + 3) := by
    cases hw; rw [mkWord_toNat _ (by decide)]; simp only [append_toNat]; rfl
  have := d.isLt; have := a.isLt; have := b.isLt
  have e : (fld word 26 6).toNat = 16 := by rw [fld_toNat]; omega
  unfold decodeWord; rw [e]
  show decodeOp10 word = _
  unfold decodeOp10
  rw [(fld_eq word 0 3 3#3).2 (by simp only [BitVec.toNat_ofNat]; omega), (fld_eq word 19 7 d).2 (by omega), (fld_eq word 11 8 a).2 (by omega), (fld_eq word 3 8 b).2 (by omega)]
  rfl

theorem fmax (d : BitVec 7) (a : BitVec 8) (b : BitVec 8) : Statement (.fmax d a b) := by
  intro word hw
  have h : word.toNat = ((((16 * 128 + d.toNat) * 256 + a.toNat) * 256 + b.toNat) * 8 + 4) := by
    cases hw; rw [mkWord_toNat _ (by decide)]; simp only [append_toNat]; rfl
  have := d.isLt; have := a.isLt; have := b.isLt
  have e : (fld word 26 6).toNat = 16 := by rw [fld_toNat]; omega
  unfold decodeWord; rw [e]
  show decodeOp10 word = _
  unfold decodeOp10
  rw [(fld_eq word 0 3 4#3).2 (by simp only [BitVec.toNat_ofNat]; omega), (fld_eq word 19 7 d).2 (by omega), (fld_eq word 11 8 a).2 (by omega), (fld_eq word 3 8 b).2 (by omega)]
  rfl

theorem fminm (d : BitVec 7) (a : BitVec 8) (b : BitVec 8) : Statement (.fminm d a b) := by
  intro word hw
  have h : word.toNat = ((((16 * 128 + d.toNat) * 256 + a.toNat) * 256 + b.toNat) * 8 + 5) := by
    cases hw; rw [mkWord_toNat _ (by decide)]; simp only [append_toNat]; rfl
  have := d.isLt; have := a.isLt; have := b.isLt
  have e : (fld word 26 6).toNat = 16 := by rw [fld_toNat]; omega
  unfold decodeWord; rw [e]
  show decodeOp10 word = _
  unfold decodeOp10
  rw [(fld_eq word 0 3 5#3).2 (by simp only [BitVec.toNat_ofNat]; omega), (fld_eq word 19 7 d).2 (by omega), (fld_eq word 11 8 a).2 (by omega), (fld_eq word 3 8 b).2 (by omega)]
  rfl

theorem fmaxm (d : BitVec 7) (a : BitVec 8) (b : BitVec 8) : Statement (.fmaxm d a b) := by
  intro word hw
  have h : word.toNat = ((((16 * 128 + d.toNat) * 256 + a.toNat) * 256 + b.toNat) * 8 + 6) := by
    cases hw; rw [mkWord_toNat _ (by decide)]; simp only [append_toNat]; rfl
  have := d.isLt; have := a.isLt; have := b.isLt
  have e : (fld word 26 6).toNat = 16 := by rw [fld_toNat]; omega
  unfold decodeWord; rw [e]
  show decodeOp10 word = _
  unfold decodeOp10
  rw [(fld_eq word 0 3 6#3).2 (by simp only [BitVec.toNat_ofNat]; omega), (fld_eq word 19 7 d).2 (by omega), (fld_eq word 11 8 a).2 (by omega), (fld_eq word 3 8 b).2 (by omega)]
  rfl

theorem fcopys (d : BitVec 7) (a : BitVec 8) (b : BitVec 8) : Statement (.fcopys d a b) := by
  intro word hw
  have h : word.toNat = ((((16 * 128 + d.toNat) * 256 + a.toNat) * 256 + b.toNat) * 8 + 7) := by
    cases hw; rw [mkWord_toNat _ (by decide)]; simp only [append_toNat]; rfl
  have := d.isLt; have := a.isLt; have := b.isLt
  have e : (fld word 26 6).toNat = 16 := by rw [fld_toNat]; omega
  unfold decodeWord; rw [e]
  show decodeOp10 word = _
  unfold decodeOp10
  rw [(fld_eq word 0 3 7#3).2 (by simp only [BitVec.toNat_ofNat]; omega), (fld_eq word 19 7 d).2 (by omega), (fld_eq word 11 8 a).2 (by omega), (fld_eq word 3 8 b).2 (by omega)]
  rfl

theorem fmac (d : BitVec 7) (a : BitVec 8) (b : BitVec 8) : Statement (.fmac d a b) := by
  intro word hw
  have h : word.toNat = ((((17 * 128 + d.toNat) * 256 + a.toNat) * 256 + b.toNat) * 8 + 0) := by
    cases hw; rw [mkWord_toNat _ (by decide)]; simp only [append_toNat]; rfl
  have := d.isLt; have := a.isLt; have := b.isLt
  have e : (fld word 26 6).toNat = 17 := by rw [fld_toNat]; omega
  unfold decodeWord; rw [e]
  show decodeOp11 word = _
  unfold decodeOp11
  rw [(fld_eq word 0 3 0#3).2 (by simp only [BitVec.toNat_ofNat]; omega), (fld_eq word 19 7 d).2 (by omega), (fld_eq word 11 8 a).2 (by omega), (fld_eq word 3 8 b).2 (by omega)]
  rfl

theorem fmsc (d : BitVec 7) (a : BitVec 8) (b : BitVec 8) : Statement (.fmsc d a b) := by
  intro word hw
  have h : word.toNat = ((((17 * 128 + d.toNat) * 256 + a.toNat) * 256 + b.toNat) * 8 + 1) := by
    cases hw; rw [mkWord_toNat _ (by decide)]; simp only [append_toNat]; rfl
  have := d.isLt; have := a.isLt; have := b.isLt
  have e : (fld word 26 6).toNat = 17 := by rw [fld_toNat]; omega
  unfold decodeWord; rw [e]
  show decodeOp11 word = _
  unfold decodeOp11
  rw [(fld_eq word 0 3 1#3).2 (by simp only [BitVec.toNat_ofNat]; omega), (fld_eq word 19 7 d).2 (by omega), (fld_eq word 11 8 a).2 (by omega), (fld_eq word 3 8 b).2 (by omega)]
  rfl

theorem fnmac (d : BitVec 7) (a : BitVec 8) (b : BitVec 8) : Statement (.fnmac d a b) := by
  intro word hw
  have h : word.toNat = ((((17 * 128 + d.toNat) * 256 + a.toNat) * 256 + b.toNat) * 8 + 2) := by
    cases hw; rw [mkWord_toNat _ (by decide)]; simp only [append_toNat]; rfl
  have := d.isLt; have := a.isLt; have := b.isLt
  have e : (fld word 26 6).toNat = 17 := by rw [fld_toNat]; omega
  unfold decodeWord; rw [e]
  show decodeOp11 word = _
  unfold decodeOp11
  rw [(fld_eq word 0 3 2#3).2 (by simp only [BitVec.toNat_ofNat]; omega), (fld_eq word 19 7 d).2 (by omega), (fld_eq word 11 8 a).2 (by omega), (fld_eq word 3 8 b).2 (by omega)]
  rfl

theorem fnmsc (d : BitVec 7) (a : BitVec 8) (b : BitVec 8) : Statement (.fnmsc d a b) := by
  intro word hw
  have h : word.toNat = ((((17 * 128 + d.toNat) * 256 + a.toNat) * 256 + b.toNat) * 8 + 3) := by
    cases hw; rw [mkWord_toNat _ (by decide)]; simp only [append_toNat]; rfl
  have := d.isLt; have := a.isLt; have := b.isLt
  have e : (fld word 26 6).toNat = 17 := by rw [fld_toNat]; omega
  unfold decodeWord; rw [e]
  show decodeOp11 word = _
  unfold decodeOp11
  rw [(fld_eq word 0 3 3#3).2 (by simp only [BitVec.toNat_ofNat]; omega), (fld_eq word 19 7 d).2 (by omega), (fld_eq word 11 8 a).2 (by omega), (fld_eq word 3 8 b).2 (by omega)]
  rfl

theorem frcp (d : BitVec 7) (a : BitVec 8) : Statement (.frcp d a) := by
  intro word hw
  have h : word.toNat = (((18 * 128 + d.toNat) * 256 + a.toNat) * 2048 + 0) := by
    cases hw; rw [mkWord_toNat _ (by decide)]; simp only [append_toNat]; rfl
  have := d.isLt; have := a.isLt
  have e : (fld word 26 6).toNat = 18 := by rw [fld_toNat]; omega
  unfold decodeWord; rw [e]
  show decodeOp12 word = _
  unfold decodeOp12
  rw [(fld_eq word 0 11 0#11).2 (by simp only [BitVec.toNat_ofNat]; omega), (fld_eq word 19 7 d).2 (by omega), (fld_eq word 11 8 a).2 (by omega)]
  rfl

theorem fsqrt (d : BitVec 7) (a : BitVec 8) : Statement (.fsqrt d a) := by
  intro word hw
  have h : word.toNat = (((18 * 128 + d.toNat) * 256 + a.toNat) * 2048 + 1) := by
    cases hw; rw [mkWord_toNat _ (by decide)]; simp only [append_toNat]; rfl
  have := d.isLt; have := a.isLt
  have e : (fld word 26 6).toNat = 18 := by rw [fld_toNat]; omega
  unfold decodeWord; rw [e]
  show decodeOp12 word = _
  unfold decodeOp12
  rw [(fld_eq word 0 11 1#11).2 (by simp only [BitVec.toNat_ofNat]; omega), (fld_eq word 19 7 d).2 (by omega), (fld_eq word 11 8 a).2 (by omega)]
  rfl

theorem frsq (d : BitVec 7) (a : BitVec 8) : Statement (.frsq d a) := by
  intro word hw
  have h : word.toNat = (((18 * 128 + d.toNat) * 256 + a.toNat) * 2048 + 2) := by
    cases hw; rw [mkWord_toNat _ (by decide)]; simp only [append_toNat]; rfl
  have := d.isLt; have := a.isLt
  have e : (fld word 26 6).toNat = 18 := by rw [fld_toNat]; omega
  unfold decodeWord; rw [e]
  show decodeOp12 word = _
  unfold decodeOp12
  rw [(fld_eq word 0 11 2#11).2 (by simp only [BitVec.toNat_ofNat]; omega), (fld_eq word 19 7 d).2 (by omega), (fld_eq word 11 8 a).2 (by omega)]
  rfl

theorem fexp2 (d : BitVec 7) (a : BitVec 8) : Statement (.fexp2 d a) := by
  intro word hw
  have h : word.toNat = (((18 * 128 + d.toNat) * 256 + a.toNat) * 2048 + 3) := by
    cases hw; rw [mkWord_toNat _ (by decide)]; simp only [append_toNat]; rfl
  have := d.isLt; have := a.isLt
  have e : (fld word 26 6).toNat = 18 := by rw [fld_toNat]; omega
  unfold decodeWord; rw [e]
  show decodeOp12 word = _
  unfold decodeOp12
  rw [(fld_eq word 0 11 3#11).2 (by simp only [BitVec.toNat_ofNat]; omega), (fld_eq word 19 7 d).2 (by omega), (fld_eq word 11 8 a).2 (by omega)]
  rfl

theorem flog2 (d : BitVec 7) (a : BitVec 8) : Statement (.flog2 d a) := by
  intro word hw
  have h : word.toNat = (((18 * 128 + d.toNat) * 256 + a.toNat) * 2048 + 4) := by
    cases hw; rw [mkWord_toNat _ (by decide)]; simp only [append_toNat]; rfl
  have := d.isLt; have := a.isLt
  have e : (fld word 26 6).toNat = 18 := by rw [fld_toNat]; omega
  unfold decodeWord; rw [e]
  show decodeOp12 word = _
  unfold decodeOp12
  rw [(fld_eq word 0 11 4#11).2 (by simp only [BitVec.toNat_ofNat]; omega), (fld_eq word 19 7 d).2 (by omega), (fld_eq word 11 8 a).2 (by omega)]
  rfl

theorem fsinpi (d : BitVec 7) (a : BitVec 8) : Statement (.fsinpi d a) := by
  intro word hw
  have h : word.toNat = (((18 * 128 + d.toNat) * 256 + a.toNat) * 2048 + 5) := by
    cases hw; rw [mkWord_toNat _ (by decide)]; simp only [append_toNat]; rfl
  have := d.isLt; have := a.isLt
  have e : (fld word 26 6).toNat = 18 := by rw [fld_toNat]; omega
  unfold decodeWord; rw [e]
  show decodeOp12 word = _
  unfold decodeOp12
  rw [(fld_eq word 0 11 5#11).2 (by simp only [BitVec.toNat_ofNat]; omega), (fld_eq word 19 7 d).2 (by omega), (fld_eq word 11 8 a).2 (by omega)]
  rfl

theorem fcospi (d : BitVec 7) (a : BitVec 8) : Statement (.fcospi d a) := by
  intro word hw
  have h : word.toNat = (((18 * 128 + d.toNat) * 256 + a.toNat) * 2048 + 6) := by
    cases hw; rw [mkWord_toNat _ (by decide)]; simp only [append_toNat]; rfl
  have := d.isLt; have := a.isLt
  have e : (fld word 26 6).toNat = 18 := by rw [fld_toNat]; omega
  unfold decodeWord; rw [e]
  show decodeOp12 word = _
  unfold decodeOp12
  rw [(fld_eq word 0 11 6#11).2 (by simp only [BitVec.toNat_ofNat]; omega), (fld_eq word 19 7 d).2 (by omega), (fld_eq word 11 8 a).2 (by omega)]
  rfl

theorem frint (d : BitVec 7) (a : BitVec 8) : Statement (.frint d a) := by
  intro word hw
  have h : word.toNat = (((18 * 128 + d.toNat) * 256 + a.toNat) * 2048 + 7) := by
    cases hw; rw [mkWord_toNat _ (by decide)]; simp only [append_toNat]; rfl
  have := d.isLt; have := a.isLt
  have e : (fld word 26 6).toNat = 18 := by rw [fld_toNat]; omega
  unfold decodeWord; rw [e]
  show decodeOp12 word = _
  unfold decodeOp12
  rw [(fld_eq word 0 11 7#11).2 (by simp only [BitVec.toNat_ofNat]; omega), (fld_eq word 19 7 d).2 (by omega), (fld_eq word 11 8 a).2 (by omega)]
  rfl

theorem fdiv (d : BitVec 7) (a : BitVec 8) (b : BitVec 8) : Statement (.fdiv d a b) := by
  intro word hw
  have h : word.toNat = ((((19 * 128 + d.toNat) * 256 + a.toNat) * 256 + b.toNat) * 8 + 0) := by
    cases hw; rw [mkWord_toNat _ (by decide)]; simp only [append_toNat]; rfl
  have := d.isLt; have := a.isLt; have := b.isLt
  have e : (fld word 26 6).toNat = 19 := by rw [fld_toNat]; omega
  unfold decodeWord; rw [e]
  show decodeOp13 word = _
  unfold decodeOp13
  rw [(fld_eq word 0 3 0#3).2 (by simp only [BitVec.toNat_ofNat]; omega), (fld_eq word 19 7 d).2 (by omega), (fld_eq word 11 8 a).2 (by omega), (fld_eq word 3 8 b).2 (by omega)]
  rfl

theorem fclass (d : BitVec 7) (a : BitVec 8) : Statement (.fclass d a) := by
  intro word hw
  have h : word.toNat = (((19 * 128 + d.toNat) * 256 + a.toNat) * 2048 + 1) := by
    cases hw; rw [mkWord_toNat _ (by decide)]; simp only [append_toNat]; rfl
  have := d.isLt; have := a.isLt
  have e : (fld word 26 6).toNat = 19 := by rw [fld_toNat]; omega
  unfold decodeWord; rw [e]
  show decodeOp13 word = _
  unfold decodeOp13
  simp only [fld_eq]
  rw [if_neg (by simp only [BitVec.toNat_ofNat]; omega), if_pos (by simp only [BitVec.toNat_ofNat]; omega)]
  rw [(fld_eq word 19 7 d).2 (by omega), (fld_eq word 11 8 a).2 (by omega)]

theorem fneg (d : BitVec 7) (a : BitVec 8) : Statement (.fneg d a) := by
  intro word hw
  have h : word.toNat = (((19 * 128 + d.toNat) * 256 + a.toNat) * 2048 + 2) := by
    cases hw; rw [mkWord_toNat _ (by decide)]; simp only [append_toNat]; rfl
  have := d.isLt; have := a.isLt
  have e : (fld word 26 6).toNat = 19 := by rw [fld_toNat]; omega
  unfold decodeWord; rw [e]
  show decodeOp13 word = _
  unfold decodeOp13
  simp only [fld_eq]
  rw [if_neg (by simp only [BitVec.toNat_ofNat]; omega), if_neg (by simp only [BitVec.toNat_ofNat]; omega), if_pos (by simp only [BitVec.toNat_ofNat]; omega)]
  rw [(fld_eq word 19 7 d).2 (by omega), (fld_eq word 11 8 a).2 (by omega)]

theorem fabs (d : BitVec 7) (a : BitVec 8) : Statement (.fabs d a) := by
  intro word hw
  have h : word.toNat = (((19 * 128 + d.toNat) * 256 + a.toNat) * 2048 + 3) := by
    cases hw; rw [mkWord_toNat _ (by decide)]; simp only [append_toNat]; rfl
  have := d.isLt; have := a.isLt
  have e : (fld word 26 6).toNat = 19 := by rw [fld_toNat]; omega
  unfold decodeWord; rw [e]
  show decodeOp13 word = _
  unfold decodeOp13
  simp only [fld_eq]
  rw [if_neg (by simp only [BitVec.toNat_ofNat]; omega), if_neg (by simp only [BitVec.toNat_ofNat]; omega), if_neg (by simp only [BitVec.toNat_ofNat]; omega), if_pos (by simp only [BitVec.toNat_ofNat]; omega)]
  rw [(fld_eq word 19 7 d).2 (by omega), (fld_eq word 11 8 a).2 (by omega)]

theorem fscale (d : BitVec 7) (a : BitVec 8) (b : BitVec 8) : Statement (.fscale d a b) := by
  intro word hw
  have h : word.toNat = ((((19 * 128 + d.toNat) * 256 + a.toNat) * 256 + b.toNat) * 8 + 4) := by
    cases hw; rw [mkWord_toNat _ (by decide)]; simp only [append_toNat]; rfl
  have := d.isLt; have := a.isLt; have := b.isLt
  have e : (fld word 26 6).toNat = 19 := by rw [fld_toNat]; omega
  unfold decodeWord; rw [e]
  show decodeOp13 word = _
  unfold decodeOp13
  simp only [fld_eq]
  rw [if_neg (by simp only [BitVec.toNat_ofNat]; omega), if_neg (by simp only [BitVec.toNat_ofNat]; omega), if_neg (by simp only [BitVec.toNat_ofNat]; omega), if_neg (by simp only [BitVec.toNat_ofNat]; omega), if_pos (by simp only [BitVec.toNat_ofNat]; omega)]
  rw [(fld_eq word 19 7 d).2 (by omega), (fld_eq word 11 8 a).2 (by omega), (fld_eq word 3 8 b).2 (by omega)]

theorem fgetexp (d : BitVec 7) (a : BitVec 8) : Statement (.fgetexp d a) := by
  intro word hw
  have h : word.toNat = (((19 * 128 + d.toNat) * 256 + a.toNat) * 2048 + 5) := by
    cases hw; rw [mkWord_toNat _ (by decide)]; simp only [append_toNat]; rfl
  have := d.isLt; have := a.isLt
  have e : (fld word 26 6).toNat = 19 := by rw [fld_toNat]; omega
  unfold decodeWord; rw [e]
  show decodeOp13 word = _
  unfold decodeOp13
  simp only [fld_eq]
  rw [if_neg (by simp only [BitVec.toNat_ofNat]; omega), if_neg (by simp only [BitVec.toNat_ofNat]; omega), if_neg (by simp only [BitVec.toNat_ofNat]; omega), if_neg (by simp only [BitVec.toNat_ofNat]; omega), if_neg (by simp only [BitVec.toNat_ofNat]; omega), if_pos (by simp only [BitVec.toNat_ofNat]; omega)]
  rw [(fld_eq word 19 7 d).2 (by omega), (fld_eq word 11 8 a).2 (by omega)]

theorem fgetman (d : BitVec 7) (a : BitVec 8) : Statement (.fgetman d a) := by
  intro word hw
  have h : word.toNat = (((19 * 128 + d.toNat) * 256 + a.toNat) * 2048 + 6) := by
    cases hw; rw [mkWord_toNat _ (by decide)]; simp only [append_toNat]; rfl
  have := d.isLt; have := a.isLt
  have e : (fld word 26 6).toNat = 19 := by rw [fld_toNat]; omega
  unfold decodeWord; rw [e]
  show decodeOp13 word = _
  unfold decodeOp13
  simp only [fld_eq]
  rw [if_neg (by simp only [BitVec.toNat_ofNat]; omega), if_neg (by simp only [BitVec.toNat_ofNat]; omega), if_neg (by simp only [BitVec.toNat_ofNat]; omega), if_neg (by simp only [BitVec.toNat_ofNat]; omega), if_neg (by simp only [BitVec.toNat_ofNat]; omega), if_neg (by simp only [BitVec.toNat_ofNat]; omega), if_pos (by simp only [BitVec.toNat_ofNat]; omega)]
  rw [(fld_eq word 19 7 d).2 (by omega), (fld_eq word 11 8 a).2 (by omega)]

theorem hadd2 (d : BitVec 7) (a : BitVec 8) (b : BitVec 8) (t : BitVec 1) : Statement (.hadd2 d a b t) := by
  intro word hw
  have h : word.toNat = (((((20 * 128 + d.toNat) * 256 + a.toNat) * 256 + b.toNat) * 2 + t.toNat) * 4 + 0) := by
    cases hw; rw [mkWord_toNat _ (by decide)]; simp only [append_toNat]; rfl
  have := d.isLt; have := a.isLt; have := b.isLt; have := t.isLt
  have e : (fld word 26 6).toNat = 20 := by rw [fld_toNat]; omega
  unfold decodeWord; rw [e]
  show decodeOp14 word = _
  unfold decodeOp14
  rw [(fld_eq word 0 2 0#2).2 (by simp only [BitVec.toNat_ofNat]; omega), (fld_eq word 19 7 d).2 (by omega), (fld_eq word 11 8 a).2 (by omega), (fld_eq word 3 8 b).2 (by omega), (fld_eq word 2 1 t).2 (by omega)]
  rfl

theorem hmul2 (d : BitVec 7) (a : BitVec 8) (b : BitVec 8) (t : BitVec 1) : Statement (.hmul2 d a b t) := by
  intro word hw
  have h : word.toNat = (((((20 * 128 + d.toNat) * 256 + a.toNat) * 256 + b.toNat) * 2 + t.toNat) * 4 + 1) := by
    cases hw; rw [mkWord_toNat _ (by decide)]; simp only [append_toNat]; rfl
  have := d.isLt; have := a.isLt; have := b.isLt; have := t.isLt
  have e : (fld word 26 6).toNat = 20 := by rw [fld_toNat]; omega
  unfold decodeWord; rw [e]
  show decodeOp14 word = _
  unfold decodeOp14
  rw [(fld_eq word 0 2 1#2).2 (by simp only [BitVec.toNat_ofNat]; omega), (fld_eq word 19 7 d).2 (by omega), (fld_eq word 11 8 a).2 (by omega), (fld_eq word 3 8 b).2 (by omega), (fld_eq word 2 1 t).2 (by omega)]
  rfl

theorem hmac2 (d : BitVec 7) (a : BitVec 8) (b : BitVec 8) (t : BitVec 1) : Statement (.hmac2 d a b t) := by
  intro word hw
  have h : word.toNat = (((((20 * 128 + d.toNat) * 256 + a.toNat) * 256 + b.toNat) * 2 + t.toNat) * 4 + 2) := by
    cases hw; rw [mkWord_toNat _ (by decide)]; simp only [append_toNat]; rfl
  have := d.isLt; have := a.isLt; have := b.isLt; have := t.isLt
  have e : (fld word 26 6).toNat = 20 := by rw [fld_toNat]; omega
  unfold decodeWord; rw [e]
  show decodeOp14 word = _
  unfold decodeOp14
  rw [(fld_eq word 0 2 2#2).2 (by simp only [BitVec.toNat_ofNat]; omega), (fld_eq word 19 7 d).2 (by omega), (fld_eq word 11 8 a).2 (by omega), (fld_eq word 3 8 b).2 (by omega), (fld_eq word 2 1 t).2 (by omega)]
  rfl

theorem hmax2 (d : BitVec 7) (a : BitVec 8) (b : BitVec 8) (t : BitVec 1) : Statement (.hmax2 d a b t) := by
  intro word hw
  have h : word.toNat = (((((20 * 128 + d.toNat) * 256 + a.toNat) * 256 + b.toNat) * 2 + t.toNat) * 4 + 3) := by
    cases hw; rw [mkWord_toNat _ (by decide)]; simp only [append_toNat]; rfl
  have := d.isLt; have := a.isLt; have := b.isLt; have := t.isLt
  have e : (fld word 26 6).toNat = 20 := by rw [fld_toNat]; omega
  unfold decodeWord; rw [e]
  show decodeOp14 word = _
  unfold decodeOp14
  rw [(fld_eq word 0 2 3#2).2 (by simp only [BitVec.toNat_ofNat]; omega), (fld_eq word 19 7 d).2 (by omega), (fld_eq word 11 8 a).2 (by omega), (fld_eq word 3 8 b).2 (by omega), (fld_eq word 2 1 t).2 (by omega)]
  rfl

theorem hmin2F16 (d : BitVec 7) (a : BitVec 8) (b : BitVec 8) : Statement (.hmin2F16 d a b) := by
  intro word hw
  have h : word.toNat = ((((21 * 128 + d.toNat) * 256 + a.toNat) * 256 + b.toNat) * 8 + 0) := by
    cases hw; rw [mkWord_toNat _ (by decide)]; simp only [append_toNat]; rfl
  have := d.isLt; have := a.isLt; have := b.isLt
  have e : (fld word 26 6).toNat = 21 := by rw [fld_toNat]; omega
  unfold decodeWord; rw [e]
  show decodeOp15 word = _
  unfold decodeOp15
  rw [(fld_eq word 0 3 0#3).2 (by simp only [BitVec.toNat_ofNat]; omega), (fld_eq word 19 7 d).2 (by omega), (fld_eq word 11 8 a).2 (by omega), (fld_eq word 3 8 b).2 (by omega)]
  rfl

theorem hmin2Bf16 (d : BitVec 7) (a : BitVec 8) (b : BitVec 8) : Statement (.hmin2Bf16 d a b) := by
  intro word hw
  have h : word.toNat = ((((21 * 128 + d.toNat) * 256 + a.toNat) * 256 + b.toNat) * 8 + 1) := by
    cases hw; rw [mkWord_toNat _ (by decide)]; simp only [append_toNat]; rfl
  have := d.isLt; have := a.isLt; have := b.isLt
  have e : (fld word 26 6).toNat = 21 := by rw [fld_toNat]; omega
  unfold decodeWord; rw [e]
  show decodeOp15 word = _
  unfold decodeOp15
  rw [(fld_eq word 0 3 1#3).2 (by simp only [BitVec.toNat_ofNat]; omega), (fld_eq word 19 7 d).2 (by omega), (fld_eq word 11 8 a).2 (by omega), (fld_eq word 3 8 b).2 (by omega)]
  rfl

theorem hsub2F16 (d : BitVec 7) (a : BitVec 8) (b : BitVec 8) : Statement (.hsub2F16 d a b) := by
  intro word hw
  have h : word.toNat = ((((21 * 128 + d.toNat) * 256 + a.toNat) * 256 + b.toNat) * 8 + 2) := by
    cases hw; rw [mkWord_toNat _ (by decide)]; simp only [append_toNat]; rfl
  have := d.isLt; have := a.isLt; have := b.isLt
  have e : (fld word 26 6).toNat = 21 := by rw [fld_toNat]; omega
  unfold decodeWord; rw [e]
  show decodeOp15 word = _
  unfold decodeOp15
  rw [(fld_eq word 0 3 2#3).2 (by simp only [BitVec.toNat_ofNat]; omega), (fld_eq word 19 7 d).2 (by omega), (fld_eq word 11 8 a).2 (by omega), (fld_eq word 3 8 b).2 (by omega)]
  rfl

theorem hsub2Bf16 (d : BitVec 7) (a : BitVec 8) (b : BitVec 8) : Statement (.hsub2Bf16 d a b) := by
  intro word hw
  have h : word.toNat = ((((21 * 128 + d.toNat) * 256 + a.toNat) * 256 + b.toNat) * 8 + 3) := by
    cases hw; rw [mkWord_toNat _ (by decide)]; simp only [append_toNat]; rfl
  have := d.isLt; have := a.isLt; have := b.isLt
  have e : (fld word 26 6).toNat = 21 := by rw [fld_toNat]; omega
  unfold decodeWord; rw [e]
  show decodeOp15 word = _
  unfold decodeOp15
  rw [(fld_eq word 0 3 3#3).2 (by simp only [BitVec.toNat_ofNat]; omega), (fld_eq word 19 7 d).2 (by omega), (fld_eq word 11 8 a).2 (by omega), (fld_eq word 3 8 b).2 (by omega)]
  rfl

theorem hdot2F16 (d : BitVec 7) (a : BitVec 8) (b : BitVec 8) : Statement (.hdot2F16 d a b) := by
  intro word hw
  have h : word.toNat = ((((21 * 128 + d.toNat) * 256 + a.toNat) * 256 + b.toNat) * 8 + 4) := by
    cases hw; rw [mkWord_toNat _ (by decide)]; simp only [append_toNat]; rfl
  have := d.isLt; have := a.isLt; have := b.isLt
  have e : (fld word 26 6).toNat = 21 := by rw [fld_toNat]; omega
  unfold decodeWord; rw [e]
  show decodeOp15 word = _
  unfold decodeOp15
  rw [(fld_eq word 0 3 4#3).2 (by simp only [BitVec.toNat_ofNat]; omega), (fld_eq word 19 7 d).2 (by omega), (fld_eq word 11 8 a).2 (by omega), (fld_eq word 3 8 b).2 (by omega)]
  rfl

theorem hdot2Bf16 (d : BitVec 7) (a : BitVec 8) (b : BitVec 8) : Statement (.hdot2Bf16 d a b) := by
  intro word hw
  have h : word.toNat = ((((21 * 128 + d.toNat) * 256 + a.toNat) * 256 + b.toNat) * 8 + 5) := by
    cases hw; rw [mkWord_toNat _ (by decide)]; simp only [append_toNat]; rfl
  have := d.isLt; have := a.isLt; have := b.isLt
  have e : (fld word 26 6).toNat = 21 := by rw [fld_toNat]; omega
  unfold decodeWord; rw [e]
  show decodeOp15 word = _
  unfold decodeOp15
  rw [(fld_eq word 0 3 5#3).2 (by simp only [BitVec.toNat_ofNat]; omega), (fld_eq word 19 7 d).2 (by omega), (fld_eq word 11 8 a).2 (by omega), (fld_eq word 3 8 b).2 (by omega)]
  rfl

theorem cvt (d : BitVec 7) (a : BitVec 8) (c : BitVec 8) (s : BitVec 1) (r : BitVec 2) : Statement (.cvt d a c s r) := by
  intro word hw
  have h : word.toNat = (((((22 * 128 + d.toNat) * 256 + a.toNat) * 256 + c.toNat) * 2 + s.toNat) * 4 + r.toNat) := by
    cases hw; rw [mkWord_toNat _ (by decide)]; simp only [append_toNat]; rfl
  have := d.isLt; have := a.isLt; have := c.isLt; have := s.isLt; have := r.isLt
  have e : (fld word 26 6).toNat = 22 := by rw [fld_toNat]; omega
  unfold decodeWord; rw [e]
  show decodeOp16 word = _
  unfold decodeOp16
  rw [(fld_eq word 19 7 d).2 (by omega), (fld_eq word 11 8 a).2 (by omega), (fld_eq word 3 8 c).2 (by omega), (fld_eq word 2 1 s).2 (by omega), (fld_eq word 0 2 r).2 (by omega)]

theorem packn (d : BitVec 7) (a : BitVec 8) (b : BitVec 8) : Statement (.packn d a b) := by
  intro word hw
  have h : word.toNat = ((((23 * 128 + d.toNat) * 256 + a.toNat) * 256 + b.toNat) * 8 + 0) := by
    cases hw; rw [mkWord_toNat _ (by decide)]; simp only [append_toNat]; rfl
  have := d.isLt; have := a.isLt; have := b.isLt
  have e : (fld word 26 6).toNat = 23 := by rw [fld_toNat]; omega
  unfold decodeWord; rw [e]
  show decodeOp17 word = _
  unfold decodeOp17
  rw [(fld_eq word 0 3 0#3).2 (by simp only [BitVec.toNat_ofNat]; omega), (fld_eq word 19 7 d).2 (by omega), (fld_eq word 11 8 a).2 (by omega), (fld_eq word 3 8 b).2 (by omega)]
  rfl

theorem unpknS (d : BitVec 7) (a : BitVec 8) (b : BitVec 8) : Statement (.unpknS d a b) := by
  intro word hw
  have h : word.toNat = ((((23 * 128 + d.toNat) * 256 + a.toNat) * 256 + b.toNat) * 8 + 1) := by
    cases hw; rw [mkWord_toNat _ (by decide)]; simp only [append_toNat]; rfl
  have := d.isLt; have := a.isLt; have := b.isLt
  have e : (fld word 26 6).toNat = 23 := by rw [fld_toNat]; omega
  unfold decodeWord; rw [e]
  show decodeOp17 word = _
  unfold decodeOp17
  rw [(fld_eq word 0 3 1#3).2 (by simp only [BitVec.toNat_ofNat]; omega), (fld_eq word 19 7 d).2 (by omega), (fld_eq word 11 8 a).2 (by omega), (fld_eq word 3 8 b).2 (by omega)]
  rfl

theorem unpknU (d : BitVec 7) (a : BitVec 8) (b : BitVec 8) : Statement (.unpknU d a b) := by
  intro word hw
  have h : word.toNat = ((((23 * 128 + d.toNat) * 256 + a.toNat) * 256 + b.toNat) * 8 + 2) := by
    cases hw; rw [mkWord_toNat _ (by decide)]; simp only [append_toNat]; rfl
  have := d.isLt; have := a.isLt; have := b.isLt
  have e : (fld word 26 6).toNat = 23 := by rw [fld_toNat]; omega
  unfold decodeWord; rw [e]
  show decodeOp17 word = _
  unfold decodeOp17
  rw [(fld_eq word 0 3 2#3).2 (by simp only [BitVec.toNat_ofNat]; omega), (fld_eq word 19 7 d).2 (by omega), (fld_eq word 11 8 a).2 (by omega), (fld_eq word 3 8 b).2 (by omega)]
  rfl

theorem packh (d : BitVec 7) (a : BitVec 8) (b : BitVec 8) : Statement (.packh d a b) := by
  intro word hw
  have h : word.toNat = ((((23 * 128 + d.toNat) * 256 + a.toNat) * 256 + b.toNat) * 8 + 3) := by
    cases hw; rw [mkWord_toNat _ (by decide)]; simp only [append_toNat]; rfl
  have := d.isLt; have := a.isLt; have := b.isLt
  have e : (fld word 26 6).toNat = 23 := by rw [fld_toNat]; omega
  unfold decodeWord; rw [e]
  show decodeOp17 word = _
  unfold decodeOp17
  rw [(fld_eq word 0 3 3#3).2 (by simp only [BitVec.toNat_ofNat]; omega), (fld_eq word 19 7 d).2 (by omega), (fld_eq word 11 8 a).2 (by omega), (fld_eq word 3 8 b).2 (by omega)]
  rfl

theorem dadd (d : BitVec 6) (a : BitVec 8) (b : BitVec 8) : Statement (.dadd d a b) := by
  intro word hw
  have h : word.toNat = (((((24 * 64 + d.toNat) * 2 + 0) * 256 + a.toNat) * 256 + b.toNat) * 8 + 0) := by
    cases hw; rw [mkWord_toNat _ (by decide)]; simp only [append_toNat]; rfl
  have := d.isLt; have := a.isLt; have := b.isLt
  have e : (fld word 26 6).toNat = 24 := by rw [fld_toNat]; omega
  unfold decodeWord; rw [e]
  show decodeOp18 word = _
  unfold decodeOp18
  simp only [fld_eq]
  rw [if_pos (by simp only [BitVec.toNat_ofNat]; omega)]
  rw [(fld_eq word 20 6 d).2 (by omega), (fld_eq word 11 8 a).2 (by omega), (fld_eq word 3 8 b).2 (by omega)]

theorem dsub (d : BitVec 6) (a : BitVec 8) (b : BitVec 8) : Statement (.dsub d a b) := by
  intro word hw
  have h : word.toNat = (((((24 * 64 + d.toNat) * 2 + 0) * 256 + a.toNat) * 256 + b.toNat) * 8 + 1) := by
    cases hw; rw [mkWord_toNat _ (by decide)]; simp only [append_toNat]; rfl
  have := d.isLt; have := a.isLt; have := b.isLt
  have e : (fld word 26 6).toNat = 24 := by rw [fld_toNat]; omega
  unfold decodeWord; rw [e]
  show decodeOp18 word = _
  unfold decodeOp18
  simp only [fld_eq]
  rw [if_neg (by simp only [BitVec.toNat_ofNat]; omega), if_pos (by simp only [BitVec.toNat_ofNat]; omega)]
  rw [(fld_eq word 20 6 d).2 (by omega), (fld_eq word 11 8 a).2 (by omega), (fld_eq word 3 8 b).2 (by omega)]

theorem dmul (d : BitVec 6) (a : BitVec 8) (b : BitVec 8) : Statement (.dmul d a b) := by
  intro word hw
  have h : word.toNat = (((((24 * 64 + d.toNat) * 2 + 0) * 256 + a.toNat) * 256 + b.toNat) * 8 + 2) := by
    cases hw; rw [mkWord_toNat _ (by decide)]; simp only [append_toNat]; rfl
  have := d.isLt; have := a.isLt; have := b.isLt
  have e : (fld word 26 6).toNat = 24 := by rw [fld_toNat]; omega
  unfold decodeWord; rw [e]
  show decodeOp18 word = _
  unfold decodeOp18
  simp only [fld_eq]
  rw [if_neg (by simp only [BitVec.toNat_ofNat]; omega), if_neg (by simp only [BitVec.toNat_ofNat]; omega), if_pos (by simp only [BitVec.toNat_ofNat]; omega)]
  rw [(fld_eq word 20 6 d).2 (by omega), (fld_eq word 11 8 a).2 (by omega), (fld_eq word 3 8 b).2 (by omega)]

theorem dfmac (d : BitVec 6) (a : BitVec 8) (b : BitVec 8) : Statement (.dfmac d a b) := by
  intro word hw
  have h : word.toNat = (((((24 * 64 + d.toNat) * 2 + 0) * 256 + a.toNat) * 256 + b.toNat) * 8 + 3) := by
    cases hw; rw [mkWord_toNat _ (by decide)]; simp only [append_toNat]; rfl
  have := d.isLt; have := a.isLt; have := b.isLt
  have e : (fld word 26 6).toNat = 24 := by rw [fld_toNat]; omega
  unfold decodeWord; rw [e]
  show decodeOp18 word = _
  unfold decodeOp18
  simp only [fld_eq]
  rw [if_neg (by simp only [BitVec.toNat_ofNat]; omega), if_neg (by simp only [BitVec.toNat_ofNat]; omega), if_neg (by simp only [BitVec.toNat_ofNat]; omega), if_pos (by simp only [BitVec.toNat_ofNat]; omega)]
  rw [(fld_eq word 20 6 d).2 (by omega), (fld_eq word 11 8 a).2 (by omega), (fld_eq word 3 8 b).2 (by omega)]

theorem dmin (d : BitVec 6) (a : BitVec 8) (b : BitVec 8) : Statement (.dmin d a b) := by
  intro word hw
  have h : word.toNat = (((((24 * 64 + d.toNat) * 2 + 0) * 256 + a.toNat) * 256 + b.toNat) * 8 + 4) := by
    cases hw; rw [mkWord_toNat _ (by decide)]; simp only [append_toNat]; rfl
  have := d.isLt; have := a.isLt; have := b.isLt
  have e : (fld word 26 6).toNat = 24 := by rw [fld_toNat]; omega
  unfold decodeWord; rw [e]
  show decodeOp18 word = _
  unfold decodeOp18
  simp only [fld_eq]
  rw [if_neg (by simp only [BitVec.toNat_ofNat]; omega), if_neg (by simp only [BitVec.toNat_ofNat]; omega), if_neg (by simp only [BitVec.toNat_ofNat]; omega), if_neg (by simp only [BitVec.toNat_ofNat]; omega), if_pos (by simp only [BitVec.toNat_ofNat]; omega)]
  rw [(fld_eq word 20 6 d).2 (by omega), (fld_eq word 11 8 a).2 (by omega), (fld_eq word 3 8 b).2 (by omega)]

theorem dmax (d : BitVec 6) (a : BitVec 8) (b : BitVec 8) : Statement (.dmax d a b) := by
  intro word hw
  have h : word.toNat = (((((24 * 64 + d.toNat) * 2 + 0) * 256 + a.toNat) * 256 + b.toNat) * 8 + 5) := by
    cases hw; rw [mkWord_toNat _ (by decide)]; simp only [append_toNat]; rfl
  have := d.isLt; have := a.isLt; have := b.isLt
  have e : (fld word 26 6).toNat = 24 := by rw [fld_toNat]; omega
  unfold decodeWord; rw [e]
  show decodeOp18 word = _
  unfold decodeOp18
  simp only [fld_eq]
  rw [if_neg (by simp only [BitVec.toNat_ofNat]; omega), if_neg (by simp only [BitVec.toNat_ofNat]; omega), if_neg (by simp only [BitVec.toNat_ofNat]; omega), if_neg (by simp only [BitVec.toNat_ofNat]; omega), if_neg (by simp only [BitVec.toNat_ofNat]; omega), if_pos (by simp only [BitVec.toNat_ofNat]; omega)]
  rw [(fld_eq word 20 6 d).2 (by omega), (fld_eq word 11 8 a).2 (by omega), (fld_eq word 3 8 b).2 (by omega)]

theorem ddiv (d : BitVec 6) (a : BitVec 8) (b : BitVec 8) : Statement (.ddiv d a b) := by
  intro word hw
  have h : word.toNat = (((((24 * 64 + d.toNat) * 2 + 0) * 256 + a.toNat) * 256 + b.toNat) * 8 + 6) := by
    cases hw; rw [mkWord_toNat _ (by decide)]; simp only [append_toNat]; rfl
  have := d.isLt; have := a.isLt; have := b.isLt
  have e : (fld word 26 6).toNat = 24 := by rw [fld_toNat]; omega
  unfold decodeWord; rw [e]
  show decodeOp18 word = _
  unfold decodeOp18
  simp only [fld_eq]
  rw [if_neg (by simp only [BitVec.toNat_ofNat]; omega), if_neg (by simp only [BitVec.toNat_ofNat]; omega), if_neg (by simp only [BitVec.toNat_ofNat]; omega), if_neg (by simp only [BitVec.toNat_ofNat]; omega), if_neg (by simp only [BitVec.toNat_ofNat]; omega), if_neg (by simp only [BitVec.toNat_ofNat]; omega), if_pos (by simp only [BitVec.toNat_ofNat]; omega)]
  rw [(fld_eq word 20 6 d).2 (by omega), (fld_eq word 11 8 a).2 (by omega), (fld_eq word 3 8 b).2 (by omega)]

theorem dsqrt (d : BitVec 6) (a : BitVec 8) : Statement (.dsqrt d a) := by
  intro word hw
  have h : word.toNat = ((((24 * 64 + d.toNat) * 2 + 0) * 256 + a.toNat) * 2048 + 7) := by
    cases hw; rw [mkWord_toNat _ (by decide)]; simp only [append_toNat]; rfl
  have := d.isLt; have := a.isLt
  have e : (fld word 26 6).toNat = 24 := by rw [fld_toNat]; omega
  unfold decodeWord; rw [e]
  show decodeOp18 word = _
  unfold decodeOp18
  simp only [fld_eq]
  rw [if_neg (by simp only [BitVec.toNat_ofNat]; omega), if_neg (by simp only [BitVec.toNat_ofNat]; omega), if_neg (by simp only [BitVec.toNat_ofNat]; omega), if_neg (by simp only [BitVec.toNat_ofNat]; omega), if_neg (by simp only [BitVec.toNat_ofNat]; omega), if_neg (by simp only [BitVec.toNat_ofNat]; omega), if_neg (by simp only [BitVec.toNat_ofNat]; omega), if_pos (by simp only [BitVec.toNat_ofNat]; omega)]
  rw [(fld_eq word 20 6 d).2 (by omega), (fld_eq word 11 8 a).2 (by omega)]

theorem ld (t : BitVec 7) (x : BitVec 8) (a : BitVec 4) (s : BitVec 3) (k : BitVec 4) : Statement (.ld t x a s k) := by
  intro word hw
  have h : word.toNat = (((((25 * 128 + t.toNat) * 256 + x.toNat) * 16 + a.toNat) * 8 + s.toNat) * 16 + k.toNat) := by
    cases hw; rw [mkWord_toNat _ (by decide)]; simp only [append_toNat]; rfl
  have := t.isLt; have := x.isLt; have := a.isLt; have := s.isLt; have := k.isLt
  have e : (fld word 26 6).toNat = 25 := by rw [fld_toNat]; omega
  unfold decodeWord; rw [e]
  show decodeOp19 word = _
  unfold decodeOp19
  rw [(fld_eq word 19 7 t).2 (by omega), (fld_eq word 11 8 x).2 (by omega), (fld_eq word 7 4 a).2 (by omega), (fld_eq word 4 3 s).2 (by omega), (fld_eq word 0 4 k).2 (by omega)]

theorem st (t : BitVec 7) (x : BitVec 8) (a : BitVec 4) (s : BitVec 3) (k : BitVec 4) : Statement (.st t x a s k) := by
  intro word hw
  have h : word.toNat = (((((26 * 128 + t.toNat) * 256 + x.toNat) * 16 + a.toNat) * 8 + s.toNat) * 16 + k.toNat) := by
    cases hw; rw [mkWord_toNat _ (by decide)]; simp only [append_toNat]; rfl
  have := t.isLt; have := x.isLt; have := a.isLt; have := s.isLt; have := k.isLt
  have e : (fld word 26 6).toNat = 26 := by rw [fld_toNat]; omega
  unfold decodeWord; rw [e]
  show decodeOp1A word = _
  unfold decodeOp1A
  rw [(fld_eq word 19 7 t).2 (by omega), (fld_eq word 11 8 x).2 (by omega), (fld_eq word 7 4 a).2 (by omega), (fld_eq word 4 3 s).2 (by omega), (fld_eq word 0 4 k).2 (by omega)]

theorem atom (t : BitVec 7) (x : BitVec 8) (a : BitVec 4) (s : BitVec 1) (k : BitVec 4) : Statement (.atom t x a s k) := by
  intro word hw
  have h : word.toNat = ((((((27 * 128 + t.toNat) * 256 + x.toNat) * 16 + a.toNat) * 4 + 1) * 2 + s.toNat) * 16 + k.toNat) := by
    cases hw; rw [mkWord_toNat _ (by decide)]; simp only [append_toNat]; rfl
  have := t.isLt; have := x.isLt; have := a.isLt; have := s.isLt; have := k.isLt
  have e : (fld word 26 6).toNat = 27 := by rw [fld_toNat]; omega
  unfold decodeWord; rw [e]
  show decodeOp1B word = _
  unfold decodeOp1B
  rw [(fld_eq word 5 2 1#2).2 (by simp only [BitVec.toNat_ofNat]; omega), (fld_eq word 19 7 t).2 (by omega), (fld_eq word 11 8 x).2 (by omega), (fld_eq word 7 4 a).2 (by omega), (fld_eq word 4 1 s).2 (by omega), (fld_eq word 0 4 k).2 (by omega)]
  rfl

theorem red (t : BitVec 7) (x : BitVec 8) (a : BitVec 4) (s : BitVec 1) (k : BitVec 4) : Statement (.red t x a s k) := by
  intro word hw
  have h : word.toNat = ((((((28 * 128 + t.toNat) * 256 + x.toNat) * 16 + a.toNat) * 4 + 1) * 2 + s.toNat) * 16 + k.toNat) := by
    cases hw; rw [mkWord_toNat _ (by decide)]; simp only [append_toNat]; rfl
  have := t.isLt; have := x.isLt; have := a.isLt; have := s.isLt; have := k.isLt
  have e : (fld word 26 6).toNat = 28 := by rw [fld_toNat]; omega
  unfold decodeWord; rw [e]
  show decodeOp1C word = _
  unfold decodeOp1C
  rw [(fld_eq word 5 2 1#2).2 (by simp only [BitVec.toNat_ofNat]; omega), (fld_eq word 19 7 t).2 (by omega), (fld_eq word 11 8 x).2 (by omega), (fld_eq word 7 4 a).2 (by omega), (fld_eq word 4 1 s).2 (by omega), (fld_eq word 0 4 k).2 (by omega)]
  rfl

theorem pfetch (x : BitVec 8) (a : BitVec 4) (k : BitVec 4) : Statement (.pfetch x a k) := by
  intro word hw
  have h : word.toNat = (((((29 * 128 + 0) * 256 + x.toNat) * 16 + a.toNat) * 8 + 0) * 16 + k.toNat) := by
    cases hw; rw [mkWord_toNat _ (by decide)]; simp only [append_toNat]; rfl
  have := x.isLt; have := a.isLt; have := k.isLt
  have e : (fld word 26 6).toNat = 29 := by rw [fld_toNat]; omega
  unfold decodeWord; rw [e]
  show decodeOp1D word = _
  unfold decodeOp1D
  simp only [fld_eq]
  rw [if_pos (by simp only [BitVec.toNat_ofNat]; omega)]
  rw [(fld_eq word 11 8 x).2 (by omega), (fld_eq word 7 4 a).2 (by omega), (fld_eq word 0 4 k).2 (by omega)]

theorem cinval (x : BitVec 8) (a : BitVec 4) (k : BitVec 4) : Statement (.cinval x a k) := by
  intro word hw
  have h : word.toNat = (((((29 * 128 + 0) * 256 + x.toNat) * 16 + a.toNat) * 8 + 1) * 16 + k.toNat) := by
    cases hw; rw [mkWord_toNat _ (by decide)]; simp only [append_toNat]; rfl
  have := x.isLt; have := a.isLt; have := k.isLt
  have e : (fld word 26 6).toNat = 29 := by rw [fld_toNat]; omega
  unfold decodeWord; rw [e]
  show decodeOp1D word = _
  unfold decodeOp1D
  simp only [fld_eq]
  rw [if_neg (by simp only [BitVec.toNat_ofNat]; omega), if_pos (by simp only [BitVec.toNat_ofNat]; omega)]
  rw [(fld_eq word 11 8 x).2 (by omega), (fld_eq word 7 4 a).2 (by omega), (fld_eq word 0 4 k).2 (by omega)]

theorem pfetchL2 (x : BitVec 8) (a : BitVec 4) (k : BitVec 4) : Statement (.pfetchL2 x a k) := by
  intro word hw
  have h : word.toNat = (((((29 * 128 + 0) * 256 + x.toNat) * 16 + a.toNat) * 8 + 2) * 16 + k.toNat) := by
    cases hw; rw [mkWord_toNat _ (by decide)]; simp only [append_toNat]; rfl
  have := x.isLt; have := a.isLt; have := k.isLt
  have e : (fld word 26 6).toNat = 29 := by rw [fld_toNat]; omega
  unfold decodeWord; rw [e]
  show decodeOp1D word = _
  unfold decodeOp1D
  simp only [fld_eq]
  rw [if_neg (by simp only [BitVec.toNat_ofNat]; omega), if_neg (by simp only [BitVec.toNat_ofNat]; omega), if_pos (by simp only [BitVec.toNat_ofNat]; omega)]
  rw [(fld_eq word 11 8 x).2 (by omega), (fld_eq word 7 4 a).2 (by omega), (fld_eq word 0 4 k).2 (by omega)]

theorem fenceRel (m : BitVec 8) : Statement (.fenceRel m) := by
  intro word hw
  have h : word.toNat = (((30 * 64 + 0) * 256 + m.toNat) * 4096 + 0) := by
    cases hw; rw [mkWord_toNat _ (by decide)]; simp only [append_toNat]; rfl
  have := m.isLt
  have e : (fld word 26 6).toNat = 30 := by rw [fld_toNat]; omega
  unfold decodeWord; rw [e]
  show decodeOp1E word = _
  unfold decodeOp1E
  simp only [fld_eq]
  rw [if_pos (by simp only [BitVec.toNat_ofNat]; omega)]
  rw [(fld_eq word 12 8 m).2 (by omega)]

theorem fenceAcq : Statement (.fenceAcq) := by
  intro word h; cases h; decide

theorem fenceFull (m : BitVec 8) : Statement (.fenceFull m) := by
  intro word hw
  have h : word.toNat = (((30 * 64 + 0) * 256 + m.toNat) * 4096 + 2048) := by
    cases hw; rw [mkWord_toNat _ (by decide)]; simp only [append_toNat]; rfl
  have := m.isLt
  have e : (fld word 26 6).toNat = 30 := by rw [fld_toNat]; omega
  unfold decodeWord; rw [e]
  show decodeOp1E word = _
  unfold decodeOp1E
  simp only [fld_eq]
  rw [if_neg (by simp only [BitVec.toNat_ofNat]; omega), if_neg (by simp only [BitVec.toNat_ofNat]; omega), if_pos (by simp only [BitVec.toNat_ofNat]; omega)]
  rw [(fld_eq word 12 8 m).2 (by omega)]

theorem mwait (t : BitVec 6) (x : BitVec 8) (a : BitVec 4) (c : BitVec 3) (k : BitVec 4) : Statement (.mwait t x a c k) := by
  intro word hw
  have h : word.toNat = ((((((31 * 64 + t.toNat) * 2 + 0) * 256 + x.toNat) * 16 + a.toNat) * 8 + c.toNat) * 16 + k.toNat) := by
    cases hw; rw [mkWord_toNat _ (by decide)]; simp only [append_toNat]; rfl
  have := t.isLt; have := x.isLt; have := a.isLt; have := c.isLt; have := k.isLt
  have e : (fld word 26 6).toNat = 31 := by rw [fld_toNat]; omega
  unfold decodeWord; rw [e]
  show decodeOp1F word = _
  unfold decodeOp1F
  rw [(fld_eq word 19 1 0#1).2 (by simp only [BitVec.toNat_ofNat]; omega), (fld_eq word 20 6 t).2 (by omega), (fld_eq word 11 8 x).2 (by omega), (fld_eq word 7 4 a).2 (by omega), (fld_eq word 4 3 c).2 (by omega), (fld_eq word 0 4 k).2 (by omega)]
  rfl

theorem bra (p : BitVec 3) (n : BitVec 1) (d : BitVec 22) : Statement (.bra p n d) := by
  intro word hw
  have h : word.toNat = (((32 * 8 + p.toNat) * 2 + n.toNat) * 4194304 + d.toNat) := by
    cases hw; rw [mkWord_toNat _ (by decide)]; simp only [append_toNat]; rfl
  have := p.isLt; have := n.isLt; have := d.isLt
  have e : (fld word 26 6).toNat = 32 := by rw [fld_toNat]; omega
  unfold decodeWord; rw [e]
  show decodeOp20 word = _
  unfold decodeOp20
  rw [(fld_eq word 23 3 p).2 (by omega), (fld_eq word 22 1 n).2 (by omega), (fld_eq word 0 22 d).2 (by omega)]

theorem bru (c : BitVec 6) (t : BitVec 3) (d : BitVec 17) : Statement (.bru c t d) := by
  intro word hw
  have h : word.toNat = (((33 * 64 + c.toNat) * 8 + t.toNat) * 131072 + d.toNat) := by
    cases hw; rw [mkWord_toNat _ (by decide)]; simp only [append_toNat]; rfl
  have := c.isLt; have := t.isLt; have := d.isLt
  have e : (fld word 26 6).toNat = 33 := by rw [fld_toNat]; omega
  unfold decodeWord; rw [e]
  show decodeOp21 word = _
  unfold decodeOp21
  rw [(fld_eq word 20 6 c).2 (by omega), (fld_eq word 17 3 t).2 (by omega), (fld_eq word 0 17 d).2 (by omega)]

theorem brx (a : BitVec 8) : Statement (.brx a) := by
  intro word hw
  have h : word.toNat = (((34 * 128 + 0) * 256 + a.toNat) * 2048 + 0) := by
    cases hw; rw [mkWord_toNat _ (by decide)]; simp only [append_toNat]; rfl
  have := a.isLt
  have e : (fld word 26 6).toNat = 34 := by rw [fld_toNat]; omega
  unfold decodeWord; rw [e]
  show decodeOp22 word = _
  unfold decodeOp22
  simp only [fld_eq]
  rw [if_pos (by simp only [BitVec.toNat_ofNat]; omega)]
  rw [(fld_eq word 11 8 a).2 (by omega)]

theorem ret (a : BitVec 8) : Statement (.ret a) := by
  intro word hw
  have h : word.toNat = (((34 * 128 + 0) * 256 + a.toNat) * 2048 + 1) := by
    cases hw; rw [mkWord_toNat _ (by decide)]; simp only [append_toNat]; rfl
  have := a.isLt
  have e : (fld word 26 6).toNat = 34 := by rw [fld_toNat]; omega
  unfold decodeWord; rw [e]
  show decodeOp22 word = _
  unfold decodeOp22
  simp only [fld_eq]
  rw [if_neg (by simp only [BitVec.toNat_ofNat]; omega), if_pos (by simp only [BitVec.toNat_ofNat]; omega)]
  rw [(fld_eq word 11 8 a).2 (by omega)]

theorem call (l : BitVec 7) (d : BitVec 19) : Statement (.call l d) := by
  intro word hw
  have h : word.toNat = ((35 * 128 + l.toNat) * 524288 + d.toNat) := by
    cases hw; rw [mkWord_toNat _ (by decide)]; simp only [append_toNat]; rfl
  have := l.isLt; have := d.isLt
  have e : (fld word 26 6).toNat = 35 := by rw [fld_toNat]; omega
  unfold decodeWord; rw [e]
  show decodeOp23 word = _
  unfold decodeOp23
  rw [(fld_eq word 19 7 l).2 (by omega), (fld_eq word 0 19 d).2 (by omega)]

theorem wait (l : BitVec 5) (s : BitVec 5) (c : BitVec 5) (m : BitVec 5) (x : BitVec 5) : Statement (.wait l s c m x) := by
  intro word hw
  have h : word.toNat = ((((((36 * 32 + l.toNat) * 32 + s.toNat) * 32 + c.toNat) * 32 + m.toNat) * 32 + x.toNat) * 2 + 0) := by
    cases hw; rw [mkWord_toNat _ (by decide)]; simp only [append_toNat]; rfl
  have := l.isLt; have := s.isLt; have := c.isLt; have := m.isLt; have := x.isLt
  have e : (fld word 26 6).toNat = 36 := by rw [fld_toNat]; omega
  unfold decodeWord; rw [e]
  show decodeOp24 word = _
  unfold decodeOp24
  rw [(fld_eq word 0 1 0#1).2 (by simp only [BitVec.toNat_ofNat]; omega), (fld_eq word 21 5 l).2 (by omega), (fld_eq word 16 5 s).2 (by omega), (fld_eq word 11 5 c).2 (by omega), (fld_eq word 6 5 m).2 (by omega), (fld_eq word 1 5 x).2 (by omega)]
  rfl

theorem barSync (s : BitVec 3) (i : BitVec 6) : Statement (.barSync s i) := by
  intro word hw
  have h : word.toNat = ((((37 * 64 + 0) * 8 + s.toNat) * 64 + i.toNat) * 2048 + 0) := by
    cases hw; rw [mkWord_toNat _ (by decide)]; simp only [append_toNat]; rfl
  have := s.isLt; have := i.isLt
  have e : (fld word 26 6).toNat = 37 := by rw [fld_toNat]; omega
  unfold decodeWord; rw [e]
  show decodeOp25 word = _
  unfold decodeOp25
  simp only [fld_eq]
  rw [if_pos (by simp only [BitVec.toNat_ofNat]; omega)]
  rw [(fld_eq word 17 3 s).2 (by omega), (fld_eq word 11 6 i).2 (by omega)]

theorem barArrive (s : BitVec 3) (i : BitVec 6) : Statement (.barArrive s i) := by
  intro word hw
  have h : word.toNat = ((((37 * 64 + 0) * 8 + s.toNat) * 64 + i.toNat) * 2048 + 512) := by
    cases hw; rw [mkWord_toNat _ (by decide)]; simp only [append_toNat]; rfl
  have := s.isLt; have := i.isLt
  have e : (fld word 26 6).toNat = 37 := by rw [fld_toNat]; omega
  unfold decodeWord; rw [e]
  show decodeOp25 word = _
  unfold decodeOp25
  simp only [fld_eq]
  rw [if_neg (by simp only [BitVec.toNat_ofNat]; omega), if_pos (by simp only [BitVec.toNat_ofNat]; omega)]
  rw [(fld_eq word 17 3 s).2 (by omega), (fld_eq word 11 6 i).2 (by omega)]

theorem barWait (s : BitVec 3) (i : BitVec 6) : Statement (.barWait s i) := by
  intro word hw
  have h : word.toNat = ((((37 * 64 + 0) * 8 + s.toNat) * 64 + i.toNat) * 2048 + 1024) := by
    cases hw; rw [mkWord_toNat _ (by decide)]; simp only [append_toNat]; rfl
  have := s.isLt; have := i.isLt
  have e : (fld word 26 6).toNat = 37 := by rw [fld_toNat]; omega
  unfold decodeWord; rw [e]
  show decodeOp25 word = _
  unfold decodeOp25
  simp only [fld_eq]
  rw [if_neg (by simp only [BitVec.toNat_ofNat]; omega), if_neg (by simp only [BitVec.toNat_ofNat]; omega), if_pos (by simp only [BitVec.toNat_ofNat]; omega)]
  rw [(fld_eq word 17 3 s).2 (by omega), (fld_eq word 11 6 i).2 (by omega)]

theorem cadd (d : BitVec 6) (a : BitVec 8) (b : BitVec 8) : Statement (.cadd d a b) := by
  intro word hw
  have h : word.toNat = ((((40 * 64 + d.toNat) * 256 + a.toNat) * 256 + b.toNat) * 16 + 0) := by
    cases hw; rw [mkWord_toNat _ (by decide)]; simp only [append_toNat]; rfl
  have := d.isLt; have := a.isLt; have := b.isLt
  have e : (fld word 26 6).toNat = 40 := by rw [fld_toNat]; omega
  unfold decodeWord; rw [e]
  show decodeOp28 word = _
  unfold decodeOp28
  rw [(fld_eq word 0 4 0#4).2 (by simp only [BitVec.toNat_ofNat]; omega), (fld_eq word 20 6 d).2 (by omega), (fld_eq word 12 8 a).2 (by omega), (fld_eq word 4 8 b).2 (by omega)]
  rfl

theorem csub (d : BitVec 6) (a : BitVec 8) (b : BitVec 8) : Statement (.csub d a b) := by
  intro word hw
  have h : word.toNat = ((((40 * 64 + d.toNat) * 256 + a.toNat) * 256 + b.toNat) * 16 + 1) := by
    cases hw; rw [mkWord_toNat _ (by decide)]; simp only [append_toNat]; rfl
  have := d.isLt; have := a.isLt; have := b.isLt
  have e : (fld word 26 6).toNat = 40 := by rw [fld_toNat]; omega
  unfold decodeWord; rw [e]
  show decodeOp28 word = _
  unfold decodeOp28
  rw [(fld_eq word 0 4 1#4).2 (by simp only [BitVec.toNat_ofNat]; omega), (fld_eq word 20 6 d).2 (by omega), (fld_eq word 12 8 a).2 (by omega), (fld_eq word 4 8 b).2 (by omega)]
  rfl

theorem cmul (d : BitVec 6) (a : BitVec 8) (b : BitVec 8) : Statement (.cmul d a b) := by
  intro word hw
  have h : word.toNat = ((((40 * 64 + d.toNat) * 256 + a.toNat) * 256 + b.toNat) * 16 + 2) := by
    cases hw; rw [mkWord_toNat _ (by decide)]; simp only [append_toNat]; rfl
  have := d.isLt; have := a.isLt; have := b.isLt
  have e : (fld word 26 6).toNat = 40 := by rw [fld_toNat]; omega
  unfold decodeWord; rw [e]
  show decodeOp28 word = _
  unfold decodeOp28
  rw [(fld_eq word 0 4 2#4).2 (by simp only [BitVec.toNat_ofNat]; omega), (fld_eq word 20 6 d).2 (by omega), (fld_eq word 12 8 a).2 (by omega), (fld_eq word 4 8 b).2 (by omega)]
  rfl

theorem cand (d : BitVec 6) (a : BitVec 8) (b : BitVec 8) : Statement (.cand d a b) := by
  intro word hw
  have h : word.toNat = ((((40 * 64 + d.toNat) * 256 + a.toNat) * 256 + b.toNat) * 16 + 3) := by
    cases hw; rw [mkWord_toNat _ (by decide)]; simp only [append_toNat]; rfl
  have := d.isLt; have := a.isLt; have := b.isLt
  have e : (fld word 26 6).toNat = 40 := by rw [fld_toNat]; omega
  unfold decodeWord; rw [e]
  show decodeOp28 word = _
  unfold decodeOp28
  rw [(fld_eq word 0 4 3#4).2 (by simp only [BitVec.toNat_ofNat]; omega), (fld_eq word 20 6 d).2 (by omega), (fld_eq word 12 8 a).2 (by omega), (fld_eq word 4 8 b).2 (by omega)]
  rfl

theorem cor (d : BitVec 6) (a : BitVec 8) (b : BitVec 8) : Statement (.cor d a b) := by
  intro word hw
  have h : word.toNat = ((((40 * 64 + d.toNat) * 256 + a.toNat) * 256 + b.toNat) * 16 + 4) := by
    cases hw; rw [mkWord_toNat _ (by decide)]; simp only [append_toNat]; rfl
  have := d.isLt; have := a.isLt; have := b.isLt
  have e : (fld word 26 6).toNat = 40 := by rw [fld_toNat]; omega
  unfold decodeWord; rw [e]
  show decodeOp28 word = _
  unfold decodeOp28
  rw [(fld_eq word 0 4 4#4).2 (by simp only [BitVec.toNat_ofNat]; omega), (fld_eq word 20 6 d).2 (by omega), (fld_eq word 12 8 a).2 (by omega), (fld_eq word 4 8 b).2 (by omega)]
  rfl

theorem cxor (d : BitVec 6) (a : BitVec 8) (b : BitVec 8) : Statement (.cxor d a b) := by
  intro word hw
  have h : word.toNat = ((((40 * 64 + d.toNat) * 256 + a.toNat) * 256 + b.toNat) * 16 + 5) := by
    cases hw; rw [mkWord_toNat _ (by decide)]; simp only [append_toNat]; rfl
  have := d.isLt; have := a.isLt; have := b.isLt
  have e : (fld word 26 6).toNat = 40 := by rw [fld_toNat]; omega
  unfold decodeWord; rw [e]
  show decodeOp28 word = _
  unfold decodeOp28
  rw [(fld_eq word 0 4 5#4).2 (by simp only [BitVec.toNat_ofNat]; omega), (fld_eq word 20 6 d).2 (by omega), (fld_eq word 12 8 a).2 (by omega), (fld_eq word 4 8 b).2 (by omega)]
  rfl

theorem cshl (d : BitVec 6) (a : BitVec 8) (b : BitVec 8) : Statement (.cshl d a b) := by
  intro word hw
  have h : word.toNat = ((((40 * 64 + d.toNat) * 256 + a.toNat) * 256 + b.toNat) * 16 + 6) := by
    cases hw; rw [mkWord_toNat _ (by decide)]; simp only [append_toNat]; rfl
  have := d.isLt; have := a.isLt; have := b.isLt
  have e : (fld word 26 6).toNat = 40 := by rw [fld_toNat]; omega
  unfold decodeWord; rw [e]
  show decodeOp28 word = _
  unfold decodeOp28
  rw [(fld_eq word 0 4 6#4).2 (by simp only [BitVec.toNat_ofNat]; omega), (fld_eq word 20 6 d).2 (by omega), (fld_eq word 12 8 a).2 (by omega), (fld_eq word 4 8 b).2 (by omega)]
  rfl

theorem cshr (d : BitVec 6) (a : BitVec 8) (b : BitVec 8) : Statement (.cshr d a b) := by
  intro word hw
  have h : word.toNat = ((((40 * 64 + d.toNat) * 256 + a.toNat) * 256 + b.toNat) * 16 + 7) := by
    cases hw; rw [mkWord_toNat _ (by decide)]; simp only [append_toNat]; rfl
  have := d.isLt; have := a.isLt; have := b.isLt
  have e : (fld word 26 6).toNat = 40 := by rw [fld_toNat]; omega
  unfold decodeWord; rw [e]
  show decodeOp28 word = _
  unfold decodeOp28
  rw [(fld_eq word 0 4 7#4).2 (by simp only [BitVec.toNat_ofNat]; omega), (fld_eq word 20 6 d).2 (by omega), (fld_eq word 12 8 a).2 (by omega), (fld_eq word 4 8 b).2 (by omega)]
  rfl

theorem csar (d : BitVec 6) (a : BitVec 8) (b : BitVec 8) : Statement (.csar d a b) := by
  intro word hw
  have h : word.toNat = ((((40 * 64 + d.toNat) * 256 + a.toNat) * 256 + b.toNat) * 16 + 8) := by
    cases hw; rw [mkWord_toNat _ (by decide)]; simp only [append_toNat]; rfl
  have := d.isLt; have := a.isLt; have := b.isLt
  have e : (fld word 26 6).toNat = 40 := by rw [fld_toNat]; omega
  unfold decodeWord; rw [e]
  show decodeOp28 word = _
  unfold decodeOp28
  rw [(fld_eq word 0 4 8#4).2 (by simp only [BitVec.toNat_ofNat]; omega), (fld_eq word 20 6 d).2 (by omega), (fld_eq word 12 8 a).2 (by omega), (fld_eq word 4 8 b).2 (by omega)]
  rfl

theorem cminS (d : BitVec 6) (a : BitVec 8) (b : BitVec 8) : Statement (.cminS d a b) := by
  intro word hw
  have h : word.toNat = ((((40 * 64 + d.toNat) * 256 + a.toNat) * 256 + b.toNat) * 16 + 9) := by
    cases hw; rw [mkWord_toNat _ (by decide)]; simp only [append_toNat]; rfl
  have := d.isLt; have := a.isLt; have := b.isLt
  have e : (fld word 26 6).toNat = 40 := by rw [fld_toNat]; omega
  unfold decodeWord; rw [e]
  show decodeOp28 word = _
  unfold decodeOp28
  rw [(fld_eq word 0 4 9#4).2 (by simp only [BitVec.toNat_ofNat]; omega), (fld_eq word 20 6 d).2 (by omega), (fld_eq word 12 8 a).2 (by omega), (fld_eq word 4 8 b).2 (by omega)]
  rfl

theorem cmaxS (d : BitVec 6) (a : BitVec 8) (b : BitVec 8) : Statement (.cmaxS d a b) := by
  intro word hw
  have h : word.toNat = ((((40 * 64 + d.toNat) * 256 + a.toNat) * 256 + b.toNat) * 16 + 10) := by
    cases hw; rw [mkWord_toNat _ (by decide)]; simp only [append_toNat]; rfl
  have := d.isLt; have := a.isLt; have := b.isLt
  have e : (fld word 26 6).toNat = 40 := by rw [fld_toNat]; omega
  unfold decodeWord; rw [e]
  show decodeOp28 word = _
  unfold decodeOp28
  rw [(fld_eq word 0 4 10#4).2 (by simp only [BitVec.toNat_ofNat]; omega), (fld_eq word 20 6 d).2 (by omega), (fld_eq word 12 8 a).2 (by omega), (fld_eq word 4 8 b).2 (by omega)]
  rfl

theorem cminU (d : BitVec 6) (a : BitVec 8) (b : BitVec 8) : Statement (.cminU d a b) := by
  intro word hw
  have h : word.toNat = ((((40 * 64 + d.toNat) * 256 + a.toNat) * 256 + b.toNat) * 16 + 11) := by
    cases hw; rw [mkWord_toNat _ (by decide)]; simp only [append_toNat]; rfl
  have := d.isLt; have := a.isLt; have := b.isLt
  have e : (fld word 26 6).toNat = 40 := by rw [fld_toNat]; omega
  unfold decodeWord; rw [e]
  show decodeOp28 word = _
  unfold decodeOp28
  rw [(fld_eq word 0 4 11#4).2 (by simp only [BitVec.toNat_ofNat]; omega), (fld_eq word 20 6 d).2 (by omega), (fld_eq word 12 8 a).2 (by omega), (fld_eq word 4 8 b).2 (by omega)]
  rfl

theorem cmaxU (d : BitVec 6) (a : BitVec 8) (b : BitVec 8) : Statement (.cmaxU d a b) := by
  intro word hw
  have h : word.toNat = ((((40 * 64 + d.toNat) * 256 + a.toNat) * 256 + b.toNat) * 16 + 12) := by
    cases hw; rw [mkWord_toNat _ (by decide)]; simp only [append_toNat]; rfl
  have := d.isLt; have := a.isLt; have := b.isLt
  have e : (fld word 26 6).toNat = 40 := by rw [fld_toNat]; omega
  unfold decodeWord; rw [e]
  show decodeOp28 word = _
  unfold decodeOp28
  rw [(fld_eq word 0 4 12#4).2 (by simp only [BitVec.toNat_ofNat]; omega), (fld_eq word 20 6 d).2 (by omega), (fld_eq word 12 8 a).2 (by omega), (fld_eq word 4 8 b).2 (by omega)]
  rfl

theorem csltS (d : BitVec 6) (a : BitVec 8) (b : BitVec 8) : Statement (.csltS d a b) := by
  intro word hw
  have h : word.toNat = ((((40 * 64 + d.toNat) * 256 + a.toNat) * 256 + b.toNat) * 16 + 13) := by
    cases hw; rw [mkWord_toNat _ (by decide)]; simp only [append_toNat]; rfl
  have := d.isLt; have := a.isLt; have := b.isLt
  have e : (fld word 26 6).toNat = 40 := by rw [fld_toNat]; omega
  unfold decodeWord; rw [e]
  show decodeOp28 word = _
  unfold decodeOp28
  rw [(fld_eq word 0 4 13#4).2 (by simp only [BitVec.toNat_ofNat]; omega), (fld_eq word 20 6 d).2 (by omega), (fld_eq word 12 8 a).2 (by omega), (fld_eq word 4 8 b).2 (by omega)]
  rfl

theorem csltU (d : BitVec 6) (a : BitVec 8) (b : BitVec 8) : Statement (.csltU d a b) := by
  intro word hw
  have h : word.toNat = ((((40 * 64 + d.toNat) * 256 + a.toNat) * 256 + b.toNat) * 16 + 14) := by
    cases hw; rw [mkWord_toNat _ (by decide)]; simp only [append_toNat]; rfl
  have := d.isLt; have := a.isLt; have := b.isLt
  have e : (fld word 26 6).toNat = 40 := by rw [fld_toNat]; omega
  unfold decodeWord; rw [e]
  show decodeOp28 word = _
  unfold decodeOp28
  rw [(fld_eq word 0 4 14#4).2 (by simp only [BitVec.toNat_ofNat]; omega), (fld_eq word 20 6 d).2 (by omega), (fld_eq word 12 8 a).2 (by omega), (fld_eq word 4 8 b).2 (by omega)]
  rfl

theorem cseq (d : BitVec 6) (a : BitVec 8) (b : BitVec 8) : Statement (.cseq d a b) := by
  intro word hw
  have h : word.toNat = ((((40 * 64 + d.toNat) * 256 + a.toNat) * 256 + b.toNat) * 16 + 15) := by
    cases hw; rw [mkWord_toNat _ (by decide)]; simp only [append_toNat]; rfl
  have := d.isLt; have := a.isLt; have := b.isLt
  have e : (fld word 26 6).toNat = 40 := by rw [fld_toNat]; omega
  unfold decodeWord; rw [e]
  show decodeOp28 word = _
  unfold decodeOp28
  rw [(fld_eq word 0 4 15#4).2 (by simp only [BitVec.toNat_ofNat]; omega), (fld_eq word 20 6 d).2 (by omega), (fld_eq word 12 8 a).2 (by omega), (fld_eq word 4 8 b).2 (by omega)]
  rfl

theorem caddi (d : BitVec 6) (a : BitVec 8) (i : BitVec 12) : Statement (.caddi d a i) := by
  intro word hw
  have h : word.toNat = (((41 * 64 + d.toNat) * 256 + a.toNat) * 4096 + i.toNat) := by
    cases hw; rw [mkWord_toNat _ (by decide)]; simp only [append_toNat]; rfl
  have := d.isLt; have := a.isLt; have := i.isLt
  have e : (fld word 26 6).toNat = 41 := by rw [fld_toNat]; omega
  unfold decodeWord; rw [e]
  show decodeOp29 word = _
  unfold decodeOp29
  rw [(fld_eq word 20 6 d).2 (by omega), (fld_eq word 12 8 a).2 (by omega), (fld_eq word 0 12 i).2 (by omega)]

theorem aadd (d : BitVec 4) (a : BitVec 4) (s : BitVec 8) : Statement (.aadd d a s) := by
  intro word hw
  have h : word.toNat = ((((42 * 16 + d.toNat) * 16 + a.toNat) * 256 + s.toNat) * 1024 + 0) := by
    cases hw; rw [mkWord_toNat _ (by decide)]; simp only [append_toNat]; rfl
  have := d.isLt; have := a.isLt; have := s.isLt
  have e : (fld word 26 6).toNat = 42 := by rw [fld_toNat]; omega
  unfold decodeWord; rw [e]
  show decodeOp2A word = _
  unfold decodeOp2A
  rw [(fld_eq word 0 10 0#10).2 (by simp only [BitVec.toNat_ofNat]; omega), (fld_eq word 22 4 d).2 (by omega), (fld_eq word 18 4 a).2 (by omega), (fld_eq word 10 8 s).2 (by omega)]
  rfl

theorem aadds (d : BitVec 4) (a : BitVec 4) (s : BitVec 8) (k : BitVec 6) : Statement (.aadds d a s k) := by
  intro word hw
  have h : word.toNat = (((((42 * 16 + d.toNat) * 16 + a.toNat) * 256 + s.toNat) * 64 + k.toNat) * 16 + 1) := by
    cases hw; rw [mkWord_toNat _ (by decide)]; simp only [append_toNat]; rfl
  have := d.isLt; have := a.isLt; have := s.isLt; have := k.isLt
  have e : (fld word 26 6).toNat = 42 := by rw [fld_toNat]; omega
  unfold decodeWord; rw [e]
  show decodeOp2A word = _
  unfold decodeOp2A
  simp only [fld_eq]
  rw [if_neg (by simp only [BitVec.toNat_ofNat]; omega), if_pos (by simp only [BitVec.toNat_ofNat]; omega)]
  rw [(fld_eq word 22 4 d).2 (by omega), (fld_eq word 18 4 a).2 (by omega), (fld_eq word 10 8 s).2 (by omega), (fld_eq word 4 6 k).2 (by omega)]

theorem afromc (d : BitVec 4) (n : BitVec 6) : Statement (.afromc d n) := by
  intro word hw
  have h : word.toNat = ((((42 * 16 + d.toNat) * 64 + 0) * 64 + n.toNat) * 1024 + 2) := by
    cases hw; rw [mkWord_toNat _ (by decide)]; simp only [append_toNat]; rfl
  have := d.isLt; have := n.isLt
  have e : (fld word 26 6).toNat = 42 := by rw [fld_toNat]; omega
  unfold decodeWord; rw [e]
  show decodeOp2A word = _
  unfold decodeOp2A
  simp only [fld_eq]
  rw [if_neg (by simp only [BitVec.toNat_ofNat]; omega), if_neg (by simp only [BitVec.toNat_ofNat]; omega), if_pos (by simp only [BitVec.toNat_ofNat]; omega)]
  rw [(fld_eq word 22 4 d).2 (by omega), (fld_eq word 10 6 n).2 (by omega)]

theorem atoc (a : BitVec 4) (n : BitVec 6) : Statement (.atoc a n) := by
  intro word hw
  have h : word.toNat = (((((42 * 16 + 0) * 16 + a.toNat) * 4 + 0) * 64 + n.toNat) * 1024 + 3) := by
    cases hw; rw [mkWord_toNat _ (by decide)]; simp only [append_toNat]; rfl
  have := a.isLt; have := n.isLt
  have e : (fld word 26 6).toNat = 42 := by rw [fld_toNat]; omega
  unfold decodeWord; rw [e]
  show decodeOp2A word = _
  unfold decodeOp2A
  simp only [fld_eq]
  rw [if_neg (by simp only [BitVec.toNat_ofNat]; omega), if_neg (by simp only [BitVec.toNat_ofNat]; omega), if_neg (by simp only [BitVec.toNat_ofNat]; omega), if_pos (by simp only [BitVec.toNat_ofNat]; omega)]
  rw [(fld_eq word 18 4 a).2 (by omega), (fld_eq word 10 6 n).2 (by omega)]

theorem cld (d : BitVec 6) (a : BitVec 4) (s : BitVec 2) (i : BitVec 14) : Statement (.cld d a s i) := by
  intro word hw
  have h : word.toNat = ((((43 * 64 + d.toNat) * 16 + a.toNat) * 4 + s.toNat) * 16384 + i.toNat) := by
    cases hw; rw [mkWord_toNat _ (by decide)]; simp only [append_toNat]; rfl
  have := d.isLt; have := a.isLt; have := s.isLt; have := i.isLt
  have e : (fld word 26 6).toNat = 43 := by rw [fld_toNat]; omega
  unfold decodeWord; rw [e]
  show decodeOp2B word = _
  unfold decodeOp2B
  rw [(fld_eq word 20 6 d).2 (by omega), (fld_eq word 16 4 a).2 (by omega), (fld_eq word 14 2 s).2 (by omega), (fld_eq word 0 14 i).2 (by omega)]

theorem cst (d : BitVec 6) (a : BitVec 4) (s : BitVec 2) (i : BitVec 14) : Statement (.cst d a s i) := by
  intro word hw
  have h : word.toNat = ((((44 * 64 + d.toNat) * 16 + a.toNat) * 4 + s.toNat) * 16384 + i.toNat) := by
    cases hw; rw [mkWord_toNat _ (by decide)]; simp only [append_toNat]; rfl
  have := d.isLt; have := a.isLt; have := s.isLt; have := i.isLt
  have e : (fld word 26 6).toNat = 44 := by rw [fld_toNat]; omega
  unfold decodeWord; rw [e]
  show decodeOp2C word = _
  unfold decodeOp2C
  rw [(fld_eq word 20 6 d).2 (by omega), (fld_eq word 16 4 a).2 (by omega), (fld_eq word 14 2 s).2 (by omega), (fld_eq word 0 14 i).2 (by omega)]

theorem wred (d : BitVec 6) (a : BitVec 8) (r : BitVec 4) (p : BitVec 3) (n : BitVec 1) : Statement (.wred d a r p n) := by
  intro word hw
  have h : word.toNat = ((((((45 * 64 + d.toNat) * 256 + a.toNat) * 16 + r.toNat) * 8 + p.toNat) * 2 + n.toNat) * 16 + 0) := by
    cases hw; rw [mkWord_toNat _ (by decide)]; simp only [append_toNat]; rfl
  have := d.isLt; have := a.isLt; have := r.isLt; have := p.isLt; have := n.isLt
  have e : (fld word 26 6).toNat = 45 := by rw [fld_toNat]; omega
  unfold decodeWord; rw [e]
  show decodeOp2D word = _
  unfold decodeOp2D
  rw [(fld_eq word 0 4 0#4).2 (by simp only [BitVec.toNat_ofNat]; omega), (fld_eq word 20 6 d).2 (by omega), (fld_eq word 12 8 a).2 (by omega), (fld_eq word 8 4 r).2 (by omega), (fld_eq word 5 3 p).2 (by omega), (fld_eq word 4 1 n).2 (by omega)]
  rfl

theorem srd (r : BitVec 7) (i : BitVec 10) : Statement (.srd r i) := by
  intro word hw
  have h : word.toNat = ((((46 * 4 + 0) * 128 + r.toNat) * 1024 + i.toNat) * 128 + 0) := by
    cases hw; rw [mkWord_toNat _ (by decide)]; simp only [append_toNat]; rfl
  have := r.isLt; have := i.isLt
  have e : (fld word 26 6).toNat = 46 := by rw [fld_toNat]; omega
  unfold decodeWord; rw [e]
  show decodeOp2E word = _
  unfold decodeOp2E
  simp only [fld_eq]
  rw [if_pos (by simp only [BitVec.toNat_ofNat]; omega)]
  rw [(fld_eq word 17 7 r).2 (by omega), (fld_eq word 7 10 i).2 (by omega)]

theorem swr (r : BitVec 7) (i : BitVec 10) : Statement (.swr r i) := by
  intro word hw
  have h : word.toNat = ((((46 * 4 + 2) * 128 + r.toNat) * 1024 + i.toNat) * 128 + 0) := by
    cases hw; rw [mkWord_toNat _ (by decide)]; simp only [append_toNat]; rfl
  have := r.isLt; have := i.isLt
  have e : (fld word 26 6).toNat = 46 := by rw [fld_toNat]; omega
  unfold decodeWord; rw [e]
  show decodeOp2E word = _
  unfold decodeOp2E
  simp only [fld_eq]
  rw [if_neg (by simp only [BitVec.toNat_ofNat]; omega), if_pos (by simp only [BitVec.toNat_ofNat]; omega)]
  rw [(fld_eq word 17 7 r).2 (by omega), (fld_eq word 7 10 i).2 (by omega)]

theorem regqSet (d : BitVec 6) (a : BitVec 8) : Statement (.regqSet d a) := by
  intro word hw
  have h : word.toNat = (((47 * 64 + d.toNat) * 256 + a.toNat) * 4096 + 0) := by
    cases hw; rw [mkWord_toNat _ (by decide)]; simp only [append_toNat]; rfl
  have := d.isLt; have := a.isLt
  have e : (fld word 26 6).toNat = 47 := by rw [fld_toNat]; omega
  unfold decodeWord; rw [e]
  show decodeOp2F word = _
  unfold decodeOp2F
  rw [(fld_eq word 0 12 0#12).2 (by simp only [BitVec.toNat_ofNat]; omega), (fld_eq word 20 6 d).2 (by omega), (fld_eq word 12 8 a).2 (by omega)]
  rfl

theorem regqXfer (d : BitVec 6) (a : BitVec 8) (b : BitVec 8) : Statement (.regqXfer d a b) := by
  intro word hw
  have h : word.toNat = ((((47 * 64 + d.toNat) * 256 + a.toNat) * 256 + b.toNat) * 16 + 1) := by
    cases hw; rw [mkWord_toNat _ (by decide)]; simp only [append_toNat]; rfl
  have := d.isLt; have := a.isLt; have := b.isLt
  have e : (fld word 26 6).toNat = 47 := by rw [fld_toNat]; omega
  unfold decodeWord; rw [e]
  show decodeOp2F word = _
  unfold decodeOp2F
  simp only [fld_eq]
  rw [if_neg (by simp only [BitVec.toNat_ofNat]; omega), if_pos (by simp only [BitVec.toNat_ofNat]; omega)]
  rw [(fld_eq word 20 6 d).2 (by omega), (fld_eq word 12 8 a).2 (by omega), (fld_eq word 4 8 b).2 (by omega)]

theorem regqGet (d : BitVec 6) : Statement (.regqGet d) := by
  intro word hw
  have h : word.toNat = ((47 * 64 + d.toNat) * 1048576 + 2) := by
    cases hw; rw [mkWord_toNat _ (by decide)]; simp only [append_toNat]; rfl
  have := d.isLt
  have e : (fld word 26 6).toNat = 47 := by rw [fld_toNat]; omega
  unfold decodeWord; rw [e]
  show decodeOp2F word = _
  unfold decodeOp2F
  simp only [fld_eq]
  rw [if_neg (by simp only [BitVec.toNat_ofNat]; omega), if_neg (by simp only [BitVec.toNat_ofNat]; omega), if_pos (by simp only [BitVec.toNat_ofNat]; omega)]
  rw [(fld_eq word 20 6 d).2 (by omega)]

theorem copyT (a : BitVec 4) (s : BitVec 8) (f : BitVec 4) (c : BitVec 3) (m : BitVec 2) : Statement (.copyT a s f c m) := by
  intro word hw
  have h : word.toNat = ((((((48 * 16 + a.toNat) * 256 + s.toNat) * 16 + f.toNat) * 8 + c.toNat) * 4 + m.toNat) * 32 + 0) := by
    cases hw; rw [mkWord_toNat _ (by decide)]; simp only [append_toNat]; rfl
  have := a.isLt; have := s.isLt; have := f.isLt; have := c.isLt; have := m.isLt
  have e : (fld word 26 6).toNat = 48 := by rw [fld_toNat]; omega
  unfold decodeWord; rw [e]
  show decodeOp30 word = _
  unfold decodeOp30
  rw [(fld_eq word 0 5 0#5).2 (by simp only [BitVec.toNat_ofNat]; omega), (fld_eq word 22 4 a).2 (by omega), (fld_eq word 14 8 s).2 (by omega), (fld_eq word 10 4 f).2 (by omega), (fld_eq word 7 3 c).2 (by omega), (fld_eq word 5 2 m).2 (by omega)]
  rfl

theorem copyG (a : BitVec 4) (s : BitVec 8) (f : BitVec 4) (c : BitVec 3) (m : BitVec 2) : Statement (.copyG a s f c m) := by
  intro word hw
  have h : word.toNat = ((((((48 * 16 + a.toNat) * 256 + s.toNat) * 16 + f.toNat) * 8 + c.toNat) * 4 + m.toNat) * 32 + 1) := by
    cases hw; rw [mkWord_toNat _ (by decide)]; simp only [append_toNat]; rfl
  have := a.isLt; have := s.isLt; have := f.isLt; have := c.isLt; have := m.isLt
  have e : (fld word 26 6).toNat = 48 := by rw [fld_toNat]; omega
  unfold decodeWord; rw [e]
  show decodeOp30 word = _
  unfold decodeOp30
  rw [(fld_eq word 0 5 1#5).2 (by simp only [BitVec.toNat_ofNat]; omega), (fld_eq word 22 4 a).2 (by omega), (fld_eq word 14 8 s).2 (by omega), (fld_eq word 10 4 f).2 (by omega), (fld_eq word 7 3 c).2 (by omega), (fld_eq word 5 2 m).2 (by omega)]
  rfl

theorem copyS (a : BitVec 4) (s : BitVec 8) (f : BitVec 4) (c : BitVec 3) (m : BitVec 2) : Statement (.copyS a s f c m) := by
  intro word hw
  have h : word.toNat = ((((((48 * 16 + a.toNat) * 256 + s.toNat) * 16 + f.toNat) * 8 + c.toNat) * 4 + m.toNat) * 32 + 2) := by
    cases hw; rw [mkWord_toNat _ (by decide)]; simp only [append_toNat]; rfl
  have := a.isLt; have := s.isLt; have := f.isLt; have := c.isLt; have := m.isLt
  have e : (fld word 26 6).toNat = 48 := by rw [fld_toNat]; omega
  unfold decodeWord; rw [e]
  show decodeOp30 word = _
  unfold decodeOp30
  rw [(fld_eq word 0 5 2#5).2 (by simp only [BitVec.toNat_ofNat]; omega), (fld_eq word 22 4 a).2 (by omega), (fld_eq word 14 8 s).2 (by omega), (fld_eq word 10 4 f).2 (by omega), (fld_eq word 7 3 c).2 (by omega), (fld_eq word 5 2 m).2 (by omega)]
  rfl

theorem copyMc (a : BitVec 4) (s : BitVec 8) (f : BitVec 4) (c : BitVec 3) (m : BitVec 2) : Statement (.copyMc a s f c m) := by
  intro word hw
  have h : word.toNat = ((((((48 * 16 + a.toNat) * 256 + s.toNat) * 16 + f.toNat) * 8 + c.toNat) * 4 + m.toNat) * 32 + 3) := by
    cases hw; rw [mkWord_toNat _ (by decide)]; simp only [append_toNat]; rfl
  have := a.isLt; have := s.isLt; have := f.isLt; have := c.isLt; have := m.isLt
  have e : (fld word 26 6).toNat = 48 := by rw [fld_toNat]; omega
  unfold decodeWord; rw [e]
  show decodeOp30 word = _
  unfold decodeOp30
  rw [(fld_eq word 0 5 3#5).2 (by simp only [BitVec.toNat_ofNat]; omega), (fld_eq word 22 4 a).2 (by omega), (fld_eq word 14 8 s).2 (by omega), (fld_eq word 10 4 f).2 (by omega), (fld_eq word 7 3 c).2 (by omega), (fld_eq word 5 2 m).2 (by omega)]
  rfl

theorem copyWb (a : BitVec 4) (s : BitVec 8) (f : BitVec 4) (c : BitVec 3) (m : BitVec 2) : Statement (.copyWb a s f c m) := by
  intro word hw
  have h : word.toNat = ((((((48 * 16 + a.toNat) * 256 + s.toNat) * 16 + f.toNat) * 8 + c.toNat) * 4 + m.toNat) * 32 + 4) := by
    cases hw; rw [mkWord_toNat _ (by decide)]; simp only [append_toNat]; rfl
  have := a.isLt; have := s.isLt; have := f.isLt; have := c.isLt; have := m.isLt
  have e : (fld word 26 6).toNat = 48 := by rw [fld_toNat]; omega
  unfold decodeWord; rw [e]
  show decodeOp30 word = _
  unfold decodeOp30
  rw [(fld_eq word 0 5 4#5).2 (by simp only [BitVec.toNat_ofNat]; omega), (fld_eq word 22 4 a).2 (by omega), (fld_eq word 14 8 s).2 (by omega), (fld_eq word 10 4 f).2 (by omega), (fld_eq word 7 3 c).2 (by omega), (fld_eq word 5 2 m).2 (by omega)]
  rfl

theorem copyFill (a : BitVec 4) (s : BitVec 8) (f : BitVec 4) (c : BitVec 3) : Statement (.copyFill a s f c) := by
  intro word hw
  have h : word.toNat = (((((48 * 16 + a.toNat) * 256 + s.toNat) * 16 + f.toNat) * 8 + c.toNat) * 128 + 5) := by
    cases hw; rw [mkWord_toNat _ (by decide)]; simp only [append_toNat]; rfl
  have := a.isLt; have := s.isLt; have := f.isLt; have := c.isLt
  have e : (fld word 26 6).toNat = 48 := by rw [fld_toNat]; omega
  unfold decodeWord; rw [e]
  show decodeOp30 word = _
  unfold decodeOp30
  simp only [fld_eq]
  rw [if_neg (by simp only [BitVec.toNat_ofNat]; omega), if_neg (by simp only [BitVec.toNat_ofNat]; omega), if_neg (by simp only [BitVec.toNat_ofNat]; omega), if_neg (by simp only [BitVec.toNat_ofNat]; omega), if_neg (by simp only [BitVec.toNat_ofNat]; omega), if_pos (by simp only [BitVec.toNat_ofNat]; omega)]
  rw [(fld_eq word 22 4 a).2 (by omega), (fld_eq word 14 8 s).2 (by omega), (fld_eq word 10 4 f).2 (by omega), (fld_eq word 7 3 c).2 (by omega)]

theorem cresume (s : BitVec 8) : Statement (.cresume s) := by
  intro word hw
  have h : word.toNat = (((48 * 16 + 0) * 256 + s.toNat) * 16384 + 6) := by
    cases hw; rw [mkWord_toNat _ (by decide)]; simp only [append_toNat]; rfl
  have := s.isLt
  have e : (fld word 26 6).toNat = 48 := by rw [fld_toNat]; omega
  unfold decodeWord; rw [e]
  show decodeOp30 word = _
  unfold decodeOp30
  simp only [fld_eq]
  rw [if_neg (by simp only [BitVec.toNat_ofNat]; omega), if_neg (by simp only [BitVec.toNat_ofNat]; omega), if_neg (by simp only [BitVec.toNat_ofNat]; omega), if_neg (by simp only [BitVec.toNat_ofNat]; omega), if_neg (by simp only [BitVec.toNat_ofNat]; omega), if_neg (by simp only [BitVec.toNat_ofNat]; omega), if_pos (by simp only [BitVec.toNat_ofNat]; omega)]
  rw [(fld_eq word 14 8 s).2 (by omega)]

theorem ccancel (s : BitVec 8) : Statement (.ccancel s) := by
  intro word hw
  have h : word.toNat = (((48 * 16 + 0) * 256 + s.toNat) * 16384 + 7) := by
    cases hw; rw [mkWord_toNat _ (by decide)]; simp only [append_toNat]; rfl
  have := s.isLt
  have e : (fld word 26 6).toNat = 48 := by rw [fld_toNat]; omega
  unfold decodeWord; rw [e]
  show decodeOp30 word = _
  unfold decodeOp30
  simp only [fld_eq]
  rw [if_neg (by simp only [BitVec.toNat_ofNat]; omega), if_neg (by simp only [BitVec.toNat_ofNat]; omega), if_neg (by simp only [BitVec.toNat_ofNat]; omega), if_neg (by simp only [BitVec.toNat_ofNat]; omega), if_neg (by simp only [BitVec.toNat_ofNat]; omega), if_neg (by simp only [BitVec.toNat_ofNat]; omega), if_neg (by simp only [BitVec.toNat_ofNat]; omega), if_pos (by simp only [BitVec.toNat_ofNat]; omega)]
  rw [(fld_eq word 14 8 s).2 (by omega)]

theorem tbarInit (t : BitVec 7) (x : BitVec 8) (a : BitVec 4) (k : BitVec 4) : Statement (.tbarInit t x a k) := by
  intro word hw
  have h : word.toNat = (((((49 * 128 + t.toNat) * 256 + x.toNat) * 16 + a.toNat) * 8 + 0) * 16 + k.toNat) := by
    cases hw; rw [mkWord_toNat _ (by decide)]; simp only [append_toNat]; rfl
  have := t.isLt; have := x.isLt; have := a.isLt; have := k.isLt
  have e : (fld word 26 6).toNat = 49 := by rw [fld_toNat]; omega
  unfold decodeWord; rw [e]
  show decodeOp31 word = _
  unfold decodeOp31
  rw [(fld_eq word 4 3 0#3).2 (by simp only [BitVec.toNat_ofNat]; omega), (fld_eq word 19 7 t).2 (by omega), (fld_eq word 11 8 x).2 (by omega), (fld_eq word 7 4 a).2 (by omega), (fld_eq word 0 4 k).2 (by omega)]
  rfl

theorem tbarArrive (t : BitVec 7) (x : BitVec 8) (a : BitVec 4) (k : BitVec 4) : Statement (.tbarArrive t x a k) := by
  intro word hw
  have h : word.toNat = (((((49 * 128 + t.toNat) * 256 + x.toNat) * 16 + a.toNat) * 8 + 1) * 16 + k.toNat) := by
    cases hw; rw [mkWord_toNat _ (by decide)]; simp only [append_toNat]; rfl
  have := t.isLt; have := x.isLt; have := a.isLt; have := k.isLt
  have e : (fld word 26 6).toNat = 49 := by rw [fld_toNat]; omega
  unfold decodeWord; rw [e]
  show decodeOp31 word = _
  unfold decodeOp31
  rw [(fld_eq word 4 3 1#3).2 (by simp only [BitVec.toNat_ofNat]; omega), (fld_eq word 19 7 t).2 (by omega), (fld_eq word 11 8 x).2 (by omega), (fld_eq word 7 4 a).2 (by omega), (fld_eq word 0 4 k).2 (by omega)]
  rfl

theorem tbarExpect (t : BitVec 7) (x : BitVec 8) (a : BitVec 4) (k : BitVec 4) : Statement (.tbarExpect t x a k) := by
  intro word hw
  have h : word.toNat = (((((49 * 128 + t.toNat) * 256 + x.toNat) * 16 + a.toNat) * 8 + 2) * 16 + k.toNat) := by
    cases hw; rw [mkWord_toNat _ (by decide)]; simp only [append_toNat]; rfl
  have := t.isLt; have := x.isLt; have := a.isLt; have := k.isLt
  have e : (fld word 26 6).toNat = 49 := by rw [fld_toNat]; omega
  unfold decodeWord; rw [e]
  show decodeOp31 word = _
  unfold decodeOp31
  rw [(fld_eq word 4 3 2#3).2 (by simp only [BitVec.toNat_ofNat]; omega), (fld_eq word 19 7 t).2 (by omega), (fld_eq word 11 8 x).2 (by omega), (fld_eq word 7 4 a).2 (by omega), (fld_eq word 0 4 k).2 (by omega)]
  rfl

theorem tbarWait (t : BitVec 7) (x : BitVec 8) (a : BitVec 4) (k : BitVec 4) : Statement (.tbarWait t x a k) := by
  intro word hw
  have h : word.toNat = (((((49 * 128 + t.toNat) * 256 + x.toNat) * 16 + a.toNat) * 8 + 3) * 16 + k.toNat) := by
    cases hw; rw [mkWord_toNat _ (by decide)]; simp only [append_toNat]; rfl
  have := t.isLt; have := x.isLt; have := a.isLt; have := k.isLt
  have e : (fld word 26 6).toNat = 49 := by rw [fld_toNat]; omega
  unfold decodeWord; rw [e]
  show decodeOp31 word = _
  unfold decodeOp31
  rw [(fld_eq word 4 3 3#3).2 (by simp only [BitVec.toNat_ofNat]; omega), (fld_eq word 19 7 t).2 (by omega), (fld_eq word 11 8 x).2 (by omega), (fld_eq word 7 4 a).2 (by omega), (fld_eq word 0 4 k).2 (by omega)]
  rfl

theorem tbarTest (t : BitVec 7) (x : BitVec 8) (a : BitVec 4) (k : BitVec 4) : Statement (.tbarTest t x a k) := by
  intro word hw
  have h : word.toNat = (((((49 * 128 + t.toNat) * 256 + x.toNat) * 16 + a.toNat) * 8 + 4) * 16 + k.toNat) := by
    cases hw; rw [mkWord_toNat _ (by decide)]; simp only [append_toNat]; rfl
  have := t.isLt; have := x.isLt; have := a.isLt; have := k.isLt
  have e : (fld word 26 6).toNat = 49 := by rw [fld_toNat]; omega
  unfold decodeWord; rw [e]
  show decodeOp31 word = _
  unfold decodeOp31
  rw [(fld_eq word 4 3 4#3).2 (by simp only [BitVec.toNat_ofNat]; omega), (fld_eq word 19 7 t).2 (by omega), (fld_eq word 11 8 x).2 (by omega), (fld_eq word 7 4 a).2 (by omega), (fld_eq word 0 4 k).2 (by omega)]
  rfl

theorem mdesc (c : BitVec 6) (s : BitVec 4) : Statement (.mdesc c s) := by
  intro word hw
  have h : word.toNat = ((((50 * 16 + 0) * 64 + c.toNat) * 16 + s.toNat) * 4096 + 0) := by
    cases hw; rw [mkWord_toNat _ (by decide)]; simp only [append_toNat]; rfl
  have := c.isLt; have := s.isLt
  have e : (fld word 26 6).toNat = 50 := by rw [fld_toNat]; omega
  unfold decodeWord; rw [e]
  show decodeOp32 word = _
  unfold decodeOp32
  simp only [fld_eq]
  rw [if_pos (by simp only [BitVec.toNat_ofNat]; omega)]
  rw [(fld_eq word 16 6 c).2 (by omega), (fld_eq word 12 4 s).2 (by omega)]

theorem mma (s : BitVec 4) : Statement (.mma s) := by
  intro word hw
  have h : word.toNat = (((50 * 1024 + 64) * 16 + s.toNat) * 4096 + 0) := by
    cases hw; rw [mkWord_toNat _ (by decide)]; simp only [append_toNat]; rfl
  have := s.isLt
  have e : (fld word 26 6).toNat = 50 := by rw [fld_toNat]; omega
  unfold decodeWord; rw [e]
  show decodeOp32 word = _
  unfold decodeOp32
  simp only [fld_eq]
  rw [if_neg (by simp only [BitVec.toNat_ofNat]; omega), if_pos (by simp only [BitVec.toNat_ofNat]; omega)]
  rw [(fld_eq word 12 4 s).2 (by omega)]

theorem accrd (c : BitVec 6) : Statement (.accrd c) := by
  intro word hw
  have h : word.toNat = (((50 * 16 + 2) * 64 + c.toNat) * 65536 + 0) := by
    cases hw; rw [mkWord_toNat _ (by decide)]; simp only [append_toNat]; rfl
  have := c.isLt
  have e : (fld word 26 6).toNat = 50 := by rw [fld_toNat]; omega
  unfold decodeWord; rw [e]
  show decodeOp32 word = _
  unfold decodeOp32
  simp only [fld_eq]
  rw [if_neg (by simp only [BitVec.toNat_ofNat]; omega), if_neg (by simp only [BitVec.toNat_ofNat]; omega), if_pos (by simp only [BitVec.toNat_ofNat]; omega)]
  rw [(fld_eq word 16 6 c).2 (by omega)]

theorem accwr (c : BitVec 6) : Statement (.accwr c) := by
  intro word hw
  have h : word.toNat = (((50 * 16 + 3) * 64 + c.toNat) * 65536 + 0) := by
    cases hw; rw [mkWord_toNat _ (by decide)]; simp only [append_toNat]; rfl
  have := c.isLt
  have e : (fld word 26 6).toNat = 50 := by rw [fld_toNat]; omega
  unfold decodeWord; rw [e]
  show decodeOp32 word = _
  unfold decodeOp32
  simp only [fld_eq]
  rw [if_neg (by simp only [BitVec.toNat_ofNat]; omega), if_neg (by simp only [BitVec.toNat_ofNat]; omega), if_neg (by simp only [BitVec.toNat_ofNat]; omega), if_pos (by simp only [BitVec.toNat_ofNat]; omega)]
  rw [(fld_eq word 16 6 c).2 (by omega)]

theorem accscl (c : BitVec 6) : Statement (.accscl c) := by
  intro word hw
  have h : word.toNat = (((50 * 16 + 4) * 64 + c.toNat) * 65536 + 0) := by
    cases hw; rw [mkWord_toNat _ (by decide)]; simp only [append_toNat]; rfl
  have := c.isLt
  have e : (fld word 26 6).toNat = 50 := by rw [fld_toNat]; omega
  unfold decodeWord; rw [e]
  show decodeOp32 word = _
  unfold decodeOp32
  simp only [fld_eq]
  rw [if_neg (by simp only [BitVec.toNat_ofNat]; omega), if_neg (by simp only [BitVec.toNat_ofNat]; omega), if_neg (by simp only [BitVec.toNat_ofNat]; omega), if_neg (by simp only [BitVec.toNat_ofNat]; omega), if_pos (by simp only [BitVec.toNat_ofNat]; omega)]
  rw [(fld_eq word 16 6 c).2 (by omega)]

theorem accz (c : BitVec 6) : Statement (.accz c) := by
  intro word hw
  have h : word.toNat = (((50 * 16 + 5) * 64 + c.toNat) * 65536 + 0) := by
    cases hw; rw [mkWord_toNat _ (by decide)]; simp only [append_toNat]; rfl
  have := c.isLt
  have e : (fld word 26 6).toNat = 50 := by rw [fld_toNat]; omega
  unfold decodeWord; rw [e]
  show decodeOp32 word = _
  unfold decodeOp32
  simp only [fld_eq]
  rw [if_neg (by simp only [BitVec.toNat_ofNat]; omega), if_neg (by simp only [BitVec.toNat_ofNat]; omega), if_neg (by simp only [BitVec.toNat_ofNat]; omega), if_neg (by simp only [BitVec.toNat_ofNat]; omega), if_neg (by simp only [BitVec.toNat_ofNat]; omega), if_pos (by simp only [BitVec.toNat_ofNat]; omega)]
  rw [(fld_eq word 16 6 c).2 (by omega)]

theorem wbinv (a : BitVec 4) (m : BitVec 8) : Statement (.wbinv a m) := by
  intro word hw
  have h : word.toNat = (((50 * 16384 + 6144) * 16 + a.toNat) * 256 + m.toNat) := by
    cases hw; rw [mkWord_toNat _ (by decide)]; simp only [append_toNat]; rfl
  have := a.isLt; have := m.isLt
  have e : (fld word 26 6).toNat = 50 := by rw [fld_toNat]; omega
  unfold decodeWord; rw [e]
  show decodeOp32 word = _
  unfold decodeOp32
  simp only [fld_eq]
  rw [if_neg (by simp only [BitVec.toNat_ofNat]; omega), if_neg (by simp only [BitVec.toNat_ofNat]; omega), if_neg (by simp only [BitVec.toNat_ofNat]; omega), if_neg (by simp only [BitVec.toNat_ofNat]; omega), if_neg (by simp only [BitVec.toNat_ofNat]; omega), if_neg (by simp only [BitVec.toNat_ofNat]; omega), if_pos (by simp only [BitVec.toNat_ofNat]; omega)]
  rw [(fld_eq word 8 4 a).2 (by omega), (fld_eq word 0 8 m).2 (by omega)]

theorem mstat (c : BitVec 6) (s : BitVec 8) : Statement (.mstat c s) := by
  intro word hw
  have h : word.toNat = ((((50 * 16 + 7) * 64 + c.toNat) * 256 + 0) * 256 + s.toNat) := by
    cases hw; rw [mkWord_toNat _ (by decide)]; simp only [append_toNat]; rfl
  have := c.isLt; have := s.isLt
  have e : (fld word 26 6).toNat = 50 := by rw [fld_toNat]; omega
  unfold decodeWord; rw [e]
  show decodeOp32 word = _
  unfold decodeOp32
  simp only [fld_eq]
  rw [if_neg (by simp only [BitVec.toNat_ofNat]; omega), if_neg (by simp only [BitVec.toNat_ofNat]; omega), if_neg (by simp only [BitVec.toNat_ofNat]; omega), if_neg (by simp only [BitVec.toNat_ofNat]; omega), if_neg (by simp only [BitVec.toNat_ofNat]; omega), if_neg (by simp only [BitVec.toNat_ofNat]; omega), if_neg (by simp only [BitVec.toNat_ofNat]; omega), if_pos (by simp only [BitVec.toNat_ofNat]; omega)]
  rw [(fld_eq word 16 6 c).2 (by omega), (fld_eq word 0 8 s).2 (by omega)]

theorem collAr (a : BitVec 4) (s : BitVec 8) (c : BitVec 3) : Statement (.collAr a s c) := by
  intro word hw
  have h : word.toNat = (((((51 * 16 + a.toNat) * 256 + s.toNat) * 16 + 0) * 8 + c.toNat) * 128 + 0) := by
    cases hw; rw [mkWord_toNat _ (by decide)]; simp only [append_toNat]; rfl
  have := a.isLt; have := s.isLt; have := c.isLt
  have e : (fld word 26 6).toNat = 51 := by rw [fld_toNat]; omega
  unfold decodeWord; rw [e]
  show decodeOp33 word = _
  unfold decodeOp33
  simp only [fld_eq]
  rw [if_pos (by simp only [BitVec.toNat_ofNat]; omega)]
  rw [(fld_eq word 22 4 a).2 (by omega), (fld_eq word 14 8 s).2 (by omega), (fld_eq word 7 3 c).2 (by omega)]

theorem collRs (a : BitVec 4) (s : BitVec 8) (c : BitVec 3) : Statement (.collRs a s c) := by
  intro word hw
  have h : word.toNat = (((((51 * 16 + a.toNat) * 256 + s.toNat) * 16 + 0) * 8 + c.toNat) * 128 + 1) := by
    cases hw; rw [mkWord_toNat _ (by decide)]; simp only [append_toNat]; rfl
  have := a.isLt; have := s.isLt; have := c.isLt
  have e : (fld word 26 6).toNat = 51 := by rw [fld_toNat]; omega
  unfold decodeWord; rw [e]
  show decodeOp33 word = _
  unfold decodeOp33
  simp only [fld_eq]
  rw [if_neg (by simp only [BitVec.toNat_ofNat]; omega), if_pos (by simp only [BitVec.toNat_ofNat]; omega)]
  rw [(fld_eq word 22 4 a).2 (by omega), (fld_eq word 14 8 s).2 (by omega), (fld_eq word 7 3 c).2 (by omega)]

theorem collAg (a : BitVec 4) (s : BitVec 8) (c : BitVec 3) : Statement (.collAg a s c) := by
  intro word hw
  have h : word.toNat = (((((51 * 16 + a.toNat) * 256 + s.toNat) * 16 + 0) * 8 + c.toNat) * 128 + 2) := by
    cases hw; rw [mkWord_toNat _ (by decide)]; simp only [append_toNat]; rfl
  have := a.isLt; have := s.isLt; have := c.isLt
  have e : (fld word 26 6).toNat = 51 := by rw [fld_toNat]; omega
  unfold decodeWord; rw [e]
  show decodeOp33 word = _
  unfold decodeOp33
  simp only [fld_eq]
  rw [if_neg (by simp only [BitVec.toNat_ofNat]; omega), if_neg (by simp only [BitVec.toNat_ofNat]; omega), if_pos (by simp only [BitVec.toNat_ofNat]; omega)]
  rw [(fld_eq word 22 4 a).2 (by omega), (fld_eq word 14 8 s).2 (by omega), (fld_eq word 7 3 c).2 (by omega)]

theorem collBc (a : BitVec 4) (s : BitVec 8) (c : BitVec 3) : Statement (.collBc a s c) := by
  intro word hw
  have h : word.toNat = (((((51 * 16 + a.toNat) * 256 + s.toNat) * 16 + 0) * 8 + c.toNat) * 128 + 3) := by
    cases hw; rw [mkWord_toNat _ (by decide)]; simp only [append_toNat]; rfl
  have := a.isLt; have := s.isLt; have := c.isLt
  have e : (fld word 26 6).toNat = 51 := by rw [fld_toNat]; omega
  unfold decodeWord; rw [e]
  show decodeOp33 word = _
  unfold decodeOp33
  simp only [fld_eq]
  rw [if_neg (by simp only [BitVec.toNat_ofNat]; omega), if_neg (by simp only [BitVec.toNat_ofNat]; omega), if_neg (by simp only [BitVec.toNat_ofNat]; omega), if_pos (by simp only [BitVec.toNat_ofNat]; omega)]
  rw [(fld_eq word 22 4 a).2 (by omega), (fld_eq word 14 8 s).2 (by omega), (fld_eq word 7 3 c).2 (by omega)]

theorem tbld (d : BitVec 6) (a : BitVec 8) (b : BitVec 8) : Statement (.tbld d a b) := by
  intro word hw
  have h : word.toNat = ((((52 * 64 + d.toNat) * 256 + a.toNat) * 256 + b.toNat) * 16 + 0) := by
    cases hw; rw [mkWord_toNat _ (by decide)]; simp only [append_toNat]; rfl
  have := d.isLt; have := a.isLt; have := b.isLt
  have e : (fld word 26 6).toNat = 52 := by rw [fld_toNat]; omega
  unfold decodeWord; rw [e]
  show decodeOp34 word = _
  unfold decodeOp34
  rw [(fld_eq word 0 4 0#4).2 (by simp only [BitVec.toNat_ofNat]; omega), (fld_eq word 20 6 d).2 (by omega), (fld_eq word 12 8 a).2 (by omega), (fld_eq word 4 8 b).2 (by omega)]
  rfl

theorem tbinv (d : BitVec 6) (a : BitVec 8) (b : BitVec 8) : Statement (.tbinv d a b) := by
  intro word hw
  have h : word.toNat = ((((52 * 64 + d.toNat) * 256 + a.toNat) * 256 + b.toNat) * 16 + 1) := by
    cases hw; rw [mkWord_toNat _ (by decide)]; simp only [append_toNat]; rfl
  have := d.isLt; have := a.isLt; have := b.isLt
  have e : (fld word 26 6).toNat = 52 := by rw [fld_toNat]; omega
  unfold decodeWord; rw [e]
  show decodeOp34 word = _
  unfold decodeOp34
  rw [(fld_eq word 0 4 1#4).2 (by simp only [BitVec.toNat_ofNat]; omega), (fld_eq word 20 6 d).2 (by omega), (fld_eq word 12 8 a).2 (by omega), (fld_eq word 4 8 b).2 (by omega)]
  rfl

theorem tbq (d : BitVec 6) (a : BitVec 8) (b : BitVec 8) : Statement (.tbq d a b) := by
  intro word hw
  have h : word.toNat = ((((52 * 64 + d.toNat) * 256 + a.toNat) * 256 + b.toNat) * 16 + 2) := by
    cases hw; rw [mkWord_toNat _ (by decide)]; simp only [append_toNat]; rfl
  have := d.isLt; have := a.isLt; have := b.isLt
  have e : (fld word 26 6).toNat = 52 := by rw [fld_toNat]; omega
  unfold decodeWord; rw [e]
  show decodeOp34 word = _
  unfold decodeOp34
  rw [(fld_eq word 0 4 2#4).2 (by simp only [BitVec.toNat_ofNat]; omega), (fld_eq word 20 6 d).2 (by omega), (fld_eq word 12 8 a).2 (by omega), (fld_eq word 4 8 b).2 (by omega)]
  rfl

theorem tagq (d : BitVec 6) (a : BitVec 8) (b : BitVec 8) : Statement (.tagq d a b) := by
  intro word hw
  have h : word.toNat = ((((52 * 64 + d.toNat) * 256 + a.toNat) * 256 + b.toNat) * 16 + 3) := by
    cases hw; rw [mkWord_toNat _ (by decide)]; simp only [append_toNat]; rfl
  have := d.isLt; have := a.isLt; have := b.isLt
  have e : (fld word 26 6).toNat = 52 := by rw [fld_toNat]; omega
  unfold decodeWord; rw [e]
  show decodeOp34 word = _
  unfold decodeOp34
  rw [(fld_eq word 0 4 3#4).2 (by simp only [BitVec.toNat_ofNat]; omega), (fld_eq word 20 6 d).2 (by omega), (fld_eq word 12 8 a).2 (by omega), (fld_eq word 4 8 b).2 (by omega)]
  rfl

theorem fresume (d : BitVec 6) (a : BitVec 8) (b : BitVec 8) : Statement (.fresume d a b) := by
  intro word hw
  have h : word.toNat = ((((52 * 64 + d.toNat) * 256 + a.toNat) * 256 + b.toNat) * 16 + 4) := by
    cases hw; rw [mkWord_toNat _ (by decide)]; simp only [append_toNat]; rfl
  have := d.isLt; have := a.isLt; have := b.isLt
  have e : (fld word 26 6).toNat = 52 := by rw [fld_toNat]; omega
  unfold decodeWord; rw [e]
  show decodeOp34 word = _
  unfold decodeOp34
  rw [(fld_eq word 0 4 4#4).2 (by simp only [BitVec.toNat_ofNat]; omega), (fld_eq word 20 6 d).2 (by omega), (fld_eq word 12 8 a).2 (by omega), (fld_eq word 4 8 b).2 (by omega)]
  rfl

theorem rack (d : BitVec 6) (a : BitVec 8) (b : BitVec 8) : Statement (.rack d a b) := by
  intro word hw
  have h : word.toNat = ((((52 * 64 + d.toNat) * 256 + a.toNat) * 256 + b.toNat) * 16 + 5) := by
    cases hw; rw [mkWord_toNat _ (by decide)]; simp only [append_toNat]; rfl
  have := d.isLt; have := a.isLt; have := b.isLt
  have e : (fld word 26 6).toNat = 52 := by rw [fld_toNat]; omega
  unfold decodeWord; rw [e]
  show decodeOp34 word = _
  unfold decodeOp34
  rw [(fld_eq word 0 4 5#4).2 (by simp only [BitVec.toNat_ofNat]; omega), (fld_eq word 20 6 d).2 (by omega), (fld_eq word 12 8 a).2 (by omega), (fld_eq word 4 8 b).2 (by omega)]
  rfl

theorem relinq (d : BitVec 6) (a : BitVec 8) (b : BitVec 8) : Statement (.relinq d a b) := by
  intro word hw
  have h : word.toNat = ((((52 * 64 + d.toNat) * 256 + a.toNat) * 256 + b.toNat) * 16 + 6) := by
    cases hw; rw [mkWord_toNat _ (by decide)]; simp only [append_toNat]; rfl
  have := d.isLt; have := a.isLt; have := b.isLt
  have e : (fld word 26 6).toNat = 52 := by rw [fld_toNat]; omega
  unfold decodeWord; rw [e]
  show decodeOp34 word = _
  unfold decodeOp34
  rw [(fld_eq word 0 4 6#4).2 (by simp only [BitVec.toNat_ofNat]; omega), (fld_eq word 20 6 d).2 (by omega), (fld_eq word 12 8 a).2 (by omega), (fld_eq word 4 8 b).2 (by omega)]
  rfl

theorem lossrd (d : BitVec 6) (a : BitVec 8) (b : BitVec 8) : Statement (.lossrd d a b) := by
  intro word hw
  have h : word.toNat = ((((52 * 64 + d.toNat) * 256 + a.toNat) * 256 + b.toNat) * 16 + 7) := by
    cases hw; rw [mkWord_toNat _ (by decide)]; simp only [append_toNat]; rfl
  have := d.isLt; have := a.isLt; have := b.isLt
  have e : (fld word 26 6).toNat = 52 := by rw [fld_toNat]; omega
  unfold decodeWord; rw [e]
  show decodeOp34 word = _
  unfold decodeOp34
  rw [(fld_eq word 0 4 7#4).2 (by simp only [BitVec.toNat_ofNat]; omega), (fld_eq word 20 6 d).2 (by omega), (fld_eq word 12 8 a).2 (by omega), (fld_eq word 4 8 b).2 (by omega)]
  rfl

theorem cntrdLo (d : BitVec 7) (i : BitVec 8) : Statement (.cntrdLo d i) := by
  intro word hw
  have h : word.toNat = (((53 * 128 + d.toNat) * 256 + i.toNat) * 2048 + 0) := by
    cases hw; rw [mkWord_toNat _ (by decide)]; simp only [append_toNat]; rfl
  have := d.isLt; have := i.isLt
  have e : (fld word 26 6).toNat = 53 := by rw [fld_toNat]; omega
  unfold decodeWord; rw [e]
  show decodeOp35 word = _
  unfold decodeOp35
  rw [(fld_eq word 0 11 0#11).2 (by simp only [BitVec.toNat_ofNat]; omega), (fld_eq word 19 7 d).2 (by omega), (fld_eq word 11 8 i).2 (by omega)]
  rfl

theorem cntrdHi (d : BitVec 7) (i : BitVec 8) : Statement (.cntrdHi d i) := by
  intro word hw
  have h : word.toNat = (((53 * 128 + d.toNat) * 256 + i.toNat) * 2048 + 1) := by
    cases hw; rw [mkWord_toNat _ (by decide)]; simp only [append_toNat]; rfl
  have := d.isLt; have := i.isLt
  have e : (fld word 26 6).toNat = 53 := by rw [fld_toNat]; omega
  unfold decodeWord; rw [e]
  show decodeOp35 word = _
  unfold decodeOp35
  rw [(fld_eq word 0 11 1#11).2 (by simp only [BitVec.toNat_ofNat]; omega), (fld_eq word 19 7 d).2 (by omega), (fld_eq word 11 8 i).2 (by omega)]
  rfl

theorem cntrd (d : BitVec 6) (i : BitVec 8) : Statement (.cntrd d i) := by
  intro word hw
  have h : word.toNat = ((((53 * 64 + d.toNat) * 2 + 0) * 256 + i.toNat) * 2048 + 2) := by
    cases hw; rw [mkWord_toNat _ (by decide)]; simp only [append_toNat]; rfl
  have := d.isLt; have := i.isLt
  have e : (fld word 26 6).toNat = 53 := by rw [fld_toNat]; omega
  unfold decodeWord; rw [e]
  show decodeOp35 word = _
  unfold decodeOp35
  simp only [fld_eq]
  rw [if_neg (by simp only [BitVec.toNat_ofNat]; omega), if_neg (by simp only [BitVec.toNat_ofNat]; omega), if_pos (by simp only [BitVec.toNat_ofNat]; omega)]
  rw [(fld_eq word 20 6 d).2 (by omega), (fld_eq word 11 8 i).2 (by omega)]

theorem cntsel (i : BitVec 8) (a : BitVec 8) : Statement (.cntsel i a) := by
  intro word hw
  have h : word.toNat = ((((53 * 128 + 0) * 256 + i.toNat) * 256 + a.toNat) * 8 + 3) := by
    cases hw; rw [mkWord_toNat _ (by decide)]; simp only [append_toNat]; rfl
  have := i.isLt; have := a.isLt
  have e : (fld word 26 6).toNat = 53 := by rw [fld_toNat]; omega
  unfold decodeWord; rw [e]
  show decodeOp35 word = _
  unfold decodeOp35
  simp only [fld_eq]
  rw [if_neg (by simp only [BitVec.toNat_ofNat]; omega), if_neg (by simp only [BitVec.toNat_ofNat]; omega), if_neg (by simp only [BitVec.toNat_ofNat]; omega), if_pos (by simp only [BitVec.toNat_ofNat]; omega)]
  rw [(fld_eq word 11 8 i).2 (by omega), (fld_eq word 3 8 a).2 (by omega)]

theorem cntz (i : BitVec 8) : Statement (.cntz i) := by
  intro word hw
  have h : word.toNat = (((53 * 128 + 0) * 256 + i.toNat) * 2048 + 4) := by
    cases hw; rw [mkWord_toNat _ (by decide)]; simp only [append_toNat]; rfl
  have := i.isLt
  have e : (fld word 26 6).toNat = 53 := by rw [fld_toNat]; omega
  unfold decodeWord; rw [e]
  show decodeOp35 word = _
  unfold decodeOp35
  simp only [fld_eq]
  rw [if_neg (by simp only [BitVec.toNat_ofNat]; omega), if_neg (by simp only [BitVec.toNat_ofNat]; omega), if_neg (by simp only [BitVec.toNat_ofNat]; omega), if_neg (by simp only [BitVec.toNat_ofNat]; omega), if_pos (by simp only [BitVec.toNat_ofNat]; omega)]
  rw [(fld_eq word 11 8 i).2 (by omega)]

theorem numrd (d : BitVec 6) (i : BitVec 8) (a : BitVec 8) : Statement (.numrd d i a) := by
  intro word hw
  have h : word.toNat = (((((53 * 64 + d.toNat) * 2 + 0) * 256 + i.toNat) * 256 + a.toNat) * 8 + 5) := by
    cases hw; rw [mkWord_toNat _ (by decide)]; simp only [append_toNat]; rfl
  have := d.isLt; have := i.isLt; have := a.isLt
  have e : (fld word 26 6).toNat = 53 := by rw [fld_toNat]; omega
  unfold decodeWord; rw [e]
  show decodeOp35 word = _
  unfold decodeOp35
  simp only [fld_eq]
  rw [if_neg (by simp only [BitVec.toNat_ofNat]; omega), if_neg (by simp only [BitVec.toNat_ofNat]; omega), if_neg (by simp only [BitVec.toNat_ofNat]; omega), if_neg (by simp only [BitVec.toNat_ofNat]; omega), if_neg (by simp only [BitVec.toNat_ofNat]; omega), if_pos (by simp only [BitVec.toNat_ofNat]; omega)]
  rw [(fld_eq word 20 6 d).2 (by omega), (fld_eq word 11 8 i).2 (by omega), (fld_eq word 3 8 a).2 (by omega)]

theorem dbpset (d : BitVec 6) (a : BitVec 8) (b : BitVec 8) : Statement (.dbpset d a b) := by
  intro word hw
  have h : word.toNat = ((((54 * 64 + d.toNat) * 256 + a.toNat) * 256 + b.toNat) * 16 + 0) := by
    cases hw; rw [mkWord_toNat _ (by decide)]; simp only [append_toNat]; rfl
  have := d.isLt; have := a.isLt; have := b.isLt
  have e : (fld word 26 6).toNat = 54 := by rw [fld_toNat]; omega
  unfold decodeWord; rw [e]
  show decodeOp36 word = _
  unfold decodeOp36
  rw [(fld_eq word 0 4 0#4).2 (by simp only [BitVec.toNat_ofNat]; omega), (fld_eq word 20 6 d).2 (by omega), (fld_eq word 12 8 a).2 (by omega), (fld_eq word 4 8 b).2 (by omega)]
  rfl

theorem dbpclr (d : BitVec 6) (a : BitVec 8) : Statement (.dbpclr d a) := by
  intro word hw
  have h : word.toNat = (((54 * 64 + d.toNat) * 256 + a.toNat) * 4096 + 1) := by
    cases hw; rw [mkWord_toNat _ (by decide)]; simp only [append_toNat]; rfl
  have := d.isLt; have := a.isLt
  have e : (fld word 26 6).toNat = 54 := by rw [fld_toNat]; omega
  unfold decodeWord; rw [e]
  show decodeOp36 word = _
  unfold decodeOp36
  simp only [fld_eq]
  rw [if_neg (by simp only [BitVec.toNat_ofNat]; omega), if_pos (by simp only [BitVec.toNat_ofNat]; omega)]
  rw [(fld_eq word 20 6 d).2 (by omega), (fld_eq word 12 8 a).2 (by omega)]

theorem dhalt (d : BitVec 6) (a : BitVec 8) : Statement (.dhalt d a) := by
  intro word hw
  have h : word.toNat = (((54 * 64 + d.toNat) * 256 + a.toNat) * 4096 + 2) := by
    cases hw; rw [mkWord_toNat _ (by decide)]; simp only [append_toNat]; rfl
  have := d.isLt; have := a.isLt
  have e : (fld word 26 6).toNat = 54 := by rw [fld_toNat]; omega
  unfold decodeWord; rw [e]
  show decodeOp36 word = _
  unfold decodeOp36
  simp only [fld_eq]
  rw [if_neg (by simp only [BitVec.toNat_ofNat]; omega), if_neg (by simp only [BitVec.toNat_ofNat]; omega), if_pos (by simp only [BitVec.toNat_ofNat]; omega)]
  rw [(fld_eq word 20 6 d).2 (by omega), (fld_eq word 12 8 a).2 (by omega)]

theorem dstep (d : BitVec 6) (a : BitVec 8) (b : BitVec 8) : Statement (.dstep d a b) := by
  intro word hw
  have h : word.toNat = ((((54 * 64 + d.toNat) * 256 + a.toNat) * 256 + b.toNat) * 16 + 3) := by
    cases hw; rw [mkWord_toNat _ (by decide)]; simp only [append_toNat]; rfl
  have := d.isLt; have := a.isLt; have := b.isLt
  have e : (fld word 26 6).toNat = 54 := by rw [fld_toNat]; omega
  unfold decodeWord; rw [e]
  show decodeOp36 word = _
  unfold decodeOp36
  simp only [fld_eq]
  rw [if_neg (by simp only [BitVec.toNat_ofNat]; omega), if_neg (by simp only [BitVec.toNat_ofNat]; omega), if_neg (by simp only [BitVec.toNat_ofNat]; omega), if_pos (by simp only [BitVec.toNat_ofNat]; omega)]
  rw [(fld_eq word 20 6 d).2 (by omega), (fld_eq word 12 8 a).2 (by omega), (fld_eq word 4 8 b).2 (by omega)]

theorem dresume (d : BitVec 6) (a : BitVec 8) (b : BitVec 8) : Statement (.dresume d a b) := by
  intro word hw
  have h : word.toNat = ((((54 * 64 + d.toNat) * 256 + a.toNat) * 256 + b.toNat) * 16 + 4) := by
    cases hw; rw [mkWord_toNat _ (by decide)]; simp only [append_toNat]; rfl
  have := d.isLt; have := a.isLt; have := b.isLt
  have e : (fld word 26 6).toNat = 54 := by rw [fld_toNat]; omega
  unfold decodeWord; rw [e]
  show decodeOp36 word = _
  unfold decodeOp36
  simp only [fld_eq]
  rw [if_neg (by simp only [BitVec.toNat_ofNat]; omega), if_neg (by simp only [BitVec.toNat_ofNat]; omega), if_neg (by simp only [BitVec.toNat_ofNat]; omega), if_neg (by simp only [BitVec.toNat_ofNat]; omega), if_pos (by simp only [BitVec.toNat_ofNat]; omega)]
  rw [(fld_eq word 20 6 d).2 (by omega), (fld_eq word 12 8 a).2 (by omega), (fld_eq word 4 8 b).2 (by omega)]

theorem dwset (d : BitVec 6) (a : BitVec 8) (b : BitVec 8) : Statement (.dwset d a b) := by
  intro word hw
  have h : word.toNat = ((((54 * 64 + d.toNat) * 256 + a.toNat) * 256 + b.toNat) * 16 + 5) := by
    cases hw; rw [mkWord_toNat _ (by decide)]; simp only [append_toNat]; rfl
  have := d.isLt; have := a.isLt; have := b.isLt
  have e : (fld word 26 6).toNat = 54 := by rw [fld_toNat]; omega
  unfold decodeWord; rw [e]
  show decodeOp36 word = _
  unfold decodeOp36
  simp only [fld_eq]
  rw [if_neg (by simp only [BitVec.toNat_ofNat]; omega), if_neg (by simp only [BitVec.toNat_ofNat]; omega), if_neg (by simp only [BitVec.toNat_ofNat]; omega), if_neg (by simp only [BitVec.toNat_ofNat]; omega), if_neg (by simp only [BitVec.toNat_ofNat]; omega), if_pos (by simp only [BitVec.toNat_ofNat]; omega)]
  rw [(fld_eq word 20 6 d).2 (by omega), (fld_eq word 12 8 a).2 (by omega), (fld_eq word 4 8 b).2 (by omega)]

theorem dstat (d : BitVec 6) (a : BitVec 8) : Statement (.dstat d a) := by
  intro word hw
  have h : word.toNat = (((54 * 64 + d.toNat) * 256 + a.toNat) * 4096 + 6) := by
    cases hw; rw [mkWord_toNat _ (by decide)]; simp only [append_toNat]; rfl
  have := d.isLt; have := a.isLt
  have e : (fld word 26 6).toNat = 54 := by rw [fld_toNat]; omega
  unfold decodeWord; rw [e]
  show decodeOp36 word = _
  unfold decodeOp36
  simp only [fld_eq]
  rw [if_neg (by simp only [BitVec.toNat_ofNat]; omega), if_neg (by simp only [BitVec.toNat_ofNat]; omega), if_neg (by simp only [BitVec.toNat_ofNat]; omega), if_neg (by simp only [BitVec.toNat_ofNat]; omega), if_neg (by simp only [BitVec.toNat_ofNat]; omega), if_neg (by simp only [BitVec.toNat_ofNat]; omega), if_pos (by simp only [BitVec.toNat_ofNat]; omega)]
  rw [(fld_eq word 20 6 d).2 (by omega), (fld_eq word 12 8 a).2 (by omega)]

theorem trace (d : BitVec 6) (a : BitVec 8) (b : BitVec 8) : Statement (.trace d a b) := by
  intro word hw
  have h : word.toNat = ((((54 * 64 + d.toNat) * 256 + a.toNat) * 256 + b.toNat) * 16 + 7) := by
    cases hw; rw [mkWord_toNat _ (by decide)]; simp only [append_toNat]; rfl
  have := d.isLt; have := a.isLt; have := b.isLt
  have e : (fld word 26 6).toNat = 54 := by rw [fld_toNat]; omega
  unfold decodeWord; rw [e]
  show decodeOp36 word = _
  unfold decodeOp36
  simp only [fld_eq]
  rw [if_neg (by simp only [BitVec.toNat_ofNat]; omega), if_neg (by simp only [BitVec.toNat_ofNat]; omega), if_neg (by simp only [BitVec.toNat_ofNat]; omega), if_neg (by simp only [BitVec.toNat_ofNat]; omega), if_neg (by simp only [BitVec.toNat_ofNat]; omega), if_neg (by simp only [BitVec.toNat_ofNat]; omega), if_neg (by simp only [BitVec.toNat_ofNat]; omega), if_pos (by simp only [BitVec.toNat_ofNat]; omega)]
  rw [(fld_eq word 20 6 d).2 (by omega), (fld_eq word 12 8 a).2 (by omega), (fld_eq word 4 8 b).2 (by omega)]

theorem dpcrd (d : BitVec 6) (a : BitVec 8) (b : BitVec 8) : Statement (.dpcrd d a b) := by
  intro word hw
  have h : word.toNat = ((((54 * 64 + d.toNat) * 256 + a.toNat) * 256 + b.toNat) * 16 + 8) := by
    cases hw; rw [mkWord_toNat _ (by decide)]; simp only [append_toNat]; rfl
  have := d.isLt; have := a.isLt; have := b.isLt
  have e : (fld word 26 6).toNat = 54 := by rw [fld_toNat]; omega
  unfold decodeWord; rw [e]
  show decodeOp36 word = _
  unfold decodeOp36
  simp only [fld_eq]
  rw [if_neg (by simp only [BitVec.toNat_ofNat]; omega), if_neg (by simp only [BitVec.toNat_ofNat]; omega), if_neg (by simp only [BitVec.toNat_ofNat]; omega), if_neg (by simp only [BitVec.toNat_ofNat]; omega), if_neg (by simp only [BitVec.toNat_ofNat]; omega), if_neg (by simp only [BitVec.toNat_ofNat]; omega), if_neg (by simp only [BitVec.toNat_ofNat]; omega), if_neg (by simp only [BitVec.toNat_ofNat]; omega), if_pos (by simp only [BitVec.toNat_ofNat]; omega)]
  rw [(fld_eq word 20 6 d).2 (by omega), (fld_eq word 12 8 a).2 (by omega), (fld_eq word 4 8 b).2 (by omega)]

theorem lnchPool (a : BitVec 4) (s : BitVec 8) : Statement (.lnchPool a s) := by
  intro word hw
  have h : word.toNat = (((55 * 16 + a.toNat) * 256 + s.toNat) * 16384 + 0) := by
    cases hw; rw [mkWord_toNat _ (by decide)]; simp only [append_toNat]; rfl
  have := a.isLt; have := s.isLt
  have e : (fld word 26 6).toNat = 55 := by rw [fld_toNat]; omega
  unfold decodeWord; rw [e]
  show decodeOp37 word = _
  unfold decodeOp37
  rw [(fld_eq word 0 14 0#14).2 (by simp only [BitVec.toNat_ofNat]; omega), (fld_eq word 22 4 a).2 (by omega), (fld_eq word 14 8 s).2 (by omega)]
  rfl

theorem lnchGo (a : BitVec 4) (s : BitVec 8) : Statement (.lnchGo a s) := by
  intro word hw
  have h : word.toNat = (((55 * 16 + a.toNat) * 256 + s.toNat) * 16384 + 1) := by
    cases hw; rw [mkWord_toNat _ (by decide)]; simp only [append_toNat]; rfl
  have := a.isLt; have := s.isLt
  have e : (fld word 26 6).toNat = 55 := by rw [fld_toNat]; omega
  unfold decodeWord; rw [e]
  show decodeOp37 word = _
  unfold decodeOp37
  rw [(fld_eq word 0 14 1#14).2 (by simp only [BitVec.toNat_ofNat]; omega), (fld_eq word 22 4 a).2 (by omega), (fld_eq word 14 8 s).2 (by omega)]
  rfl

theorem cfgr (d : BitVec 6) (a : BitVec 8) : Statement (.cfgr d a) := by
  intro word hw
  have h : word.toNat = (((56 * 64 + d.toNat) * 256 + a.toNat) * 4096 + 0) := by
    cases hw; rw [mkWord_toNat _ (by decide)]; simp only [append_toNat]; rfl
  have := d.isLt; have := a.isLt
  have e : (fld word 26 6).toNat = 56 := by rw [fld_toNat]; omega
  unfold decodeWord; rw [e]
  show decodeOp38 word = _
  unfold decodeOp38
  rw [(fld_eq word 0 12 0#12).2 (by simp only [BitVec.toNat_ofNat]; omega), (fld_eq word 20 6 d).2 (by omega), (fld_eq word 12 8 a).2 (by omega)]
  rfl

theorem cfgw (d : BitVec 6) (a : BitVec 8) (b : BitVec 8) : Statement (.cfgw d a b) := by
  intro word hw
  have h : word.toNat = ((((56 * 64 + d.toNat) * 256 + a.toNat) * 256 + b.toNat) * 16 + 1) := by
    cases hw; rw [mkWord_toNat _ (by decide)]; simp only [append_toNat]; rfl
  have := d.isLt; have := a.isLt; have := b.isLt
  have e : (fld word 26 6).toNat = 56 := by rw [fld_toNat]; omega
  unfold decodeWord; rw [e]
  show decodeOp38 word = _
  unfold decodeOp38
  simp only [fld_eq]
  rw [if_neg (by simp only [BitVec.toNat_ofNat]; omega), if_pos (by simp only [BitVec.toNat_ofNat]; omega)]
  rw [(fld_eq word 20 6 d).2 (by omega), (fld_eq word 12 8 a).2 (by omega), (fld_eq word 4 8 b).2 (by omega)]

theorem hintImms (i : BitVec 22) : Statement (.hintImms i) := by
  intro word hw
  have h : word.toNat = ((63 * 16 + 0) * 4194304 + i.toNat) := by
    cases hw; rw [mkWord_toNat _ (by decide)]; simp only [append_toNat]; rfl
  have := i.isLt
  have e : (fld word 26 6).toNat = 63 := by rw [fld_toNat]; omega
  unfold decodeWord; rw [e]
  show decodeOp3F word = _
  unfold decodeOp3F
  rw [(fld_eq word 22 4 0#4).2 (by simp only [BitVec.toNat_ofNat]; omega), (fld_eq word 0 22 i).2 (by omega)]
  rfl

theorem hintImmh (i : BitVec 16) : Statement (.hintImmh i) := by
  intro word hw
  have h : word.toNat = ((63 * 1024 + 64) * 65536 + i.toNat) := by
    cases hw; rw [mkWord_toNat _ (by decide)]; simp only [append_toNat]; rfl
  have := i.isLt
  have e : (fld word 26 6).toNat = 63 := by rw [fld_toNat]; omega
  unfold decodeWord; rw [e]
  show decodeOp3F word = _
  unfold decodeOp3F
  simp only [fld_eq]
  rw [if_neg (by simp only [BitVec.toNat_ofNat]; omega), if_pos (by simp only [BitVec.toNat_ofNat]; omega)]
  rw [(fld_eq word 0 16 i).2 (by omega)]

theorem hintImml (i : BitVec 16) : Statement (.hintImml i) := by
  intro word hw
  have h : word.toNat = ((63 * 1024 + 128) * 65536 + i.toNat) := by
    cases hw; rw [mkWord_toNat _ (by decide)]; simp only [append_toNat]; rfl
  have := i.isLt
  have e : (fld word 26 6).toNat = 63 := by rw [fld_toNat]; omega
  unfold decodeWord; rw [e]
  show decodeOp3F word = _
  unfold decodeOp3F
  simp only [fld_eq]
  rw [if_neg (by simp only [BitVec.toNat_ofNat]; omega), if_neg (by simp only [BitVec.toNat_ofNat]; omega), if_pos (by simp only [BitVec.toNat_ofNat]; omega)]
  rw [(fld_eq word 0 16 i).2 (by omega)]

theorem hintPred (n : BitVec 1) (p : BitVec 3) : Statement (.hintPred n p) := by
  intro word hw
  have h : word.toNat = (((63 * 4194304 + 786432) * 2 + n.toNat) * 8 + p.toNat) := by
    cases hw; rw [mkWord_toNat _ (by decide)]; simp only [append_toNat]; rfl
  have := n.isLt; have := p.isLt
  have e : (fld word 26 6).toNat = 63 := by rw [fld_toNat]; omega
  unfold decodeWord; rw [e]
  show decodeOp3F word = _
  unfold decodeOp3F
  simp only [fld_eq]
  rw [if_neg (by simp only [BitVec.toNat_ofNat]; omega), if_neg (by simp only [BitVec.toNat_ofNat]; omega), if_neg (by simp only [BitVec.toNat_ofNat]; omega), if_pos (by simp only [BitVec.toNat_ofNat]; omega)]
  rw [(fld_eq word 3 1 n).2 (by omega), (fld_eq word 0 3 p).2 (by omega)]

theorem hintMem (n : BitVec 1) (k : BitVec 2) (r : BitVec 1) (q : BitVec 1) (c : BitVec 3) : Statement (.hintMem n k r q c) := by
  intro word hw
  have h : word.toNat = ((((((63 * 262144 + 65536) * 2 + n.toNat) * 4 + k.toNat) * 2 + r.toNat) * 2 + q.toNat) * 8 + c.toNat) := by
    cases hw; rw [mkWord_toNat _ (by decide)]; simp only [append_toNat]; rfl
  have := n.isLt; have := k.isLt; have := r.isLt; have := q.isLt; have := c.isLt
  have e : (fld word 26 6).toNat = 63 := by rw [fld_toNat]; omega
  unfold decodeWord; rw [e]
  show decodeOp3F word = _
  unfold decodeOp3F
  simp only [fld_eq]
  rw [if_neg (by simp only [BitVec.toNat_ofNat]; omega), if_neg (by simp only [BitVec.toNat_ofNat]; omega), if_neg (by simp only [BitVec.toNat_ofNat]; omega), if_neg (by simp only [BitVec.toNat_ofNat]; omega), if_pos (by simp only [BitVec.toNat_ofNat]; omega)]
  rw [(fld_eq word 7 1 n).2 (by omega), (fld_eq word 5 2 k).2 (by omega), (fld_eq word 4 1 r).2 (by omega), (fld_eq word 3 1 q).2 (by omega), (fld_eq word 0 3 c).2 (by omega)]

theorem hintRnd (s : BitVec 1) (f : BitVec 1) (r : BitVec 2) : Statement (.hintRnd s f r) := by
  intro word hw
  have h : word.toNat = ((((63 * 4194304 + 1310720) * 2 + s.toNat) * 2 + f.toNat) * 4 + r.toNat) := by
    cases hw; rw [mkWord_toNat _ (by decide)]; simp only [append_toNat]; rfl
  have := s.isLt; have := f.isLt; have := r.isLt
  have e : (fld word 26 6).toNat = 63 := by rw [fld_toNat]; omega
  unfold decodeWord; rw [e]
  show decodeOp3F word = _
  unfold decodeOp3F
  simp only [fld_eq]
  rw [if_neg (by simp only [BitVec.toNat_ofNat]; omega), if_neg (by simp only [BitVec.toNat_ofNat]; omega), if_neg (by simp only [BitVec.toNat_ofNat]; omega), if_neg (by simp only [BitVec.toNat_ofNat]; omega), if_neg (by simp only [BitVec.toNat_ofNat]; omega), if_pos (by simp only [BitVec.toNat_ofNat]; omega)]
  rw [(fld_eq word 3 1 s).2 (by omega), (fld_eq word 2 1 f).2 (by omega), (fld_eq word 0 2 r).2 (by omega)]

theorem hintDisp (d : BitVec 22) : Statement (.hintDisp d) := by
  intro word hw
  have h : word.toNat = ((63 * 16 + 6) * 4194304 + d.toNat) := by
    cases hw; rw [mkWord_toNat _ (by decide)]; simp only [append_toNat]; rfl
  have := d.isLt
  have e : (fld word 26 6).toNat = 63 := by rw [fld_toNat]; omega
  unfold decodeWord; rw [e]
  show decodeOp3F word = _
  unfold decodeOp3F
  simp only [fld_eq]
  rw [if_neg (by simp only [BitVec.toNat_ofNat]; omega), if_neg (by simp only [BitVec.toNat_ofNat]; omega), if_neg (by simp only [BitVec.toNat_ofNat]; omega), if_neg (by simp only [BitVec.toNat_ofNat]; omega), if_neg (by simp only [BitVec.toNat_ofNat]; omega), if_neg (by simp only [BitVec.toNat_ofNat]; omega), if_pos (by simp only [BitVec.toNat_ofNat]; omega)]
  rw [(fld_eq word 0 22 d).2 (by omega)]

theorem hintDead (b : BitVec 6) (m : BitVec 16) : Statement (.hintDead b m) := by
  intro word hw
  have h : word.toNat = (((63 * 16 + 7) * 64 + b.toNat) * 65536 + m.toNat) := by
    cases hw; rw [mkWord_toNat _ (by decide)]; simp only [append_toNat]; rfl
  have := b.isLt; have := m.isLt
  have e : (fld word 26 6).toNat = 63 := by rw [fld_toNat]; omega
  unfold decodeWord; rw [e]
  show decodeOp3F word = _
  unfold decodeOp3F
  simp only [fld_eq]
  rw [if_neg (by simp only [BitVec.toNat_ofNat]; omega), if_neg (by simp only [BitVec.toNat_ofNat]; omega), if_neg (by simp only [BitVec.toNat_ofNat]; omega), if_neg (by simp only [BitVec.toNat_ofNat]; omega), if_neg (by simp only [BitVec.toNat_ofNat]; omega), if_neg (by simp only [BitVec.toNat_ofNat]; omega), if_neg (by simp only [BitVec.toNat_ofNat]; omega), if_pos (by simp only [BitVec.toNat_ofNat]; omega)]
  rw [(fld_eq word 16 6 b).2 (by omega), (fld_eq word 0 16 m).2 (by omega)]

theorem hintSchedFill (n : BitVec 12) : Statement (.hintSchedFill n) := by
  intro word hw
  have h : word.toNat = ((63 * 16384 + 8192) * 4096 + n.toNat) := by
    cases hw; rw [mkWord_toNat _ (by decide)]; simp only [append_toNat]; rfl
  have := n.isLt
  have e : (fld word 26 6).toNat = 63 := by rw [fld_toNat]; omega
  unfold decodeWord; rw [e]
  show decodeOp3F word = _
  unfold decodeOp3F
  simp only [fld_eq]
  rw [if_neg (by simp only [BitVec.toNat_ofNat]; omega), if_neg (by simp only [BitVec.toNat_ofNat]; omega), if_neg (by simp only [BitVec.toNat_ofNat]; omega), if_neg (by simp only [BitVec.toNat_ofNat]; omega), if_neg (by simp only [BitVec.toNat_ofNat]; omega), if_neg (by simp only [BitVec.toNat_ofNat]; omega), if_neg (by simp only [BitVec.toNat_ofNat]; omega), if_neg (by simp only [BitVec.toNat_ofNat]; omega), if_pos (by simp only [BitVec.toNat_ofNat]; omega)]
  rw [(fld_eq word 0 12 n).2 (by omega)]

theorem hintSchedAge (n : BitVec 16) : Statement (.hintSchedAge n) := by
  intro word hw
  have h : word.toNat = ((63 * 1024 + 528) * 65536 + n.toNat) := by
    cases hw; rw [mkWord_toNat _ (by decide)]; simp only [append_toNat]; rfl
  have := n.isLt
  have e : (fld word 26 6).toNat = 63 := by rw [fld_toNat]; omega
  unfold decodeWord; rw [e]
  show decodeOp3F word = _
  unfold decodeOp3F
  simp only [fld_eq]
  rw [if_neg (by simp only [BitVec.toNat_ofNat]; omega), if_neg (by simp only [BitVec.toNat_ofNat]; omega), if_neg (by simp only [BitVec.toNat_ofNat]; omega), if_neg (by simp only [BitVec.toNat_ofNat]; omega), if_neg (by simp only [BitVec.toNat_ofNat]; omega), if_neg (by simp only [BitVec.toNat_ofNat]; omega), if_neg (by simp only [BitVec.toNat_ofNat]; omega), if_neg (by simp only [BitVec.toNat_ofNat]; omega), if_neg (by simp only [BitVec.toNat_ofNat]; omega), if_pos (by simp only [BitVec.toNat_ofNat]; omega)]
  rw [(fld_eq word 0 16 n).2 (by omega)]


end Encoding

theorem Encoding.runSelect (core port : Nat) : Encoding.Statement (.runSelect core port) := by intro word h; cases h
theorem Encoding.sleepExpiry (wg tid : Nat) : Encoding.Statement (.sleepExpiry wg tid) := by intro word h; cases h
theorem Encoding.loadComplete (id : Nat) : Encoding.Statement (.loadComplete id) := by intro word h; cases h
theorem Encoding.storeComplete (id : Nat) : Encoding.Statement (.storeComplete id) := by intro word h; cases h
theorem Encoding.atomicPerform (id : Nat) : Encoding.Statement (.atomicPerform id) := by intro word h; cases h
theorem Encoding.monitorWake (wg tid : Nat) : Encoding.Statement (.monitorWake wg tid) := by intro word h; cases h
theorem Encoding.monitorPoll (wg tid : Nat) : Encoding.Statement (.monitorPoll wg tid) := by intro word h; cases h
theorem Encoding.barrierArrival (wg tid : Nat) : Encoding.Statement (.barrierArrival wg tid) := by intro word h; cases h
theorem Encoding.twinSignatureExchange (wg : Nat) : Encoding.Statement (.twinSignatureExchange wg) := by intro word h; cases h
theorem Encoding.guardRollback (wg : Nat) : Encoding.Statement (.guardRollback wg) := by intro word h; cases h
theorem Encoding.copyComplete (id : Nat) : Encoding.Statement (.copyComplete id) := by intro word h; cases h
theorem Encoding.followOnEnqueue (id : Nat) : Encoding.Statement (.followOnEnqueue id) := by intro word h; cases h
theorem Encoding.copySuspend (id : Nat) : Encoding.Statement (.copySuspend id) := by intro word h; cases h
theorem Encoding.bankInboundWrite (id : Nat) : Encoding.Statement (.bankInboundWrite id) := by intro word h; cases h
theorem Encoding.segmentGrant (quad : Nat) : Encoding.Statement (.segmentGrant quad) := by intro word h; cases h
theorem Encoding.segmentEnd (quad : Nat) : Encoding.Statement (.segmentEnd quad) := by intro word h; cases h
theorem Encoding.matrixOpComplete (id : Nat) : Encoding.Statement (.matrixOpComplete id) := by intro word h; cases h
theorem Encoding.workgroupRetire (wg : Nat) : Encoding.Statement (.workgroupRetire wg) := by intro word h; cases h
theorem Encoding.faultRecordWrite (tenant : BitVec 24) : Encoding.Statement (.faultRecordWrite tenant) := by intro word h; cases h
theorem Encoding.debugRecordWrite (part : Nat) : Encoding.Statement (.debugRecordWrite part) := by intro word h; cases h
theorem Encoding.workgroupSettled (wg : Nat) : Encoding.Statement (.workgroupSettled wg) := by intro word h; cases h
theorem Encoding.queueMap (q : Nat) : Encoding.Statement (.queueMap q) := by intro word h; cases h
theorem Encoding.queueUnmap (q : Nat) : Encoding.Statement (.queueUnmap q) := by intro word h; cases h
theorem Encoding.commandTake (q : Nat) : Encoding.Statement (.commandTake q) := by intro word h; cases h
theorem Encoding.launch (q : Nat) : Encoding.Statement (.launch q) := by intro word h; cases h
theorem Encoding.launchPool (q : Nat) : Encoding.Statement (.launchPool q) := by intro word h; cases h
theorem Encoding.copyq (q : Nat) : Encoding.Statement (.copyq q) := by intro word h; cases h
theorem Encoding.signalq (q : Nat) : Encoding.Statement (.signalq q) := by intro word h; cases h
theorem Encoding.waitq (q : Nat) : Encoding.Statement (.waitq q) := by intro word h; cases h
theorem Encoding.waitqComplete (q : Nat) : Encoding.Statement (.waitqComplete q) := by intro word h; cases h
theorem Encoding.launchComplete (l : Nat) : Encoding.Statement (.launchComplete l) := by intro word h; cases h
theorem Encoding.bucketTick (part : Nat) : Encoding.Statement (.bucketTick part) := by intro word h; cases h
theorem Encoding.gangPlace (die : Nat) : Encoding.Statement (.gangPlace die) := by intro word h; cases h
theorem Encoding.workSteal (die : Nat) : Encoding.Statement (.workSteal die) := by intro word h; cases h
theorem Encoding.placementReservation (die : Nat) : Encoding.Statement (.placementReservation die) := by intro word h; cases h
theorem Encoding.calendarWrap (die cls : Nat) : Encoding.Statement (.calendarWrap die cls) := by intro word h; cases h
theorem Encoding.runPortRound (core : Nat) : Encoding.Statement (.runPortRound core) := by intro word h; cases h
theorem Encoding.preempt (g : Nat) : Encoding.Statement (.preempt g) := by intro word h; cases h
theorem Encoding.preemptSave (g : Nat) : Encoding.Statement (.preemptSave g) := by intro word h; cases h
theorem Encoding.timeSliceBoundary (quad entry : Nat) : Encoding.Statement (.timeSliceBoundary quad entry) := by intro word h; cases h
theorem Encoding.watchdogExpiry (l : Nat) : Encoding.Statement (.watchdogExpiry l) := by intro word h; cases h
theorem Encoding.grant (u : Res) (part : Nat) : Encoding.Statement (.grant u part) := by intro word h; cases h
theorem Encoding.revoke (u : Res) : Encoding.Statement (.revoke u) := by intro word h; cases h
theorem Encoding.create (req : CreateReq) : Encoding.Statement (.create req) := by intro word h; cases h
theorem Encoding.bind (b : BindReq) (q : BindFor) : Encoding.Statement (.bind b q) := by intro word h; cases h
theorem Encoding.recallUnits (r : RecallReq) : Encoding.Statement (.recallUnits r) := by intro word h; cases h
theorem Encoding.recallPost (tenant : BitVec 24) : Encoding.Statement (.recallPost tenant) := by intro word h; cases h
theorem Encoding.seize (tenant : BitVec 24) (u : Res) : Encoding.Statement (.seize tenant u) := by intro word h; cases h
theorem Encoding.destroy (r : DestroyReq) : Encoding.Statement (.destroy r) := by intro word h; cases h
theorem Encoding.exportEntry (e : ExportReq) : Encoding.Statement (.exportEntry e) := by intro word h; cases h
theorem Encoding.unexportEntry (e : ExportReq) : Encoding.Statement (.unexportEntry e) := by intro word h; cases h
theorem Encoding.recallDeadline (tenant : BitVec 24) (seq : Nat) : Encoding.Statement (.recallDeadline tenant seq) := by intro word h; cases h
theorem Encoding.runtimeWavePlace (tenant : BitVec 24) : Encoding.Statement (.runtimeWavePlace tenant) := by intro word h; cases h
theorem Encoding.remoteRequest (r : RemoteReq) : Encoding.Statement (.remoteRequest r) := by intro word h; cases h
theorem Encoding.remoteRefusal (id : Nat) (absent : Bool) : Encoding.Statement (.remoteRefusal id absent) := by intro word h; cases h
theorem Encoding.lateAnswer (die : Nat) : Encoding.Statement (.lateAnswer die) := by intro word h; cases h
theorem Encoding.worldLatchChange (quad world : Nat) : Encoding.Statement (.worldLatchChange quad world) := by intro word h; cases h
theorem Encoding.worldActivate (world : Nat) : Encoding.Statement (.worldActivate world) := by intro word h; cases h
theorem Encoding.worldRevoke (world : Nat) : Encoding.Statement (.worldRevoke world) := by intro word h; cases h
theorem Encoding.handoverPrepare (ctx : Ctx) : Encoding.Statement (.handoverPrepare ctx) := by intro word h; cases h
theorem Encoding.handoverCommit (ctx : Ctx) : Encoding.Statement (.handoverCommit ctx) := by intro word h; cases h
theorem Encoding.imageAccept (img : SealedImage) : Encoding.Statement (.imageAccept img) := by intro word h; cases h
theorem Encoding.quoteRequest (nonce : List (BitVec 8)) : Encoding.Statement (.quoteRequest nonce) := by intro word h; cases h
theorem Encoding.lockctlWrite (x : BitVec 32) : Encoding.Statement (.lockctlWrite x) := by intro word h; cases h
theorem Encoding.calWrite (die cls idx : Nat) (x : BitVec 32) : Encoding.Statement (.calWrite die cls idx x) := by intro word h; cases h
theorem Encoding.mcdropClear (bank : Nat) : Encoding.Statement (.mcdropClear bank) := by intro word h; cases h
theorem Encoding.freeze : Encoding.Statement (.freeze) := by intro word h; cases h
theorem Encoding.thaw : Encoding.Statement (.thaw) := by intro word h; cases h
theorem Encoding.pcSample (tenant : BitVec 24) (ctr : Nat) : Encoding.Statement (.pcSample tenant ctr) := by intro word h; cases h
theorem Encoding.deadlockScan : Encoding.Statement (.deadlockScan) := by intro word h; cases h
theorem Encoding.clockControlTick (watts t0 t1 ti th : Nat) : Encoding.Statement (.clockControlTick watts t0 t1 ti th) := by intro word h; cases h
theorem Encoding.overtempReset (die : Nat) : Encoding.Statement (.overtempReset die) := by intro word h; cases h
theorem Encoding.islandSupplyGood (slot0 slot1 : Bool) : Encoding.Statement (.islandSupplyGood slot0 slot1) := by intro word h; cases h
theorem Encoding.islandSupplyLoss : Encoding.Statement (.islandSupplyLoss) := by intro word h; cases h
theorem Encoding.islandReset (slot0 slot1 : Bool) : Encoding.Statement (.islandReset slot0 slot1) := by intro word h; cases h
theorem Encoding.dieJoin (die : Nat) : Encoding.Statement (.dieJoin die) := by intro word h; cases h
theorem Encoding.heartbeatTimeout (die : Nat) : Encoding.Statement (.heartbeatTimeout die) := by intro word h; cases h
theorem Encoding.dieWarmReset (die : Nat) : Encoding.Statement (.dieWarmReset die) := by intro word h; cases h
theorem Encoding.detachComplete (die : Nat) : Encoding.Statement (.detachComplete die) := by intro word h; cases h
theorem Encoding.linkPacket (p : Packet) : Encoding.Statement (.linkPacket p) := by intro word h; cases h
theorem Encoding.flowStop (link vc : Nat) : Encoding.Statement (.flowStop link vc) := by intro word h; cases h
theorem Encoding.flowGo (link vc : Nat) : Encoding.Statement (.flowGo link vc) := by intro word h; cases h
theorem Encoding.routeLossTimeout (dev : Nat) : Encoding.Statement (.routeLossTimeout dev) := by intro word h; cases h
theorem Encoding.podidRegister (podid : BitVec 32) (dev poddevs : Nat) : Encoding.Statement (.podidRegister podid dev poddevs) := by intro word h; cases h
theorem Encoding.podJoinTimeout (podid : BitVec 32) : Encoding.Statement (.podJoinTimeout podid) := by intro word h; cases h
theorem Encoding.collContribution (id : Nat) : Encoding.Statement (.collContribution id) := by intro word h; cases h
theorem Encoding.collectiveComplete (id : Nat) : Encoding.Statement (.collectiveComplete id) := by intro word h; cases h
theorem Encoding.sessionClose (sess : Nat) : Encoding.Statement (.sessionClose sess) := by intro word h; cases h
theorem Encoding.coldReset : Encoding.Statement (.coldReset) := by intro word h; cases h
theorem Encoding.unclaimedEncoding (word : BitVec 32) : Encoding.Statement (.unclaimedEncoding word) := by intro word h; cases h
theorem Encoding.linkDown (link : Nat) : Encoding.Statement (.linkDown link) := by intro word h; cases h
theorem Encoding.softError (e : HopError) : Encoding.Statement (.softError e) := by intro word h; cases h
theorem Encoding.queueCreate (req : QueueReq) : Encoding.Statement (.queueCreate req) := by intro word h; cases h
theorem Encoding.qcbShadowWrite (req : QueueReq) : Encoding.Statement (.qcbShadowWrite req) := by intro word h; cases h
theorem Encoding.apertureWindowBind (win sess size : Nat) (tenant : BitVec 24) : Encoding.Statement (.apertureWindowBind win sess size tenant) := by intro word h; cases h
theorem Encoding.apertureWindowUnbind (win : Nat) : Encoding.Statement (.apertureWindowUnbind win) := by intro word h; cases h
theorem Encoding.sessionOpen (sess part : Nat) (management : Bool) : Encoding.Statement (.sessionOpen sess part management) := by intro word h; cases h
theorem Encoding.coreCycle (die : Nat) : Encoding.Statement (.coreCycle die) := by intro word h; cases h

end Sys2Proof.Laws
end

