-- ==== Sys2Proof/Laws/Raise.lean ====
section
/-! SUPPORT. Taking a fault of class user (R88, R339): what `State.raise` does when every thread enters its handler. -/

namespace Sys2Proof.Laws

open Sys2Proof.Machine

/-- A state that changed threads of one workgroup, and of the rest only what `Slid` allows; its runs are another matter. -/
structure Aside (s u : State) (uid : Nat) : Prop where
  elsewhere : u.elsewhere = s.elsewhere
  tenants : u.tenants.map Tenant.quiet = s.tenants.map Tenant.quiet
  others : ∀ v, v ≠ uid → u.wg? v = s.wg? v
  own : ∀ w, s.wg? uid = some w → ∃ w', u.wg? uid = some w' ∧ w'.control = w.control ∧
    ∀ n, w.thread? n = none → w'.thread? n = none

theorem Aside.refl (s : State) (uid : Nat) : Aside s s uid := ⟨rfl, rfl, fun _ _ => rfl, fun w h => ⟨w, h, rfl, fun _ h => h⟩⟩

theorem Aside.trans {a b c : State} {uid : Nat} (h : Aside a b uid) (k : Aside b c uid) : Aside a c uid := by
  refine ⟨k.elsewhere.trans h.elsewhere, k.tenants.trans h.tenants, fun v hv => (k.others v hv).trans (h.others v hv), fun w hw => ?_⟩
  obtain ⟨w1, h1, c1, g1⟩ := h.own w hw
  obtain ⟨w2, h2, c2, g2⟩ := k.own w1 h1
  exact ⟨w2, h2, c2.trans c1, fun n hn => g2 n (g1 n hn)⟩

theorem Slid.aside {s u : State} {core port uid : Nat} (h : Slid s u core port uid) : Aside s u uid :=
  ⟨h.elsewhere, h.tenants, h.others, fun w hw => by
    obtain ⟨w', h1, h2⟩ := h.own w hw
    exact ⟨w', h1, h2.control, h2.gone⟩⟩

theorem gone_map (w : Wg) (f : Thread → Thread) (h : ∀ t, (f t).tid = t.tid) {n : Nat} (hn : w.thread? n = none) :
    ({ w with threads := w.threads.map f } : Wg).thread? n = none := by rw [thread_map w f h, hn]; rfl

theorem aside_threads (s : State) (uid : Nat) (f : Wg → Thread → Thread) (h : ∀ w t, (f w t).tid = t.tid) :
    Aside s (s.onWg uid fun w => { w with threads := w.threads.map (f w) }) uid :=
  ⟨rfl, rfl, fun _ hv => wg_onWg_other (by intro; rfl) hv,
    fun w hw => ⟨_, wg_onWg_same (by intro; rfl) hw, rfl, fun _ hn => gone_map w (f w) (h w) hn⟩⟩

/-- One thread enters its handler; a scheduling hint it has saved goes with it (R76), but for a
floating-point trap (R153). -/
def enter (uid key : Nat) (s : State) (tid : Nat) : State :=
  (s.onThread uid tid fun t => { t with inTrap := true }).arrive uid tid key .ready
    (((s.wg? uid).bind fun w => w.thread? tid).bind fun t =>
      if t.fcause = BitVec.ofNat 32 cFp then none else t.saved.bind fun h => h.sched)

theorem aside_enter (uid key : Nat) (s : State) (tid : Nat) : Aside s (enter uid key s tid) uid :=
  (aside_threads s uid (fun _ t => if t.tid = tid then { t with inTrap := true } else t) (by intro _ _; split <;> rfl)).trans
    (slid_arrive _ 0 0 uid tid key .ready _).aside

theorem enter_runs (uid key : Nat) (s : State) (tid : Nat) : (enter uid key s tid).runs = s.runs := arrive_runs ..

theorem enter_thread (uid key : Nat) (s : State) (tid n : Nat) {t : Thread} (ht : s.thread? uid n = some t) :
    ∃ b, (enter uid key s tid).thread? uid n =
      some (if n = tid then { t with inTrap := true, place := .waiting key .ready, spilled := b } else t) := by
  have h1 : (s.onThread uid tid fun t => { t with inTrap := true }).thread? uid n =
      some (if n = tid then { t with inTrap := true } else t) := by
    refine (thread?_onThread s uid tid uid n _ (by intro; rfl)).trans ?_
    rw [ht, Option.map_some]
    by_cases h : n = tid <;> simp [h]
  obtain ⟨b, hb⟩ := arrive_thread _ uid tid key .ready
    (((s.wg? uid).bind fun w => w.thread? tid).bind fun t =>
      if t.fcause = BitVec.ofNat 32 cFp then none else t.saved.bind fun h => h.sched) uid n h1
  refine ⟨b, hb.trans ?_⟩
  by_cases h : n = tid <;> simp [h]

theorem enters_spec (uid key : Nat) (l : List Nat) (s : State) :
    Aside s (l.foldl (enter uid key) s) uid ∧ (l.foldl (enter uid key) s).runs = s.runs ∧
    ∀ n t, s.thread? uid n = some t → ∃ b, (l.foldl (enter uid key) s).thread? uid n =
      some (if n ∈ l then { t with inTrap := true, place := .waiting key .ready, spilled := b } else t) := by
  induction l generalizing s with
  | nil => exact ⟨Aside.refl _ _, rfl, fun n t ht => ⟨false, by simpa using ht⟩⟩
  | cons x xs ih =>
    obtain ⟨a, b, c⟩ := ih (enter uid key s x)
    refine ⟨(aside_enter uid key s x).trans a, b.trans (enter_runs ..), fun n t ht => ?_⟩
    obtain ⟨b1, h1⟩ := enter_thread uid key s x n ht
    obtain ⟨b2, h2⟩ := c n _ h1
    refine ⟨if n ∈ xs then b2 else b1, h2.trans ?_⟩
    by_cases hx : n = x <;> by_cases hm : n ∈ xs <;> simp [hx, hm]
    · subst hx; simp [hm]
    · subst hx; simp [hm]

theorem deliver_user {s : State} {uid tid : Nat} {w : Wg} (hw : s.wg? uid = some w) :
    s.deliver uid tid .user = enter uid w.tvecKey s tid := by
  unfold State.deliver enter
  rw [hw]
  rfl

theorem delivers_user (l : List (Nat × FaultClass × FaultInfo)) (hl : ∀ d ∈ l, d.2.1 = .user) (uid key : Nat) (s : State)
    (hw : ∃ w, s.wg? uid = some w ∧ w.tvecKey = key) :
    l.foldl (fun s d => s.deliver uid d.1 d.2.1) s = (l.map fun d => d.1).foldl (enter uid key) s := by
  induction l generalizing s with
  | nil => rfl
  | cons d ds ih =>
    obtain ⟨w, hw, hk⟩ := hw
    rw [List.map_cons, List.foldl_cons, List.foldl_cons, hl d (List.mem_cons_self ..), deliver_user hw, hk]
    obtain ⟨w', h1, h2, _⟩ := (aside_enter uid key s d.1).own w hw
    refine ih (fun e he => hl e (List.mem_cons_of_mem _ he)) _ ⟨w', h1, ?_⟩
    rw [← hk]
    show (fld w'.control.tvec 2 24).toNat = (fld w.control.tvec 2 24).toNat
    rw [h2]

/-- Counting the faults touches the tenants' counters alone. -/
theorem slid_counts {α : Type} (l : List α) (f : State → α → State) (hf : ∀ s x core port uid, Slid s (f s x) core port uid)
    (hr : ∀ s x, (f s x).runs = s.runs ∧ (f s x).wgs = s.wgs) (s : State) (uid : Nat) :
    Aside s (l.foldl f s) uid ∧ (l.foldl f s).runs = s.runs ∧ (l.foldl f s).wgs = s.wgs := by
  induction l generalizing s with
  | nil => exact ⟨Aside.refl _ _, rfl, rfl⟩
  | cons x xs ih =>
    obtain ⟨a, b, c⟩ := ih (f s x)
    exact ⟨(hf s x 0 0 uid).aside.trans a, b.trans (hr s x).1, c.trans (hr s x).2⟩

/-- The threads with the fault in their registers. -/
def taken (s : State) (uid pc : Nat) (fs : List (Nat × Word × FaultInfo)) : State :=
  s.onWg uid fun w => { w with threads := w.threads.map fun t =>
    match (fs.find? fun f => f.1 = t.tid) with
    | some (_, lanes, f) => t.takeFault pc lanes f
    | none => t }

/-- The same, with the threads out of their runs. -/
def left (s : State) (uid pc : Nat) (fs : List (Nat × Word × FaultInfo)) : State :=
  { taken s uid pc fs with runs := (taken s uid pc fs).runs.map fun r =>
      if r.wg = uid then r.without (fs.map fun f => f.1) else r }

theorem foldl_same {α β : Type} (f : β → α → β) (l : List α) (h : ∀ b, ∀ x ∈ l, f b x = b) (b : β) : l.foldl f b = b := by
  induction l with
  | nil => rfl
  | cons x xs ih => rw [List.foldl_cons, h b x (List.mem_cons_self ..)]; exact ih fun b y hy => h b y (List.mem_cons_of_mem _ hy)

theorem takeFault_tid (t : Thread) (pc : Nat) (lanes : Word) (f : FaultInfo) : (t.takeFault pc lanes f).tid = t.tid :=
  (flush_same t).tid

theorem taken_thread (s : State) (uid pc : Nat) (fs : List (Nat × Word × FaultInfo)) (n : Nat) {t : Thread}
    (ht : s.thread? uid n = some t) :
    (taken s uid pc fs).thread? uid n = some (match fs.find? fun f => f.1 = n with
      | some f => t.takeFault pc f.2.1 f.2.2
      | none => t) := by
  unfold State.thread? at ht ⊢
  cases hw : s.wg? uid with
  | none => rw [hw] at ht; cases ht
  | some w =>
    rw [hw, Option.bind_some] at ht
    unfold taken
    rw [wg_onWg_same (by intro; rfl) hw, Option.bind_some]
    rw [thread_map w _ (fun t => by split <;> simp [takeFault_tid]), ht]
    have := thread_tid ht
    subst this
    rw [Option.map_some]
    cases fs.find? fun f => f.1 = t.tid <;> rfl

/-- A fault of class user of some threads of a workgroup (R88): each leaves its run with the fault in its registers and
enters its handler; no record is written, and nothing else happens. -/
theorem raise_user (s : State) (uid pc : Nat) (fs : List (Nat × Word × FaultInfo)) {w : Wg} (hw : s.wg? uid = some w)
    (hen : w.tvec.getLsbD 0 = true)
    (hfs : ∀ f ∈ fs, classOf f.2.2.cause = .user ∧ ∃ t, w.thread? f.1 = some t ∧ t.inTrap = false) :
    Aside s (s.raise false uid pc fs) uid ∧
    (s.raise false uid pc fs).runs =
      (if fs = [] then s.runs else s.runs.map fun r => if r.wg = uid then r.without (fs.map fun f => f.1) else r) ∧
    ∀ n t, s.thread? uid n = some t → ∃ b, (s.raise false uid pc fs).thread? uid n =
      some (match fs.find? fun f => f.1 = n with
        | some f => { t.takeFault pc f.2.1 f.2.2 with inTrap := true, place := .waiting w.tvecKey .ready, spilled := b }
        | none => t) := by
  by_cases hne : fs = []
  · subst hne
    rw [raise_nil, if_pos rfl]
    exact ⟨Aside.refl _ _, rfl, fun n t ht => ⟨false, ht⟩⟩
  · have hraise : ∃ u, s.raise false uid pc fs = u ∧ Aside ((fs.map fun f => f.1).foldl (enter uid w.tvecKey) (left s uid pc fs)) u uid ∧
        u.runs = ((fs.map fun f => f.1).foldl (enter uid w.tvecKey) (left s uid pc fs)).runs ∧
        u.wgs = ((fs.map fun f => f.1).foldl (enter uid w.tvecKey) (left s uid pc fs)).wgs := by
      refine ⟨_, rfl, ?_⟩
      unfold State.raise
      rw [hw]
      dsimp only
      rw [if_neg (by simpa using hne)]
      generalize hds : (List.map (β := Nat × FaultClass × FaultInfo) _ fs) = ds
      have hds' : ds = fs.map fun f => (f.1, FaultClass.user, f.2.2) := by
        rw [← hds]
        refine List.map_congr_left fun f hf => ?_
        obtain ⟨h1, t, h2, h3⟩ := hfs f hf
        rw [h2]
        show (f.1, s.delivery w t f.2.2.cause, f.2.2) = _
        unfold State.delivery
        rw [h1]
        dsimp only
        rw [if_pos ⟨hen, by rw [h3]; decide⟩]
      have hclass : ∀ d ∈ ds, d.2.1 = .user := by
        rw [hds']
        intro d hd
        obtain ⟨f, _, rfl⟩ := List.mem_map.mp hd
        rfl
      have hnone : (ds.find? fun x => decide (x.2.1 = FaultClass.system)) = none := by
        rw [List.find?_eq_none]
        intro d hd
        rw [hclass d hd]
        decide
      rw [hnone]
      dsimp only
      generalize hps : List.eraseDups (α := FaultClass × Nat) _ = ps
      rw [foldl_same _ ps fun s p hp => ?_]
      · have h3 := delivers_user ds hclass uid w.tvecKey (left s uid pc fs) ⟨_, wg_onWg_same (by intro; rfl) hw, rfl⟩
        rw [show (ds.map fun d => d.1) = fs.map fun f => f.1 by rw [hds', List.map_map]; rfl] at h3
        rw [← h3]
        refine slid_counts ds _ (fun s x core port uid => ?_) (fun s x => ?_) _ uid
        · exact (slid_count s core port uid _ _ _).trans (slid_count _ core port uid _ _ _)
        · exact ⟨rfl, rfl⟩
      · rw [← hps, List.mem_eraseDups, List.mem_map] at hp
        obtain ⟨d, hd, rfl⟩ := hp
        rw [if_pos (hclass d hd)]
    obtain ⟨u, hu, ha, hr, hwgs⟩ := hraise
    rw [hu]
    obtain ⟨e1, e2, e3⟩ := enters_spec uid w.tvecKey (fs.map fun f => f.1) (left s uid pc fs)
    have hleft : Aside s (left s uid pc fs) uid :=
      ⟨rfl, rfl, fun v hv => wg_onWg_other (by intro; rfl) hv, fun w hw => ⟨_, wg_onWg_same (by intro; rfl) hw, rfl,
        fun _ hn => gone_map w _ (fun t => by split <;> simp [takeFault_tid]) hn⟩⟩
    refine ⟨hleft.trans (e1.trans ha), ?_, fun n t ht => ?_⟩
    · rw [hr, e2, if_neg hne]; rfl
    · obtain ⟨b, hb⟩ := e3 n _ (taken_thread s uid pc fs n ht)
      refine ⟨b, ?_⟩
      have h4 : u.thread? uid n = ((fs.map fun f => f.1).foldl (enter uid w.tvecKey) (left s uid pc fs)).thread? uid n := by
        unfold State.thread? State.wg?
        rw [hwgs]
      rw [h4, hb]
      cases hf : fs.find? fun f => f.1 = n with
      | none =>
        rw [if_neg]
        intro hm
        obtain ⟨f, hf', he⟩ := List.mem_map.mp hm
        rw [List.find?_eq_none] at hf
        exact hf f hf' (by simpa using he)
      | some f =>
        rw [if_pos]
        exact List.mem_map.mpr ⟨f, List.mem_of_find?_eq_some hf, by simpa using List.find?_some hf⟩

/-! ### The issue of an instruction that raises such a fault -/

theorem park_other (uid : Nat) (s : State) (p : Parking) (hp : Settles s uid p) (n : Nat) {t : Thread}
    (ht : s.thread? uid n = some t) (hn : p.tid ≠ n) : (s.park uid p).thread? uid n = some t := by
  rcases hp with ⟨k, on, hk, ho⟩ | ⟨he, hb⟩
  · rw [park_waiting hk ho]
    obtain ⟨b, h⟩ := arrive_thread s uid p.tid k on p.sched uid n ht
    rw [h, if_neg (by rintro ⟨_, h⟩; exact hn h.symm)]
  · rw [park_exited he hb]
    refine (thread?_onThread s uid p.tid uid n _ (by intro; rfl)).trans ?_
    rw [ht, Option.map_some, if_neg (by rintro ⟨_, h⟩; exact hn h.symm)]

theorem parks_other (uid : Nat) (l : List Parking) (s : State) (hp : ∀ p ∈ l, Settles s uid p) (n : Nat) {t : Thread}
    (ht : s.thread? uid n = some t) (hn : ∀ p ∈ l, p.tid ≠ n) :
    (l.foldl (fun s p => s.park uid p) s).thread? uid n = some t := by
  induction l generalizing s with
  | nil => exact ht
  | cons p ps ih =>
    have h1 := slid_park s 0 0 uid p (hp p (List.mem_cons_self ..))
    exact ih _ (fun q hq => h1.settles (hp q (List.mem_cons_of_mem _ hq)))
      (park_other uid s p (hp p (List.mem_cons_self ..)) n ht (hn p (List.mem_cons_self ..)))
      fun q hq => hn q (List.mem_cons_of_mem _ hq)

/-- A thread that is not in a run and not sent on by it stays as it is when the run moves on. -/
theorem advance_outside {s : State} {q : Run} {rest : List Run} {core port : Nat} (hq : s.runs = q :: rest) (hc : q.core = core)
    (hp : q.port = port) (whole : Bool) (hpk : ∀ p ∈ q.parked, Settles s q.wg p) {n : Nat} (hn : n ∉ q.groups.flatten)
    (hm : ∀ p ∈ q.parked, p.tid ≠ n) {t : Thread} (ht : s.thread? q.wg n = some t) :
    (s.advance core port whole).thread? q.wg n = some t := by
  have hfind : (s.runs.find? fun x => decide (x.core = core) && decide (x.port = port)) = some q := by
    rw [hq, List.find?_cons_of_pos (by simp [hc, hp])]
  unfold State.advance
  rw [hfind]
  dsimp only
  split
  · exact ht
  · split
    · exact ht
    · unfold State.endRun
      dsimp only
      have h1 : ((s.dropRun q).onWg q.wg fun w => { w with threads := w.threads.map fun t =>
            (if (q.groups.flatten.contains t.tid = true) ∨ ((q.parked.any fun p => decide (p.tid = t.tid)) = true) then t.endBlock
              else t) }).thread? q.wg n = some t := by
        unfold State.thread? at ht ⊢
        cases hw : s.wg? q.wg with
        | none => rw [hw] at ht; cases ht
        | some w =>
          rw [hw, Option.bind_some] at ht
          rw [wg_onWg_same (s := s.dropRun q) (by intro; rfl) hw, Option.bind_some]
          rw [thread_map w _ (fun t => by split <;> simp [endBlock_tid]), ht, Option.map_some]
          have := thread_tid ht
          rw [if_neg]
          rintro (h | h)
          · exact hn (by simpa [this] using h)
          · obtain ⟨p, h1, h2⟩ := List.any_eq_true.mp h
            exact hm p h1 (by rw [← this]; simpa using h2)
      have h0 := slid_endBlocks (s.dropRun q) 0 0 q.wg fun t =>
        decide (q.groups.flatten.contains t.tid = true ∨ q.parked.any (fun p => p.tid = t.tid) = true)
      simp only [decide_eq_true_eq] at h0
      have h2 := parks_other q.wg q.parked _ (fun p hp => h0.settles (show Settles (s.dropRun q) q.wg p from hpk p hp)) n h1 hm
      exact arrives_other q.groups.flatten q.wg id (fun _ => q.endKey) (fun _ => .ready) (fun _ => none) _ q.wg n h2
        fun x hx he => hn (he ▸ hx)

/-- What a thread of the group does when every one that executes takes a fault. -/
def badAct (x : Who) (ends : Bool) (fi : Thread → FaultInfo) (ft : Thread → Thread) (t : Thread) : Act :=
  if t.guard.val = true then .fault (fi t) (ft t) else skipAct x ends t

def badActs (x : Who) (ends : Bool) (fi : Thread → FaultInfo) (ft : Thread → Thread) (r : Run) (w : Wg) : List (Nat × Act) :=
  (r.group w).map fun t => (t.tid, badAct x ends fi ft t)

theorem lanes_eq (ts : List Thread) : laneMask (ts.map fun t => t.tid) = lanesOf ts := by
  unfold laneMask lanesOf
  rw [List.foldl_map]
  congr 1
  funext m t
  congr 1
  apply BitVec.eq_of_toNat_eq
  simp [Nat.shiftLeft_eq]

theorem act_bad {s : State} {r : Run} {w : Wg} (hs : Smooth s r w) {fm : Form} {x : Who}
    (hx : x.s = s ∧ x.w = w ∧ x.r = r ∧ x.pc = r.pc) {ends : Bool} {op : Who → Thread → Act} {fi : Thread → FaultInfo}
    {ft : Thread → Thread} {t : Thread} (ht : t ∈ r.group w) (hr : t.guard.val = true → Ready fm x t)
    (ho : t.guard.val = true → op x t = .fault (fi t) (ft t)) (hle : (ends && fm.claimed && fm.ops.all Opnd.legal) = ends) :
    fm.act x ends op t = badAct x ends fi ft t := by
  unfold Form.act badAct
  have h1 : (if t.suppress then none else x.s.comparatorAt x.r x.w.launch x.pc) = none := by
    rw [hx.1, hx.2.1, hx.2.2.1, hx.2.2.2]
    rcases hs.armed t ht with h | h
    · rw [h]; rfl
    · rw [h]; split <;> rfl
  have h2 := hs.clean t ht
  rw [h1]
  dsimp only
  rw [h2]
  cases hg : t.guard.val with
  | false => simp [hle]
  | true => simp [(hr hg).check, ho hg]

/-- The faults of the group, with the lanes that take them. -/
def badList (fi : Thread → FaultInfo) (r : Run) (w : Wg) : List (Nat × Word × FaultInfo) :=
  ((r.group w).filter fun t => t.guard.val).map fun t => (t.tid, lanesOf ((r.group w).filter fun t => t.guard.val), fi t)

theorem badActs_bad (x : Who) (ends : Bool) (fi : Thread → FaultInfo) (ft : Thread → Thread) (ts : List Thread)
    (g : Nat × Act → Option (Nat × FaultInfo)) (h1 : ∀ n f t, g (n, .fault f t) = some (n, f))
    (h2 : ∀ n t p l, g (n, .ok t p l) = none) :
    (ts.map fun t => (t.tid, badAct x ends fi ft t)).filterMap g = (ts.filter fun t => t.guard.val).map fun t => (t.tid, fi t) := by
  induction ts with
  | nil => rfl
  | cons t ts ih =>
    rw [List.map_cons, List.filterMap_cons, List.filter_cons]
    unfold badAct skipAct
    by_cases hg : t.guard.val = true
    · rw [if_pos hg, if_pos hg, h1, List.map_cons]
      exact congrArg _ ih
    · rw [if_neg hg, if_neg hg, h2]
      exact ih

theorem applyActs_bad (s : State) (x : Who) (ends : Bool) (fi : Thread → FaultInfo) (ft : Thread → Thread) (r : Run) (w : Wg) :
    s.applyActs x (badActs x ends fi ft r w) =
      ((({ marked s x.w (badActs x ends fi ft r w) with
          runs := s.runs.map fun q => if q.core = x.r.core ∧ q.port = x.r.port then parkedRun (badActs x ends fi ft r w) q else q } : State).raise
          false x.w.uid x.pc (badList fi r w)).issuedOne x.w |>.count (s.tagOf x.w) 0x02 (badActs x ends fi ft r w).length).advanceFree := by
  have hp : ∀ v : State, (badActs x ends fi ft r w).foldl (fun (s : State) (a : Nat × Act) => match a.2 with
      | .ok _ _ post => post.foldl (fun (s : State) p => p s) s
      | .trap _ _ post => post.foldl (fun (s : State) p => p s) s
      | .fault _ _ => s) v = v := by
    refine foldl_same _ _ fun b a ha => ?_
    obtain ⟨t, _, rfl⟩ := List.mem_map.mp ha
    unfold badAct skipAct
    by_cases hg : t.guard.val = true
    · rw [if_pos hg]
    · rw [if_neg hg]; rfl
  unfold State.applyActs
  dsimp only
  have hb := badActs_bad x ends fi ft (r.group w) (fun a => match a.2 with
    | .fault f _ => some (a.1, f)
    | .trap f _ _ => some (a.1, f)
    | .ok _ _ _ => none) (fun _ _ _ => rfl) (fun _ _ _ _ => rfl)
  have hl : (badList fi r w) = (((r.group w).filter fun t => t.guard.val).map fun t => (t.tid, fi t)).map fun b =>
      (b.1, laneMask ((((r.group w).filter fun t => t.guard.val).map fun t => (t.tid, fi t)).map fun b => b.1), b.2) := by
    unfold badList
    rw [List.map_map, List.map_map, ← lanes_eq]
    rfl
  rw [hl, ← hb]
  show ((({ posted (marked s x.w (badActs x ends fi ft r w)) (badActs x ends fi ft r w) with
      runs := (posted (marked s x.w (badActs x ends fi ft r w)) (badActs x ends fi ft r w)).runs.map _ } : State).raise _ _ _ _).issuedOne x.w
      |>.count _ _ _).advanceFree = _
  rw [show posted (marked s x.w (badActs x ends fi ft r w)) (badActs x ends fi ft r w) = marked s x.w (badActs x ends fi ft r w) from hp _]
  rfl

theorem thread_issuedOne (s : State) (w : Wg) (t : Tag) (e n uid tid : Nat) :
    ((((s.issuedOne w).count t e n).advanceFree).thread? uid tid) = s.thread? uid tid := by
  show ((s.onWg w.uid fun v => { v with issuing := true }).thread? uid tid) = _
  unfold State.thread?
  rw [wg_onWg s w.uid uid _ (by intro; rfl)]
  cases s.wg? uid with
  | none => rfl
  | some v =>
    rw [Option.map_some, Option.bind_some, Option.bind_some]
    split <;> rfl

theorem without_same {q : Run} {l : List Nat} (h1 : ∀ n ∈ l, (∀ g ∈ q.groups, n ∉ g) ∧ ∀ p ∈ q.parked, p.tid ≠ n) :
    q.without l = q := by
  unfold Run.without
  have e1 : (q.groups.map fun g => g.filter fun t => !l.contains t) = q.groups := by
    refine (List.map_congr_left fun g hg => ?_).trans (List.map_id _)
    rw [List.filter_eq_self.mpr]; rfl
    intro a ha
    rw [Bool.not_eq_true']
    by_contra hc
    have : a ∈ l := by simpa using hc
    exact (h1 a this).1 g hg ha
  have e2 : (q.parked.filter fun p => !l.contains p.tid) = q.parked := by
    rw [List.filter_eq_self]
    intro a ha
    rw [Bool.not_eq_true']
    by_contra hc
    have : a.tid ∈ l := by simpa using hc
    exact (h1 _ this).2 a ha rfl
  rw [e1, e2]

theorem sole_same {s : State} {r : Run} {w : Wg} (h : Sole s r w) {t t' : Thread} (ht : t ∈ r.group w) (ht' : t' ∈ w.threads)
    (he : t'.tid = t.tid) : t' = t := List.inj_on_of_nodup_map h.distinct ht' (List.mem_filter.mp ht).1 he

theorem sole_find {s : State} {r : Run} {w : Wg} (h : Sole s r w) {t : Thread} (ht : t ∈ r.group w) : w.thread? t.tid = some t := by
  cases hf : w.thread? t.tid with
  | none =>
    unfold Wg.thread? at hf
    rw [List.find?_eq_none] at hf
    have := hf t (List.mem_filter.mp ht).1
    simp at this
  | some t' => rw [sole_same h ht (thread_mem hf) (thread_tid hf)]

theorem badThread_tid {x : Who} {ends : Bool} {fi : Thread → FaultInfo} {ft : Thread → Thread} {r : Run} {w : Wg}
    (hf : ∀ t, (ft t).tid = t.tid) (q : Nat) (t : Thread) : (actThread q (badActs x ends fi ft r w) t).tid = t.tid := by
  unfold actThread
  cases ha : (badActs x ends fi ft r w).find? fun a => a.1 = t.tid with
  | none => rfl
  | some a =>
    obtain ⟨t0, _, rfl⟩ := List.mem_map.mp (List.mem_of_find?_eq_some ha)
    have h1 : t0.tid = t.tid := by simpa using List.find?_some ha
    unfold badAct skipAct
    by_cases hg : t0.guard.val = true
    · rw [if_pos hg]; exact (hf t0).trans h1
    · rw [if_neg hg]; exact ((issued_spec _ _).2.1).trans ((skipped_same x t0).trans h1)

/-- A thread that is not in the group is as it was before the faults. -/
theorem badThread_apart {x : Who} {ends : Bool} {fi : Thread → FaultInfo} {ft : Thread → Thread} {r : Run} {w : Wg} (q : Nat)
    {t : Thread} (h : (r.groups.getD r.grp []).contains t.tid = false) : actThread q (badActs x ends fi ft r w) t = t := by
  unfold actThread
  cases ha : (badActs x ends fi ft r w).find? fun a => a.1 = t.tid with
  | none => rfl
  | some a =>
    obtain ⟨t0, h0, rfl⟩ := List.mem_map.mp (List.mem_of_find?_eq_some ha)
    have h1 : t0.tid = t.tid := by simpa using List.find?_some ha
    have h2 := (List.mem_filter.mp h0).2
    rw [h1, h] at h2
    cases h2

/-- The threads before the faults are taken. -/
theorem marked_bad {s : State} {r : Run} {w : Wg} (hw : s.wg? w.uid = some w) {x : Who} {ends : Bool} {fi : Thread → FaultInfo}
    {ft : Thread → Thread} (hf : ∀ t, (ft t).tid = t.tid) {tid : Nat} {t : Thread} (ht : w.thread? tid = some t) :
    (marked s w (badActs x ends fi ft r w)).thread? w.uid tid = some (
      if t ∈ r.group w then (if t.guard.val = true then ft t else (skipped x t).issued w.quota) else t) := by
  unfold State.thread?
  rw [marked_wg hw, Option.bind_some, thread_map w _ (badThread_tid hf w.quota), ht, Option.map_some]
  congr 1
  unfold actThread
  rw [show ((badActs x ends fi ft r w).find? fun a => a.1 = t.tid) = _ from find_act _ ht]
  by_cases h : t ∈ r.group w
  · rw [if_pos h, if_pos h]
    unfold badAct skipAct
    by_cases hg : t.guard.val = true
    · rw [if_pos hg, if_pos hg]
    · rw [if_neg hg, if_neg hg]; rfl
  · rw [if_neg h, if_neg h]

/-- The state as the faults of the group find it. -/
def struck (s : State) (x : Who) (ends : Bool) (fi : Thread → FaultInfo) (ft : Thread → Thread) (r : Run) (w : Wg) : State :=
  { marked s w (badActs x ends fi ft r w) with
    runs := s.runs.map fun q => if q.core = r.core ∧ q.port = r.port then parkedRun (badActs x ends fi ft r w) q else q }

/-- A run with the threads of the group that took a fault out of it. -/
def thinned (fi : Thread → FaultInfo) (r : Run) (w : Wg) (q : Run) : Run :=
  if badList fi r w = [] then q else if q.wg = w.uid then q.without ((badList fi r w).map fun f => f.1) else q

theorem thinned_same (fi : Thread → FaultInfo) (r : Run) (w : Wg) (q : Run) :
    (thinned fi r w q).core = q.core ∧ (thinned fi r w q).port = q.port ∧ (thinned fi r w q).wg = q.wg ∧
      ∀ p ∈ (thinned fi r w q).parked, p ∈ q.parked := by
  unfold thinned
  split
  · exact ⟨rfl, rfl, rfl, fun _ h => h⟩
  · split
    · exact ⟨rfl, rfl, rfl, fun _ h => (List.mem_filter.mp h).1⟩
    · exact ⟨rfl, rfl, rfl, fun _ h => h⟩

theorem thinned_apart {s : State} {r : Run} {w : Wg} (hsole : Sole s r w) (fi : Thread → FaultInfo) {a : Run} (ha : a ∈ s.runs)
    (hac : a.core ≠ r.core ∨ a.port ≠ r.port) : thinned fi r w a = a := by
  unfold thinned
  split
  · rfl
  · split
    · rename_i h1 h2
      refine without_same fun n hn => ?_
      obtain ⟨f, hf1, rfl⟩ := List.mem_map.mp hn
      obtain ⟨t, ht, rfl⟩ := List.mem_map.mp hf1
      exact hsole.apart a ha hac h2 t (List.mem_filter.mp ht).1
    · rfl

/-- A faulting thread is in no group of the thinned run and not sent on by it. -/
theorem thinned_gone {fi : Thread → FaultInfo} {r : Run} {w : Wg} {q : Run} (hq : q.wg = w.uid) {t : Thread} (ht : t ∈ r.group w)
    (hg : t.guard.val = true) :
    t.tid ∉ (thinned fi r w q).groups.flatten ∧ ∀ p ∈ (thinned fi r w q).parked, p.tid ≠ t.tid := by
  have hin : t.tid ∈ (badList fi r w).map fun f => f.1 :=
    List.mem_map.mpr ⟨_, List.mem_map.mpr ⟨t, List.mem_filter.mpr ⟨ht, hg⟩, rfl⟩, rfl⟩
  have hne : badList fi r w ≠ [] := fun h => by rw [h] at hin; cases hin
  unfold thinned
  rw [if_neg hne, if_pos hq]
  constructor
  · intro hm
    obtain ⟨g, hg1, hg2⟩ := List.mem_flatten.mp hm
    obtain ⟨g0, _, rfl⟩ := List.mem_map.mp hg1
    have := (List.mem_filter.mp hg2).2
    rw [Bool.not_eq_true', ← Bool.not_eq_true] at this
    exact this (by simpa using hin)
  · intro p hp he
    have := (List.mem_filter.mp hp).2
    rw [he, Bool.not_eq_true', ← Bool.not_eq_true] at this
    exact this (by simpa using hin)

/-- The fault of each thread of the group, by its number. -/
theorem badList_find {s : State} {r : Run} {w : Wg} (hsole : Sole s r w) (fi : Thread → FaultInfo) {tid : Nat} {t : Thread}
    (ht : w.thread? tid = some t) : (badList fi r w).find? (fun f => f.1 = tid) =
      if t ∈ r.group w ∧ t.guard.val = true then
        some (t.tid, lanesOf ((r.group w).filter fun t => t.guard.val), fi t) else none := by
  have htid := thread_tid ht
  by_cases h : t ∈ r.group w ∧ t.guard.val = true
  · rw [if_pos h]
    cases hfind : (badList fi r w).find? fun f => f.1 = tid with
    | none =>
      rw [List.find?_eq_none] at hfind
      exact absurd (decide_eq_true htid) (hfind _ (List.mem_map.mpr ⟨t, List.mem_filter.mpr ⟨h.1, h.2⟩, rfl⟩))
    | some f =>
      obtain ⟨t0, ht0, rfl⟩ := List.mem_map.mp (List.mem_of_find?_eq_some hfind)
      have h1 : t0.tid = tid := by simpa using List.find?_some hfind
      rw [sole_same hsole h.1 (List.mem_filter.mp (List.mem_filter.mp ht0).1).1 (h1.trans htid.symm)]
  · rw [if_neg h, List.find?_eq_none]
    intro f hf1 hf2
    obtain ⟨t0, ht0, rfl⟩ := List.mem_map.mp hf1
    have h1 : t0.tid = tid := by simpa using hf2
    obtain ⟨h2, h3⟩ := List.mem_filter.mp ht0
    have := sole_same hsole h2 (thread_mem ht) (htid.trans h1.symm)
    exact h (this ▸ ⟨h2, h3⟩)

/-- The faults of the group taken. -/
theorem struck_raise {s : State} {r : Run} {w : Wg} (hw : s.wg? w.uid = some w) (hsole : Sole s r w)
    (hen : w.tvec.getLsbD 0 = true) (x : Who) (ends : Bool) (fi : Thread → FaultInfo) {ft : Thread → Thread}
    (hcls : ∀ t ∈ r.group w, t.guard.val = true → classOf (fi t).cause = .user)
    (htrap : ∀ t ∈ r.group w, t.guard.val = true → (ft t).inTrap = false) (hf : ∀ t, (ft t).tid = t.tid) :
    let R := (struck s x ends fi ft r w).raise false w.uid r.pc (badList fi r w)
    Aside s R w.uid ∧
    R.runs = (s.runs.map fun q => if q.core = r.core ∧ q.port = r.port then parkedRun (badActs x ends fi ft r w) q else q).map
      (thinned fi r w) ∧
    ∀ tid t, w.thread? tid = some t → ∃ b, R.thread? w.uid tid = some (
      if t ∈ r.group w ∧ t.guard.val = true then
        { (ft t).takeFault r.pc (lanesOf ((r.group w).filter fun t => t.guard.val)) (fi t) with
          inTrap := true, place := .waiting w.tvecKey .ready, spilled := b }
      else if t ∈ r.group w then (skipped x t).issued w.quota else t) := by
  have hw3 : (struck s x ends fi ft r w).wg? w.uid =
      some { w with threads := w.threads.map (actThread w.quota (badActs x ends fi ft r w)) } := marked_wg hw _
  obtain ⟨ra, rb, rc⟩ := raise_user (struck s x ends fi ft r w) w.uid r.pc (badList fi r w) hw3 hen fun f hf' => by
    obtain ⟨t, ht, rfl⟩ := List.mem_map.mp hf'
    obtain ⟨h1, h2⟩ := List.mem_filter.mp ht
    refine ⟨hcls t h1 h2, ft t, ?_, htrap t h1 h2⟩
    have := marked_bad hw (r := r) (x := x) (ends := ends) (fi := fi) hf (sole_find hsole h1)
    rw [if_pos h1, if_pos h2] at this
    unfold State.thread? at this
    rw [marked_wg hw, Option.bind_some] at this
    exact this
  have hs1 : Aside s (struck s x ends fi ft r w) w.uid :=
    ⟨rfl, rfl, fun v hv => marked_other _ hv, fun w1 hw1 => by
      rw [hw] at hw1; cases hw1
      exact ⟨_, hw3, rfl, fun _ hn => gone_map w _ (badThread_tid hf _) hn⟩⟩
  refine ⟨hs1.trans ra, ?_, fun tid t ht => ?_⟩
  · rw [rb]
    by_cases h : badList fi r w = []
    · rw [if_pos h]
      refine ((List.map_congr_left fun q _ => ?_).trans (List.map_id _)).symm
      exact if_pos h
    · rw [if_neg h]
      exact List.map_congr_left fun q _ => (if_neg h).symm
  · obtain ⟨b, hb⟩ := rc tid _ (marked_bad hw (r := r) (x := x) (ends := ends) (fi := fi) hf ht)
    refine ⟨b, hb.trans ?_⟩
    rw [badList_find hsole fi ht]
    by_cases h : t ∈ r.group w ∧ t.guard.val = true
    · rw [if_pos h, if_pos h, if_pos h.1, if_pos h.2]; rfl
    · rw [if_neg h, if_neg h]
      by_cases hg : t ∈ r.group w
      · rw [if_pos hg, if_neg fun hv => h ⟨hg, hv⟩, if_pos hg]
      · rw [if_neg hg, if_neg hg]

/-- What a thread that took the fault became. -/
theorem entered_of {s u : State} {r : Run} {w : Wg} {t t2 base : Thread} {f : FaultInfo} {lanes : Word} {b : Bool}
    (hd : Did t t2 [] base) :
    Entered s u w r.pc f.cause f.info lanes t
      { t2.takeFault r.pc lanes f with inTrap := true, place := .waiting w.tvecKey .ready, spilled := b } base := by
  have hfl := flush_same t2
  refine ⟨hfl.tid.trans hd.tid, rfl, ?_, congrArg some hd.hints, rfl, fun n hn => ?_⟩
  · have h6 : (t2.takeFault r.pc lanes f).control =
        { t2.control with
          fpc := BitVec.ofNat 32 (4 * r.pc)
          fcause := BitVec.ofNat 32 f.cause
          finfo := f.info
          fmask := lanes
          faddr := f.addr } := by
      rw [← hfl.control]; rfl
    rw [hd.control] at h6
    show { (t2.takeFault r.pc lanes f).control with inTrap := true } = _
    rw [h6]
    rfl
  · rw [reg_of_not_dead (t := t) hn]
    refine (reg_of_not_dead (t := _) fun p hp => ?_).trans ?_
    · exact hn p (hd.dead p (flush_dead _ hp)).2
    · exact (look_flush t2 n).trans (hd.other n fun _ h => by cases h)

/-- A thread of the group is in a group of the run. -/
theorem group_flatten {r : Run} {w : Wg} {t : Thread} (h : t ∈ r.group w) : t.tid ∈ r.groups.flatten := by
  have hc := (List.mem_filter.mp h).2
  rw [List.mem_flatten]
  by_cases hlt : r.grp < r.groups.length
  · refine ⟨r.groups[r.grp], List.getElem_mem hlt, ?_⟩
    rw [List.getD_eq_getElem?_getD, List.getElem?_eq_getElem hlt] at hc
    simpa using hc
  · rw [List.getD_eq_getElem?_getD, List.getElem?_eq_none (by omega)] at hc
    cases hc

/-- The run moves on after the faults. -/
theorem struck_advance {s : State} {r : Run} {w : Wg} {rest : List Run} (hs : Smooth s r w) (hrest : s.runs = r :: rest)
    (huid : w.uid = r.wg) (hsole : Sole s r w) (x : Who) (ends : Bool) (fi : Thread → FaultInfo) (ft : Thread → Thread) {R : State}
    (hkept : ∀ tid t, w.thread? tid = some t → t ∉ r.group w → R.thread? w.uid tid = some t)
    (hR : R.runs = (s.runs.map fun q => if q.core = r.core ∧ q.port = r.port then parkedRun (badActs x ends fi ft r w) q else q).map
      (thinned fi r w)) (ha : Aside s R w.uid) (tag : Tag) (n : Nat) :
    let U := ((R.issuedOne w).count tag 0x02 n).advanceFree
    Slid R (U.advance r.core r.port false) r.core r.port w.uid ∧
    ∀ t ∈ r.group w, t.guard.val = true → ∀ t', R.thread? w.uid t.tid = some t' →
      (U.advance r.core r.port false).thread? w.uid t.tid = some t' := by
  intro U
  have hUruns : U.runs = thinned fi r w (parkedRun (badActs x ends fi ft r w) r) ::
      (rest.map fun q => if q.core = r.core ∧ q.port = r.port then parkedRun (badActs x ends fi ft r w) q else q).map
        (thinned fi r w) := by
    show R.runs = _
    rw [hR, hrest, List.map_cons, List.map_cons, if_pos ⟨rfl, rfl⟩]
  obtain ⟨q1, q2, q3, q4⟩ := thinned_same fi r w (parkedRun (badActs x ends fi ft r w) r)
  have hU1 : Slid R U r.core r.port w.uid :=
    ((slid_issuedOne _ w _ _).trans (slid_count _ _ _ _ _ _ _)).trans (slid_advanceFree _ _ _ _)
  have hbar : R.barriers = s.barriers := by
    show R.elsewhere.barriers = _
    rw [ha.elsewhere]; rfl
  have hsettle : ∀ p ∈ (thinned fi r w (parkedRun (badActs x ends fi ft r w) r)).parked, Settles U w.uid p := by
    intro p hp
    refine hU1.settles ?_
    rcases List.mem_append.mp (q4 p hp) with h | h
    · obtain ⟨hset, hap⟩ := hs.parked p h
      obtain ⟨w', hw', hc, hgn⟩ := ha.own w (issuer_wg hs)
      refine settles_of hw' ?_
      rcases hset with ⟨k, on, h1, h2⟩ | ⟨h1, h2⟩
      · refine .inl ⟨k, on, h1, ?_⟩
        rw [← h2]
        refine waitOver_congr ha.elsewhere (by rw [wg_uid hw']) hc ?_ on
        cases ht : w.thread? p.tid with
        | none => rw [hgn _ ht]
        | some t =>
          have h3 := hkept p.tid t ht fun hg => hap (by
            rw [← thread_tid ht]; exact group_flatten hg)
          unfold State.thread? at h3
          rw [hw', Option.bind_some] at h3
          rw [h3]
      · exact .inr ⟨h1, hbar.trans h2⟩
    · obtain ⟨a, ha, hae⟩ := List.mem_filterMap.mp h
      obtain ⟨t, _, rfl⟩ := List.mem_map.mp ha
      unfold badAct skipAct at hae
      by_cases hg : t.guard.val = true
      · rw [if_pos hg] at hae; cases hae
      · rw [if_neg hg] at hae
        cases ends with
        | false => cases hae
        | true => cases hae; exact settles_ready ..
  have hqwg := q3.trans huid.symm
  refine ⟨hU1.trans (slid_advance _ _ _ _ _ fun r' hr' => ?_), fun t ht hg t' ht' => ?_⟩
  · rw [hUruns, List.find?_cons_of_pos (by rw [q1, q2]; simp [parkedRun])] at hr'
    cases hr'
    exact ⟨hqwg, hsettle⟩
  · have hsettle := hqwg ▸ hsettle
    obtain ⟨g1, g2⟩ := thinned_gone (fi := fi) (q := parkedRun (badActs x ends fi ft r w) r) huid.symm ht hg
    have h5 := advance_outside (s := U) hUruns (core := r.core) (port := r.port) q1 q2 false hsettle g1 g2 (t := t') (by
      rw [hqwg]
      exact (thread_issuedOne R w tag 0x02 n _ _).trans ht')
    rw [hqwg] at h5
    exact h5

/-- A fault that waits for nothing does not stall its group. -/
theorem tbStall_bad {x : Who} {ends : Bool} {fi : Thread → FaultInfo} {ft : Thread → Thread} {r : Run} {w : Wg}
    (h : ∀ t ∈ r.group w, t.guard.val = true → (fi t).cause ≠ cWait) : tbStall (badActs x ends fi ft r w) = none := by
  unfold tbStall
  rw [if_neg]
  simp only [List.any_eq_true, not_exists, not_and]
  intro a ha
  obtain ⟨t, ht, rfl⟩ := List.mem_map.mp ha
  unfold badAct skipAct
  by_cases hg : t.guard.val = true
  · rw [if_pos hg]
    simpa using h t ht hg
  · rw [if_neg hg]
    exact Bool.false_ne_true

/-- An instruction that raises a fault of class user for every thread that executes it. -/
theorem enters_of {word : Word} {fm : Form} {ends : Bool} {stall : Who → List Thread → Option Nat} {op : Who → Thread → Act}
    {s : State} {r : Run} {w : Wg} (hs : Smooth s r w) (hsole : Sole s r w) (hen : w.tvec.getLsbD 0 = true)
    (fi : Thread → FaultInfo) {ft : Thread → Thread} {base : Thread → Thread} {cause : Nat}
    (hready : ∀ t ∈ r.group w, t.guard.val = true → Ready fm ⟨s, w, r, word, r.pc⟩ t)
    (hstall : stall ⟨s, w, r, word, r.pc⟩ ((r.group w).filter fun t => t.guard.val) = none)
    (hop : ∀ t ∈ r.group w, t.guard.val = true → op ⟨s, w, r, word, r.pc⟩ t = .fault (fi t) (ft t))
    (hcause : ∀ t ∈ r.group w, t.guard.val = true → (fi t).cause = cause) (hcls : classOf cause = .user) (hnw : cause ≠ cWait)
    (htrap : ∀ t ∈ r.group w, t.guard.val = true → (ft t).inTrap = false)
    (hdid : ∀ t ∈ r.group w, t.guard.val = true → Did t (ft t) [] (base t)) (hf : ∀ t, (ft t).tid = t.tid)
    (hle : (ends && fm.claimed && fm.ops.all Opnd.legal) = ends) :
    ∃ u, issueThread word fm ends stall op s = .next u ∧ Beside s u r w ∧ ∃ w', u.wg? w.uid = some w' ∧ w'.control = w.control ∧
      ∀ tid t, w.thread? tid = some t → ∃ t', w'.thread? tid = some t' ∧
        if t ∈ r.group w then
          if t.guard.val = true then
            Entered s u w r.pc cause (fi t).info (lanesOf ((r.group w).filter fun t => t.guard.val)) t t' (base t)
          else Became s u t t' [] t
        else Stayed s u t t' := by
  obtain ⟨⟨rest, hrest⟩, hwg, huid⟩ := issuer_spec hs.issuer
  have hw : s.wg? w.uid = some w := by rw [huid]; exact hwg
  have hact : (r.group w).map (fun t => (t.tid, fm.act ⟨s, w, r, word, r.pc⟩ ends op t)) =
      badActs ⟨s, w, r, word, r.pc⟩ ends fi ft r w :=
    List.map_congr_left fun t ht => by
      rw [act_bad hs (x := ⟨s, w, r, word, r.pc⟩) ⟨rfl, rfl, rfl, rfl⟩ ht (hready t ht) (hop t ht) hle]
  have hacting : (r.group w).filter (fm.operates ⟨s, w, r, word, r.pc⟩) = (r.group w).filter fun t => t.guard.val :=
    List.filter_congr fun t ht => operates_guard hs ⟨rfl, rfl, rfl, rfl⟩ ht (hready t ht)
  have hblock : heldBack (r.group w) = none := heldBack_none hs.free
  have hpend : pendingStall fm ((r.group w).filter fun t => t.guard.val) = none := by
    unfold pendingStall
    rw [if_neg]
    simp only [List.any_eq_true, List.mem_filter, not_exists, not_and, and_imp]
    intro t ht hg o ho n hn hc
    exact (hready t ht hg).pending o ho n hn (by simpa using hc)
  obtain ⟨ra, rb, rc⟩ := struck_raise hw hsole hen ⟨s, w, r, word, r.pc⟩ ends fi (ft := ft)
    (fun t h1 h2 => by rw [hcause t h1 h2]; exact hcls) htrap hf
  obtain ⟨ua, ub⟩ := struck_advance hs hrest huid hsole ⟨s, w, r, word, r.pc⟩ ends fi ft (fun tid t ht hg => by
    obtain ⟨b, hb⟩ := rc tid t ht
    rw [if_neg fun h => hg h.1, if_neg hg] at hb
    exact hb) rb ra (s.tagOf w)
    (badActs ⟨s, w, r, word, r.pc⟩ ends fi ft r w).length
  refine ⟨_, ?_, ⟨ua.elsewhere.trans ra.elsewhere, ua.tenants.trans ra.tenants, fun q hq => ?_,
    fun v hv => (ua.others v hv).trans (ra.others v hv)⟩, ?_⟩
  rotate_left
  · rw [ua.runs q hq, rb, List.mem_map]
    constructor
    · rintro ⟨q', hq', he⟩
      obtain ⟨a, ha, hae⟩ := List.mem_map.mp hq'
      obtain ⟨c1, c2, _⟩ := thinned_same fi r w q'
      rw [he] at c1 c2
      split at hae
      · rename_i hcp
        exfalso
        rw [← hae] at c1 c2
        exact hq.elim (fun h => h (c1.trans hcp.1)) (fun h => h (c2.trans hcp.2))
      · subst hae
        rw [← he, thinned_apart hsole fi ha (by rw [← c1, ← c2]; exact hq)]
        exact ha
    · intro hqs
      exact ⟨q, List.mem_map.mpr ⟨q, hqs, if_neg fun hcp => hq.elim (fun h => h hcp.1) (fun h => h hcp.2)⟩,
        thinned_apart hsole fi hqs hq⟩
  · obtain ⟨w1, hw1, hc1, _⟩ := ra.own _ hw
    obtain ⟨w2, hw2, hsl⟩ := ua.own _ hw1
    refine ⟨w2, hw2, hsl.control.trans hc1, fun tid t ht => ?_⟩
    obtain ⟨b, hb⟩ := rc tid t ht
    have htid := thread_tid ht
    have hslid := fun t1 (h : State.thread? _ w.uid tid = some t1) => hsl.threads tid t1 (by
      unfold State.thread? at h
      rw [hw1, Option.bind_some] at h
      exact h)
    by_cases hg : t ∈ r.group w
    · simp only [if_pos hg]
      by_cases hv : t.guard.val = true
      · simp only [if_pos hv]
        rw [if_pos ⟨hg, hv⟩, ← htid] at hb
        have h5 := ub t hg hv _ hb
        unfold State.thread? at h5
        rw [hw2, Option.bind_some, htid] at h5
        refine ⟨_, h5, ?_⟩
        rw [← hcause t hg hv]
        exact entered_of (hdid t hg hv)
      · simp only [if_neg hv]
        rw [if_neg fun h => hv h.2, if_pos hg] at hb
        obtain ⟨t', ht', tl⟩ := hslid _ hb
        exact ⟨t', ht', became_of (did_skipped _ t) (issued_issued ..) tl⟩
    · simp only [if_neg hg]
      rw [if_neg fun h => hg h.1, if_neg hg] at hb
      obtain ⟨t', ht', tl⟩ := hslid _ hb
      exact ⟨t', ht', stayed_of tl⟩
  · unfold issueThread
    rw [hs.issuer]
    dsimp only
    have e1 : (w.threads.filter fun t => (r.groups.getD r.grp []).contains t.tid) = r.group w := rfl
    rw [e1, hblock]
    dsimp only
    have e2 : (r.group w).filter (fm.operates ⟨s, w, r, word, r.key + r.idx⟩) = (r.group w).filter fun t => t.guard.val := hacting
    rw [e2, hpend]
    have e3 : stall ⟨s, w, r, word, r.key + r.idx⟩ ((r.group w).filter fun t => t.guard.val) = none := hstall
    dsimp only [Option.orElse]
    rw [e3]
    dsimp only
    have e4 : (r.group w).map (fun t => (t.tid, fm.act ⟨s, w, r, word, r.key + r.idx⟩ ends op t)) =
      badActs ⟨s, w, r, word, r.pc⟩ ends fi ft r w := hact
    rw [e4, tbStall_bad fun t ht hg => by rw [hcause t ht hg]; exact hnw]
    exact congrArg (fun v : State => Host.Outcome.next (v.advance r.core r.port false))
      (applyActs_bad s ⟨s, w, r, word, r.pc⟩ ends fi ft r w)

end Sys2Proof.Laws
end

