-- ==== Sys2Proof/Laws/State.lean ====
section
/-! SUPPORT. One lemma per field for each plain update of the state: the field it changes, and the fields it leaves. -/

namespace Sys2Proof.Machine

/-! ### `State.onWg` -/

@[simp] theorem State.onWg_mem (s : State) (uid : Nat) (f : Wg → Wg) : (s.onWg uid f).mem = s.mem := rfl
@[simp] theorem State.onWg_memPoison (s : State) (uid : Nat) (f : Wg → Wg) : (s.onWg uid f).memPoison = s.memPoison := rfl
@[simp] theorem State.onWg_acc (s : State) (uid : Nat) (f : Wg → Wg) : (s.onWg uid f).acc = s.acc := rfl
@[simp] theorem State.onWg_accPoison (s : State) (uid : Nat) (f : Wg → Wg) : (s.onWg uid f).accPoison = s.accPoison := rfl
@[simp] theorem State.onWg_wgs (s : State) (uid : Nat) (f : Wg → Wg) : (s.onWg uid f).wgs = s.wgs.map fun w => if w.uid = uid then f w else w := rfl
@[simp] theorem State.onWg_runs (s : State) (uid : Nat) (f : Wg → Wg) : (s.onWg uid f).runs = s.runs := rfl
@[simp] theorem State.onWg_entries (s : State) (uid : Nat) (f : Wg → Wg) : (s.onWg uid f).entries = s.entries := rfl
@[simp] theorem State.onWg_logPend (s : State) (uid : Nat) (f : Wg → Wg) : (s.onWg uid f).logPend = s.logPend := rfl
@[simp] theorem State.onWg_flights (s : State) (uid : Nat) (f : Wg → Wg) : (s.onWg uid f).flights = s.flights := rfl
@[simp] theorem State.onWg_l1 (s : State) (uid : Nat) (f : Wg → Wg) : (s.onWg uid f).l1 = s.l1 := rfl
@[simp] theorem State.onWg_owner (s : State) (uid : Nat) (f : Wg → Wg) : (s.onWg uid f).owner = s.owner := rfl
@[simp] theorem State.onWg_barriers (s : State) (uid : Nat) (f : Wg → Wg) : (s.onWg uid f).barriers = s.barriers := rfl
@[simp] theorem State.onWg_copies (s : State) (uid : Nat) (f : Wg → Wg) : (s.onWg uid f).copies = s.copies := rfl
@[simp] theorem State.onWg_inbound (s : State) (uid : Nat) (f : Wg → Wg) : (s.onWg uid f).inbound = s.inbound := rfl
@[simp] theorem State.onWg_score (s : State) (uid : Nat) (f : Wg → Wg) : (s.onWg uid f).score = s.score := rfl
@[simp] theorem State.onWg_matops (s : State) (uid : Nat) (f : Wg → Wg) : (s.onWg uid f).matops = s.matops := rfl
@[simp] theorem State.onWg_colls (s : State) (uid : Nat) (f : Wg → Wg) : (s.onWg uid f).colls = s.colls := rfl
@[simp] theorem State.onWg_slots (s : State) (uid : Nat) (f : Wg → Wg) : (s.onWg uid f).slots = s.slots := rfl
@[simp] theorem State.onWg_tlb (s : State) (uid : Nat) (f : Wg → Wg) : (s.onWg uid f).tlb = s.tlb := rfl
@[simp] theorem State.onWg_watches (s : State) (uid : Nat) (f : Wg → Wg) : (s.onWg uid f).watches = s.watches := rfl
@[simp] theorem State.onWg_reserved (s : State) (uid : Nat) (f : Wg → Wg) : (s.onWg uid f).reserved = s.reserved := rfl
@[simp] theorem State.onWg_gangs (s : State) (uid : Nat) (f : Wg → Wg) : (s.onWg uid f).gangs = s.gangs := rfl
@[simp] theorem State.onWg_launches (s : State) (uid : Nat) (f : Wg → Wg) : (s.onWg uid f).launches = s.launches := rfl
@[simp] theorem State.onWg_launchSeq (s : State) (uid : Nat) (f : Wg → Wg) : (s.onWg uid f).launchSeq = s.launchSeq := rfl
@[simp] theorem State.onWg_queues (s : State) (uid : Nat) (f : Wg → Wg) : (s.onWg uid f).queues = s.queues := rfl
@[simp] theorem State.onWg_fot (s : State) (uid : Nat) (f : Wg → Wg) : (s.onWg uid f).fot = s.fot := rfl
@[simp] theorem State.onWg_extents (s : State) (uid : Nat) (f : Wg → Wg) : (s.onWg uid f).extents = s.extents := rfl
@[simp] theorem State.onWg_tags (s : State) (uid : Nat) (f : Wg → Wg) : (s.onWg uid f).tags = s.tags := rfl
@[simp] theorem State.onWg_seizures (s : State) (uid : Nat) (f : Wg → Wg) : (s.onWg uid f).seizures = s.seizures := rfl
@[simp] theorem State.onWg_gens (s : State) (uid : Nat) (f : Wg → Wg) : (s.onWg uid f).gens = s.gens := rfl
@[simp] theorem State.onWg_tenants (s : State) (uid : Nat) (f : Wg → Wg) : (s.onWg uid f).tenants = s.tenants := rfl
@[simp] theorem State.onWg_pendDebug (s : State) (uid : Nat) (f : Wg → Wg) : (s.onWg uid f).pendDebug = s.pendDebug := rfl
@[simp] theorem State.onWg_quieting (s : State) (uid : Nat) (f : Wg → Wg) : (s.onWg uid f).quieting = s.quieting := rfl
@[simp] theorem State.onWg_cfg (s : State) (uid : Nat) (f : Wg → Wg) : (s.onWg uid f).cfg = s.cfg := rfl
@[simp] theorem State.onWg_calActive (s : State) (uid : Nat) (f : Wg → Wg) : (s.onWg uid f).calActive = s.calActive := rfl
@[simp] theorem State.onWg_resetLocked (s : State) (uid : Nat) (f : Wg → Wg) : (s.onWg uid f).resetLocked = s.resetLocked := rfl
@[simp] theorem State.onWg_buckets (s : State) (uid : Nat) (f : Wg → Wg) : (s.onWg uid f).buckets = s.buckets := rfl
@[simp] theorem State.onWg_deficit (s : State) (uid : Nat) (f : Wg → Wg) : (s.onWg uid f).deficit = s.deficit := rfl
@[simp] theorem State.onWg_comparators (s : State) (uid : Nat) (f : Wg → Wg) : (s.onWg uid f).comparators = s.comparators := rfl
@[simp] theorem State.onWg_stepping (s : State) (uid : Nat) (f : Wg → Wg) : (s.onWg uid f).stepping = s.stepping := rfl
@[simp] theorem State.onWg_lastScan (s : State) (uid : Nat) (f : Wg → Wg) : (s.onWg uid f).lastScan = s.lastScan := rfl
@[simp] theorem State.onWg_scanReported (s : State) (uid : Nat) (f : Wg → Wg) : (s.onWg uid f).scanReported = s.scanReported := rfl
@[simp] theorem State.onWg_frozen (s : State) (uid : Nat) (f : Wg → Wg) : (s.onWg uid f).frozen = s.frozen := rfl
@[simp] theorem State.onWg_slice (s : State) (uid : Nat) (f : Wg → Wg) : (s.onWg uid f).slice = s.slice := rfl
@[simp] theorem State.onWg_keySlots (s : State) (uid : Nat) (f : Wg → Wg) : (s.onWg uid f).keySlots = s.keySlots := rfl
@[simp] theorem State.onWg_revoked (s : State) (uid : Nat) (f : Wg → Wg) : (s.onWg uid f).revoked = s.revoked := rfl
@[simp] theorem State.onWg_epochs (s : State) (uid : Nat) (f : Wg → Wg) : (s.onWg uid f).epochs = s.epochs := rfl
@[simp] theorem State.onWg_consumed (s : State) (uid : Nat) (f : Wg → Wg) : (s.onWg uid f).consumed = s.consumed := rfl
@[simp] theorem State.onWg_sealedCtxs (s : State) (uid : Nat) (f : Wg → Wg) : (s.onWg uid f).sealedCtxs = s.sealedCtxs := rfl
@[simp] theorem State.onWg_errSeq (s : State) (uid : Nat) (f : Wg → Wg) : (s.onWg uid f).errSeq = s.errSeq := rfl
@[simp] theorem State.onWg_outbox (s : State) (uid : Nat) (f : Wg → Wg) : (s.onWg uid f).outbox = s.outbox := rfl
@[simp] theorem State.onWg_island (s : State) (uid : Nat) (f : Wg → Wg) : (s.onWg uid f).island = s.island := rfl
@[simp] theorem State.onWg_booting (s : State) (uid : Nat) (f : Wg → Wg) : (s.onWg uid f).booting = s.booting := rfl
@[simp] theorem State.onWg_imageSlot (s : State) (uid : Nat) (f : Wg → Wg) : (s.onWg uid f).imageSlot = s.imageSlot := rfl
@[simp] theorem State.onWg_fused (s : State) (uid : Nat) (f : Wg → Wg) : (s.onWg uid f).fused = s.fused := rfl
@[simp] theorem State.onWg_quoting (s : State) (uid : Nat) (f : Wg → Wg) : (s.onWg uid f).quoting = s.quoting := rfl
@[simp] theorem State.onWg_quoted (s : State) (uid : Nat) (f : Wg → Wg) : (s.onWg uid f).quoted = s.quoted := rfl
@[simp] theorem State.onWg_agreed (s : State) (uid : Nat) (f : Wg → Wg) : (s.onWg uid f).agreed = s.agreed := rfl
@[simp] theorem State.onWg_mail (s : State) (uid : Nat) (f : Wg → Wg) : (s.onWg uid f).mail = s.mail := rfl
@[simp] theorem State.onWg_die0 (s : State) (uid : Nat) (f : Wg → Wg) : (s.onWg uid f).die0 = s.die0 := rfl
@[simp] theorem State.onWg_die1 (s : State) (uid : Nat) (f : Wg → Wg) : (s.onWg uid f).die1 = s.die1 := rfl
@[simp] theorem State.onWg_powerLimit (s : State) (uid : Nat) (f : Wg → Wg) : (s.onWg uid f).powerLimit = s.powerLimit := rfl
@[simp] theorem State.onWg_ns (s : State) (uid : Nat) (f : Wg → Wg) : (s.onWg uid f).ns = s.ns := rfl
@[simp] theorem State.onWg_routesLoaded (s : State) (uid : Nat) (f : Wg → Wg) : (s.onWg uid f).routesLoaded = s.routesLoaded := rfl
@[simp] theorem State.onWg_linkUp (s : State) (uid : Nat) (f : Wg → Wg) : (s.onWg uid f).linkUp = s.linkUp := rfl
@[simp] theorem State.onWg_stopped (s : State) (uid : Nat) (f : Wg → Wg) : (s.onWg uid f).stopped = s.stopped := rfl
@[simp] theorem State.onWg_stopsSent (s : State) (uid : Nat) (f : Wg → Wg) : (s.onWg uid f).stopsSent = s.stopsSent := rfl
@[simp] theorem State.onWg_buffered (s : State) (uid : Nat) (f : Wg → Wg) : (s.onWg uid f).buffered = s.buffered := rfl
@[simp] theorem State.onWg_lostRoutes (s : State) (uid : Nat) (f : Wg → Wg) : (s.onWg uid f).lostRoutes = s.lostRoutes := rfl
@[simp] theorem State.onWg_absentDevs (s : State) (uid : Nat) (f : Wg → Wg) : (s.onWg uid f).absentDevs = s.absentDevs := rfl
@[simp] theorem State.onWg_remoteOwn (s : State) (uid : Nat) (f : Wg → Wg) : (s.onWg uid f).remoteOwn = s.remoteOwn := rfl
@[simp] theorem State.onWg_podRegs (s : State) (uid : Nat) (f : Wg → Wg) : (s.onWg uid f).podRegs = s.podRegs := rfl
@[simp] theorem State.onWg_windows (s : State) (uid : Nat) (f : Wg → Wg) : (s.onWg uid f).windows = s.windows := rfl
@[simp] theorem State.onWg_sessions (s : State) (uid : Nat) (f : Wg → Wg) : (s.onWg uid f).sessions = s.sessions := rfl
@[simp] theorem State.onWg_agenda (s : State) (uid : Nat) (f : Wg → Wg) : (s.onWg uid f).agenda = s.agenda := rfl
@[simp] theorem State.onWg_freeCtr (s : State) (uid : Nat) (f : Wg → Wg) : (s.onWg uid f).freeCtr = s.freeCtr := rfl
@[simp] theorem State.onWg_nextId (s : State) (uid : Nat) (f : Wg → Wg) : (s.onWg uid f).nextId = s.nextId := rfl

/-! ### `State.onThread` -/

@[simp] theorem State.onThread_mem (s : State) (uid tid : Nat) (f : Thread → Thread) : (s.onThread uid tid f).mem = s.mem := rfl
@[simp] theorem State.onThread_memPoison (s : State) (uid tid : Nat) (f : Thread → Thread) : (s.onThread uid tid f).memPoison = s.memPoison := rfl
@[simp] theorem State.onThread_acc (s : State) (uid tid : Nat) (f : Thread → Thread) : (s.onThread uid tid f).acc = s.acc := rfl
@[simp] theorem State.onThread_accPoison (s : State) (uid tid : Nat) (f : Thread → Thread) : (s.onThread uid tid f).accPoison = s.accPoison := rfl
@[simp] theorem State.onThread_wgs (s : State) (uid tid : Nat) (f : Thread → Thread) : (s.onThread uid tid f).wgs = s.wgs.map fun w => if w.uid = uid then w.onThread tid f else w := rfl
@[simp] theorem State.onThread_runs (s : State) (uid tid : Nat) (f : Thread → Thread) : (s.onThread uid tid f).runs = s.runs := rfl
@[simp] theorem State.onThread_entries (s : State) (uid tid : Nat) (f : Thread → Thread) : (s.onThread uid tid f).entries = s.entries := rfl
@[simp] theorem State.onThread_logPend (s : State) (uid tid : Nat) (f : Thread → Thread) : (s.onThread uid tid f).logPend = s.logPend := rfl
@[simp] theorem State.onThread_flights (s : State) (uid tid : Nat) (f : Thread → Thread) : (s.onThread uid tid f).flights = s.flights := rfl
@[simp] theorem State.onThread_l1 (s : State) (uid tid : Nat) (f : Thread → Thread) : (s.onThread uid tid f).l1 = s.l1 := rfl
@[simp] theorem State.onThread_owner (s : State) (uid tid : Nat) (f : Thread → Thread) : (s.onThread uid tid f).owner = s.owner := rfl
@[simp] theorem State.onThread_barriers (s : State) (uid tid : Nat) (f : Thread → Thread) : (s.onThread uid tid f).barriers = s.barriers := rfl
@[simp] theorem State.onThread_copies (s : State) (uid tid : Nat) (f : Thread → Thread) : (s.onThread uid tid f).copies = s.copies := rfl
@[simp] theorem State.onThread_inbound (s : State) (uid tid : Nat) (f : Thread → Thread) : (s.onThread uid tid f).inbound = s.inbound := rfl
@[simp] theorem State.onThread_score (s : State) (uid tid : Nat) (f : Thread → Thread) : (s.onThread uid tid f).score = s.score := rfl
@[simp] theorem State.onThread_matops (s : State) (uid tid : Nat) (f : Thread → Thread) : (s.onThread uid tid f).matops = s.matops := rfl
@[simp] theorem State.onThread_colls (s : State) (uid tid : Nat) (f : Thread → Thread) : (s.onThread uid tid f).colls = s.colls := rfl
@[simp] theorem State.onThread_slots (s : State) (uid tid : Nat) (f : Thread → Thread) : (s.onThread uid tid f).slots = s.slots := rfl
@[simp] theorem State.onThread_tlb (s : State) (uid tid : Nat) (f : Thread → Thread) : (s.onThread uid tid f).tlb = s.tlb := rfl
@[simp] theorem State.onThread_watches (s : State) (uid tid : Nat) (f : Thread → Thread) : (s.onThread uid tid f).watches = s.watches := rfl
@[simp] theorem State.onThread_reserved (s : State) (uid tid : Nat) (f : Thread → Thread) : (s.onThread uid tid f).reserved = s.reserved := rfl
@[simp] theorem State.onThread_gangs (s : State) (uid tid : Nat) (f : Thread → Thread) : (s.onThread uid tid f).gangs = s.gangs := rfl
@[simp] theorem State.onThread_launches (s : State) (uid tid : Nat) (f : Thread → Thread) : (s.onThread uid tid f).launches = s.launches := rfl
@[simp] theorem State.onThread_launchSeq (s : State) (uid tid : Nat) (f : Thread → Thread) : (s.onThread uid tid f).launchSeq = s.launchSeq := rfl
@[simp] theorem State.onThread_queues (s : State) (uid tid : Nat) (f : Thread → Thread) : (s.onThread uid tid f).queues = s.queues := rfl
@[simp] theorem State.onThread_fot (s : State) (uid tid : Nat) (f : Thread → Thread) : (s.onThread uid tid f).fot = s.fot := rfl
@[simp] theorem State.onThread_extents (s : State) (uid tid : Nat) (f : Thread → Thread) : (s.onThread uid tid f).extents = s.extents := rfl
@[simp] theorem State.onThread_tags (s : State) (uid tid : Nat) (f : Thread → Thread) : (s.onThread uid tid f).tags = s.tags := rfl
@[simp] theorem State.onThread_seizures (s : State) (uid tid : Nat) (f : Thread → Thread) : (s.onThread uid tid f).seizures = s.seizures := rfl
@[simp] theorem State.onThread_gens (s : State) (uid tid : Nat) (f : Thread → Thread) : (s.onThread uid tid f).gens = s.gens := rfl
@[simp] theorem State.onThread_tenants (s : State) (uid tid : Nat) (f : Thread → Thread) : (s.onThread uid tid f).tenants = s.tenants := rfl
@[simp] theorem State.onThread_pendDebug (s : State) (uid tid : Nat) (f : Thread → Thread) : (s.onThread uid tid f).pendDebug = s.pendDebug := rfl
@[simp] theorem State.onThread_quieting (s : State) (uid tid : Nat) (f : Thread → Thread) : (s.onThread uid tid f).quieting = s.quieting := rfl
@[simp] theorem State.onThread_cfg (s : State) (uid tid : Nat) (f : Thread → Thread) : (s.onThread uid tid f).cfg = s.cfg := rfl
@[simp] theorem State.onThread_calActive (s : State) (uid tid : Nat) (f : Thread → Thread) : (s.onThread uid tid f).calActive = s.calActive := rfl
@[simp] theorem State.onThread_resetLocked (s : State) (uid tid : Nat) (f : Thread → Thread) : (s.onThread uid tid f).resetLocked = s.resetLocked := rfl
@[simp] theorem State.onThread_buckets (s : State) (uid tid : Nat) (f : Thread → Thread) : (s.onThread uid tid f).buckets = s.buckets := rfl
@[simp] theorem State.onThread_deficit (s : State) (uid tid : Nat) (f : Thread → Thread) : (s.onThread uid tid f).deficit = s.deficit := rfl
@[simp] theorem State.onThread_comparators (s : State) (uid tid : Nat) (f : Thread → Thread) : (s.onThread uid tid f).comparators = s.comparators := rfl
@[simp] theorem State.onThread_stepping (s : State) (uid tid : Nat) (f : Thread → Thread) : (s.onThread uid tid f).stepping = s.stepping := rfl
@[simp] theorem State.onThread_lastScan (s : State) (uid tid : Nat) (f : Thread → Thread) : (s.onThread uid tid f).lastScan = s.lastScan := rfl
@[simp] theorem State.onThread_scanReported (s : State) (uid tid : Nat) (f : Thread → Thread) : (s.onThread uid tid f).scanReported = s.scanReported := rfl
@[simp] theorem State.onThread_frozen (s : State) (uid tid : Nat) (f : Thread → Thread) : (s.onThread uid tid f).frozen = s.frozen := rfl
@[simp] theorem State.onThread_slice (s : State) (uid tid : Nat) (f : Thread → Thread) : (s.onThread uid tid f).slice = s.slice := rfl
@[simp] theorem State.onThread_keySlots (s : State) (uid tid : Nat) (f : Thread → Thread) : (s.onThread uid tid f).keySlots = s.keySlots := rfl
@[simp] theorem State.onThread_revoked (s : State) (uid tid : Nat) (f : Thread → Thread) : (s.onThread uid tid f).revoked = s.revoked := rfl
@[simp] theorem State.onThread_epochs (s : State) (uid tid : Nat) (f : Thread → Thread) : (s.onThread uid tid f).epochs = s.epochs := rfl
@[simp] theorem State.onThread_consumed (s : State) (uid tid : Nat) (f : Thread → Thread) : (s.onThread uid tid f).consumed = s.consumed := rfl
@[simp] theorem State.onThread_sealedCtxs (s : State) (uid tid : Nat) (f : Thread → Thread) : (s.onThread uid tid f).sealedCtxs = s.sealedCtxs := rfl
@[simp] theorem State.onThread_errSeq (s : State) (uid tid : Nat) (f : Thread → Thread) : (s.onThread uid tid f).errSeq = s.errSeq := rfl
@[simp] theorem State.onThread_outbox (s : State) (uid tid : Nat) (f : Thread → Thread) : (s.onThread uid tid f).outbox = s.outbox := rfl
@[simp] theorem State.onThread_island (s : State) (uid tid : Nat) (f : Thread → Thread) : (s.onThread uid tid f).island = s.island := rfl
@[simp] theorem State.onThread_booting (s : State) (uid tid : Nat) (f : Thread → Thread) : (s.onThread uid tid f).booting = s.booting := rfl
@[simp] theorem State.onThread_imageSlot (s : State) (uid tid : Nat) (f : Thread → Thread) : (s.onThread uid tid f).imageSlot = s.imageSlot := rfl
@[simp] theorem State.onThread_fused (s : State) (uid tid : Nat) (f : Thread → Thread) : (s.onThread uid tid f).fused = s.fused := rfl
@[simp] theorem State.onThread_quoting (s : State) (uid tid : Nat) (f : Thread → Thread) : (s.onThread uid tid f).quoting = s.quoting := rfl
@[simp] theorem State.onThread_quoted (s : State) (uid tid : Nat) (f : Thread → Thread) : (s.onThread uid tid f).quoted = s.quoted := rfl
@[simp] theorem State.onThread_agreed (s : State) (uid tid : Nat) (f : Thread → Thread) : (s.onThread uid tid f).agreed = s.agreed := rfl
@[simp] theorem State.onThread_mail (s : State) (uid tid : Nat) (f : Thread → Thread) : (s.onThread uid tid f).mail = s.mail := rfl
@[simp] theorem State.onThread_die0 (s : State) (uid tid : Nat) (f : Thread → Thread) : (s.onThread uid tid f).die0 = s.die0 := rfl
@[simp] theorem State.onThread_die1 (s : State) (uid tid : Nat) (f : Thread → Thread) : (s.onThread uid tid f).die1 = s.die1 := rfl
@[simp] theorem State.onThread_powerLimit (s : State) (uid tid : Nat) (f : Thread → Thread) : (s.onThread uid tid f).powerLimit = s.powerLimit := rfl
@[simp] theorem State.onThread_ns (s : State) (uid tid : Nat) (f : Thread → Thread) : (s.onThread uid tid f).ns = s.ns := rfl
@[simp] theorem State.onThread_routesLoaded (s : State) (uid tid : Nat) (f : Thread → Thread) : (s.onThread uid tid f).routesLoaded = s.routesLoaded := rfl
@[simp] theorem State.onThread_linkUp (s : State) (uid tid : Nat) (f : Thread → Thread) : (s.onThread uid tid f).linkUp = s.linkUp := rfl
@[simp] theorem State.onThread_stopped (s : State) (uid tid : Nat) (f : Thread → Thread) : (s.onThread uid tid f).stopped = s.stopped := rfl
@[simp] theorem State.onThread_stopsSent (s : State) (uid tid : Nat) (f : Thread → Thread) : (s.onThread uid tid f).stopsSent = s.stopsSent := rfl
@[simp] theorem State.onThread_buffered (s : State) (uid tid : Nat) (f : Thread → Thread) : (s.onThread uid tid f).buffered = s.buffered := rfl
@[simp] theorem State.onThread_lostRoutes (s : State) (uid tid : Nat) (f : Thread → Thread) : (s.onThread uid tid f).lostRoutes = s.lostRoutes := rfl
@[simp] theorem State.onThread_absentDevs (s : State) (uid tid : Nat) (f : Thread → Thread) : (s.onThread uid tid f).absentDevs = s.absentDevs := rfl
@[simp] theorem State.onThread_remoteOwn (s : State) (uid tid : Nat) (f : Thread → Thread) : (s.onThread uid tid f).remoteOwn = s.remoteOwn := rfl
@[simp] theorem State.onThread_podRegs (s : State) (uid tid : Nat) (f : Thread → Thread) : (s.onThread uid tid f).podRegs = s.podRegs := rfl
@[simp] theorem State.onThread_windows (s : State) (uid tid : Nat) (f : Thread → Thread) : (s.onThread uid tid f).windows = s.windows := rfl
@[simp] theorem State.onThread_sessions (s : State) (uid tid : Nat) (f : Thread → Thread) : (s.onThread uid tid f).sessions = s.sessions := rfl
@[simp] theorem State.onThread_agenda (s : State) (uid tid : Nat) (f : Thread → Thread) : (s.onThread uid tid f).agenda = s.agenda := rfl
@[simp] theorem State.onThread_freeCtr (s : State) (uid tid : Nat) (f : Thread → Thread) : (s.onThread uid tid f).freeCtr = s.freeCtr := rfl
@[simp] theorem State.onThread_nextId (s : State) (uid tid : Nat) (f : Thread → Thread) : (s.onThread uid tid f).nextId = s.nextId := rfl

/-! ### `State.onLaunch` -/

@[simp] theorem State.onLaunch_mem (s : State) (l : Nat) (f : Launch → Launch) : (s.onLaunch l f).mem = s.mem := rfl
@[simp] theorem State.onLaunch_memPoison (s : State) (l : Nat) (f : Launch → Launch) : (s.onLaunch l f).memPoison = s.memPoison := rfl
@[simp] theorem State.onLaunch_acc (s : State) (l : Nat) (f : Launch → Launch) : (s.onLaunch l f).acc = s.acc := rfl
@[simp] theorem State.onLaunch_accPoison (s : State) (l : Nat) (f : Launch → Launch) : (s.onLaunch l f).accPoison = s.accPoison := rfl
@[simp] theorem State.onLaunch_wgs (s : State) (l : Nat) (f : Launch → Launch) : (s.onLaunch l f).wgs = s.wgs := rfl
@[simp] theorem State.onLaunch_runs (s : State) (l : Nat) (f : Launch → Launch) : (s.onLaunch l f).runs = s.runs := rfl
@[simp] theorem State.onLaunch_entries (s : State) (l : Nat) (f : Launch → Launch) : (s.onLaunch l f).entries = s.entries := rfl
@[simp] theorem State.onLaunch_logPend (s : State) (l : Nat) (f : Launch → Launch) : (s.onLaunch l f).logPend = s.logPend := rfl
@[simp] theorem State.onLaunch_flights (s : State) (l : Nat) (f : Launch → Launch) : (s.onLaunch l f).flights = s.flights := rfl
@[simp] theorem State.onLaunch_l1 (s : State) (l : Nat) (f : Launch → Launch) : (s.onLaunch l f).l1 = s.l1 := rfl
@[simp] theorem State.onLaunch_owner (s : State) (l : Nat) (f : Launch → Launch) : (s.onLaunch l f).owner = s.owner := rfl
@[simp] theorem State.onLaunch_barriers (s : State) (l : Nat) (f : Launch → Launch) : (s.onLaunch l f).barriers = s.barriers := rfl
@[simp] theorem State.onLaunch_copies (s : State) (l : Nat) (f : Launch → Launch) : (s.onLaunch l f).copies = s.copies := rfl
@[simp] theorem State.onLaunch_inbound (s : State) (l : Nat) (f : Launch → Launch) : (s.onLaunch l f).inbound = s.inbound := rfl
@[simp] theorem State.onLaunch_score (s : State) (l : Nat) (f : Launch → Launch) : (s.onLaunch l f).score = s.score := rfl
@[simp] theorem State.onLaunch_matops (s : State) (l : Nat) (f : Launch → Launch) : (s.onLaunch l f).matops = s.matops := rfl
@[simp] theorem State.onLaunch_colls (s : State) (l : Nat) (f : Launch → Launch) : (s.onLaunch l f).colls = s.colls := rfl
@[simp] theorem State.onLaunch_slots (s : State) (l : Nat) (f : Launch → Launch) : (s.onLaunch l f).slots = s.slots := rfl
@[simp] theorem State.onLaunch_tlb (s : State) (l : Nat) (f : Launch → Launch) : (s.onLaunch l f).tlb = s.tlb := rfl
@[simp] theorem State.onLaunch_watches (s : State) (l : Nat) (f : Launch → Launch) : (s.onLaunch l f).watches = s.watches := rfl
@[simp] theorem State.onLaunch_reserved (s : State) (l : Nat) (f : Launch → Launch) : (s.onLaunch l f).reserved = s.reserved := rfl
@[simp] theorem State.onLaunch_gangs (s : State) (l : Nat) (f : Launch → Launch) : (s.onLaunch l f).gangs = s.gangs := rfl
@[simp] theorem State.onLaunch_launches (s : State) (l : Nat) (f : Launch → Launch) : (s.onLaunch l f).launches = s.launches.map fun x => if x.id = l then f x else x := rfl
@[simp] theorem State.onLaunch_launchSeq (s : State) (l : Nat) (f : Launch → Launch) : (s.onLaunch l f).launchSeq = s.launchSeq := rfl
@[simp] theorem State.onLaunch_queues (s : State) (l : Nat) (f : Launch → Launch) : (s.onLaunch l f).queues = s.queues := rfl
@[simp] theorem State.onLaunch_fot (s : State) (l : Nat) (f : Launch → Launch) : (s.onLaunch l f).fot = s.fot := rfl
@[simp] theorem State.onLaunch_extents (s : State) (l : Nat) (f : Launch → Launch) : (s.onLaunch l f).extents = s.extents := rfl
@[simp] theorem State.onLaunch_tags (s : State) (l : Nat) (f : Launch → Launch) : (s.onLaunch l f).tags = s.tags := rfl
@[simp] theorem State.onLaunch_seizures (s : State) (l : Nat) (f : Launch → Launch) : (s.onLaunch l f).seizures = s.seizures := rfl
@[simp] theorem State.onLaunch_gens (s : State) (l : Nat) (f : Launch → Launch) : (s.onLaunch l f).gens = s.gens := rfl
@[simp] theorem State.onLaunch_tenants (s : State) (l : Nat) (f : Launch → Launch) : (s.onLaunch l f).tenants = s.tenants := rfl
@[simp] theorem State.onLaunch_pendDebug (s : State) (l : Nat) (f : Launch → Launch) : (s.onLaunch l f).pendDebug = s.pendDebug := rfl
@[simp] theorem State.onLaunch_quieting (s : State) (l : Nat) (f : Launch → Launch) : (s.onLaunch l f).quieting = s.quieting := rfl
@[simp] theorem State.onLaunch_cfg (s : State) (l : Nat) (f : Launch → Launch) : (s.onLaunch l f).cfg = s.cfg := rfl
@[simp] theorem State.onLaunch_calActive (s : State) (l : Nat) (f : Launch → Launch) : (s.onLaunch l f).calActive = s.calActive := rfl
@[simp] theorem State.onLaunch_resetLocked (s : State) (l : Nat) (f : Launch → Launch) : (s.onLaunch l f).resetLocked = s.resetLocked := rfl
@[simp] theorem State.onLaunch_buckets (s : State) (l : Nat) (f : Launch → Launch) : (s.onLaunch l f).buckets = s.buckets := rfl
@[simp] theorem State.onLaunch_deficit (s : State) (l : Nat) (f : Launch → Launch) : (s.onLaunch l f).deficit = s.deficit := rfl
@[simp] theorem State.onLaunch_comparators (s : State) (l : Nat) (f : Launch → Launch) : (s.onLaunch l f).comparators = s.comparators := rfl
@[simp] theorem State.onLaunch_stepping (s : State) (l : Nat) (f : Launch → Launch) : (s.onLaunch l f).stepping = s.stepping := rfl
@[simp] theorem State.onLaunch_lastScan (s : State) (l : Nat) (f : Launch → Launch) : (s.onLaunch l f).lastScan = s.lastScan := rfl
@[simp] theorem State.onLaunch_scanReported (s : State) (l : Nat) (f : Launch → Launch) : (s.onLaunch l f).scanReported = s.scanReported := rfl
@[simp] theorem State.onLaunch_frozen (s : State) (l : Nat) (f : Launch → Launch) : (s.onLaunch l f).frozen = s.frozen := rfl
@[simp] theorem State.onLaunch_slice (s : State) (l : Nat) (f : Launch → Launch) : (s.onLaunch l f).slice = s.slice := rfl
@[simp] theorem State.onLaunch_keySlots (s : State) (l : Nat) (f : Launch → Launch) : (s.onLaunch l f).keySlots = s.keySlots := rfl
@[simp] theorem State.onLaunch_revoked (s : State) (l : Nat) (f : Launch → Launch) : (s.onLaunch l f).revoked = s.revoked := rfl
@[simp] theorem State.onLaunch_epochs (s : State) (l : Nat) (f : Launch → Launch) : (s.onLaunch l f).epochs = s.epochs := rfl
@[simp] theorem State.onLaunch_consumed (s : State) (l : Nat) (f : Launch → Launch) : (s.onLaunch l f).consumed = s.consumed := rfl
@[simp] theorem State.onLaunch_sealedCtxs (s : State) (l : Nat) (f : Launch → Launch) : (s.onLaunch l f).sealedCtxs = s.sealedCtxs := rfl
@[simp] theorem State.onLaunch_errSeq (s : State) (l : Nat) (f : Launch → Launch) : (s.onLaunch l f).errSeq = s.errSeq := rfl
@[simp] theorem State.onLaunch_outbox (s : State) (l : Nat) (f : Launch → Launch) : (s.onLaunch l f).outbox = s.outbox := rfl
@[simp] theorem State.onLaunch_island (s : State) (l : Nat) (f : Launch → Launch) : (s.onLaunch l f).island = s.island := rfl
@[simp] theorem State.onLaunch_booting (s : State) (l : Nat) (f : Launch → Launch) : (s.onLaunch l f).booting = s.booting := rfl
@[simp] theorem State.onLaunch_imageSlot (s : State) (l : Nat) (f : Launch → Launch) : (s.onLaunch l f).imageSlot = s.imageSlot := rfl
@[simp] theorem State.onLaunch_fused (s : State) (l : Nat) (f : Launch → Launch) : (s.onLaunch l f).fused = s.fused := rfl
@[simp] theorem State.onLaunch_quoting (s : State) (l : Nat) (f : Launch → Launch) : (s.onLaunch l f).quoting = s.quoting := rfl
@[simp] theorem State.onLaunch_quoted (s : State) (l : Nat) (f : Launch → Launch) : (s.onLaunch l f).quoted = s.quoted := rfl
@[simp] theorem State.onLaunch_agreed (s : State) (l : Nat) (f : Launch → Launch) : (s.onLaunch l f).agreed = s.agreed := rfl
@[simp] theorem State.onLaunch_mail (s : State) (l : Nat) (f : Launch → Launch) : (s.onLaunch l f).mail = s.mail := rfl
@[simp] theorem State.onLaunch_die0 (s : State) (l : Nat) (f : Launch → Launch) : (s.onLaunch l f).die0 = s.die0 := rfl
@[simp] theorem State.onLaunch_die1 (s : State) (l : Nat) (f : Launch → Launch) : (s.onLaunch l f).die1 = s.die1 := rfl
@[simp] theorem State.onLaunch_powerLimit (s : State) (l : Nat) (f : Launch → Launch) : (s.onLaunch l f).powerLimit = s.powerLimit := rfl
@[simp] theorem State.onLaunch_ns (s : State) (l : Nat) (f : Launch → Launch) : (s.onLaunch l f).ns = s.ns := rfl
@[simp] theorem State.onLaunch_routesLoaded (s : State) (l : Nat) (f : Launch → Launch) : (s.onLaunch l f).routesLoaded = s.routesLoaded := rfl
@[simp] theorem State.onLaunch_linkUp (s : State) (l : Nat) (f : Launch → Launch) : (s.onLaunch l f).linkUp = s.linkUp := rfl
@[simp] theorem State.onLaunch_stopped (s : State) (l : Nat) (f : Launch → Launch) : (s.onLaunch l f).stopped = s.stopped := rfl
@[simp] theorem State.onLaunch_stopsSent (s : State) (l : Nat) (f : Launch → Launch) : (s.onLaunch l f).stopsSent = s.stopsSent := rfl
@[simp] theorem State.onLaunch_buffered (s : State) (l : Nat) (f : Launch → Launch) : (s.onLaunch l f).buffered = s.buffered := rfl
@[simp] theorem State.onLaunch_lostRoutes (s : State) (l : Nat) (f : Launch → Launch) : (s.onLaunch l f).lostRoutes = s.lostRoutes := rfl
@[simp] theorem State.onLaunch_absentDevs (s : State) (l : Nat) (f : Launch → Launch) : (s.onLaunch l f).absentDevs = s.absentDevs := rfl
@[simp] theorem State.onLaunch_remoteOwn (s : State) (l : Nat) (f : Launch → Launch) : (s.onLaunch l f).remoteOwn = s.remoteOwn := rfl
@[simp] theorem State.onLaunch_podRegs (s : State) (l : Nat) (f : Launch → Launch) : (s.onLaunch l f).podRegs = s.podRegs := rfl
@[simp] theorem State.onLaunch_windows (s : State) (l : Nat) (f : Launch → Launch) : (s.onLaunch l f).windows = s.windows := rfl
@[simp] theorem State.onLaunch_sessions (s : State) (l : Nat) (f : Launch → Launch) : (s.onLaunch l f).sessions = s.sessions := rfl
@[simp] theorem State.onLaunch_agenda (s : State) (l : Nat) (f : Launch → Launch) : (s.onLaunch l f).agenda = s.agenda := rfl
@[simp] theorem State.onLaunch_freeCtr (s : State) (l : Nat) (f : Launch → Launch) : (s.onLaunch l f).freeCtr = s.freeCtr := rfl
@[simp] theorem State.onLaunch_nextId (s : State) (l : Nat) (f : Launch → Launch) : (s.onLaunch l f).nextId = s.nextId := rfl

/-! ### `State.onGang` -/

@[simp] theorem State.onGang_mem (s : State) (g : Nat) (f : Gang → Gang) : (s.onGang g f).mem = s.mem := rfl
@[simp] theorem State.onGang_memPoison (s : State) (g : Nat) (f : Gang → Gang) : (s.onGang g f).memPoison = s.memPoison := rfl
@[simp] theorem State.onGang_acc (s : State) (g : Nat) (f : Gang → Gang) : (s.onGang g f).acc = s.acc := rfl
@[simp] theorem State.onGang_accPoison (s : State) (g : Nat) (f : Gang → Gang) : (s.onGang g f).accPoison = s.accPoison := rfl
@[simp] theorem State.onGang_wgs (s : State) (g : Nat) (f : Gang → Gang) : (s.onGang g f).wgs = s.wgs := rfl
@[simp] theorem State.onGang_runs (s : State) (g : Nat) (f : Gang → Gang) : (s.onGang g f).runs = s.runs := rfl
@[simp] theorem State.onGang_entries (s : State) (g : Nat) (f : Gang → Gang) : (s.onGang g f).entries = s.entries := rfl
@[simp] theorem State.onGang_logPend (s : State) (g : Nat) (f : Gang → Gang) : (s.onGang g f).logPend = s.logPend := rfl
@[simp] theorem State.onGang_flights (s : State) (g : Nat) (f : Gang → Gang) : (s.onGang g f).flights = s.flights := rfl
@[simp] theorem State.onGang_l1 (s : State) (g : Nat) (f : Gang → Gang) : (s.onGang g f).l1 = s.l1 := rfl
@[simp] theorem State.onGang_owner (s : State) (g : Nat) (f : Gang → Gang) : (s.onGang g f).owner = s.owner := rfl
@[simp] theorem State.onGang_barriers (s : State) (g : Nat) (f : Gang → Gang) : (s.onGang g f).barriers = s.barriers := rfl
@[simp] theorem State.onGang_copies (s : State) (g : Nat) (f : Gang → Gang) : (s.onGang g f).copies = s.copies := rfl
@[simp] theorem State.onGang_inbound (s : State) (g : Nat) (f : Gang → Gang) : (s.onGang g f).inbound = s.inbound := rfl
@[simp] theorem State.onGang_score (s : State) (g : Nat) (f : Gang → Gang) : (s.onGang g f).score = s.score := rfl
@[simp] theorem State.onGang_matops (s : State) (g : Nat) (f : Gang → Gang) : (s.onGang g f).matops = s.matops := rfl
@[simp] theorem State.onGang_colls (s : State) (g : Nat) (f : Gang → Gang) : (s.onGang g f).colls = s.colls := rfl
@[simp] theorem State.onGang_slots (s : State) (g : Nat) (f : Gang → Gang) : (s.onGang g f).slots = s.slots := rfl
@[simp] theorem State.onGang_tlb (s : State) (g : Nat) (f : Gang → Gang) : (s.onGang g f).tlb = s.tlb := rfl
@[simp] theorem State.onGang_watches (s : State) (g : Nat) (f : Gang → Gang) : (s.onGang g f).watches = s.watches := rfl
@[simp] theorem State.onGang_reserved (s : State) (g : Nat) (f : Gang → Gang) : (s.onGang g f).reserved = s.reserved := rfl
@[simp] theorem State.onGang_gangs (s : State) (g : Nat) (f : Gang → Gang) : (s.onGang g f).gangs = s.gangs.map fun x => if x.uid = g then f x else x := rfl
@[simp] theorem State.onGang_launches (s : State) (g : Nat) (f : Gang → Gang) : (s.onGang g f).launches = s.launches := rfl
@[simp] theorem State.onGang_launchSeq (s : State) (g : Nat) (f : Gang → Gang) : (s.onGang g f).launchSeq = s.launchSeq := rfl
@[simp] theorem State.onGang_queues (s : State) (g : Nat) (f : Gang → Gang) : (s.onGang g f).queues = s.queues := rfl
@[simp] theorem State.onGang_fot (s : State) (g : Nat) (f : Gang → Gang) : (s.onGang g f).fot = s.fot := rfl
@[simp] theorem State.onGang_extents (s : State) (g : Nat) (f : Gang → Gang) : (s.onGang g f).extents = s.extents := rfl
@[simp] theorem State.onGang_tags (s : State) (g : Nat) (f : Gang → Gang) : (s.onGang g f).tags = s.tags := rfl
@[simp] theorem State.onGang_seizures (s : State) (g : Nat) (f : Gang → Gang) : (s.onGang g f).seizures = s.seizures := rfl
@[simp] theorem State.onGang_gens (s : State) (g : Nat) (f : Gang → Gang) : (s.onGang g f).gens = s.gens := rfl
@[simp] theorem State.onGang_tenants (s : State) (g : Nat) (f : Gang → Gang) : (s.onGang g f).tenants = s.tenants := rfl
@[simp] theorem State.onGang_pendDebug (s : State) (g : Nat) (f : Gang → Gang) : (s.onGang g f).pendDebug = s.pendDebug := rfl
@[simp] theorem State.onGang_quieting (s : State) (g : Nat) (f : Gang → Gang) : (s.onGang g f).quieting = s.quieting := rfl
@[simp] theorem State.onGang_cfg (s : State) (g : Nat) (f : Gang → Gang) : (s.onGang g f).cfg = s.cfg := rfl
@[simp] theorem State.onGang_calActive (s : State) (g : Nat) (f : Gang → Gang) : (s.onGang g f).calActive = s.calActive := rfl
@[simp] theorem State.onGang_resetLocked (s : State) (g : Nat) (f : Gang → Gang) : (s.onGang g f).resetLocked = s.resetLocked := rfl
@[simp] theorem State.onGang_buckets (s : State) (g : Nat) (f : Gang → Gang) : (s.onGang g f).buckets = s.buckets := rfl
@[simp] theorem State.onGang_deficit (s : State) (g : Nat) (f : Gang → Gang) : (s.onGang g f).deficit = s.deficit := rfl
@[simp] theorem State.onGang_comparators (s : State) (g : Nat) (f : Gang → Gang) : (s.onGang g f).comparators = s.comparators := rfl
@[simp] theorem State.onGang_stepping (s : State) (g : Nat) (f : Gang → Gang) : (s.onGang g f).stepping = s.stepping := rfl
@[simp] theorem State.onGang_lastScan (s : State) (g : Nat) (f : Gang → Gang) : (s.onGang g f).lastScan = s.lastScan := rfl
@[simp] theorem State.onGang_scanReported (s : State) (g : Nat) (f : Gang → Gang) : (s.onGang g f).scanReported = s.scanReported := rfl
@[simp] theorem State.onGang_frozen (s : State) (g : Nat) (f : Gang → Gang) : (s.onGang g f).frozen = s.frozen := rfl
@[simp] theorem State.onGang_slice (s : State) (g : Nat) (f : Gang → Gang) : (s.onGang g f).slice = s.slice := rfl
@[simp] theorem State.onGang_keySlots (s : State) (g : Nat) (f : Gang → Gang) : (s.onGang g f).keySlots = s.keySlots := rfl
@[simp] theorem State.onGang_revoked (s : State) (g : Nat) (f : Gang → Gang) : (s.onGang g f).revoked = s.revoked := rfl
@[simp] theorem State.onGang_epochs (s : State) (g : Nat) (f : Gang → Gang) : (s.onGang g f).epochs = s.epochs := rfl
@[simp] theorem State.onGang_consumed (s : State) (g : Nat) (f : Gang → Gang) : (s.onGang g f).consumed = s.consumed := rfl
@[simp] theorem State.onGang_sealedCtxs (s : State) (g : Nat) (f : Gang → Gang) : (s.onGang g f).sealedCtxs = s.sealedCtxs := rfl
@[simp] theorem State.onGang_errSeq (s : State) (g : Nat) (f : Gang → Gang) : (s.onGang g f).errSeq = s.errSeq := rfl
@[simp] theorem State.onGang_outbox (s : State) (g : Nat) (f : Gang → Gang) : (s.onGang g f).outbox = s.outbox := rfl
@[simp] theorem State.onGang_island (s : State) (g : Nat) (f : Gang → Gang) : (s.onGang g f).island = s.island := rfl
@[simp] theorem State.onGang_booting (s : State) (g : Nat) (f : Gang → Gang) : (s.onGang g f).booting = s.booting := rfl
@[simp] theorem State.onGang_imageSlot (s : State) (g : Nat) (f : Gang → Gang) : (s.onGang g f).imageSlot = s.imageSlot := rfl
@[simp] theorem State.onGang_fused (s : State) (g : Nat) (f : Gang → Gang) : (s.onGang g f).fused = s.fused := rfl
@[simp] theorem State.onGang_quoting (s : State) (g : Nat) (f : Gang → Gang) : (s.onGang g f).quoting = s.quoting := rfl
@[simp] theorem State.onGang_quoted (s : State) (g : Nat) (f : Gang → Gang) : (s.onGang g f).quoted = s.quoted := rfl
@[simp] theorem State.onGang_agreed (s : State) (g : Nat) (f : Gang → Gang) : (s.onGang g f).agreed = s.agreed := rfl
@[simp] theorem State.onGang_mail (s : State) (g : Nat) (f : Gang → Gang) : (s.onGang g f).mail = s.mail := rfl
@[simp] theorem State.onGang_die0 (s : State) (g : Nat) (f : Gang → Gang) : (s.onGang g f).die0 = s.die0 := rfl
@[simp] theorem State.onGang_die1 (s : State) (g : Nat) (f : Gang → Gang) : (s.onGang g f).die1 = s.die1 := rfl
@[simp] theorem State.onGang_powerLimit (s : State) (g : Nat) (f : Gang → Gang) : (s.onGang g f).powerLimit = s.powerLimit := rfl
@[simp] theorem State.onGang_ns (s : State) (g : Nat) (f : Gang → Gang) : (s.onGang g f).ns = s.ns := rfl
@[simp] theorem State.onGang_routesLoaded (s : State) (g : Nat) (f : Gang → Gang) : (s.onGang g f).routesLoaded = s.routesLoaded := rfl
@[simp] theorem State.onGang_linkUp (s : State) (g : Nat) (f : Gang → Gang) : (s.onGang g f).linkUp = s.linkUp := rfl
@[simp] theorem State.onGang_stopped (s : State) (g : Nat) (f : Gang → Gang) : (s.onGang g f).stopped = s.stopped := rfl
@[simp] theorem State.onGang_stopsSent (s : State) (g : Nat) (f : Gang → Gang) : (s.onGang g f).stopsSent = s.stopsSent := rfl
@[simp] theorem State.onGang_buffered (s : State) (g : Nat) (f : Gang → Gang) : (s.onGang g f).buffered = s.buffered := rfl
@[simp] theorem State.onGang_lostRoutes (s : State) (g : Nat) (f : Gang → Gang) : (s.onGang g f).lostRoutes = s.lostRoutes := rfl
@[simp] theorem State.onGang_absentDevs (s : State) (g : Nat) (f : Gang → Gang) : (s.onGang g f).absentDevs = s.absentDevs := rfl
@[simp] theorem State.onGang_remoteOwn (s : State) (g : Nat) (f : Gang → Gang) : (s.onGang g f).remoteOwn = s.remoteOwn := rfl
@[simp] theorem State.onGang_podRegs (s : State) (g : Nat) (f : Gang → Gang) : (s.onGang g f).podRegs = s.podRegs := rfl
@[simp] theorem State.onGang_windows (s : State) (g : Nat) (f : Gang → Gang) : (s.onGang g f).windows = s.windows := rfl
@[simp] theorem State.onGang_sessions (s : State) (g : Nat) (f : Gang → Gang) : (s.onGang g f).sessions = s.sessions := rfl
@[simp] theorem State.onGang_agenda (s : State) (g : Nat) (f : Gang → Gang) : (s.onGang g f).agenda = s.agenda := rfl
@[simp] theorem State.onGang_freeCtr (s : State) (g : Nat) (f : Gang → Gang) : (s.onGang g f).freeCtr = s.freeCtr := rfl
@[simp] theorem State.onGang_nextId (s : State) (g : Nat) (f : Gang → Gang) : (s.onGang g f).nextId = s.nextId := rfl

/-! ### `State.onTenant` -/

@[simp] theorem State.onTenant_mem (s : State) (x : Tag) (f : Tenant → Tenant) : (s.onTenant x f).mem = s.mem := rfl
@[simp] theorem State.onTenant_memPoison (s : State) (x : Tag) (f : Tenant → Tenant) : (s.onTenant x f).memPoison = s.memPoison := rfl
@[simp] theorem State.onTenant_acc (s : State) (x : Tag) (f : Tenant → Tenant) : (s.onTenant x f).acc = s.acc := rfl
@[simp] theorem State.onTenant_accPoison (s : State) (x : Tag) (f : Tenant → Tenant) : (s.onTenant x f).accPoison = s.accPoison := rfl
@[simp] theorem State.onTenant_wgs (s : State) (x : Tag) (f : Tenant → Tenant) : (s.onTenant x f).wgs = s.wgs := rfl
@[simp] theorem State.onTenant_runs (s : State) (x : Tag) (f : Tenant → Tenant) : (s.onTenant x f).runs = s.runs := rfl
@[simp] theorem State.onTenant_entries (s : State) (x : Tag) (f : Tenant → Tenant) : (s.onTenant x f).entries = s.entries := rfl
@[simp] theorem State.onTenant_logPend (s : State) (x : Tag) (f : Tenant → Tenant) : (s.onTenant x f).logPend = s.logPend := rfl
@[simp] theorem State.onTenant_flights (s : State) (x : Tag) (f : Tenant → Tenant) : (s.onTenant x f).flights = s.flights := rfl
@[simp] theorem State.onTenant_l1 (s : State) (x : Tag) (f : Tenant → Tenant) : (s.onTenant x f).l1 = s.l1 := rfl
@[simp] theorem State.onTenant_owner (s : State) (x : Tag) (f : Tenant → Tenant) : (s.onTenant x f).owner = s.owner := rfl
@[simp] theorem State.onTenant_barriers (s : State) (x : Tag) (f : Tenant → Tenant) : (s.onTenant x f).barriers = s.barriers := rfl
@[simp] theorem State.onTenant_copies (s : State) (x : Tag) (f : Tenant → Tenant) : (s.onTenant x f).copies = s.copies := rfl
@[simp] theorem State.onTenant_inbound (s : State) (x : Tag) (f : Tenant → Tenant) : (s.onTenant x f).inbound = s.inbound := rfl
@[simp] theorem State.onTenant_score (s : State) (x : Tag) (f : Tenant → Tenant) : (s.onTenant x f).score = s.score := rfl
@[simp] theorem State.onTenant_matops (s : State) (x : Tag) (f : Tenant → Tenant) : (s.onTenant x f).matops = s.matops := rfl
@[simp] theorem State.onTenant_colls (s : State) (x : Tag) (f : Tenant → Tenant) : (s.onTenant x f).colls = s.colls := rfl
@[simp] theorem State.onTenant_slots (s : State) (x : Tag) (f : Tenant → Tenant) : (s.onTenant x f).slots = s.slots := rfl
@[simp] theorem State.onTenant_tlb (s : State) (x : Tag) (f : Tenant → Tenant) : (s.onTenant x f).tlb = s.tlb := rfl
@[simp] theorem State.onTenant_watches (s : State) (x : Tag) (f : Tenant → Tenant) : (s.onTenant x f).watches = s.watches := rfl
@[simp] theorem State.onTenant_reserved (s : State) (x : Tag) (f : Tenant → Tenant) : (s.onTenant x f).reserved = s.reserved := rfl
@[simp] theorem State.onTenant_gangs (s : State) (x : Tag) (f : Tenant → Tenant) : (s.onTenant x f).gangs = s.gangs := rfl
@[simp] theorem State.onTenant_launches (s : State) (x : Tag) (f : Tenant → Tenant) : (s.onTenant x f).launches = s.launches := rfl
@[simp] theorem State.onTenant_launchSeq (s : State) (x : Tag) (f : Tenant → Tenant) : (s.onTenant x f).launchSeq = s.launchSeq := rfl
@[simp] theorem State.onTenant_queues (s : State) (x : Tag) (f : Tenant → Tenant) : (s.onTenant x f).queues = s.queues := rfl
@[simp] theorem State.onTenant_fot (s : State) (x : Tag) (f : Tenant → Tenant) : (s.onTenant x f).fot = s.fot := rfl
@[simp] theorem State.onTenant_extents (s : State) (x : Tag) (f : Tenant → Tenant) : (s.onTenant x f).extents = s.extents := rfl
@[simp] theorem State.onTenant_tags (s : State) (x : Tag) (f : Tenant → Tenant) : (s.onTenant x f).tags = s.tags := rfl
@[simp] theorem State.onTenant_seizures (s : State) (x : Tag) (f : Tenant → Tenant) : (s.onTenant x f).seizures = s.seizures := rfl
@[simp] theorem State.onTenant_gens (s : State) (x : Tag) (f : Tenant → Tenant) : (s.onTenant x f).gens = s.gens := rfl
@[simp] theorem State.onTenant_tenants (s : State) (x : Tag) (f : Tenant → Tenant) : (s.onTenant x f).tenants = s.tenants.map fun y => if y.tag = x then f y else y := rfl
@[simp] theorem State.onTenant_pendDebug (s : State) (x : Tag) (f : Tenant → Tenant) : (s.onTenant x f).pendDebug = s.pendDebug := rfl
@[simp] theorem State.onTenant_quieting (s : State) (x : Tag) (f : Tenant → Tenant) : (s.onTenant x f).quieting = s.quieting := rfl
@[simp] theorem State.onTenant_cfg (s : State) (x : Tag) (f : Tenant → Tenant) : (s.onTenant x f).cfg = s.cfg := rfl
@[simp] theorem State.onTenant_calActive (s : State) (x : Tag) (f : Tenant → Tenant) : (s.onTenant x f).calActive = s.calActive := rfl
@[simp] theorem State.onTenant_resetLocked (s : State) (x : Tag) (f : Tenant → Tenant) : (s.onTenant x f).resetLocked = s.resetLocked := rfl
@[simp] theorem State.onTenant_buckets (s : State) (x : Tag) (f : Tenant → Tenant) : (s.onTenant x f).buckets = s.buckets := rfl
@[simp] theorem State.onTenant_deficit (s : State) (x : Tag) (f : Tenant → Tenant) : (s.onTenant x f).deficit = s.deficit := rfl
@[simp] theorem State.onTenant_comparators (s : State) (x : Tag) (f : Tenant → Tenant) : (s.onTenant x f).comparators = s.comparators := rfl
@[simp] theorem State.onTenant_stepping (s : State) (x : Tag) (f : Tenant → Tenant) : (s.onTenant x f).stepping = s.stepping := rfl
@[simp] theorem State.onTenant_lastScan (s : State) (x : Tag) (f : Tenant → Tenant) : (s.onTenant x f).lastScan = s.lastScan := rfl
@[simp] theorem State.onTenant_scanReported (s : State) (x : Tag) (f : Tenant → Tenant) : (s.onTenant x f).scanReported = s.scanReported := rfl
@[simp] theorem State.onTenant_frozen (s : State) (x : Tag) (f : Tenant → Tenant) : (s.onTenant x f).frozen = s.frozen := rfl
@[simp] theorem State.onTenant_slice (s : State) (x : Tag) (f : Tenant → Tenant) : (s.onTenant x f).slice = s.slice := rfl
@[simp] theorem State.onTenant_keySlots (s : State) (x : Tag) (f : Tenant → Tenant) : (s.onTenant x f).keySlots = s.keySlots := rfl
@[simp] theorem State.onTenant_revoked (s : State) (x : Tag) (f : Tenant → Tenant) : (s.onTenant x f).revoked = s.revoked := rfl
@[simp] theorem State.onTenant_epochs (s : State) (x : Tag) (f : Tenant → Tenant) : (s.onTenant x f).epochs = s.epochs := rfl
@[simp] theorem State.onTenant_consumed (s : State) (x : Tag) (f : Tenant → Tenant) : (s.onTenant x f).consumed = s.consumed := rfl
@[simp] theorem State.onTenant_sealedCtxs (s : State) (x : Tag) (f : Tenant → Tenant) : (s.onTenant x f).sealedCtxs = s.sealedCtxs := rfl
@[simp] theorem State.onTenant_errSeq (s : State) (x : Tag) (f : Tenant → Tenant) : (s.onTenant x f).errSeq = s.errSeq := rfl
@[simp] theorem State.onTenant_outbox (s : State) (x : Tag) (f : Tenant → Tenant) : (s.onTenant x f).outbox = s.outbox := rfl
@[simp] theorem State.onTenant_island (s : State) (x : Tag) (f : Tenant → Tenant) : (s.onTenant x f).island = s.island := rfl
@[simp] theorem State.onTenant_booting (s : State) (x : Tag) (f : Tenant → Tenant) : (s.onTenant x f).booting = s.booting := rfl
@[simp] theorem State.onTenant_imageSlot (s : State) (x : Tag) (f : Tenant → Tenant) : (s.onTenant x f).imageSlot = s.imageSlot := rfl
@[simp] theorem State.onTenant_fused (s : State) (x : Tag) (f : Tenant → Tenant) : (s.onTenant x f).fused = s.fused := rfl
@[simp] theorem State.onTenant_quoting (s : State) (x : Tag) (f : Tenant → Tenant) : (s.onTenant x f).quoting = s.quoting := rfl
@[simp] theorem State.onTenant_quoted (s : State) (x : Tag) (f : Tenant → Tenant) : (s.onTenant x f).quoted = s.quoted := rfl
@[simp] theorem State.onTenant_agreed (s : State) (x : Tag) (f : Tenant → Tenant) : (s.onTenant x f).agreed = s.agreed := rfl
@[simp] theorem State.onTenant_mail (s : State) (x : Tag) (f : Tenant → Tenant) : (s.onTenant x f).mail = s.mail := rfl
@[simp] theorem State.onTenant_die0 (s : State) (x : Tag) (f : Tenant → Tenant) : (s.onTenant x f).die0 = s.die0 := rfl
@[simp] theorem State.onTenant_die1 (s : State) (x : Tag) (f : Tenant → Tenant) : (s.onTenant x f).die1 = s.die1 := rfl
@[simp] theorem State.onTenant_powerLimit (s : State) (x : Tag) (f : Tenant → Tenant) : (s.onTenant x f).powerLimit = s.powerLimit := rfl
@[simp] theorem State.onTenant_ns (s : State) (x : Tag) (f : Tenant → Tenant) : (s.onTenant x f).ns = s.ns := rfl
@[simp] theorem State.onTenant_routesLoaded (s : State) (x : Tag) (f : Tenant → Tenant) : (s.onTenant x f).routesLoaded = s.routesLoaded := rfl
@[simp] theorem State.onTenant_linkUp (s : State) (x : Tag) (f : Tenant → Tenant) : (s.onTenant x f).linkUp = s.linkUp := rfl
@[simp] theorem State.onTenant_stopped (s : State) (x : Tag) (f : Tenant → Tenant) : (s.onTenant x f).stopped = s.stopped := rfl
@[simp] theorem State.onTenant_stopsSent (s : State) (x : Tag) (f : Tenant → Tenant) : (s.onTenant x f).stopsSent = s.stopsSent := rfl
@[simp] theorem State.onTenant_buffered (s : State) (x : Tag) (f : Tenant → Tenant) : (s.onTenant x f).buffered = s.buffered := rfl
@[simp] theorem State.onTenant_lostRoutes (s : State) (x : Tag) (f : Tenant → Tenant) : (s.onTenant x f).lostRoutes = s.lostRoutes := rfl
@[simp] theorem State.onTenant_absentDevs (s : State) (x : Tag) (f : Tenant → Tenant) : (s.onTenant x f).absentDevs = s.absentDevs := rfl
@[simp] theorem State.onTenant_remoteOwn (s : State) (x : Tag) (f : Tenant → Tenant) : (s.onTenant x f).remoteOwn = s.remoteOwn := rfl
@[simp] theorem State.onTenant_podRegs (s : State) (x : Tag) (f : Tenant → Tenant) : (s.onTenant x f).podRegs = s.podRegs := rfl
@[simp] theorem State.onTenant_windows (s : State) (x : Tag) (f : Tenant → Tenant) : (s.onTenant x f).windows = s.windows := rfl
@[simp] theorem State.onTenant_sessions (s : State) (x : Tag) (f : Tenant → Tenant) : (s.onTenant x f).sessions = s.sessions := rfl
@[simp] theorem State.onTenant_agenda (s : State) (x : Tag) (f : Tenant → Tenant) : (s.onTenant x f).agenda = s.agenda := rfl
@[simp] theorem State.onTenant_freeCtr (s : State) (x : Tag) (f : Tenant → Tenant) : (s.onTenant x f).freeCtr = s.freeCtr := rfl
@[simp] theorem State.onTenant_nextId (s : State) (x : Tag) (f : Tenant → Tenant) : (s.onTenant x f).nextId = s.nextId := rfl

/-! ### `State.onFlight` -/

@[simp] theorem State.onFlight_mem (s : State) (i : Nat) (f : Flight → Flight) : (s.onFlight i f).mem = s.mem := rfl
@[simp] theorem State.onFlight_memPoison (s : State) (i : Nat) (f : Flight → Flight) : (s.onFlight i f).memPoison = s.memPoison := rfl
@[simp] theorem State.onFlight_acc (s : State) (i : Nat) (f : Flight → Flight) : (s.onFlight i f).acc = s.acc := rfl
@[simp] theorem State.onFlight_accPoison (s : State) (i : Nat) (f : Flight → Flight) : (s.onFlight i f).accPoison = s.accPoison := rfl
@[simp] theorem State.onFlight_wgs (s : State) (i : Nat) (f : Flight → Flight) : (s.onFlight i f).wgs = s.wgs := rfl
@[simp] theorem State.onFlight_runs (s : State) (i : Nat) (f : Flight → Flight) : (s.onFlight i f).runs = s.runs := rfl
@[simp] theorem State.onFlight_entries (s : State) (i : Nat) (f : Flight → Flight) : (s.onFlight i f).entries = s.entries := rfl
@[simp] theorem State.onFlight_logPend (s : State) (i : Nat) (f : Flight → Flight) : (s.onFlight i f).logPend = s.logPend := rfl
@[simp] theorem State.onFlight_flights (s : State) (i : Nat) (f : Flight → Flight) : (s.onFlight i f).flights = s.flights.map fun x => if x.id = i then f x else x := rfl
@[simp] theorem State.onFlight_l1 (s : State) (i : Nat) (f : Flight → Flight) : (s.onFlight i f).l1 = s.l1 := rfl
@[simp] theorem State.onFlight_owner (s : State) (i : Nat) (f : Flight → Flight) : (s.onFlight i f).owner = s.owner := rfl
@[simp] theorem State.onFlight_barriers (s : State) (i : Nat) (f : Flight → Flight) : (s.onFlight i f).barriers = s.barriers := rfl
@[simp] theorem State.onFlight_copies (s : State) (i : Nat) (f : Flight → Flight) : (s.onFlight i f).copies = s.copies := rfl
@[simp] theorem State.onFlight_inbound (s : State) (i : Nat) (f : Flight → Flight) : (s.onFlight i f).inbound = s.inbound := rfl
@[simp] theorem State.onFlight_score (s : State) (i : Nat) (f : Flight → Flight) : (s.onFlight i f).score = s.score := rfl
@[simp] theorem State.onFlight_matops (s : State) (i : Nat) (f : Flight → Flight) : (s.onFlight i f).matops = s.matops := rfl
@[simp] theorem State.onFlight_colls (s : State) (i : Nat) (f : Flight → Flight) : (s.onFlight i f).colls = s.colls := rfl
@[simp] theorem State.onFlight_slots (s : State) (i : Nat) (f : Flight → Flight) : (s.onFlight i f).slots = s.slots := rfl
@[simp] theorem State.onFlight_tlb (s : State) (i : Nat) (f : Flight → Flight) : (s.onFlight i f).tlb = s.tlb := rfl
@[simp] theorem State.onFlight_watches (s : State) (i : Nat) (f : Flight → Flight) : (s.onFlight i f).watches = s.watches := rfl
@[simp] theorem State.onFlight_reserved (s : State) (i : Nat) (f : Flight → Flight) : (s.onFlight i f).reserved = s.reserved := rfl
@[simp] theorem State.onFlight_gangs (s : State) (i : Nat) (f : Flight → Flight) : (s.onFlight i f).gangs = s.gangs := rfl
@[simp] theorem State.onFlight_launches (s : State) (i : Nat) (f : Flight → Flight) : (s.onFlight i f).launches = s.launches := rfl
@[simp] theorem State.onFlight_launchSeq (s : State) (i : Nat) (f : Flight → Flight) : (s.onFlight i f).launchSeq = s.launchSeq := rfl
@[simp] theorem State.onFlight_queues (s : State) (i : Nat) (f : Flight → Flight) : (s.onFlight i f).queues = s.queues := rfl
@[simp] theorem State.onFlight_fot (s : State) (i : Nat) (f : Flight → Flight) : (s.onFlight i f).fot = s.fot := rfl
@[simp] theorem State.onFlight_extents (s : State) (i : Nat) (f : Flight → Flight) : (s.onFlight i f).extents = s.extents := rfl
@[simp] theorem State.onFlight_tags (s : State) (i : Nat) (f : Flight → Flight) : (s.onFlight i f).tags = s.tags := rfl
@[simp] theorem State.onFlight_seizures (s : State) (i : Nat) (f : Flight → Flight) : (s.onFlight i f).seizures = s.seizures := rfl
@[simp] theorem State.onFlight_gens (s : State) (i : Nat) (f : Flight → Flight) : (s.onFlight i f).gens = s.gens := rfl
@[simp] theorem State.onFlight_tenants (s : State) (i : Nat) (f : Flight → Flight) : (s.onFlight i f).tenants = s.tenants := rfl
@[simp] theorem State.onFlight_pendDebug (s : State) (i : Nat) (f : Flight → Flight) : (s.onFlight i f).pendDebug = s.pendDebug := rfl
@[simp] theorem State.onFlight_quieting (s : State) (i : Nat) (f : Flight → Flight) : (s.onFlight i f).quieting = s.quieting := rfl
@[simp] theorem State.onFlight_cfg (s : State) (i : Nat) (f : Flight → Flight) : (s.onFlight i f).cfg = s.cfg := rfl
@[simp] theorem State.onFlight_calActive (s : State) (i : Nat) (f : Flight → Flight) : (s.onFlight i f).calActive = s.calActive := rfl
@[simp] theorem State.onFlight_resetLocked (s : State) (i : Nat) (f : Flight → Flight) : (s.onFlight i f).resetLocked = s.resetLocked := rfl
@[simp] theorem State.onFlight_buckets (s : State) (i : Nat) (f : Flight → Flight) : (s.onFlight i f).buckets = s.buckets := rfl
@[simp] theorem State.onFlight_deficit (s : State) (i : Nat) (f : Flight → Flight) : (s.onFlight i f).deficit = s.deficit := rfl
@[simp] theorem State.onFlight_comparators (s : State) (i : Nat) (f : Flight → Flight) : (s.onFlight i f).comparators = s.comparators := rfl
@[simp] theorem State.onFlight_stepping (s : State) (i : Nat) (f : Flight → Flight) : (s.onFlight i f).stepping = s.stepping := rfl
@[simp] theorem State.onFlight_lastScan (s : State) (i : Nat) (f : Flight → Flight) : (s.onFlight i f).lastScan = s.lastScan := rfl
@[simp] theorem State.onFlight_scanReported (s : State) (i : Nat) (f : Flight → Flight) : (s.onFlight i f).scanReported = s.scanReported := rfl
@[simp] theorem State.onFlight_frozen (s : State) (i : Nat) (f : Flight → Flight) : (s.onFlight i f).frozen = s.frozen := rfl
@[simp] theorem State.onFlight_slice (s : State) (i : Nat) (f : Flight → Flight) : (s.onFlight i f).slice = s.slice := rfl
@[simp] theorem State.onFlight_keySlots (s : State) (i : Nat) (f : Flight → Flight) : (s.onFlight i f).keySlots = s.keySlots := rfl
@[simp] theorem State.onFlight_revoked (s : State) (i : Nat) (f : Flight → Flight) : (s.onFlight i f).revoked = s.revoked := rfl
@[simp] theorem State.onFlight_epochs (s : State) (i : Nat) (f : Flight → Flight) : (s.onFlight i f).epochs = s.epochs := rfl
@[simp] theorem State.onFlight_consumed (s : State) (i : Nat) (f : Flight → Flight) : (s.onFlight i f).consumed = s.consumed := rfl
@[simp] theorem State.onFlight_sealedCtxs (s : State) (i : Nat) (f : Flight → Flight) : (s.onFlight i f).sealedCtxs = s.sealedCtxs := rfl
@[simp] theorem State.onFlight_errSeq (s : State) (i : Nat) (f : Flight → Flight) : (s.onFlight i f).errSeq = s.errSeq := rfl
@[simp] theorem State.onFlight_outbox (s : State) (i : Nat) (f : Flight → Flight) : (s.onFlight i f).outbox = s.outbox := rfl
@[simp] theorem State.onFlight_island (s : State) (i : Nat) (f : Flight → Flight) : (s.onFlight i f).island = s.island := rfl
@[simp] theorem State.onFlight_booting (s : State) (i : Nat) (f : Flight → Flight) : (s.onFlight i f).booting = s.booting := rfl
@[simp] theorem State.onFlight_imageSlot (s : State) (i : Nat) (f : Flight → Flight) : (s.onFlight i f).imageSlot = s.imageSlot := rfl
@[simp] theorem State.onFlight_fused (s : State) (i : Nat) (f : Flight → Flight) : (s.onFlight i f).fused = s.fused := rfl
@[simp] theorem State.onFlight_quoting (s : State) (i : Nat) (f : Flight → Flight) : (s.onFlight i f).quoting = s.quoting := rfl
@[simp] theorem State.onFlight_quoted (s : State) (i : Nat) (f : Flight → Flight) : (s.onFlight i f).quoted = s.quoted := rfl
@[simp] theorem State.onFlight_agreed (s : State) (i : Nat) (f : Flight → Flight) : (s.onFlight i f).agreed = s.agreed := rfl
@[simp] theorem State.onFlight_mail (s : State) (i : Nat) (f : Flight → Flight) : (s.onFlight i f).mail = s.mail := rfl
@[simp] theorem State.onFlight_die0 (s : State) (i : Nat) (f : Flight → Flight) : (s.onFlight i f).die0 = s.die0 := rfl
@[simp] theorem State.onFlight_die1 (s : State) (i : Nat) (f : Flight → Flight) : (s.onFlight i f).die1 = s.die1 := rfl
@[simp] theorem State.onFlight_powerLimit (s : State) (i : Nat) (f : Flight → Flight) : (s.onFlight i f).powerLimit = s.powerLimit := rfl
@[simp] theorem State.onFlight_ns (s : State) (i : Nat) (f : Flight → Flight) : (s.onFlight i f).ns = s.ns := rfl
@[simp] theorem State.onFlight_routesLoaded (s : State) (i : Nat) (f : Flight → Flight) : (s.onFlight i f).routesLoaded = s.routesLoaded := rfl
@[simp] theorem State.onFlight_linkUp (s : State) (i : Nat) (f : Flight → Flight) : (s.onFlight i f).linkUp = s.linkUp := rfl
@[simp] theorem State.onFlight_stopped (s : State) (i : Nat) (f : Flight → Flight) : (s.onFlight i f).stopped = s.stopped := rfl
@[simp] theorem State.onFlight_stopsSent (s : State) (i : Nat) (f : Flight → Flight) : (s.onFlight i f).stopsSent = s.stopsSent := rfl
@[simp] theorem State.onFlight_buffered (s : State) (i : Nat) (f : Flight → Flight) : (s.onFlight i f).buffered = s.buffered := rfl
@[simp] theorem State.onFlight_lostRoutes (s : State) (i : Nat) (f : Flight → Flight) : (s.onFlight i f).lostRoutes = s.lostRoutes := rfl
@[simp] theorem State.onFlight_absentDevs (s : State) (i : Nat) (f : Flight → Flight) : (s.onFlight i f).absentDevs = s.absentDevs := rfl
@[simp] theorem State.onFlight_remoteOwn (s : State) (i : Nat) (f : Flight → Flight) : (s.onFlight i f).remoteOwn = s.remoteOwn := rfl
@[simp] theorem State.onFlight_podRegs (s : State) (i : Nat) (f : Flight → Flight) : (s.onFlight i f).podRegs = s.podRegs := rfl
@[simp] theorem State.onFlight_windows (s : State) (i : Nat) (f : Flight → Flight) : (s.onFlight i f).windows = s.windows := rfl
@[simp] theorem State.onFlight_sessions (s : State) (i : Nat) (f : Flight → Flight) : (s.onFlight i f).sessions = s.sessions := rfl
@[simp] theorem State.onFlight_agenda (s : State) (i : Nat) (f : Flight → Flight) : (s.onFlight i f).agenda = s.agenda := rfl
@[simp] theorem State.onFlight_freeCtr (s : State) (i : Nat) (f : Flight → Flight) : (s.onFlight i f).freeCtr = s.freeCtr := rfl
@[simp] theorem State.onFlight_nextId (s : State) (i : Nat) (f : Flight → Flight) : (s.onFlight i f).nextId = s.nextId := rfl

/-! ### `State.onCopy` -/

@[simp] theorem State.onCopy_mem (s : State) (i : Nat) (f : CopyOp → CopyOp) : (s.onCopy i f).mem = s.mem := rfl
@[simp] theorem State.onCopy_memPoison (s : State) (i : Nat) (f : CopyOp → CopyOp) : (s.onCopy i f).memPoison = s.memPoison := rfl
@[simp] theorem State.onCopy_acc (s : State) (i : Nat) (f : CopyOp → CopyOp) : (s.onCopy i f).acc = s.acc := rfl
@[simp] theorem State.onCopy_accPoison (s : State) (i : Nat) (f : CopyOp → CopyOp) : (s.onCopy i f).accPoison = s.accPoison := rfl
@[simp] theorem State.onCopy_wgs (s : State) (i : Nat) (f : CopyOp → CopyOp) : (s.onCopy i f).wgs = s.wgs := rfl
@[simp] theorem State.onCopy_runs (s : State) (i : Nat) (f : CopyOp → CopyOp) : (s.onCopy i f).runs = s.runs := rfl
@[simp] theorem State.onCopy_entries (s : State) (i : Nat) (f : CopyOp → CopyOp) : (s.onCopy i f).entries = s.entries := rfl
@[simp] theorem State.onCopy_logPend (s : State) (i : Nat) (f : CopyOp → CopyOp) : (s.onCopy i f).logPend = s.logPend := rfl
@[simp] theorem State.onCopy_flights (s : State) (i : Nat) (f : CopyOp → CopyOp) : (s.onCopy i f).flights = s.flights := rfl
@[simp] theorem State.onCopy_l1 (s : State) (i : Nat) (f : CopyOp → CopyOp) : (s.onCopy i f).l1 = s.l1 := rfl
@[simp] theorem State.onCopy_owner (s : State) (i : Nat) (f : CopyOp → CopyOp) : (s.onCopy i f).owner = s.owner := rfl
@[simp] theorem State.onCopy_barriers (s : State) (i : Nat) (f : CopyOp → CopyOp) : (s.onCopy i f).barriers = s.barriers := rfl
@[simp] theorem State.onCopy_copies (s : State) (i : Nat) (f : CopyOp → CopyOp) : (s.onCopy i f).copies = s.copies.map fun x => if x.id = i then f x else x := rfl
@[simp] theorem State.onCopy_inbound (s : State) (i : Nat) (f : CopyOp → CopyOp) : (s.onCopy i f).inbound = s.inbound := rfl
@[simp] theorem State.onCopy_score (s : State) (i : Nat) (f : CopyOp → CopyOp) : (s.onCopy i f).score = s.score := rfl
@[simp] theorem State.onCopy_matops (s : State) (i : Nat) (f : CopyOp → CopyOp) : (s.onCopy i f).matops = s.matops := rfl
@[simp] theorem State.onCopy_colls (s : State) (i : Nat) (f : CopyOp → CopyOp) : (s.onCopy i f).colls = s.colls := rfl
@[simp] theorem State.onCopy_slots (s : State) (i : Nat) (f : CopyOp → CopyOp) : (s.onCopy i f).slots = s.slots := rfl
@[simp] theorem State.onCopy_tlb (s : State) (i : Nat) (f : CopyOp → CopyOp) : (s.onCopy i f).tlb = s.tlb := rfl
@[simp] theorem State.onCopy_watches (s : State) (i : Nat) (f : CopyOp → CopyOp) : (s.onCopy i f).watches = s.watches := rfl
@[simp] theorem State.onCopy_reserved (s : State) (i : Nat) (f : CopyOp → CopyOp) : (s.onCopy i f).reserved = s.reserved := rfl
@[simp] theorem State.onCopy_gangs (s : State) (i : Nat) (f : CopyOp → CopyOp) : (s.onCopy i f).gangs = s.gangs := rfl
@[simp] theorem State.onCopy_launches (s : State) (i : Nat) (f : CopyOp → CopyOp) : (s.onCopy i f).launches = s.launches := rfl
@[simp] theorem State.onCopy_launchSeq (s : State) (i : Nat) (f : CopyOp → CopyOp) : (s.onCopy i f).launchSeq = s.launchSeq := rfl
@[simp] theorem State.onCopy_queues (s : State) (i : Nat) (f : CopyOp → CopyOp) : (s.onCopy i f).queues = s.queues := rfl
@[simp] theorem State.onCopy_fot (s : State) (i : Nat) (f : CopyOp → CopyOp) : (s.onCopy i f).fot = s.fot := rfl
@[simp] theorem State.onCopy_extents (s : State) (i : Nat) (f : CopyOp → CopyOp) : (s.onCopy i f).extents = s.extents := rfl
@[simp] theorem State.onCopy_tags (s : State) (i : Nat) (f : CopyOp → CopyOp) : (s.onCopy i f).tags = s.tags := rfl
@[simp] theorem State.onCopy_seizures (s : State) (i : Nat) (f : CopyOp → CopyOp) : (s.onCopy i f).seizures = s.seizures := rfl
@[simp] theorem State.onCopy_gens (s : State) (i : Nat) (f : CopyOp → CopyOp) : (s.onCopy i f).gens = s.gens := rfl
@[simp] theorem State.onCopy_tenants (s : State) (i : Nat) (f : CopyOp → CopyOp) : (s.onCopy i f).tenants = s.tenants := rfl
@[simp] theorem State.onCopy_pendDebug (s : State) (i : Nat) (f : CopyOp → CopyOp) : (s.onCopy i f).pendDebug = s.pendDebug := rfl
@[simp] theorem State.onCopy_quieting (s : State) (i : Nat) (f : CopyOp → CopyOp) : (s.onCopy i f).quieting = s.quieting := rfl
@[simp] theorem State.onCopy_cfg (s : State) (i : Nat) (f : CopyOp → CopyOp) : (s.onCopy i f).cfg = s.cfg := rfl
@[simp] theorem State.onCopy_calActive (s : State) (i : Nat) (f : CopyOp → CopyOp) : (s.onCopy i f).calActive = s.calActive := rfl
@[simp] theorem State.onCopy_resetLocked (s : State) (i : Nat) (f : CopyOp → CopyOp) : (s.onCopy i f).resetLocked = s.resetLocked := rfl
@[simp] theorem State.onCopy_buckets (s : State) (i : Nat) (f : CopyOp → CopyOp) : (s.onCopy i f).buckets = s.buckets := rfl
@[simp] theorem State.onCopy_deficit (s : State) (i : Nat) (f : CopyOp → CopyOp) : (s.onCopy i f).deficit = s.deficit := rfl
@[simp] theorem State.onCopy_comparators (s : State) (i : Nat) (f : CopyOp → CopyOp) : (s.onCopy i f).comparators = s.comparators := rfl
@[simp] theorem State.onCopy_stepping (s : State) (i : Nat) (f : CopyOp → CopyOp) : (s.onCopy i f).stepping = s.stepping := rfl
@[simp] theorem State.onCopy_lastScan (s : State) (i : Nat) (f : CopyOp → CopyOp) : (s.onCopy i f).lastScan = s.lastScan := rfl
@[simp] theorem State.onCopy_scanReported (s : State) (i : Nat) (f : CopyOp → CopyOp) : (s.onCopy i f).scanReported = s.scanReported := rfl
@[simp] theorem State.onCopy_frozen (s : State) (i : Nat) (f : CopyOp → CopyOp) : (s.onCopy i f).frozen = s.frozen := rfl
@[simp] theorem State.onCopy_slice (s : State) (i : Nat) (f : CopyOp → CopyOp) : (s.onCopy i f).slice = s.slice := rfl
@[simp] theorem State.onCopy_keySlots (s : State) (i : Nat) (f : CopyOp → CopyOp) : (s.onCopy i f).keySlots = s.keySlots := rfl
@[simp] theorem State.onCopy_revoked (s : State) (i : Nat) (f : CopyOp → CopyOp) : (s.onCopy i f).revoked = s.revoked := rfl
@[simp] theorem State.onCopy_epochs (s : State) (i : Nat) (f : CopyOp → CopyOp) : (s.onCopy i f).epochs = s.epochs := rfl
@[simp] theorem State.onCopy_consumed (s : State) (i : Nat) (f : CopyOp → CopyOp) : (s.onCopy i f).consumed = s.consumed := rfl
@[simp] theorem State.onCopy_sealedCtxs (s : State) (i : Nat) (f : CopyOp → CopyOp) : (s.onCopy i f).sealedCtxs = s.sealedCtxs := rfl
@[simp] theorem State.onCopy_errSeq (s : State) (i : Nat) (f : CopyOp → CopyOp) : (s.onCopy i f).errSeq = s.errSeq := rfl
@[simp] theorem State.onCopy_outbox (s : State) (i : Nat) (f : CopyOp → CopyOp) : (s.onCopy i f).outbox = s.outbox := rfl
@[simp] theorem State.onCopy_island (s : State) (i : Nat) (f : CopyOp → CopyOp) : (s.onCopy i f).island = s.island := rfl
@[simp] theorem State.onCopy_booting (s : State) (i : Nat) (f : CopyOp → CopyOp) : (s.onCopy i f).booting = s.booting := rfl
@[simp] theorem State.onCopy_imageSlot (s : State) (i : Nat) (f : CopyOp → CopyOp) : (s.onCopy i f).imageSlot = s.imageSlot := rfl
@[simp] theorem State.onCopy_fused (s : State) (i : Nat) (f : CopyOp → CopyOp) : (s.onCopy i f).fused = s.fused := rfl
@[simp] theorem State.onCopy_quoting (s : State) (i : Nat) (f : CopyOp → CopyOp) : (s.onCopy i f).quoting = s.quoting := rfl
@[simp] theorem State.onCopy_quoted (s : State) (i : Nat) (f : CopyOp → CopyOp) : (s.onCopy i f).quoted = s.quoted := rfl
@[simp] theorem State.onCopy_agreed (s : State) (i : Nat) (f : CopyOp → CopyOp) : (s.onCopy i f).agreed = s.agreed := rfl
@[simp] theorem State.onCopy_mail (s : State) (i : Nat) (f : CopyOp → CopyOp) : (s.onCopy i f).mail = s.mail := rfl
@[simp] theorem State.onCopy_die0 (s : State) (i : Nat) (f : CopyOp → CopyOp) : (s.onCopy i f).die0 = s.die0 := rfl
@[simp] theorem State.onCopy_die1 (s : State) (i : Nat) (f : CopyOp → CopyOp) : (s.onCopy i f).die1 = s.die1 := rfl
@[simp] theorem State.onCopy_powerLimit (s : State) (i : Nat) (f : CopyOp → CopyOp) : (s.onCopy i f).powerLimit = s.powerLimit := rfl
@[simp] theorem State.onCopy_ns (s : State) (i : Nat) (f : CopyOp → CopyOp) : (s.onCopy i f).ns = s.ns := rfl
@[simp] theorem State.onCopy_routesLoaded (s : State) (i : Nat) (f : CopyOp → CopyOp) : (s.onCopy i f).routesLoaded = s.routesLoaded := rfl
@[simp] theorem State.onCopy_linkUp (s : State) (i : Nat) (f : CopyOp → CopyOp) : (s.onCopy i f).linkUp = s.linkUp := rfl
@[simp] theorem State.onCopy_stopped (s : State) (i : Nat) (f : CopyOp → CopyOp) : (s.onCopy i f).stopped = s.stopped := rfl
@[simp] theorem State.onCopy_stopsSent (s : State) (i : Nat) (f : CopyOp → CopyOp) : (s.onCopy i f).stopsSent = s.stopsSent := rfl
@[simp] theorem State.onCopy_buffered (s : State) (i : Nat) (f : CopyOp → CopyOp) : (s.onCopy i f).buffered = s.buffered := rfl
@[simp] theorem State.onCopy_lostRoutes (s : State) (i : Nat) (f : CopyOp → CopyOp) : (s.onCopy i f).lostRoutes = s.lostRoutes := rfl
@[simp] theorem State.onCopy_absentDevs (s : State) (i : Nat) (f : CopyOp → CopyOp) : (s.onCopy i f).absentDevs = s.absentDevs := rfl
@[simp] theorem State.onCopy_remoteOwn (s : State) (i : Nat) (f : CopyOp → CopyOp) : (s.onCopy i f).remoteOwn = s.remoteOwn := rfl
@[simp] theorem State.onCopy_podRegs (s : State) (i : Nat) (f : CopyOp → CopyOp) : (s.onCopy i f).podRegs = s.podRegs := rfl
@[simp] theorem State.onCopy_windows (s : State) (i : Nat) (f : CopyOp → CopyOp) : (s.onCopy i f).windows = s.windows := rfl
@[simp] theorem State.onCopy_sessions (s : State) (i : Nat) (f : CopyOp → CopyOp) : (s.onCopy i f).sessions = s.sessions := rfl
@[simp] theorem State.onCopy_agenda (s : State) (i : Nat) (f : CopyOp → CopyOp) : (s.onCopy i f).agenda = s.agenda := rfl
@[simp] theorem State.onCopy_freeCtr (s : State) (i : Nat) (f : CopyOp → CopyOp) : (s.onCopy i f).freeCtr = s.freeCtr := rfl
@[simp] theorem State.onCopy_nextId (s : State) (i : Nat) (f : CopyOp → CopyOp) : (s.onCopy i f).nextId = s.nextId := rfl

/-! ### `State.onMatop` -/

@[simp] theorem State.onMatop_mem (s : State) (i : Nat) (f : MatOp → MatOp) : (s.onMatop i f).mem = s.mem := rfl
@[simp] theorem State.onMatop_memPoison (s : State) (i : Nat) (f : MatOp → MatOp) : (s.onMatop i f).memPoison = s.memPoison := rfl
@[simp] theorem State.onMatop_acc (s : State) (i : Nat) (f : MatOp → MatOp) : (s.onMatop i f).acc = s.acc := rfl
@[simp] theorem State.onMatop_accPoison (s : State) (i : Nat) (f : MatOp → MatOp) : (s.onMatop i f).accPoison = s.accPoison := rfl
@[simp] theorem State.onMatop_wgs (s : State) (i : Nat) (f : MatOp → MatOp) : (s.onMatop i f).wgs = s.wgs := rfl
@[simp] theorem State.onMatop_runs (s : State) (i : Nat) (f : MatOp → MatOp) : (s.onMatop i f).runs = s.runs := rfl
@[simp] theorem State.onMatop_entries (s : State) (i : Nat) (f : MatOp → MatOp) : (s.onMatop i f).entries = s.entries := rfl
@[simp] theorem State.onMatop_logPend (s : State) (i : Nat) (f : MatOp → MatOp) : (s.onMatop i f).logPend = s.logPend := rfl
@[simp] theorem State.onMatop_flights (s : State) (i : Nat) (f : MatOp → MatOp) : (s.onMatop i f).flights = s.flights := rfl
@[simp] theorem State.onMatop_l1 (s : State) (i : Nat) (f : MatOp → MatOp) : (s.onMatop i f).l1 = s.l1 := rfl
@[simp] theorem State.onMatop_owner (s : State) (i : Nat) (f : MatOp → MatOp) : (s.onMatop i f).owner = s.owner := rfl
@[simp] theorem State.onMatop_barriers (s : State) (i : Nat) (f : MatOp → MatOp) : (s.onMatop i f).barriers = s.barriers := rfl
@[simp] theorem State.onMatop_copies (s : State) (i : Nat) (f : MatOp → MatOp) : (s.onMatop i f).copies = s.copies := rfl
@[simp] theorem State.onMatop_inbound (s : State) (i : Nat) (f : MatOp → MatOp) : (s.onMatop i f).inbound = s.inbound := rfl
@[simp] theorem State.onMatop_score (s : State) (i : Nat) (f : MatOp → MatOp) : (s.onMatop i f).score = s.score := rfl
@[simp] theorem State.onMatop_matops (s : State) (i : Nat) (f : MatOp → MatOp) : (s.onMatop i f).matops = s.matops.map fun x => if x.id = i then f x else x := rfl
@[simp] theorem State.onMatop_colls (s : State) (i : Nat) (f : MatOp → MatOp) : (s.onMatop i f).colls = s.colls := rfl
@[simp] theorem State.onMatop_slots (s : State) (i : Nat) (f : MatOp → MatOp) : (s.onMatop i f).slots = s.slots := rfl
@[simp] theorem State.onMatop_tlb (s : State) (i : Nat) (f : MatOp → MatOp) : (s.onMatop i f).tlb = s.tlb := rfl
@[simp] theorem State.onMatop_watches (s : State) (i : Nat) (f : MatOp → MatOp) : (s.onMatop i f).watches = s.watches := rfl
@[simp] theorem State.onMatop_reserved (s : State) (i : Nat) (f : MatOp → MatOp) : (s.onMatop i f).reserved = s.reserved := rfl
@[simp] theorem State.onMatop_gangs (s : State) (i : Nat) (f : MatOp → MatOp) : (s.onMatop i f).gangs = s.gangs := rfl
@[simp] theorem State.onMatop_launches (s : State) (i : Nat) (f : MatOp → MatOp) : (s.onMatop i f).launches = s.launches := rfl
@[simp] theorem State.onMatop_launchSeq (s : State) (i : Nat) (f : MatOp → MatOp) : (s.onMatop i f).launchSeq = s.launchSeq := rfl
@[simp] theorem State.onMatop_queues (s : State) (i : Nat) (f : MatOp → MatOp) : (s.onMatop i f).queues = s.queues := rfl
@[simp] theorem State.onMatop_fot (s : State) (i : Nat) (f : MatOp → MatOp) : (s.onMatop i f).fot = s.fot := rfl
@[simp] theorem State.onMatop_extents (s : State) (i : Nat) (f : MatOp → MatOp) : (s.onMatop i f).extents = s.extents := rfl
@[simp] theorem State.onMatop_tags (s : State) (i : Nat) (f : MatOp → MatOp) : (s.onMatop i f).tags = s.tags := rfl
@[simp] theorem State.onMatop_seizures (s : State) (i : Nat) (f : MatOp → MatOp) : (s.onMatop i f).seizures = s.seizures := rfl
@[simp] theorem State.onMatop_gens (s : State) (i : Nat) (f : MatOp → MatOp) : (s.onMatop i f).gens = s.gens := rfl
@[simp] theorem State.onMatop_tenants (s : State) (i : Nat) (f : MatOp → MatOp) : (s.onMatop i f).tenants = s.tenants := rfl
@[simp] theorem State.onMatop_pendDebug (s : State) (i : Nat) (f : MatOp → MatOp) : (s.onMatop i f).pendDebug = s.pendDebug := rfl
@[simp] theorem State.onMatop_quieting (s : State) (i : Nat) (f : MatOp → MatOp) : (s.onMatop i f).quieting = s.quieting := rfl
@[simp] theorem State.onMatop_cfg (s : State) (i : Nat) (f : MatOp → MatOp) : (s.onMatop i f).cfg = s.cfg := rfl
@[simp] theorem State.onMatop_calActive (s : State) (i : Nat) (f : MatOp → MatOp) : (s.onMatop i f).calActive = s.calActive := rfl
@[simp] theorem State.onMatop_resetLocked (s : State) (i : Nat) (f : MatOp → MatOp) : (s.onMatop i f).resetLocked = s.resetLocked := rfl
@[simp] theorem State.onMatop_buckets (s : State) (i : Nat) (f : MatOp → MatOp) : (s.onMatop i f).buckets = s.buckets := rfl
@[simp] theorem State.onMatop_deficit (s : State) (i : Nat) (f : MatOp → MatOp) : (s.onMatop i f).deficit = s.deficit := rfl
@[simp] theorem State.onMatop_comparators (s : State) (i : Nat) (f : MatOp → MatOp) : (s.onMatop i f).comparators = s.comparators := rfl
@[simp] theorem State.onMatop_stepping (s : State) (i : Nat) (f : MatOp → MatOp) : (s.onMatop i f).stepping = s.stepping := rfl
@[simp] theorem State.onMatop_lastScan (s : State) (i : Nat) (f : MatOp → MatOp) : (s.onMatop i f).lastScan = s.lastScan := rfl
@[simp] theorem State.onMatop_scanReported (s : State) (i : Nat) (f : MatOp → MatOp) : (s.onMatop i f).scanReported = s.scanReported := rfl
@[simp] theorem State.onMatop_frozen (s : State) (i : Nat) (f : MatOp → MatOp) : (s.onMatop i f).frozen = s.frozen := rfl
@[simp] theorem State.onMatop_slice (s : State) (i : Nat) (f : MatOp → MatOp) : (s.onMatop i f).slice = s.slice := rfl
@[simp] theorem State.onMatop_keySlots (s : State) (i : Nat) (f : MatOp → MatOp) : (s.onMatop i f).keySlots = s.keySlots := rfl
@[simp] theorem State.onMatop_revoked (s : State) (i : Nat) (f : MatOp → MatOp) : (s.onMatop i f).revoked = s.revoked := rfl
@[simp] theorem State.onMatop_epochs (s : State) (i : Nat) (f : MatOp → MatOp) : (s.onMatop i f).epochs = s.epochs := rfl
@[simp] theorem State.onMatop_consumed (s : State) (i : Nat) (f : MatOp → MatOp) : (s.onMatop i f).consumed = s.consumed := rfl
@[simp] theorem State.onMatop_sealedCtxs (s : State) (i : Nat) (f : MatOp → MatOp) : (s.onMatop i f).sealedCtxs = s.sealedCtxs := rfl
@[simp] theorem State.onMatop_errSeq (s : State) (i : Nat) (f : MatOp → MatOp) : (s.onMatop i f).errSeq = s.errSeq := rfl
@[simp] theorem State.onMatop_outbox (s : State) (i : Nat) (f : MatOp → MatOp) : (s.onMatop i f).outbox = s.outbox := rfl
@[simp] theorem State.onMatop_island (s : State) (i : Nat) (f : MatOp → MatOp) : (s.onMatop i f).island = s.island := rfl
@[simp] theorem State.onMatop_booting (s : State) (i : Nat) (f : MatOp → MatOp) : (s.onMatop i f).booting = s.booting := rfl
@[simp] theorem State.onMatop_imageSlot (s : State) (i : Nat) (f : MatOp → MatOp) : (s.onMatop i f).imageSlot = s.imageSlot := rfl
@[simp] theorem State.onMatop_fused (s : State) (i : Nat) (f : MatOp → MatOp) : (s.onMatop i f).fused = s.fused := rfl
@[simp] theorem State.onMatop_quoting (s : State) (i : Nat) (f : MatOp → MatOp) : (s.onMatop i f).quoting = s.quoting := rfl
@[simp] theorem State.onMatop_quoted (s : State) (i : Nat) (f : MatOp → MatOp) : (s.onMatop i f).quoted = s.quoted := rfl
@[simp] theorem State.onMatop_agreed (s : State) (i : Nat) (f : MatOp → MatOp) : (s.onMatop i f).agreed = s.agreed := rfl
@[simp] theorem State.onMatop_mail (s : State) (i : Nat) (f : MatOp → MatOp) : (s.onMatop i f).mail = s.mail := rfl
@[simp] theorem State.onMatop_die0 (s : State) (i : Nat) (f : MatOp → MatOp) : (s.onMatop i f).die0 = s.die0 := rfl
@[simp] theorem State.onMatop_die1 (s : State) (i : Nat) (f : MatOp → MatOp) : (s.onMatop i f).die1 = s.die1 := rfl
@[simp] theorem State.onMatop_powerLimit (s : State) (i : Nat) (f : MatOp → MatOp) : (s.onMatop i f).powerLimit = s.powerLimit := rfl
@[simp] theorem State.onMatop_ns (s : State) (i : Nat) (f : MatOp → MatOp) : (s.onMatop i f).ns = s.ns := rfl
@[simp] theorem State.onMatop_routesLoaded (s : State) (i : Nat) (f : MatOp → MatOp) : (s.onMatop i f).routesLoaded = s.routesLoaded := rfl
@[simp] theorem State.onMatop_linkUp (s : State) (i : Nat) (f : MatOp → MatOp) : (s.onMatop i f).linkUp = s.linkUp := rfl
@[simp] theorem State.onMatop_stopped (s : State) (i : Nat) (f : MatOp → MatOp) : (s.onMatop i f).stopped = s.stopped := rfl
@[simp] theorem State.onMatop_stopsSent (s : State) (i : Nat) (f : MatOp → MatOp) : (s.onMatop i f).stopsSent = s.stopsSent := rfl
@[simp] theorem State.onMatop_buffered (s : State) (i : Nat) (f : MatOp → MatOp) : (s.onMatop i f).buffered = s.buffered := rfl
@[simp] theorem State.onMatop_lostRoutes (s : State) (i : Nat) (f : MatOp → MatOp) : (s.onMatop i f).lostRoutes = s.lostRoutes := rfl
@[simp] theorem State.onMatop_absentDevs (s : State) (i : Nat) (f : MatOp → MatOp) : (s.onMatop i f).absentDevs = s.absentDevs := rfl
@[simp] theorem State.onMatop_remoteOwn (s : State) (i : Nat) (f : MatOp → MatOp) : (s.onMatop i f).remoteOwn = s.remoteOwn := rfl
@[simp] theorem State.onMatop_podRegs (s : State) (i : Nat) (f : MatOp → MatOp) : (s.onMatop i f).podRegs = s.podRegs := rfl
@[simp] theorem State.onMatop_windows (s : State) (i : Nat) (f : MatOp → MatOp) : (s.onMatop i f).windows = s.windows := rfl
@[simp] theorem State.onMatop_sessions (s : State) (i : Nat) (f : MatOp → MatOp) : (s.onMatop i f).sessions = s.sessions := rfl
@[simp] theorem State.onMatop_agenda (s : State) (i : Nat) (f : MatOp → MatOp) : (s.onMatop i f).agenda = s.agenda := rfl
@[simp] theorem State.onMatop_freeCtr (s : State) (i : Nat) (f : MatOp → MatOp) : (s.onMatop i f).freeCtr = s.freeCtr := rfl
@[simp] theorem State.onMatop_nextId (s : State) (i : Nat) (f : MatOp → MatOp) : (s.onMatop i f).nextId = s.nextId := rfl

/-! ### `State.onColl` -/

@[simp] theorem State.onColl_mem (s : State) (i : Nat) (f : Contribution → Contribution) : (s.onColl i f).mem = s.mem := rfl
@[simp] theorem State.onColl_memPoison (s : State) (i : Nat) (f : Contribution → Contribution) : (s.onColl i f).memPoison = s.memPoison := rfl
@[simp] theorem State.onColl_acc (s : State) (i : Nat) (f : Contribution → Contribution) : (s.onColl i f).acc = s.acc := rfl
@[simp] theorem State.onColl_accPoison (s : State) (i : Nat) (f : Contribution → Contribution) : (s.onColl i f).accPoison = s.accPoison := rfl
@[simp] theorem State.onColl_wgs (s : State) (i : Nat) (f : Contribution → Contribution) : (s.onColl i f).wgs = s.wgs := rfl
@[simp] theorem State.onColl_runs (s : State) (i : Nat) (f : Contribution → Contribution) : (s.onColl i f).runs = s.runs := rfl
@[simp] theorem State.onColl_entries (s : State) (i : Nat) (f : Contribution → Contribution) : (s.onColl i f).entries = s.entries := rfl
@[simp] theorem State.onColl_logPend (s : State) (i : Nat) (f : Contribution → Contribution) : (s.onColl i f).logPend = s.logPend := rfl
@[simp] theorem State.onColl_flights (s : State) (i : Nat) (f : Contribution → Contribution) : (s.onColl i f).flights = s.flights := rfl
@[simp] theorem State.onColl_l1 (s : State) (i : Nat) (f : Contribution → Contribution) : (s.onColl i f).l1 = s.l1 := rfl
@[simp] theorem State.onColl_owner (s : State) (i : Nat) (f : Contribution → Contribution) : (s.onColl i f).owner = s.owner := rfl
@[simp] theorem State.onColl_barriers (s : State) (i : Nat) (f : Contribution → Contribution) : (s.onColl i f).barriers = s.barriers := rfl
@[simp] theorem State.onColl_copies (s : State) (i : Nat) (f : Contribution → Contribution) : (s.onColl i f).copies = s.copies := rfl
@[simp] theorem State.onColl_inbound (s : State) (i : Nat) (f : Contribution → Contribution) : (s.onColl i f).inbound = s.inbound := rfl
@[simp] theorem State.onColl_score (s : State) (i : Nat) (f : Contribution → Contribution) : (s.onColl i f).score = s.score := rfl
@[simp] theorem State.onColl_matops (s : State) (i : Nat) (f : Contribution → Contribution) : (s.onColl i f).matops = s.matops := rfl
@[simp] theorem State.onColl_colls (s : State) (i : Nat) (f : Contribution → Contribution) : (s.onColl i f).colls = s.colls.map fun x => if x.id = i then f x else x := rfl
@[simp] theorem State.onColl_slots (s : State) (i : Nat) (f : Contribution → Contribution) : (s.onColl i f).slots = s.slots := rfl
@[simp] theorem State.onColl_tlb (s : State) (i : Nat) (f : Contribution → Contribution) : (s.onColl i f).tlb = s.tlb := rfl
@[simp] theorem State.onColl_watches (s : State) (i : Nat) (f : Contribution → Contribution) : (s.onColl i f).watches = s.watches := rfl
@[simp] theorem State.onColl_reserved (s : State) (i : Nat) (f : Contribution → Contribution) : (s.onColl i f).reserved = s.reserved := rfl
@[simp] theorem State.onColl_gangs (s : State) (i : Nat) (f : Contribution → Contribution) : (s.onColl i f).gangs = s.gangs := rfl
@[simp] theorem State.onColl_launches (s : State) (i : Nat) (f : Contribution → Contribution) : (s.onColl i f).launches = s.launches := rfl
@[simp] theorem State.onColl_launchSeq (s : State) (i : Nat) (f : Contribution → Contribution) : (s.onColl i f).launchSeq = s.launchSeq := rfl
@[simp] theorem State.onColl_queues (s : State) (i : Nat) (f : Contribution → Contribution) : (s.onColl i f).queues = s.queues := rfl
@[simp] theorem State.onColl_fot (s : State) (i : Nat) (f : Contribution → Contribution) : (s.onColl i f).fot = s.fot := rfl
@[simp] theorem State.onColl_extents (s : State) (i : Nat) (f : Contribution → Contribution) : (s.onColl i f).extents = s.extents := rfl
@[simp] theorem State.onColl_tags (s : State) (i : Nat) (f : Contribution → Contribution) : (s.onColl i f).tags = s.tags := rfl
@[simp] theorem State.onColl_seizures (s : State) (i : Nat) (f : Contribution → Contribution) : (s.onColl i f).seizures = s.seizures := rfl
@[simp] theorem State.onColl_gens (s : State) (i : Nat) (f : Contribution → Contribution) : (s.onColl i f).gens = s.gens := rfl
@[simp] theorem State.onColl_tenants (s : State) (i : Nat) (f : Contribution → Contribution) : (s.onColl i f).tenants = s.tenants := rfl
@[simp] theorem State.onColl_pendDebug (s : State) (i : Nat) (f : Contribution → Contribution) : (s.onColl i f).pendDebug = s.pendDebug := rfl
@[simp] theorem State.onColl_quieting (s : State) (i : Nat) (f : Contribution → Contribution) : (s.onColl i f).quieting = s.quieting := rfl
@[simp] theorem State.onColl_cfg (s : State) (i : Nat) (f : Contribution → Contribution) : (s.onColl i f).cfg = s.cfg := rfl
@[simp] theorem State.onColl_calActive (s : State) (i : Nat) (f : Contribution → Contribution) : (s.onColl i f).calActive = s.calActive := rfl
@[simp] theorem State.onColl_resetLocked (s : State) (i : Nat) (f : Contribution → Contribution) : (s.onColl i f).resetLocked = s.resetLocked := rfl
@[simp] theorem State.onColl_buckets (s : State) (i : Nat) (f : Contribution → Contribution) : (s.onColl i f).buckets = s.buckets := rfl
@[simp] theorem State.onColl_deficit (s : State) (i : Nat) (f : Contribution → Contribution) : (s.onColl i f).deficit = s.deficit := rfl
@[simp] theorem State.onColl_comparators (s : State) (i : Nat) (f : Contribution → Contribution) : (s.onColl i f).comparators = s.comparators := rfl
@[simp] theorem State.onColl_stepping (s : State) (i : Nat) (f : Contribution → Contribution) : (s.onColl i f).stepping = s.stepping := rfl
@[simp] theorem State.onColl_lastScan (s : State) (i : Nat) (f : Contribution → Contribution) : (s.onColl i f).lastScan = s.lastScan := rfl
@[simp] theorem State.onColl_scanReported (s : State) (i : Nat) (f : Contribution → Contribution) : (s.onColl i f).scanReported = s.scanReported := rfl
@[simp] theorem State.onColl_frozen (s : State) (i : Nat) (f : Contribution → Contribution) : (s.onColl i f).frozen = s.frozen := rfl
@[simp] theorem State.onColl_slice (s : State) (i : Nat) (f : Contribution → Contribution) : (s.onColl i f).slice = s.slice := rfl
@[simp] theorem State.onColl_keySlots (s : State) (i : Nat) (f : Contribution → Contribution) : (s.onColl i f).keySlots = s.keySlots := rfl
@[simp] theorem State.onColl_revoked (s : State) (i : Nat) (f : Contribution → Contribution) : (s.onColl i f).revoked = s.revoked := rfl
@[simp] theorem State.onColl_epochs (s : State) (i : Nat) (f : Contribution → Contribution) : (s.onColl i f).epochs = s.epochs := rfl
@[simp] theorem State.onColl_consumed (s : State) (i : Nat) (f : Contribution → Contribution) : (s.onColl i f).consumed = s.consumed := rfl
@[simp] theorem State.onColl_sealedCtxs (s : State) (i : Nat) (f : Contribution → Contribution) : (s.onColl i f).sealedCtxs = s.sealedCtxs := rfl
@[simp] theorem State.onColl_errSeq (s : State) (i : Nat) (f : Contribution → Contribution) : (s.onColl i f).errSeq = s.errSeq := rfl
@[simp] theorem State.onColl_outbox (s : State) (i : Nat) (f : Contribution → Contribution) : (s.onColl i f).outbox = s.outbox := rfl
@[simp] theorem State.onColl_island (s : State) (i : Nat) (f : Contribution → Contribution) : (s.onColl i f).island = s.island := rfl
@[simp] theorem State.onColl_booting (s : State) (i : Nat) (f : Contribution → Contribution) : (s.onColl i f).booting = s.booting := rfl
@[simp] theorem State.onColl_imageSlot (s : State) (i : Nat) (f : Contribution → Contribution) : (s.onColl i f).imageSlot = s.imageSlot := rfl
@[simp] theorem State.onColl_fused (s : State) (i : Nat) (f : Contribution → Contribution) : (s.onColl i f).fused = s.fused := rfl
@[simp] theorem State.onColl_quoting (s : State) (i : Nat) (f : Contribution → Contribution) : (s.onColl i f).quoting = s.quoting := rfl
@[simp] theorem State.onColl_quoted (s : State) (i : Nat) (f : Contribution → Contribution) : (s.onColl i f).quoted = s.quoted := rfl
@[simp] theorem State.onColl_agreed (s : State) (i : Nat) (f : Contribution → Contribution) : (s.onColl i f).agreed = s.agreed := rfl
@[simp] theorem State.onColl_mail (s : State) (i : Nat) (f : Contribution → Contribution) : (s.onColl i f).mail = s.mail := rfl
@[simp] theorem State.onColl_die0 (s : State) (i : Nat) (f : Contribution → Contribution) : (s.onColl i f).die0 = s.die0 := rfl
@[simp] theorem State.onColl_die1 (s : State) (i : Nat) (f : Contribution → Contribution) : (s.onColl i f).die1 = s.die1 := rfl
@[simp] theorem State.onColl_powerLimit (s : State) (i : Nat) (f : Contribution → Contribution) : (s.onColl i f).powerLimit = s.powerLimit := rfl
@[simp] theorem State.onColl_ns (s : State) (i : Nat) (f : Contribution → Contribution) : (s.onColl i f).ns = s.ns := rfl
@[simp] theorem State.onColl_routesLoaded (s : State) (i : Nat) (f : Contribution → Contribution) : (s.onColl i f).routesLoaded = s.routesLoaded := rfl
@[simp] theorem State.onColl_linkUp (s : State) (i : Nat) (f : Contribution → Contribution) : (s.onColl i f).linkUp = s.linkUp := rfl
@[simp] theorem State.onColl_stopped (s : State) (i : Nat) (f : Contribution → Contribution) : (s.onColl i f).stopped = s.stopped := rfl
@[simp] theorem State.onColl_stopsSent (s : State) (i : Nat) (f : Contribution → Contribution) : (s.onColl i f).stopsSent = s.stopsSent := rfl
@[simp] theorem State.onColl_buffered (s : State) (i : Nat) (f : Contribution → Contribution) : (s.onColl i f).buffered = s.buffered := rfl
@[simp] theorem State.onColl_lostRoutes (s : State) (i : Nat) (f : Contribution → Contribution) : (s.onColl i f).lostRoutes = s.lostRoutes := rfl
@[simp] theorem State.onColl_absentDevs (s : State) (i : Nat) (f : Contribution → Contribution) : (s.onColl i f).absentDevs = s.absentDevs := rfl
@[simp] theorem State.onColl_remoteOwn (s : State) (i : Nat) (f : Contribution → Contribution) : (s.onColl i f).remoteOwn = s.remoteOwn := rfl
@[simp] theorem State.onColl_podRegs (s : State) (i : Nat) (f : Contribution → Contribution) : (s.onColl i f).podRegs = s.podRegs := rfl
@[simp] theorem State.onColl_windows (s : State) (i : Nat) (f : Contribution → Contribution) : (s.onColl i f).windows = s.windows := rfl
@[simp] theorem State.onColl_sessions (s : State) (i : Nat) (f : Contribution → Contribution) : (s.onColl i f).sessions = s.sessions := rfl
@[simp] theorem State.onColl_agenda (s : State) (i : Nat) (f : Contribution → Contribution) : (s.onColl i f).agenda = s.agenda := rfl
@[simp] theorem State.onColl_freeCtr (s : State) (i : Nat) (f : Contribution → Contribution) : (s.onColl i f).freeCtr = s.freeCtr := rfl
@[simp] theorem State.onColl_nextId (s : State) (i : Nat) (f : Contribution → Contribution) : (s.onColl i f).nextId = s.nextId := rfl

/-! ### `State.onQueue` -/

@[simp] theorem State.onQueue_mem (s : State) (q : Nat) (f : Queue → Queue) : (s.onQueue q f).mem = s.mem := rfl
@[simp] theorem State.onQueue_memPoison (s : State) (q : Nat) (f : Queue → Queue) : (s.onQueue q f).memPoison = s.memPoison := rfl
@[simp] theorem State.onQueue_acc (s : State) (q : Nat) (f : Queue → Queue) : (s.onQueue q f).acc = s.acc := rfl
@[simp] theorem State.onQueue_accPoison (s : State) (q : Nat) (f : Queue → Queue) : (s.onQueue q f).accPoison = s.accPoison := rfl
@[simp] theorem State.onQueue_wgs (s : State) (q : Nat) (f : Queue → Queue) : (s.onQueue q f).wgs = s.wgs := rfl
@[simp] theorem State.onQueue_runs (s : State) (q : Nat) (f : Queue → Queue) : (s.onQueue q f).runs = s.runs := rfl
@[simp] theorem State.onQueue_entries (s : State) (q : Nat) (f : Queue → Queue) : (s.onQueue q f).entries = s.entries := rfl
@[simp] theorem State.onQueue_logPend (s : State) (q : Nat) (f : Queue → Queue) : (s.onQueue q f).logPend = s.logPend := rfl
@[simp] theorem State.onQueue_flights (s : State) (q : Nat) (f : Queue → Queue) : (s.onQueue q f).flights = s.flights := rfl
@[simp] theorem State.onQueue_l1 (s : State) (q : Nat) (f : Queue → Queue) : (s.onQueue q f).l1 = s.l1 := rfl
@[simp] theorem State.onQueue_owner (s : State) (q : Nat) (f : Queue → Queue) : (s.onQueue q f).owner = s.owner := rfl
@[simp] theorem State.onQueue_barriers (s : State) (q : Nat) (f : Queue → Queue) : (s.onQueue q f).barriers = s.barriers := rfl
@[simp] theorem State.onQueue_copies (s : State) (q : Nat) (f : Queue → Queue) : (s.onQueue q f).copies = s.copies := rfl
@[simp] theorem State.onQueue_inbound (s : State) (q : Nat) (f : Queue → Queue) : (s.onQueue q f).inbound = s.inbound := rfl
@[simp] theorem State.onQueue_score (s : State) (q : Nat) (f : Queue → Queue) : (s.onQueue q f).score = s.score := rfl
@[simp] theorem State.onQueue_matops (s : State) (q : Nat) (f : Queue → Queue) : (s.onQueue q f).matops = s.matops := rfl
@[simp] theorem State.onQueue_colls (s : State) (q : Nat) (f : Queue → Queue) : (s.onQueue q f).colls = s.colls := rfl
@[simp] theorem State.onQueue_slots (s : State) (q : Nat) (f : Queue → Queue) : (s.onQueue q f).slots = s.slots := rfl
@[simp] theorem State.onQueue_tlb (s : State) (q : Nat) (f : Queue → Queue) : (s.onQueue q f).tlb = s.tlb := rfl
@[simp] theorem State.onQueue_watches (s : State) (q : Nat) (f : Queue → Queue) : (s.onQueue q f).watches = s.watches := rfl
@[simp] theorem State.onQueue_reserved (s : State) (q : Nat) (f : Queue → Queue) : (s.onQueue q f).reserved = s.reserved := rfl
@[simp] theorem State.onQueue_gangs (s : State) (q : Nat) (f : Queue → Queue) : (s.onQueue q f).gangs = s.gangs := rfl
@[simp] theorem State.onQueue_launches (s : State) (q : Nat) (f : Queue → Queue) : (s.onQueue q f).launches = s.launches := rfl
@[simp] theorem State.onQueue_launchSeq (s : State) (q : Nat) (f : Queue → Queue) : (s.onQueue q f).launchSeq = s.launchSeq := rfl
@[simp] theorem State.onQueue_queues (s : State) (q : Nat) (f : Queue → Queue) : (s.onQueue q f).queues = s.queues.map fun x => if x.q = q then f x else x := rfl
@[simp] theorem State.onQueue_fot (s : State) (q : Nat) (f : Queue → Queue) : (s.onQueue q f).fot = s.fot := rfl
@[simp] theorem State.onQueue_extents (s : State) (q : Nat) (f : Queue → Queue) : (s.onQueue q f).extents = s.extents := rfl
@[simp] theorem State.onQueue_tags (s : State) (q : Nat) (f : Queue → Queue) : (s.onQueue q f).tags = s.tags := rfl
@[simp] theorem State.onQueue_seizures (s : State) (q : Nat) (f : Queue → Queue) : (s.onQueue q f).seizures = s.seizures := rfl
@[simp] theorem State.onQueue_gens (s : State) (q : Nat) (f : Queue → Queue) : (s.onQueue q f).gens = s.gens := rfl
@[simp] theorem State.onQueue_tenants (s : State) (q : Nat) (f : Queue → Queue) : (s.onQueue q f).tenants = s.tenants := rfl
@[simp] theorem State.onQueue_pendDebug (s : State) (q : Nat) (f : Queue → Queue) : (s.onQueue q f).pendDebug = s.pendDebug := rfl
@[simp] theorem State.onQueue_quieting (s : State) (q : Nat) (f : Queue → Queue) : (s.onQueue q f).quieting = s.quieting := rfl
@[simp] theorem State.onQueue_cfg (s : State) (q : Nat) (f : Queue → Queue) : (s.onQueue q f).cfg = s.cfg := rfl
@[simp] theorem State.onQueue_calActive (s : State) (q : Nat) (f : Queue → Queue) : (s.onQueue q f).calActive = s.calActive := rfl
@[simp] theorem State.onQueue_resetLocked (s : State) (q : Nat) (f : Queue → Queue) : (s.onQueue q f).resetLocked = s.resetLocked := rfl
@[simp] theorem State.onQueue_buckets (s : State) (q : Nat) (f : Queue → Queue) : (s.onQueue q f).buckets = s.buckets := rfl
@[simp] theorem State.onQueue_deficit (s : State) (q : Nat) (f : Queue → Queue) : (s.onQueue q f).deficit = s.deficit := rfl
@[simp] theorem State.onQueue_comparators (s : State) (q : Nat) (f : Queue → Queue) : (s.onQueue q f).comparators = s.comparators := rfl
@[simp] theorem State.onQueue_stepping (s : State) (q : Nat) (f : Queue → Queue) : (s.onQueue q f).stepping = s.stepping := rfl
@[simp] theorem State.onQueue_lastScan (s : State) (q : Nat) (f : Queue → Queue) : (s.onQueue q f).lastScan = s.lastScan := rfl
@[simp] theorem State.onQueue_scanReported (s : State) (q : Nat) (f : Queue → Queue) : (s.onQueue q f).scanReported = s.scanReported := rfl
@[simp] theorem State.onQueue_frozen (s : State) (q : Nat) (f : Queue → Queue) : (s.onQueue q f).frozen = s.frozen := rfl
@[simp] theorem State.onQueue_slice (s : State) (q : Nat) (f : Queue → Queue) : (s.onQueue q f).slice = s.slice := rfl
@[simp] theorem State.onQueue_keySlots (s : State) (q : Nat) (f : Queue → Queue) : (s.onQueue q f).keySlots = s.keySlots := rfl
@[simp] theorem State.onQueue_revoked (s : State) (q : Nat) (f : Queue → Queue) : (s.onQueue q f).revoked = s.revoked := rfl
@[simp] theorem State.onQueue_epochs (s : State) (q : Nat) (f : Queue → Queue) : (s.onQueue q f).epochs = s.epochs := rfl
@[simp] theorem State.onQueue_consumed (s : State) (q : Nat) (f : Queue → Queue) : (s.onQueue q f).consumed = s.consumed := rfl
@[simp] theorem State.onQueue_sealedCtxs (s : State) (q : Nat) (f : Queue → Queue) : (s.onQueue q f).sealedCtxs = s.sealedCtxs := rfl
@[simp] theorem State.onQueue_errSeq (s : State) (q : Nat) (f : Queue → Queue) : (s.onQueue q f).errSeq = s.errSeq := rfl
@[simp] theorem State.onQueue_outbox (s : State) (q : Nat) (f : Queue → Queue) : (s.onQueue q f).outbox = s.outbox := rfl
@[simp] theorem State.onQueue_island (s : State) (q : Nat) (f : Queue → Queue) : (s.onQueue q f).island = s.island := rfl
@[simp] theorem State.onQueue_booting (s : State) (q : Nat) (f : Queue → Queue) : (s.onQueue q f).booting = s.booting := rfl
@[simp] theorem State.onQueue_imageSlot (s : State) (q : Nat) (f : Queue → Queue) : (s.onQueue q f).imageSlot = s.imageSlot := rfl
@[simp] theorem State.onQueue_fused (s : State) (q : Nat) (f : Queue → Queue) : (s.onQueue q f).fused = s.fused := rfl
@[simp] theorem State.onQueue_quoting (s : State) (q : Nat) (f : Queue → Queue) : (s.onQueue q f).quoting = s.quoting := rfl
@[simp] theorem State.onQueue_quoted (s : State) (q : Nat) (f : Queue → Queue) : (s.onQueue q f).quoted = s.quoted := rfl
@[simp] theorem State.onQueue_agreed (s : State) (q : Nat) (f : Queue → Queue) : (s.onQueue q f).agreed = s.agreed := rfl
@[simp] theorem State.onQueue_mail (s : State) (q : Nat) (f : Queue → Queue) : (s.onQueue q f).mail = s.mail := rfl
@[simp] theorem State.onQueue_die0 (s : State) (q : Nat) (f : Queue → Queue) : (s.onQueue q f).die0 = s.die0 := rfl
@[simp] theorem State.onQueue_die1 (s : State) (q : Nat) (f : Queue → Queue) : (s.onQueue q f).die1 = s.die1 := rfl
@[simp] theorem State.onQueue_powerLimit (s : State) (q : Nat) (f : Queue → Queue) : (s.onQueue q f).powerLimit = s.powerLimit := rfl
@[simp] theorem State.onQueue_ns (s : State) (q : Nat) (f : Queue → Queue) : (s.onQueue q f).ns = s.ns := rfl
@[simp] theorem State.onQueue_routesLoaded (s : State) (q : Nat) (f : Queue → Queue) : (s.onQueue q f).routesLoaded = s.routesLoaded := rfl
@[simp] theorem State.onQueue_linkUp (s : State) (q : Nat) (f : Queue → Queue) : (s.onQueue q f).linkUp = s.linkUp := rfl
@[simp] theorem State.onQueue_stopped (s : State) (q : Nat) (f : Queue → Queue) : (s.onQueue q f).stopped = s.stopped := rfl
@[simp] theorem State.onQueue_stopsSent (s : State) (q : Nat) (f : Queue → Queue) : (s.onQueue q f).stopsSent = s.stopsSent := rfl
@[simp] theorem State.onQueue_buffered (s : State) (q : Nat) (f : Queue → Queue) : (s.onQueue q f).buffered = s.buffered := rfl
@[simp] theorem State.onQueue_lostRoutes (s : State) (q : Nat) (f : Queue → Queue) : (s.onQueue q f).lostRoutes = s.lostRoutes := rfl
@[simp] theorem State.onQueue_absentDevs (s : State) (q : Nat) (f : Queue → Queue) : (s.onQueue q f).absentDevs = s.absentDevs := rfl
@[simp] theorem State.onQueue_remoteOwn (s : State) (q : Nat) (f : Queue → Queue) : (s.onQueue q f).remoteOwn = s.remoteOwn := rfl
@[simp] theorem State.onQueue_podRegs (s : State) (q : Nat) (f : Queue → Queue) : (s.onQueue q f).podRegs = s.podRegs := rfl
@[simp] theorem State.onQueue_windows (s : State) (q : Nat) (f : Queue → Queue) : (s.onQueue q f).windows = s.windows := rfl
@[simp] theorem State.onQueue_sessions (s : State) (q : Nat) (f : Queue → Queue) : (s.onQueue q f).sessions = s.sessions := rfl
@[simp] theorem State.onQueue_agenda (s : State) (q : Nat) (f : Queue → Queue) : (s.onQueue q f).agenda = s.agenda := rfl
@[simp] theorem State.onQueue_freeCtr (s : State) (q : Nat) (f : Queue → Queue) : (s.onQueue q f).freeCtr = s.freeCtr := rfl
@[simp] theorem State.onQueue_nextId (s : State) (q : Nat) (f : Queue → Queue) : (s.onQueue q f).nextId = s.nextId := rfl

/-! ### `State.cfgSet` -/

@[simp] theorem State.cfgSet_mem (s : State) (a : Nat) (x : Word) : (s.cfgSet a x).mem = s.mem := rfl
@[simp] theorem State.cfgSet_memPoison (s : State) (a : Nat) (x : Word) : (s.cfgSet a x).memPoison = s.memPoison := rfl
@[simp] theorem State.cfgSet_acc (s : State) (a : Nat) (x : Word) : (s.cfgSet a x).acc = s.acc := rfl
@[simp] theorem State.cfgSet_accPoison (s : State) (a : Nat) (x : Word) : (s.cfgSet a x).accPoison = s.accPoison := rfl
@[simp] theorem State.cfgSet_wgs (s : State) (a : Nat) (x : Word) : (s.cfgSet a x).wgs = s.wgs := rfl
@[simp] theorem State.cfgSet_runs (s : State) (a : Nat) (x : Word) : (s.cfgSet a x).runs = s.runs := rfl
@[simp] theorem State.cfgSet_entries (s : State) (a : Nat) (x : Word) : (s.cfgSet a x).entries = s.entries := rfl
@[simp] theorem State.cfgSet_logPend (s : State) (a : Nat) (x : Word) : (s.cfgSet a x).logPend = s.logPend := rfl
@[simp] theorem State.cfgSet_flights (s : State) (a : Nat) (x : Word) : (s.cfgSet a x).flights = s.flights := rfl
@[simp] theorem State.cfgSet_l1 (s : State) (a : Nat) (x : Word) : (s.cfgSet a x).l1 = s.l1 := rfl
@[simp] theorem State.cfgSet_owner (s : State) (a : Nat) (x : Word) : (s.cfgSet a x).owner = s.owner := rfl
@[simp] theorem State.cfgSet_barriers (s : State) (a : Nat) (x : Word) : (s.cfgSet a x).barriers = s.barriers := rfl
@[simp] theorem State.cfgSet_copies (s : State) (a : Nat) (x : Word) : (s.cfgSet a x).copies = s.copies := rfl
@[simp] theorem State.cfgSet_inbound (s : State) (a : Nat) (x : Word) : (s.cfgSet a x).inbound = s.inbound := rfl
@[simp] theorem State.cfgSet_score (s : State) (a : Nat) (x : Word) : (s.cfgSet a x).score = s.score := rfl
@[simp] theorem State.cfgSet_matops (s : State) (a : Nat) (x : Word) : (s.cfgSet a x).matops = s.matops := rfl
@[simp] theorem State.cfgSet_colls (s : State) (a : Nat) (x : Word) : (s.cfgSet a x).colls = s.colls := rfl
@[simp] theorem State.cfgSet_slots (s : State) (a : Nat) (x : Word) : (s.cfgSet a x).slots = s.slots := rfl
@[simp] theorem State.cfgSet_tlb (s : State) (a : Nat) (x : Word) : (s.cfgSet a x).tlb = s.tlb := rfl
@[simp] theorem State.cfgSet_watches (s : State) (a : Nat) (x : Word) : (s.cfgSet a x).watches = s.watches := rfl
@[simp] theorem State.cfgSet_reserved (s : State) (a : Nat) (x : Word) : (s.cfgSet a x).reserved = s.reserved := rfl
@[simp] theorem State.cfgSet_gangs (s : State) (a : Nat) (x : Word) : (s.cfgSet a x).gangs = s.gangs := rfl
@[simp] theorem State.cfgSet_launches (s : State) (a : Nat) (x : Word) : (s.cfgSet a x).launches = s.launches := rfl
@[simp] theorem State.cfgSet_launchSeq (s : State) (a : Nat) (x : Word) : (s.cfgSet a x).launchSeq = s.launchSeq := rfl
@[simp] theorem State.cfgSet_queues (s : State) (a : Nat) (x : Word) : (s.cfgSet a x).queues = s.queues := rfl
@[simp] theorem State.cfgSet_fot (s : State) (a : Nat) (x : Word) : (s.cfgSet a x).fot = s.fot := rfl
@[simp] theorem State.cfgSet_extents (s : State) (a : Nat) (x : Word) : (s.cfgSet a x).extents = s.extents := rfl
@[simp] theorem State.cfgSet_tags (s : State) (a : Nat) (x : Word) : (s.cfgSet a x).tags = s.tags := rfl
@[simp] theorem State.cfgSet_seizures (s : State) (a : Nat) (x : Word) : (s.cfgSet a x).seizures = s.seizures := rfl
@[simp] theorem State.cfgSet_gens (s : State) (a : Nat) (x : Word) : (s.cfgSet a x).gens = s.gens := rfl
@[simp] theorem State.cfgSet_tenants (s : State) (a : Nat) (x : Word) : (s.cfgSet a x).tenants = s.tenants := rfl
@[simp] theorem State.cfgSet_pendDebug (s : State) (a : Nat) (x : Word) : (s.cfgSet a x).pendDebug = s.pendDebug := rfl
@[simp] theorem State.cfgSet_quieting (s : State) (a : Nat) (x : Word) : (s.cfgSet a x).quieting = s.quieting := rfl
@[simp] theorem State.cfgSet_cfg (s : State) (a : Nat) (x : Word) : (s.cfgSet a x).cfg = Table.set (cfgReset a) s.cfg a x := rfl
@[simp] theorem State.cfgSet_calActive (s : State) (a : Nat) (x : Word) : (s.cfgSet a x).calActive = s.calActive := rfl
@[simp] theorem State.cfgSet_resetLocked (s : State) (a : Nat) (x : Word) : (s.cfgSet a x).resetLocked = s.resetLocked := rfl
@[simp] theorem State.cfgSet_buckets (s : State) (a : Nat) (x : Word) : (s.cfgSet a x).buckets = s.buckets := rfl
@[simp] theorem State.cfgSet_deficit (s : State) (a : Nat) (x : Word) : (s.cfgSet a x).deficit = s.deficit := rfl
@[simp] theorem State.cfgSet_comparators (s : State) (a : Nat) (x : Word) : (s.cfgSet a x).comparators = s.comparators := rfl
@[simp] theorem State.cfgSet_stepping (s : State) (a : Nat) (x : Word) : (s.cfgSet a x).stepping = s.stepping := rfl
@[simp] theorem State.cfgSet_lastScan (s : State) (a : Nat) (x : Word) : (s.cfgSet a x).lastScan = s.lastScan := rfl
@[simp] theorem State.cfgSet_scanReported (s : State) (a : Nat) (x : Word) : (s.cfgSet a x).scanReported = s.scanReported := rfl
@[simp] theorem State.cfgSet_frozen (s : State) (a : Nat) (x : Word) : (s.cfgSet a x).frozen = s.frozen := rfl
@[simp] theorem State.cfgSet_slice (s : State) (a : Nat) (x : Word) : (s.cfgSet a x).slice = s.slice := rfl
@[simp] theorem State.cfgSet_keySlots (s : State) (a : Nat) (x : Word) : (s.cfgSet a x).keySlots = s.keySlots := rfl
@[simp] theorem State.cfgSet_revoked (s : State) (a : Nat) (x : Word) : (s.cfgSet a x).revoked = s.revoked := rfl
@[simp] theorem State.cfgSet_epochs (s : State) (a : Nat) (x : Word) : (s.cfgSet a x).epochs = s.epochs := rfl
@[simp] theorem State.cfgSet_consumed (s : State) (a : Nat) (x : Word) : (s.cfgSet a x).consumed = s.consumed := rfl
@[simp] theorem State.cfgSet_sealedCtxs (s : State) (a : Nat) (x : Word) : (s.cfgSet a x).sealedCtxs = s.sealedCtxs := rfl
@[simp] theorem State.cfgSet_errSeq (s : State) (a : Nat) (x : Word) : (s.cfgSet a x).errSeq = s.errSeq := rfl
@[simp] theorem State.cfgSet_outbox (s : State) (a : Nat) (x : Word) : (s.cfgSet a x).outbox = s.outbox := rfl
@[simp] theorem State.cfgSet_island (s : State) (a : Nat) (x : Word) : (s.cfgSet a x).island = s.island := rfl
@[simp] theorem State.cfgSet_booting (s : State) (a : Nat) (x : Word) : (s.cfgSet a x).booting = s.booting := rfl
@[simp] theorem State.cfgSet_imageSlot (s : State) (a : Nat) (x : Word) : (s.cfgSet a x).imageSlot = s.imageSlot := rfl
@[simp] theorem State.cfgSet_fused (s : State) (a : Nat) (x : Word) : (s.cfgSet a x).fused = s.fused := rfl
@[simp] theorem State.cfgSet_quoting (s : State) (a : Nat) (x : Word) : (s.cfgSet a x).quoting = s.quoting := rfl
@[simp] theorem State.cfgSet_quoted (s : State) (a : Nat) (x : Word) : (s.cfgSet a x).quoted = s.quoted := rfl
@[simp] theorem State.cfgSet_agreed (s : State) (a : Nat) (x : Word) : (s.cfgSet a x).agreed = s.agreed := rfl
@[simp] theorem State.cfgSet_mail (s : State) (a : Nat) (x : Word) : (s.cfgSet a x).mail = s.mail := rfl
@[simp] theorem State.cfgSet_die0 (s : State) (a : Nat) (x : Word) : (s.cfgSet a x).die0 = s.die0 := rfl
@[simp] theorem State.cfgSet_die1 (s : State) (a : Nat) (x : Word) : (s.cfgSet a x).die1 = s.die1 := rfl
@[simp] theorem State.cfgSet_powerLimit (s : State) (a : Nat) (x : Word) : (s.cfgSet a x).powerLimit = s.powerLimit := rfl
@[simp] theorem State.cfgSet_ns (s : State) (a : Nat) (x : Word) : (s.cfgSet a x).ns = s.ns := rfl
@[simp] theorem State.cfgSet_routesLoaded (s : State) (a : Nat) (x : Word) : (s.cfgSet a x).routesLoaded = s.routesLoaded := rfl
@[simp] theorem State.cfgSet_linkUp (s : State) (a : Nat) (x : Word) : (s.cfgSet a x).linkUp = s.linkUp := rfl
@[simp] theorem State.cfgSet_stopped (s : State) (a : Nat) (x : Word) : (s.cfgSet a x).stopped = s.stopped := rfl
@[simp] theorem State.cfgSet_stopsSent (s : State) (a : Nat) (x : Word) : (s.cfgSet a x).stopsSent = s.stopsSent := rfl
@[simp] theorem State.cfgSet_buffered (s : State) (a : Nat) (x : Word) : (s.cfgSet a x).buffered = s.buffered := rfl
@[simp] theorem State.cfgSet_lostRoutes (s : State) (a : Nat) (x : Word) : (s.cfgSet a x).lostRoutes = s.lostRoutes := rfl
@[simp] theorem State.cfgSet_absentDevs (s : State) (a : Nat) (x : Word) : (s.cfgSet a x).absentDevs = s.absentDevs := rfl
@[simp] theorem State.cfgSet_remoteOwn (s : State) (a : Nat) (x : Word) : (s.cfgSet a x).remoteOwn = s.remoteOwn := rfl
@[simp] theorem State.cfgSet_podRegs (s : State) (a : Nat) (x : Word) : (s.cfgSet a x).podRegs = s.podRegs := rfl
@[simp] theorem State.cfgSet_windows (s : State) (a : Nat) (x : Word) : (s.cfgSet a x).windows = s.windows := rfl
@[simp] theorem State.cfgSet_sessions (s : State) (a : Nat) (x : Word) : (s.cfgSet a x).sessions = s.sessions := rfl
@[simp] theorem State.cfgSet_agenda (s : State) (a : Nat) (x : Word) : (s.cfgSet a x).agenda = s.agenda := rfl
@[simp] theorem State.cfgSet_freeCtr (s : State) (a : Nat) (x : Word) : (s.cfgSet a x).freeCtr = s.freeCtr := rfl
@[simp] theorem State.cfgSet_nextId (s : State) (a : Nat) (x : Word) : (s.cfgSet a x).nextId = s.nextId := rfl

/-! ### `State.tagSet` -/

@[simp] theorem State.tagSet_mem (s : State) (kind id : Nat) (x : Tag) : (s.tagSet kind id x).mem = s.mem := rfl
@[simp] theorem State.tagSet_memPoison (s : State) (kind id : Nat) (x : Tag) : (s.tagSet kind id x).memPoison = s.memPoison := rfl
@[simp] theorem State.tagSet_acc (s : State) (kind id : Nat) (x : Tag) : (s.tagSet kind id x).acc = s.acc := rfl
@[simp] theorem State.tagSet_accPoison (s : State) (kind id : Nat) (x : Tag) : (s.tagSet kind id x).accPoison = s.accPoison := rfl
@[simp] theorem State.tagSet_wgs (s : State) (kind id : Nat) (x : Tag) : (s.tagSet kind id x).wgs = s.wgs := rfl
@[simp] theorem State.tagSet_runs (s : State) (kind id : Nat) (x : Tag) : (s.tagSet kind id x).runs = s.runs := rfl
@[simp] theorem State.tagSet_entries (s : State) (kind id : Nat) (x : Tag) : (s.tagSet kind id x).entries = s.entries := rfl
@[simp] theorem State.tagSet_logPend (s : State) (kind id : Nat) (x : Tag) : (s.tagSet kind id x).logPend = s.logPend := rfl
@[simp] theorem State.tagSet_flights (s : State) (kind id : Nat) (x : Tag) : (s.tagSet kind id x).flights = s.flights := rfl
@[simp] theorem State.tagSet_l1 (s : State) (kind id : Nat) (x : Tag) : (s.tagSet kind id x).l1 = s.l1 := rfl
@[simp] theorem State.tagSet_owner (s : State) (kind id : Nat) (x : Tag) : (s.tagSet kind id x).owner = s.owner := rfl
@[simp] theorem State.tagSet_barriers (s : State) (kind id : Nat) (x : Tag) : (s.tagSet kind id x).barriers = s.barriers := rfl
@[simp] theorem State.tagSet_copies (s : State) (kind id : Nat) (x : Tag) : (s.tagSet kind id x).copies = s.copies := rfl
@[simp] theorem State.tagSet_inbound (s : State) (kind id : Nat) (x : Tag) : (s.tagSet kind id x).inbound = s.inbound := rfl
@[simp] theorem State.tagSet_score (s : State) (kind id : Nat) (x : Tag) : (s.tagSet kind id x).score = s.score := rfl
@[simp] theorem State.tagSet_matops (s : State) (kind id : Nat) (x : Tag) : (s.tagSet kind id x).matops = s.matops := rfl
@[simp] theorem State.tagSet_colls (s : State) (kind id : Nat) (x : Tag) : (s.tagSet kind id x).colls = s.colls := rfl
@[simp] theorem State.tagSet_slots (s : State) (kind id : Nat) (x : Tag) : (s.tagSet kind id x).slots = s.slots := rfl
@[simp] theorem State.tagSet_tlb (s : State) (kind id : Nat) (x : Tag) : (s.tagSet kind id x).tlb = s.tlb := rfl
@[simp] theorem State.tagSet_watches (s : State) (kind id : Nat) (x : Tag) : (s.tagSet kind id x).watches = s.watches := rfl
@[simp] theorem State.tagSet_reserved (s : State) (kind id : Nat) (x : Tag) : (s.tagSet kind id x).reserved = s.reserved := rfl
@[simp] theorem State.tagSet_gangs (s : State) (kind id : Nat) (x : Tag) : (s.tagSet kind id x).gangs = s.gangs := rfl
@[simp] theorem State.tagSet_launches (s : State) (kind id : Nat) (x : Tag) : (s.tagSet kind id x).launches = s.launches := rfl
@[simp] theorem State.tagSet_launchSeq (s : State) (kind id : Nat) (x : Tag) : (s.tagSet kind id x).launchSeq = s.launchSeq := rfl
@[simp] theorem State.tagSet_queues (s : State) (kind id : Nat) (x : Tag) : (s.tagSet kind id x).queues = s.queues := rfl
@[simp] theorem State.tagSet_fot (s : State) (kind id : Nat) (x : Tag) : (s.tagSet kind id x).fot = s.fot := rfl
@[simp] theorem State.tagSet_extents (s : State) (kind id : Nat) (x : Tag) : (s.tagSet kind id x).extents = s.extents := rfl
@[simp] theorem State.tagSet_tags (s : State) (kind id : Nat) (x : Tag) : (s.tagSet kind id x).tags = Table.set unboundTag s.tags (kind * 2 ^ 32 + id) x := rfl
@[simp] theorem State.tagSet_seizures (s : State) (kind id : Nat) (x : Tag) : (s.tagSet kind id x).seizures = s.seizures := rfl
@[simp] theorem State.tagSet_gens (s : State) (kind id : Nat) (x : Tag) : (s.tagSet kind id x).gens = s.gens := rfl
@[simp] theorem State.tagSet_tenants (s : State) (kind id : Nat) (x : Tag) : (s.tagSet kind id x).tenants = s.tenants := rfl
@[simp] theorem State.tagSet_pendDebug (s : State) (kind id : Nat) (x : Tag) : (s.tagSet kind id x).pendDebug = s.pendDebug := rfl
@[simp] theorem State.tagSet_quieting (s : State) (kind id : Nat) (x : Tag) : (s.tagSet kind id x).quieting = s.quieting := rfl
@[simp] theorem State.tagSet_cfg (s : State) (kind id : Nat) (x : Tag) : (s.tagSet kind id x).cfg = s.cfg := rfl
@[simp] theorem State.tagSet_calActive (s : State) (kind id : Nat) (x : Tag) : (s.tagSet kind id x).calActive = s.calActive := rfl
@[simp] theorem State.tagSet_resetLocked (s : State) (kind id : Nat) (x : Tag) : (s.tagSet kind id x).resetLocked = s.resetLocked := rfl
@[simp] theorem State.tagSet_buckets (s : State) (kind id : Nat) (x : Tag) : (s.tagSet kind id x).buckets = s.buckets := rfl
@[simp] theorem State.tagSet_deficit (s : State) (kind id : Nat) (x : Tag) : (s.tagSet kind id x).deficit = s.deficit := rfl
@[simp] theorem State.tagSet_comparators (s : State) (kind id : Nat) (x : Tag) : (s.tagSet kind id x).comparators = s.comparators := rfl
@[simp] theorem State.tagSet_stepping (s : State) (kind id : Nat) (x : Tag) : (s.tagSet kind id x).stepping = s.stepping := rfl
@[simp] theorem State.tagSet_lastScan (s : State) (kind id : Nat) (x : Tag) : (s.tagSet kind id x).lastScan = s.lastScan := rfl
@[simp] theorem State.tagSet_scanReported (s : State) (kind id : Nat) (x : Tag) : (s.tagSet kind id x).scanReported = s.scanReported := rfl
@[simp] theorem State.tagSet_frozen (s : State) (kind id : Nat) (x : Tag) : (s.tagSet kind id x).frozen = s.frozen := rfl
@[simp] theorem State.tagSet_slice (s : State) (kind id : Nat) (x : Tag) : (s.tagSet kind id x).slice = s.slice := rfl
@[simp] theorem State.tagSet_keySlots (s : State) (kind id : Nat) (x : Tag) : (s.tagSet kind id x).keySlots = s.keySlots := rfl
@[simp] theorem State.tagSet_revoked (s : State) (kind id : Nat) (x : Tag) : (s.tagSet kind id x).revoked = s.revoked := rfl
@[simp] theorem State.tagSet_epochs (s : State) (kind id : Nat) (x : Tag) : (s.tagSet kind id x).epochs = s.epochs := rfl
@[simp] theorem State.tagSet_consumed (s : State) (kind id : Nat) (x : Tag) : (s.tagSet kind id x).consumed = s.consumed := rfl
@[simp] theorem State.tagSet_sealedCtxs (s : State) (kind id : Nat) (x : Tag) : (s.tagSet kind id x).sealedCtxs = s.sealedCtxs := rfl
@[simp] theorem State.tagSet_errSeq (s : State) (kind id : Nat) (x : Tag) : (s.tagSet kind id x).errSeq = s.errSeq := rfl
@[simp] theorem State.tagSet_outbox (s : State) (kind id : Nat) (x : Tag) : (s.tagSet kind id x).outbox = s.outbox := rfl
@[simp] theorem State.tagSet_island (s : State) (kind id : Nat) (x : Tag) : (s.tagSet kind id x).island = s.island := rfl
@[simp] theorem State.tagSet_booting (s : State) (kind id : Nat) (x : Tag) : (s.tagSet kind id x).booting = s.booting := rfl
@[simp] theorem State.tagSet_imageSlot (s : State) (kind id : Nat) (x : Tag) : (s.tagSet kind id x).imageSlot = s.imageSlot := rfl
@[simp] theorem State.tagSet_fused (s : State) (kind id : Nat) (x : Tag) : (s.tagSet kind id x).fused = s.fused := rfl
@[simp] theorem State.tagSet_quoting (s : State) (kind id : Nat) (x : Tag) : (s.tagSet kind id x).quoting = s.quoting := rfl
@[simp] theorem State.tagSet_quoted (s : State) (kind id : Nat) (x : Tag) : (s.tagSet kind id x).quoted = s.quoted := rfl
@[simp] theorem State.tagSet_agreed (s : State) (kind id : Nat) (x : Tag) : (s.tagSet kind id x).agreed = s.agreed := rfl
@[simp] theorem State.tagSet_mail (s : State) (kind id : Nat) (x : Tag) : (s.tagSet kind id x).mail = s.mail := rfl
@[simp] theorem State.tagSet_die0 (s : State) (kind id : Nat) (x : Tag) : (s.tagSet kind id x).die0 = s.die0 := rfl
@[simp] theorem State.tagSet_die1 (s : State) (kind id : Nat) (x : Tag) : (s.tagSet kind id x).die1 = s.die1 := rfl
@[simp] theorem State.tagSet_powerLimit (s : State) (kind id : Nat) (x : Tag) : (s.tagSet kind id x).powerLimit = s.powerLimit := rfl
@[simp] theorem State.tagSet_ns (s : State) (kind id : Nat) (x : Tag) : (s.tagSet kind id x).ns = s.ns := rfl
@[simp] theorem State.tagSet_routesLoaded (s : State) (kind id : Nat) (x : Tag) : (s.tagSet kind id x).routesLoaded = s.routesLoaded := rfl
@[simp] theorem State.tagSet_linkUp (s : State) (kind id : Nat) (x : Tag) : (s.tagSet kind id x).linkUp = s.linkUp := rfl
@[simp] theorem State.tagSet_stopped (s : State) (kind id : Nat) (x : Tag) : (s.tagSet kind id x).stopped = s.stopped := rfl
@[simp] theorem State.tagSet_stopsSent (s : State) (kind id : Nat) (x : Tag) : (s.tagSet kind id x).stopsSent = s.stopsSent := rfl
@[simp] theorem State.tagSet_buffered (s : State) (kind id : Nat) (x : Tag) : (s.tagSet kind id x).buffered = s.buffered := rfl
@[simp] theorem State.tagSet_lostRoutes (s : State) (kind id : Nat) (x : Tag) : (s.tagSet kind id x).lostRoutes = s.lostRoutes := rfl
@[simp] theorem State.tagSet_absentDevs (s : State) (kind id : Nat) (x : Tag) : (s.tagSet kind id x).absentDevs = s.absentDevs := rfl
@[simp] theorem State.tagSet_remoteOwn (s : State) (kind id : Nat) (x : Tag) : (s.tagSet kind id x).remoteOwn = s.remoteOwn := rfl
@[simp] theorem State.tagSet_podRegs (s : State) (kind id : Nat) (x : Tag) : (s.tagSet kind id x).podRegs = s.podRegs := rfl
@[simp] theorem State.tagSet_windows (s : State) (kind id : Nat) (x : Tag) : (s.tagSet kind id x).windows = s.windows := rfl
@[simp] theorem State.tagSet_sessions (s : State) (kind id : Nat) (x : Tag) : (s.tagSet kind id x).sessions = s.sessions := rfl
@[simp] theorem State.tagSet_agenda (s : State) (kind id : Nat) (x : Tag) : (s.tagSet kind id x).agenda = s.agenda := rfl
@[simp] theorem State.tagSet_freeCtr (s : State) (kind id : Nat) (x : Tag) : (s.tagSet kind id x).freeCtr = s.freeCtr := rfl
@[simp] theorem State.tagSet_nextId (s : State) (kind id : Nat) (x : Tag) : (s.tagSet kind id x).nextId = s.nextId := rfl

/-! ### `State.fotSet` -/

@[simp] theorem State.fotSet_mem (s : State) (i : Nat) (x : Word) : (s.fotSet i x).mem = s.mem := rfl
@[simp] theorem State.fotSet_memPoison (s : State) (i : Nat) (x : Word) : (s.fotSet i x).memPoison = s.memPoison := rfl
@[simp] theorem State.fotSet_acc (s : State) (i : Nat) (x : Word) : (s.fotSet i x).acc = s.acc := rfl
@[simp] theorem State.fotSet_accPoison (s : State) (i : Nat) (x : Word) : (s.fotSet i x).accPoison = s.accPoison := rfl
@[simp] theorem State.fotSet_wgs (s : State) (i : Nat) (x : Word) : (s.fotSet i x).wgs = s.wgs := rfl
@[simp] theorem State.fotSet_runs (s : State) (i : Nat) (x : Word) : (s.fotSet i x).runs = s.runs := rfl
@[simp] theorem State.fotSet_entries (s : State) (i : Nat) (x : Word) : (s.fotSet i x).entries = s.entries := rfl
@[simp] theorem State.fotSet_logPend (s : State) (i : Nat) (x : Word) : (s.fotSet i x).logPend = s.logPend := rfl
@[simp] theorem State.fotSet_flights (s : State) (i : Nat) (x : Word) : (s.fotSet i x).flights = s.flights := rfl
@[simp] theorem State.fotSet_l1 (s : State) (i : Nat) (x : Word) : (s.fotSet i x).l1 = s.l1 := rfl
@[simp] theorem State.fotSet_owner (s : State) (i : Nat) (x : Word) : (s.fotSet i x).owner = s.owner := rfl
@[simp] theorem State.fotSet_barriers (s : State) (i : Nat) (x : Word) : (s.fotSet i x).barriers = s.barriers := rfl
@[simp] theorem State.fotSet_copies (s : State) (i : Nat) (x : Word) : (s.fotSet i x).copies = s.copies := rfl
@[simp] theorem State.fotSet_inbound (s : State) (i : Nat) (x : Word) : (s.fotSet i x).inbound = s.inbound := rfl
@[simp] theorem State.fotSet_score (s : State) (i : Nat) (x : Word) : (s.fotSet i x).score = s.score := rfl
@[simp] theorem State.fotSet_matops (s : State) (i : Nat) (x : Word) : (s.fotSet i x).matops = s.matops := rfl
@[simp] theorem State.fotSet_colls (s : State) (i : Nat) (x : Word) : (s.fotSet i x).colls = s.colls := rfl
@[simp] theorem State.fotSet_slots (s : State) (i : Nat) (x : Word) : (s.fotSet i x).slots = s.slots := rfl
@[simp] theorem State.fotSet_tlb (s : State) (i : Nat) (x : Word) : (s.fotSet i x).tlb = s.tlb := rfl
@[simp] theorem State.fotSet_watches (s : State) (i : Nat) (x : Word) : (s.fotSet i x).watches = s.watches := rfl
@[simp] theorem State.fotSet_reserved (s : State) (i : Nat) (x : Word) : (s.fotSet i x).reserved = s.reserved := rfl
@[simp] theorem State.fotSet_gangs (s : State) (i : Nat) (x : Word) : (s.fotSet i x).gangs = s.gangs := rfl
@[simp] theorem State.fotSet_launches (s : State) (i : Nat) (x : Word) : (s.fotSet i x).launches = s.launches := rfl
@[simp] theorem State.fotSet_launchSeq (s : State) (i : Nat) (x : Word) : (s.fotSet i x).launchSeq = s.launchSeq := rfl
@[simp] theorem State.fotSet_queues (s : State) (i : Nat) (x : Word) : (s.fotSet i x).queues = s.queues := rfl
@[simp] theorem State.fotSet_fot (s : State) (i : Nat) (x : Word) : (s.fotSet i x).fot = Table.set 0x000FFF00#32 s.fot i x := rfl
@[simp] theorem State.fotSet_extents (s : State) (i : Nat) (x : Word) : (s.fotSet i x).extents = s.extents := rfl
@[simp] theorem State.fotSet_tags (s : State) (i : Nat) (x : Word) : (s.fotSet i x).tags = s.tags := rfl
@[simp] theorem State.fotSet_seizures (s : State) (i : Nat) (x : Word) : (s.fotSet i x).seizures = s.seizures := rfl
@[simp] theorem State.fotSet_gens (s : State) (i : Nat) (x : Word) : (s.fotSet i x).gens = s.gens := rfl
@[simp] theorem State.fotSet_tenants (s : State) (i : Nat) (x : Word) : (s.fotSet i x).tenants = s.tenants := rfl
@[simp] theorem State.fotSet_pendDebug (s : State) (i : Nat) (x : Word) : (s.fotSet i x).pendDebug = s.pendDebug := rfl
@[simp] theorem State.fotSet_quieting (s : State) (i : Nat) (x : Word) : (s.fotSet i x).quieting = s.quieting := rfl
@[simp] theorem State.fotSet_cfg (s : State) (i : Nat) (x : Word) : (s.fotSet i x).cfg = s.cfg := rfl
@[simp] theorem State.fotSet_calActive (s : State) (i : Nat) (x : Word) : (s.fotSet i x).calActive = s.calActive := rfl
@[simp] theorem State.fotSet_resetLocked (s : State) (i : Nat) (x : Word) : (s.fotSet i x).resetLocked = s.resetLocked := rfl
@[simp] theorem State.fotSet_buckets (s : State) (i : Nat) (x : Word) : (s.fotSet i x).buckets = s.buckets := rfl
@[simp] theorem State.fotSet_deficit (s : State) (i : Nat) (x : Word) : (s.fotSet i x).deficit = s.deficit := rfl
@[simp] theorem State.fotSet_comparators (s : State) (i : Nat) (x : Word) : (s.fotSet i x).comparators = s.comparators := rfl
@[simp] theorem State.fotSet_stepping (s : State) (i : Nat) (x : Word) : (s.fotSet i x).stepping = s.stepping := rfl
@[simp] theorem State.fotSet_lastScan (s : State) (i : Nat) (x : Word) : (s.fotSet i x).lastScan = s.lastScan := rfl
@[simp] theorem State.fotSet_scanReported (s : State) (i : Nat) (x : Word) : (s.fotSet i x).scanReported = s.scanReported := rfl
@[simp] theorem State.fotSet_frozen (s : State) (i : Nat) (x : Word) : (s.fotSet i x).frozen = s.frozen := rfl
@[simp] theorem State.fotSet_slice (s : State) (i : Nat) (x : Word) : (s.fotSet i x).slice = s.slice := rfl
@[simp] theorem State.fotSet_keySlots (s : State) (i : Nat) (x : Word) : (s.fotSet i x).keySlots = s.keySlots := rfl
@[simp] theorem State.fotSet_revoked (s : State) (i : Nat) (x : Word) : (s.fotSet i x).revoked = s.revoked := rfl
@[simp] theorem State.fotSet_epochs (s : State) (i : Nat) (x : Word) : (s.fotSet i x).epochs = s.epochs := rfl
@[simp] theorem State.fotSet_consumed (s : State) (i : Nat) (x : Word) : (s.fotSet i x).consumed = s.consumed := rfl
@[simp] theorem State.fotSet_sealedCtxs (s : State) (i : Nat) (x : Word) : (s.fotSet i x).sealedCtxs = s.sealedCtxs := rfl
@[simp] theorem State.fotSet_errSeq (s : State) (i : Nat) (x : Word) : (s.fotSet i x).errSeq = s.errSeq := rfl
@[simp] theorem State.fotSet_outbox (s : State) (i : Nat) (x : Word) : (s.fotSet i x).outbox = s.outbox := rfl
@[simp] theorem State.fotSet_island (s : State) (i : Nat) (x : Word) : (s.fotSet i x).island = s.island := rfl
@[simp] theorem State.fotSet_booting (s : State) (i : Nat) (x : Word) : (s.fotSet i x).booting = s.booting := rfl
@[simp] theorem State.fotSet_imageSlot (s : State) (i : Nat) (x : Word) : (s.fotSet i x).imageSlot = s.imageSlot := rfl
@[simp] theorem State.fotSet_fused (s : State) (i : Nat) (x : Word) : (s.fotSet i x).fused = s.fused := rfl
@[simp] theorem State.fotSet_quoting (s : State) (i : Nat) (x : Word) : (s.fotSet i x).quoting = s.quoting := rfl
@[simp] theorem State.fotSet_quoted (s : State) (i : Nat) (x : Word) : (s.fotSet i x).quoted = s.quoted := rfl
@[simp] theorem State.fotSet_agreed (s : State) (i : Nat) (x : Word) : (s.fotSet i x).agreed = s.agreed := rfl
@[simp] theorem State.fotSet_mail (s : State) (i : Nat) (x : Word) : (s.fotSet i x).mail = s.mail := rfl
@[simp] theorem State.fotSet_die0 (s : State) (i : Nat) (x : Word) : (s.fotSet i x).die0 = s.die0 := rfl
@[simp] theorem State.fotSet_die1 (s : State) (i : Nat) (x : Word) : (s.fotSet i x).die1 = s.die1 := rfl
@[simp] theorem State.fotSet_powerLimit (s : State) (i : Nat) (x : Word) : (s.fotSet i x).powerLimit = s.powerLimit := rfl
@[simp] theorem State.fotSet_ns (s : State) (i : Nat) (x : Word) : (s.fotSet i x).ns = s.ns := rfl
@[simp] theorem State.fotSet_routesLoaded (s : State) (i : Nat) (x : Word) : (s.fotSet i x).routesLoaded = s.routesLoaded := rfl
@[simp] theorem State.fotSet_linkUp (s : State) (i : Nat) (x : Word) : (s.fotSet i x).linkUp = s.linkUp := rfl
@[simp] theorem State.fotSet_stopped (s : State) (i : Nat) (x : Word) : (s.fotSet i x).stopped = s.stopped := rfl
@[simp] theorem State.fotSet_stopsSent (s : State) (i : Nat) (x : Word) : (s.fotSet i x).stopsSent = s.stopsSent := rfl
@[simp] theorem State.fotSet_buffered (s : State) (i : Nat) (x : Word) : (s.fotSet i x).buffered = s.buffered := rfl
@[simp] theorem State.fotSet_lostRoutes (s : State) (i : Nat) (x : Word) : (s.fotSet i x).lostRoutes = s.lostRoutes := rfl
@[simp] theorem State.fotSet_absentDevs (s : State) (i : Nat) (x : Word) : (s.fotSet i x).absentDevs = s.absentDevs := rfl
@[simp] theorem State.fotSet_remoteOwn (s : State) (i : Nat) (x : Word) : (s.fotSet i x).remoteOwn = s.remoteOwn := rfl
@[simp] theorem State.fotSet_podRegs (s : State) (i : Nat) (x : Word) : (s.fotSet i x).podRegs = s.podRegs := rfl
@[simp] theorem State.fotSet_windows (s : State) (i : Nat) (x : Word) : (s.fotSet i x).windows = s.windows := rfl
@[simp] theorem State.fotSet_sessions (s : State) (i : Nat) (x : Word) : (s.fotSet i x).sessions = s.sessions := rfl
@[simp] theorem State.fotSet_agenda (s : State) (i : Nat) (x : Word) : (s.fotSet i x).agenda = s.agenda := rfl
@[simp] theorem State.fotSet_freeCtr (s : State) (i : Nat) (x : Word) : (s.fotSet i x).freeCtr = s.freeCtr := rfl
@[simp] theorem State.fotSet_nextId (s : State) (i : Nat) (x : Word) : (s.fotSet i x).nextId = s.nextId := rfl

/-! ### `State.extSet` -/

@[simp] theorem State.extSet_mem (s : State) (i k : Nat) (x : Word) : (s.extSet i k x).mem = s.mem := rfl
@[simp] theorem State.extSet_memPoison (s : State) (i k : Nat) (x : Word) : (s.extSet i k x).memPoison = s.memPoison := rfl
@[simp] theorem State.extSet_acc (s : State) (i k : Nat) (x : Word) : (s.extSet i k x).acc = s.acc := rfl
@[simp] theorem State.extSet_accPoison (s : State) (i k : Nat) (x : Word) : (s.extSet i k x).accPoison = s.accPoison := rfl
@[simp] theorem State.extSet_wgs (s : State) (i k : Nat) (x : Word) : (s.extSet i k x).wgs = s.wgs := rfl
@[simp] theorem State.extSet_runs (s : State) (i k : Nat) (x : Word) : (s.extSet i k x).runs = s.runs := rfl
@[simp] theorem State.extSet_entries (s : State) (i k : Nat) (x : Word) : (s.extSet i k x).entries = s.entries := rfl
@[simp] theorem State.extSet_logPend (s : State) (i k : Nat) (x : Word) : (s.extSet i k x).logPend = s.logPend := rfl
@[simp] theorem State.extSet_flights (s : State) (i k : Nat) (x : Word) : (s.extSet i k x).flights = s.flights := rfl
@[simp] theorem State.extSet_l1 (s : State) (i k : Nat) (x : Word) : (s.extSet i k x).l1 = s.l1 := rfl
@[simp] theorem State.extSet_owner (s : State) (i k : Nat) (x : Word) : (s.extSet i k x).owner = s.owner := rfl
@[simp] theorem State.extSet_barriers (s : State) (i k : Nat) (x : Word) : (s.extSet i k x).barriers = s.barriers := rfl
@[simp] theorem State.extSet_copies (s : State) (i k : Nat) (x : Word) : (s.extSet i k x).copies = s.copies := rfl
@[simp] theorem State.extSet_inbound (s : State) (i k : Nat) (x : Word) : (s.extSet i k x).inbound = s.inbound := rfl
@[simp] theorem State.extSet_score (s : State) (i k : Nat) (x : Word) : (s.extSet i k x).score = s.score := rfl
@[simp] theorem State.extSet_matops (s : State) (i k : Nat) (x : Word) : (s.extSet i k x).matops = s.matops := rfl
@[simp] theorem State.extSet_colls (s : State) (i k : Nat) (x : Word) : (s.extSet i k x).colls = s.colls := rfl
@[simp] theorem State.extSet_slots (s : State) (i k : Nat) (x : Word) : (s.extSet i k x).slots = s.slots := rfl
@[simp] theorem State.extSet_tlb (s : State) (i k : Nat) (x : Word) : (s.extSet i k x).tlb = s.tlb := rfl
@[simp] theorem State.extSet_watches (s : State) (i k : Nat) (x : Word) : (s.extSet i k x).watches = s.watches := rfl
@[simp] theorem State.extSet_reserved (s : State) (i k : Nat) (x : Word) : (s.extSet i k x).reserved = s.reserved := rfl
@[simp] theorem State.extSet_gangs (s : State) (i k : Nat) (x : Word) : (s.extSet i k x).gangs = s.gangs := rfl
@[simp] theorem State.extSet_launches (s : State) (i k : Nat) (x : Word) : (s.extSet i k x).launches = s.launches := rfl
@[simp] theorem State.extSet_launchSeq (s : State) (i k : Nat) (x : Word) : (s.extSet i k x).launchSeq = s.launchSeq := rfl
@[simp] theorem State.extSet_queues (s : State) (i k : Nat) (x : Word) : (s.extSet i k x).queues = s.queues := rfl
@[simp] theorem State.extSet_fot (s : State) (i k : Nat) (x : Word) : (s.extSet i k x).fot = s.fot := rfl
@[simp] theorem State.extSet_extents (s : State) (i k : Nat) (x : Word) : (s.extSet i k x).extents = Table.set (if k = 0 then 0#32 else 0x000FFF00#32) s.extents (2 * i + k) x := rfl
@[simp] theorem State.extSet_tags (s : State) (i k : Nat) (x : Word) : (s.extSet i k x).tags = s.tags := rfl
@[simp] theorem State.extSet_seizures (s : State) (i k : Nat) (x : Word) : (s.extSet i k x).seizures = s.seizures := rfl
@[simp] theorem State.extSet_gens (s : State) (i k : Nat) (x : Word) : (s.extSet i k x).gens = s.gens := rfl
@[simp] theorem State.extSet_tenants (s : State) (i k : Nat) (x : Word) : (s.extSet i k x).tenants = s.tenants := rfl
@[simp] theorem State.extSet_pendDebug (s : State) (i k : Nat) (x : Word) : (s.extSet i k x).pendDebug = s.pendDebug := rfl
@[simp] theorem State.extSet_quieting (s : State) (i k : Nat) (x : Word) : (s.extSet i k x).quieting = s.quieting := rfl
@[simp] theorem State.extSet_cfg (s : State) (i k : Nat) (x : Word) : (s.extSet i k x).cfg = s.cfg := rfl
@[simp] theorem State.extSet_calActive (s : State) (i k : Nat) (x : Word) : (s.extSet i k x).calActive = s.calActive := rfl
@[simp] theorem State.extSet_resetLocked (s : State) (i k : Nat) (x : Word) : (s.extSet i k x).resetLocked = s.resetLocked := rfl
@[simp] theorem State.extSet_buckets (s : State) (i k : Nat) (x : Word) : (s.extSet i k x).buckets = s.buckets := rfl
@[simp] theorem State.extSet_deficit (s : State) (i k : Nat) (x : Word) : (s.extSet i k x).deficit = s.deficit := rfl
@[simp] theorem State.extSet_comparators (s : State) (i k : Nat) (x : Word) : (s.extSet i k x).comparators = s.comparators := rfl
@[simp] theorem State.extSet_stepping (s : State) (i k : Nat) (x : Word) : (s.extSet i k x).stepping = s.stepping := rfl
@[simp] theorem State.extSet_lastScan (s : State) (i k : Nat) (x : Word) : (s.extSet i k x).lastScan = s.lastScan := rfl
@[simp] theorem State.extSet_scanReported (s : State) (i k : Nat) (x : Word) : (s.extSet i k x).scanReported = s.scanReported := rfl
@[simp] theorem State.extSet_frozen (s : State) (i k : Nat) (x : Word) : (s.extSet i k x).frozen = s.frozen := rfl
@[simp] theorem State.extSet_slice (s : State) (i k : Nat) (x : Word) : (s.extSet i k x).slice = s.slice := rfl
@[simp] theorem State.extSet_keySlots (s : State) (i k : Nat) (x : Word) : (s.extSet i k x).keySlots = s.keySlots := rfl
@[simp] theorem State.extSet_revoked (s : State) (i k : Nat) (x : Word) : (s.extSet i k x).revoked = s.revoked := rfl
@[simp] theorem State.extSet_epochs (s : State) (i k : Nat) (x : Word) : (s.extSet i k x).epochs = s.epochs := rfl
@[simp] theorem State.extSet_consumed (s : State) (i k : Nat) (x : Word) : (s.extSet i k x).consumed = s.consumed := rfl
@[simp] theorem State.extSet_sealedCtxs (s : State) (i k : Nat) (x : Word) : (s.extSet i k x).sealedCtxs = s.sealedCtxs := rfl
@[simp] theorem State.extSet_errSeq (s : State) (i k : Nat) (x : Word) : (s.extSet i k x).errSeq = s.errSeq := rfl
@[simp] theorem State.extSet_outbox (s : State) (i k : Nat) (x : Word) : (s.extSet i k x).outbox = s.outbox := rfl
@[simp] theorem State.extSet_island (s : State) (i k : Nat) (x : Word) : (s.extSet i k x).island = s.island := rfl
@[simp] theorem State.extSet_booting (s : State) (i k : Nat) (x : Word) : (s.extSet i k x).booting = s.booting := rfl
@[simp] theorem State.extSet_imageSlot (s : State) (i k : Nat) (x : Word) : (s.extSet i k x).imageSlot = s.imageSlot := rfl
@[simp] theorem State.extSet_fused (s : State) (i k : Nat) (x : Word) : (s.extSet i k x).fused = s.fused := rfl
@[simp] theorem State.extSet_quoting (s : State) (i k : Nat) (x : Word) : (s.extSet i k x).quoting = s.quoting := rfl
@[simp] theorem State.extSet_quoted (s : State) (i k : Nat) (x : Word) : (s.extSet i k x).quoted = s.quoted := rfl
@[simp] theorem State.extSet_agreed (s : State) (i k : Nat) (x : Word) : (s.extSet i k x).agreed = s.agreed := rfl
@[simp] theorem State.extSet_mail (s : State) (i k : Nat) (x : Word) : (s.extSet i k x).mail = s.mail := rfl
@[simp] theorem State.extSet_die0 (s : State) (i k : Nat) (x : Word) : (s.extSet i k x).die0 = s.die0 := rfl
@[simp] theorem State.extSet_die1 (s : State) (i k : Nat) (x : Word) : (s.extSet i k x).die1 = s.die1 := rfl
@[simp] theorem State.extSet_powerLimit (s : State) (i k : Nat) (x : Word) : (s.extSet i k x).powerLimit = s.powerLimit := rfl
@[simp] theorem State.extSet_ns (s : State) (i k : Nat) (x : Word) : (s.extSet i k x).ns = s.ns := rfl
@[simp] theorem State.extSet_routesLoaded (s : State) (i k : Nat) (x : Word) : (s.extSet i k x).routesLoaded = s.routesLoaded := rfl
@[simp] theorem State.extSet_linkUp (s : State) (i k : Nat) (x : Word) : (s.extSet i k x).linkUp = s.linkUp := rfl
@[simp] theorem State.extSet_stopped (s : State) (i k : Nat) (x : Word) : (s.extSet i k x).stopped = s.stopped := rfl
@[simp] theorem State.extSet_stopsSent (s : State) (i k : Nat) (x : Word) : (s.extSet i k x).stopsSent = s.stopsSent := rfl
@[simp] theorem State.extSet_buffered (s : State) (i k : Nat) (x : Word) : (s.extSet i k x).buffered = s.buffered := rfl
@[simp] theorem State.extSet_lostRoutes (s : State) (i k : Nat) (x : Word) : (s.extSet i k x).lostRoutes = s.lostRoutes := rfl
@[simp] theorem State.extSet_absentDevs (s : State) (i k : Nat) (x : Word) : (s.extSet i k x).absentDevs = s.absentDevs := rfl
@[simp] theorem State.extSet_remoteOwn (s : State) (i k : Nat) (x : Word) : (s.extSet i k x).remoteOwn = s.remoteOwn := rfl
@[simp] theorem State.extSet_podRegs (s : State) (i k : Nat) (x : Word) : (s.extSet i k x).podRegs = s.podRegs := rfl
@[simp] theorem State.extSet_windows (s : State) (i k : Nat) (x : Word) : (s.extSet i k x).windows = s.windows := rfl
@[simp] theorem State.extSet_sessions (s : State) (i k : Nat) (x : Word) : (s.extSet i k x).sessions = s.sessions := rfl
@[simp] theorem State.extSet_agenda (s : State) (i k : Nat) (x : Word) : (s.extSet i k x).agenda = s.agenda := rfl
@[simp] theorem State.extSet_freeCtr (s : State) (i k : Nat) (x : Word) : (s.extSet i k x).freeCtr = s.freeCtr := rfl
@[simp] theorem State.extSet_nextId (s : State) (i k : Nat) (x : Word) : (s.extSet i k x).nextId = s.nextId := rfl

/-! ### `State.tlbSetAt` -/

@[simp] theorem State.tlbSetAt_mem (s : State) (quad i : Nat) (e : Option TEntry) : (s.tlbSetAt quad i e).mem = s.mem := rfl
@[simp] theorem State.tlbSetAt_memPoison (s : State) (quad i : Nat) (e : Option TEntry) : (s.tlbSetAt quad i e).memPoison = s.memPoison := rfl
@[simp] theorem State.tlbSetAt_acc (s : State) (quad i : Nat) (e : Option TEntry) : (s.tlbSetAt quad i e).acc = s.acc := rfl
@[simp] theorem State.tlbSetAt_accPoison (s : State) (quad i : Nat) (e : Option TEntry) : (s.tlbSetAt quad i e).accPoison = s.accPoison := rfl
@[simp] theorem State.tlbSetAt_wgs (s : State) (quad i : Nat) (e : Option TEntry) : (s.tlbSetAt quad i e).wgs = s.wgs := rfl
@[simp] theorem State.tlbSetAt_runs (s : State) (quad i : Nat) (e : Option TEntry) : (s.tlbSetAt quad i e).runs = s.runs := rfl
@[simp] theorem State.tlbSetAt_entries (s : State) (quad i : Nat) (e : Option TEntry) : (s.tlbSetAt quad i e).entries = s.entries := rfl
@[simp] theorem State.tlbSetAt_logPend (s : State) (quad i : Nat) (e : Option TEntry) : (s.tlbSetAt quad i e).logPend = s.logPend := rfl
@[simp] theorem State.tlbSetAt_flights (s : State) (quad i : Nat) (e : Option TEntry) : (s.tlbSetAt quad i e).flights = s.flights := rfl
@[simp] theorem State.tlbSetAt_l1 (s : State) (quad i : Nat) (e : Option TEntry) : (s.tlbSetAt quad i e).l1 = s.l1 := rfl
@[simp] theorem State.tlbSetAt_owner (s : State) (quad i : Nat) (e : Option TEntry) : (s.tlbSetAt quad i e).owner = s.owner := rfl
@[simp] theorem State.tlbSetAt_barriers (s : State) (quad i : Nat) (e : Option TEntry) : (s.tlbSetAt quad i e).barriers = s.barriers := rfl
@[simp] theorem State.tlbSetAt_copies (s : State) (quad i : Nat) (e : Option TEntry) : (s.tlbSetAt quad i e).copies = s.copies := rfl
@[simp] theorem State.tlbSetAt_inbound (s : State) (quad i : Nat) (e : Option TEntry) : (s.tlbSetAt quad i e).inbound = s.inbound := rfl
@[simp] theorem State.tlbSetAt_score (s : State) (quad i : Nat) (e : Option TEntry) : (s.tlbSetAt quad i e).score = s.score := rfl
@[simp] theorem State.tlbSetAt_matops (s : State) (quad i : Nat) (e : Option TEntry) : (s.tlbSetAt quad i e).matops = s.matops := rfl
@[simp] theorem State.tlbSetAt_colls (s : State) (quad i : Nat) (e : Option TEntry) : (s.tlbSetAt quad i e).colls = s.colls := rfl
@[simp] theorem State.tlbSetAt_slots (s : State) (quad i : Nat) (e : Option TEntry) : (s.tlbSetAt quad i e).slots = s.slots := rfl
@[simp] theorem State.tlbSetAt_tlb (s : State) (quad i : Nat) (e : Option TEntry) : (s.tlbSetAt quad i e).tlb = Table.set none s.tlb (tlbKey quad i) e := rfl
@[simp] theorem State.tlbSetAt_watches (s : State) (quad i : Nat) (e : Option TEntry) : (s.tlbSetAt quad i e).watches = s.watches := rfl
@[simp] theorem State.tlbSetAt_reserved (s : State) (quad i : Nat) (e : Option TEntry) : (s.tlbSetAt quad i e).reserved = s.reserved := rfl
@[simp] theorem State.tlbSetAt_gangs (s : State) (quad i : Nat) (e : Option TEntry) : (s.tlbSetAt quad i e).gangs = s.gangs := rfl
@[simp] theorem State.tlbSetAt_launches (s : State) (quad i : Nat) (e : Option TEntry) : (s.tlbSetAt quad i e).launches = s.launches := rfl
@[simp] theorem State.tlbSetAt_launchSeq (s : State) (quad i : Nat) (e : Option TEntry) : (s.tlbSetAt quad i e).launchSeq = s.launchSeq := rfl
@[simp] theorem State.tlbSetAt_queues (s : State) (quad i : Nat) (e : Option TEntry) : (s.tlbSetAt quad i e).queues = s.queues := rfl
@[simp] theorem State.tlbSetAt_fot (s : State) (quad i : Nat) (e : Option TEntry) : (s.tlbSetAt quad i e).fot = s.fot := rfl
@[simp] theorem State.tlbSetAt_extents (s : State) (quad i : Nat) (e : Option TEntry) : (s.tlbSetAt quad i e).extents = s.extents := rfl
@[simp] theorem State.tlbSetAt_tags (s : State) (quad i : Nat) (e : Option TEntry) : (s.tlbSetAt quad i e).tags = s.tags := rfl
@[simp] theorem State.tlbSetAt_seizures (s : State) (quad i : Nat) (e : Option TEntry) : (s.tlbSetAt quad i e).seizures = s.seizures := rfl
@[simp] theorem State.tlbSetAt_gens (s : State) (quad i : Nat) (e : Option TEntry) : (s.tlbSetAt quad i e).gens = s.gens := rfl
@[simp] theorem State.tlbSetAt_tenants (s : State) (quad i : Nat) (e : Option TEntry) : (s.tlbSetAt quad i e).tenants = s.tenants := rfl
@[simp] theorem State.tlbSetAt_pendDebug (s : State) (quad i : Nat) (e : Option TEntry) : (s.tlbSetAt quad i e).pendDebug = s.pendDebug := rfl
@[simp] theorem State.tlbSetAt_quieting (s : State) (quad i : Nat) (e : Option TEntry) : (s.tlbSetAt quad i e).quieting = s.quieting := rfl
@[simp] theorem State.tlbSetAt_cfg (s : State) (quad i : Nat) (e : Option TEntry) : (s.tlbSetAt quad i e).cfg = s.cfg := rfl
@[simp] theorem State.tlbSetAt_calActive (s : State) (quad i : Nat) (e : Option TEntry) : (s.tlbSetAt quad i e).calActive = s.calActive := rfl
@[simp] theorem State.tlbSetAt_resetLocked (s : State) (quad i : Nat) (e : Option TEntry) : (s.tlbSetAt quad i e).resetLocked = s.resetLocked := rfl
@[simp] theorem State.tlbSetAt_buckets (s : State) (quad i : Nat) (e : Option TEntry) : (s.tlbSetAt quad i e).buckets = s.buckets := rfl
@[simp] theorem State.tlbSetAt_deficit (s : State) (quad i : Nat) (e : Option TEntry) : (s.tlbSetAt quad i e).deficit = s.deficit := rfl
@[simp] theorem State.tlbSetAt_comparators (s : State) (quad i : Nat) (e : Option TEntry) : (s.tlbSetAt quad i e).comparators = s.comparators := rfl
@[simp] theorem State.tlbSetAt_stepping (s : State) (quad i : Nat) (e : Option TEntry) : (s.tlbSetAt quad i e).stepping = s.stepping := rfl
@[simp] theorem State.tlbSetAt_lastScan (s : State) (quad i : Nat) (e : Option TEntry) : (s.tlbSetAt quad i e).lastScan = s.lastScan := rfl
@[simp] theorem State.tlbSetAt_scanReported (s : State) (quad i : Nat) (e : Option TEntry) : (s.tlbSetAt quad i e).scanReported = s.scanReported := rfl
@[simp] theorem State.tlbSetAt_frozen (s : State) (quad i : Nat) (e : Option TEntry) : (s.tlbSetAt quad i e).frozen = s.frozen := rfl
@[simp] theorem State.tlbSetAt_slice (s : State) (quad i : Nat) (e : Option TEntry) : (s.tlbSetAt quad i e).slice = s.slice := rfl
@[simp] theorem State.tlbSetAt_keySlots (s : State) (quad i : Nat) (e : Option TEntry) : (s.tlbSetAt quad i e).keySlots = s.keySlots := rfl
@[simp] theorem State.tlbSetAt_revoked (s : State) (quad i : Nat) (e : Option TEntry) : (s.tlbSetAt quad i e).revoked = s.revoked := rfl
@[simp] theorem State.tlbSetAt_epochs (s : State) (quad i : Nat) (e : Option TEntry) : (s.tlbSetAt quad i e).epochs = s.epochs := rfl
@[simp] theorem State.tlbSetAt_consumed (s : State) (quad i : Nat) (e : Option TEntry) : (s.tlbSetAt quad i e).consumed = s.consumed := rfl
@[simp] theorem State.tlbSetAt_sealedCtxs (s : State) (quad i : Nat) (e : Option TEntry) : (s.tlbSetAt quad i e).sealedCtxs = s.sealedCtxs := rfl
@[simp] theorem State.tlbSetAt_errSeq (s : State) (quad i : Nat) (e : Option TEntry) : (s.tlbSetAt quad i e).errSeq = s.errSeq := rfl
@[simp] theorem State.tlbSetAt_outbox (s : State) (quad i : Nat) (e : Option TEntry) : (s.tlbSetAt quad i e).outbox = s.outbox := rfl
@[simp] theorem State.tlbSetAt_island (s : State) (quad i : Nat) (e : Option TEntry) : (s.tlbSetAt quad i e).island = s.island := rfl
@[simp] theorem State.tlbSetAt_booting (s : State) (quad i : Nat) (e : Option TEntry) : (s.tlbSetAt quad i e).booting = s.booting := rfl
@[simp] theorem State.tlbSetAt_imageSlot (s : State) (quad i : Nat) (e : Option TEntry) : (s.tlbSetAt quad i e).imageSlot = s.imageSlot := rfl
@[simp] theorem State.tlbSetAt_fused (s : State) (quad i : Nat) (e : Option TEntry) : (s.tlbSetAt quad i e).fused = s.fused := rfl
@[simp] theorem State.tlbSetAt_quoting (s : State) (quad i : Nat) (e : Option TEntry) : (s.tlbSetAt quad i e).quoting = s.quoting := rfl
@[simp] theorem State.tlbSetAt_quoted (s : State) (quad i : Nat) (e : Option TEntry) : (s.tlbSetAt quad i e).quoted = s.quoted := rfl
@[simp] theorem State.tlbSetAt_agreed (s : State) (quad i : Nat) (e : Option TEntry) : (s.tlbSetAt quad i e).agreed = s.agreed := rfl
@[simp] theorem State.tlbSetAt_mail (s : State) (quad i : Nat) (e : Option TEntry) : (s.tlbSetAt quad i e).mail = s.mail := rfl
@[simp] theorem State.tlbSetAt_die0 (s : State) (quad i : Nat) (e : Option TEntry) : (s.tlbSetAt quad i e).die0 = s.die0 := rfl
@[simp] theorem State.tlbSetAt_die1 (s : State) (quad i : Nat) (e : Option TEntry) : (s.tlbSetAt quad i e).die1 = s.die1 := rfl
@[simp] theorem State.tlbSetAt_powerLimit (s : State) (quad i : Nat) (e : Option TEntry) : (s.tlbSetAt quad i e).powerLimit = s.powerLimit := rfl
@[simp] theorem State.tlbSetAt_ns (s : State) (quad i : Nat) (e : Option TEntry) : (s.tlbSetAt quad i e).ns = s.ns := rfl
@[simp] theorem State.tlbSetAt_routesLoaded (s : State) (quad i : Nat) (e : Option TEntry) : (s.tlbSetAt quad i e).routesLoaded = s.routesLoaded := rfl
@[simp] theorem State.tlbSetAt_linkUp (s : State) (quad i : Nat) (e : Option TEntry) : (s.tlbSetAt quad i e).linkUp = s.linkUp := rfl
@[simp] theorem State.tlbSetAt_stopped (s : State) (quad i : Nat) (e : Option TEntry) : (s.tlbSetAt quad i e).stopped = s.stopped := rfl
@[simp] theorem State.tlbSetAt_stopsSent (s : State) (quad i : Nat) (e : Option TEntry) : (s.tlbSetAt quad i e).stopsSent = s.stopsSent := rfl
@[simp] theorem State.tlbSetAt_buffered (s : State) (quad i : Nat) (e : Option TEntry) : (s.tlbSetAt quad i e).buffered = s.buffered := rfl
@[simp] theorem State.tlbSetAt_lostRoutes (s : State) (quad i : Nat) (e : Option TEntry) : (s.tlbSetAt quad i e).lostRoutes = s.lostRoutes := rfl
@[simp] theorem State.tlbSetAt_absentDevs (s : State) (quad i : Nat) (e : Option TEntry) : (s.tlbSetAt quad i e).absentDevs = s.absentDevs := rfl
@[simp] theorem State.tlbSetAt_remoteOwn (s : State) (quad i : Nat) (e : Option TEntry) : (s.tlbSetAt quad i e).remoteOwn = s.remoteOwn := rfl
@[simp] theorem State.tlbSetAt_podRegs (s : State) (quad i : Nat) (e : Option TEntry) : (s.tlbSetAt quad i e).podRegs = s.podRegs := rfl
@[simp] theorem State.tlbSetAt_windows (s : State) (quad i : Nat) (e : Option TEntry) : (s.tlbSetAt quad i e).windows = s.windows := rfl
@[simp] theorem State.tlbSetAt_sessions (s : State) (quad i : Nat) (e : Option TEntry) : (s.tlbSetAt quad i e).sessions = s.sessions := rfl
@[simp] theorem State.tlbSetAt_agenda (s : State) (quad i : Nat) (e : Option TEntry) : (s.tlbSetAt quad i e).agenda = s.agenda := rfl
@[simp] theorem State.tlbSetAt_freeCtr (s : State) (quad i : Nat) (e : Option TEntry) : (s.tlbSetAt quad i e).freeCtr = s.freeCtr := rfl
@[simp] theorem State.tlbSetAt_nextId (s : State) (quad i : Nat) (e : Option TEntry) : (s.tlbSetAt quad i e).nextId = s.nextId := rfl

/-! ### `State.advanceFree` -/

@[simp] theorem State.advanceFree_mem (s : State) : (s.advanceFree).mem = s.mem := rfl
@[simp] theorem State.advanceFree_memPoison (s : State) : (s.advanceFree).memPoison = s.memPoison := rfl
@[simp] theorem State.advanceFree_acc (s : State) : (s.advanceFree).acc = s.acc := rfl
@[simp] theorem State.advanceFree_accPoison (s : State) : (s.advanceFree).accPoison = s.accPoison := rfl
@[simp] theorem State.advanceFree_wgs (s : State) : (s.advanceFree).wgs = s.wgs := rfl
@[simp] theorem State.advanceFree_runs (s : State) : (s.advanceFree).runs = s.runs := rfl
@[simp] theorem State.advanceFree_entries (s : State) : (s.advanceFree).entries = s.entries := rfl
@[simp] theorem State.advanceFree_logPend (s : State) : (s.advanceFree).logPend = s.logPend := rfl
@[simp] theorem State.advanceFree_flights (s : State) : (s.advanceFree).flights = s.flights := rfl
@[simp] theorem State.advanceFree_l1 (s : State) : (s.advanceFree).l1 = s.l1 := rfl
@[simp] theorem State.advanceFree_owner (s : State) : (s.advanceFree).owner = s.owner := rfl
@[simp] theorem State.advanceFree_barriers (s : State) : (s.advanceFree).barriers = s.barriers := rfl
@[simp] theorem State.advanceFree_copies (s : State) : (s.advanceFree).copies = s.copies := rfl
@[simp] theorem State.advanceFree_inbound (s : State) : (s.advanceFree).inbound = s.inbound := rfl
@[simp] theorem State.advanceFree_score (s : State) : (s.advanceFree).score = s.score := rfl
@[simp] theorem State.advanceFree_matops (s : State) : (s.advanceFree).matops = s.matops := rfl
@[simp] theorem State.advanceFree_colls (s : State) : (s.advanceFree).colls = s.colls := rfl
@[simp] theorem State.advanceFree_slots (s : State) : (s.advanceFree).slots = s.slots := rfl
@[simp] theorem State.advanceFree_tlb (s : State) : (s.advanceFree).tlb = s.tlb := rfl
@[simp] theorem State.advanceFree_watches (s : State) : (s.advanceFree).watches = s.watches := rfl
@[simp] theorem State.advanceFree_reserved (s : State) : (s.advanceFree).reserved = s.reserved := rfl
@[simp] theorem State.advanceFree_gangs (s : State) : (s.advanceFree).gangs = s.gangs := rfl
@[simp] theorem State.advanceFree_launches (s : State) : (s.advanceFree).launches = s.launches := rfl
@[simp] theorem State.advanceFree_launchSeq (s : State) : (s.advanceFree).launchSeq = s.launchSeq := rfl
@[simp] theorem State.advanceFree_queues (s : State) : (s.advanceFree).queues = s.queues := rfl
@[simp] theorem State.advanceFree_fot (s : State) : (s.advanceFree).fot = s.fot := rfl
@[simp] theorem State.advanceFree_extents (s : State) : (s.advanceFree).extents = s.extents := rfl
@[simp] theorem State.advanceFree_tags (s : State) : (s.advanceFree).tags = s.tags := rfl
@[simp] theorem State.advanceFree_seizures (s : State) : (s.advanceFree).seizures = s.seizures := rfl
@[simp] theorem State.advanceFree_gens (s : State) : (s.advanceFree).gens = s.gens := rfl
@[simp] theorem State.advanceFree_tenants (s : State) : (s.advanceFree).tenants = s.tenants := rfl
@[simp] theorem State.advanceFree_pendDebug (s : State) : (s.advanceFree).pendDebug = s.pendDebug := rfl
@[simp] theorem State.advanceFree_quieting (s : State) : (s.advanceFree).quieting = s.quieting := rfl
@[simp] theorem State.advanceFree_cfg (s : State) : (s.advanceFree).cfg = s.cfg := rfl
@[simp] theorem State.advanceFree_calActive (s : State) : (s.advanceFree).calActive = s.calActive := rfl
@[simp] theorem State.advanceFree_resetLocked (s : State) : (s.advanceFree).resetLocked = s.resetLocked := rfl
@[simp] theorem State.advanceFree_buckets (s : State) : (s.advanceFree).buckets = s.buckets := rfl
@[simp] theorem State.advanceFree_deficit (s : State) : (s.advanceFree).deficit = s.deficit := rfl
@[simp] theorem State.advanceFree_comparators (s : State) : (s.advanceFree).comparators = s.comparators := rfl
@[simp] theorem State.advanceFree_stepping (s : State) : (s.advanceFree).stepping = s.stepping := rfl
@[simp] theorem State.advanceFree_lastScan (s : State) : (s.advanceFree).lastScan = s.lastScan := rfl
@[simp] theorem State.advanceFree_scanReported (s : State) : (s.advanceFree).scanReported = s.scanReported := rfl
@[simp] theorem State.advanceFree_frozen (s : State) : (s.advanceFree).frozen = s.frozen := rfl
@[simp] theorem State.advanceFree_slice (s : State) : (s.advanceFree).slice = s.slice := rfl
@[simp] theorem State.advanceFree_keySlots (s : State) : (s.advanceFree).keySlots = s.keySlots := rfl
@[simp] theorem State.advanceFree_revoked (s : State) : (s.advanceFree).revoked = s.revoked := rfl
@[simp] theorem State.advanceFree_epochs (s : State) : (s.advanceFree).epochs = s.epochs := rfl
@[simp] theorem State.advanceFree_consumed (s : State) : (s.advanceFree).consumed = s.consumed := rfl
@[simp] theorem State.advanceFree_sealedCtxs (s : State) : (s.advanceFree).sealedCtxs = s.sealedCtxs := rfl
@[simp] theorem State.advanceFree_errSeq (s : State) : (s.advanceFree).errSeq = s.errSeq := rfl
@[simp] theorem State.advanceFree_outbox (s : State) : (s.advanceFree).outbox = s.outbox := rfl
@[simp] theorem State.advanceFree_island (s : State) : (s.advanceFree).island = s.island := rfl
@[simp] theorem State.advanceFree_booting (s : State) : (s.advanceFree).booting = s.booting := rfl
@[simp] theorem State.advanceFree_imageSlot (s : State) : (s.advanceFree).imageSlot = s.imageSlot := rfl
@[simp] theorem State.advanceFree_fused (s : State) : (s.advanceFree).fused = s.fused := rfl
@[simp] theorem State.advanceFree_quoting (s : State) : (s.advanceFree).quoting = s.quoting := rfl
@[simp] theorem State.advanceFree_quoted (s : State) : (s.advanceFree).quoted = s.quoted := rfl
@[simp] theorem State.advanceFree_agreed (s : State) : (s.advanceFree).agreed = s.agreed := rfl
@[simp] theorem State.advanceFree_mail (s : State) : (s.advanceFree).mail = s.mail := rfl
@[simp] theorem State.advanceFree_die0 (s : State) : (s.advanceFree).die0 = s.die0 := rfl
@[simp] theorem State.advanceFree_die1 (s : State) : (s.advanceFree).die1 = s.die1 := rfl
@[simp] theorem State.advanceFree_powerLimit (s : State) : (s.advanceFree).powerLimit = s.powerLimit := rfl
@[simp] theorem State.advanceFree_ns (s : State) : (s.advanceFree).ns = s.ns := rfl
@[simp] theorem State.advanceFree_routesLoaded (s : State) : (s.advanceFree).routesLoaded = s.routesLoaded := rfl
@[simp] theorem State.advanceFree_linkUp (s : State) : (s.advanceFree).linkUp = s.linkUp := rfl
@[simp] theorem State.advanceFree_stopped (s : State) : (s.advanceFree).stopped = s.stopped := rfl
@[simp] theorem State.advanceFree_stopsSent (s : State) : (s.advanceFree).stopsSent = s.stopsSent := rfl
@[simp] theorem State.advanceFree_buffered (s : State) : (s.advanceFree).buffered = s.buffered := rfl
@[simp] theorem State.advanceFree_lostRoutes (s : State) : (s.advanceFree).lostRoutes = s.lostRoutes := rfl
@[simp] theorem State.advanceFree_absentDevs (s : State) : (s.advanceFree).absentDevs = s.absentDevs := rfl
@[simp] theorem State.advanceFree_remoteOwn (s : State) : (s.advanceFree).remoteOwn = s.remoteOwn := rfl
@[simp] theorem State.advanceFree_podRegs (s : State) : (s.advanceFree).podRegs = s.podRegs := rfl
@[simp] theorem State.advanceFree_windows (s : State) : (s.advanceFree).windows = s.windows := rfl
@[simp] theorem State.advanceFree_sessions (s : State) : (s.advanceFree).sessions = s.sessions := rfl
@[simp] theorem State.advanceFree_agenda (s : State) : (s.advanceFree).agenda = s.agenda := rfl
@[simp] theorem State.advanceFree_freeCtr (s : State) : (s.advanceFree).freeCtr = s.freeCtr + 2 ^ 20 := rfl
@[simp] theorem State.advanceFree_nextId (s : State) : (s.advanceFree).nextId = s.nextId := rfl

/-! ### `State.dropRun` -/

@[simp] theorem State.dropRun_mem (s : State) (r : Run) : (s.dropRun r).mem = s.mem := rfl
@[simp] theorem State.dropRun_memPoison (s : State) (r : Run) : (s.dropRun r).memPoison = s.memPoison := rfl
@[simp] theorem State.dropRun_acc (s : State) (r : Run) : (s.dropRun r).acc = s.acc := rfl
@[simp] theorem State.dropRun_accPoison (s : State) (r : Run) : (s.dropRun r).accPoison = s.accPoison := rfl
@[simp] theorem State.dropRun_wgs (s : State) (r : Run) : (s.dropRun r).wgs = s.wgs := rfl
@[simp] theorem State.dropRun_runs (s : State) (r : Run) : (s.dropRun r).runs = s.runs.filter fun x => !(decide (x.core = r.core) && decide (x.port = r.port)) := rfl
@[simp] theorem State.dropRun_entries (s : State) (r : Run) : (s.dropRun r).entries = s.entries := rfl
@[simp] theorem State.dropRun_logPend (s : State) (r : Run) : (s.dropRun r).logPend = s.logPend := rfl
@[simp] theorem State.dropRun_flights (s : State) (r : Run) : (s.dropRun r).flights = s.flights := rfl
@[simp] theorem State.dropRun_l1 (s : State) (r : Run) : (s.dropRun r).l1 = s.l1 := rfl
@[simp] theorem State.dropRun_owner (s : State) (r : Run) : (s.dropRun r).owner = s.owner := rfl
@[simp] theorem State.dropRun_barriers (s : State) (r : Run) : (s.dropRun r).barriers = s.barriers := rfl
@[simp] theorem State.dropRun_copies (s : State) (r : Run) : (s.dropRun r).copies = s.copies := rfl
@[simp] theorem State.dropRun_inbound (s : State) (r : Run) : (s.dropRun r).inbound = s.inbound := rfl
@[simp] theorem State.dropRun_score (s : State) (r : Run) : (s.dropRun r).score = s.score := rfl
@[simp] theorem State.dropRun_matops (s : State) (r : Run) : (s.dropRun r).matops = s.matops := rfl
@[simp] theorem State.dropRun_colls (s : State) (r : Run) : (s.dropRun r).colls = s.colls := rfl
@[simp] theorem State.dropRun_slots (s : State) (r : Run) : (s.dropRun r).slots = s.slots := rfl
@[simp] theorem State.dropRun_tlb (s : State) (r : Run) : (s.dropRun r).tlb = s.tlb := rfl
@[simp] theorem State.dropRun_watches (s : State) (r : Run) : (s.dropRun r).watches = s.watches := rfl
@[simp] theorem State.dropRun_reserved (s : State) (r : Run) : (s.dropRun r).reserved = s.reserved := rfl
@[simp] theorem State.dropRun_gangs (s : State) (r : Run) : (s.dropRun r).gangs = s.gangs := rfl
@[simp] theorem State.dropRun_launches (s : State) (r : Run) : (s.dropRun r).launches = s.launches := rfl
@[simp] theorem State.dropRun_launchSeq (s : State) (r : Run) : (s.dropRun r).launchSeq = s.launchSeq := rfl
@[simp] theorem State.dropRun_queues (s : State) (r : Run) : (s.dropRun r).queues = s.queues := rfl
@[simp] theorem State.dropRun_fot (s : State) (r : Run) : (s.dropRun r).fot = s.fot := rfl
@[simp] theorem State.dropRun_extents (s : State) (r : Run) : (s.dropRun r).extents = s.extents := rfl
@[simp] theorem State.dropRun_tags (s : State) (r : Run) : (s.dropRun r).tags = s.tags := rfl
@[simp] theorem State.dropRun_seizures (s : State) (r : Run) : (s.dropRun r).seizures = s.seizures := rfl
@[simp] theorem State.dropRun_gens (s : State) (r : Run) : (s.dropRun r).gens = s.gens := rfl
@[simp] theorem State.dropRun_tenants (s : State) (r : Run) : (s.dropRun r).tenants = s.tenants := rfl
@[simp] theorem State.dropRun_pendDebug (s : State) (r : Run) : (s.dropRun r).pendDebug = s.pendDebug := rfl
@[simp] theorem State.dropRun_quieting (s : State) (r : Run) : (s.dropRun r).quieting = s.quieting := rfl
@[simp] theorem State.dropRun_cfg (s : State) (r : Run) : (s.dropRun r).cfg = s.cfg := rfl
@[simp] theorem State.dropRun_calActive (s : State) (r : Run) : (s.dropRun r).calActive = s.calActive := rfl
@[simp] theorem State.dropRun_resetLocked (s : State) (r : Run) : (s.dropRun r).resetLocked = s.resetLocked := rfl
@[simp] theorem State.dropRun_buckets (s : State) (r : Run) : (s.dropRun r).buckets = s.buckets := rfl
@[simp] theorem State.dropRun_deficit (s : State) (r : Run) : (s.dropRun r).deficit = s.deficit := rfl
@[simp] theorem State.dropRun_comparators (s : State) (r : Run) : (s.dropRun r).comparators = s.comparators := rfl
@[simp] theorem State.dropRun_stepping (s : State) (r : Run) : (s.dropRun r).stepping = s.stepping := rfl
@[simp] theorem State.dropRun_lastScan (s : State) (r : Run) : (s.dropRun r).lastScan = s.lastScan := rfl
@[simp] theorem State.dropRun_scanReported (s : State) (r : Run) : (s.dropRun r).scanReported = s.scanReported := rfl
@[simp] theorem State.dropRun_frozen (s : State) (r : Run) : (s.dropRun r).frozen = s.frozen := rfl
@[simp] theorem State.dropRun_slice (s : State) (r : Run) : (s.dropRun r).slice = s.slice := rfl
@[simp] theorem State.dropRun_keySlots (s : State) (r : Run) : (s.dropRun r).keySlots = s.keySlots := rfl
@[simp] theorem State.dropRun_revoked (s : State) (r : Run) : (s.dropRun r).revoked = s.revoked := rfl
@[simp] theorem State.dropRun_epochs (s : State) (r : Run) : (s.dropRun r).epochs = s.epochs := rfl
@[simp] theorem State.dropRun_consumed (s : State) (r : Run) : (s.dropRun r).consumed = s.consumed := rfl
@[simp] theorem State.dropRun_sealedCtxs (s : State) (r : Run) : (s.dropRun r).sealedCtxs = s.sealedCtxs := rfl
@[simp] theorem State.dropRun_errSeq (s : State) (r : Run) : (s.dropRun r).errSeq = s.errSeq := rfl
@[simp] theorem State.dropRun_outbox (s : State) (r : Run) : (s.dropRun r).outbox = s.outbox := rfl
@[simp] theorem State.dropRun_island (s : State) (r : Run) : (s.dropRun r).island = s.island := rfl
@[simp] theorem State.dropRun_booting (s : State) (r : Run) : (s.dropRun r).booting = s.booting := rfl
@[simp] theorem State.dropRun_imageSlot (s : State) (r : Run) : (s.dropRun r).imageSlot = s.imageSlot := rfl
@[simp] theorem State.dropRun_fused (s : State) (r : Run) : (s.dropRun r).fused = s.fused := rfl
@[simp] theorem State.dropRun_quoting (s : State) (r : Run) : (s.dropRun r).quoting = s.quoting := rfl
@[simp] theorem State.dropRun_quoted (s : State) (r : Run) : (s.dropRun r).quoted = s.quoted := rfl
@[simp] theorem State.dropRun_agreed (s : State) (r : Run) : (s.dropRun r).agreed = s.agreed := rfl
@[simp] theorem State.dropRun_mail (s : State) (r : Run) : (s.dropRun r).mail = s.mail := rfl
@[simp] theorem State.dropRun_die0 (s : State) (r : Run) : (s.dropRun r).die0 = s.die0 := rfl
@[simp] theorem State.dropRun_die1 (s : State) (r : Run) : (s.dropRun r).die1 = s.die1 := rfl
@[simp] theorem State.dropRun_powerLimit (s : State) (r : Run) : (s.dropRun r).powerLimit = s.powerLimit := rfl
@[simp] theorem State.dropRun_ns (s : State) (r : Run) : (s.dropRun r).ns = s.ns := rfl
@[simp] theorem State.dropRun_routesLoaded (s : State) (r : Run) : (s.dropRun r).routesLoaded = s.routesLoaded := rfl
@[simp] theorem State.dropRun_linkUp (s : State) (r : Run) : (s.dropRun r).linkUp = s.linkUp := rfl
@[simp] theorem State.dropRun_stopped (s : State) (r : Run) : (s.dropRun r).stopped = s.stopped := rfl
@[simp] theorem State.dropRun_stopsSent (s : State) (r : Run) : (s.dropRun r).stopsSent = s.stopsSent := rfl
@[simp] theorem State.dropRun_buffered (s : State) (r : Run) : (s.dropRun r).buffered = s.buffered := rfl
@[simp] theorem State.dropRun_lostRoutes (s : State) (r : Run) : (s.dropRun r).lostRoutes = s.lostRoutes := rfl
@[simp] theorem State.dropRun_absentDevs (s : State) (r : Run) : (s.dropRun r).absentDevs = s.absentDevs := rfl
@[simp] theorem State.dropRun_remoteOwn (s : State) (r : Run) : (s.dropRun r).remoteOwn = s.remoteOwn := rfl
@[simp] theorem State.dropRun_podRegs (s : State) (r : Run) : (s.dropRun r).podRegs = s.podRegs := rfl
@[simp] theorem State.dropRun_windows (s : State) (r : Run) : (s.dropRun r).windows = s.windows := rfl
@[simp] theorem State.dropRun_sessions (s : State) (r : Run) : (s.dropRun r).sessions = s.sessions := rfl
@[simp] theorem State.dropRun_agenda (s : State) (r : Run) : (s.dropRun r).agenda = s.agenda := rfl
@[simp] theorem State.dropRun_freeCtr (s : State) (r : Run) : (s.dropRun r).freeCtr = s.freeCtr := rfl
@[simp] theorem State.dropRun_nextId (s : State) (r : Run) : (s.dropRun r).nextId = s.nextId := rfl

/-! ### `State.stallRun` -/

@[simp] theorem State.stallRun_mem (s : State) (r : Run) (n : Nat) : (s.stallRun r n).mem = s.mem := rfl
@[simp] theorem State.stallRun_memPoison (s : State) (r : Run) (n : Nat) : (s.stallRun r n).memPoison = s.memPoison := rfl
@[simp] theorem State.stallRun_acc (s : State) (r : Run) (n : Nat) : (s.stallRun r n).acc = s.acc := rfl
@[simp] theorem State.stallRun_accPoison (s : State) (r : Run) (n : Nat) : (s.stallRun r n).accPoison = s.accPoison := rfl
@[simp] theorem State.stallRun_wgs (s : State) (r : Run) (n : Nat) : (s.stallRun r n).wgs = s.wgs := rfl
@[simp] theorem State.stallRun_runs (s : State) (r : Run) (n : Nat) : (s.stallRun r n).runs = enqueueRun (s.dropRun r).runs { r with stall := some n } := rfl
@[simp] theorem State.stallRun_entries (s : State) (r : Run) (n : Nat) : (s.stallRun r n).entries = s.entries := rfl
@[simp] theorem State.stallRun_logPend (s : State) (r : Run) (n : Nat) : (s.stallRun r n).logPend = s.logPend := rfl
@[simp] theorem State.stallRun_flights (s : State) (r : Run) (n : Nat) : (s.stallRun r n).flights = s.flights := rfl
@[simp] theorem State.stallRun_l1 (s : State) (r : Run) (n : Nat) : (s.stallRun r n).l1 = s.l1 := rfl
@[simp] theorem State.stallRun_owner (s : State) (r : Run) (n : Nat) : (s.stallRun r n).owner = s.owner := rfl
@[simp] theorem State.stallRun_barriers (s : State) (r : Run) (n : Nat) : (s.stallRun r n).barriers = s.barriers := rfl
@[simp] theorem State.stallRun_copies (s : State) (r : Run) (n : Nat) : (s.stallRun r n).copies = s.copies := rfl
@[simp] theorem State.stallRun_inbound (s : State) (r : Run) (n : Nat) : (s.stallRun r n).inbound = s.inbound := rfl
@[simp] theorem State.stallRun_score (s : State) (r : Run) (n : Nat) : (s.stallRun r n).score = s.score := rfl
@[simp] theorem State.stallRun_matops (s : State) (r : Run) (n : Nat) : (s.stallRun r n).matops = s.matops := rfl
@[simp] theorem State.stallRun_colls (s : State) (r : Run) (n : Nat) : (s.stallRun r n).colls = s.colls := rfl
@[simp] theorem State.stallRun_slots (s : State) (r : Run) (n : Nat) : (s.stallRun r n).slots = s.slots := rfl
@[simp] theorem State.stallRun_tlb (s : State) (r : Run) (n : Nat) : (s.stallRun r n).tlb = s.tlb := rfl
@[simp] theorem State.stallRun_watches (s : State) (r : Run) (n : Nat) : (s.stallRun r n).watches = s.watches := rfl
@[simp] theorem State.stallRun_reserved (s : State) (r : Run) (n : Nat) : (s.stallRun r n).reserved = s.reserved := rfl
@[simp] theorem State.stallRun_gangs (s : State) (r : Run) (n : Nat) : (s.stallRun r n).gangs = s.gangs := rfl
@[simp] theorem State.stallRun_launches (s : State) (r : Run) (n : Nat) : (s.stallRun r n).launches = s.launches := rfl
@[simp] theorem State.stallRun_launchSeq (s : State) (r : Run) (n : Nat) : (s.stallRun r n).launchSeq = s.launchSeq := rfl
@[simp] theorem State.stallRun_queues (s : State) (r : Run) (n : Nat) : (s.stallRun r n).queues = s.queues := rfl
@[simp] theorem State.stallRun_fot (s : State) (r : Run) (n : Nat) : (s.stallRun r n).fot = s.fot := rfl
@[simp] theorem State.stallRun_extents (s : State) (r : Run) (n : Nat) : (s.stallRun r n).extents = s.extents := rfl
@[simp] theorem State.stallRun_tags (s : State) (r : Run) (n : Nat) : (s.stallRun r n).tags = s.tags := rfl
@[simp] theorem State.stallRun_seizures (s : State) (r : Run) (n : Nat) : (s.stallRun r n).seizures = s.seizures := rfl
@[simp] theorem State.stallRun_gens (s : State) (r : Run) (n : Nat) : (s.stallRun r n).gens = s.gens := rfl
@[simp] theorem State.stallRun_tenants (s : State) (r : Run) (n : Nat) : (s.stallRun r n).tenants = s.tenants := rfl
@[simp] theorem State.stallRun_pendDebug (s : State) (r : Run) (n : Nat) : (s.stallRun r n).pendDebug = s.pendDebug := rfl
@[simp] theorem State.stallRun_quieting (s : State) (r : Run) (n : Nat) : (s.stallRun r n).quieting = s.quieting := rfl
@[simp] theorem State.stallRun_cfg (s : State) (r : Run) (n : Nat) : (s.stallRun r n).cfg = s.cfg := rfl
@[simp] theorem State.stallRun_calActive (s : State) (r : Run) (n : Nat) : (s.stallRun r n).calActive = s.calActive := rfl
@[simp] theorem State.stallRun_resetLocked (s : State) (r : Run) (n : Nat) : (s.stallRun r n).resetLocked = s.resetLocked := rfl
@[simp] theorem State.stallRun_buckets (s : State) (r : Run) (n : Nat) : (s.stallRun r n).buckets = s.buckets := rfl
@[simp] theorem State.stallRun_deficit (s : State) (r : Run) (n : Nat) : (s.stallRun r n).deficit = s.deficit := rfl
@[simp] theorem State.stallRun_comparators (s : State) (r : Run) (n : Nat) : (s.stallRun r n).comparators = s.comparators := rfl
@[simp] theorem State.stallRun_stepping (s : State) (r : Run) (n : Nat) : (s.stallRun r n).stepping = s.stepping := rfl
@[simp] theorem State.stallRun_lastScan (s : State) (r : Run) (n : Nat) : (s.stallRun r n).lastScan = s.lastScan := rfl
@[simp] theorem State.stallRun_scanReported (s : State) (r : Run) (n : Nat) : (s.stallRun r n).scanReported = s.scanReported := rfl
@[simp] theorem State.stallRun_frozen (s : State) (r : Run) (n : Nat) : (s.stallRun r n).frozen = s.frozen := rfl
@[simp] theorem State.stallRun_slice (s : State) (r : Run) (n : Nat) : (s.stallRun r n).slice = s.slice := rfl
@[simp] theorem State.stallRun_keySlots (s : State) (r : Run) (n : Nat) : (s.stallRun r n).keySlots = s.keySlots := rfl
@[simp] theorem State.stallRun_revoked (s : State) (r : Run) (n : Nat) : (s.stallRun r n).revoked = s.revoked := rfl
@[simp] theorem State.stallRun_epochs (s : State) (r : Run) (n : Nat) : (s.stallRun r n).epochs = s.epochs := rfl
@[simp] theorem State.stallRun_consumed (s : State) (r : Run) (n : Nat) : (s.stallRun r n).consumed = s.consumed := rfl
@[simp] theorem State.stallRun_sealedCtxs (s : State) (r : Run) (n : Nat) : (s.stallRun r n).sealedCtxs = s.sealedCtxs := rfl
@[simp] theorem State.stallRun_errSeq (s : State) (r : Run) (n : Nat) : (s.stallRun r n).errSeq = s.errSeq := rfl
@[simp] theorem State.stallRun_outbox (s : State) (r : Run) (n : Nat) : (s.stallRun r n).outbox = s.outbox := rfl
@[simp] theorem State.stallRun_island (s : State) (r : Run) (n : Nat) : (s.stallRun r n).island = s.island := rfl
@[simp] theorem State.stallRun_booting (s : State) (r : Run) (n : Nat) : (s.stallRun r n).booting = s.booting := rfl
@[simp] theorem State.stallRun_imageSlot (s : State) (r : Run) (n : Nat) : (s.stallRun r n).imageSlot = s.imageSlot := rfl
@[simp] theorem State.stallRun_fused (s : State) (r : Run) (n : Nat) : (s.stallRun r n).fused = s.fused := rfl
@[simp] theorem State.stallRun_quoting (s : State) (r : Run) (n : Nat) : (s.stallRun r n).quoting = s.quoting := rfl
@[simp] theorem State.stallRun_quoted (s : State) (r : Run) (n : Nat) : (s.stallRun r n).quoted = s.quoted := rfl
@[simp] theorem State.stallRun_agreed (s : State) (r : Run) (n : Nat) : (s.stallRun r n).agreed = s.agreed := rfl
@[simp] theorem State.stallRun_mail (s : State) (r : Run) (n : Nat) : (s.stallRun r n).mail = s.mail := rfl
@[simp] theorem State.stallRun_die0 (s : State) (r : Run) (n : Nat) : (s.stallRun r n).die0 = s.die0 := rfl
@[simp] theorem State.stallRun_die1 (s : State) (r : Run) (n : Nat) : (s.stallRun r n).die1 = s.die1 := rfl
@[simp] theorem State.stallRun_powerLimit (s : State) (r : Run) (n : Nat) : (s.stallRun r n).powerLimit = s.powerLimit := rfl
@[simp] theorem State.stallRun_ns (s : State) (r : Run) (n : Nat) : (s.stallRun r n).ns = s.ns := rfl
@[simp] theorem State.stallRun_routesLoaded (s : State) (r : Run) (n : Nat) : (s.stallRun r n).routesLoaded = s.routesLoaded := rfl
@[simp] theorem State.stallRun_linkUp (s : State) (r : Run) (n : Nat) : (s.stallRun r n).linkUp = s.linkUp := rfl
@[simp] theorem State.stallRun_stopped (s : State) (r : Run) (n : Nat) : (s.stallRun r n).stopped = s.stopped := rfl
@[simp] theorem State.stallRun_stopsSent (s : State) (r : Run) (n : Nat) : (s.stallRun r n).stopsSent = s.stopsSent := rfl
@[simp] theorem State.stallRun_buffered (s : State) (r : Run) (n : Nat) : (s.stallRun r n).buffered = s.buffered := rfl
@[simp] theorem State.stallRun_lostRoutes (s : State) (r : Run) (n : Nat) : (s.stallRun r n).lostRoutes = s.lostRoutes := rfl
@[simp] theorem State.stallRun_absentDevs (s : State) (r : Run) (n : Nat) : (s.stallRun r n).absentDevs = s.absentDevs := rfl
@[simp] theorem State.stallRun_remoteOwn (s : State) (r : Run) (n : Nat) : (s.stallRun r n).remoteOwn = s.remoteOwn := rfl
@[simp] theorem State.stallRun_podRegs (s : State) (r : Run) (n : Nat) : (s.stallRun r n).podRegs = s.podRegs := rfl
@[simp] theorem State.stallRun_windows (s : State) (r : Run) (n : Nat) : (s.stallRun r n).windows = s.windows := rfl
@[simp] theorem State.stallRun_sessions (s : State) (r : Run) (n : Nat) : (s.stallRun r n).sessions = s.sessions := rfl
@[simp] theorem State.stallRun_agenda (s : State) (r : Run) (n : Nat) : (s.stallRun r n).agenda = s.agenda := rfl
@[simp] theorem State.stallRun_freeCtr (s : State) (r : Run) (n : Nat) : (s.stallRun r n).freeCtr = s.freeCtr := rfl
@[simp] theorem State.stallRun_nextId (s : State) (r : Run) (n : Nat) : (s.stallRun r n).nextId = s.nextId := rfl

/-! ### `State.tell` -/

@[simp] theorem State.tell_mem (s : State) (m : HostMsg) : (s.tell m).mem = s.mem := rfl
@[simp] theorem State.tell_memPoison (s : State) (m : HostMsg) : (s.tell m).memPoison = s.memPoison := rfl
@[simp] theorem State.tell_acc (s : State) (m : HostMsg) : (s.tell m).acc = s.acc := rfl
@[simp] theorem State.tell_accPoison (s : State) (m : HostMsg) : (s.tell m).accPoison = s.accPoison := rfl
@[simp] theorem State.tell_wgs (s : State) (m : HostMsg) : (s.tell m).wgs = s.wgs := rfl
@[simp] theorem State.tell_runs (s : State) (m : HostMsg) : (s.tell m).runs = s.runs := rfl
@[simp] theorem State.tell_entries (s : State) (m : HostMsg) : (s.tell m).entries = s.entries := rfl
@[simp] theorem State.tell_logPend (s : State) (m : HostMsg) : (s.tell m).logPend = s.logPend := rfl
@[simp] theorem State.tell_flights (s : State) (m : HostMsg) : (s.tell m).flights = s.flights := rfl
@[simp] theorem State.tell_l1 (s : State) (m : HostMsg) : (s.tell m).l1 = s.l1 := rfl
@[simp] theorem State.tell_owner (s : State) (m : HostMsg) : (s.tell m).owner = s.owner := rfl
@[simp] theorem State.tell_barriers (s : State) (m : HostMsg) : (s.tell m).barriers = s.barriers := rfl
@[simp] theorem State.tell_copies (s : State) (m : HostMsg) : (s.tell m).copies = s.copies := rfl
@[simp] theorem State.tell_inbound (s : State) (m : HostMsg) : (s.tell m).inbound = s.inbound := rfl
@[simp] theorem State.tell_score (s : State) (m : HostMsg) : (s.tell m).score = s.score := rfl
@[simp] theorem State.tell_matops (s : State) (m : HostMsg) : (s.tell m).matops = s.matops := rfl
@[simp] theorem State.tell_colls (s : State) (m : HostMsg) : (s.tell m).colls = s.colls := rfl
@[simp] theorem State.tell_slots (s : State) (m : HostMsg) : (s.tell m).slots = s.slots := rfl
@[simp] theorem State.tell_tlb (s : State) (m : HostMsg) : (s.tell m).tlb = s.tlb := rfl
@[simp] theorem State.tell_watches (s : State) (m : HostMsg) : (s.tell m).watches = s.watches := rfl
@[simp] theorem State.tell_reserved (s : State) (m : HostMsg) : (s.tell m).reserved = s.reserved := rfl
@[simp] theorem State.tell_gangs (s : State) (m : HostMsg) : (s.tell m).gangs = s.gangs := rfl
@[simp] theorem State.tell_launches (s : State) (m : HostMsg) : (s.tell m).launches = s.launches := rfl
@[simp] theorem State.tell_launchSeq (s : State) (m : HostMsg) : (s.tell m).launchSeq = s.launchSeq := rfl
@[simp] theorem State.tell_queues (s : State) (m : HostMsg) : (s.tell m).queues = s.queues := rfl
@[simp] theorem State.tell_fot (s : State) (m : HostMsg) : (s.tell m).fot = s.fot := rfl
@[simp] theorem State.tell_extents (s : State) (m : HostMsg) : (s.tell m).extents = s.extents := rfl
@[simp] theorem State.tell_tags (s : State) (m : HostMsg) : (s.tell m).tags = s.tags := rfl
@[simp] theorem State.tell_seizures (s : State) (m : HostMsg) : (s.tell m).seizures = s.seizures := rfl
@[simp] theorem State.tell_gens (s : State) (m : HostMsg) : (s.tell m).gens = s.gens := rfl
@[simp] theorem State.tell_tenants (s : State) (m : HostMsg) : (s.tell m).tenants = s.tenants := rfl
@[simp] theorem State.tell_pendDebug (s : State) (m : HostMsg) : (s.tell m).pendDebug = s.pendDebug := rfl
@[simp] theorem State.tell_quieting (s : State) (m : HostMsg) : (s.tell m).quieting = s.quieting := rfl
@[simp] theorem State.tell_cfg (s : State) (m : HostMsg) : (s.tell m).cfg = s.cfg := rfl
@[simp] theorem State.tell_calActive (s : State) (m : HostMsg) : (s.tell m).calActive = s.calActive := rfl
@[simp] theorem State.tell_resetLocked (s : State) (m : HostMsg) : (s.tell m).resetLocked = s.resetLocked := rfl
@[simp] theorem State.tell_buckets (s : State) (m : HostMsg) : (s.tell m).buckets = s.buckets := rfl
@[simp] theorem State.tell_deficit (s : State) (m : HostMsg) : (s.tell m).deficit = s.deficit := rfl
@[simp] theorem State.tell_comparators (s : State) (m : HostMsg) : (s.tell m).comparators = s.comparators := rfl
@[simp] theorem State.tell_stepping (s : State) (m : HostMsg) : (s.tell m).stepping = s.stepping := rfl
@[simp] theorem State.tell_lastScan (s : State) (m : HostMsg) : (s.tell m).lastScan = s.lastScan := rfl
@[simp] theorem State.tell_scanReported (s : State) (m : HostMsg) : (s.tell m).scanReported = s.scanReported := rfl
@[simp] theorem State.tell_frozen (s : State) (m : HostMsg) : (s.tell m).frozen = s.frozen := rfl
@[simp] theorem State.tell_slice (s : State) (m : HostMsg) : (s.tell m).slice = s.slice := rfl
@[simp] theorem State.tell_keySlots (s : State) (m : HostMsg) : (s.tell m).keySlots = s.keySlots := rfl
@[simp] theorem State.tell_revoked (s : State) (m : HostMsg) : (s.tell m).revoked = s.revoked := rfl
@[simp] theorem State.tell_epochs (s : State) (m : HostMsg) : (s.tell m).epochs = s.epochs := rfl
@[simp] theorem State.tell_consumed (s : State) (m : HostMsg) : (s.tell m).consumed = s.consumed := rfl
@[simp] theorem State.tell_sealedCtxs (s : State) (m : HostMsg) : (s.tell m).sealedCtxs = s.sealedCtxs := rfl
@[simp] theorem State.tell_errSeq (s : State) (m : HostMsg) : (s.tell m).errSeq = s.errSeq := rfl
@[simp] theorem State.tell_outbox (s : State) (m : HostMsg) : (s.tell m).outbox = s.outbox ++ [m] := rfl
@[simp] theorem State.tell_island (s : State) (m : HostMsg) : (s.tell m).island = s.island := rfl
@[simp] theorem State.tell_booting (s : State) (m : HostMsg) : (s.tell m).booting = s.booting := rfl
@[simp] theorem State.tell_imageSlot (s : State) (m : HostMsg) : (s.tell m).imageSlot = s.imageSlot := rfl
@[simp] theorem State.tell_fused (s : State) (m : HostMsg) : (s.tell m).fused = s.fused := rfl
@[simp] theorem State.tell_quoting (s : State) (m : HostMsg) : (s.tell m).quoting = s.quoting := rfl
@[simp] theorem State.tell_quoted (s : State) (m : HostMsg) : (s.tell m).quoted = s.quoted := rfl
@[simp] theorem State.tell_agreed (s : State) (m : HostMsg) : (s.tell m).agreed = s.agreed := rfl
@[simp] theorem State.tell_mail (s : State) (m : HostMsg) : (s.tell m).mail = s.mail := rfl
@[simp] theorem State.tell_die0 (s : State) (m : HostMsg) : (s.tell m).die0 = s.die0 := rfl
@[simp] theorem State.tell_die1 (s : State) (m : HostMsg) : (s.tell m).die1 = s.die1 := rfl
@[simp] theorem State.tell_powerLimit (s : State) (m : HostMsg) : (s.tell m).powerLimit = s.powerLimit := rfl
@[simp] theorem State.tell_ns (s : State) (m : HostMsg) : (s.tell m).ns = s.ns := rfl
@[simp] theorem State.tell_routesLoaded (s : State) (m : HostMsg) : (s.tell m).routesLoaded = s.routesLoaded := rfl
@[simp] theorem State.tell_linkUp (s : State) (m : HostMsg) : (s.tell m).linkUp = s.linkUp := rfl
@[simp] theorem State.tell_stopped (s : State) (m : HostMsg) : (s.tell m).stopped = s.stopped := rfl
@[simp] theorem State.tell_stopsSent (s : State) (m : HostMsg) : (s.tell m).stopsSent = s.stopsSent := rfl
@[simp] theorem State.tell_buffered (s : State) (m : HostMsg) : (s.tell m).buffered = s.buffered := rfl
@[simp] theorem State.tell_lostRoutes (s : State) (m : HostMsg) : (s.tell m).lostRoutes = s.lostRoutes := rfl
@[simp] theorem State.tell_absentDevs (s : State) (m : HostMsg) : (s.tell m).absentDevs = s.absentDevs := rfl
@[simp] theorem State.tell_remoteOwn (s : State) (m : HostMsg) : (s.tell m).remoteOwn = s.remoteOwn := rfl
@[simp] theorem State.tell_podRegs (s : State) (m : HostMsg) : (s.tell m).podRegs = s.podRegs := rfl
@[simp] theorem State.tell_windows (s : State) (m : HostMsg) : (s.tell m).windows = s.windows := rfl
@[simp] theorem State.tell_sessions (s : State) (m : HostMsg) : (s.tell m).sessions = s.sessions := rfl
@[simp] theorem State.tell_agenda (s : State) (m : HostMsg) : (s.tell m).agenda = s.agenda := rfl
@[simp] theorem State.tell_freeCtr (s : State) (m : HostMsg) : (s.tell m).freeCtr = s.freeCtr := rfl
@[simp] theorem State.tell_nextId (s : State) (m : HostMsg) : (s.tell m).nextId = s.nextId := rfl

/-! ### `State.tryAgain` -/

@[simp] theorem State.tryAgain_mem (s : State) (r : Request) : (s.tryAgain r).mem = s.mem := rfl
@[simp] theorem State.tryAgain_memPoison (s : State) (r : Request) : (s.tryAgain r).memPoison = s.memPoison := rfl
@[simp] theorem State.tryAgain_acc (s : State) (r : Request) : (s.tryAgain r).acc = s.acc := rfl
@[simp] theorem State.tryAgain_accPoison (s : State) (r : Request) : (s.tryAgain r).accPoison = s.accPoison := rfl
@[simp] theorem State.tryAgain_wgs (s : State) (r : Request) : (s.tryAgain r).wgs = s.wgs := rfl
@[simp] theorem State.tryAgain_runs (s : State) (r : Request) : (s.tryAgain r).runs = s.runs := rfl
@[simp] theorem State.tryAgain_entries (s : State) (r : Request) : (s.tryAgain r).entries = s.entries := rfl
@[simp] theorem State.tryAgain_logPend (s : State) (r : Request) : (s.tryAgain r).logPend = s.logPend := rfl
@[simp] theorem State.tryAgain_flights (s : State) (r : Request) : (s.tryAgain r).flights = s.flights := rfl
@[simp] theorem State.tryAgain_l1 (s : State) (r : Request) : (s.tryAgain r).l1 = s.l1 := rfl
@[simp] theorem State.tryAgain_owner (s : State) (r : Request) : (s.tryAgain r).owner = s.owner := rfl
@[simp] theorem State.tryAgain_barriers (s : State) (r : Request) : (s.tryAgain r).barriers = s.barriers := rfl
@[simp] theorem State.tryAgain_copies (s : State) (r : Request) : (s.tryAgain r).copies = s.copies := rfl
@[simp] theorem State.tryAgain_inbound (s : State) (r : Request) : (s.tryAgain r).inbound = s.inbound := rfl
@[simp] theorem State.tryAgain_score (s : State) (r : Request) : (s.tryAgain r).score = s.score := rfl
@[simp] theorem State.tryAgain_matops (s : State) (r : Request) : (s.tryAgain r).matops = s.matops := rfl
@[simp] theorem State.tryAgain_colls (s : State) (r : Request) : (s.tryAgain r).colls = s.colls := rfl
@[simp] theorem State.tryAgain_slots (s : State) (r : Request) : (s.tryAgain r).slots = s.slots := rfl
@[simp] theorem State.tryAgain_tlb (s : State) (r : Request) : (s.tryAgain r).tlb = s.tlb := rfl
@[simp] theorem State.tryAgain_watches (s : State) (r : Request) : (s.tryAgain r).watches = s.watches := rfl
@[simp] theorem State.tryAgain_reserved (s : State) (r : Request) : (s.tryAgain r).reserved = s.reserved := rfl
@[simp] theorem State.tryAgain_gangs (s : State) (r : Request) : (s.tryAgain r).gangs = s.gangs := rfl
@[simp] theorem State.tryAgain_launches (s : State) (r : Request) : (s.tryAgain r).launches = s.launches := rfl
@[simp] theorem State.tryAgain_launchSeq (s : State) (r : Request) : (s.tryAgain r).launchSeq = s.launchSeq := rfl
@[simp] theorem State.tryAgain_queues (s : State) (r : Request) : (s.tryAgain r).queues = s.queues := rfl
@[simp] theorem State.tryAgain_fot (s : State) (r : Request) : (s.tryAgain r).fot = s.fot := rfl
@[simp] theorem State.tryAgain_extents (s : State) (r : Request) : (s.tryAgain r).extents = s.extents := rfl
@[simp] theorem State.tryAgain_tags (s : State) (r : Request) : (s.tryAgain r).tags = s.tags := rfl
@[simp] theorem State.tryAgain_seizures (s : State) (r : Request) : (s.tryAgain r).seizures = s.seizures := rfl
@[simp] theorem State.tryAgain_gens (s : State) (r : Request) : (s.tryAgain r).gens = s.gens := rfl
@[simp] theorem State.tryAgain_tenants (s : State) (r : Request) : (s.tryAgain r).tenants = s.tenants := rfl
@[simp] theorem State.tryAgain_pendDebug (s : State) (r : Request) : (s.tryAgain r).pendDebug = s.pendDebug := rfl
@[simp] theorem State.tryAgain_quieting (s : State) (r : Request) : (s.tryAgain r).quieting = s.quieting := rfl
@[simp] theorem State.tryAgain_cfg (s : State) (r : Request) : (s.tryAgain r).cfg = s.cfg := rfl
@[simp] theorem State.tryAgain_calActive (s : State) (r : Request) : (s.tryAgain r).calActive = s.calActive := rfl
@[simp] theorem State.tryAgain_resetLocked (s : State) (r : Request) : (s.tryAgain r).resetLocked = s.resetLocked := rfl
@[simp] theorem State.tryAgain_buckets (s : State) (r : Request) : (s.tryAgain r).buckets = s.buckets := rfl
@[simp] theorem State.tryAgain_deficit (s : State) (r : Request) : (s.tryAgain r).deficit = s.deficit := rfl
@[simp] theorem State.tryAgain_comparators (s : State) (r : Request) : (s.tryAgain r).comparators = s.comparators := rfl
@[simp] theorem State.tryAgain_stepping (s : State) (r : Request) : (s.tryAgain r).stepping = s.stepping := rfl
@[simp] theorem State.tryAgain_lastScan (s : State) (r : Request) : (s.tryAgain r).lastScan = s.lastScan := rfl
@[simp] theorem State.tryAgain_scanReported (s : State) (r : Request) : (s.tryAgain r).scanReported = s.scanReported := rfl
@[simp] theorem State.tryAgain_frozen (s : State) (r : Request) : (s.tryAgain r).frozen = s.frozen := rfl
@[simp] theorem State.tryAgain_slice (s : State) (r : Request) : (s.tryAgain r).slice = s.slice := rfl
@[simp] theorem State.tryAgain_keySlots (s : State) (r : Request) : (s.tryAgain r).keySlots = s.keySlots := rfl
@[simp] theorem State.tryAgain_revoked (s : State) (r : Request) : (s.tryAgain r).revoked = s.revoked := rfl
@[simp] theorem State.tryAgain_epochs (s : State) (r : Request) : (s.tryAgain r).epochs = s.epochs := rfl
@[simp] theorem State.tryAgain_consumed (s : State) (r : Request) : (s.tryAgain r).consumed = s.consumed := rfl
@[simp] theorem State.tryAgain_sealedCtxs (s : State) (r : Request) : (s.tryAgain r).sealedCtxs = s.sealedCtxs := rfl
@[simp] theorem State.tryAgain_errSeq (s : State) (r : Request) : (s.tryAgain r).errSeq = s.errSeq := rfl
@[simp] theorem State.tryAgain_outbox (s : State) (r : Request) : (s.tryAgain r).outbox = s.outbox := rfl
@[simp] theorem State.tryAgain_island (s : State) (r : Request) : (s.tryAgain r).island = s.island := rfl
@[simp] theorem State.tryAgain_booting (s : State) (r : Request) : (s.tryAgain r).booting = s.booting := rfl
@[simp] theorem State.tryAgain_imageSlot (s : State) (r : Request) : (s.tryAgain r).imageSlot = s.imageSlot := rfl
@[simp] theorem State.tryAgain_fused (s : State) (r : Request) : (s.tryAgain r).fused = s.fused := rfl
@[simp] theorem State.tryAgain_quoting (s : State) (r : Request) : (s.tryAgain r).quoting = s.quoting := rfl
@[simp] theorem State.tryAgain_quoted (s : State) (r : Request) : (s.tryAgain r).quoted = s.quoted := rfl
@[simp] theorem State.tryAgain_agreed (s : State) (r : Request) : (s.tryAgain r).agreed = s.agreed := rfl
@[simp] theorem State.tryAgain_mail (s : State) (r : Request) : (s.tryAgain r).mail = s.mail := rfl
@[simp] theorem State.tryAgain_die0 (s : State) (r : Request) : (s.tryAgain r).die0 = s.die0 := rfl
@[simp] theorem State.tryAgain_die1 (s : State) (r : Request) : (s.tryAgain r).die1 = s.die1 := rfl
@[simp] theorem State.tryAgain_powerLimit (s : State) (r : Request) : (s.tryAgain r).powerLimit = s.powerLimit := rfl
@[simp] theorem State.tryAgain_ns (s : State) (r : Request) : (s.tryAgain r).ns = s.ns := rfl
@[simp] theorem State.tryAgain_routesLoaded (s : State) (r : Request) : (s.tryAgain r).routesLoaded = s.routesLoaded := rfl
@[simp] theorem State.tryAgain_linkUp (s : State) (r : Request) : (s.tryAgain r).linkUp = s.linkUp := rfl
@[simp] theorem State.tryAgain_stopped (s : State) (r : Request) : (s.tryAgain r).stopped = s.stopped := rfl
@[simp] theorem State.tryAgain_stopsSent (s : State) (r : Request) : (s.tryAgain r).stopsSent = s.stopsSent := rfl
@[simp] theorem State.tryAgain_buffered (s : State) (r : Request) : (s.tryAgain r).buffered = s.buffered := rfl
@[simp] theorem State.tryAgain_lostRoutes (s : State) (r : Request) : (s.tryAgain r).lostRoutes = s.lostRoutes := rfl
@[simp] theorem State.tryAgain_absentDevs (s : State) (r : Request) : (s.tryAgain r).absentDevs = s.absentDevs := rfl
@[simp] theorem State.tryAgain_remoteOwn (s : State) (r : Request) : (s.tryAgain r).remoteOwn = s.remoteOwn := rfl
@[simp] theorem State.tryAgain_podRegs (s : State) (r : Request) : (s.tryAgain r).podRegs = s.podRegs := rfl
@[simp] theorem State.tryAgain_windows (s : State) (r : Request) : (s.tryAgain r).windows = s.windows := rfl
@[simp] theorem State.tryAgain_sessions (s : State) (r : Request) : (s.tryAgain r).sessions = s.sessions := rfl
@[simp] theorem State.tryAgain_agenda (s : State) (r : Request) : (s.tryAgain r).agenda = s.agenda ++ [.own, .again r] := rfl
@[simp] theorem State.tryAgain_freeCtr (s : State) (r : Request) : (s.tryAgain r).freeCtr = s.freeCtr := rfl
@[simp] theorem State.tryAgain_nextId (s : State) (r : Request) : (s.tryAgain r).nextId = s.nextId := rfl

/-! ### `State.retried` -/

@[simp] theorem State.retried_mem (s : State) : (s.retried).mem = s.mem := rfl
@[simp] theorem State.retried_memPoison (s : State) : (s.retried).memPoison = s.memPoison := rfl
@[simp] theorem State.retried_acc (s : State) : (s.retried).acc = s.acc := rfl
@[simp] theorem State.retried_accPoison (s : State) : (s.retried).accPoison = s.accPoison := rfl
@[simp] theorem State.retried_wgs (s : State) : (s.retried).wgs = s.wgs := rfl
@[simp] theorem State.retried_runs (s : State) : (s.retried).runs = s.runs.map fun r => { r with stall := none } := rfl
@[simp] theorem State.retried_entries (s : State) : (s.retried).entries = s.entries := rfl
@[simp] theorem State.retried_logPend (s : State) : (s.retried).logPend = s.logPend := rfl
@[simp] theorem State.retried_flights (s : State) : (s.retried).flights = s.flights := rfl
@[simp] theorem State.retried_l1 (s : State) : (s.retried).l1 = s.l1 := rfl
@[simp] theorem State.retried_owner (s : State) : (s.retried).owner = s.owner := rfl
@[simp] theorem State.retried_barriers (s : State) : (s.retried).barriers = s.barriers := rfl
@[simp] theorem State.retried_copies (s : State) : (s.retried).copies = s.copies := rfl
@[simp] theorem State.retried_inbound (s : State) : (s.retried).inbound = s.inbound := rfl
@[simp] theorem State.retried_score (s : State) : (s.retried).score = s.score := rfl
@[simp] theorem State.retried_matops (s : State) : (s.retried).matops = s.matops := rfl
@[simp] theorem State.retried_colls (s : State) : (s.retried).colls = s.colls := rfl
@[simp] theorem State.retried_slots (s : State) : (s.retried).slots = s.slots := rfl
@[simp] theorem State.retried_tlb (s : State) : (s.retried).tlb = s.tlb := rfl
@[simp] theorem State.retried_watches (s : State) : (s.retried).watches = s.watches := rfl
@[simp] theorem State.retried_reserved (s : State) : (s.retried).reserved = s.reserved := rfl
@[simp] theorem State.retried_gangs (s : State) : (s.retried).gangs = s.gangs := rfl
@[simp] theorem State.retried_launches (s : State) : (s.retried).launches = s.launches := rfl
@[simp] theorem State.retried_launchSeq (s : State) : (s.retried).launchSeq = s.launchSeq := rfl
@[simp] theorem State.retried_queues (s : State) : (s.retried).queues = s.queues := rfl
@[simp] theorem State.retried_fot (s : State) : (s.retried).fot = s.fot := rfl
@[simp] theorem State.retried_extents (s : State) : (s.retried).extents = s.extents := rfl
@[simp] theorem State.retried_tags (s : State) : (s.retried).tags = s.tags := rfl
@[simp] theorem State.retried_seizures (s : State) : (s.retried).seizures = s.seizures := rfl
@[simp] theorem State.retried_gens (s : State) : (s.retried).gens = s.gens := rfl
@[simp] theorem State.retried_tenants (s : State) : (s.retried).tenants = s.tenants := rfl
@[simp] theorem State.retried_pendDebug (s : State) : (s.retried).pendDebug = s.pendDebug := rfl
@[simp] theorem State.retried_quieting (s : State) : (s.retried).quieting = s.quieting := rfl
@[simp] theorem State.retried_cfg (s : State) : (s.retried).cfg = s.cfg := rfl
@[simp] theorem State.retried_calActive (s : State) : (s.retried).calActive = s.calActive := rfl
@[simp] theorem State.retried_resetLocked (s : State) : (s.retried).resetLocked = s.resetLocked := rfl
@[simp] theorem State.retried_buckets (s : State) : (s.retried).buckets = s.buckets := rfl
@[simp] theorem State.retried_deficit (s : State) : (s.retried).deficit = s.deficit := rfl
@[simp] theorem State.retried_comparators (s : State) : (s.retried).comparators = s.comparators := rfl
@[simp] theorem State.retried_stepping (s : State) : (s.retried).stepping = s.stepping := rfl
@[simp] theorem State.retried_lastScan (s : State) : (s.retried).lastScan = s.lastScan := rfl
@[simp] theorem State.retried_scanReported (s : State) : (s.retried).scanReported = s.scanReported := rfl
@[simp] theorem State.retried_frozen (s : State) : (s.retried).frozen = s.frozen := rfl
@[simp] theorem State.retried_slice (s : State) : (s.retried).slice = s.slice := rfl
@[simp] theorem State.retried_keySlots (s : State) : (s.retried).keySlots = s.keySlots := rfl
@[simp] theorem State.retried_revoked (s : State) : (s.retried).revoked = s.revoked := rfl
@[simp] theorem State.retried_epochs (s : State) : (s.retried).epochs = s.epochs := rfl
@[simp] theorem State.retried_consumed (s : State) : (s.retried).consumed = s.consumed := rfl
@[simp] theorem State.retried_sealedCtxs (s : State) : (s.retried).sealedCtxs = s.sealedCtxs := rfl
@[simp] theorem State.retried_errSeq (s : State) : (s.retried).errSeq = s.errSeq := rfl
@[simp] theorem State.retried_outbox (s : State) : (s.retried).outbox = s.outbox := rfl
@[simp] theorem State.retried_island (s : State) : (s.retried).island = s.island := rfl
@[simp] theorem State.retried_booting (s : State) : (s.retried).booting = s.booting := rfl
@[simp] theorem State.retried_imageSlot (s : State) : (s.retried).imageSlot = s.imageSlot := rfl
@[simp] theorem State.retried_fused (s : State) : (s.retried).fused = s.fused := rfl
@[simp] theorem State.retried_quoting (s : State) : (s.retried).quoting = s.quoting := rfl
@[simp] theorem State.retried_quoted (s : State) : (s.retried).quoted = s.quoted := rfl
@[simp] theorem State.retried_agreed (s : State) : (s.retried).agreed = s.agreed := rfl
@[simp] theorem State.retried_mail (s : State) : (s.retried).mail = s.mail := rfl
@[simp] theorem State.retried_die0 (s : State) : (s.retried).die0 = s.die0 := rfl
@[simp] theorem State.retried_die1 (s : State) : (s.retried).die1 = s.die1 := rfl
@[simp] theorem State.retried_powerLimit (s : State) : (s.retried).powerLimit = s.powerLimit := rfl
@[simp] theorem State.retried_ns (s : State) : (s.retried).ns = s.ns := rfl
@[simp] theorem State.retried_routesLoaded (s : State) : (s.retried).routesLoaded = s.routesLoaded := rfl
@[simp] theorem State.retried_linkUp (s : State) : (s.retried).linkUp = s.linkUp := rfl
@[simp] theorem State.retried_stopped (s : State) : (s.retried).stopped = s.stopped := rfl
@[simp] theorem State.retried_stopsSent (s : State) : (s.retried).stopsSent = s.stopsSent := rfl
@[simp] theorem State.retried_buffered (s : State) : (s.retried).buffered = s.buffered := rfl
@[simp] theorem State.retried_lostRoutes (s : State) : (s.retried).lostRoutes = s.lostRoutes := rfl
@[simp] theorem State.retried_absentDevs (s : State) : (s.retried).absentDevs = s.absentDevs := rfl
@[simp] theorem State.retried_remoteOwn (s : State) : (s.retried).remoteOwn = s.remoteOwn := rfl
@[simp] theorem State.retried_podRegs (s : State) : (s.retried).podRegs = s.podRegs := rfl
@[simp] theorem State.retried_windows (s : State) : (s.retried).windows = s.windows := rfl
@[simp] theorem State.retried_sessions (s : State) : (s.retried).sessions = s.sessions := rfl
@[simp] theorem State.retried_agenda (s : State) : (s.retried).agenda = s.agenda := rfl
@[simp] theorem State.retried_freeCtr (s : State) : (s.retried).freeCtr = s.freeCtr := rfl
@[simp] theorem State.retried_nextId (s : State) : (s.retried).nextId = s.nextId := rfl

end Sys2Proof.Machine
end

