-- ==== Sys2Proof/Tests/Slice0.lean ====
section
/-! SUPPORT. Tests: decoding of words written out from the spec, ill-formed operations refused, single steps whose results
the spec gives, and for each statement a state that meets its hypotheses. -/

namespace Sys2Proof.Tests

open Sys2Proof Sys2Proof.Machine

set_option Elab.async false

/-! ### Decoding -/

/-- A word of every row, its fields placed as spec/opcode_table.json and the encodings of its rules (R176-R182, R342) place them. -/
theorem test_decode_control : ∀ p ∈ [
    (0x00000000#32, Instr.nop), (0x00100000#32, Instr.exit), (0x00200000#32, Instr.yield), (0x003DE538#32, Instr.sleep 0xDE538),
    (0x00400000#32, Instr.ublk), (0x00500047#32, Instr.trap 0x47), (0x00600000#32, Instr.tretNext),
    (0x00600001#32, Instr.tretRetry), (0x0070008D#32, Instr.brk 0x8D)],
    decodeWord p.1 = .ok p.2 := by decide +kernel

/-- A word of every row, its fields placed as spec/opcode_table.json and the encodings of its rules (R114-R117, R121) place them. -/
theorem test_decode_integer : ∀ p ∈ [
    (0x071AE670#32, Instr.iadd 0x63 0x5C 0xCE), (0x07E586B1#32, Instr.isub 0x7C 0xB0 0xD6),
    (0x048B26CA#32, Instr.iaddsS 0x11 0x64 0xD9), (0x05170233#32, Instr.isubsS 0x22 0xE0 0x46),
    (0x04078DAC#32, Instr.iminS 0 0xF1 0xB5), (0x066DE54D#32, Instr.iminU 0x4D 0xBC 0xA9),
    (0x053EAC1E#32, Instr.imaxS 0x27 0xD5 0x83), (0x062EEE67#32, Instr.imaxU 0x45 0xDD 0xCC),
    (0x090799E8#32, Instr.imul 0x20 0xF3 0x3D), (0x080648A1#32, Instr.imulhS 0 0xC9 0x14),
    (0x09D8382A#32, Instr.imulhU 0x3B 7 5), (0x0805B70B#32, Instr.imac 0 0xB6 0xE1),
    (0x0ABA80C4#32, Instr.idot4S 0x57 0x50 0x18), (0x0A7CD6D5#32, Instr.idot4U 0x4F 0x9A 0xDA),
    (0x08DF5046#32, Instr.iabsd 0x1B 0xEA 8), (0x0E757798#32, Instr.and 0x4E 0xAE 0xF3),
    (0x0D30F2B1#32, Instr.or 0x26 0x1E 0x56), (0x0DF90742#32, Instr.xor 0x3F 0x20 0xE8),
    (0x0D773BDB#32, Instr.andn 0x2E 0xE7 0x7B), (0x0FC6CC0C#32, Instr.orn 0x78 0xD9 0x81), (0x0C63900D#32, Instr.xnor 12 0x72 1)],
    decodeWord p.1 = .ok p.2 := by decide +kernel

/-- A word of every row, its fields placed as spec/opcode_table.json and the encodings of its rules (R118-R122, R173-R175) place them. -/
theorem test_decode_shifts_and_fields : ∀ p ∈ [
    (0x12581CE0#32, Instr.shl 0x4B 3 0x9C), (0x12459EF9#32, Instr.shr 0x48 0xB3 0xDF),
    (0x111C10D2#32, Instr.sar 0x23 0x82 0x1A), (0x1177EC83#32, Instr.rol 0x2E 0xFD 0x90),
    (0x1320C64C#32, Instr.ror 0x64 0x18 0xC9), (0x1282DB35#32, Instr.fshr 0x50 0x5B 0x66),
    (0x15714000#32, Instr.popc 0x2E 0x28), (0x1737D801#32, Instr.clz 0x66 0xFB), (0x17372002#32, Instr.ctz 0x66 0xE4),
    (0x168D3003#32, Instr.brev 0x51 0xA6), (0x177A4B84#32, Instr.bfxS 0x6F 0x49 0x70),
    (0x15AE8F85#32, Instr.bfxU 0x35 0xD1 0xF0), (0x1547E89E#32, Instr.bfi 0x28 0xFD 0x13),
    (0x17B5DE37#32, Instr.permb 0x76 0xBB 0xC6), (0x18112250#32, Instr.iaddi 2 0x24 0x250),
    (0x1E2A133D#32, Instr.andi 0x45 0x42 0x33D), (0x209654D8#32, Instr.ori 0x12 0xCA 0x4D8),
    (0x256994DE#32, Instr.xori 0x2D 0x32 0x4DE), (0x28BCF81D#32, Instr.shli 0x17 0x9F 0x1D),
    (0x2847091E#32, Instr.shri 8 0xE1 0x1E), (0x29F7CA01#32, Instr.sari 0x3E 0xF9 1), (0x299CAB0E#32, Instr.roli 0x33 0x95 14),
    (0x2B92D400#32, Instr.rori 0x72 0x5A 0), (0x2C1436B0#32, Instr.icmp 0 2 0x86 0xD6),
    (0x2DA052A9#32, Instr.icmpAnd 3 4 10 0x55), (0x2ECD96BA#32, Instr.icmpOr 5 9 0xB2 0xD7),
    (0x33154D1C#32, Instr.fcmp 6 2 0xA9 0xA3 1), (0x33301981#32, Instr.fcmpAnd 6 6 3 0x30 0),
    (0x31A247A2#32, Instr.fcmpOr 3 4 0x48 0xF4 0), (0x34000020#32, Instr.pand 0 0 4), (0x37880808#32, Instr.por 7 1 1),
    (0x36100828#32, Instr.pxor 4 1 5), (0x35983000#32, Instr.pnot 3 6), (0x35A6A000#32, Instr.psetnz 3 0xD4),
    (0x38EBE16F#32, Instr.sel 0x1D 0x7C 0x2D 7)],
    decodeWord p.1 = .ok p.2 := by decide +kernel

/-- A word of every row, its fields placed as spec/opcode_table.json and the encodings of its rules (R145-R149) place them. -/
theorem test_decode_float : ∀ p ∈ [
    (0x41C758E0#32, Instr.fadd 0x38 0xEB 0x1C), (0x40C484E1#32, Instr.fsub 0x18 0x90 0x9C),
    (0x42DD47FA#32, Instr.fmul 0x5B 0xA8 0xFF), (0x41A1EB73#32, Instr.fmin 0x34 0x3D 0x6E),
    (0x412BEDEC#32, Instr.fmax 0x25 0x7D 0xBD), (0x425BE365#32, Instr.fminm 0x4B 0x7C 0x6C),
    (0x40CF28AE#32, Instr.fmaxm 0x19 0xE5 0x15), (0x4130039F#32, Instr.fcopys 0x26 0 0x73),
    (0x47972FE8#32, Instr.fmac 0x72 0xE5 0xFD), (0x4728C3D9#32, Instr.fmsc 0x65 0x18 0x7B),
    (0x444DD882#32, Instr.fnmac 9 0xBB 0x10), (0x462CA8BB#32, Instr.fnmsc 0x45 0x95 0x17),
    (0x49926000#32, Instr.frcp 0x32 0x4C), (0x48970001#32, Instr.fsqrt 0x12 0xE0), (0x4A81B802#32, Instr.frsq 0x50 0x37),
    (0x49FCA803#32, Instr.fexp2 0x3F 0x95), (0x4AA26004#32, Instr.flog2 0x54 0x4C), (0x49AA7805#32, Instr.fsinpi 0x35 0x4F),
    (0x4B0C0006#32, Instr.fcospi 0x61 0x80), (0x492DF807#32, Instr.frint 0x25 0xBF)],
    decodeWord p.1 = .ok p.2 := by decide +kernel

/-- A word of every row, its fields placed as spec/opcode_table.json and the encodings of its rules (R150-R167) place them. -/
theorem test_decode_float_functions : ∀ p ∈ [
    (0x4D76D888#32, Instr.fdiv 0x2E 0xDB 0x11), (0x4F4A0001#32, Instr.fclass 0x69 0x40), (0x4EC36002#32, Instr.fneg 0x58 0x6C),
    (0x4D638003#32, Instr.fabs 0x2C 0x70), (0x4F7BBEEC#32, Instr.fscale 0x6F 0x77 0xDD),
    (0x4F69A005#32, Instr.fgetexp 0x6D 0x34), (0x4F0F4806#32, Instr.fgetman 0x61 0xE9),
    (0x5345A618#32, Instr.hadd2 0x68 0xB4 0xC3 0), (0x536301A5#32, Instr.hmul2 0x6C 0x60 0x34 1),
    (0x502F315E#32, Instr.hmac2 5 0xE6 0x2B 1), (0x53B2FCE7#32, Instr.hmax2 0x76 0x5F 0x9C 1)],
    decodeWord p.1 = .ok p.2 := by decide +kernel

/-- A word of every row, its fields placed as spec/opcode_table.json and the encodings of its rules (R166, R169, R172) place them. -/
theorem test_decode_packed_and_conversions : ∀ p ∈ [
    (0x570614A0#32, Instr.hmin2F16 0x60 0xC2 0x94), (0x5532A649#32, Instr.hmin2Bf16 0x26 0x54 0xC9),
    (0x569F595A#32, Instr.hsub2F16 0x53 0xEB 0x2B), (0x56810AA3#32, Instr.hsub2Bf16 0x50 0x21 0x54),
    (0x55DE0124#32, Instr.hdot2F16 0x3B 0xC0 0x24), (0x5594C81D#32, Instr.hdot2Bf16 0x32 0x99 3),
    (0x58F4410C#32, Instr.cvt 0x1E 0x88 0x21 1 0), (0x5C718EA8#32, Instr.packn 14 0x31 0xD5),
    (0x5E9876E1#32, Instr.unpknS 0x53 14 0xDC), (0x5E21C662#32, Instr.unpknU 0x44 0x38 0xCC),
    (0x5D3968BB#32, Instr.packh 0x27 0x2D 0x17), (0x630606D8#32, Instr.dadd 0x30 0xC0 0xDB),
    (0x62D3B871#32, Instr.dsub 0x2D 0x77 14), (0x6195B062#32, Instr.dmul 0x19 0xB6 12),
    (0x6386EE03#32, Instr.dfmac 0x38 0xDD 0xC0), (0x63F570B4#32, Instr.dmin 0x3F 0xAE 0x16),
    (0x61D627F5#32, Instr.dmax 0x1D 0xC4 0xFE), (0x63E52D1E#32, Instr.ddiv 0x3E 0xA5 0xA3),
    (0x62A1E007#32, Instr.dsqrt 0x2A 0x3C)],
    decodeWord p.1 = .ok p.2 := by decide +kernel

/-- A word of every row, its fields placed as spec/opcode_table.json and the encodings of its rules (R216-R224) place them. -/
theorem test_decode_memory : ∀ p ∈ [
    (0x677BDD5E#32, Instr.ld 0x6F 0x7B 10 5 14), (0x6B7EDCFD#32, Instr.st 0x6F 0xDB 9 7 13),
    (0x6D1DF63B#32, Instr.atom 0x23 0xBE 12 1 11), (0x71947BAB#32, Instr.red 0x32 0x8F 7 0 11),
    (0x74065C0A#32, Instr.pfetch 0xCB 8 10), (0x74034E1F#32, Instr.cinval 0x69 12 15),
    (0x74048D21#32, Instr.pfetchL2 0x91 10 1), (0x78048000#32, Instr.fenceRel 0x48), (0x78000400#32, Instr.fenceAcq),
    (0x78086800#32, Instr.fenceFull 0x86)],
    decodeWord p.1 = .ok p.2 := by decide +kernel

/-- A word of every row, its fields placed as spec/opcode_table.json and the encodings of its rules (R179-R187) place them. -/
theorem test_decode_branches_and_barriers : ∀ p ∈ [
    (0x7EF4E3D8#32, Instr.mwait 0x2F 0x9C 7 5 8), (0x8083A0C5#32, Instr.bra 1 0 0x3A0C5), (0x846E43F6#32, Instr.bru 6 7 0x43F6),
    (0x8807F000#32, Instr.brx 0xFE), (0x88038001#32, Instr.ret 0x70), (0x8F21E9F8#32, Instr.call 0x64 0x1E9F8),
    (0x911750FA#32, Instr.wait 8 0x17 10 3 0x1D), (0x940AD000#32, Instr.barSync 5 0x1A),
    (0x94028A00#32, Instr.barArrive 1 0x11), (0x94044C00#32, Instr.barWait 2 9)],
    decodeWord p.1 = .ok p.2 := by decide +kernel

/-- A word of every row, its fields placed as spec/opcode_table.json and the encodings of its rules (R189-R195) place them. -/
theorem test_decode_uniform : ∀ p ∈ [
    (0xA2AC8630#32, Instr.cadd 0x2A 0xC8 0x63), (0xA3658B11#32, Instr.csub 0x36 0x58 0xB1),
    (0xA1726352#32, Instr.cmul 0x17 0x26 0x35), (0xA15A2E43#32, Instr.cand 0x15 0xA2 0xE4),
    (0xA3AF2A14#32, Instr.cor 0x3A 0xF2 0xA1), (0xA32FB345#32, Instr.cxor 0x32 0xFB 0x34),
    (0xA3696D46#32, Instr.cshl 0x36 0x96 0xD4), (0xA0F4B707#32, Instr.cshr 15 0x4B 0x70),
    (0xA38BCA58#32, Instr.csar 0x38 0xBC 0xA5), (0xA3735E89#32, Instr.cminS 0x37 0x35 0xE8),
    (0xA059F2AA#32, Instr.cmaxS 5 0x9F 0x2A), (0xA1CA21EB#32, Instr.cminU 0x1C 0xA2 0x1E),
    (0xA3EACF5C#32, Instr.cmaxU 0x3E 0xAC 0xF5), (0xA0CC4DAD#32, Instr.csltS 12 0xC4 0xDA),
    (0xA0D21B3E#32, Instr.csltU 13 0x21 0xB3), (0xA3875ABF#32, Instr.cseq 0x38 0x75 0xAB),
    (0xA415B250#32, Instr.caddi 1 0x5B 0x250), (0xAAD16000#32, Instr.aadd 11 4 0x58), (0xA9FF48C1#32, Instr.aadds 7 15 0xD2 12),
    (0xA900E802#32, Instr.afromc 4 0x3A), (0xA8207803#32, Instr.atoc 8 0x1E), (0xAEC81936#32, Instr.cld 0x2C 8 0 0x1936),
    (0xB3B1BDC3#32, Instr.cst 0x3B 1 2 0x3DC3), (0xB657C370#32, Instr.wred 0x25 0x7C 3 3 1),
    (0xB8ED0D00#32, Instr.srd 0x76 0x21A), (0xBA3FBD00#32, Instr.swr 0x1F 0x37A), (0xBC7CB000#32, Instr.regqSet 7 0xCB),
    (0xBF46F7A1#32, Instr.regqXfer 0x34 0x6F 0x7A), (0xBD800002#32, Instr.regqGet 0x18)],
    decodeWord p.1 = .ok p.2 := by decide +kernel

/-- A word of every row, its fields placed as spec/opcode_table.json and the encodings of its rules (R253, R267) place them. -/
theorem test_decode_copies_and_matrix : ∀ p ∈ [
    (0xC3E19EC0#32, Instr.copyT 15 0x86 7 5 2), (0xC34DB541#32, Instr.copyG 13 0x36 13 2 2),
    (0xC08A9742#32, Instr.copyS 2 0x2A 5 6 2), (0xC31FDA03#32, Instr.copyMc 12 0x7F 6 4 0),
    (0xC0A23604#32, Instr.copyWb 2 0x88 13 4 0), (0xC0EA3D85#32, Instr.copyFill 3 0xA8 15 3),
    (0xC00EC006#32, Instr.cresume 0x3B), (0xC03D4007#32, Instr.ccancel 0xF5), (0xC6FA0202#32, Instr.tbarInit 0x5F 0x40 4 2),
    (0xC401FC9B#32, Instr.tbarArrive 0 0x3F 9 11), (0xC5602AA3#32, Instr.tbarExpect 0x2C 5 5 3),
    (0xC52DE032#32, Instr.tbarWait 0x25 0xBC 0 2), (0xC683E94B#32, Instr.tbarTest 0x50 0x7D 2 11),
    (0xC837C000#32, Instr.mdesc 0x37 12), (0xC840F000#32, Instr.mma 15), (0xC88B0000#32, Instr.accrd 11),
    (0xC8F00000#32, Instr.accwr 0x30), (0xC9180000#32, Instr.accscl 0x18), (0xC9530000#32, Instr.accz 0x13),
    (0xC980068F#32, Instr.wbinv 6 0x8F), (0xC9EA00AB#32, Instr.mstat 0x2A 0xAB), (0xCD26C000#32, Instr.collAr 4 0x9B 0),
    (0xCCC98001#32, Instr.collRs 3 0x26 0), (0xCEC50002#32, Instr.collAg 11 0x14 0), (0xCEFA8003#32, Instr.collBc 11 0xEA 0)],
    decodeWord p.1 = .ok p.2 := by decide +kernel

/-- A word of every row, its fields placed as spec/opcode_table.json and the encodings of its rules (R207, R328-R355) place them. -/
theorem test_decode_tables_and_tenants : ∀ p ∈ [
    (0xD1AC7BA0#32, Instr.tbld 0x1A 0xC7 0xBA), (0xD09790A1#32, Instr.tbinv 9 0x79 10),
    (0xD2F73282#32, Instr.tbq 0x2F 0x73 0x28), (0xD21353B3#32, Instr.tagq 0x21 0x35 0x3B),
    (0xD01258F4#32, Instr.fresume 1 0x25 0x8F), (0xD14FF635#32, Instr.rack 0x14 0xFF 0x63),
    (0xD22C3F46#32, Instr.relinq 0x22 0xC3 0xF4), (0xD0CAC1F7#32, Instr.lossrd 12 0xAC 0x1F),
    (0xD685D800#32, Instr.cntrdLo 0x50 0xBB), (0xD7797801#32, Instr.cntrdHi 0x6F 0x2F), (0xD7C48802#32, Instr.cntrd 0x3C 0x91),
    (0xD4000263#32, Instr.cntsel 0 0x4C), (0xD406E804#32, Instr.cntz 0xDD), (0xD50604E5#32, Instr.numrd 0x10 0xC0 0x9C),
    (0xDA8A5680#32, Instr.dbpset 0x28 0xA5 0x68), (0xDAE4B001#32, Instr.dbpclr 0x2E 0x4B), (0xD8193002#32, Instr.dhalt 1 0x93),
    (0xD9E10003#32, Instr.dstep 0x1E 0x10 0), (0xD86801D4#32, Instr.dresume 6 0x80 0x1D), (0xD8704195#32, Instr.dwset 7 4 0x19),
    (0xDBC8E006#32, Instr.dstat 0x3C 0x8E), (0xD8797847#32, Instr.trace 7 0x97 0x84),
    (0xD9EB57E8#32, Instr.dpcrd 0x1E 0xB5 0x7E), (0xDFB54000#32, Instr.lnchPool 14 0xD5), (0xDFCEC001#32, Instr.lnchGo 15 0x3B),
    (0xE3826000#32, Instr.cfgr 0x38 0x26), (0xE19CC5E1#32, Instr.cfgw 0x19 0xCC 0x5E)],
    decodeWord p.1 = .ok p.2 := by decide +kernel

/-- A word of every row, its fields placed as spec/opcode_table.json and the encodings of its rules (R71-R80) place them. -/
theorem test_decode_hints : ∀ p ∈ [
    (0xFC25D12B#32, Instr.hintImms 0x25D12B), (0xFC40CCF4#32, Instr.hintImmh 0xCCF4), (0xFC809CB2#32, Instr.hintImml 0x9CB2),
    (0xFCC0000B#32, Instr.hintPred 1 3), (0xFD0000D4#32, Instr.hintMem 1 2 1 0 4), (0xFD400005#32, Instr.hintRnd 0 1 1),
    (0xFDB9797B#32, Instr.hintDisp 0x39797B), (0xFDC93F20#32, Instr.hintDead 9 0x3F20),
    (0xFE0008F7#32, Instr.hintSchedFill 0x8F7), (0xFE108A6F#32, Instr.hintSchedAge 0x8A6F)],
    decodeWord p.1 = .ok p.2 := by decide +kernel

/-! ### Well-formedness: each check refuses a term -/

/-- Sources of thread instructions: 0xEF and what lies above the literal are not claimed (R66, R68); pairs are even (R84). -/
theorem test_wf_sources : ∀ i ∈ [Instr.iadd 0 0xEF 0, .iadd 0 0 0xF1, .popc 0 0xFF, .fadd 0 0xEF 0, .brx 0xF8, .icmp 0 0 0xEF 0,
    .dadd 0 1 2, .dadd 0 2 0x81, .dsqrt 0 3, .fcmp 0 0 1 0 1], Instr.wf i = false := by decide

/-- Codes of comparisons, conversions, reductions and atomics that are not claimed (R117, R168, R169, R195, R218). -/
theorem test_wf_codes : ∀ i ∈ [Instr.icmp 0 10 0 0, .icmpAnd 0 15 0 0, .fcmp 0 14 0 0 0, .cvt 0 0 0 0 0, .cvt 0 0 0x0F 0 0,
    .cvt 0 0 0x10 0 1, .cvt 0 0 0x17 1 0, .cvt 0 0 0x18 0 0, .cvt 0 0 0x30 0 0, .wred 0 0 12 0 0, .wred 0 1 11 0 0,
    .atom 0 0 0 0 13, .atom 0 0 0 1 10, .red 0 0 0 0 8, .red 0 0 0 0 9], Instr.wf i = false := by decide

/-- Sizes and alignment of memory forms (R84, R216-R218, R222, R193). -/
theorem test_wf_memory : ∀ i ∈ [Instr.ld 0 0 0 7 0, .ld 1 0 0 3 0, .ld 2 0 0 4 0, .st 0 0 0 5 0, .st 3 0 0 3 0, .atom 1 0 0 1 0,
    .atom 1 0 0 0 9, .atom 2 0 0 1 9, .red 1 0 0 1 0, .pfetch 0xEF 0 0, .mwait 0 0 0 3 0, .cld 0 0 3 0, .cld 2 0 2 0, .cst 0 0 2 0, .cst 3 0 1 0,
    .wbinv 0 0], Instr.wf i = false := by decide

/-- Conditions of uniform branches, scopes of barriers, sources of uniform forms (R69, R182, R187, R189). -/
theorem test_wf_uniform : ∀ i ∈ [Instr.bru 0 7 0, .bru 1 0 0, .barSync 5 0, .barArrive 7 0, .barWait 6 0, .cadd 0 0x7F 0x80,
    .cadd 0 0x80 0xEF, .caddi 0 0 0, .afromc 0 3, .atoc 0 1, .fresume 0 0 0x80, .dhalt 0 0x7F], Instr.wf i = false := by decide

/-- Numbers of special registers, counters and slots (R126-R128, R355, R267); pair and quad destinations (R208). -/
theorem test_wf_numbers : ∀ i ∈ [Instr.srd 0 0x1A, .swr 0 0x14, .swr 0 0x19, .cntrdLo 0 8, .cntrd 0 0x0F, .cntrdHi 0 0x20,
    .cntsel 8 0, .cntz 8, .numrd 0 64 0, .mdesc 0 15, .mma 15, .mstat 0 15, .mstat 0 17, .tbq 2 0x80 0x80, .lossrd 1 0x80 0x80,
    .dpcrd 6 0x80 0x80, .cfgr 1 0x80, .tbld 0 0x7C 0x80, .tbld 0 0x81 0x80], Instr.wf i = false := by decide

/-- Fields of engine commands and of hints (R80, R253, R72). -/
theorem test_wf_commands : ∀ i ∈ [Instr.copyT 0 0xC0 0 0 0, .copyG 0 0 0 0 2, .copyFill 0 0xC0 0 0, .collAr 0 0xFF 0,
    .lnchPool 0 0xC0, .cresume 0x7F, .ccancel 0xC0, .hintMem 0 3 0 0 0, .hintSchedFill 2049], Instr.wf i = false := by decide

/-- Events about units that do not exist (R15-R27). -/
theorem test_wf_events : ∀ i ∈ [Instr.runSelect 768 0, .runSelect 0 2, .segmentGrant 192, .bucketTick 16, .dieJoin 2,
    .calendarWrap 0 4, .runPortRound 768, .timeSliceBoundary 0 4, .worldLatchChange 192 0, .worldActivate 16, .mcdropClear 3072,
    .pcSample 0 8, .flowStop 18 0, .flowGo 0 4, .routeLossTimeout 1024, .linkDown 18, .quoteRequest []],
    Instr.wf i = false := by decide

/-- And they pass terms whose fields are at the ends of what is claimed. -/
theorem test_wf_passes : ∀ i ∈ [Instr.iadd 127 0xF0 0xEE, .icmp 7 9 0xBF 0xC0, .fcmp 0 13 0x7E 0x80 1, .cvt 2 0 0x0B 1 3, .cvt 0 2 0x0C 0 0,
    .ld 0x7C 0 0 4 15, .atom 4 0 0 1 9, .bru 63 6 0, .bru 0 0 0, .srd 0 0x19, .swr 0 0x18, .cntrd 0 0x1F, .mstat 0 16,
    .tbld 0 0x84 0xF0, .copyT 0 0xBF 0 0 1, .runSelect 767 1], Instr.wf i = true := by decide

/-! ### Small states for single steps

One thread of tenant 1 of partition 1 on core 0 is about to issue; `wave` and `debug` give its launch the rights of R83. -/

def lab (wave debug : Bool) (t : Thread → Thread) (g : Wg → Wg) (f : State → State) : State :=
  let s := State.reset.placeFor (Tag.make 1 1 1) wave debug 0
  f { s with agenda := [], wgs := s.wgs.map fun v => g { v with threads := v.threads.map t } }

/-- The plain one. -/
def bench : State := lab false false id id id

def smooth (s : State) : Bool :=
  s.issuer.isSome && s.issuer.all fun x => x.1.parked.isEmpty && (x.1.group x.2).all fun t =>
    decide (t.block = .none) && !t.owes && (t.suppress || decide (s.comparatorAt x.1 x.2.launch x.1.pc = none)) && decide (t.guard.poison = none)

def smoothAll (s : State) : Bool :=
  s.issuer.isSome && s.issuer.all fun x => x.1.uniform && x.1.parked.isEmpty && (x.1.everyone x.2).all fun t =>
    decide (t.block = .none) && !t.owes && (t.suppress || decide (s.comparatorAt x.1 x.2.launch x.1.pc = none)) && decide (t.hints.pred = none)

/-- A group issues, some thread of it executes, and each that does satisfies `p`. -/
def Issuing (s : State) (p : Run → Wg → Thread → Prop) : Prop :=
  ∃ r w, Smooth s r w ∧ r.acting w ≠ [] ∧ ∀ t ∈ r.acting w, p r w t

/-- A uniform run issues. -/
def IssuingAll (s : State) (p : Run → Wg → Prop) : Prop := ∃ r w, SmoothAll s r w ∧ r.everyone w ≠ [] ∧ p r w

theorem issuing_of {s : State} {p : Run → Wg → Thread → Prop} (hs : smooth s = true)
    (hp : ∀ x ∈ s.issuer, x.1.acting x.2 ≠ [] ∧ ∀ t ∈ x.1.acting x.2, p x.1 x.2 t) : Issuing s p := by
  unfold smooth at hs
  cases hi : s.issuer with
  | none => simp [hi] at hs
  | some x =>
    obtain ⟨h1, h2⟩ := hp x hi
    simp only [hi, Option.isSome_some, Option.all_some, Bool.true_and, Bool.and_eq_true, List.isEmpty_iff, List.all_eq_true,
      decide_eq_true_eq, Bool.or_eq_true, Bool.not_eq_true'] at hs
    exact ⟨x.1, x.2, ⟨hi, by simp [hs.1], fun t ht => (hs.2 t ht).1.1, fun t ht => (hs.2 t ht).1.2, fun t ht => (hs.2 t ht).2⟩, h1, h2⟩

theorem issuingAll_of {s : State} {p : Run → Wg → Prop} (hs : smoothAll s = true)
    (hp : ∀ x ∈ s.issuer, x.1.everyone x.2 ≠ [] ∧ p x.1 x.2) : IssuingAll s p := by
  unfold smoothAll at hs
  cases hi : s.issuer with
  | none => simp [hi] at hs
  | some x =>
    obtain ⟨h1, h2⟩ := hp x hi
    simp only [hi, Option.isSome_some, Option.all_some, Bool.true_and, Bool.and_eq_true, List.isEmpty_iff, List.all_eq_true,
      decide_eq_true_eq, Bool.or_eq_true, Bool.not_eq_true'] at hs
    exact ⟨x.1, x.2, ⟨hi, hs.1.1, hs.1.2, fun t ht => (hs.2 t ht).1.1, fun t ht => (hs.2 t ht).1.2,
      fun t ht => (hs.2 t ht).2⟩, h1, h2⟩

/-- The same tests as `canRead`, `canName`, `canReadUniform` and `unlogged`, computed. -/
def reads (w : Wg) (t : Thread) (f : BitVec 8) (cnt : Nat) : Bool :=
  decide (f.toNat ≤ 0xF0) && decide (f.toNat ≠ 0xEF) &&
  (decide (0x80 ≤ f.toNat) || (decide (f.toNat % cnt = 0) && decide (f.toNat < w.quota) &&
    (List.range cnt).all fun i => !t.pending.contains (f.toNat + i))) &&
  (decide (f.toNat < 0x80) || decide (0xC0 ≤ f.toNat) ||
    (decide ((f.toNat - 0x80) % cnt = 0) && decide (f.toNat - 0x80 < w.commons.length))) &&
  (decide (f.toNat ≠ 0xF0) || t.hints.litSet)

theorem canRead_iff (w : Wg) (t : Thread) (f : BitVec 8) (cnt : Nat) : canRead w t f cnt ↔ reads w t f cnt = true := by
  simp only [canRead, reads, Bool.and_eq_true, Bool.or_eq_true, decide_eq_true_eq, List.all_eq_true, List.mem_range,
    Bool.not_eq_true', List.contains_eq_mem, decide_eq_false_iff_not]
  constructor
  · rintro ⟨h1, h2, h3, h4, h5⟩
    refine ⟨⟨⟨⟨h1, h2⟩, ?_⟩, ?_⟩, ?_⟩
    · by_cases h : f.toNat < 0x80
      · obtain ⟨a, b, c⟩ := h3 h; exact .inr ⟨⟨a, b⟩, c⟩
      · exact .inl (by omega)
    · by_cases h : f.toNat < 0x80
      · exact .inl (.inl h)
      · by_cases h' : f.toNat < 0xC0
        · exact .inr (h4 (by omega) h')
        · exact .inl (.inr (by omega))
    · by_cases h : f.toNat = 0xF0
      · exact .inr (h5 h)
      · exact .inl h
  · rintro ⟨⟨⟨⟨h1, h2⟩, h3⟩, h4⟩, h5⟩
    refine ⟨h1, h2, fun h => ?_, fun h h' => ?_, fun h => ?_⟩
    · rcases h3 with h3 | ⟨⟨a, b⟩, c⟩
      · omega
      · exact ⟨a, b, c⟩
    · rcases h4 with (h4 | h4) | h4
      · omega
      · omega
      · exact h4
    · exact h5.resolve_left (by simp [h])

def names (w : Wg) (t : Thread) (n cnt : Nat) : Bool :=
  decide (n % cnt = 0) && decide (n < w.quota) && (List.range cnt).all fun i => !t.pending.contains (n + i)

theorem canName_iff (w : Wg) (t : Thread) (n cnt : Nat) : canName w t n cnt ↔ names w t n cnt = true := by
  simp [canName, names, and_assoc]

def readsUniform (w : Wg) (r : Run) (f : BitVec 8) : Bool :=
  decide (0x80 ≤ f.toNat) && decide (f.toNat ≤ 0xF0) && decide (f.toNat ≠ 0xEF) &&
  (decide (0xC0 ≤ f.toNat) || decide (f.toNat - 0x80 < w.commons.length)) &&
  (decide (f.toNat ≠ 0xF0) || (!r.groups.flatten.isEmpty && (r.everyone w).all fun t => t.hints.litSet))

theorem canReadUniform_iff (w : Wg) (r : Run) (f : BitVec 8) : canReadUniform w r f ↔ readsUniform w r f = true := by
  simp only [canReadUniform, readsUniform, Bool.and_eq_true, Bool.or_eq_true, decide_eq_true_eq, List.all_eq_true,
    Bool.not_eq_true', List.isEmpty_eq_false_iff, and_assoc]
  refine and_congr_right fun _ => and_congr_right fun _ => and_congr_right fun _ => and_congr ?_ ?_
  · by_cases h : f.toNat < 0xC0 <;> simp [h, Nat.not_le.2, Nat.not_lt.1]
  · by_cases h : f.toNat = 0xF0 <;> simp [h]

theorem unlogged_iff (s : State) (w : Wg) : s.unlogged w ↔ ((s.launch? w.launch).all fun l => !l.record) = true := by
  cases h : s.launch? w.launch <;> simp [State.unlogged, h]

/-- The first workgroup, and its first thread. -/
def wgOf (s : State) : Wg := s.wgs.headD (startWg (placedLaunch 0 0 false false) (placedGang 0 0) 0 0 0 0 0 none)

def threadOf (s : State) : Thread := (wgOf s).threads.headD (startThread 0 0 none)

/-! ### Single steps, with the results of the manual's worked examples -/

def having (rs : List (Nat × Word)) (t : Thread) : Thread :=
  { t with bank := rs.foldl (fun b p => b.set p.1 ⟨p.2, none⟩) t.bank }

def next? (i : Instr) (s : State) : Option State :=
  match exec i s with
  | .next u => some u
  | _ => none

def thread0 (s : State) : Option Thread := s.thread? 1 0

/-- Register `n` of the thread after an instruction, from registers `rs`; `f` changes the thread first. -/
def gives (i : Instr) (rs : List (Nat × Word)) (n : Nat) (f : Thread → Thread := id) : Option Word :=
  (next? i (lab false false (fun t => f (having rs t)) id id)).bind fun u => (thread0 u).map fun t => (t.reg u n).val

/-- Common register `n` after a uniform instruction, from common registers `cs`. -/
def givesCommon (i : Instr) (cs : List (Nat × Word)) (n : Nat) : Option Word :=
  (next? i (lab false false id (fun w => { w with commons := cs.foldl (fun b p => b.set p.1 ⟨p.2, none⟩) w.commons }) id)).bind
    fun u => (u.wg? 1).map fun w => (w.creg n).val

/-- The example at R115. -/
theorem test_imulh : gives (.imulhS 3 1 2) [(1, 0xFFFFFFFE), (2, 0x80000000)] 3 = some 1 ∧
    gives (.imulhU 3 1 2) [(1, 0xFFFFFFFE), (2, 0x80000000)] 3 = some 0x7FFFFFFF ∧
    gives (.imul 3 1 2) [(1, 0xFFFFFFFE), (2, 0x80000000)] 3 = some 0 ∧
    gives (.iabsd 3 1 2) [(1, 0xFFFFFFFE), (2, 0x80000000)] 3 = some 0x7FFFFFFE := by decide +kernel

theorem test_idot4 : gives (.idot4S 3 1 2) [(1, 0x0102FF80), (2, 0x04030201), (3, 100)] 3 = some 0xFFFFFFEC ∧
    gives (.idot4U 3 1 2) [(1, 0x0102FF80), (2, 0x04030201), (3, 100)] 3 = some 0x2EC := by decide +kernel

/-- The example at R121: the control word is the literal 0x408. -/
theorem test_bfx : gives (.bfxU 6 7 0xF0) [(7, 0x12345A78)] 6 (fun t => { t with hints := { t.hints with lit := 0x408, litSet := true } }) =
      some 0xA ∧
    gives (.bfxS 6 7 0xF0) [(7, 0x12345A78)] 6 (fun t => { t with hints := { t.hints with lit := 0x408, litSet := true } }) =
      some 0xFFFFFFFA := by decide +kernel

/-- The example at R122. -/
theorem test_permb : gives (.permb 3 1 2) [(1, 0x12345678), (2, 0x0123)] 3 = some 0x78563412 ∧
    gives (.permb 3 1 2) [(1, 0x12345678), (2, 0xF120)] 3 = some 0x00563478 := by decide +kernel

/-- The example at R157: -0 and a quiet NaN. -/
theorem test_fmin : gives (.fmin 3 1 2) [(1, 0x80000000), (2, 0x7FC01234)] 3 = some 0x80000000 ∧
    gives (.fminm 3 1 2) [(1, 0x80000000), (2, 0x7FC01234)] 3 = some 0x7FC00000 := by decide +kernel

/-- The example at R158: one rounding. -/
theorem test_fmac : gives (.fmac 3 1 2) [(1, 0x3F800001), (2, 0x3F7FFFFE), (3, 0xBF800000)] 3 = some 0xA8800000 ∧
    gives (.fmul 3 1 2) [(1, 0x3F800001), (2, 0x3F7FFFFE)] 3 = some 0x3F800000 := by decide +kernel

/-- The example at R164. -/
theorem test_fgetexp : gives (.fgetexp 3 1) [(1, 1)] 3 = some 0xFFFFFF6B ∧ gives (.fgetman 3 1) [(1, 1)] 3 = some 0x3F800000 := by
  decide +kernel

/-- The example at R166: 1.5 * 4.0 + 2.0 * -0.5 + 1.0 is 6.0. -/
theorem test_hdot2 : gives (.hdot2Bf16 6 4 5) [(4, 0x40003FC0), (5, 0xBF004080), (6, 0x3F800000)] 6 = some 0x40C00000 := by decide +kernel

/-- The example at R168: an ordered comparison with a quiet NaN is false and raises NV, an unordered one is true. -/
theorem test_fcmp :
    ((next? (.fcmp 1 2 2 3 0) (lab false false (having [(2, 0x3F800000), (3, 0x7FC00000)]) id id)).bind thread0).map
      (fun t => ((predicate t 1).val, t.fflags)) = some (false, 1#5) ∧
    ((next? (.fcmp 1 10 2 3 0) (lab false false (having [(2, 0x3F800000), (3, 0x7FC00000)]) id id)).bind thread0).map
      (fun t => ((predicate t 1).val, t.fflags)) = some (true, 0#5) := by decide +kernel

/-- The example at R169: 500.0 to a byte of E4M3, and to a saturated byte of E5M2. -/
theorem test_cvt : gives (.cvt 9 4 0x2A 0 0) [(4, 0x43FA0000), (9, 0x11223344)] 9 = some 0x117E3344 ∧
    gives (.cvt 9 4 0x2E 1 0) [(4, 0x43FA0000), (9, 0x11223344)] 9 = some 0x11603344 := by decide +kernel

/-- The example at R172. -/
theorem test_packh : gives (.packh 12 10 11) [(10, 0x3FC0), (11, 0x4000)] 12 = some 0x40003FC0 := by decide +kernel

/-- The example at R143: the invalid flag is enabled, so `FSQRT` of -4.0 takes the fault. -/
theorem test_fsqrt_traps :
    ((next? (.fsqrt 3 2) (lab false false (fun t => { having [(2, 0xC0800000), (3, 9)] t with fen := 1 })
      (fun w => { w with tvec := 0x101 }) id)).bind thread0).map
      (fun t => (t.place, t.fcause, t.finfo, t.fflags)) = some (.waiting 0x40 .ready, 5, 0x83, 1#5) := by decide +kernel

/-- The examples at R180 and R181: the call links the word after it. -/
theorem test_call :
    ((next? (.call 9 0x70) bench).bind thread0).map (fun t => (t.bank.getD 9 ⟨0, none⟩).val) = some 2 ∧
    ((next? (.ret 9) (lab false false (having [(9, 0x11)]) id id)).bind thread0).map (fun t => t.place) =
      some (.waiting 0x11 .ready) := by decide +kernel

/-- The examples at R189, R190 and R191. -/
theorem test_calu : givesCommon (.cadd 5 0x85 0xC1) [(5, 41)] 5 = some 42 ∧ givesCommon (.caddi 2 0x82 0xFFF) [(2, 0)] 2 = some 0xFFFFFFFF ∧
    ((next? (.aadds 4 1 3 12) bench).bind fun u => (u.wg? 1).map fun w => (w.addr 4).val) = some 12288#64 := by decide +kernel

/-- The example at R195: the tree adds 2^24, 1.0, 1.0 and -2^24 to 1.0. -/
theorem test_wred :
    treeOf (reduction 1).1 11 (fun j => [(⟨0x4B800000#32, none⟩ : Reg), ⟨0x3F800000#32, none⟩, ⟨0x3F800000#32, none⟩,
      ⟨0xCB800000#32, none⟩][j]?) = some ⟨0x3F800000#32, none⟩ := by decide +kernel

/-- The first line of the example at R131. -/
theorem test_regq_set :
    ((next? (.regqSet 4 0xD0) (lab false false id (fun w => { w with quota := 32, budget := 32 }) id)).bind fun u => u.wg? 1).map
      (fun w => ((w.creg 4).val, w.quota)) = some (0x00201000, 16) := by decide +kernel

/-- The example at R355: the high half is that of the last low read of the same counter. -/
theorem test_cntrd :
    let ctr : Ctr := ⟨0, 0, 0x1FFFFFFF0#64, 0, none⟩
    let ten : Tenant := { tag := Tag.make 1 1 1, code := 0, threads := 0, regs := 0, commons := 0, core := 0, faults := 0, recallRing := 0
                          notice := 0, rbase := 0, rsize := 0, args := 0, faultSeq := 0, recallSeq := 0, recalls := [], waiting := []
                          losses := [], lossSeq := 0, owedLoss := 0, areaOff := 0, ctrs := List.replicate 8 ctr, pendFaults := [], wave := none, room := [] }
    ((next? (.cntrdLo 4 2) (lab false false id id fun s => { s with tenants := [ten] })).bind fun u =>
        (thread0 u).map fun t => ((t.reg u 4).val, t.shadowWord)) = some (0xFFFFFFF0, 1) ∧
    gives (.cntrdHi 5 2) [] 5 (fun t => { t with shadowId := 2, shadowWord := 1 }) = some 1 := by decide +kernel

/-! ### States that meet the hypotheses of the statements

One theorem for each statement with hypotheses; where several clauses divide one range, values at its ends. -/

/-- Registers at both ends of the quota and of the commons, inline integers and constants, the literal. -/
def sources : List (BitVec 8) := [0x00, 0x7F, 0x80, 0xBF, 0xC0, 0xDF, 0xE0, 0xEE, 0xF0]

/-- A literal is set, v1 is 1.0, v2 is 0.0, every flag is enabled. -/
def litBench : State :=
  lab false false (fun t => { having [(1, 0x3F800000), (3, 0x3FF00000)] t with hints := { t.hints with lit := 7, litSet := true }, fen := 0x1F })
    id id

theorem witness_IntegerArithmeticCompletes : Issuing litBench fun _ w t =>
    canName w t 0 1 ∧ canName w t 127 1 ∧ ∀ f ∈ sources, canRead w t f 1 :=
  issuing_of (by decide +kernel) (by simp only [canName_iff, canRead_iff]; decide +kernel)

theorem witness_LogicAndShiftsComplete : Issuing litBench fun _ w t =>
    canName w t 0 1 ∧ canName w t 127 1 ∧ ∀ f ∈ sources, canRead w t f 1 :=
  witness_IntegerArithmeticCompletes

/-- Bit fields at the top of a word, and a length of zero, which stands for 32. -/
theorem witness_BitFieldValues : popCount 0xFFFFFFFF = 32 ∧ leadingZeros 0 = 32 ∧ trailingZeros 0x80000000 = 31 ∧
    reverseBits 1 = 0x80000000#32 ∧ fieldU 0x80000000 0x011F = 1#32 ∧ fieldS 0x80000000 0x011F = 0xFFFFFFFF#32 ∧
    fieldInsert 0 0xFFFFFFFF 0x0000 = 0xFFFFFFFF#32 ∧ fieldInsert 0 0xFFFFFFFF 0x1F1F = 0x80000000#32 ∧
    permuteBytes 0x8F7F3412 0x7FC3 = 0x00FF008F#32 ∧ packNibble 0x12345678 7 7 = 0x72345678#32 ∧ packNibble 0x12345678 8 0 = 0x12345677#32 ∧
    packNibble 0x12345678 (-8) 0 = 0x12345678#32 ∧ packNibble 0x12345678 (-9) 1 = 0x12345688#32 := by decide +kernel

/-- Patterns of every kind in each format; numbers that lie on a multiple of their last place and between two. -/
theorem witness_BitFieldValues_numbers : (∀ f ∈ threadFormats, (f.value 0).finite ∧ (f.value 1).finite ∧ (f.value (f.infBits - 1)).finite ∧
      f.value f.infBits = .inf false ∧ f.value (f.signBit true + f.infBits) = .inf true ∧ f.value f.nanBits = .nan false ∧
      f.value (f.infBits + 1) = .nan true) ∧
    ((fp32.value 0).rat = 0 ∧ (fp32.value 1).rat ≠ 0) ∧ ((3 : ℚ) = (3 : Nat) * 2 ^ (0 : Int)) ∧
    (((3 : Nat) : ℚ) * 2 ^ (0 : Int) < 7 / 2 ∧ (7 : ℚ) / 2 < ((3 : Nat) + 1) * 2 ^ (0 : Int)) := by
  refine ⟨?_, ⟨?_, ?_⟩, by norm_num, by norm_num, by norm_num⟩
  · simp only [threadFormats, List.forall_mem_cons, List.not_mem_nil, false_imp_iff, implies_true, and_true]
    refine ⟨?_, ?_, ?_, ?_⟩ <;>
      exact ⟨⟨_, _, _, rfl⟩, ⟨_, _, _, rfl⟩, ⟨_, _, _, rfl⟩, by decide +kernel, by decide +kernel, by decide +kernel, by decide +kernel⟩
  · have : fp32.value 0 = .fin false 0 (-149) false := by decide +kernel
    rw [this]
    norm_num [Exact.rat]
  · have : fp32.value 1 = .fin false 1 (-149) false := by decide +kernel
    rw [this]
    norm_num [Exact.rat]

theorem witness_PredicateFormsComplete : Issuing litBench fun _ w t =>
    canName w t 127 1 ∧ (∀ f ∈ sources, canRead w t f 1) ∧ (9#4).toNat < 10 :=
  issuing_of (by decide +kernel) (by simp only [canName_iff, canRead_iff]; decide +kernel)

/-- 1.0 and 1.0 raise no flag in a sum, 0.0 none in a function. -/
theorem witness_FloatArithmeticCompletes : Issuing litBench fun _ w t =>
    canName w t 127 1 ∧ (∀ f ∈ [1#8, 2#8], canRead w t f 1) ∧
    (fpAdd fp32 (t.fpEnv true) (operand litBench w t 1).val.toNat (operand litBench w t 1).val.toNat).flags.bits &&& t.fen = 0#5 ∧
    (fpUn fp32 (t.fpEnv true) Exact.sqrt (operand litBench w t 2).val.toNat).flags.bits &&& t.fen = 0#5 :=
  issuing_of (by decide +kernel) (by simp only [canName_iff, canRead_iff]; decide +kernel)

theorem witness_FloatFusedAndPackedComplete : Issuing litBench fun _ w t =>
    canName w t 127 1 ∧ (∀ f ∈ [1#8, 0xE2#8], canRead w t f 1) ∧
    (fpFma fp32 (t.fpEnv true) false false (operand litBench w t 1).val.toNat (operand litBench w t 1).val.toNat 0).flags.bits &&& t.fen = 0#5 ∧
    (fpAdd fp16 (t.fpEnv true) ((operandPacked litBench w t fp16 0xE2).val.toNat % 65536) 0).flags.bits &&& t.fen = 0#5 :=
  issuing_of (by decide +kernel) (by simp only [canName_iff, canRead_iff]; decide +kernel)

/-- The pair v2, v3 holds 1.0. -/
theorem witness_DoubleArithmeticCompletes : Issuing litBench fun _ w t =>
    canName w t 126 2 ∧ (∀ f ∈ [2#8, 0x7E#8, 0xBE#8, 0xC1#8], canRead w t f 2) ∧ (operandDouble litBench w t 2).1 = 0x3FF0000000000000#64 ∧
    (fpAdd fp64 (t.fpEnv true) (operandDouble litBench w t 2).1.toNat (operandDouble litBench w t 2).1.toNat).flags.bits &&& t.fen = 0#5 :=
  issuing_of (by decide +kernel) (by simp only [canName_iff, canRead_iff]; decide +kernel)

theorem witness_FloatCompareCompletes : Issuing litBench fun _ w t =>
    (13#4).toNat < 14 ∧ canRead w t 1 1 ∧ canRead w t 2 2 ∧
    (fpCompare fp32 (t.mode.getLsbD 2) 13 (operand litBench w t 1).val.toNat (operand litBench w t 2).val.toNat).2.bits &&& t.fen = 0#5 ∧
    (fpCompare fp64 (t.mode.getLsbD 2) 0 (operandDouble litBench w t 2).1.toNat (operandDouble litBench w t 2).1.toNat).2.bits &&& t.fen = 0#5 :=
  issuing_of (by decide +kernel) (by simp only [canName_iff, canRead_iff]; decide +kernel)

/-- Codes at the ends of the claimed ranges; 1.0 and 0.0 convert exactly, to one register and to two. -/
theorem witness_ConvertCompletes : (∀ p ∈ [(0x01, 7), (0x0E, 0), (0x10, 0), (0x17, 0), (0x20, 7), (0x2F, 0)], cvtCodeOk p.1 p.2 = true) ∧
    Issuing litBench fun _ w t => canName w t 126 2 ∧ canRead w t 1 1 ∧ canRead w t 2 2 ∧
    ∀ code ∈ [0x01, 0x0B, 0x20], (cvtResult code ⟨.rne, false, false⟩ (operand litBench w t 2).val.toNat 0).flags.bits &&& t.fen = 0#5 ∧
      t.mode.getLsbD 3 = false :=
  ⟨by decide +kernel, issuing_of (by decide +kernel) (by simp only [canName_iff, canRead_iff]; decide +kernel)⟩

/-- Under numeric counting, a conversion that saturates is counted. -/
theorem witness_ConvertCompletes_counted : Issuing (lab false false (fun t => { having [(1, 0x43FA0000)] t with mode := 0x38 }) id id) fun _ w t =>
    canName w t 127 1 ∧ canRead w t 1 1 ∧ (convertPoison bench w t 127 1 0x2A) = none ∧ t.mode.getLsbD 3 = true ∧
    (convertResult bench w t 127 1 0x2A 0 0).event = some .sat ∧ (convertResult bench w t 127 1 0x2A 0 0).flags.bits &&& t.fen = 0#5 :=
  issuing_of (by decide +kernel) (by simp only [canName_iff, canRead_iff]; decide +kernel)

theorem witness_SpecialRegistersComplete : Issuing litBench fun _ w t =>
    canName w t 127 1 ∧ canName w t 126 2 ∧ canRead w t 1 1 ∧ litBench.unlogged w ∧ (t.reg litBench 127).poison = none ∧
    (0x19#10).toNat ≤ 0x19 ∧ (7#8).toNat < 8 ∧ 0x10 ≤ (0x1F#8).toNat ∧ (0x1F#8).toNat < 0x20 ∧ (63#8).toNat < 64 :=
  issuing_of (by decide +kernel) (by simp only [canName_iff, canRead_iff, unlogged_iff]; decide +kernel)

/-- Another run of two groups, in place of the one that issues. -/
def inRun (r : Run → Run) (s : State) : State := { s with runs := s.runs.map r }

def twoThreads (w : Wg) : Wg := { w with threads := w.threads ++ w.threads.map fun t => { t with tid := 1 } }

def stands (groups : List (List Nat)) (words : List Word) (idx grp : Nat) : State :=
  lab false false id twoThreads (inRun fun r => { r with uniform := false, groups := groups, words := words, idx := idx, grp := grp })

/-- A further group, a further instruction, the end of the block, and a run that holds no thread. -/
theorem witness_IssueOrder : Issuing (stands [[0], [1]] [0, 0] 0 0) (fun r _ _ => r.nextGroup (r.grp + 1) = some 1) ∧
    Issuing (stands [[0], [1]] [0, 0] 0 1)
      (fun r _ _ => r.nextGroup (r.grp + 1) = none ∧ r.nextGroup 0 = some 0 ∧ r.idx + 1 < r.words.length) ∧
    Issuing (stands [[0], [1]] [0, 0] 1 1)
      (fun r _ _ => r.nextGroup (r.grp + 1) = none ∧ r.nextGroup 0 = some 0 ∧ ¬ r.idx + 1 < r.words.length) ∧
    smooth (stands [[], []] [0, 0] 1 1) = true :=
  ⟨issuing_of (by decide +kernel) (by decide +kernel), issuing_of (by decide +kernel) (by decide +kernel),
    issuing_of (by decide +kernel) (by decide +kernel), by decide +kernel⟩

theorem witness_ParkingFormsComplete : Issuing bench fun r w t => bench.barriers = [] ∧ r.alone w t ∧
    ∀ l ∈ bench.launch? w.launch, l.debug = false :=
  issuing_of (by decide +kernel) (by unfold Run.alone; decide +kernel)

/-- Both outcomes of the guard of a branch, at the ends of the range of targets; the highest source of a computed one. -/
theorem witness_BranchesComplete : ((0xF0#8).toNat ≤ 0xF0 ∧ (0xF0#8).toNat ≠ 0xEF) ∧ Issuing (lab false false (having [(1, 0xFFFFFF), (2, 0)]) id id) fun r w t =>
    bench.unlogged w ∧ (predicate t 0).poison = none ∧ (predicate t 1).poison = none ∧ (r.pc : Int) + (-1#22).toInt = 0 ∧
    canName w t 127 1 ∧ canRead w t 1 1 ∧ canRead w t 2 1 ∧ (operand bench w t 1).val.toNat = 16777215 ∧
    (operand bench w t 2).val.toNat = 0 ∧ 0 ≤ (r.pc : Int) + (0x3FFFF#19).toInt ∧ (r.pc : Int) + (0x3FFFF#19).toInt < 16777216 :=
  ⟨by decide, issuing_of (by decide +kernel) (by simp only [canName_iff, canRead_iff, unlogged_iff]; decide +kernel)⟩

theorem witness_WaitCompletes :
    Issuing (lab false false (fun t => { t with cnt := { t.cnt with loads := 31 } }) id id) (fun r w t =>
      r.alone w t ∧ t.guard.val = true ∧ meetsAll t.cnt 31 0 0 0 0 ∧ meetsAll w.common 31 0 0 0 0) ∧
    Issuing (lab false false (fun t => { t with cnt := { t.cnt with loads := 31 } }) id id) (fun r w t =>
      r.alone w t ∧ t.guard.val = true ∧ ¬ meetsAll t.cnt 30 0 0 0 0) :=
  ⟨issuing_of (by decide +kernel) (by unfold Run.alone meetsAll; decide +kernel),
    issuing_of (by decide +kernel) (by unfold Run.alone meetsAll; decide +kernel)⟩

/-- In a handler, and outside one. -/
theorem witness_TrapReturnCompletes :
    Issuing (lab false false (fun t => { t with inTrap := true }) id id) (fun r w t => t.inTrap = true ∧ t.guard.val = true ∧ r.alone w t) ∧
    Issuing bench fun _ w t => bench.only w ∧ w.status = .resident ∧ bench.barriers = [] ∧ t.inTrap = false :=
  ⟨issuing_of (by decide +kernel) (by unfold Run.alone; decide +kernel),
    issuing_of (by decide +kernel) (by unfold State.only; decide +kernel)⟩

/-- The handlers are enabled and no thread is in one. -/
def handling : State :=
  lab false false (fun t => { having [(1, 0x3F800000), (4, 0xC0800000), (5, 0x7F7FFFFF), (6, 0x7BFF7BFF), (7, 0x7FC00000), (8, 0xFFFFFFFF),
    (9, 0x7FEFFFFF)] t with fen := 0x1F })
  (fun w => { w with tvec := 0x101 }) id

theorem handling_sole : ∀ r w, handling.issuer = some (r, w) → Sole handling r w := by
  intro r w h; cases h
  refine ⟨by decide +kernel, fun q hq => ?_⟩
  simp only [handling, lab, State.placeFor, State.reset, id, List.mem_singleton] at hq
  subst hq
  rintro (h | h) <;> exact absurd rfl h

theorem witness_TrapEntersHandler : Issuing handling (fun _ w t => w.tvec.getLsbD 0 = true ∧ t.inTrap = false) ∧
    ∀ r w, handling.issuer = some (r, w) → Sole handling r w :=
  ⟨issuing_of (by decide +kernel) (by decide +kernel), handling_sole⟩

/-- A sum and a product that overflow, a quotient by zero, roots of -4.0 and reciprocals of 0.0. -/
theorem witness_FloatFlagsTrap : (∀ r w, handling.issuer = some (r, w) → Sole handling r w) ∧
    Issuing handling fun _ w t => canName w t 3 1 ∧ (∀ f ∈ [1#8, 2#8, 4#8, 5#8], canRead w t f 1) ∧
      let v := fun f => (operand handling w t f).val.toNat
      ∀ o ∈ [fpAdd fp32 (t.fpEnv true) (v 5) (v 5), fpSub fp32 (t.fpEnv true) (v 5) (v 1), fpMul fp32 (t.fpEnv true) (v 5) (v 5),
          fpDiv fp32 (t.fpEnv true) (v 1) (v 2), fpUn fp32 (t.fpEnv true) Exact.sqrt (v 4), fpUn fp32 (t.fpEnv true) Exact.rcp (v 2)],
        o.flags.bits &&& t.fen ≠ 0#5 :=
  ⟨handling_sole, issuing_of (by decide +kernel) (by simp only [canName_iff, canRead_iff]; decide +kernel)⟩

/-- Packed and FP64 sums that overflow, a comparison with a NaN, a conversion out of range, and one whose saturation no counter counts. -/
theorem witness_FloatFlagsTrap_more : Issuing handling fun _ w t =>
    canName w t 126 2 ∧ (∀ f ∈ [1#8, 5#8, 6#8, 7#8], canRead w t f 1) ∧ canRead w t 8 2 ∧
    (operandPacked handling w t fp16 6).val = 0x7BFF7BFF#32 ∧ (fpAdd fp16 (t.fpEnv true) 0x7BFF 0x7BFF).flags.bits &&& t.fen ≠ 0#5 ∧
    (operandDouble handling w t 8).1 = 0x7FEFFFFFFFFFFFFF#64 ∧
    (fpAdd fp64 (t.fpEnv true) 0x7FEFFFFFFFFFFFFF 0x7FEFFFFFFFFFFFFF).flags.bits &&& t.fen ≠ 0#5 ∧
    ((13#4).toNat < 14 ∧ (2#4).toNat < 14) ∧ comparePoison handling w t 1 7 0 = none ∧ (predicate t 7).poison = none ∧
    (compareResult handling w t 2 1 7 0).2.bits &&& t.fen ≠ 0#5 ∧ convertPoison handling w t 3 5 0x03 = none ∧
    (convertResult handling w t 3 5 0x03 0 0).flags.bits &&& t.fen ≠ 0#5 ∧ (convertResult handling w t 3 1 0x01 0 0).event = none ∧
    t.mode.getLsbD 3 = false :=
  issuing_of (by decide +kernel) (by simp only [canName_iff, canRead_iff]; decide +kernel)

/-- Commons at both ends, and the literal of the threads of the run. -/
theorem witness_ScalarArithmeticCompletes : IssuingAll litBench fun r w =>
    (0#6).toNat < w.commons.length ∧ (63#6).toNat < w.commons.length ∧ ∀ f ∈ [0x80#8, 0xBF, 0xC0, 0xDF, 0xE0, 0xEE, 0xF0], canReadUniform w r f :=
  issuingAll_of (by decide +kernel) (by simp only [canReadUniform_iff]; decide +kernel)

theorem witness_AddressArithmeticCompletes : IssuingAll bench fun _ w =>
    (0#6).toNat % 2 = 0 ∧ (62#6).toNat % 2 = 0 ∧ (62#6).toNat + 1 < w.commons.length :=
  issuingAll_of (by decide +kernel) (by decide +kernel)

/-- A reduction of every participant, and a count, whose source is not read. -/
theorem witness_ReductionCompletes : IssuingAll litBench fun r w =>
    (10#4).toNat < 12 ∧ (11#4).toNat < 12 ∧ (63#6).toNat < w.commons.length ∧
    ∀ t ∈ r.everyone w, (predicate t 0).poison = none ∧ canRead w t 1 1 ∧ canRead w { t with pending := [] } 0 1 :=
  issuingAll_of (by decide +kernel) (by simp only [canRead_iff]; decide +kernel)

/-- c5 is one, c6 is zero: a branch taken and one not taken, to the start of the code, to the next word, and unconditional. -/
theorem witness_UniformBranchCompletes :
    IssuingAll (lab false false id (fun w => { w with commons := w.commons.set 5 ⟨1, none⟩ }) id) fun r w =>
      bench.unlogged w ∧ (5#6).toNat < w.commons.length ∧ (w.creg 5).poison = none ∧ (w.creg 5).val.toInt ≠ 0 ∧ (w.creg 6).val.toInt = 0 ∧
      ((0 : Nat) : Int) = (r.pc : Int) + (-1#17).toInt ∧ r.pc + 1 < 16777216 ∧
      ∀ x ∈ r.everyone w, (∀ y ∈ w.threads, y.tid = x.tid → y = x) ∧ ∀ p ∈ r.parked, p.tid ≠ x.tid :=
  issuingAll_of (by decide +kernel) (by simp only [unlogged_iff]; decide +kernel)

/-- c1 to c4 hold quotas that are refused (3, 132, 6) and one that is granted (64), c5 a rank. -/
def quotas (w : Wg) : Wg :=
  { w with quota := 60, budget := 64, commons := [3, 132, 6, 64, 68, 1, 2, 128, 0].map (fun x => ⟨BitVec.ofNat 32 x, none⟩) ++ w.commons.drop 9 }

/-- A second workgroup of the gang, of rank 1, on the next core. -/
def withPeer (s : State) : State :=
  { s with gangs := s.gangs.map (fun g => { g with room := List.range 9 }), wgs := s.wgs ++ s.wgs.map fun w => { w with uid := 77, rank := 1, core := 1, threads := [] } }

def quotaLab : State := lab false false (fun t => { t with bank := t.bank.take 60 }) quotas withPeer

/-- `REGQ.SET` refused as no quota and as over the budget; `REGQ.XFER` refused for its rank and its count, over the budget, and
granted. -/
theorem witness_QuotaFormsComplete : IssuingAll quotaLab (fun r w =>
      let v := fun f => (uniformOperand w r f).val.toNat
      (63#6).toNat < w.commons.length ∧
      (∀ f ∈ [0x80#8, 0x81, 0x82, 0x83, 0x84, 0x85, 0x86, 0x87], canReadUniform w r f ∧ (uniformOperand w r f).poison = none) ∧
      v 0x80 < 4 ∧ 128 < v 0x81 ∧ v 0x82 % 4 ≠ 0 ∧ (¬ (v 0x84 < 4 ∨ 128 < v 0x84 ∨ v 0x84 % 4 ≠ 0) ∧ w.budget < v 0x84) ∧
      3 < v 0x83 ∧ v 0x88 = w.rank ∧ quotaLab.rankOf w (v 0x86) = none ∧
      (∃ x, quotaLab.rankOf w (v 0x85) = some x ∧ quotaLab.wg? x.uid = some x ∧ x.uid ≠ w.uid ∧ x.uid = 77 ∧
        w.budget < w.quota + v 0x87 ∧ ¬ (w.budget < w.quota + 4 ∨ 128 < x.budget + 4))) ∧
    ∀ f ∈ [0x83#8, 0xD0], IssuingAll quotaLab fun r w => let q := (uniformOperand w r f).val.toNat
      uniformOperand w r f = ⟨BitVec.ofNat 32 q, none⟩ ∧ canReadUniform w r f ∧ 4 ≤ q ∧ q ≤ 128 ∧ q % 4 = 0 ∧ q ≤ w.budget ∧
      quotaLab.coreUse w.core w.uid q ≤ 472 * 1024 ∧ (w.quota < q → (quotaLab.growRoom w q).isSome) ∧ w.common.loads = 0 ∧
      w.common.stores = 0 ∧ w.common.copies = 0 ∧ ∀ t ∈ w.threads, t.cnt.loads = 0 ∧ t.cnt.stores = 0 ∧ t.cnt.copies = 0 ∧ t.within w.quota :=
  ⟨issuingAll_of (by decide +kernel) (fun x hx => by
      cases hx
      refine ⟨by decide +kernel, by decide +kernel, by simp only [canReadUniform_iff]; decide +kernel, by decide +kernel, by decide +kernel,
        by decide +kernel, by decide +kernel, by decide +kernel, by decide +kernel, by decide +kernel, _, rfl, by decide +kernel,
        by decide +kernel, by decide +kernel, by decide +kernel, by decide +kernel⟩), by
    intro f hf
    refine issuingAll_of (by decide +kernel) ?_
    simp only [canReadUniform_iff, Thread.within]
    revert f
    decide +kernel⟩

/-- The core has no room left for a larger quota; the room of contexts has none; or a load, a store or a copy is outstanding. -/
def fullCore : State := lab false false (fun t => { t with bank := t.bank.take 60 }) quotas fun s =>
  { withPeer s with wgs := (withPeer s).wgs.map fun w => if w.uid = 77 then { w with core := 0, scratch := 472 * 1024 } else w }

def fullRoom : State := lab false false (fun t => { t with bank := t.bank.take 60 }) quotas fun s => { withPeer s with gangs := (withPeer s).gangs.map fun g => { g with room := [] } }

def outstanding (c : Counters → Counters) : State :=
  lab false false (fun t => { t with bank := t.bank.take 60 }) (fun w => { quotas w with common := c w.common }) withPeer

theorem witness_QuotaFormsComplete_space :
    (∀ s ∈ [fullCore, fullRoom], IssuingAll s fun r w => let q := (uniformOperand w r 0x83).val.toNat
      canReadUniform w r 0x83 ∧ (uniformOperand w r 0x83).poison = none ∧ ¬ (q < 4 ∨ 128 < q ∨ q % 4 ≠ 0) ∧ q ≤ w.budget ∧
        (472 * 1024 < s.coreUse w.core w.uid q ∨ w.quota < q ∧ s.growRoom w q = none)) ∧
    ∀ s ∈ [outstanding fun c => { c with loads := 1 }, outstanding fun c => { c with stores := 1 }, outstanding fun c => { c with copies := 1 }],
      IssuingAll s fun r w => let q := (uniformOperand w r 0x83).val.toNat
        canReadUniform w r 0x83 ∧ (uniformOperand w r 0x83).poison = none ∧ ¬ (q < 4 ∨ 128 < q ∨ q % 4 ≠ 0) ∧ q ≤ w.budget ∧
          s.coreUse w.core w.uid q ≤ 472 * 1024 ∧ (w.quota < q → (s.growRoom w q).isSome) ∧
          (w.common.loads ≠ 0 ∨ w.common.stores ≠ 0 ∨ w.common.copies ≠ 0) := by
  simp only [List.forall_mem_cons, List.not_mem_nil, false_imp_iff, implies_true, and_true]
  refine ⟨⟨?_, ?_⟩, ?_, ?_, ?_⟩ <;> exact issuingAll_of (by decide +kernel) (by simp only [canReadUniform_iff]; decide +kernel)

/-- A thread whose arrival is to be counted, with a second that has not arrived. -/
def arriving : State :=
  lab false false (fun t => { t with place := .waiting 2 (.barrier 0 63 .sync true 0) })
    (fun w => { w with threads := w.threads ++ w.threads.map fun t => { t with tid := 1, place := .waiting 2 .ready } })
    fun s => { s with runs := [], barriers := [⟨0, 1, 63, 0, []⟩] }

/-- The other thread of the workgroup has arrived: the arrival completes the phase. -/
def completing : State := { arriving with barriers := [⟨0, 1, 63, 0, [(1, 1)]⟩] }

theorem witness_BarrierFormsComplete_completing : let s := completing; let w := wgOf s; let t := threadOf s; let b : Barrier := ⟨0, 1, 63, 0, [(1, 1)]⟩
    s.sole w t ∧ s.barriers = [b] ∧ b.scope = 0 ∧ s.barrierAt w 0 63 = some b ∧ s.isGuarded w = false ∧
      t.place = .waiting 2 (.barrier 0 63 .sync true 0) ∧ t.cnt.loads = 0 ∧ t.cnt.stores = 0 ∧ t.cnt.copies = 0 ∧ w.common.stores = 0 ∧
      w.common.copies = 0 ∧ (w.uid, t.tid) ∉ b.arrived ∧ w.threads.length = 2 ∧
      ∀ v ∈ w.threads, v.tid ≠ t.tid → v.live = true → (w.uid, v.tid) ∈ b.arrived := by
  unfold State.sole State.only
  decide +kernel

theorem witness_BarrierFormsComplete : Issuing bench (fun r _ t => t.cnt.loads = 0 ∧ (4#3).toNat < 5 ∧ ∀ p ∈ r.parked, ∃ k on, p.place = .waiting k on) ∧
    (let w := wgOf arriving; let t := threadOf arriving; let b : Barrier := ⟨0, 1, 63, 0, []⟩
      arriving.sole w t ∧ t.place = .waiting 2 (.barrier 0 63 .sync true 0) ∧ arriving.barrierAt w 0 63 = some b ∧
      t.cnt.loads = 0 ∧ t.cnt.stores = 0 ∧ t.cnt.copies = 0 ∧ w.common.stores = 0 ∧ w.common.copies = 0 ∧ (w.uid, t.tid) ∉ b.arrived ∧
      ((arriving.onThread w.uid t.tid fun t => { t with place := .waiting 2 (.barrier 0 63 .sync false 0) }).phaseComplete
        { b with arrived := b.arrived ++ [(w.uid, t.tid)] }) = false) :=
  ⟨issuing_of (by decide +kernel) (fun x hx => by
      cases hx
      refine ⟨by decide +kernel, fun t ht => ⟨?_, by decide, fun _ hp => nomatch hp⟩⟩
      revert t
      decide +kernel), by unfold State.sole State.only; decide +kernel⟩

/-- Bank 0 of the quad is the tenant's, and 8 bytes of its second line are listed; a2 points at it. Local memory from 0 on answers as
va 0 through one translation entry. -/
def memory (s : State) : State :=
  { s with
    gangs := s.gangs.map (fun g => { g with banks := 1 })
    tags := [(2 * 2 ^ 32, Tag.make 1 1 1), (5 * 2 ^ 32, Tag.make 1 1 1)]
    tlb := [(0, some ⟨Tag.make 1 1 1, 0, 1, true, true, true, 0, 0, false⟩)]
    mem := (List.range 8).map fun i => ⟨2 ^ 52 + 128 + i, BitVec.ofNat 8 (i + 1)⟩ }

def memLab : State := lab false false (having [(4, 128), (5, 8), (6, 1)]) id memory

def reachable (s : State) (w : Wg) (t : Thread) (k : AccKind) (special rd wr : Bool) (ea : AddrReg) (size : Nat) : Bool :=
  decide (ea.poison = none) && decide (ea.val.toNat % size = 0) && (s.translate w k special ea.val size).isOk &&
  (t.suppress || decide (s.watchHit w (locationOf s w k special ea.val size) size rd wr = none))

theorem reaches_iff (s : State) (w : Wg) (t : Thread) (k : AccKind) (special rd wr : Bool) (ea : AddrReg) (size : Nat) :
    Reaches s w t k special rd wr ea size ↔ reachable s w t k special rd wr ea size = true := by
  simp only [reachable, Bool.and_eq_true, Bool.or_eq_true, decide_eq_true_eq]
  constructor
  · rintro ⟨a, b, c, d⟩; exact ⟨⟨⟨a, b⟩, by rw [c]; rfl⟩, d⟩
  · rintro ⟨⟨⟨a, b⟩, c⟩, d⟩
    refine ⟨a, b, ?_, d⟩
    unfold locationOf
    cases h : s.translate w k special ea.val size with
    | ok l => rfl
    | error e => rw [h] at c; cases c

/-- The smallest and the largest sizes, from a bank and from local memory; atomics of both widths. -/
theorem witness_LoadsAndStoresIssue : Issuing memLab fun _ w t =>
    w.numbered ∧ memLab.unlogged w ∧ canRead w t 4 1 ∧ canRead w t 0xC0 1 ∧ canName w t 0 4 ∧ canName w t 127 1 ∧ canName w t 8 2 ∧
    t.memHint &&& 0x18#8 = 0#8 ∧ t.cnt.loads < 255 ∧ t.cnt.stores < 255 ∧ memLab.isGuarded w = false ∧ registersPoison memLab t 0 4 = none ∧
    (6#3).toNat < 7 ∧ (4#3).toNat < 5 ∧ (12#4).toNat < 13 ∧
    (∀ a ∈ [0#4, 2#4], ∀ size ∈ [1, 16], let ea := operandAddress memLab w t 4 a size 15
      Reaches memLab w t .r false true false ea size ∧ Reaches memLab w t .w false false true ea size ∧
      memLab.scoreStall w.quad (locationOf memLab w .r false ea.val size) size = none) ∧
    ∀ a ∈ [0#4, 2#4], ∀ size ∈ [4, 8], Reaches memLab w t .a true true true (operandAddress memLab w t 4 a size 0) size :=
  issuing_of (by decide +kernel) (by
    simp only [canName_iff, canRead_iff, unlogged_iff, reaches_iff, Wg.numbered, registersPoison]; decide +kernel)

/-- An access of the thread in flight, to the listed word of the bank. -/
def flightOf (acc : Access) : Flight :=
  { id := 9, wg := 1, tid := some 0, acc := acc, va := 0, loc := .mem (2 ^ 52 + 128), size := 4, dst := 3, data := [1, 0, 0, 0], poison := none
    colour := 0, acquire := false, release := true, pc := 0, left := [0], lane := none, done := false }

def flying (acc : Access) : State :=
  lab false false (fun t => { t with place := .waiting 3 .ready, cnt := { t.cnt with loads := 1, stores := 1 } }) id fun s =>
    { memory s with runs := [], flights := [flightOf acc] }

def mayBeNext (s : State) (f : Flight) (w : Wg) (t : Thread) : Bool :=
  decide ((s.wgs.filter fun v => v.uid = w.uid) = [w]) && decide ((w.threads.filter fun v => v.tid = t.tid) = [t]) &&
  decide (f.wg = w.uid) && decide (f.tid = some t.tid) && decide ((s.flights.filter fun g => g.id = f.id) = [f]) &&
  decide ((s.flights.find? fun g => decide (g.wg = f.wg) && decide (g.tid = f.tid) && decide (g.cls.isLoad = f.cls.isLoad)) = some f) &&
  (s.flights.all fun g => !g.done) && s.mayPerform f &&
  w.threads.all fun x => match x.place with
    | .waiting _ on => decide (on.code ≠ 1)
    | _ => true

theorem isNext_of {s : State} {f : Flight} {w : Wg} {t : Thread} (h : mayBeNext s f w t = true) (hs : s.flightServed w f = true) :
    f.isNext s w t := by
  simp only [mayBeNext, Bool.and_eq_true, decide_eq_true_eq, List.all_eq_true, Bool.not_eq_true'] at h
  obtain ⟨⟨⟨⟨⟨⟨⟨⟨h1, h2⟩, h3⟩, h4⟩, h5⟩, h6⟩, h7⟩, h8⟩, h10⟩ := h
  refine ⟨⟨h1, h2⟩, h3, h4, h5, h6, h7, h8, hs, fun x hx k on hp => ?_⟩
  have := h10 x hx
  rw [hp] at this
  simpa using this

theorem witness_AccessesPerformed : ∀ acc ∈ [Access.load true, .store, .red 0, .atom 9],
    (flightOf acc).isNext (flying acc) (wgOf (flying acc)) (threadOf (flying acc)) ∧
    (flying acc).twinHeard (wgOf (flying acc)) (flightOf acc) = true ∧ (flying acc).isCancelled (wgOf (flying acc)) (flightOf acc) = false ∧
    (flying acc).lanesFirst (wgOf (flying acc)) (flightOf acc) = none ∧ (flightOf acc).left ≠ [] ∧
    (flying acc).frameDelays (wgOf (flying acc)) (flightOf acc) 0 = false ∧ (flying acc).discards (wgOf (flying acc)) (flightOf acc) 0 = false ∧
    (flying acc).unlogged (wgOf (flying acc)) := by
  intro acc h
  rw [unlogged_iff]
  exact ⟨isNext_of (by revert acc; decide +kernel) (by revert acc; decide +kernel), by revert acc; decide +kernel⟩

/-- A word beside the other die, which this die's island does not reach, or had asked for when it began to detach. -/
def across (acc : Access) (e : EndState) : State :=
  { flying acc with flights := [{ flightOf acc with loc := .mem (6291456 * 65536 + 128) }], die0 := { (flying acc).die0 with endp := e } }

theorem witness_AccessesPerformed_across : ∀ acc ∈ [Access.load true, .store, .red 0, .atom 9], ∀ p ∈ [(EndState.attached, false), (.detaching, true)],
    let s := across acc p.1
    ∀ f ∈ s.flights, f.isNext s (wgOf s) (threadOf s) ∧ s.twinHeard (wgOf s) f = true ∧ s.isCancelled (wgOf s) f = p.2 ∧
      s.lanesFirst (wgOf s) f = none ∧ s.discards (wgOf s) f 0 = true ∧ s.unlogged (wgOf s) := by
  intro acc ha p hp s f hf
  rw [unlogged_iff]
  simp only [s, across, List.mem_singleton] at hf
  subst hf
  exact ⟨isNext_of (by revert acc p; decide +kernel) (by revert acc p; decide +kernel), by revert acc p; decide +kernel⟩

/-- The four bytes 04030201 of the bank; adding 1 leaves 04030202. -/
theorem witness_AccessesReachTheirBytes : (∀ k ∈ [AccKind.r, .w, .a], (flying .store).homeOf 0 (Tag.make 1 1 1) k 128 4 = .here 128) ∧
    regionOf 128 = 0 ∧ (wgOf (flying .store)).held = [] ∧ (flying .store).l1 = [] ∧ (flying .store).isGuarded (wgOf (flying .store)) = false ∧
    (wgOf (flying .store)).twin = none ∧ Memory.wf (flying .store).mem = true ∧ (flightOf .store).data.length = (flightOf .store).size ∧
    regionOf (2 ^ 52 + 128) = 4 ∧ regionOf (2 ^ 51) ≠ 4 ∧ (flying .store).homeOf 0 (Tag.make 1 1 1) .w (2 ^ 51) 4 = .here (2 ^ 51) ∧
    (flightOf .store).size = 4 := by decide +kernel

theorem test_red_adds : ((next? (.atomicPerform 9) (flying (.red 0))).map fun u => leNat (Memory.bytes u.mem (2 ^ 52 + 128) 4)) =
    some 0x04030202 := by decide +kernel

theorem test_atom_delivers : ((next? (.atomicPerform 9) (flying (.atom 0))).bind fun u => (thread0 u).map fun t =>
    ((t.reg u 3).val, t.cnt.loads)) = some (0x04030201, 0) := by decide +kernel

theorem witness_CacheFormsComplete : Issuing memLab fun _ w t => canRead w t 4 1 ∧ t.memHint &&& 0x18#8 = 0#8 ∧
    lineOf memLab w t 4 0 0 = some 1024 ∧ lineOf memLab w t 4 1 15 = some 1024 ∧ lineOf memLab w t 4 3 0 = none :=
  issuing_of (by decide +kernel) (by simp only [canRead_iff]; decide +kernel)

theorem witness_FencesComplete : Issuing bench fun _ w t => t.cnt.loads = 0 ∧ ∀ j < 8,
    w.common.storeCol.getD j 0 = 0 ∧ w.common.copyCol.getD j 0 = 0 ∧ t.cnt.storeCol.getD j 0 = 0 ∧ t.cnt.copyCol.getD j 0 = 0 :=
  issuing_of (by decide +kernel) (by decide +kernel)

/-- The thread waits for a location of the bank, or of local memory, with the value it has seen or none. -/
def watching (a c : Nat) (x : DWord) (seen : Option DWord) : State :=
  lab false false (fun t => { t with place := .waiting 3 (.monitor a c x seen) }) id fun s => { memory s with runs := [] }

theorem witness_MonitorsComplete :
    Issuing memLab (fun _ w t => (2#3).toNat < 3 ∧ memLab.noneInFlight w ∧ memLab.unlogged w ∧ canName w t 6 2 ∧ canRead w t 4 1 ∧
      t.memHint &&& 0x10#8 = 0#8 ∧ ∀ p ∈ [(0#4, 1144), (2#4, 2 ^ 52 + 1144)], let ea := operandAddress memLab w t 4 p.1 8 15
        Reaches memLab w t .r true true false ea 8 ∧ locationOf memLab w .r true ea.val 8 = .mem p.2) ∧
    regionOf (2 ^ 52 + 128) = 4 ∧ (watching (2 ^ 51) 0 0 none).homeOf 0 (Tag.make 1 1 1) .r (2 ^ 51) 8 = .here (2 ^ 51) ∧
    ∀ p ∈ [(0, 1, none), (1, 1, none), (2, 1, none), (0, 1, some 5)], let s := watching (2 ^ 52 + 128) p.1 p.2.1 p.2.2
      s.sole (wgOf s) (threadOf s) ∧ s.unlogged (wgOf s) ∧ (wgOf s).status = .resident ∧
      (threadOf s).place = .waiting 3 (.monitor (2 ^ 52 + 128) p.1 p.2.1 p.2.2) ∧
      s.monitorRead (wgOf s) (2 ^ 52 + 128) = 0x0807060504030201#64 :=
  ⟨issuing_of (by decide +kernel) (by
      simp only [canName_iff, canRead_iff, unlogged_iff, reaches_iff, State.noneInFlight]; decide +kernel),
    by decide +kernel, by decide +kernel, by simp only [State.sole, State.only, unlogged_iff]; decide +kernel⟩

/-- A count of one in v6; the record at the listed bytes of the bank. -/
theorem witness_TransactionBarriersComplete : Memory.wf memLab.mem = true ∧ memLab.tbarrier (2 ^ 52 + 128) = ⟨0x201, 0x403, false, 0x08070605⟩ ∧
    Issuing memLab fun _ w t => w.numbered ∧ memLab.unlogged w ∧ canName w t 6 1 ∧ canRead w t 5 1 ∧ t.memHint &&& 0xF8#8 = 0#8 ∧
      memLab.noneInFlight w ∧ t.cnt.loads < 255 ∧ t.cnt.stores < 255 ∧ t.cnt.loads = 0 ∧ t.cnt.stores = 0 ∧ t.cnt.copies = 0 ∧ w.common.stores = 0 ∧ w.common.copies = 0 ∧
      (t.reg memLab 6).val.toNat = 1 ∧ let ea := operandAddress memLab w t 5 2 16 0
      ea.val.toNat / 2 ^ 56 = 0xFE ∧ Reaches memLab w t .w true false true ea 16 ∧ Reaches memLab w t .a true true true ea 16 ∧
      Reaches memLab w t .r true true false ea 16 ∧ ∀ k ∈ [AccKind.w, .a, .r], locationOf memLab w k true ea.val 16 = .mem (2 ^ 52 + 128) :=
  ⟨by decide +kernel, by decide +kernel, issuing_of (by decide +kernel) (by
    simp only [canName_iff, canRead_iff, unlogged_iff, reaches_iff, State.noneInFlight, Wg.numbered]; decide +kernel)⟩

/-- Four words from the bank, two words to local memory, in the last common registers. -/
theorem witness_CommonMemoryCompletes : IssuingAll memLab fun _ w =>
    (60#6).toNat % 4 = 0 ∧ (60#6).toNat + 4 ≤ w.commons.length ∧ (2#2).toNat < 3 ∧ (1#2).toNat < 2 ∧ memLab.noneInFlight w ∧
    w.common.stores < 255 ∧ memLab.isGuarded w = false ∧ (∀ k < 4, (w.creg (60 + k)).poison = none) ∧
    ∀ a ∈ [0#4, 2#4], let va := (addressOf w a).val + BitVec.ofNat 64 (4 * 32)
      (addressOf w a).poison = none ∧ va.toNat % 16 = 0 ∧
      (∀ k ∈ [AccKind.r, .w], (memLab.translate w k false va 16).isOk = true ∧ memLab.locServed w (locationOf memLab w k false va 16) = true ∧
        locationOf memLab w k false va 16 ∈ [Loc.mem 128, .mem (2 ^ 52 + 128)]) ∧ regionOf 128 ≠ 1 ∧ regionOf (2 ^ 52 + 128) ≠ 1 ∧
      memLab.scoreStall w.quad (locationOf memLab w .r false va 16) 16 = none :=
  issuingAll_of (by decide +kernel) (by simp only [State.noneInFlight]; decide +kernel)

/-- A hint for a group, whose next instruction is `NOP`, and one for every thread of the run, whose next is `CADDI` (R78). -/
theorem witness_HintsComplete : (∀ x ∈ [0#32, 0xA4000000], let s := stands [[0], [1]] [0, x] 0 0
      ∃ r w, s.issuer = some (r, w) ∧ (r.hinted w).map (fun t => t.tid) = (if x = 0#32 then [0] else [0, 1]) ∧ r.idx + 1 < r.words.length ∧
        ∀ t ∈ r.hinted w, t.block = .none ∧ t.owes = false ∧ s.comparatorAt r w.launch r.pc = none) ∧
    (1#2) ≠ 3#2 ∧ (2048#12).toNat ≤ 2048 := by
  refine ⟨fun x hx => ?_, by decide⟩
  simp only [List.mem_cons, List.not_mem_nil, or_false] at hx
  rcases hx with rfl | rfl <;> exact ⟨_, _, rfl, by decide +kernel⟩

/-- A tenant. -/
def someTenant : Tenant :=
  { tag := Tag.make 1 1 1, code := 0, threads := 1, regs := 4, commons := 8, core := 0, faults := 0x10000, recallRing := 0x20000
    notice := 0x30000, rbase := 0, rsize := 0, args := 0, faultSeq := 0, recallSeq := 0, recalls := [], waiting := [], losses := [], lossSeq := 0
    owedLoss := 0, areaOff := 0, ctrs := List.replicate 8 ⟨0, 0, 0, 0, none⟩, pendFaults := [], wave := none, room := [] }

def tenantLab : State := lab false false (having [(1, 32), (2, 0x0000FF20)]) id fun s => { s with tenants := [someTenant] }

/-- Event 32 with the longest period, event 32 with none. -/
theorem witness_SharedWritesComplete : Issuing tenantLab fun r w t =>
    r.acting w ≠ [] ∧ canName w t 1 1 ∧ (t.reg tenantLab 1).poison = none ∧ (7#8).toNat < 8 ∧
    tenantLab.tenant? (tenantLab.tagOf w) = some someTenant ∧ someTenant.ctrs[7]? = some ⟨0, 0, 0, 0, none⟩ ∧
    ∀ f ∈ [1#8, 2#8], let v := (operand tenantLab w t f).val.toNat
      canRead w t f 1 ∧ v % 256 ≤ 32 ∧ v / 2 ^ 24 = 0 ∧ (v % 256 = 32 ∨ v / 256 % 65536 = 0) :=
  issuing_of (by decide +kernel) (by simp only [canName_iff, canRead_iff]; decide +kernel)

/-- A record of two words at `base`, without stamp or barrier. -/
def layoutBytes (base : Nat) : List Byte :=
  leBytes base 8 ++ leBytes 0 8 ++ [11, 0, 1, 0, 0, 0, 0xFF, 0xFF] ++ leBytes 2 4 ++ leBytes 0 84 ++ leBytes 2 2 ++ leBytes 0 14

/-- Records at 0 and 128 of bank 0, for a copy from 0x200 to 0x400 of it, and a descriptor of a collective at 0x300, of one rank. -/
def engines (s : State) : State :=
  { memory s with
    tags := [(2 * 2 ^ 32, Tag.make 1 1 1), (5 * 2 ^ 32, Tag.make 1 1 1), (9 * 2 ^ 32, Tag.make 1 1 1)]
    mem := Memory.writeAll (Memory.writeAll (Memory.writeAll (Memory.writeAll [] (2 ^ 52) (layoutBytes (0xFE * 2 ^ 56 + 0x200)))
      (2 ^ 52 + 128) (layoutBytes (0xFE * 2 ^ 56 + 0x400))) (2 ^ 52 + 0x200) (leBytes 0x0807060504030201 8)) (2 ^ 52 + 0x300)
      (leBytes (0xFE * 2 ^ 56 + 0x200) 8 ++ leBytes (0xFE * 2 ^ 56 + 0x500) 8 ++ leBytes 0 8 ++ leBytes 4 4 ++ leBytes 1 2 ++ [0, 2] ++ leBytes 0 32) }

def engineLab : State :=
  lab true false id (fun w => { w with addrs := (w.addrs.set 5 ⟨BitVec.ofNat 64 (0xFE * 2 ^ 56 + 0x300), none⟩) }) engines

/-- The same tests as `CopyOperands`, for records without a stamp area, and as `CopyRoom`, with nothing in flight, computed. -/
def copyOperandsOk (s : State) (w : Wg) (form : CopyForm) (a fs : BitVec 4) (dual : Bool) (first limit : Nat) (reg : Nat → Reg) : Bool :=
  decide ((addressOf w a).poison = none) && decide ((addressOf w a).val.toNat % 128 = 0) &&
  ([(addressOf w a).val, (addressOf w a).val + 128].all fun va =>
    (decide (va.toNat / 2 ^ 56 = 0) || decide (va.toNat / 2 ^ 56 = 0xFE)) && (s.translate w .r false va 128).isOk) &&
  ((recordsRead s w a).2.1.all fun b => decide (b.2 = none)) && ((recordsRead s w a).2.2.all fun b => decide (b.2 = none)) &&
  ((List.range (registerCount s w form a dual)).all fun i => decide (first + i < limit) && decide ((reg i).poison = none)) &&
  decide ((destRecord s w a).stamp = 0#64) && (decide (fs = 0xF#4) || s.checkTag (s.tagOf w) 9 (w.quad * 15 + fs.toNat))

theorem copyOperands_of {s : State} {w : Wg} {form : CopyForm} {a fs : BitVec 4} {dual : Bool} {first limit : Nat} {reg : Nat → Reg}
    (h : copyOperandsOk s w form a fs dual first limit reg = true) : CopyOperands s w form a fs dual first limit reg := by
  simp only [copyOperandsOk, Bool.and_eq_true, Bool.or_eq_true, decide_eq_true_eq, List.all_eq_true, List.mem_range] at h
  obtain ⟨⟨⟨⟨⟨⟨⟨h1, h2⟩, h3⟩, h4⟩, h5⟩, h6⟩, h7⟩, h8⟩ := h
  refine ⟨⟨h1, h2⟩, fun va hva => ⟨(h3 va hva).1, ?_⟩, ⟨fun _ => h4, h5⟩, fun i hi => (h6 i hi).1, fun i hi => (h6 i (by omega)).2,
    .inl h7, fun hf => h8.resolve_left hf⟩
  have := (h3 va hva).2
  unfold locationOf
  cases hl : s.translate w .r false va 128 with
  | ok l => rfl
  | error e => rw [hl] at this; cases this

def copyRoomOk (s : State) (w : Wg) (a : BitVec 4) (n : Nat) : Bool :=
  s.flights.isEmpty && decide (n ≤ s.scoreFree w.quad) &&
  [(addressOf w a).val, (addressOf w a).val + 128].all fun va => s.locServed w (locationOf s w .r false va 128)

theorem copyRoom_of {s : State} {w : Wg} {a : BitVec 4} {n : Nat} (h : copyRoomOk s w a n = true) : CopyRoom s w a n := by
  simp only [copyRoomOk, Bool.and_eq_true, decide_eq_true_eq, List.all_eq_true, List.isEmpty_iff] at h
  exact ⟨by simp [h.1.1], h.1.2, h.2⟩

/-- A copy of the workgroup, or of another, that is suspended in slot 0 of the quad. -/
def suspended (own : Bool) : CopyOp :=
  { copyIssued engineLab (wgOf engineLab) .t 2 0xF 0 false 1 (some 0) (fun _ => ⟨0, none⟩) with
    id := 9, wg := if own then some 1 else some 77, stage := .suspended, slot := some 0 }

def suspendLab (own : Bool) : State := { engineLab with copies := [suspended own] }

/-- A copy of a thread and one of the vamp, in all six forms, with and without a follow-on pass; a suspended copy of another workgroup
and one of its own, that `CRESUME` and `CCANCEL` find. -/
theorem witness_CopiesIssue :
    (∀ form ∈ [CopyForm.t, .g, .s, .mc, .wb, .fill], ∀ fs ∈ [0#4, 0xF#4], Issuing engineLab (fun r w t =>
      CopyRoom engineLab w 2 (r.acting w).length ∧ t.memHint &&& 0x18#8 = 0#8 ∧ t.cnt.takeCopy fs ∧
      CopyOperands engineLab w form 2 fs false 0 w.quota (fun i => t.reg engineLab (0 + i)) ∧ ∀ i < 24, 0 + i ∉ t.pending)) ∧
    (∀ form ∈ [CopyForm.t, .g, .s, .mc, .wb, .fill], ∀ fs ∈ [0#4, 0xF#4], IssuingAll engineLab (fun r w =>
      CopyRoom engineLab w 2 1 ∧ (∀ t ∈ r.everyone w, t.memHint &&& 0x18#8 = 0#8) ∧ w.common.takeCopy fs ∧
      CopyOperands engineLab w form 2 fs false 0 w.commons.length (fun i => w.creg (0 + i)))) ∧
    (IssuingAll engineLab fun _ w => 0 + 1 < w.commons.length ∧ engineLab.isWave w = true ∧ (w.creg 0).poison = none ∧ engineLab.copies = []) ∧
    ∀ own, IssuingAll (suspendLab own) fun _ w => (suspendLab own).isWave w = true ∧ (w.creg 0).val.toNat = 0 ∧ (suspended own).quad = 0 ∧
      (suspended own).slot = some 0 ∧ (suspended own).tenant = (suspendLab own).tagOf w ∧
      ((suspendLab own).copies.filter fun d => d.id = (suspended own).id) = [suspended own] ∧ (suspendLab own).inbound = [] ∧
      ((suspended own).wg = some w.uid ↔ own = true) ∧ ((suspended own).wg.bind (suspendLab own).wg?).all (fun (v : Wg) => v.twin ≠ some w.uid) = true := by
  refine ⟨fun form hform fs hfs => issuing_of (by decide +kernel) fun x hx => ⟨by revert x; decide +kernel, fun t ht => ⟨?_, ?_⟩⟩,
    fun form hform fs hfs => issuingAll_of (by decide +kernel) fun x hx => ⟨by revert x; decide +kernel, ?_, ?_⟩,
    issuingAll_of (by decide +kernel) (by decide +kernel), fun own => issuingAll_of (by revert own; decide +kernel) (by revert own; decide +kernel)⟩
  · exact copyRoom_of (by clear ht; revert x; decide +kernel)
  · have h : t.memHint &&& 0x18#8 = 0#8 ∧ t.cnt.takeCopy fs ∧ copyOperandsOk engineLab x.2 form 2 fs false 0 x.2.quota
        (fun i => t.reg engineLab (0 + i)) = true ∧ ∀ i < 24, 0 + i ∉ t.pending := by
      unfold Counters.takeCopy; revert fs form t x; decide +kernel
    exact ⟨h.1, h.2.1, copyOperands_of h.2.2.1, h.2.2.2⟩
  · exact copyRoom_of (by revert x; decide +kernel)
  · have h : (∀ t ∈ x.1.everyone x.2, t.memHint &&& 0x18#8 = 0#8) ∧ x.2.common.takeCopy fs ∧
        copyOperandsOk engineLab x.2 form 2 fs false 0 x.2.commons.length (fun i => x.2.creg (0 + i)) = true := by
      unfold Counters.takeCopy; revert fs form x; decide +kernel
    exact ⟨h.1, h.2.1, copyOperands_of h.2.2⟩

theorem witness_MatrixFormsComplete : IssuingAll engineLab fun _ w =>
    (0 < 15 ∧ engineLab.checkTag (engineLab.tagOf w) 9 (w.quad * 15) = true) ∧ w.common.matrix < 255 ∧ engineLab.reservations w.quad < 16 ∧
    (56 + 8 ≤ w.commons.length ∧ ∀ k < 8, (w.creg (56 + k)).poison = none) ∧
    (∀ o ∈ [newOp (some w.uid) none w.gang w.quad .pass (List.replicate 8 0#32), newOp (some w.uid) none w.gang w.quad .accz (List.replicate 8 0#32),
      newOp (some w.uid) none w.gang w.quad .wbinv []], engineLab.scoreFull o = false) ∧ (14#8).toNat < 15 ∧ (16#8).toNat = 16 :=
  issuingAll_of (by decide +kernel) (by decide +kernel)

/-- One segment of the gang is named, with and without an address. -/
theorem witness_MatrixFormsComplete_wbinv :
    let s := { engineLab with gangs := engineLab.gangs.map fun g => { g with segs := 1 } }
    IssuingAll s fun _ w => (1#8) ≠ 0#8 ∧ 0 < s.gangSegs w.gang ∧ (addressOf w 2).poison = none ∧ (addressOf w 2).val.toNat / 2 ^ 56 = 0xFE ∧
      (addressOf w 2).val.toNat % 2 ^ 56 < 2 ^ 21 ∧ (addressOf w 2).val.toNat % 2 ^ 21 = 0 ∧
      s.bankOk w.quad (s.tagOf w) (some w.gang) 0 = true ∧ s.scoreFull { newOp (some w.uid) none w.gang w.quad .wbinv [] with mask := 1, src := some 0 } = false :=
  issuingAll_of (by decide +kernel) (by decide +kernel)

theorem witness_CollectivesIssue : Issuing engineLab fun r w t =>
    engineLab.noneInFlight w ∧ canName w t 0 1 ∧ t.cnt.colls < 255 ∧ w.common.colls < 255 ∧ (0xBF#8).toNat - 0x80 < w.commons.length ∧
    ∀ o ∈ [some t, none], ∀ fn ∈ [0, 1, 2, 3],
      (((issueOf engineLab r w (.collAr 5 0 0)).collPlan fn 5 (if o.isSome then 0 else 0x80) 0 o).toOption.map fun x => (x.2.stage, x.2.ranks)) =
        some (.sent, 1) :=
  issuing_of (by decide +kernel) (by simp only [canName_iff, State.noneInFlight]; decide +kernel)

/-- Commons of a uniform form. -/
def commonsOf (cs : List (Nat × Nat)) (w : Wg) : Wg :=
  { w with commons := cs.foldl (fun b p => b.set p.1 ⟨BitVec.ofNat 32 p.2, none⟩) w.commons }

/-- The runtime wave; a second workgroup of the tenant on core 1 with two threads held by faults of class runtime, one of a stranger on
core 2; a recall with one unit owed, one paid; a tenant with 300 losses counted and one kept; loose units of every kind. -/
def heldThreads (w : Wg) : List Thread :=
  w.threads.flatMap fun t => [{ t with tid := 0, place := .held .runtime, fpc := 0x40 }, { t with tid := 1, place := .held .debug, fpc := 0x44 }]

def aRecall (seq owed : Nat) : Recall := ⟨seq, 9, [], owed, 0, 1000, [], [], false, none, false⟩

def aLoss : LossRec := ⟨2, 4, 3, 0x100000002, 0, 0⟩

def runtime (s : State) : State :=
  { s with
    tenants := [{ someTenant with recalls := [aRecall 5 1, aRecall 6 0, { aRecall 8 1 with kind := 7 }, { aRecall 9 1 with kind := 1, ids := [0] }, { aRecall 10 1 with kind := 2 }], losses := [aLoss], lossSeq := 300, areaOff := 8, rsize := 16 }]
    wgs := s.wgs ++ s.wgs.flatMap fun w =>
      [{ w with uid := 70, core := 1, rank := 1, threads := heldThreads w }, { w with uid := 71, core := 2, rank := 2 }]
    tags := [(2 ^ 32 + 0, Tag.make 1 1 1), (2 ^ 32 + 1, Tag.make 1 1 1), (2 ^ 32 + 3, Tag.make 2 5 1), (2 * 2 ^ 32 + 4, Tag.make 1 1 1), (5 * 2 ^ 32, Tag.make 1 1 1),
      (9 * 2 ^ 32 + 1, Tag.make 1 1 1)]
    tlb := [(0, some ⟨Tag.make 1 1 1, 0, 1, true, true, true, 0, 0, false⟩)] }

def runtimeLab (cs : List (Nat × Nat)) : State := lab true false id (commonsOf cs) runtime

/-- TBLD of a page of a remote device, of one of local memory that is another's, and in no quad. -/
theorem witness_BindingFormsComplete_tbld : IssuingAll (runtimeLab [(0, 16), (1, 0x181000), (2, 0), (3, 64)]) fun r w =>
    (0 + 4 ≤ w.commons.length ∧ (0x80#8).toNat < 0xC0 ∧ canReadUniform w r 0x84 ∧ (runtimeLab []).isWave w = true ∧
      ∀ k < 4, (w.creg k).poison = none) ∧
    (let e := imageEntry (Tag.make 1 1 1) (w.creg 0).val (w.creg 1).val (w.creg 2).val (w.creg 3).val;
      (runtimeLab []).tbldStatus (Tag.make 1 1 1) 0 0 e false = 0 ∧
      (runtimeLab []).tbldStatus (Tag.make 1 1 1) 0 0 { e with pa := 0 } false = 1 ∧
      (runtimeLab []).tbldStatus (Tag.make 1 1 1) 192 0 e false = 6) :=
  issuingAll_of (by decide +kernel) (by simp only [canReadUniform_iff]; decide +kernel)

/-- TBINV of one entry and of a way, TBQ of an entry, of an empty one, of another's way and out of range, TAGQ of a unit shown, hidden and
out of range. -/
theorem witness_BindingFormsComplete_query : IssuingAll (runtimeLab [(1, 0), (2, 2 ^ 31), (3, 2048), (4, 16), (5, 1), (6, 192)]) fun r w =>
    let s : State := runtimeLab []
    (∀ f ∈ [0x80#8, 0x82, 0x83], canReadUniform w r f) ∧ s.isWave w = true ∧
    (∀ i ∈ [usource w r 0x81, usource w r 0x82], ∀ e ∈ (s.tbinv (s.tagOf w) i 0).2, s.usesEntry 0 e.2 = false) ∧
    (2047 < usource w r 0x83 ∧ 191 < usource w r 0x86 ∧ s.tagGet 5 (usource w r 0x85 % 16) ≠ s.tagOf w ∧ s.tlbGet 0 (usource w r 0x84) = none ∧
      (s.tlbGet 0 (usource w r 0x81)).isSome) ∧
    ((60#6).toNat % 4 = 0 ∧ 60 + 4 ≤ w.commons.length) ∧
    (maxId 0 ≤ 0 ∧ tagShown (s.tagOf w) (s.tagGet 1 1) = true ∧ tagShown (s.tagOf w) (s.tagGet 1 3) = false) :=
  issuingAll_of (by decide +kernel) (by simp only [canReadUniform_iff]; decide +kernel)

/-- An access through the entry that is to go is in flight. -/
theorem witness_BindingFormsComplete_waits :
    let s := { runtimeLab [] with flights := [{ flightOf .store with loc := .mem (64 * 65536) }] }
    IssuingAll s fun r w => canReadUniform w r 0x80 ∧ s.isWave w = true ∧ ∃ e ∈ (s.tbinv (s.tagOf w) (usource w r 0x80) (usource w r 0x80)).2,
      s.usesEntry (usource w r 0x80) e.2 = true :=
  issuingAll_of (by decide +kernel) (by simp only [canReadUniform_iff]; decide +kernel)

/-- FRESUME: a reserved mode, reserved bits, no such core, no workgroup there, a stranger's, one without a thread held at the key, and two
modes that release, with all keys (`2^32 - 1`) or one; the third ends the workgroup. -/
theorem witness_BindingFormsComplete_fresume :
    IssuingAll (runtimeLab [(1, 3 * 2 ^ 14), (2, 65536), (3, 768), (4, 5), (5, 2), (6, 1), (7, 2 ^ 14 + 1), (8, 2 ^ 15 + 1), (9, 2 ^ 32 - 1),
      (10, 0x40), (11, 0x44)]) fun r w =>
    let s : State := runtimeLab []
    let mode : BitVec 8 → Nat := fun f => usource w r f / 2 ^ 14 % 4
    let target : BitVec 8 → Option Wg := fun f => s.wgAt (usource w r f % 1024) (usource w r f / 1024 % 16)
    let held : Wg → BitVec 8 → List Thread := fun v f => v.threads.filter fun t =>
      decide (t.place = .held .runtime) && (decide (usource w r f = 2 ^ 32 - 1) || decide (t.fpc = (uniformOperand w r f).val))
    s.isWave w = true ∧ (∀ f ∈ [0x81#8, 0x8B], canReadUniform w r f) ∧ mode 0x81 = 3 ∧ 65536 ≤ usource w r 0x82 ∧ 767 < usource w r 0x83 % 1024 ∧
    target 0x84 = none ∧ (∀ f ∈ [0x83#8, 0x84, 0x85, 0x86, 0x87, 0x88], mode f ≠ 3 ∧ usource w r f < 65536) ∧
    (target 0x85).any (fun (v : Wg) => decide (v.core = 2 ∧ ¬ s.tagGet 1 v.core = s.tagOf w)) = true ∧
    (target 0x86).any (fun (v : Wg) => decide (v.core = 1 ∧ s.tagGet 1 v.core = s.tagOf w ∧ s.tagOf v = s.tagOf w ∧ v.uid ≠ w.uid ∧ held v 0x8B = [] ∧
      held v 0x89 ≠ [] ∧ held v 0x8A ≠ [] ∧ mode 0x86 = 0 ∧ (held v 0x8A).head? = (heldThreads w).head?)) = true ∧
    target 0x87 = target 0x86 ∧ mode 0x87 = 1 ∧ target 0x88 = target 0x86 ∧ mode 0x88 = 2 ∧ s.barriers = [] :=
  issuingAll_of (by decide +kernel) (by simp only [canReadUniform_iff]; decide +kernel)

/-- RACK: a reserved code, a recall that is not open, one that is owed, one paid, one of which nothing can be given, one of its own core, one of a bank; RELINQ: no
kind, an id out of range, a stranger's unit, its own core, a bank free to go; LOSSRD: a record kept, one too old, the area's head, a free
beyond the area, one within. -/
theorem witness_BindingFormsComplete_units :
    IssuingAll (runtimeLab [(1, 5), (2, 6), (3, 7), (4, 2), (5, 10), (6, 3072), (7, 4), (8, 299), (9, 43), (10, 300), (11, 8), (12, 9), (13, 10)]) fun r w =>
    let s : State := runtimeLab []
    let t : Tenant := (s.tenant? (s.tagOf w)).getD someTenant
    let v : BitVec 8 → Nat := fun f => usource w r f
    let named : BitVec 8 → Option Recall := fun f => (s.tenant? (s.tagOf w)).bind fun t => t.recalls.find? fun x => x.seq % 2 ^ 32 = v f
    let at' : BitVec 8 → Option LossRec := fun f => t.losses[t.losses.length - (t.lossSeq - v f)]?
    s.isWave w = true ∧ (60#6).toNat < w.commons.length ∧ (56#6).toNat % 4 = 0 ∧ 56 + 8 ≤ w.commons.length ∧ s.tenant? (s.tagOf w) = some t ∧
    let others : Recall → List Nat := fun x => (s.choosable t x).filter fun i => ¬ (x.kind = 1 ∧ i = w.core)
    1 < v 0x84 ∧ named 0x83 = none ∧ named 0x81 = some (aRecall 5 1) ∧ named 0x82 = some (aRecall 6 0) ∧
    (named 0x8B).any (fun (x : Recall) => decide (x.owed ≠ 0 ∧ s.choosable t x = [] ∧ s.nextSeize t x = none)) = true ∧
    (named 0x8C).any (fun (x : Recall) => decide (x.owed ≠ 0 ∧ x.kind = 1 ∧ s.choosable t x ≠ [] ∧ others x = [])) = true ∧
    (named 0x8D).any (fun (x : Recall) => decide (x.owed ≠ 0 ∧ s.nextOf x (others x) = some 4 ∧ x.closing = false)) = true ∧
    (9 < v 0x85 ∧ maxId 2 ≤ v 0x86) ∧ (s.checkTag (s.tagOf w) 9 7 = false ∧ s.checkTag (s.tagOf w) 1 0 = true ∧ w.core = 0) ∧
    (v 0x87 < maxId 2 ∧ s.checkTag (s.tagOf w) 2 (v 0x87) = true ∧ s.inUse 2 (v 0x87) = false ∧ s.unitLive 2 (v 0x87) = true ∧
      s.unitQuiet 2 (v 0x87) 1 = true) ∧
    (v 0x88 < t.lossSeq ∧ t.lossSeq - v 0x88 ≤ 256 ∧ at' 0x88 = some aLoss) ∧ (¬ t.lossSeq - v 0x89 ≤ 256) ∧ ¬ v 0x8A < t.lossSeq ∧
    t.areaOff < v 0x89 ∧ v 0x87 ≤ t.areaOff :=
  issuingAll_of (by decide +kernel) (by decide +kernel)

theorem witness_BindingFormsComplete_holding : Table.wf unboundTag (runtimeLab []).tags = true ∧ (4 : Nat) < maxId 2 := by decide +kernel

/-- Two workgroups of the debug launch besides the one that issues, one running, one settled, and a launch; comparator 0 is in use. -/
def debugging (s : State) : State :=
  { s with
    comparators := s.comparators.set 0 (some ⟨0, 64⟩)
    launches := s.launches ++ [placedLaunch 9 (Tag.make 1 1 1) false false, placedLaunch 8 (Tag.make 2 1 1) false true]
    wgs := s.wgs ++ s.wgs.flatMap fun w => [{ w with uid := 80, core := 1 }, { w with uid := 81, core := 2, dbg := .settled },
      { w with uid := 82, core := 3, launch := 9 }] }

def debugLab (cs : List (Nat × Nat)) : State := lab false true id (commonsOf cs) debugging

/-- Targets: reserved bits, no such core, nobody there, a workgroup that is not of a debug launch, itself, one running, one settled. -/
theorem witness_DebugFormsComplete :
    IssuingAll (debugLab [(1, 2 ^ 14), (2, 768), (3, 9), (4, 3), (5, 0), (6, 1), (7, 2), (8, 0x3FFFFFC), (9, 7), (10, 15), (11, 0x100 + 191), (12, 2 ^ 25)])
      fun r w =>
    let s : State := debugLab []
    let v : BitVec 8 → Nat := fun f => usource w r f
    let at' : BitVec 8 → Option Wg := fun f => s.wgAt (v f % 1024) (v f / 1024)
    s.isDebug w = true ∧ (∀ f ∈ [0x81#8, 0x8C], canReadUniform w r f) ∧ (60#6).toNat < w.commons.length ∧
    2 ^ 14 ≤ v 0x81 ∧ 767 < v 0x82 % 1024 ∧ at' 0x83 = none ∧ (at' 0x84).any (fun (x : Wg) => decide (s.tagOf x = s.tagOf w) && !s.isDebug x) = true ∧
    (at' 0x85).any (fun (x : Wg) => decide (x.uid = w.uid)) = true ∧
    (at' 0x86).any (fun (x : Wg) => decide (s.tagOf x = s.tagOf w ∧ s.isDebug x = true ∧ x.uid ≠ w.uid ∧ x.dbg = .running)) = true ∧
    (at' 0x87).any (fun (x : Wg) => decide (s.tagOf x = s.tagOf w ∧ s.isDebug x = true ∧ x.uid ≠ w.uid ∧ x.dbg = .settled)) = true ∧
    (v 0x88 < 2 ^ 26 ∧ v 0x88 % 4 = 0 ∧ s.comparators[1]? = some none ∧ (∀ j < 1, (s.comparators[j]?.bind id).isSome = true) ∧
      (s.launch? 0).any (fun (l : Launch) => decide (l.tenant = s.tagOf w) && l.debug) = true ∧ s.launch? (v 0x89) = none) ∧
    (s.comparators[0]? = some (some ⟨0, 64⟩) ∧ 15 < v 0x88 ∧ v 0x8A < 16) ∧
    (v 0x8B % 256 < 192 ∧ v 0x8B < 2 ^ 29 ∧ v 0x8C < 2 ^ 26 ∧ v 0x8C % 2 ^ 21 + v 0x8B / 256 % 2 ^ 21 ≤ 2 ^ 21 ∧
      Table.get none s.watches (191 * 8) = none) ∧
    ((issueOf s r w (.dstep 0 0x86 0x80)).underWay = none ∧ (60#6).toNat % 4 = 0 ∧ 48 + 12 ≤ w.commons.length) :=
  issuingAll_of (by decide +kernel) (by simp only [canReadUniform_iff]; decide +kernel)

/-- A step of the workgroup on core 1 that has ended; a workgroup of a launch that keeps a log. -/
theorem witness_DebugFormsComplete_more :
    (let e : Stepping := ⟨0, 0, 1, 80, 0⟩;
      let s := { debugLab [(6, 1)] with stepping := [e] };
      IssuingAll s fun r w => s.isDebug w = true ∧ (issueOf s r w (.dstep 0 0x86 0x80)).underWay = some e ∧ s.stepRunning e = false ∧ e.wg ≠ w.uid) ∧
    (let s := { debugLab [(6, 1)] with launches := (debugLab []).launches.map fun l => { l with record := true } };
      IssuingAll s fun r w => usource w r 0x80 ≤ 1 ∧ usource w r 0x86 ≤ 1 ∧ (s.wgAt 1 0).any (fun (v : Wg) => (s.launch? v.launch).any fun l => l.record) = true) :=
  ⟨issuingAll_of (by decide +kernel) (by decide +kernel), issuingAll_of (by decide +kernel) (by decide +kernel)⟩

/-- A step of a settled workgroup's thread that waits ready, or that debugging holds, at a `NOP`. -/
def toStep (p : Place) : State :=
  let s := debugLab [(7, 2)]
  { memory s with mem := [], wgs := s.wgs.map fun w => if w.uid = 81 then { w with threads := w.threads.map fun t => { t with place := p } } else w }

theorem witness_DebugFormsComplete_step : ∀ p ∈ [Place.waiting 0 .ready, .held .debug], let s := toStep p
    IssuingAll s fun r w => s.isDebug w = true ∧ r.port < 2 ∧ canReadUniform w r 0x87 ∧ canReadUniform w r 0x80 ∧
      (issueOf s r w (.dstep 0 0x87 0x80)).underWay = none ∧
      (s.wgAt 2 0).any (fun (v : Wg) => decide (v.dbg = .settled ∧ v.uid ≠ w.uid ∧ 0 < v.nthr ∧ (s.wg? v.uid).isSome = true ∧
        s.tagOf v = s.tagOf w ∧ s.isDebug v = true) && (v.thread? 0).any fun t => decide (t.place = p ∧ t.fpc = 0#32) &&
          decide ((s.stepWords v 0 256).toOption = some [0#32])) = true ∧
      uniformWord 0#32 = false ∧ (0#32 : Word) ≠ 0x00400000#32 := by
  intro p hp
  exact issuingAll_of (by revert p; decide +kernel) (by simp only [canReadUniform_iff]; revert p; decide +kernel)

/-- The supervisor of partition 0: no register, one read-only, and `PART[2].W0` of the example at R371. -/
def supervisor (cs : List (Nat × Nat)) : State :=
  let s := State.reset.placeFor (Tag.make 0 0 0) true false 0
  { s with agenda := [], wgs := s.wgs.map (commonsOf cs) }

theorem witness_ConfigurationFormsComplete : IssuingAll (supervisor [(1, 0xFF000000), (2, 0x0A000002), (8, 0x01000010), (9, 0x00010801)]) fun r w =>
    let s : State := supervisor []
    (62#6).toNat % 2 = 0 ∧ 62 + 2 ≤ w.commons.length ∧ (∀ f ∈ [0x81#8, 0x82, 0x88, 0x89], canReadUniform w r f ∧ (uniformOperand w r f).poison = none) ∧
    s.tagOf w &&& 0xFFFF00#24 = 0#24 ∧ cfgWhere (usource w r 0x81) = none ∧
    (cfgWhere (usource w r 0x82) = some (10, 2) ∧ cfgReadOnly 10 2 = true ∧ s.mayRead (s.tagOf w) 10 2 = true) ∧
    (cfgWhere (usource w r 0x88) = some (1, 16) ∧ cfgReadOnly 1 16 = false ∧ s.cfgLocked 1 = false ∧
      cfgRevokes (usource w r 0x88) (uniformOperand w r 0x89).val = none) ∧ s.mayRead (Tag.make 1 1 1) 1 16 = false :=
  issuingAll_of (by decide +kernel) (by simp only [canReadUniform_iff]; decide +kernel)

/-- A register of a locked block. -/
theorem witness_ConfigurationFormsComplete_locked : let s := { supervisor [(8, 0x01000010), (9, 0x00010801)] with cfg := [(0x05000000, 1#32)] }
    IssuingAll s fun r w => s.only w ∧ w.status = .resident ∧ s.barriers = [] ∧ (∀ t ∈ r.everyone w, t.tid < 2048) ∧
      canReadUniform w r 0x88 ∧ canReadUniform w r 0x89 ∧ (uniformOperand w r 0x89).poison = none ∧ s.tagOf w &&& 0xFFFF00#24 = 0#24 ∧
      cfgWhere (usource w r 0x88) = some (1, 16) ∧ cfgReadOnly 1 16 = false ∧ s.cfgLocked 1 = true :=
  issuingAll_of (by decide +kernel) (by simp only [canReadUniform_iff, State.only]; decide +kernel)

/-- The example at R371: the write is done and its status is 0. -/
theorem test_cfgw : ((next? (.cfgw 4 0x88 0x89) (supervisor [(8, 0x01000010), (9, 0x00010801)])).map fun u =>
    (u.cfgGet 0x01000010, ((u.wg? 1).map fun w => (w.creg 4).val))) = some (0x00010801#32, some 0#32) := by decide +kernel

/-- A pool of capacity 7 with 6 records at 0x1000, as in the example at R301, one that is full at 0x1020; its records from 0x2000. A queue
of the tenant with a ring of 16 commands at 0x4000, its control block at 0x8000, empty; one whose ring is full, one of a stranger, one
whose ring is too small. -/
def pools (s : State) : State :=
  let q : Queue := { q := 3, owner := Tag.make 1 1 1, pcap := 0, world := 0, bucket := 1, qcb := 0x8000, qstate := 0, slot := none
                     slotTag := unboundTag, mappedAt := 0, badWr := none, leaving := none, dry := false, cmds := [] }
  let block := fun (wr lg : Nat) => leBytes 0x4000 8 ++ leBytes lg 1 ++ [0, 0, 0] ++ leBytes wr 4 ++ leBytes 0 4
  { memory s with
    queues := [q, { q with q := 4, qcb := 0x8100 }, { q with q := 5, owner := Tag.make 2 1 1 }, { q with q := 6, qcb := 0x8200 }]
    mem := [(0x1000, leBytes 0x2000 16 ++ leBytes 7 4 ++ leBytes 6 4), (0x1020, leBytes 0x2000 16 ++ leBytes 7 4 ++ leBytes 7 4),
      (0x8000, block 2 4), (0x8100, block 16 4), (0x8200, block 0 3)].foldl (fun m p => Memory.writeAll m p.1 p.2) [] }

def launchLab : State :=
  lab false false (having [(8, 0x40), (12, 0x1000000), (16, 3)])
    (fun w => { commonsOf [(8, 0x40), (12, 0x1000000), (16, 3)] w with addrs := (w.addrs.set 5 ⟨0x1000, none⟩).set 6 ⟨0x1020, none⟩ }) pools

/-- Both forms: an append that finds room, one that finds the pool full, one whose entry is no word offset; a command for the ring. -/
theorem witness_LaunchFormsComplete : Issuing launchLab fun r w t =>
    let s : State := launchLab
    (w.common.stores = 0 ∧ w.common.copies = 0 ∧ ∀ t ∈ w.threads, t.cnt.loads = 0 ∧ t.cnt.stores = 0 ∧ t.cnt.copies = 0) ∧
    w.twin = none ∧ s.unlogged w ∧ r.acting w = [t] ∧ w.numbered ∧ t.pending = [] ∧ (124#8).toNat + 4 ≤ w.quota ∧ 60 + 4 ≤ w.commons.length:=
  issuing_of (by decide +kernel) (by simp only [unlogged_iff, Wg.numbered]; decide +kernel)

theorem witness_LaunchFormsComplete_operands : Issuing launchLab fun r w t =>
    let s : State := launchLab
    (∀ a ∈ [5#4, 6#4], (addressOf w a).poison = none ∧ (addressOf w a).val.toNat / 2 ^ 56 = 0 ∧ (addressOf w a).val.toNat % 64 % 32 = 0 ∧
      (s.translate w .a true (addressOf w a).val 32).isOk = true ∧ locationOf s w .a true (addressOf w a).val 32 ∈ [Loc.mem 0x1000, .mem 0x1020]) ∧
    (t.reg s 8).val.toNat < 2 ^ 24 ∧ (w.creg 8).val.toNat < 2 ^ 24 ∧ 2 ^ 24 ≤ (t.reg s 12).val.toNat ∧ 2 ^ 24 ≤ (w.creg 12).val.toNat ∧
    ((issueOf s r w (.lnchPool 5 8)).poolDesc (.mem 0x1000)).count = 6 ∧ ((issueOf s r w (.lnchPool 5 8)).poolDesc (.mem 0x1000)).capacity = 7 ∧
    ((issueOf s r w (.lnchPool 6 8)).poolDesc (.mem 0x1020)).count = 7 ∧ (s.translate w .w false 0x2060 16).isOk = true ∧
    locationOf s w .w false 0x2060 16 = .mem 0x2060 ∧ (t.reg s 16).val.toNat = 3 ∧
    (addressOf w 5).val.toNat % 64 = 0 ∧ (s.translate w .r false (addressOf w 5).val 64).isOk = true :=
  issuing_of (by decide +kernel) (by decide +kernel)

/-- The example at R301: the append answers 0x600. -/
theorem test_lnch_pool : ((next? (.lnchPool 5 8) launchLab).bind fun u => (thread0 u).map fun t => (t.reg u 11).val) = some 0x600 ∧
    ((next? (.lnchPool 6 8) launchLab).bind fun u => (thread0 u).map fun t => (t.reg u 11).val) = some 10 := by decide +kernel

/-- Submission: another's queue, a ring too small, a full one, one with room. -/
theorem witness_LaunchFormsComplete_submit : ∀ p ∈ [(3, 4, 2), (4, 4, 16), (5, 4, 2), (6, 3, 0)], ∃ x ∈ launchLab.queues, x.q = p.1 ∧ launchLab.queueOut x = false ∧
    launchLab.queue? x.q = some x ∧ x.q < 2 ^ 16 ∧ leNat (Memory.bytes launchLab.mem x.qcb 8) % 64 = 0 ∧
    leNat (Memory.bytes launchLab.mem (x.qcb + 8) 1) = p.2.1 ∧
    (leNat (Memory.bytes launchLab.mem (x.qcb + 12) 4) + 2 ^ 32 - leNat (Memory.bytes launchLab.mem (x.qcb + 16) 4)) % 2 ^ 32 = p.2.2 ∧
    (x.owner = Tag.make 1 1 1 ↔ p.1 ≠ 5) := by decide +kernel

/-- The device between runs. -/
def idle (t : Thread → Thread) (g : Wg → Wg) (f : State → State) : State := lab false false t g fun s => f { s with runs := [] }

/-- `State.writable`, computed. -/
def canWrite (s : State) (a n : Nat) : Bool :=
  (List.range n).all fun i => decide (regionOf (a + i) ≠ 0) || decide ((s.die? ((a + i) / 65536 / 6291456)).endp ≠ .absent)

theorem writable_iff (s : State) (a n : Nat) : s.writable a n ↔ canWrite s a n = true := by
  simp only [State.writable, canWrite, List.all_eq_true, List.mem_range, Bool.or_eq_true, decide_eq_true_eq]
  exact forall_congr' fun i => forall_congr' fun _ => Decidable.imp_iff_not_or

def placed (p : Place) (t : Thread) : Thread := { t with place := p }

/-- The example at R42: of four candidates the lowest key among those that are full or old enough, and where one has been passed by 31
times that one. -/
def candidates : List Candidate :=
  [(0x120, 12, 90, 4), (0x188, 40, 10, 0), (0x0F0, 3, 300, 9), (0x200, 2048, 5, 1)].map fun p =>
    { wg := 1, key := p.1, slot := 2, tag := Tag.make 1 1 1, ready := p.2.1, age := p.2.2.1, passes := p.2.2.2, fill := 32, ageLimit := 256 }

theorem witness_SelectionOrder : candidates ≠ [] ∧ (selectOf candidates).map (fun c => c.key) = some 0x0F0 ∧
    (selectOf (candidates.map fun c => { c with passes := c.passes + 27 })).map (fun c => c.key) = some 0x0F0 ∧
    (selectOf (candidates.map fun c => if c.key = 0x120 then { c with passes := 31 } else c)).map (fun c => c.key) = some 0x120 ∧
    bench.portTenant 0 candidates = some (Tag.make 1 1 1) := by decide +kernel

/-- One ready thread at key 0, whose code stands at va 0: `NOP`, `EXIT`. -/
def ready : State :=
  idle (placed (.waiting 0 .ready)) id fun s =>
    { memory s with
      entries := [{ core := 0, key := 0, slot := 0, chunk := 0, passes := 0, age := 0, fill := 0, ageLimit := 0, mask := 1 }]
      mem := Memory.writeAll [] 4 (leBytes 0x00100000 4) }

def wgIs (p : Wg → Wg) (s : State) : State := { s with wgs := s.wgs.map p }

theorem witness_ThreadEventsComplete :
    (let c : Candidate := { wg := 1, key := 0, slot := 0, tag := Tag.make 1 1 1, ready := 1, age := 0, passes := 0, fill := 32, ageLimit := 256 };
      ready.portFree 0 1 = true ∧ ready.portTenant 0 (ready.candidates 0) = some c.tag ∧
      selectOf ((ready.candidates 0).filter fun d => d.tag = c.tag) = some c ∧ ready.only (wgOf ready) ∧ (wgOf ready).uid = 1 ∧
      (ready.fetchBlock (wgOf ready) 0).toOption = some [0x00000000, 0x00100000] ∧ ready.fetchWaits (wgOf ready) 0 true 64 = false) ∧
    (∀ till ∈ [0, 1], let s := idle (placed (.waiting 4 (.sleep till))) id id;
      s.sole (wgOf s) (threadOf s) ∧ (threadOf s).place = .waiting 4 (.sleep till) ∧ s.die0.cycles = 0) ∧
    (let s := idle (placed (.waiting 4 .ready)) (fun w => { w with dbg := .settling }) id;
      s.only (wgOf s) ∧ (wgOf s).quiet = true ∧ (wgOf s).dbg = .settling ∧ s.runs = []) ∧
    (∀ exits ∈ [0, 0x10000], ∀ st ∈ [WgStatus.resident, .finished ⟨1, 1, 0, 0, []⟩ false],
      let s := idle (placed .exited) (fun w => { w with status := st }) fun s => { s with launches := s.launches.map fun l => { l with exits := exits } };
      s.only (wgOf s) ∧ (wgOf s).quiet = true ∧ (∀ t ∈ (wgOf s).threads, t.place = .exited) ∧ s.barriers = [] ∧ (wgOf s).twin = none ∧
      s.isGuarded (wgOf s) = false ∧ s.writable (exits + 128 * (wgOf s).num) 1 ∧ (s.launch? (wgOf s).launch).map (fun l => l.exits) = some exits ∧ (s.gang? (wgOf s).gang).isSome = true) ∧
    (State.reset.dieRuns 0 = false ∧ bench.dieRuns 0 = true ∧ bench.logPend = [] ∧ bench.only (wgOf bench) ∧ (wgOf bench).isResident = true) := by
  simp only [State.sole, State.only, writable_iff]; decide +kernel

/-- A workgroup in rollback with its shadow, two threads of it at different places. -/
def rolling : State :=
  idle (placed (.waiting 4 .ready)) (fun w => { w with
    status := .rollingBack
    shadow := some { threads := w.threads ++ w.threads.map (fun t => { t with tid := 1, place := .exited }), quota := 4, commons := w.commons
                     addrs := w.addrs, tvec := 0, common := Counters.zero, scratch := [], banks := [], poison := [], barriers := [] } }) id

/-- Twins that have exited, with the same stores and with different ones. -/
def twins (x y : Byte) (m : Bool) : State :=
  idle (placed .exited) (fun w => { w with mismatched := m }) fun s =>
    let h := fun b : Byte => [(⟨0x100, 0x100, b :: List.replicate 31 0, 1#32, List.replicate 32 none⟩ : HeldSector)]
    { s with wgs := s.wgs.flatMap fun w =>
        [{ w with twin := some 60, primary := true, held := h x }, { w with uid := 60, core := 1, twin := some 1, primary := false, held := h y }] }

def twinOf (s : State) : Wg := (s.wgs.getD 1 (wgOf s))

theorem witness_GuardEventsComplete_rollback : (rolling.paired (wgOf rolling) = false ∧ rolling.only (wgOf rolling) ∧ (wgOf rolling).status = .rollingBack ∧ (wgOf rolling).quiet = true ∧
      (wgOf rolling).shadow.any (fun (x : Shadow) => decide (x.threads.map fun t => t.tid).Nodup) = true) := by
  unfold State.only; decide +kernel

theorem witness_GuardEventsComplete :
    ∀ p ∈ [(1#8, 1#8, false), (1#8, 2#8, false), (1#8, 2#8, true)], let s := twins p.1 p.2.1 p.2.2; let w := wgOf s; let v := twinOf s;
      s.only w ∧ s.only v ∧ w.uid ≠ v.uid ∧ w.twin = some v.uid ∧ w.primary = true ∧ w.status = .resident ∧ v.status = .resident ∧
      (∀ t ∈ w.threads, t.place = .exited) ∧ (∀ t ∈ v.threads, t.place = .exited) ∧ s.barriers = [] ∧ w.mismatched = p.2.2 ∧ w.quiet = true ∧ v.quiet = true ∧ w.agreed = false := by
  intro p hp
  simp only [List.mem_cons, List.not_mem_nil, or_false] at hp
  rcases hp with rfl | rfl | rfl <;> (unfold State.only; decide +kernel)

/-- Twins without stores have equal signatures, whatever the hash is. -/
theorem witness_GuardEventsComplete_equal :
    ((wgOf (idle (placed .exited) id id)).held.map fun h =>
      (Config.sha256Low (leBytes h.addr 8 ++ h.data ++ leBytes h.mask.toNat 4)).toNat).sum % 2 ^ 64 = 0 := rfl

/-- A copy in the engine, as `COPY.T` of the vamp hands it over, with and without a follow-on pass, at a later stage, or with a source that no
entry maps. -/
def copying (fs : BitVec 4) (f : CopyOp → CopyOp) : State :=
  let s := (next? (.copyT 2 0x80 fs 0 0) engineLab).getD engineLab
  { s with runs := [], copies := s.copies.map f }

def copyOf (s : State) : CopyOp :=
  s.copies.headD { id := 0, wg := none, tid := none, queue := none, gang := none, launch := none, quad := 0, tenant := 0, world := 0, form := .t
                   src := layoutOf [], dst := layoutOf [], sorg := [], dorg := [], mask := [], mc := 0, fill := [], col := 0, fs := none
                   stampPa := none, pc := 0, patBad := none, stage := .moving, slot := none, missed := none, hit := none, next := 0, dropped := 0, status := 0, reason := 0, info := 0 }

def unmapped (c : CopyOp) : CopyOp := { c with src := { c.src with base := 0x100000 } }

theorem witness_EngineEventsComplete_copies :
    (let s := copying 0xF id; let c := copyOf s; let m := s.moveElems c c.next (c.shape.boxSize - c.next);
      s.copies = [c] ∧ s.copy? c.id = some c ∧ c.stage = .moving ∧ c.form ≠ .mc ∧ s.mayMove c = true ∧ m.2 = (2, none)) ∧
    (∀ p ∈ [(0xF#4, CopyStage.landing), (0#4, .landing), (0#4, .following)],
      let s := copying p.1 fun c => { c with stage := p.2 }; let c := copyOf s;
      s.copy? c.id = some c ∧ c.stage = p.2 ∧ s.inbound = [] ∧ s.awaitsTwin c = false ∧ c.fs = (if p.1 = 0xF#4 then none else some 0) ∧ c.status = 0 ∧
      s.reservations c.quad < 16 ∧ 0 < s.scoreFree c.quad ∧ s.checkTag c.tenant 9 (c.quad * 15 + 0) = true) ∧
    (let s := copying 0xF unmapped; let c := copyOf s;
      s.copy? c.id = some c ∧ c.form ≠ .mc ∧ s.mayMove c = true ∧ (s.runCopy c).2 = some (.r, 0x100000) ∧ c.slot = none ∧
        (s.runCopy c).1.freeSlot c.quad = some 0) := by decide +kernel

/-- The copy moves the two words, which then reach the bank. -/
def landed : State :=
  match execCopyComplete (copyOf (copying 0xF id)).id (copying 0xF id) with
  | .next u => u
  | _ => bench

def inboundOf (s : State) : Inbound := s.inbound.headD ⟨0, 0, none, 0, 0, [], [], none, 0⟩

theorem witness_EngineEventsComplete_inbound :
    let i := inboundOf landed; let s := { landed with tags := [] };
    (landed.inbound.find? fun j => decide (j.id = i.id)) = some i ∧ i.mask.length = i.data.length ∧ i.data = [1, 2, 3, 4] ∧
      landed.checkTag i.tag 2 i.bank = true ∧ Memory.wf landed.mem = true ∧ landed.inboundServed i = true ∧ s.inboundServed i = true ∧
    (s.inbound.find? fun j => decide (j.id = i.id)) = some i ∧ s.checkTag i.tag 2 i.bank = false := by decide +kernel

theorem test_inbound_writes :
    (match execBankInboundWrite (inboundOf landed).id landed with
      | .next u => leNat (Memory.bytes u.mem (2 ^ 52 + 0x400) 8)
      | _ => 0) = 0x04030201 := by decide +kernel

/-- Passes of one group of steps over 32 columns of E4M3, the second of a launch of higher priority, and one that clears. -/
def passing (f : MatOp → MatOp) : State :=
  let o : MatOp := { newOp (some 1) none 0 0 .pass [0x33, 0, 32, 0, 0x40020, 0, 0, 0] with id := 50 }
  let s := { engineLab with
    runs := []
    gangs := engineLab.gangs.flatMap fun g => [{ g with accs := 1, segs := 1 }, { g with uid := 9, launch := 9, accs := 1, segs := 1 }]
    launches := engineLab.launches.flatMap fun l => [{ l with prio := 4 }, { l with id := 9, prio := 3 }]
    matops := [o, { o with id := 51, gang := 9 }, { o with id := 52, kind := .accz, words := [0x200, 8, 0, 0, 0, 0, 0, 0], reason := 1 }].map f }
  s

theorem witness_EngineEventsComplete_matrix :
    (let s := passing id;
      (∀ p ∈ s.matops, p.quad = 0 → p.granted = false) ∧ (s.matops.map fun o => s.eligible o) = [true, true, false] ∧
      (s.arbitrate 0).map (fun o => o.id) = some 51) ∧
    (let s := passing fun o => { o with granted := decide (o.id = 50) };
      (s.matops.find? fun p => decide (p.quad = 0 ∧ p.granted = true)).map (fun o => (o.id, o.steps)) = some (50, 32)) ∧
    (let s := passing fun o => { o with ended := true, kdone := 32 };
      ∀ o ∈ s.matops, s.matop? o.id = some o ∧ s.mayComplete o = true) := by decide +kernel

/-- Contributions of two ranks to one sum; the second may differ, may be the last, may be the first. -/
def collecting (f : Contribution → Contribution) (first : CollStage) : State :=
  let c : Contribution :=
    { id := 40, wg := 1, tid := none, launch := 0, quad := 0, tenant := Tag.make 1 1 1, fn := 0, scope := 2, inst := 0, cid := 0, op := 0, count := 4
      ranks := 2, root := 0, rank := 0, src := [(2 ^ 52 + 0x200, 4)], dst := [(2 ^ 52 + 0x500, 4)], stampPa := none, col := 0, hit := none, stage := first }
  { engineLab with runs := [], colls := [c, f { c with id := 41, rank := 1, stage := .sent }] }

def secondOf (s : State) : Contribution := s.colls.getLastD
  { id := 0, wg := 0, tid := none, launch := 0, quad := 0, tenant := 0, fn := 0, scope := 0, inst := 0, cid := 0, op := 0, count := 0, ranks := 0
    root := 0, rank := 0, src := [], dst := [], stampPa := none, col := 0, hit := none, stage := .done }

theorem witness_EngineEventsComplete_collectives :
    (∀ p ∈ [(4, CollStage.counted, 1), (8, .counted, 1), (4, .sent, 0)],
      let s := collecting (fun c => { c with count := p.1 }) p.2.1; let c := secondOf s;
      s.coll? c.id = some c ∧ s.mayCount c = true ∧ (s.colls.map fun d => d.id).Nodup ∧ (s.phaseOf c).length = p.2.2 ∧ c.scope ≠ 4 ∧
      ∀ d ∈ s.phaseOf c, d.agrees c = decide (p.1 = 4)) ∧
    (∀ st ∈ [CollStage.failed 6, .result (List.replicate 4 (5#8, none))],
      let s := collecting (fun c => { c with stage := st }) .done; let c := secondOf s;
      s.coll? c.id = some c ∧ c.stage = st ∧ c.dst = [(2 ^ 52 + 0x500, 4)] ∧ regionOf (2 ^ 52 + 0x500) = 4 ∧ c.stampPa = none ∧
      Memory.wf s.mem = true) := by decide +kernel

/-- Partition 1 is valid and may launch in world 0; its bucket gains 2 a µs up to 8; its tenant 1 owns frame 0 of local HBM. -/
def owning (s : State) : State :=
  { memory s with
    fot := [(0, (Tag.make 1 1 1).setWidth 32 ||| 0x70000000)]
    buckets := [(1, 5)]
    cfg := [(0x01000008, 0x10001), (0x0100000C, 0x400), (0x0100000D, 8), (0x0100000F, 64)]
    tags := [(2 * 2 ^ 32, Tag.make 1 1 1), (5 * 2 ^ 32, Tag.make 1 1 1), (8 * 2 ^ 32, Tag.make 1 0xFFF 0)] }

def request (q : Nat) : QueueReq :=
  { q := q, owner := Tag.make 1 1 1, pcap := 31, world := 15, bucket := 15, qcb := 0x8000, hyper := true, part := 0, clear := true }

/-- A queue of the tenant whose ring of 16 commands stands at 0x4000, its control block at 0x8000. -/
def ownQueue : Queue :=
  { q := 3, owner := Tag.make 1 1 1, pcap := 0, world := 0, bucket := 1, qcb := 0x8000, qstate := 0, slot := none, slotTag := unboundTag
    mappedAt := 0, badWr := none, leaving := none, dry := false, cmds := [] }

/-- The command record of R292: type, flags, quad, payload, value, pool. -/
def cmdBytes (type payload value pool : Nat) : List Byte :=
  leBytes type 4 ++ leBytes 0 4 ++ leBytes payload 8 ++ leBytes 0 8 ++ leBytes value 8 ++ leBytes pool 8 ++ leBytes 0 24

/-- A launch record of R294: two gangs of one workgroup of 33 threads; a time limit of 1 µs. -/
def launchBytes (regs : Nat) : List Byte :=
  leBytes 0x100 8 ++ leBytes 0 8 ++ leBytes 2 4 ++ leBytes 1 4 ++ leBytes 1 4 ++ leBytes 33 2 ++ [1, BitVec.ofNat 8 regs, 4, 0, 0, 0] ++
    leBytes 0 4 ++ [0, 5] ++ leBytes 0 2 ++ leBytes 1 4 ++ leBytes 0 80

def place (m : List (Nat × List Byte)) (s : State) : State :=
  { s with mem := m.foldl (fun m p => Memory.writeAll m p.1 p.2) s.mem }

/-- The queue with two commands written, the privileged fields of its block right or not. -/
def queueLab (f : Queue → Queue) (tampered : Byte) : State :=
  idle id id fun s => place [(0x8000, leBytes 0x4000 8 ++ [4, 0, 0, 0] ++ leBytes 2 4 ++ leBytes 0 4),
    (0x8080, leBytes (Tag.make 1 1 1).toNat 4 ++ [0, tampered, 1]), (0x4000, cmdBytes 1 0x1000 0 0),
    (0x1000, launchBytes 8), (0x1080, launchBytes 9), (0x1100, leBytes 0x1200 16 ++ leBytes 4 4 ++ leBytes 2 4),
    (0x1108, leBytes 0x1200 8), (0x1200, leBytes 5 4), (0x1210, leBytes 4 4), (0x1400, layoutBytes 0x3000), (0x1480, layoutBytes 0x3100), (0x1800, [7])]
    { owning s with queues := [f ownQueue] }

theorem witness_QueueEventsComplete_queues :
    (∀ n ∈ [0, 65535], let s := idle id id owning; let r := request n;
      Memory.wf s.mem = true ∧ (r.q < 65536 ∧ r.pcap < 32 ∧ r.world < 16 ∧ r.bucket < 16 ∧ r.qcb < 0xC000000000) ∧ s.writable r.qcb 256 ∧ r.qcb % 256 = 0 ∧ s.mayNameQueue r = true ∧
      s.owned r.owner 3#3 r.qcb 256 = true ∧ s.queue? r.q = none) ∧
    (∀ n ∈ [3, 0], let s := if n = 3 then queueLab id 0 else { queueLab id 0 with die0 := { (queueLab id 0).die0 with endp := .absent } };
      (request n).qcb % 256 = 0 ∧ s.mayNameQueue (request n) = true ∧ s.owned (request n).owner 3#3 (request n).qcb 256 = true ∧
      if n = 3 then s.queue? (request n).q ≠ none else s.hbmOut (request n).qcb = true) ∧
    (∀ st ∈ [0, 3], let s := queueLab (fun q => { q with qstate := st }) 0;
      s.queue? (request 3).q = some { ownQueue with qstate := st } ∧ s.writable ownQueue.qcb 256 ∧ (request 3).hyper = true ∧ Memory.wf s.mem = true) ∧
    (∀ p ∈ [0#8, 1#8], let s := queueLab id p; let x := ownQueue;
      s.queue? x.q = some x ∧ Memory.wf s.mem = true ∧ s.queueOut x = false ∧ x.slot = none ∧ s.partValid (Tag.part x.owner) = true ∧ x.qstate = 0 ∧
      s.writable x.qcb 256 ∧ 0 < s.waitingCmds x ∧ x.dry = false ∧ 0 < s.bucketLevel x.bucket ∧ s.slotFor x = some 0 ∧ s.owned x.owner 3#3 x.qcb 256 = true ∧ leNat (Memory.bytes s.mem x.qcb 8) = 0x4000 ∧
      leNat (Memory.bytes s.mem (x.qcb + 8) 1) = 4 ∧ s.owned x.owner 1#3 0x4000 (64 * 2 ^ 4) = true ∧
      (p = 0 ↔ Memory.bytes s.mem (x.qcb + 128) 128 = x.shadowBytes) ∧ x.owner ≠ unboundTag) ∧
    (∀ st ∈ [none, some 0, some 2], let x := { ownQueue with slot := some 0, leaving := st }; let s := queueLab (fun _ => x) 0;
      s.queue? x.q = some x ∧ Memory.wf s.mem = true ∧ s.queueOut x = false ∧ (∀ c ∈ x.cmds, c.begun = true) ∧ 0 < s.waitingCmds x) := by
  simp only [writable_iff]; refine ⟨?_, ?_, ?_, ?_, ?_⟩ <;> decide +kernel

/-- The mapped queue with one command taken. -/
def taken (type payload value pool : Nat) : State :=
  queueLab (fun q => { q with slot := some 0, cmds := [⟨0, cmdBytes type payload value pool, false, false⟩] }) 0

def queueOf (s : State) : Queue := s.queues.headD ownQueue

def cmdOf (s : State) : Cmd := (queueOf s).cmds.headD ⟨0, [], false, false⟩

theorem witness_begins : ∀ p ∈ [(1, 0x1000, 0, 0), (1, 0x1080, 0, 0), (2, 0x1000, 0, 0x1100), (3, 0x1400, 0, 0), (4, 0x1800, 0, 0), (5, 0x1800, 7, 0),
      (5, 0x1800, 8, 0)],
    let s := taken p.1 p.2.1 p.2.2.1 p.2.2.2; (queueOf s).begins s (cmdOf s) := by
  intro p hp
  simp only [List.mem_cons, List.not_mem_nil, or_false] at hp
  rcases hp with rfl | rfl | rfl | rfl | rfl | rfl | rfl <;>
    exact ⟨by decide +kernel, by decide +kernel, by decide +kernel, by decide +kernel, by decide +kernel, by decide +kernel,
      by decide +kernel⟩

theorem witness_QueueEventsComplete_commands :
    (∀ p ∈ [0x1000, 0x1080], let s := taken 1 p 0 0; let x := queueOf s; let c := cmdOf s;
      c.type = 1 ∧ s.owned x.owner 1#3 c.payload 128 = true ∧
      s.launchBad x (launchFrom x c.idx (Memory.bytes s.mem c.payload 128)) (Memory.bytes s.mem c.payload 128) =
        if p = 0x1000 then none else some (4, 0)) ∧
    (let s := taken 2 0x1000 0 0x1100; let x := queueOf s; let c := cmdOf s;
      c.type = 2 ∧ s.owned x.owner 1#3 c.payload 128 = true ∧ (s.poolRecords x.owner c.pool).toOption = some [⟨5, 0, 0⟩, ⟨4, 0, 0⟩] ∧
      s.launchBad x ((launchFrom x c.idx (Memory.bytes s.mem c.payload 128)).ofPool (binned [⟨5, 0, 0⟩, ⟨4, 0, 0⟩]))
        (Memory.bytes s.mem c.payload 128) = none) ∧
    (let s := taken 3 0x1400 0 0; let c := cmdOf s;
      c.type = 3 ∧ s.queueWaits c.quad (queueOf s).owner c.payload = false ∧ ((s.queueCopy (queueOf s) c).map fun p => (p.2.stage, p.2.status)) = some (.moving, 0) ∧ 0 < s.scoreFree c.quad) ∧
    (let s := taken 4 0x1800 0 0; let x := queueOf s; let c := cmdOf s;
      c.type = 4 ∧ (∀ d ∈ x.cmds, d.begun = true → d.type ≠ 4) ∧ x.cmds.head? = some c ∧ s.owned x.owner 3#3 c.payload 8 = true) ∧
    (∀ v ∈ [7, 8], let s := taken 5 0x1800 v 0; let c := cmdOf s;
      c.type = 5 ∧ s.owned (queueOf s).owner 1#3 c.payload 8 = true ∧ s.hbmOut c.payload = false ∧ c.met = false ∧ leNat (Memory.bytes s.mem c.payload 8) = 7 ∧ c.value = v ∧
      let t := s.markBegun 3 0; t.queue? 3 = some (queueOf t) ∧
        ((queueOf t).cmds.find? fun d => d.begun && decide (d.type = 5)) = some (cmdOf t) ∧ (cmdOf t).value = v) := by decide +kernel

/-- A launch whose gang has retired, with and without an account and a command. -/
def spent (account : Nat) : State :=
  let s := taken 1 0x1000 0 0
  { s with
    launches := s.launches.map fun l => { l with account := account, queue := if account = 0 then none else some 3 }
    gangs := s.gangs.map fun g => { g with status := .retired }
    wgs := s.wgs.map fun w => { w with status := .finished ⟨1, 1, 0, 0, []⟩ true } }

theorem witness_QueueEventsComplete_over : ∀ a ∈ [0, 0x2000], ∀ l ∈ (spent a).launches,
    (spent a).launch? l.id = some l ∧ (spent a).launchOver l = true ∧ l.account = a := by decide +kernel

/-- The bucket of partition 1 gains 2 a tick and pays 1 for each quad that holds a gang of it. -/
theorem witness_QueueEventsComplete_buckets : ∀ p ∈ [((7 : Int), (8 : Int)), (-2, 0)],
    let s := { queueLab (fun q => { q with slot := some 0 }) 0 with buckets := [(1, p.1)] }
    max (min (Table.get 0 s.buckets 1 + ((s.cfgGet (0x01000000 + 8 * 1 + 4)).toNat / 512 % 256 : Int)) ((s.cfgGet (0x01000000 + 8 * 1 + 5)).toNat : Int)
      - s.bucketQuads 1) (-((s.cfgGet (0x01000000 + 8 * 1 + 5)).toNat : Int)) = p.2 ∧
    s.queue? 3 = some (queueOf s) ∧ (s.queues.filter fun y => y.q = 3) = [queueOf s] ∧ (queueOf s).bucket = 1 ∧ ∀ c ∈ (queueOf s).cmds, c.begun = true := by decide +kernel

/-- A launch of gangs of one workgroup of 33 threads in a partition that owns the cores of quad 0 and a bank; its gangs as `gs` says. -/
def waitingLab (gs : List Gang) (f : State → State) : State :=
  idle id id fun s =>
    let s := owning s;
    f { s with
      tags := [(2 ^ 32, Tag.make 1 1 1), (2 ^ 32 + 1, Tag.make 1 1 1)] ++ s.tags
      launches := s.launches.map fun l => { l with threads := 33, regs := 8, commons := 4, banks := 1, nwg := gs.length, args := 0x1234 }
      gangs := gs }

def fresh (num uid : Nat) : Gang := { placedGang uid 0 with num := num, status := .never }

/-- A gang that has never been placed, and one whose workgroup was saved. -/
def firstPlace : State := waitingLab [fresh 0 0, fresh 1 2] fun s => { s with wgs := [] }

def comesBack : State :=
  waitingLab [{ fresh 0 0 with status := .saved, savedBanks := [(5, 9)] }] fun s =>
    { s with wgs := s.wgs.map fun w => { w with status := .preempted, core := 9, threads := w.threads.map fun t => { t with place := .waiting 4 .ready } } }

theorem witness_GangEventsComplete_place :
    ((firstPlace.choosePlace 0).any fun c => decide (c.2.2.2 = none ∧ firstPlace.gang? c.2.1.uid = some c.2.1 ∧ c.2.1.status = .never ∧
      c.2.2.1.cores = [0])) = true ∧ (∀ w ∈ firstPlace.wgs, w.uid < firstPlace.nextId) ∧
    ((comesBack.choosePlace 0).any fun c => decide (c.2.2.2 = none ∧ comesBack.gang? c.2.1.uid = some c.2.1 ∧ c.2.1.status = .saved)) = true ∧
      (comesBack.wgs.map fun w => w.uid).Nodup ∧ ∀ w ∈ comesBack.wgs, w.gang = 0 ∧ w.status = .preempted := by decide +kernel

/-- A persistent gang of lower priority fills the core that a gang of another launch waits for. -/
def persisting : State :=
  waitingLab [placedGang 0 0, { fresh 0 2 with launch := 7 }] fun s =>
    { s with
      tags := s.tags.filter (fun e => e.1 ≠ 2 ^ 32 + 1)
      launches := s.launches.flatMap fun l => [{ l with prio := 9, persistent := true, banks := 0, nwg := 1 }, { l with id := 7, prio := 3, nwg := 1 }]
      wgs := s.wgs.map fun w => { w with gang := 0, base := 0, nthr := 2048, core := 0 } }

theorem witness_GangEventsComplete_persistent : persisting.choosePlace 0 = none ∧
    (persisting.choosePreempt 0).map (fun vs => vs.map fun g => g.uid) = some [0] := by decide +kernel

theorem witness_GangEventsComplete_owed : ∀ s ∈ [firstPlace, comesBack, persisting], s.NothingOwed 0 := by
  intro s hs
  simp only [List.mem_cons, List.not_mem_nil, or_false] at hs
  rcases hs with rfl | rfl | rfl <;> exact ⟨by decide +kernel, by decide +kernel⟩

/-- The other die has nothing and takes from the tail of three gangs; a gang that has waited 2 ms finds a quad whose gang must retire. -/
def stealing : State :=
  waitingLab ((List.range 3).map fun k => fresh k (2 * k)) fun s => { s with die1 := { s.die1 with endp := .attached } }

def reserving : State :=
  waitingLab [placedGang 0 0, { fresh 1 2 with waitSince := some 5 }] fun s =>
    { s with ns := 2000005, tags := s.tags.filter (fun e => e.1 ≠ 2 ^ 32 + 1), wgs := s.wgs.flatMap fun w => [{ w with gang := 0, base := 0, nthr := 2048, core := 0 }] }

theorem witness_GangEventsComplete_queueing :
    (stealing.choosePlace 1 = none ∧ stealing.die0.endp = .attached ∧ stealing.die1.endp = .attached ∧
      ((stealing.launchOrder.find? fun l => (stealing.shareOf l 0).any fun g => decide (g.status = .never)).isSome) = true) ∧
    reserving.latch 0 = 0 ∧ (∀ l ∈ reserving.launches, ∀ g ∈ reserving.gangs, g.status = .never → l.world = 0 ∧ reserving.launchOrder = [l] ∧ reserving.nextGang l 0 = some g ∧
      g.waitSince = some 5 ∧ (∀ r ∈ reserving.reserved, r.2 ≠ g.uid + 1) ∧ reserving.bestQuad l g = some 0 ∧ reserving.mustRetire l g 0 = some 1) ∧
    (∀ p ∈ [(0, 0, 0), (0, 1, 16384), (0, 2, 2048), (1, 3, 256)], let s := { bench with die0 := { bench.die0 with cycles := p.2.2 } };
      (if p.1 = 0 then s.die0 else s.die1).cycles % (if p.2.1 = 0 ∨ p.2.1 = 1 then 16384 else if p.2.1 = 2 then 2048 else 256) = 0 ∧
      Table.wf 0x10101010#32 s.calActive = true) := by decide +kernel

/-- A placed gang, its thread at a word of a block that is not uniform; a draining one that has become quiet. -/
def running : State :=
  lab false false id id fun s => { memory s with runs := s.runs.map fun r => { r with uniform := false, key := 8, idx := 3, words := [0, 0, 0, 0] } }

def draining (world : Nat) : State :=
  idle (placed (.waiting 4 .ready)) id fun s =>
    { memory s with
      gangs := s.gangs.map fun g => { g with status := .draining, banks := 1 }
      launches := s.launches.map fun l => { l with world := world } }

def gangOf (s : State) : Gang := s.gangs.headD (placedGang 0 0)

/-- 5 µs for partition 1, then 5 µs for partition 2, on a quad that holds a gang of partition 1, 7 µs after the start. -/
def sliced (quad : Nat) : State :=
  { running with
    ns := 7000, cfg := [(0x03000000 + 4 * quad, 0x151), (0x03000000 + 4 * quad + 1, 0x152)]
    gangs := running.gangs.map fun g => { g with quad := quad } }

theorem witness_GangEventsComplete_preempt :
    (let s := running; let g := gangOf s; s.gang? g.uid = some g ∧ g.status = .placed ∧ s.waveGang g = false ∧ s.twinGang g = none ∧ s.barriers = [] ∧
      ∀ r ∈ s.runs, s.runs.filter (fun q => decide (q.wg = (wgOf s).uid)) = [r] ∧ (wgOf s).gang = g.uid ∧ r.uniform = false ∧ r.parked = [] ∧
        s.sole (wgOf s) (threadOf s) ∧ threadOf s ∈ r.everyone (wgOf s)) ∧
    (∀ world ∈ [0, 1], let s := draining world; let g := gangOf s;
      s.gang? g.uid = some g ∧ g.status = .draining ∧ s.drained g.uid = true ∧ s.twinGang g = none ∧ Memory.wf s.mem = true ∧ s.only (wgOf s) ∧ (wgOf s).gang = g.uid ∧
      (wgOf s).status = .resident ∧ s.gangWorld g = world) ∧
    (∀ quad ∈ [0, 191], let s := sliced quad; let g := gangOf s;
      quad < 192 ∧ Table.wf 0 s.slice = true ∧ (s.sliceList quad)[1]? = some (0x152#32) ∧ 1 = s.sliceDue (s.sliceList quad) ∧
        1 ≠ Table.get 0 s.slice quad ∧ s.gang? g.uid = some g ∧ g.quad = quad ∧ g.status = .placed ∧
        Tag.part (s.gangTag g.uid) = 1 ∧ (0x152#32).extractLsb' 0 4 = 2#4) ∧
    (let s : State := bench; let g := gangOf s; let v : State := { s with launches := s.launches.map fun l => { l with wave := true } };
      v.gang? g.uid = some g ∧ v.waveGang g = true) ∧
    (let s := idle (placed (.waiting 4 .ready)) id fun s =>
        { s with ns := 3005, launches := s.launches.map fun l => { l with startNs := some 5, tlimit := 3 } };
      ∀ l ∈ s.launches, s.launch? l.id = some l ∧ l.startNs = some 5 ∧ l.wave = false ∧ l.ended = 0 ∧ 5 + 1000 * l.tlimit ≤ s.ns ∧ s.barriers = [] ∧
        s.only (wgOf s) ∧ (wgOf s).launch = l.id ∧ (wgOf s).status = .resident) := by
  unfold State.sole State.only; decide +kernel

/-- A gang of partition 1 that still runs in partition 2's slice. -/
theorem witness_GangEventsComplete_foreign : let s : State := { sliced 0 with slice := [(0, 1)] };
    1 = Table.get 0 s.slice 0 ∧ (s.foreignOn 0).isEmpty = false ∧ Table.wf 0 s.slice = true ∧ (s.sliceList 0)[1]? = some (0x152#32) ∧
      1 = s.sliceDue (s.sliceList 0) := by decide +kernel

/-! Tenants: partition 1 may hold banks, cores and frames; bank 9, core 5 and 128 frames from 128 on are in its holding, bank 8 and frame 300
too; tenant 1 owns bank 0. -/

def estate : State :=
  idle id id fun s =>
    let s := owning s
    { s with
      tags := [(2 ^ 32 + 5, Tag.make 1 0xFFF 0), (2 * 2 ^ 32, Tag.make 1 1 1), (2 * 2 ^ 32 + 9, Tag.make 1 0xFFF 0), (5 * 2 ^ 32, Tag.make 1 1 1)]
      fot := [(0, (Tag.make 1 1 1).setWidth 32 ||| 0x70000000)] ++ ((List.range 128).map fun i => (128 + i, (Tag.make 1 0xFFF 0).setWidth 32 ||| 0x70000000)) ++
        [(300, (Tag.make 1 0xFFF 0).setWidth 32 ||| 0x70000000)]
      cfg := [(0x01000008, 0x10001), (0x01000009, 0x20), (0x0100000A, 4), (0x0100000C, 0x400), (0x0100000D, 8), (0x0100000F, 64)]
      tenants := [someTenant], sessions := [⟨0, 0, true⟩, ⟨1, 1, true⟩] }

/-- A descriptor of R319: a wave of one thread with four registers on core 5, its rings in frame 128, its repossession area from 140 on. -/
def descBytes : List Byte :=
  leBytes 0x100 8 ++ leBytes 1 2 ++ [4, 8] ++ leBytes 5 2 ++ leBytes 0 2 ++ leBytes 0x800000 8 ++ leBytes 0x801000 8 ++ leBytes 0x801400 8 ++
    leBytes 140 4 ++ leBytes 71 4 ++ leBytes 0x1234 8 ++ leBytes 0 8

def aCreate : CreateReq := ⟨1, descBytes, [⟨⟨1, 5, none⟩, 0, 7#3⟩, ⟨⟨6, 128, some 2⟩, 0, 7#3⟩]⟩

/-- The sessions of partitions 0 and 1 that the firmware has open, and a data session, over which no request comes. -/
theorem witness_TenantEventsComplete_sessions : estate.managed 0 = true ∧ estate.managed 1 = true ∧ estate.managed 2 = false ∧
    ({ estate with sessions := [⟨0, 0, false⟩] } : State).managed 0 = false ∧ estate.grantStatus ⟨2, 9, none⟩ 1 ≠ 0 := by decide +kernel

theorem witness_TenantEventsComplete_units :
    (1 ≤ 2 ∧ 2 ≤ 9 ∧ 2 ≠ 6 ∧ 9 < maxId 2) ∧ Table.wf unboundTag estate.tags = true ∧ Table.wf 0#8 estate.seizures = true ∧
    (estate.grantStatus ⟨2, 7, none⟩ 1 = 0 ∧ estate.unitQuiet 2 7 1 = true) ∧
    (estate.partValid 0 = true ∧ estate.inHolding 0 2 9 1 = false ∧ Tag.num (estate.tagGet 2 9) = 0xFFF ∧ estate.unitLive 2 9 = true ∧
      estate.unitQuiet 2 9 1 = true) ∧
    (let t := Tag.make 1 1 1; estate.partValid (Tag.part t) = true ∧ estate.tenantLives t = true ∧
      estate.bindStatus ⟨⟨2, 9, none⟩, 0, 7⟩ (Tag.part t) = 0 ∧ estate.partValid 2 = false ∧ Tag.part t ≠ 2 ∧
      (300 < maxId 6 ∧ Table.wf 0x000FFF00#32 estate.fot = true ∧ (estate.fotGet 300).getLsbD 31 = false ∧
        estate.bindStatus ⟨⟨6, 300, none⟩, 15, 7⟩ (Tag.part t) = 0 ∧ estate.unitQuiet 6 300 1 = true)) := by decide +kernel

theorem witness_TenantEventsComplete_create : estate.createStatus aCreate = 0 ∧ (∀ b ∈ aCreate.binds, estate.bindQuiet b = true) ∧
    estate.freeNumber aCreate.part = some 2 := by decide +kernel

def askFor (k : Nat) : RecallReq := ⟨1, Tag.make 1 1 1, k, 1, [], 0, false⟩

/-- The tenant without a launch, with a request waiting and a recall past its deadline, of a bank it has or of a unit it has none of. -/
def recalled (k : Nat) : State :=
  { estate with
    ns := 1000, tags := (2 ^ 32, Tag.make 1 1 1) :: estate.tags
    launches := [], gangs := [], wgs := []
    tenants := [{ someTenant with waiting := [askFor 2], recalls := [{ aRecall 5 1 with kind := k }] }] }

def tenantOf (s : State) : Tenant := s.tenants.headD someTenant

theorem witness_TenantEventsComplete_recalls : let s := recalled 2; let x := tenantOf s;
    s.tenant? x.tag = some x ∧ ((askFor 2).tenant = x.tag ∧ s.recallStatus (askFor 2) = 0) ∧
    (x.waiting = [askFor 2] ∧ x.recalls.length < 16 ∧ Memory.wf s.mem = true ∧ s.writable x.recallRing 1024 ∧ s.writable x.notice 64 ∧
      x.recallRing + 1024 ≤ x.notice) ∧
    (Table.wf unboundTag s.tags = true ∧ Table.wf 0#8 s.seizures = true ∧ s.partValid 0 = true ∧ x.notice + 64 ≤ 2 ^ 52 ∧
      s.checkTag x.tag 2 0 = true ∧ s.unitLive 2 0 = true ∧ s.unitQuiet 2 0 1 = true) ∧
    (∀ k ∈ [2, 7], let s := recalled k; let x := tenantOf s; let r : Recall := { aRecall 5 1 with kind := k };
      (x.recalls.find? fun q => decide (q.seq = r.seq)) = some r ∧ r.deadline ≤ s.ns ∧
        if k = 7 then s.choosable x r = [] else s.nextSeize x r = some 0) ∧
    (x.wave = none ∧ s.checkTag x.tag 1 x.core = true ∧ (s.die? (x.core / 384)).endp = .attached ∧ s.launch? ((s.launchSeq + 1) % 2 ^ 32) = none) := by
  simp only [writable_iff]
  refine ⟨?_, ?_, ?_, ?_, ?_, ?_⟩ <;> decide +kernel

theorem witness_TenantEventsComplete_destroy : let s := recalled 2; let x := tenantOf s;
    s.tenant? x.tag = some x ∧ s.mayAsk false 2 x.tag = false ∧ s.mayAsk true 0 x.tag = true ∧ (∀ l ∈ s.launches, l.tenant ≠ x.tag) ∧
    (∀ q ∈ s.queues, q.owner ≠ x.tag) ∧ s.tenantQuiet x.tag = true ∧ ∀ u ∈ s.allUnits x.tag, s.unitLive u.1 u.2 = true := by decide +kernel

/-- Frame 0 for a tenant of device 1023, not exported and exported. -/
def anExport : ExportReq := ⟨1, 0, none, 1023, Tag.make 3 1 1, 7#3⟩

theorem witness_TenantEventsComplete_exports :
    let entry : RemoteOwn := ⟨anExport.frame, anExport.z, anExport.tenant, anExport.rwx, anExport.dev⟩
    ∀ rs ∈ [[], [entry]], let s := { estate with remoteOwn := rs };
      s.partValid anExport.part = true ∧ anExport.dev < 1024 ∧ s.exportable anExport = true ∧ s.underCeiling anExport.frame anExport.rwx = true ∧
      (entry ∈ s.remoteOwn ↔ rs ≠ []) ∧ s.remoteOwn.length < 16384 ∧ anExport.frame < 12582912 ∧
      Tag.part (s.tagGet 6 anExport.frame) = anExport.part := by decide +kernel

/-! Other devices, links and pods. -/

/-- Frame 0 is exported to tenant 1 of partition 3 on device 5, frame 128 too, which belongs to world 2. -/
def exported : State :=
  { estate with
    fot := [(0, (Tag.make 1 1 1).setWidth 32 ||| 0x70000000), (128, (Tag.make 1 1 1).setWidth 32 ||| 0x72000000)]
    remoteOwn := [⟨0, none, Tag.make 3 1 1, 7#3, 5⟩, ⟨128, none, Tag.make 3 1 1, 7#3, 5⟩], mem := [⟨0x100, 1⟩] }

def remoteRead (off : Nat) : RemoteReq := ⟨5, Tag.make 3 1 1, 0, off, 4, .read, none⟩

/-- Beside a die that is ABSENT, a frame that is not exported, one of another world, one that answers. -/
theorem witness_RemoteEventsComplete_requests : exported.island = .joined ∧
    (∀ p ∈ [(65536 * 6291456, false, false, true), (0x10000, true, false, true), (128 * 65536, true, true, false), (0, true, true, true), (0x100, true, true, true)],
      let r := remoteRead p.1; let s := exported;
      decide (s.frozen = none ∧ (s.die? (r.off / 65536 / 6291456)).endp = .attached) = p.2.1 ∧
      s.remotePasses r.dev r.tag r.off r.size .r = p.2.2.1 ∧ r.world = 0 ∧ (p.2.1 = true → s.sliceAnswers r.world r.off = p.2.2.2)) ∧
    (let s := { exported with frozen := some 5 }; let r := remoteRead 0x100; (s.die? (r.off / 65536 / 6291456)).endp = .attached ∧
      s.remotePasses r.dev r.tag r.off r.size .r = true ∧ s.frozen ≠ none) ∧
    (let w : RemoteReq := { remoteRead 0x100 with op := .write [1, 2, 3, 4] };
      exported.remotePasses w.dev w.tag w.off 4 .w = true ∧ exported.sliceAnswers w.world w.off = true ∧ Memory.wf exported.mem = true) := by
  decide +kernel

/-- An address of another device, or of this one's own number where nothing is exported, is not served here. -/
theorem home_elsewhere {s : State} {quad : Nat} {tag : Tag} {k : AccKind} {a size b : Nat} (h : regionOf a = 1) (hr : s.remoteOwn = []) :
    s.homeOf quad tag k a size ≠ .here b := by
  unfold State.homeOf
  rw [h]
  have hp : ∀ dev off, s.remotePasses dev tag off size k = false := fun dev off => by simp [State.remotePasses, hr]
  simp only [hp, Bool.false_eq_true, and_false, not_false_eq_true, if_true]
  (repeat' split) <;> simp

/-- An access of the thread to a device's memory. -/
def farFlight (acc : Access) : Flight := { flightOf acc with loc := .mem (2 ^ 50 + 7 * 2 ^ 40 + 128) }

def farAway (e : EndState) (acc : Access) : State :=
  { flying acc with flights := [farFlight acc], die0 := { (flying acc).die0 with endp := e } }

/-- It is served whatever this device's number is: no route to another is loaded, and nothing is ahead of it at a slice. -/
theorem far_served : ∀ e ∈ [EndState.attached, .detaching], ∀ acc ∈ [Access.load true, .store],
    (farAway e acc).flightServed (wgOf (farAway e acc)) (farFlight acc) = true := by
  intro e he acc h
  have hd : remoteDev (2 ^ 50 + 7 * 2 ^ 40 + 128) = none ∨ remoteDev (2 ^ 50 + 7 * 2 ^ 40 + 128) = some 7 := by
    unfold remoteDev
    split
    · exact .inr (by decide +kernel)
    · exact .inl rfl
  have hl : (farAway e acc).locServed (wgOf (farAway e acc)) (farFlight acc).loc = true := by
    show (farAway e acc).served _ _ (2 ^ 50 + 7 * 2 ^ 40 + 128) = true
    unfold State.served
    rcases hd with hd | hd <;> rw [hd] <;> revert e acc <;> decide +kernel
  have hb : (farAway e acc).sliceBehind (farFlight acc) = false := by simp [State.sliceBehind, farAway]
  simp [State.flightServed, hl, hb]

/-- On an installation that reaches device 7 over link 5 only, an access to it takes a lane of that link first. -/
theorem witness_AccessesPerformed_lane (hd : Config.devNumber.toNat ≠ 7) (hr : Config.route 7 = [5]) :
    let s := { farAway .attached .store with routesLoaded := true, linkUp := List.replicate 18 true }
    (farFlight .store).isNext s (wgOf s) (threadOf s) ∧ s.isCancelled (wgOf s) (farFlight .store) = false ∧
      (s.lanesFirst (wgOf s) (farFlight .store)).isSome = true := by
  intro s
  have hdev : remoteDev (2 ^ 50 + 7 * 2 ^ 40 + 128) = some 7 := by
    unfold remoteDev
    rw [if_pos ⟨by decide, by simpa using Ne.symm hd⟩, show (2 ^ 50 + 7 * 2 ^ 40 + 128) / 2 ^ 40 % 1024 = 7 from by decide]
  have hl : s.linksTo 7 = [5] := by unfold State.linksTo; rw [hr]; decide +kernel
  have hu : s.unroutable 7 = false := by unfold State.unroutable; rw [hl]; decide +kernel
  have ho : s.ownLink 7 = some 5 := by unfold State.ownLink; rw [hl]; decide +kernel
  have hsend : ∃ l, s.sendLane (s.tagOf (wgOf s)) 7 = some l := by
    rw [← Option.isSome_iff_exists]; unfold State.sendLane; rw [ho]; decide +kernel
  obtain ⟨l, hs⟩ := hsend
  refine ⟨isNext_of (by decide +kernel) ?_, by decide +kernel, ?_⟩
  · have hv : s.locServed (wgOf s) (.mem (2 ^ 50 + 7 * 2 ^ 40 + 128)) = true := by
      show s.served _ _ (2 ^ 50 + 7 * 2 ^ 40 + 128) = true
      unfold State.served
      rw [hdev]
      simp only [Option.all_some, hs, Option.isSome_some, Bool.or_true, Bool.and_true]
      decide +kernel
    have hb : s.sliceBehind (farFlight .store) = false := by simp [State.sliceBehind, s, farAway]
    unfold State.flightServed
    rw [hb, show (farFlight .store).loc = .mem (2 ^ 50 + 7 * 2 ^ 40 + 128) from rfl, hv]
    simp
  · unfold State.lanesFirst
    simp only [farFlight, flightOf, hdev, Option.bind_some, hu, Bool.false_eq_true, if_false, hs, Option.isSome_some]

theorem witness_RemoteEventsComplete_refusals : ∀ e ∈ [EndState.attached, .detaching], ∀ acc ∈ [Access.load true, .store], let s := farAway e acc;
    (farFlight acc).isNext s (wgOf s) (threadOf s) ∧ (farFlight acc).loc = .mem (2 ^ 50 + 7 * 2 ^ 40 + 128) ∧
    regionOf (2 ^ 50 + 7 * 2 ^ 40 + 128) = 1 ∧ (s.logsBefore (wgOf s) (farFlight acc) = false ∧
      s.isCancelled (wgOf s) (farFlight acc) = decide (e = .detaching)) ∧
    ∀ quad tag, s.homeOf quad tag .a (2 ^ 50 + 7 * 2 ^ 40 + 128) 4 ≠ .here ((2 ^ 50 + 7 * 2 ^ 40 + 128) % 2 ^ 40) := by
  intro e he acc h s
  have hr : s.remoteOwn = [] := rfl
  exact ⟨isNext_of (by clear hr; revert e acc; decide +kernel) (far_served e he acc h), rfl, by decide, by clear hr; revert e acc; decide +kernel,
    fun quad tag => home_elsewhere (by decide) hr⟩

/-- A packet for some other device with its last hop taken, or with hops to go where no routes are loaded; where routes are loaded, the
installation's table decides whether there is a way (log 6). -/
theorem witness_RemoteEventsComplete_packets : ∃ p : Packet, p.target ≠ Config.devNumber.toNat ∧ p.hops = 3 ∧
    ({ p with hops := 2 } : Packet).hops < 3 ∧ exported.island = .joined ∧ exported.routesLoaded = false := by
  by_cases h : Config.devNumber.toNat = 0
  · exact ⟨⟨0, 0, 1, 0, 3, 0, 1, [], none⟩, by rw [h]; decide, by decide +kernel⟩
  · exact ⟨⟨0, 0, 0, 0, 3, 0, 1, [], none⟩, fun e => h e.symm, by decide +kernel⟩

theorem witness_RemoteEventsComplete_links :
    (17 < 18 ∧ 3 < 4 ∧ (17, 3) ∉ exported.stopped) ∧ 17 < exported.linkUp.length ∧
    (exported.die1.endp ≠ .attached) ∧
    (let s := { exported with lostRoutes := [(1023, 5)], ns := 20005 }; (1023, 5) ∈ s.lostRoutes ∧ 5 + 20000 ≤ s.ns) := by decide +kernel

/-- A pod of three devices that two have joined, 100 ms after the first; a launch that names it. -/
def podding : State :=
  { exported with
    podRegs := [⟨9, 3, [1, 2], 5⟩], ns := 100000005, launches := exported.launches.map fun l => { l with podid := 9 } }

theorem witness_RemoteEventsComplete_pods : (9#32 ≠ 0#32 ∧ 10#32 ≠ 0#32) ∧ (∀ r ∈ podding.podRegs, r.podid ≠ 10#32) ∧
    ((podding.podRegs.find? fun r => decide (r.podid = 9#32)) = some ⟨9, 3, [1, 2], 5⟩ ∧ 7 ∉ [1, 2] ∧ [1, 2].length < 3 ∧
      5 + 100000000 ≤ podding.ns) ∧
    ∀ l ∈ podding.launches, podding.launch? l.id = some l ∧ l.podid = 9#32 ∧ l.ended = 0 := by decide +kernel

/-! Worlds, keys and the lock. -/

theorem witness_WorldEventsComplete_latch : ∀ p ∈ [(0, 15), (95, 1)], let s := estate;
    p.1 < 192 ∧ p.2 < 16 ∧ s.latch p.1 ≠ p.2 ∧ ({ s with gangs := [] } : State).quadEmpty p.1 = true ∧ Table.get 0 s.reserved p.1 = 0 ∧
    (s.die? (p.1 / 96)).endp = .attached ∧ List.Pairwise (· < ·) (s.cfg.map fun e => e.1) := by decide +kernel

/-- World `w` with its key in a state, allowed by the policy, with a gang on quad 0 that is placed, draining or gone; its frame 4. -/
def worldLab (w : Nat) (k : KeySlot) (gs : GangStatus) : State :=
  let s := idle (placed (.waiting 4 .ready)) id owning
  { s with
    keySlots := s.keySlots.set w k, revoked := [w]
    cfg := [(0x07000000, BitVec.ofNat 32 w), (0x0D000000, BitVec.ofNat 32 (2 ^ w))]
    fot := [(4, (Tag.make 1 1 1).setWidth 32 ||| 0x70000000 ||| BitVec.ofNat 32 (w * 2 ^ 24))]
    mem := [⟨4 * 65536 + 1, 9⟩]
    gangs := s.gangs.map fun g => { g with status := gs, sealedEpoch := some 0 }
    launches := s.launches.map fun l => { l with world := w } }

theorem witness_WorldEventsComplete_keys : ∀ w ∈ [1, 15],
    (let s := worldLab w .empty .retired; s.keySlots[w]? = some .empty ∧ (s.cfgGet 0x0D000000).getLsbD w = true ∧ w ∈ s.revoked ∧
      w ∉ ({ s with revoked := [] } : State).revoked ∧ 4 ∈ s.worldFrames w) ∧
    (let s := worldLab w .active .placed; s.keySlots[w]? = some .active ∧ s.gang? (gangOf s).uid = some (gangOf s) ∧
      s.latch (gangOf s).quad = w ∧ (gangOf s).status = .placed) ∧
    (let s := worldLab w .revoking .retired; s.keySlots[w]? = some .revoking ∧
      ∀ g ∈ s.gangs, s.latch g.quad = w → g.status ≠ .placed ∧ g.status ≠ .draining) := by decide +kernel

/-- The firmware's session for partition 0, and the key of a session for an activation agreed over it, or not yet. -/
def activating (w : Nat) (agreed : Bool) : State :=
  { worldLab w .empty .retired with
    sessions := [⟨0, 0, true⟩], quoted := true, quoting := true, agreed := if agreed then [w] else [], agenda := [.agreeKey w] }

theorem witness_WorldEventsComplete_activation : ∀ w ∈ [1, 15],
    (activating w false).agenda = [.agreeKey w] ∧ (activating w false).managed 0 = true ∧ (activating w false).quoted = true ∧
    w ∉ (activating w false).agreed ∧ (worldLab w .empty .retired).managed 0 = false ∧
    (let s := activating w true; s.managed 0 = true ∧ w ∈ s.agreed ∧ s.keySlots[w]? = some .empty ∧ (s.cfgGet 0x0D000000).getLsbD w = true) := by
  intro w hw
  exact ⟨rfl, by revert w; decide +kernel⟩

theorem witness_WorldEventsComplete_gangs :
    (∀ gs ∈ [GangStatus.placed, .draining], let s := worldLab 1 .active gs; let g := gangOf s;
      s.gang? g.uid = some g ∧ s.gangWorld g ≠ 0 ∧ s.waveGang g = false ∧ g.status = gs ∧ (gs = .draining → s.drained g.uid = true) ∧
      g.sealedEpoch = some (Table.get 0 s.epochs (4 * g.uid))) := by decide +kernel

/-- An entry that maps frame 4. -/
def reaching : TEntry := ⟨Tag.make 1 1 1, 0, 1, true, true, true, 0, 4 * 65536, false⟩

/-- A frame and a world, prepared at epoch 0. -/
def heldOver (c : Ctx) : State :=
  let s := worldLab 1 .active .retired
  { s with
    sealedCtxs := [⟨c, 1, 0, [(4 * 65536 + 1, 9)], [], if c = .world 1 then s.gangs else [], []⟩], tlb := [(0, some { reaching with leaving := true })] }

/-- Nothing reaches it any more; or an access under way does, through the entry that maps it. -/
theorem witness_WorldEventsComplete_still : ∀ c ∈ [Ctx.frames 4 1, .world 1], (heldOver c).ctxStill c 1 = true ∧
    ∀ busy ∈ [false, true], let s := { worldLab 1 .active .retired with
        tlb := [(0, some reaching)], flights := if busy then [{ flightOf .store with loc := .mem (4 * 65536) }] else [] };
      s.ctxStill c 1 = false ∧ (s.setLeaving (fun _ t => s.mapsCtx c t) true).ctxStill c 1 = !busy := by decide +kernel

/-- Images at the ends of what is accepted: of a gang, of a frame whose contents are here, and one whose epoch has not come. -/
theorem witness_WorldEventsComplete_contexts :
    (∀ c ∈ [Ctx.frames 4 1, .world 1], (∀ g, c ≠ .gang g) ∧ (heldOver c).ctxWorld c = some 1 ∧ (heldOver c).hasKey 1 = true ∧
      (heldOver c).worldGangs 1 = [] ∧ ((heldOver c).sealedAt c (Table.get 0 (heldOver c).epochs (ctxKey 1 c))).isSome = true) ∧
    (let i : SealedImage := ⟨1, .gang 0, 0⟩; let s := { worldLab 1 .active .saved with epochs := [(ctxKey 1 (.gang 0), 1)] };
      1 ≤ i.world ∧ s.hasKey i.world = true ∧ i.epoch + 1 = Table.get 0 s.epochs (ctxKey i.world i.ctx) ∧ (ctxKey i.world i.ctx, i.epoch) ∉ s.consumed ∧
      (∀ g ∈ s.gangs, s.gang? 0 = some g ∧ s.gangWorld g = i.world ∧ g.sealedEpoch = some i.epoch) ∧ s.sealedAt i.ctx i.epoch = none) ∧
    (let i : SealedImage := ⟨1, .frames 4 1, 0⟩; let s := { heldOver i.ctx with epochs := [(ctxKey 1 i.ctx, 1)] };
      s.hasKey i.world = true ∧ i.epoch + 1 = Table.get 0 s.epochs (ctxKey i.world i.ctx) ∧ (ctxKey i.world i.ctx, i.epoch) ∉ s.consumed ∧
      (s.sealedCtxs.find? fun x => decide (x.ctx = i.ctx)) = some ⟨i.ctx, 1, 0, [(4 * 65536 + 1, 9)], [], [], []⟩ ∧
      s.sealedAt i.ctx i.epoch = some ⟨i.ctx, 1, 0, [(4 * 65536 + 1, 9)], [], [], []⟩ ∧ Memory.wf s.mem = true) ∧
    ¬ (2 : Nat) + 1 = Table.get 0 (heldOver (.world 1)).epochs (ctxKey 1 (.world 1)) := by
  refine ⟨fun c hc => ?_, by decide +kernel, by decide +kernel, by decide +kernel⟩
  simp only [List.mem_cons, List.not_mem_nil, or_false] at hc
  rcases hc with rfl | rfl <;> exact ⟨by simp, by decide +kernel⟩

/-- A reserved bit; the lock set, opened with and without guests' work, and left as it is; a calendar word within its quota, and one with a
reserved bit. -/
theorem witness_WorldEventsComplete_registers :
    (estate.island = .joined ∧ (List.replicate 32 (0 : Byte)).length = 32 ∧ (∃ x ∈ estate.sessions, x.management = true)) ∧
    (({ estate with quoting := true } : State).answersQuotes = true ∧ ({ estate with quoting := false } : State).answersQuotes = false) ∧
    ((2#32).extractLsb' 1 15 ≠ 0#15 ∧ (1#32).extractLsb' 1 15 = 0#15 ∧ (estate.cfgGet 0x05000000).getLsbD 0 = false) ∧
    (let s := { estate with cfg := [(0x05000000, 1)] }; (s.cfgGet 0x05000000).getLsbD 0 = true ∧ s.guestWork = true ∧
      ({ s with gangs := [] } : State).guestWork = false) ∧
    (0 < 2 ∧ 63 < 64 ∧ estate.calOk 0 0 63 0x10101010 = true ∧
      estate.calOk 0 0 0 0x80101010 = false) := by decide +kernel

/-! The island, its dies and the host port. -/

theorem witness_DeviceEventsComplete_supply :
    ({ State.reset with island := .off } : State).island = .off ∧ (State.reset.island = .boot ∧ State.reset.booting = none) ∧
    ({ State.reset with booting := some (false, true) } : State).booting = some (false, true) ∧
    (∀ slot, State.reset.fused ≤ Config.imageVersion slot) ∧
    (State.reset.island ≠ .off ∧ State.reset.die0.endp = .absent ∧ State.reset.die1.endp = .absent) ∧ bench.die0.endp ≠ .absent :=
  ⟨rfl, by decide +kernel, rfl, fun _ => Nat.zero_le _, by decide +kernel⟩

/-- A die fails while it is brought up or reset; a collective of a launch that a die's loss ends. -/
theorem witness_DeviceEventsComplete_fails : ∀ g ∈ [DieStage.bringUp, .resetting],
    let s := { bench with agenda := [.dieFails 0], die0 := { bench.die0 with endp := .absent, stage := g } };
    s.agenda = [.dieFails 0] ∧ (s.die? 0).stage ≠ .none ∧ (s.die? 0).endp = .absent ∧ (∀ x ∈ s.tenants, x.owedLoss = 0) := by
  intro g hg s
  exact ⟨rfl, by revert g; decide +kernel⟩

theorem witness_DeviceEventsComplete_collective : let s := collecting id .counted;
    (s.colls.map fun c => c.id).Nodup ∧ (∃ c ∈ s.colls, c.launch = 0 ∧ c.stage = .counted) ∧ (s.die? 0).endp = .attached ∧
      ∀ l ∈ s.launches, ∀ g ∈ s.gangs, s.launch? l.id = some l ∧ l.id = 0 ∧ l.ended = 0 ∧ g.launch = l.id ∧ g.quad / 96 = 0 ∧ g.status = .placed := by
  decide +kernel

/-- Die 0 joins beside a die that is ABSENT or DETACHING; it is attached, and hot; it has detached for 100 µs with nothing in flight. -/
theorem witness_DeviceEventsComplete_dies :
    (∀ e ∈ [EndState.absent, .detaching], let s := { bench with die0 := { bench.die0 with endp := .absent }, die1 := { bench.die1 with endp := e } };
      s.island = .joined ∧ (s.die? 0).endp = .absent ∧ (s.die? 1).endp = e) ∧
    (let s := { bench with die0 := { bench.die0 with hot := 10 } }; (s.die? 0).endp = .attached ∧ 10 ≤ (s.die? 0).hot ∧
      ∀ l ∈ s.launches, ∀ g ∈ s.gangs, s.launch? l.id = some l ∧ l.ended = 0 ∧ g.launch = l.id ∧ g.quad / 96 = 0 ∧ g.status = .placed) ∧
    (let s := { bench with die0 := { bench.die0 with endp := .detaching, since := 5 } };
      (s.die? 0).endp = .detaching ∧ s.cancelled 0 = true ∧ ({ s with ns := 100005 } : State).ns = 5 + 100000) := by decide +kernel

/-- Running and frozen; a quad of world 0 and one of a protected world. -/
theorem witness_DeviceEventsComplete_freeze :
    (bench.managed 0 = false ∧ ({ bench with sessions := [⟨0, 0, true⟩] } : State).managed 0 = true) ∧
    (bench.frozen = none ∧ (bench.die? (0 / 96)).endp ≠ .absent ∧ bench.latch 0 = 0) ∧
    (let s := worldLab 1 .active .placed; s.frozen = none ∧ (s.die? (0 / 96)).endp ≠ .absent ∧ s.latch 0 ≠ 0 ∧ (s.cfgGet 0x0D000000).getLsbD 16 = false) ∧
    ({ bench with frozen := some 5 } : State).frozen = some 5 ∧ List.Pairwise (· < ·) (estate.cfg.map fun e => e.1) := by decide +kernel

/-- A management session in SAFE; a data session beside 63 others; a window of the longest size for a session that is open, one that
nothing uses, and a session without windows. -/
theorem witness_DeviceEventsComplete_sessions :
    (let s := { estate with island := .safe, sessions := [] }; s.island = .safe ∧ s.partValid 1 = true ∧ s.sessions = []) ∧
    (let s := { estate with sessions := (List.range 63).map fun i => ⟨i, 1, false⟩ };
      s.island = .joined ∧ (∀ x ∈ s.sessions, x.id ≠ 63) ∧ (s.sessions.filter fun x => decide (x.part = 1) && decide (x.management = false)).length < 64) ∧
    (let s := { estate with sessions := [⟨9, 1, false⟩] };
      1023 < 1024 ∧ (2 ^ 40 : Nat) ≤ 2 ^ 40 ∧ (s.tenant? (Tag.make 1 1 1)).isSome = true ∧ (∀ w ∈ s.windows, w.1 ≠ 1023) ∧
      ⟨9, Tag.part (Tag.make 1 1 1), false⟩ ∈ s.sessions) ∧
    (let s := { estate with windows := [(1023, ⟨Tag.make 1 1 1, 4096, 9⟩)], sessions := [⟨9, 1, false⟩, ⟨8, 1, false⟩] };
      (s.fenceWindow 1023).windowUsed 1023 = false ∧ ∀ w ∈ s.windows, w.2.sess ≠ 8) := by decide +kernel

/-- A thread of the window's tenant loads from it. -/
def hostLoad : State :=
  { flying (.load false) with
    windows := [(1023, ⟨Tag.make 1 1 1, 4096, 9⟩)], sessions := [⟨9, 1, false⟩]
    flights := [{ flightOf (.load false) with loc := .mem (2 ^ 51 + 1023 * 2 ^ 40) }] }

theorem witness_DeviceEventsComplete_window : (hostLoad.fenceWindow 1023).windowUsed 1023 = true ∧ hostLoad.island = .joined ∧
    ({ hostLoad with island := .safe } : State).island ≠ .joined ∧ (∃ x ∈ hostLoad.sessions, x.id = 9) ∧ (∀ x ∈ hostLoad.sessions, x.id ≠ 8) ∧
    ∀ f ∈ hostLoad.flights, f.done = false ∧ f.acc = .load false ∧ f.loc = .mem (2 ^ 51 + 1023 * 2 ^ 40) ∧ regionOf (2 ^ 51 + 1023 * 2 ^ 40) = 2 ∧
      (2 ^ 51 + 1023 * 2 ^ 40) / 2 ^ 40 % 1024 = 1023 ∧ ∃ w ∈ hostLoad.windows, w.1 = 1023 ∧ w.2.sess = 9 := by decide +kernel

/-- A message from the first core of the firmware to the last, and one that waits there. -/
theorem witness_DeviceEventsComplete_mail : (List.replicate 64 (0 : Byte)).length = 64 ∧ (0 : Nat) ≠ 7 ∧
    ({ bench with agenda := [.sendMail 0 7 (List.replicate 64 0)] } : State).agenda = [.sendMail 0 7 (List.replicate 64 0)] ∧
    ({ bench with agenda := [.takeMail 0 7] } : State).agenda = [.takeMail 0 7] ∧
    (({ bench with mail := [⟨0, 7, [1]⟩] } : State).mail.filter fun m => decide (m.sender = 0 ∧ m.receiver = 7)) = [⟨0, 7, [1]⟩] :=
  ⟨by decide, by decide, rfl, rfl, by decide⟩

theorem witness_DeviceEventsComplete_errors : (⟨0, true, 0, 0⟩ : HopError).hop < 9 ∧ (⟨8, false, 0, 0⟩ : HopError).hop < 9 ∧
    (⟨5, false, 0, 0⟩ : HopError).hop ∈ [1, 3, 4, 5] := by decide

/-! The record writers. -/

def aRecord : FaultRec :=
  { cause := 1, cls := 2, chunk := 0, slot := 0, core := 0, quad := 0, launch := 0, fpc := 0x10, finfo := 7, tag := Tag.make 1 1 1, addr := 0, mask := 1 }

/-- A record waits for the tenant, whose ring is empty or full; another for its partition's mailbox in frame 0, with room or without. -/
def recording (seq : Nat) : State :=
  { estate with
    tenants := [{ someTenant with pendFaults := [aRecord], faultSeq := seq, ctrs := List.replicate 8 ⟨0x20, 1, 0, 1023, none⟩ }]
    cfg := estate.cfg ++ [(0x04000001, 0)], pendDebug := [(1, aRecord)]
    mem := Memory.writeAll [] 0x10 (leBytes seq 4) }

theorem witness_RecordEventsComplete_faults : ∀ seq ∈ [0, 63, 64], let s := recording seq; let x := tenantOf s;
    s.tenant? x.tag = some x ∧ x.pendFaults = [aRecord] ∧ Memory.wf s.mem = true ∧ s.writable x.faults 4096 ∧ s.writable x.notice 64 ∧
    (x.faultSeq % 2 ^ 32 + 2 ^ 32 - leNat (Memory.bytes s.mem (x.notice + 48) 4)) % 2 ^ 32 = seq ∧ x.faults + 4096 ≤ x.notice := by
  simp only [writable_iff]; decide +kernel

/-- The ring lies beside a die that is ABSENT. -/
theorem witness_RecordEventsComplete_out : let s := { recording 0 with die0 := { (recording 0).die0 with endp := .absent } }; let x := tenantOf s;
    s.tenant? x.tag = some x ∧ x.pendFaults = [aRecord] ∧ s.hbmOut x.faults = true := by decide +kernel

theorem witness_RecordEventsComplete_debug : ∀ seq ∈ [0, 30, 31], let s := recording seq;
    takePart 1 s.pendDebug = some (aRecord, []) ∧ s.mailboxOf aRecord.tag ≠ none ∧ Memory.wf s.mem = true ∧
    ((s.cfgGet (0x04000000 + 1)).extractLsb' 0 24).toNat * 65536 = 0 ∧ s.writable 0 2048 ∧
    (leNat (Memory.bytes s.mem 0x10 4) + 2 ^ 32 - leNat (Memory.bytes s.mem 0x14 4)) % 2 ^ 32 = seq := by
  simp only [writable_iff]; decide +kernel

theorem witness_RecordEventsComplete_samples : let s := recording 0; let x := tenantOf s; let w := wgOf s; let t := threadOf s;
    s.tenant? x.tag = some x ∧ x.ctrs[7]? = some ⟨0x20, 1, 0, 1023, none⟩ ∧ nextTriple (s.sampled x.tag) none = some (w.core, w.slot, t.tid) ∧
    s.wgAt w.core w.slot = some w ∧ w.thread? t.tid = some t ∧ w.slot < 16 ∧ w.core < 1024 ∧ t.tid < 2048 ∧ s.stallOf w < 16 := by decide +kernel

/-- Two threads that wait for one barrier, whose other participant never comes, as they did at the last scan. -/
def stuck : State :=
  idle (placed (.waiting 4 (.barrier 0 3 .sync false 0))) (fun w => { w with threads := w.threads ++ w.threads.map fun t => { t with tid := 1, place := .waiting 4 (.barrier 0 3 .sync false 0) } })
    fun s => { s with barriers := [⟨0, 1, 3, 0, [(1, 0), (1, 1)]⟩] }

/-- Each of two threads waits for a barrier of which the other has not yet arrived, as at the last scan. -/
def crossed : State :=
  let s := idle (placed (.waiting 4 (.barrier 0 3 .sync false 0)))
    (fun w => { w with threads := w.threads ++ w.threads.map fun t => { t with tid := 1, place := .waiting 4 (.barrier 0 4 .sync false 0) } })
    fun s => { s with barriers := [⟨0, 1, 3, 0, [(1, 0)]⟩, ⟨0, 1, 4, 0, [(1, 1)]⟩] }
  { s with lastScan := s.waitNodes.map s.noteOf }

theorem witness_RecordEventsComplete_scan :
    (∀ n ∈ ({ stuck with lastScan := stuck.waitNodes.map stuck.noteOf } : State).waitNodes,
      stuck.noteOf n ∈ stuck.waitNodes.map stuck.noteOf) ∧ stuck.waitNodes.length = 2 ∧ (∀ n ∈ stuck.waitNodes, stuck.noteOf n ∉ stuck.lastScan) ∧
    (let s := crossed; (s.cycles (s.deadlocked s.waitNodes.length s.waitNodes)).length = 1 ∧
      (∀ c ∈ s.cycles (s.deadlocked s.waitNodes.length s.waitNodes), ∀ n ∈ c, s.noteOf n ∈ s.lastScan) ∧
      ∀ c ∈ s.cycles (s.deadlocked s.waitNodes.length s.waitNodes), s.nodeIds c ∈ ({ s with scanReported := [s.nodeIds s.waitNodes] } : State).scanReported) := by
  decide +kernel

theorem witness_RecordEventsComplete_banks : 3071 < 3072 ∧ List.Pairwise (· < ·) (estate.cfg.map fun e => e.1) := by decide +kernel

/-! The device as a whole. -/

/-- R65: the example at R115, with its word. -/
theorem witness_DecodeEncodeAgree : encode (.iadd 4 1 0xF0) = some 0x04200F80 := by decide +kernel

/-- The head run's word decodes, or does not; an event is next, with the dies running or frozen. -/
theorem witness_StepRunsDecodedInstruction :
    (∀ x ∈ [0x04200F80#32, 0x3C000000], let s := lab false false id id (inRun fun r => { r with words := [ublkWord, x] });
      s.agenda = [] ∧ ∀ r ∈ s.runs, s.runs.head? = some r ∧ r.stall = none ∧ s.dieRuns (r.core / 384) = true ∧ r.words[r.idx]? = some x) ∧
    (decodeWord 0x04200F80 = .ok (.iadd 4 1 0xF0) ∧ (decodeWord 0x3C000000).isOk = false) ∧
    (∀ i ∈ [Instr.dieJoin 1, .runSelect 0 0], let s := { bench with agenda := [.event i] };
      s.agenda = [.event i] ∧ encode i = none ∧ s.frozen = none) ∧
    ofDies (.dieJoin 1) = false := by
  refine ⟨?_, ⟨rfl, by decide +kernel⟩, ?_, by decide +kernel⟩
  · simp only [List.forall_mem_cons, List.not_mem_nil, false_imp_iff, implies_true, and_true]
    exact ⟨⟨rfl, by decide +kernel⟩, rfl, by decide +kernel⟩
  · simp only [List.forall_mem_cons, List.not_mem_nil, false_imp_iff, implies_true, and_true]
    exact ⟨⟨trivial, rfl, rfl⟩, trivial, rfl, rfl⟩

/-- Code at va 0: `NOP`, `EXIT`; 64 hints; three hints and then a word that no entry maps (its page ends). -/
def coded (words : List Word) : State := idle id id fun s => { memory s with mem := Memory.writeAll [] 0 (words.flatMap fun x => leBytes x.toNat 4) }

def hinted : State := { coded [] with mem := (List.range 256).map fun i => (i, [0x40#8, 0x40, 0x40, 0xFC].getD (i % 4) 0) }

theorem witness_BlockFetch :
    ((coded [0, 0x00100000]).fetchBlock (wgOf (coded [])) 0).toOption = some [0x00000000, 0x00100000] ∧
    (let s := hinted; ∀ k, k < 64 → ∃ x, s.fetch (wgOf s) (0 + k) = .ok x ∧ x.extractLsb' 26 6 = 0x3F#6) ∧
    (let s : State := { coded [] with tlb := [] }; ((s.fetch (wgOf s) 0).isOk = false)) ∧
    (let s := coded []; (s.launchOf (wgOf s)).any (fun (l : Launch) => decide (s.translate (wgOf s) .x false (codeAddr l 0) 4 = .ok (.mem 0))) = true ∧
      (s.codeHome (wgOf s) 0).isSome = true) := by
  refine ⟨by decide +kernel, ?_, by decide +kernel, by decide +kernel⟩
  have h : ∀ k, k < 64 → (hinted.fetch (wgOf hinted) (0 + k)).toOption = some 0xFC404040 := by
    decide +kernel
  intro s k hk
  have hk := h k hk
  cases hf : s.fetch (wgOf s) (0 + k) with
  | error e => simp only [s] at hf; rw [hf] at hk; cases hk
  | ok x => simp only [s] at hf; rw [hf] at hk; cases hk; exact ⟨_, rfl, by decide⟩

/-- A word of no entry in a thread block, a uniform one in a uniform block, and a hint that no kind claims. -/
theorem witness_UnclaimedEncodingEndsWorkgroup :
    (∃ r w, Smooth bench r w ∧ bench.only w ∧ w.status = .resident ∧ bench.barriers = [] ∧ r.acting w ≠ [] ∧ (∀ t ∈ r.acting w, t.tid < 2048) ∧
      (0x3C000000#32).extractLsb' 26 6 ≠ 0x3F#6 ∧ uniformWord 0x3C000000 = false) ∧
    (∃ r w, SmoothAll bench r w ∧ r.everyone w ≠ [] ∧ (∀ t ∈ r.everyone w, t.tid < 2048) ∧ (decodeWord 0xA800003F).isOk = false ∧ uniformWord 0xA800003F = true) ∧
    ∃ r w, bench.issuer = some (r, w) ∧ r.hinted w ≠ [] ∧ (0xFFFFFFFF#32).extractLsb' 26 6 = 0x3F#6 ∧
      ∀ t ∈ r.hinted w, t.block = .none ∧ t.owes = false ∧ t.tid < 2048 ∧ bench.comparatorAt r w.launch r.pc = none := by
  have h1 : Issuing bench fun _ w t => bench.only w ∧ w.status = .resident ∧ bench.barriers = [] ∧ t.tid < 2048 :=
    issuing_of (by decide +kernel) (by unfold State.only; decide +kernel)
  have h2 : IssuingAll bench fun r w => ∀ t ∈ r.everyone w, t.tid < 2048 := issuingAll_of (by decide +kernel) (by decide +kernel)
  obtain ⟨r, w, hs, hne, hp⟩ := h1
  obtain ⟨r2, w2, hs2, hne2, hp2⟩ := h2
  obtain ⟨t, ht⟩ := List.exists_mem_of_ne_nil _ hne
  exact ⟨⟨r, w, hs, (hp t ht).1, (hp t ht).2.1, (hp t ht).2.2.1, hne, fun t ht => (hp t ht).2.2.2, by decide +kernel, by decide +kernel⟩,
    ⟨r2, w2, hs2, hne2, hp2, by decide +kernel, by decide +kernel⟩, ⟨_, _, rfl, by decide +kernel⟩⟩

/-- A step from a state whose memory is canonical, with a word to issue or with none. -/
theorem witness_MemoryStaysCanonical : ∀ s ∈ [bench, State.reset], s.MemoryOk ∧ ∃ t, step s = .next t := by
  intro s hs
  have h : ∀ s ∈ [bench, State.reset], s.MemoryOk ∧ (match step s with
      | .next _ => true
      | _ => false) = true := by unfold State.MemoryOk; decide +kernel
  refine ⟨(h s hs).1, ?_⟩
  have := (h s hs).2
  cases hstep : step s with
  | next t => exact ⟨t, rfl⟩
  | fault f => rw [hstep] at this; cases this
  | refused f => rw [hstep] at this; cases this

theorem witness_StepAnswers : ∀ s ∈ [bench, State.reset], s.headWord.isSome = true → s.issuer.isSome = true := by decide +kernel

end Sys2Proof.Tests
end

section
/-! SUPPORT. A fault of class system that ends a workgroup (R337, R339, R340): the records it posts, the workgroup it ends, and
what the rest of the issue leaves of both. -/

namespace Sys2Proof.Proofs

open Sys2Proof.Machine Sys2Proof.Laws

/-! ### Records waiting for their tenants -/

/-- No tenant is lost, and no record that waits for one (R321). -/
def KeepsPosts (s u : State) : Prop :=
  ∀ tag y, s.tenant? tag = some y → ∃ z, u.tenant? tag = some z ∧ y.pendFaults ⊆ z.pendFaults

theorem KeepsPosts.of_tenants {s u : State} (h : u.tenants = s.tenants) : KeepsPosts s u := fun tag y hy =>
  ⟨y, by unfold State.tenant?; rw [h]; exact hy, fun _ hr => hr⟩

theorem KeepsPosts.trans {a b c : State} (h : KeepsPosts a b) (k : KeepsPosts b c) : KeepsPosts a c := fun tag y hy => by
  obtain ⟨z, hz, hyz⟩ := h tag y hy
  obtain ⟨x, hx, hzx⟩ := k tag z hz
  exact ⟨x, hx, fun _ hr => hzx (hyz hr)⟩

theorem tenant_onTenant {s : State} {tag : Tag} {f : Tenant → Tenant} (hf : ∀ x, (f x).tag = x.tag) (t : Tag) :
    (s.onTenant tag f).tenant? t = (s.tenant? t).map fun x => if x.tag = tag then f x else x :=
  find_map _ fun x _ => by split <;> simp only [hf]

theorem tenant_tag {s : State} {t : Tag} {x : Tenant} (h : s.tenant? t = some x) : x.tag = t := by
  simpa using List.find?_some h

theorem keepsPosts_onTenant (s : State) (tag : Tag) {f : Tenant → Tenant} (hf : ∀ x, (f x).tag = x.tag)
    (hp : ∀ x, x.pendFaults ⊆ (f x).pendFaults) : KeepsPosts s (s.onTenant tag f) := fun t y hy => by
  refine ⟨if y.tag = tag then f y else y, by rw [tenant_onTenant hf, hy]; rfl, ?_⟩
  split
  · exact hp y
  · exact fun _ hr => hr

/-- Nothing but what waits for the tenants, and their counters, has changed. -/
def Noted (s u : State) : Prop := KeepsPosts s u ∧ ∃ ts, u = { s with tenants := ts }

theorem Noted.refl (s : State) : Noted s s := ⟨.of_tenants rfl, s.tenants, rfl⟩

theorem Noted.trans {a b c : State} (h : Noted a b) (k : Noted b c) : Noted a c := by
  obtain ⟨hp, ts, rfl⟩ := h
  obtain ⟨kp, ts', rfl⟩ := k
  exact ⟨hp.trans kp, ts', rfl⟩

theorem Noted.tagOf {s u : State} (h : Noted s u) (w : Wg) : u.tagOf w = s.tagOf w := by
  obtain ⟨_, ts, rfl⟩ := h
  rfl

theorem noted_foldl {α : Type} {f : State → α → State} (l : List α) (h : ∀ s, ∀ x ∈ l, Noted s (f s x))
    (s : State) : Noted s (l.foldl f s) := by
  induction l generalizing s with
  | nil => exact Noted.refl s
  | cons x xs ih => exact (h s x List.mem_cons_self).trans (ih (fun s y hy => h s y (List.mem_cons_of_mem _ hy)) _)

theorem noted_count (s : State) (t : Tag) (e n : Nat) : Noted s (s.count t e n) :=
  ⟨keepsPosts_onTenant s t (fun _ => rfl) fun _ _ hr => hr, _, rfl⟩

theorem noted_postFault (s : State) (r : FaultRec) : Noted s (s.postFault r) :=
  ⟨keepsPosts_onTenant s r.tag (fun _ => rfl) fun _ _ hr => List.mem_append_left _ hr, _, rfl⟩

theorem noted_postRecords (s : State) (w : Wg) (cause : Nat) (fpc finfo : Word) (addr : DWord) (tids : List Nat) :
    Noted s (s.postRecords w .system cause fpc finfo addr tids) :=
  noted_foldl _ (fun s c _ => by
    dsimp only
    split
    · exact Noted.refl s
    · exact noted_postFault s _) s

theorem noted_postChunks (s : State) (w : Wg) (cause : Nat) (fpc : Word) (fs : List (Nat × FaultInfo)) :
    Noted s (s.postChunks w .system cause fpc fs) :=
  noted_foldl _ (fun s c _ => by
    split
    · exact Noted.refl s
    · exact noted_postRecords ..) s

/-! ### The record of a fault of class system -/

/-- The tenant of a tag, if there is one, gets a record of class system with this cause, place and `%finfo` (R340). -/
def Posts (s u : State) (tag : Tag) (cause : Nat) (fpc finfo : Word) : Prop :=
  ∀ y, s.tenant? tag = some y → ∃ z f, u.tenant? tag = some z ∧ f ∈ z.pendFaults ∧ f.cause = cause ∧ f.cls = 2 ∧ f.fpc = fpc ∧
    f.finfo = finfo

theorem Posts.after {s u v : State} {tag : Tag} {cause : Nat} {fpc finfo : Word} (h : Posts s u tag cause fpc finfo)
    (k : KeepsPosts u v) : Posts s v tag cause fpc finfo := fun y hy => by
  obtain ⟨z, f, hz, hf, hr⟩ := h y hy
  obtain ⟨x, hx, hzx⟩ := k tag z hz
  exact ⟨x, f, hx, hzx hf, hr⟩

theorem Posts.before {a s u : State} {tag : Tag} {cause : Nat} {fpc finfo : Word} (k : KeepsPosts a s)
    (h : Posts s u tag cause fpc finfo) : Posts a u tag cause fpc finfo := fun y hy => by
  obtain ⟨z, hz, _⟩ := k tag y hy
  exact h z hz

/-- One of several steps posts the record, and the others keep it. -/
theorem posts_foldl {α : Type} {f : State → α → State} {l : List α} {s : State} {tag : Tag} {cause : Nat} {fpc finfo : Word}
    (h : ∀ s, ∀ x ∈ l, Noted s (f s x)) {x : α} (hx : x ∈ l) (hp : ∀ v, Noted s v → Posts v (f v x) tag cause fpc finfo) :
    Posts s (l.foldl f s) tag cause fpc finfo := by
  induction l generalizing s with
  | nil => cases hx
  | cons a as ih =>
    have has : ∀ s, ∀ y ∈ as, Noted s (f s y) := fun s y hy => h s y (List.mem_cons_of_mem _ hy)
    have ha : Noted s (f s a) := h s a List.mem_cons_self
    rcases List.mem_cons.mp hx with rfl | hx
    · exact (hp s (Noted.refl s)).after (noted_foldl as has _).1
    · exact (ih has hx fun v hv => hp v (ha.trans hv)).before ha.1

theorem posts_postFault (s : State) (r : FaultRec) (h : r.cls = 2) : Posts s (s.postFault r) r.tag r.cause r.fpc r.finfo :=
  fun y hy => ⟨{ y with pendFaults := y.pendFaults ++ [r] }, r,
    (tenant_onTenant (by intro; rfl) r.tag).trans (by rw [hy, Option.map_some, if_pos (tenant_tag hy)]),
    List.mem_append_right _ (List.mem_singleton_self r), rfl, h, rfl, rfl⟩

/-- A bit that one thread of the list sets stays set. -/
theorem chunkMask_bit (c i : Nat) (tids : List Nat) (m : BitVec 256) (hi : i < 256)
    (h : m.getLsbD i = true ∨ ∃ t ∈ tids, t / 256 = c ∧ t % 256 = i) :
    (tids.foldl (fun m t => if t / 256 = c then m ||| maskBit t else m) m).getLsbD i = true := by
  induction tids generalizing m with
  | nil => simpa using h
  | cons t ts ih =>
    rw [List.foldl_cons]
    refine ih _ ?_
    rcases h with h | ⟨t', ht', hc, hm⟩
    · left; split <;> simp [h]
    · rcases List.mem_cons.mp ht' with rfl | ht'
      · left
        rw [if_pos hc, BitVec.getLsbD_or, maskBit, BitVec.getLsbD_ofNat, hm, Nat.testBit_two_pow_self]
        simp [hi]
      · exact .inr ⟨t', ht', hc, hm⟩

/-- The chunk of a thread holds it. -/
theorem chunkMask_ne_zero {t : Nat} {tids : List Nat} (h : t ∈ tids) : chunkMask tids (t / 256) ≠ 0#256 := fun h0 => by
  have hi : t % 256 < 256 := Nat.mod_lt _ (by decide)
  have := chunkMask_bit (t / 256) (t % 256) tids 0#256 hi (.inr ⟨t, h, rfl, rfl⟩)
  unfold chunkMask at h0
  rw [h0] at this
  simp at this

theorem posts_postRecords (s : State) (w : Wg) (cause : Nat) (fpc finfo : Word) (addr : DWord) {tids : List Nat} {t : Nat}
    (ht : t ∈ tids) (hlt : t < 2048) :
    Posts s (s.postRecords w .system cause fpc finfo addr tids) (s.tagOf w) cause fpc finfo := by
  refine posts_foldl (x := t / 256) (fun s c _ => ?_) (List.mem_range.mpr (by omega)) fun v hv => ?_
  · dsimp only
    split
    · exact Noted.refl s
    · exact noted_postFault s _
  · obtain ⟨_, ts, rfl⟩ := hv
    dsimp only
    rw [if_neg (chunkMask_ne_zero ht), if_neg (by decide)]
    exact posts_postFault _ _ rfl

theorem posts_postChunks (s : State) (w : Wg) (cause : Nat) (fpc : Word) {finfo : Word} {fs : List (Nat × FaultInfo)}
    (hinfo : ∀ f ∈ fs, f.2.info = finfo) {f : Nat × FaultInfo} (hf : f ∈ fs) (hlt : f.1 < 2048) :
    Posts s (s.postChunks w .system cause fpc fs) (s.tagOf w) cause fpc finfo := by
  refine posts_foldl (x := f.1 / 256) (fun s c _ => ?_) (List.mem_range.mpr (by omega)) fun v hv => ?_
  · split
    · exact Noted.refl s
    · exact noted_postRecords ..
  · obtain ⟨_, ts, rfl⟩ := hv
    have hmem : f ∈ fs.filter fun g => g.1 / 256 = f.1 / 256 := List.mem_filter.mpr ⟨hf, decide_eq_true rfl⟩
    cases hl : fs.filter fun g => g.1 / 256 = f.1 / 256 with
    | nil => rw [hl] at hmem; cases hmem
    | cons g gs =>
      have hg : g ∈ fs := (List.mem_filter.mp (hl ▸ List.mem_cons_self : g ∈ fs.filter fun g => g.1 / 256 = f.1 / 256)).1
      rw [hl] at hmem
      dsimp only
      rw [hinfo g hg]
      exact posts_postRecords { s with tenants := ts } w cause fpc finfo g.2.addr (tids := g.1 :: gs.map fun g => g.1)
        (List.mem_map_of_mem (f := fun g : Nat × FaultInfo => g.1) hmem) hlt

/-! ### The fault -/

theorem deliver_system (s : State) (uid tid : Nat) : s.deliver uid tid .system = s := by
  unfold State.deliver
  split <;> rfl

theorem delivery_illegal (s : State) (w : Wg) (t : Thread) : s.delivery w t cIllegal = .system := rfl

/-- `ILLEGAL` is never rolled back: the workgroup ends (R339, R378). -/
theorem systemFault_illegal (s : State) (w : Wg) (fpc info : Word) :
    s.systemFault w cIllegal fpc info = s.terminate w.uid 1 cIllegal fpc info := by
  unfold State.systemFault
  exact if_neg fun h => absurd h.1 (by decide)

/-- The faults of one issue in the counters of their tenant (R353), as `State.raise` counts them. -/
def counted (s : State) (w : Wg) (ds : List (Nat × FaultClass × FaultInfo)) : State :=
  ds.foldl (fun s d => (s.count (s.tagOf w) 0x0E 1).count (s.tagOf w) (if d.2.2.cause = cTbMiss then 0x09 else 0x100) 1) s

/-- Their records (R340, R341), as `State.raise` posts them. -/
def recorded (s : State) (w : Wg) (pc : Nat) (ds : List (Nat × FaultClass × FaultInfo)) : State :=
  (ds.map fun d => (d.2.1, d.2.2.cause)).eraseDups.foldl (fun s p =>
    if p.1 = .user then s
    else s.postChunks w p.1 p.2 (BitVec.ofNat 32 (4 * pc))
      ((ds.filter fun d => d.2.1 = p.1 ∧ d.2.2.cause = p.2).map fun d => (d.1, d.2.2))) s

theorem noted_counted (s : State) (w : Wg) (ds : List (Nat × FaultClass × FaultInfo)) : Noted s (counted s w ds) :=
  noted_foldl ds (fun _ _ _ => (noted_count ..).trans (noted_count ..)) s

section Illegal

/-! Faults that are `ILLEGAL` of one word, of class system. -/

variable {ds : List (Nat × FaultClass × FaultInfo)} {word : Word}
  (hds : ∀ d ∈ ds, d.2.1 = .system ∧ d.2.2.cause = cIllegal ∧ d.2.2.info = word)

include hds

theorem illegal_pair {p : FaultClass × Nat} (hp : p ∈ (ds.map fun d => (d.2.1, d.2.2.cause)).eraseDups) : p = (.system, cIllegal) := by
  rw [List.mem_eraseDups, List.mem_map] at hp
  obtain ⟨d, hd, rfl⟩ := hp
  obtain ⟨h1, h2, _⟩ := hds d hd
  rw [h1, h2]

theorem noted_recordStep (s : State) (w : Wg) (pc : Nat) (p : FaultClass × Nat)
    (hp : p ∈ (ds.map fun d => (d.2.1, d.2.2.cause)).eraseDups) (fs : List (Nat × FaultInfo)) :
    Noted s (if p.1 = .user then s else s.postChunks w p.1 p.2 (BitVec.ofNat 32 (4 * pc)) fs) := by
  rw [illegal_pair hds hp]
  exact noted_postChunks ..

theorem noted_recorded (s : State) (w : Wg) (pc : Nat) : Noted s (recorded s w pc ds) :=
  noted_foldl _ (fun s p hp => noted_recordStep hds s w pc p hp _) s

theorem posts_recorded (s : State) (w : Wg) (pc : Nat) {d : Nat × FaultClass × FaultInfo} (hd : d ∈ ds) (hlt : d.1 < 2048) :
    Posts s (recorded s w pc ds) (s.tagOf w) cIllegal (BitVec.ofNat 32 (4 * pc)) word := by
  have hpair : (.system, cIllegal) ∈ (ds.map fun d => (d.2.1, d.2.2.cause)).eraseDups := by
    rw [List.mem_eraseDups, List.mem_map]
    obtain ⟨h1, h2, _⟩ := hds d hd
    exact ⟨d, hd, by rw [h1, h2]⟩
  refine posts_foldl (fun s p hp => noted_recordStep hds s w pc p hp _) hpair fun v hv => ?_
  rw [← hv.tagOf w, if_neg (by decide)]
  refine posts_postChunks v w cIllegal _ (fun f hf => ?_) (f := (d.1, d.2.2))
    (List.mem_map.mpr ⟨d, List.mem_filter.mpr ⟨hd, ?_⟩, rfl⟩) hlt
  · obtain ⟨e, he, rfl⟩ := List.mem_map.mp hf
    exact (hds e (List.mem_filter.mp he).1).2.2
  · obtain ⟨h1, h2, _⟩ := hds d hd
    simp [h1, h2]

end Illegal

/-- What `ILLEGAL` of some threads of a workgroup comes to: the threads are out of their runs with the fault in their registers,
records are posted, and the workgroup is terminated (R88, R339). -/
theorem raise_illegal (s : State) (uniform : Bool) {uid pc : Nat} {fs : List (Nat × Word × FaultInfo)} {w : Wg} {word : Word}
    (hw : s.wg? uid = some w) (hf : ∀ f ∈ fs, f.2.2.cause = cIllegal ∧ f.2.2.info = word) {f : Nat × Word × FaultInfo} (hin : f ∈ fs)
    (hlt : f.1 < 2048) :
    ∃ v, Noted (left s uid pc fs) v ∧ Posts (left s uid pc fs) v (s.tagOf w) cIllegal (BitVec.ofNat 32 (4 * pc)) word ∧
      s.raise uniform uid pc fs = v.terminate uid 1 cIllegal (BitVec.ofNat 32 (4 * pc)) word := by
  have hwuid := wg_uid hw
  unfold State.raise
  rw [hw]
  dsimp only
  rw [if_neg fun h => by rw [List.isEmpty_iff.mp h] at hin; cases hin]
  generalize hds : (List.map (β := Nat × FaultClass × FaultInfo) _ fs) = ds
  have hds' : ds = fs.map fun f => (f.1, FaultClass.system, f.2.2) := by
    rw [← hds]
    refine List.map_congr_left fun g hg => ?_
    rw [(hf g hg).1]
    cases w.thread? g.1 with
    | none => rfl
    | some t => cases uniform <;> rfl
  have hsys : ∀ d ∈ ds, d.2.1 = .system ∧ d.2.2.cause = cIllegal ∧ d.2.2.info = word := by
    rw [hds']
    intro d hd
    obtain ⟨g, hg, rfl⟩ := List.mem_map.mp hd
    exact ⟨rfl, hf g hg⟩
  have hmem : (f.1, FaultClass.system, f.2.2) ∈ ds := by
    rw [hds']; exact List.mem_map_of_mem (f := fun f : Nat × Word × FaultInfo => (f.1, FaultClass.system, f.2.2)) hin
  have hnone : ds.foldl (fun s d => s.deliver uid d.1 d.2.1) (left s uid pc fs) = left s uid pc fs :=
    foldl_same _ ds (fun s d hd => by rw [(hsys d hd).1]; exact deliver_system ..) _
  have hcounted := noted_counted (left s uid pc fs) w ds
  refine ⟨recorded (counted (left s uid pc fs) w ds) w pc ds, hcounted.trans (noted_recorded hsys _ w pc), ?_, ?_⟩
  · have := posts_recorded hsys (counted (left s uid pc fs) w ds) w pc hmem hlt
    rw [hcounted.tagOf w] at this
    exact this.before hcounted.1
  · cases hfind : ds.find? fun d => decide (d.2.1 = FaultClass.system) with
    | none =>
      rw [List.find?_eq_none] at hfind
      exact absurd (decide_eq_true rfl) (hfind _ hmem)
    | some d =>
      obtain ⟨_, hcause, hinfo⟩ := hsys d (List.mem_of_find?_eq_some hfind)
      dsimp only
      rw [hcause, hinfo, systemFault_illegal, hwuid]
      show (recorded (counted (ds.foldl (fun s d => s.deliver uid d.1 d.2.1) (left s uid pc fs)) w ds) w pc ds).terminate _ _ _ _ _ = _
      rw [hnone]

/-! ### The end of the workgroup -/

theorem settleBarriers_nil {s : State} (h : s.barriers = []) : s.settleBarriers = s := by
  unfold State.settleBarriers
  rw [h]
  rfl

/-- Threads that leave their entries, and spilled ones that take them (R40), change entries and workgroups alone, and no workgroup
goes. -/
def Unseated (s u : State) : Prop :=
  (∃ es ws, u = { s with entries := es, wgs := ws }) ∧ ∀ n, (s.wg? n).isSome = true → (u.wg? n).isSome = true

theorem Unseated.refl (s : State) : Unseated s s := ⟨⟨s.entries, s.wgs, rfl⟩, fun _ h => h⟩

theorem Unseated.trans {a b c : State} (h : Unseated a b) (k : Unseated b c) : Unseated a c := by
  obtain ⟨⟨es, ws, rfl⟩, hw⟩ := h
  obtain ⟨⟨es', ws', rfl⟩, kw⟩ := k
  exact ⟨⟨es', ws', rfl⟩, fun n hn => kw n (hw n hn)⟩

theorem unseated_onWg (s : State) (uid : Nat) {f : Wg → Wg} (hf : ∀ w, (f w).uid = w.uid) : Unseated s (s.onWg uid f) :=
  ⟨⟨s.entries, _, rfl⟩, fun n hn => by rw [wg_onWg s uid n f hf, Option.isSome_map]; exact hn⟩

theorem unseated_entries (s : State) (es : List Entry) : Unseated s { s with entries := es } := ⟨⟨es, s.wgs, rfl⟩, fun _ h => h⟩

theorem unseated_unspillOne (s : State) (core : Nat) : Unseated s (s.unspillOne core) := by
  unfold State.unspillOne
  split
  · exact .refl s
  · split
    · exact .refl s
    · split
      · exact .refl s
      · exact (unseated_onWg s _ (by intro; rfl)).trans (unseated_entries _ _)

theorem unseated_unspill (s : State) (core n : Nat) : Unseated s (s.unspill core n) := by
  induction n generalizing s with
  | zero => exact .refl s
  | succ n ih =>
    unfold State.unspill
    split
    · exact (unseated_unspillOne s core).trans (ih _)
    · exact .refl s

theorem unseated_leaveEntries (s : State) (w : Wg) (tids : List Nat) : Unseated s (s.leaveEntries w tids) :=
  ((unseated_entries s _).trans (unseated_onWg _ _ (by intro; rfl))).trans (unseated_unspill _ _ _)

/-- A workgroup has ended with a fault: its threads have all exited (R339), and `WGRD` finds what ended it (R352). -/
def HasEnded (u : State) (uid cause : Nat) (fpc finfo : Word) : Prop :=
  ∃ v x, u.wg? uid = some v ∧ v.status = .finished x false ∧ x.ended = 1 ∧ x.cause = cause ∧ x.fpc = fpc ∧ x.finfo = finfo ∧
    ∀ t ∈ v.threads, t.place = .exited

theorem terminate_resident {s : State} {uid : Nat} {w : Wg} (hw : s.wg? uid = some w) (hst : w.status = .resident)
    (hb : s.barriers = []) (cause : Nat) (fpc finfo : Word) :
    ∃ u, s.terminate uid 1 cause fpc finfo = u ∧ HasEnded u uid cause fpc finfo ∧ u.mem = s.mem ∧ u.barriers = s.barriers ∧
      u.tenants = s.tenants ∧ ∀ q ∈ u.runs, q.wg ≠ uid := by
  obtain ⟨⟨es, ws, hleft⟩, hfound⟩ := unseated_leaveEntries s w (w.threads.map fun t => t.tid)
  obtain ⟨v, hv⟩ := Option.isSome_iff_exists.mp (hfound uid (by rw [hw]; rfl))
  unfold State.terminate
  rw [hw]
  dsimp only
  rw [hst]
  dsimp only
  rw [if_neg (by decide), settleBarriers_nil (by rw [hleft]; exact hb)]
  refine ⟨_, rfl, ⟨_, _, wg_onWg_same (by intro; rfl) hv, rfl, rfl, rfl, rfl, rfl, fun t ht => ?_⟩, ?_, ?_, ?_, fun q hq => ?_⟩
  · obtain ⟨t', _, rfl⟩ := List.mem_map.mp ht
    rfl
  · rw [hleft]; rfl
  · rw [hleft]; rfl
  · rw [hleft]; rfl
  · simpa using (List.mem_filter.mp hq).2

/-! ### The rest of the issue -/

/-- A change that passes a workgroup by: it, memory and barriers are as before, no run is another workgroup's than before, and
every record still waits for its tenant. -/
structure PassesBy (uid : Nat) (s u : State) : Prop where
  wg : u.wg? uid = s.wg? uid
  mem : u.mem = s.mem
  barriers : u.barriers = s.barriers
  runs : ∀ q ∈ u.runs, ∃ p ∈ s.runs, p.wg = q.wg
  posts : KeepsPosts s u

theorem PassesBy.refl (uid : Nat) (s : State) : PassesBy uid s s := ⟨rfl, rfl, rfl, fun q hq => ⟨q, hq, rfl⟩, .of_tenants rfl⟩

theorem PassesBy.trans {uid : Nat} {a b c : State} (h : PassesBy uid a b) (k : PassesBy uid b c) : PassesBy uid a c :=
  ⟨k.wg.trans h.wg, k.mem.trans h.mem, k.barriers.trans h.barriers, fun q hq => by
    obtain ⟨p, hp, hpq⟩ := k.runs q hq
    obtain ⟨o, ho, hop⟩ := h.runs p hp
    exact ⟨o, ho, hop.trans hpq⟩, h.posts.trans k.posts⟩

theorem Noted.passesBy {s u : State} (h : Noted s u) (uid : Nat) : PassesBy uid s u := by
  obtain ⟨hp, ts, rfl⟩ := h
  exact ⟨rfl, rfl, rfl, fun q hq => ⟨q, hq, rfl⟩, hp⟩

theorem passesBy_onWg {uid v : Nat} (hv : v ≠ uid) (s : State) {f : Wg → Wg} (hf : ∀ w, (f w).uid = w.uid) :
    PassesBy uid s (s.onWg v f) :=
  ⟨wg_onWg_other hf hv.symm, rfl, rfl, fun q hq => ⟨q, hq, rfl⟩, .of_tenants rfl⟩

theorem passesBy_onThread {uid v : Nat} (hv : v ≠ uid) (s : State) (tid : Nat) (f : Thread → Thread) :
    PassesBy uid s (s.onThread v tid f) := passesBy_onWg hv s (by intro; rfl)

theorem passesBy_entries (uid : Nat) (s : State) (es : List Entry) : PassesBy uid s { s with entries := es } :=
  ⟨rfl, rfl, rfl, fun q hq => ⟨q, hq, rfl⟩, .of_tenants rfl⟩

theorem passesBy_dropUnowned (uid : Nat) (s : State) (core : Nat) : PassesBy uid s (s.dropUnowned core) :=
  ⟨rfl, rfl, rfl, fun q hq => ⟨q, hq, rfl⟩, .of_tenants rfl⟩

theorem passesBy_advanceFree (uid : Nat) (s : State) : PassesBy uid s s.advanceFree :=
  ⟨rfl, rfl, rfl, fun q hq => ⟨q, hq, rfl⟩, .of_tenants rfl⟩

theorem passesBy_runs (uid : Nat) (s : State) {rs : List Run} (h : ∀ q ∈ rs, ∃ p ∈ s.runs, p.wg = q.wg) :
    PassesBy uid s { s with runs := rs } := ⟨rfl, rfl, rfl, h, .of_tenants rfl⟩

theorem passesBy_foldl {α : Type} {uid : Nat} {f : State → α → State} (l : List α) {s : State}
    (h : ∀ u, u.barriers = s.barriers → ∀ x ∈ l, PassesBy uid u (f u x)) : PassesBy uid s (l.foldl f s) := by
  induction l generalizing s with
  | nil => exact .refl uid s
  | cons x xs ih =>
    have h1 := h s rfl x List.mem_cons_self
    exact h1.trans (ih fun u hu y hy => h u (hu.trans h1.barriers) y (List.mem_cons_of_mem _ hy))

theorem passesBy_arrive {uid v : Nat} (hv : v ≠ uid) (s : State) (tid key : Nat) (on : WaitOn) (sched : Option (Bool × BitVec 16)) :
    PassesBy uid s (s.arrive v tid key on sched) := by
  unfold State.arrive
  split
  · exact .refl uid s
  · dsimp only
    split
    · exact (passesBy_entries uid s _).trans (passesBy_onThread hv _ _ _)
    · split
      · exact (passesBy_entries uid s _).trans (passesBy_onThread hv _ _ _)
      · exact ((noted_count s _ _ _).passesBy uid).trans (passesBy_onThread hv _ _ _)

theorem passesBy_park {uid v : Nat} (hv : v ≠ uid) {s : State} (hb : s.barriers = []) (p : Parking) :
    PassesBy uid s (s.park v p) := by
  unfold State.park
  split
  · split
    · exact .refl uid s
    · split
      · dsimp only
        split
        · exact (passesBy_arrive hv s _ _ _ _).trans (passesBy_dropUnowned uid _ _)
        · exact passesBy_arrive hv s _ _ _ _
      · exact passesBy_arrive hv s _ _ _ _
  · rw [settleBarriers_nil (s := s.onThread v p.tid _) hb]
    exact passesBy_onThread hv s _ _

theorem passesBy_endRun {uid : Nat} {r : Run} (hv : r.wg ≠ uid) {s : State} (hb : s.barriers = []) : PassesBy uid s (s.endRun r) := by
  unfold State.endRun
  have h1 := passesBy_onWg hv s (f := fun w => { w with threads := w.threads.map fun t =>
    if (r.groups.flatten.contains t.tid = true) ∨ ((r.parked.any fun p => decide (p.tid = t.tid)) = true) then t.endBlock else t })
    (by intro; rfl)
  have h2 := h1.trans (passesBy_foldl r.parked (f := fun s p => s.park r.wg p) fun u hu p _ =>
    passesBy_park hv (hu.trans (h1.barriers.trans hb)) p)
  exact h2.trans (passesBy_foldl r.groups.flatten fun u _ tid _ => passesBy_arrive hv u _ _ _ _)

/-- The run of another workgroup moves on or ends. -/
theorem passesBy_advance {uid : Nat} {s : State} (hr : ∀ q ∈ s.runs, q.wg ≠ uid) (hb : s.barriers = []) (core port : Nat)
    (whole : Bool) : PassesBy uid s (s.advance core port whole) := by
  unfold State.advance
  split
  · exact .refl uid s
  · rename_i r hfind
    have hin := List.mem_of_find?_eq_some hfind
    have hdrop : PassesBy uid s (s.dropRun r) := passesBy_runs uid s fun q hq => ⟨q, (List.mem_filter.mp hq).1, rfl⟩
    have hput : ∀ r' : Run, r'.wg = r.wg → PassesBy uid s { s.dropRun r with runs := enqueueRun (s.dropRun r).runs r' } :=
      fun r' hr' => passesBy_runs uid s fun q hq => by
        rcases (mem_enqueueRun _ _ _).mp hq with hq | rfl
        · exact ⟨q, (List.mem_filter.mp hq).1, rfl⟩
        · exact ⟨r, hin, hr'.symm⟩
    dsimp only
    split
    · exact hput _ rfl
    · split
      · exact hput _ rfl
      · exact hdrop.trans (passesBy_endRun (hr r hin) hb)

/-- What follows the faults of a group, where no run of the workgroup is left (R48, R353). -/
theorem passesBy_rest {uid : Nat} {s : State} (hr : ∀ q ∈ s.runs, q.wg ≠ uid) (hb : s.barriers = []) (w : Wg) (tag : Tag)
    (n core port : Nat) :
    PassesBy uid (s.issuedOne w) ((((s.issuedOne w).count tag 0x02 n).advanceFree).advance core port false) :=
  (((noted_count _ tag 0x02 n).passesBy uid).trans (passesBy_advanceFree uid _)).trans
    (passesBy_advance (s := ((s.issuedOne w).count tag 0x02 n).advanceFree) hr hb core port false)

theorem HasEnded.passedBy {u v : State} {uid cause : Nat} {fpc finfo : Word} (h : HasEnded u uid cause fpc finfo)
    (k : PassesBy uid u v) : HasEnded v uid cause fpc finfo := by
  obtain ⟨x, i, hx, hr⟩ := h
  exact ⟨x, i, k.wg.trans hx, hr⟩

/-- The issue of its own word changes nothing of what a workgroup has ended with. -/
theorem HasEnded.issuedOne {u : State} {uid cause : Nat} {fpc finfo : Word} (h : HasEnded u uid cause fpc finfo) (w : Wg) :
    HasEnded (u.issuedOne w) uid cause fpc finfo := by
  obtain ⟨x, i, hx, hst, hi⟩ := h
  have hwg : (u.issuedOne w).wg? uid = some (if x.uid = w.uid then { x with issuing := true } else x) := by
    refine (wg_onWg (u.count (u.tagOf w) 0x01 1) w.uid uid (fun v => { v with issuing := true }) (by intro; rfl)).trans ?_
    rw [show (u.count (u.tagOf w) 0x01 1).wg? uid = some x from hx]
    rfl
  refine ⟨_, i, hwg, ?_⟩
  split
  · exact ⟨hst, hi⟩
  · exact ⟨hst, hi⟩

theorem keepsPosts_issuedOne (s : State) (w : Wg) : KeepsPosts s (s.issuedOne w) :=
  (noted_count s (s.tagOf w) 0x01 1).1.trans (.of_tenants rfl)

/-- `ILLEGAL` of threads of a resident workgroup that no barrier concerns ends it, with a record for its tenant. -/
theorem raise_illegal_ends {s : State} {uid pc : Nat} {fs : List (Nat × Word × FaultInfo)} {w : Wg} {word : Word} (uniform : Bool)
    (hw : s.wg? uid = some w) (hst : w.status = .resident) (hb : s.barriers = [])
    (hf : ∀ f ∈ fs, f.2.2.cause = cIllegal ∧ f.2.2.info = word) {f : Nat × Word × FaultInfo} (hin : f ∈ fs) (hlt : f.1 < 2048) :
    ∃ u, s.raise uniform uid pc fs = u ∧ HasEnded u uid cIllegal (BitVec.ofNat 32 (4 * pc)) word ∧ u.mem = s.mem ∧ u.barriers = [] ∧
      (∀ q ∈ u.runs, q.wg ≠ uid) ∧ Posts s u (s.tagOf w) cIllegal (BitVec.ofNat 32 (4 * pc)) word := by
  obtain ⟨v, ⟨-, ts, hv⟩, hp, hraise⟩ := raise_illegal s uniform (pc := pc) hw hf hin hlt
  have hvw : ∃ w', v.wg? uid = some w' ∧ w'.status = .resident := by
    rw [hv]
    exact ⟨_, wg_onWg_same (s := s) (by intro; rfl) hw, hst⟩
  obtain ⟨w', hw', hst'⟩ := hvw
  obtain ⟨u, hu, hend, hmem, hbar, hten, hruns⟩ :=
    terminate_resident hw' hst' (by rw [hv]; exact hb) cIllegal (BitVec.ofNat 32 (4 * pc)) word
  refine ⟨u, hraise.trans hu, hend, hmem.trans (by rw [hv]; rfl), hbar.trans (by rw [hv]; exact hb), hruns, ?_⟩
  exact (hp.after (.of_tenants hten)).before (KeepsPosts.of_tenants rfl)

end Sys2Proof.Proofs
end

section
/-! SUPPORT. Words that no entry claims (R64), issued for a group of threads. -/

namespace Sys2Proof.Proofs

open Sys2Proof.Machine Sys2Proof.Laws

/-- The form of a word that no entry claims. -/
def unclaimed : Form := ⟨[], false, none, fun _ => none⟩

theorem unclaimed_check (x : Who) (t : Thread) : unclaimed.check x false t = some (illegalWord x.word) := by
  unfold Form.check
  exact if_pos (.inl (by decide))

theorem unclaimed_pending (ts : List Thread) : pendingStall unclaimed ts = none := if_neg (by simp [unclaimed])

/-- What the threads of a group do at such a word: those that execute it raise `ILLEGAL`. -/
def illegalActs (s : State) (r : Run) (w : Wg) (word : Word) : List (Nat × Act) :=
  badActs ⟨s, w, r, word, r.pc⟩ false (fun _ => illegalWord word) id r w

theorem unclaimed_act {s : State} {r : Run} {w : Wg} (hs : Smooth s r w) (word : Word) (op : Who → Thread → Act) {t : Thread}
    (ht : t ∈ r.group w) : unclaimed.act ⟨s, w, r, word, r.pc⟩ false op t =
      badAct ⟨s, w, r, word, r.pc⟩ false (fun _ => illegalWord word) id t := by
  unfold Form.act badAct
  have harmed : (if t.suppress then none else s.comparatorAt r w.launch r.pc) = none := by
    rcases hs.armed t ht with h | h
    · rw [h]; rfl
    · rw [h]; split <;> rfl
  dsimp only
  rw [harmed]
  dsimp only
  rw [hs.clean t ht, unclaimed_check]
  cases hg : t.guard.val with
  | false => rfl
  | true => rfl

/-- The state in which the group takes its faults. -/
def struckIllegal (s : State) (r : Run) (w : Wg) (word : Word) : State :=
  struck s ⟨s, w, r, word, r.pc⟩ false (fun _ => illegalWord word) id r w

theorem issue_unclaimed {s : State} {r : Run} {w : Wg} (hs : Smooth s r w) {word : Word} (hh : isHintWord word = false)
    (hu : uniformWord word = false) : exec (.unclaimedEncoding word) s =
      .next ((((((struckIllegal s r w word).raise false w.uid r.pc (badList (fun _ => illegalWord word) r w)).issuedOne w).count
        (s.tagOf w) 0x02 (illegalActs s r w word).length).advanceFree).advance r.core r.port false) := by
  have hacts : (r.group w).map (fun t => (t.tid, unclaimed.act ⟨s, w, r, word, r.pc⟩ false (fun _ t => .ok t none []) t)) =
      illegalActs s r w word :=
    List.map_congr_left fun t ht => by rw [unclaimed_act hs word _ ht]
  have hwait : tbStall (illegalActs s r w word) = none := tbStall_bad fun t _ _ => show cIllegal ≠ cWait by decide
  show execUnclaimedEncoding word s = _
  unfold execUnclaimedEncoding issueThread
  rw [if_neg (by rw [hh]; decide), if_neg (by rw [hu]; decide), hs.issuer]
  dsimp only
  rw [show (w.threads.filter fun t => (r.groups.getD r.grp []).contains t.tid) = r.group w from rfl, heldBack_none hs.free]
  dsimp only
  rw [show (⟨[], false, none, fun _ => none⟩ : Form) = unclaimed from rfl, unclaimed_pending,
    show r.key + r.idx = r.pc from rfl, hacts, hwait]
  exact congrArg (fun v : State => Host.Outcome.next (v.advance r.core r.port false))
    (applyActs_bad s ⟨s, w, r, word, r.pc⟩ false (fun _ => illegalWord word) id r w)

/-- A word that no entry claims, of an opcode that issues per thread, ends its workgroup (R64, R339). -/
theorem endsIllegal_of_thread {word : Word} (hh : isHintWord word = false) (hu : uniformWord word = false) : EndsIllegal word := by
  intro s r w ts _ hst hb hne hlt hts
  have hop : word.extractLsb' 26 6 ≠ 0x3F#6 := by simpa [isHintWord] using hh
  rw [if_neg hop, if_neg (by rw [hu]; decide)] at hts
  obtain ⟨rfl, hs⟩ := hts
  obtain ⟨t, ht⟩ := List.exists_mem_of_ne_nil _ hne
  obtain ⟨R, hraise, hend, hmem, hbar, hruns, hposts⟩ := raise_illegal_ends (s := struckIllegal s r w word) (pc := r.pc) (word := word)
    false (marked_wg (issuer_wg hs) _) hst hb (fs := badList (fun _ => illegalWord word) r w) (fun f hf => by
      obtain ⟨t, _, rfl⟩ := List.mem_map.mp hf
      exact ⟨rfl, rfl⟩) (List.mem_map_of_mem ht) (hlt t ht)
  have hissue := issue_unclaimed hs hh hu
  rw [hraise] at hissue
  have hpass := passesBy_rest hruns hbar w (s.tagOf w) (illegalActs s r w word).length r.core r.port
  obtain ⟨v, x, hv, hfin, hended, hcause, hfpc, hinfo, hexit⟩ := (hend.issuedOne w).passedBy hpass
  refine ⟨_, v, x, hissue, hv, hfin, hended, hcause, hfpc, hinfo, hexit, fun q hq => ?_, hpass.mem.trans hmem, ?_⟩
  · obtain ⟨p, hp, hpq⟩ := hpass.runs q hq
    exact hpq ▸ hruns p hp
  · exact (hposts.before (KeepsPosts.of_tenants rfl)).after ((keepsPosts_issuedOne R w).trans hpass.posts)

/-- The opcodes of the multiplications, of logic and of the immediate shifts (R80) issue per thread. -/
theorem endsIllegal_of_opcode {word : Word} {k : BitVec 6} (h : fld word 26 6 = k) (hk : k = 0x02#6 ∨ k = 0x03#6 ∨ k = 0x0A#6) :
    EndsIllegal word := by
  refine endsIllegal_of_thread ?_ ?_
  · unfold isHintWord
    rw [h]
    rcases hk with rfl | rfl | rfl <;> rfl
  · unfold uniformWord
    rw [h]
    rcases hk with rfl | rfl | rfl <;> rfl

end Sys2Proof.Proofs
end

section
/-! SUPPORT. The words of the integer opcodes 0x01 to 0x03 and 0x0A (R80): what they decode to, and which no entry claims. -/

namespace Sys2Proof.Proofs

open Sys2Proof.Machine Sys2Proof.Laws

/-- A word decodes to the instruction whose fields it is put together from. -/
theorem decode_of_fields {i : Instr} {word : Word} (h : Encoding.Statement i) (e : encode i = some (mkWord word)) :
    decodeWord word = .ok i := h word (e.trans (congrArg some (BitVec.setWidth_eq word)))

/-! ### Three operand fields and a function code -/

theorem word3_opcode (op : BitVec 6) (d : BitVec 7) (a b : BitVec 8) (fn : BitVec 3) : fld (op ++ d ++ a ++ b ++ fn) 26 6 = op := by
  rw [fld_eq]
  simp only [append_toNat]
  omega

theorem word3_code (op : BitVec 6) (d : BitVec 7) (a b : BitVec 8) (fn : BitVec 3) : fld (op ++ d ++ a ++ b ++ fn) 0 3 = fn := by
  rw [fld_eq]
  simp only [append_toNat]
  omega

theorem arith_decodes (d : BitVec 7) (a b : BitVec 8) :
    ∀ p ∈ [(0#3, Instr.iadd d a b), (1#3, .isub d a b), (2#3, .iaddsS d a b), (3#3, .isubsS d a b), (4#3, .iminS d a b),
      (5#3, .iminU d a b), (6#3, .imaxS d a b), (7#3, .imaxU d a b)], decodeWord (0x01#6 ++ d ++ a ++ b ++ p.1) = .ok p.2 := by
  simp only [List.forall_mem_cons, List.not_mem_nil, false_imp_iff, implies_true, and_true]
  exact ⟨decode_of_fields (Encoding.iadd d a b) rfl, decode_of_fields (Encoding.isub d a b) rfl,
    decode_of_fields (Encoding.iaddsS d a b) rfl, decode_of_fields (Encoding.isubsS d a b) rfl,
    decode_of_fields (Encoding.iminS d a b) rfl, decode_of_fields (Encoding.iminU d a b) rfl,
    decode_of_fields (Encoding.imaxS d a b) rfl, decode_of_fields (Encoding.imaxU d a b) rfl⟩

theorem multiply_decodes (d : BitVec 7) (a b : BitVec 8) :
    ∀ p ∈ [(0#3, Instr.imul d a b), (1#3, .imulhS d a b), (2#3, .imulhU d a b), (3#3, .imac d a b), (4#3, .idot4S d a b),
      (5#3, .idot4U d a b), (6#3, .iabsd d a b)], decodeWord (0x02#6 ++ d ++ a ++ b ++ p.1) = .ok p.2 := by
  simp only [List.forall_mem_cons, List.not_mem_nil, false_imp_iff, implies_true, and_true]
  exact ⟨decode_of_fields (Encoding.imul d a b) rfl, decode_of_fields (Encoding.imulhS d a b) rfl,
    decode_of_fields (Encoding.imulhU d a b) rfl, decode_of_fields (Encoding.imac d a b) rfl,
    decode_of_fields (Encoding.idot4S d a b) rfl, decode_of_fields (Encoding.idot4U d a b) rfl,
    decode_of_fields (Encoding.iabsd d a b) rfl⟩

theorem logic_decodes (d : BitVec 7) (a b : BitVec 8) :
    ∀ p ∈ [(0#3, Instr.and d a b), (1#3, .or d a b), (2#3, .xor d a b), (3#3, .andn d a b), (4#3, .orn d a b), (5#3, .xnor d a b)],
      decodeWord (0x03#6 ++ d ++ a ++ b ++ p.1) = .ok p.2 := by
  simp only [List.forall_mem_cons, List.not_mem_nil, false_imp_iff, implies_true, and_true]
  exact ⟨decode_of_fields (Encoding.and d a b) rfl, decode_of_fields (Encoding.or d a b) rfl,
    decode_of_fields (Encoding.xor d a b) rfl, decode_of_fields (Encoding.andn d a b) rfl,
    decode_of_fields (Encoding.orn d a b) rfl, decode_of_fields (Encoding.xnor d a b) rfl⟩

/-- Function code 7 of the multiplications belongs to no form (R115). -/
theorem multiply_rejects (d : BitVec 7) (a b : BitVec 8) : decodeWord (0x02#6 ++ d ++ a ++ b ++ 7#3) = .error .form := by
  unfold decodeWord
  rw [word3_opcode]
  show decodeOp02 _ = _
  unfold decodeOp02
  rw [word3_code]
  rfl

/-- Function codes 6 and 7 of logic belong to no form (R116). -/
theorem logic_rejects (d : BitVec 7) (a b : BitVec 8) {fn : BitVec 3} (h : fn ∈ [6#3, 7#3]) :
    decodeWord (0x03#6 ++ d ++ a ++ b ++ fn) = .error .form := by
  unfold decodeWord
  rw [word3_opcode]
  show decodeOp03 _ = _
  unfold decodeOp03
  rw [word3_code]
  simp only [List.mem_cons, List.not_mem_nil, or_false] at h
  rcases h with rfl | rfl <;> rfl

/-! ### Immediate shifts (R119): the kind, three zero bits and the amount -/

theorem shiftWord_opcode (d : BitVec 7) (a : BitVec 8) (k z : BitVec 3) (n : BitVec 5) :
    fld (0x0A#6 ++ d ++ a ++ k ++ z ++ n) 26 6 = 0x0A#6 := by
  rw [fld_eq]
  simp only [append_toNat]
  omega

theorem shiftWord_kind (d : BitVec 7) (a : BitVec 8) (k z : BitVec 3) (n : BitVec 5) :
    fld (0x0A#6 ++ d ++ a ++ k ++ z ++ n) 5 6 = k ++ z := by
  rw [fld_eq]
  simp only [append_toNat]
  omega

/-- The kind and the zero bits as one field, as the encoder writes them. -/
theorem shiftWord_joined (d : BitVec 7) (a : BitVec 8) (k z : BitVec 3) (n : BitVec 5) :
    (0x0A#6 ++ d ++ a ++ k ++ z ++ n : Word) = 0x0A#6 ++ d ++ a ++ (k ++ z) ++ n := by
  apply BitVec.eq_of_toNat_eq
  simp only [append_toNat]
  omega

theorem shift_decodes (d : BitVec 7) (a : BitVec 8) (n : BitVec 5) :
    ∀ p ∈ [(0#3, Instr.shli d a n), (1#3, .shri d a n), (2#3, .sari d a n), (3#3, .roli d a n), (4#3, .rori d a n)],
      decodeWord (0x0A#6 ++ d ++ a ++ p.1 ++ 0#3 ++ n) = .ok p.2 := by
  simp only [List.forall_mem_cons, List.not_mem_nil, false_imp_iff, implies_true, and_true, shiftWord_joined]
  exact ⟨decode_of_fields (Encoding.shli d a n) rfl, decode_of_fields (Encoding.shri d a n) rfl,
    decode_of_fields (Encoding.sari d a n) rfl, decode_of_fields (Encoding.roli d a n) rfl,
    decode_of_fields (Encoding.rori d a n) rfl⟩

/-- Kinds 5 to 7, and every kind beside a bit that is not zero, belong to no form (R119). -/
theorem shift_rejects (d : BitVec 7) (a : BitVec 8) {k z : BitVec 3} (n : BitVec 5) (h : 5 ≤ k.toNat ∨ z ≠ 0#3) :
    decodeWord (0x0A#6 ++ d ++ a ++ k ++ z ++ n) = .error .form := by
  have hkind : ∀ c : BitVec 6, c.toNat % 8 = 0 → c.toNat < 40 → k ++ z ≠ c := by
    rintro c h8 h40 rfl
    rw [append_toNat] at h8 h40
    rcases h with h | h
    · omega
    · exact h (BitVec.eq_of_toNat_eq (by show z.toNat = 0; omega))
  unfold decodeWord
  rw [shiftWord_opcode]
  show decodeOp0A _ = _
  unfold decodeOp0A
  rw [shiftWord_kind, if_neg (hkind _ (by decide) (by decide)), if_neg (hkind _ (by decide) (by decide)),
    if_neg (hkind _ (by decide) (by decide)), if_neg (hkind _ (by decide) (by decide)), if_neg (hkind _ (by decide) (by decide))]

end Sys2Proof.Proofs
end

section
/-! SUPPORT. The values of the integer results (R114-R119) as their statements give them. -/

namespace Sys2Proof.Proofs

open Sys2Proof.Machine Sys2Proof.Laws

theorem satS32_add (x y : Word) : satS32 (x.toInt + y.toInt) =
    if 2147483647 < x.toInt + y.toInt then 0x7FFFFFFF#32
    else if x.toInt + y.toInt < -2147483648 then 0x80000000#32 else x + y := by
  unfold satS32
  rw [BitVec.ofInt_add, BitVec.ofInt_toInt, BitVec.ofInt_toInt]

theorem satS32_sub (x y : Word) : satS32 (x.toInt - y.toInt) =
    if 2147483647 < x.toInt - y.toInt then 0x7FFFFFFF#32
    else if x.toInt - y.toInt < -2147483648 then 0x80000000#32 else x - y := by
  have h : BitVec.ofInt 32 (x.toInt - y.toInt) = x - y := by
    rw [sub_eq_add_neg, BitVec.ofInt_add, BitVec.ofInt_neg, BitVec.ofInt_toInt, BitVec.ofInt_toInt, sub_eq_add_neg]
  unfold satS32
  rw [h]

theorem dot4_eq (f : BitVec 8 → Int) (x y : Word) : dot4 f x y =
    f (x.extractLsb' 0 8) * f (y.extractLsb' 0 8) + f (x.extractLsb' 8 8) * f (y.extractLsb' 8 8) +
      f (x.extractLsb' 16 8) * f (y.extractLsb' 16 8) + f (x.extractLsb' 24 8) * f (y.extractLsb' 24 8) := by
  unfold dot4
  rw [show List.range 4 = [0, 1, 2, 3] from rfl]
  simp only [List.foldl_cons, List.foldl_nil, Nat.mul_zero, Nat.mul_one, Int.zero_add, Nat.reduceMul]

/-- The unsigned sum of products is a natural number. -/
theorem dot4_toNat (x y : Word) : BitVec.ofInt 32 (dot4 (fun b => (b.toNat : Int)) x y) = BitVec.ofNat 32
    ((x.extractLsb' 0 8).toNat * (y.extractLsb' 0 8).toNat + (x.extractLsb' 8 8).toNat * (y.extractLsb' 8 8).toNat +
      (x.extractLsb' 16 8).toNat * (y.extractLsb' 16 8).toNat + (x.extractLsb' 24 8).toNat * (y.extractLsb' 24 8).toNat) := by
  rw [dot4_eq, ← BitVec.ofInt_natCast]
  push_cast
  rfl

/-- A rotation by less than the width as two shifts. -/
theorem rotateLeft_of_lt (x : Word) {n : Nat} (h : n < 32) : x.rotateLeft n = x <<< n ||| x >>> (32 - n) := by
  rw [BitVec.rotateLeft_def, Nat.mod_eq_of_lt h]

theorem rotateRight_of_lt (x : Word) {n : Nat} (h : n < 32) : x.rotateRight n = x >>> n ||| x <<< (32 - n) := by
  rw [BitVec.rotateRight_def, Nat.mod_eq_of_lt h]

theorem amount_lt (y : Word) : amount y < 32 := Nat.mod_lt _ (by decide)

end Sys2Proof.Proofs
end

section
/-! The integer instructions of chapter 5 (R113-R119): O1 and O2. -/

namespace Sys2Proof.Proofs

open Sys2Proof.Machine Sys2Proof.Laws

/-- Settles O1: the two and three operand forms by what `alu2` and `alu3` do (`alu2_spec`, `alu3_spec`), function code 7 of
opcode 0x02 by what the issue of an unclaimed word does. -/
theorem integerArithmeticCompletes : Obligations.IntegerArithmeticCompletes := by
  unfold Obligations.IntegerArithmeticCompletes
  refine ⟨fun d a b => ?_, fun d a b => ?_, fun d a b => ?_⟩
  · exact ⟨alu2_spec fun _ => rfl, alu2_spec fun _ => rfl,
      FromTwo.congr (f := fun x y => satS32 (x.toInt + y.toInt)) (alu2_spec fun _ => rfl) satS32_add,
      FromTwo.congr (f := fun x y => satS32 (x.toInt - y.toInt)) (alu2_spec fun _ => rfl) satS32_sub,
      FromTwo.congr (f := fun x y => if x.sle y then x else y) (alu2_spec fun _ => rfl)
        fun _ _ => if_congr BitVec.sle_iff_toInt_le rfl rfl,
      FromTwo.congr (f := fun x y => if x.ule y then x else y) (alu2_spec fun _ => rfl)
        fun _ _ => if_congr BitVec.ule_iff_toNat_le rfl rfl,
      FromTwo.congr (f := fun x y => if y.sle x then x else y) (alu2_spec fun _ => rfl)
        fun _ _ => if_congr BitVec.sle_iff_toInt_le rfl rfl,
      FromTwo.congr (f := fun x y => if y.ule x then x else y) (alu2_spec fun _ => rfl)
        fun _ _ => if_congr BitVec.ule_iff_toNat_le rfl rfl,
      alu2_spec fun _ => rfl, alu2_spec fun _ => rfl, alu2_spec fun _ => rfl, alu2_spec fun _ => rfl⟩
  · exact ⟨alu3_spec fun _ => rfl,
      FromThree.congr (f := fun v x y => v + BitVec.ofInt 32 (dot4 BitVec.toInt x y)) (alu3_spec fun _ => rfl)
        fun _ x y => by rw [dot4_eq],
      FromThree.congr (f := fun v x y => v + BitVec.ofInt 32 (dot4 (fun b => (b.toNat : Int)) x y)) (alu3_spec fun _ => rfl)
        fun _ x y => by rw [dot4_toNat],
      alu3_spec fun _ => rfl, alu3_spec fun _ => rfl, alu3_spec fun _ => rfl⟩
  · exact ⟨arith_decodes d a b, multiply_decodes d a b, ⟨.form, multiply_rejects d a b⟩,
      endsIllegal_of_opcode (word3_opcode ..) (.inl rfl)⟩

/-- Settles O2: the register and immediate forms by what `alu2` and `alu1` do, with rotations as two shifts; the words that no
entry claims by what their issue does. -/
theorem logicAndShiftsComplete : Obligations.LogicAndShiftsComplete := by
  unfold Obligations.LogicAndShiftsComplete
  refine ⟨fun d a b => ?_, fun d a => ⟨fun i => ?_, fun n => ?_⟩, fun d a b => ⟨logic_decodes d a b, fun fn hfn => ?_⟩,
    fun d a n => ⟨shift_decodes d a n, fun k z hkz => ?_⟩⟩
  · exact ⟨alu2_spec fun _ => rfl, alu2_spec fun _ => rfl, alu2_spec fun _ => rfl, alu2_spec fun _ => rfl, alu2_spec fun _ => rfl,
      alu2_spec fun _ => rfl, alu2_spec fun _ => rfl, alu2_spec fun _ => rfl, alu2_spec fun _ => rfl,
      FromTwo.congr (f := fun x y => x.rotateLeft (amount y)) (alu2_spec fun _ => rfl) fun x y => rotateLeft_of_lt x (amount_lt y),
      FromTwo.congr (f := fun x y => x.rotateRight (amount y)) (alu2_spec fun _ => rfl) fun x y => rotateRight_of_lt x (amount_lt y)⟩
  · exact ⟨alu1_spec fun _ => rfl, alu1_spec fun _ => rfl, alu1_spec fun _ => rfl, alu1_spec fun _ => rfl⟩
  · exact ⟨alu1_spec fun _ => rfl, alu1_spec fun _ => rfl, alu1_spec fun _ => rfl,
      FromOne.congr (f := fun x => x.rotateLeft n.toNat) (alu1_spec fun _ => rfl) fun x => rotateLeft_of_lt x n.isLt,
      FromOne.congr (f := fun x => x.rotateRight n.toNat) (alu1_spec fun _ => rfl) fun x => rotateRight_of_lt x n.isLt⟩
  · exact ⟨⟨.form, logic_rejects d a b hfn⟩, endsIllegal_of_opcode (word3_opcode ..) (.inr (.inl rfl))⟩
  · exact ⟨⟨.form, shift_rejects d a n hkz⟩, endsIllegal_of_opcode (shiftWord_opcode ..) (.inr (.inr rfl))⟩

end Sys2Proof.Proofs
end

section
/-! SUPPORT. Uniform instructions whose whole effect is one common register (R189): the destination and the sources pass the checks of
R84, and the write is the statement's. -/

namespace Sys2Proof.Proofs

open Sys2Proof.Machine Sys2Proof.Laws

/-- A common destination that exists and sources that can be read are in order for every thread of the run. -/
theorem fitAll_common {r : Run} {w : Wg} {d : BitVec 6} {srcs : List (BitVec 8)} (hd : d.toNat < w.commons.length)
    (hsrc : ∀ f ∈ srcs, canReadUniform w r f) :
    ∀ t ∈ r.everyone w, ∀ o ∈ Opnd.c d.toNat 1 d.toNat :: srcs.map (fun f => .usrc f 1), FitAll w t o := by
  intro t ht o ho
  rcases List.mem_cons.mp ho with rfl | ho
  · exact fitAll_c (Nat.mod_one _) hd
  · obtain ⟨f, hf, rfl⟩ := List.mem_map.mp ho
    exact fitAll_usrc (hsrc f hf) ht

/-- One common register from uniform sources of one register each. -/
theorem completesUniform_common {i : Instr} {d : BitVec 6} {srcs : List (BitVec 8)} {value : Run → Wg → Reg} {op : Who → UAct}
    {word : Word}
    (he : ∀ s, exec i s = issueUniform word (.plain (.c d.toNat 1 d.toNat :: srcs.map fun f => .usrc f 1)) noStallU op s)
    (hop : ∀ x, (∀ f ∈ srcs, canReadUniform x.w x.r f) → op x = .ok (x.put x.s d.toNat [value x.r x.w])) :
    CompletesUniform i (fun _ r w => d.toNat < w.commons.length ∧ ∀ f ∈ srcs, canReadUniform w r f)
      (fun _ r w => withCommon w d.toNat (value r w)) := by
  rintro s r w hs ⟨hd, hsrc⟩
  rw [he]
  exact completesUniform_of hs (f := fun v => withCommon v d.toNat (value r w)) (fun _ => ⟨rfl, rfl⟩)
    (check_plain hs (fitAll_common hd hsrc)) rfl (hop _ hsrc)

/-- The same completion under a stronger condition. -/
theorem CompletesUniform.when {i : Instr} {can can' : State → Run → Wg → Prop} {after : State → Run → Wg → Wg}
    (h : CompletesUniform i can after) (hc : ∀ s r w, can' s r w → can s r w) : CompletesUniform i can' after :=
  fun s r w hs k => h s r w hs (hc s r w k)

theorem calu_spec {i : Instr} {d : BitVec 6} {a b : BitVec 8} {f : Word → Word → Word} (he : ∀ s, exec i s = calu i d a b f s) :
    UniformTwo i d a b f := by
  unfold UniformTwo
  refine CompletesUniform.when (completesUniform_common (srcs := [a, b]) he fun x hx => ?_) fun s r w ⟨hd, ha, hb⟩ => ⟨hd, ?_⟩
  · rw [uint_operand (hx a (by simp)), uint_operand (hx b (by simp))]
  · simp [ha, hb]

/-- The same result said another way. -/
theorem UniformTwo.congr {i : Instr} {d : BitVec 6} {a b : BitVec 8} {f g : Word → Word → Word} (h : UniformTwo i d a b f)
    (e : ∀ x y, f x y = g x y) : UniformTwo i d a b g := (funext fun x => funext (e x) : f = g) ▸ h

theorem caddi_spec (d : BitVec 6) (a : BitVec 8) (n : BitVec 12) :
    CompletesUniform (.caddi d a n) (fun _ r w => d.toNat < w.commons.length ∧ canReadUniform w r a)
      (fun _ r w => withCommon w d.toNat ⟨(uniformOperand w r a).val + n.signExtend 32, (uniformOperand w r a).poison⟩) := by
  have he : ∀ s, exec (.caddi d a n) s = execCaddi d a n s := fun _ => rfl
  refine CompletesUniform.when (completesUniform_common (srcs := [a]) he fun x hx => ?_) fun s r w ⟨hd, ha⟩ => ⟨hd, ?_⟩
  · rw [uint_operand (hx a (by simp))]
  · simp [ha]

/-! ### The value of a comparison (R189) -/

theorem boolWord_slt (x y : Word) : boolWord (x.slt y) = if x.toInt < y.toInt then 1#32 else 0#32 :=
  if_congr BitVec.slt_iff_toInt_lt rfl rfl

theorem boolWord_ult (x y : Word) : boolWord (x.ult y) = if x.toNat < y.toNat then 1#32 else 0#32 :=
  if_congr BitVec.ult_iff_toNat_lt rfl rfl

theorem boolWord_eq (x y : Word) : boolWord (x = y) = if x = y then 1#32 else 0#32 :=
  if_congr decide_eq_true_iff rfl rfl

end Sys2Proof.Proofs
end

section
/-! Scalar arithmetic on common registers (R189, R190): O17. -/

namespace Sys2Proof.Proofs

open Sys2Proof.Machine Sys2Proof.Laws

/-- Settles O17: the two-operand forms by what `calu` does (`calu_spec`), with minima, maxima and comparisons said through the
values of the operands; `CADDI` by the same issue of one source, and its words by the round trip of the encoder. -/
theorem scalarArithmeticCompletes : Obligations.ScalarArithmeticCompletes := by
  unfold Obligations.ScalarArithmeticCompletes
  intro d a b
  exact ⟨calu_spec fun _ => rfl, calu_spec fun _ => rfl, calu_spec fun _ => rfl, calu_spec fun _ => rfl, calu_spec fun _ => rfl,
    calu_spec fun _ => rfl, calu_spec fun _ => rfl, calu_spec fun _ => rfl, calu_spec fun _ => rfl,
    UniformTwo.congr (f := fun x y => if x.sle y then x else y) (calu_spec fun _ => rfl)
      fun _ _ => if_congr BitVec.sle_iff_toInt_le rfl rfl,
    UniformTwo.congr (f := fun x y => if y.sle x then x else y) (calu_spec fun _ => rfl)
      fun _ _ => if_congr BitVec.sle_iff_toInt_le rfl rfl,
    UniformTwo.congr (f := fun x y => if x.ule y then x else y) (calu_spec fun _ => rfl)
      fun _ _ => if_congr BitVec.ule_iff_toNat_le rfl rfl,
    UniformTwo.congr (f := fun x y => if y.ule x then x else y) (calu_spec fun _ => rfl)
      fun _ _ => if_congr BitVec.ule_iff_toNat_le rfl rfl,
    UniformTwo.congr (f := fun x y => boolWord (x.slt y)) (calu_spec fun _ => rfl) boolWord_slt,
    UniformTwo.congr (f := fun x y => boolWord (x.ult y)) (calu_spec fun _ => rfl) boolWord_ult,
    UniformTwo.congr (f := fun x y => boolWord (x = y)) (calu_spec fun _ => rfl) boolWord_eq,
    fun n => ⟨caddi_spec d a n, decode_of_fields (Encoding.caddi d a n) rfl⟩⟩

end Sys2Proof.Proofs
end
